-- ==== Sys2Proof/Word.lean ====
section
/-!
DEFINITION. The words of the D6: bytes, 64-bit words, 256-bit vector data, register numbers (00 R4, 03 R47).
-/

namespace Sys2Proof

/-- One byte of memory (00 R4). -/
abbrev Byte := BitVec 8
/-- A general register's value, an address word, a double (00 R4). -/
abbrev Word := BitVec 64
/-- The data of a vector register (03 R47). -/
abbrev VData := BitVec 256
/-- The number of a general register (03 R47). -/
abbrev Reg := Fin 16
/-- The number of a vector register (03 R47). -/
abbrev VIdx := Fin 8

end Sys2Proof
end

