-- ==== Sys2Proof/Config.lean ====
section
/-!
DEFINITION. Free values and constants of an implementation: none has a body that a proof could see, but for the sizes that the spec fixes.
-/

namespace Sys2Proof.Config

/-- A choice the spec leaves to the hardware, where the tape of the state supplies none (log entry 3). -/
opaque freeChoice : Nat → Nat
/-- SHA-384 of a byte string (16 R296): the spec names the function and does not define it (log entry 8). -/
opaque sha384 : List Byte → BitVec 384
/-- The two signatures of a report (16 R296; log entry 8). -/
opaque ecdsaSign : List Byte → List Byte
opaque lmsSign : List Byte → List Byte
/-- Whether the firmware image found at an HBM address, with the bytes of HBM, verifies under the fused keys (18 R327; log entry 8). -/
opaque imageVerifies : List (Nat × Byte) → Nat → Bool
/-- The image's digest and security version (18 R327 R328; log entry 8). -/
opaque imageDigest : List (Nat × Byte) → Nat → BitVec 384
opaque imageVersion : List (Nat × Byte) → Nat → Nat
/-- The module's serial (16 R296; log entry 8). -/
opaque serial : BitVec 64
/-- A byte of control space that no rule describes, at a time (18 R323; log entry 8). -/
opaque controlByte : Nat → Nat → BitVec 8
/-- What a teller access to a peer window finds at a peer that grants nothing to this module is not the module's to say (18 R322; log entry 12). -/
opaque peerGrants : BitVec 16 → Nat → Bool

end Sys2Proof.Config
end

