-- ==== Sys2Proof/Syntax.lean ====
section
/-!
DEFINITION. The syntax: one constructor of `Instr` for each row of spec/opcode_table.json.
Rows 0 to 167 are instruction words (03 R52 to R57); `_EXT` rows are the two-word forms (03 R53 R54) and
carry the whole combined immediate. The other rows are steps of the module's other agents
(95_what_each_step_holds.md) and carry what singles the step out.
-/

namespace Sys2Proof

/-- Access sizes, field sz (03 R52). -/
inductive Size where
  | b | h | w | d
  deriving DecidableEq, Repr

/-- Rounding modes, field rnd (03 R52, 04 R74). -/
inductive Rnd where
  | rne | rz | ru | rd
  deriving DecidableEq, Repr

/-- Conditions, field cond (03 R52, R61). -/
inductive Cond where
  | eq | ne | lt | ge | lo | hs
  deriving DecidableEq, Repr

/-- The op of `vred` and `vscan` (05 R96). -/
inductive RedOp where
  | add | min | max
  deriving DecidableEq, Repr

/-- Fence scopes (03 R57). -/
inductive Scope where
  | quad | die | module | system
  deriving DecidableEq, Repr

/-- Fence orders (03 R57). -/
inductive Order where
  | acq | rel | acqrel | sc
  deriving DecidableEq, Repr

/-- The formats of `tload` and `tstore` (06 R124). -/
inductive TileFmt where
  | i32 | fp16 | bf16 | fp32
  deriving DecidableEq, Repr

/-- Who sends a command packet (16 R285): a host port, or a peer over a span port. -/
inductive Source where
  | host (port : Nat)
  | peer (span : Nat)
  deriving DecidableEq, Repr

/-- Where an uncorrectable error strikes (17 R309). -/
inductive ErrSite where
  | granule (key : Nat)            -- a purse granule, global sector or bank: a byte of it, as a key of the memory
  | copy (quad line : Nat)         -- a clean copy held by a quad's data cache
  | guest (slice line : Nat)       -- a clean guest line in a slice
  | icache (quad : Nat)            -- a quad's instruction cache
  | tlb (quad : Nat)               -- a quad's translation cache
  | ctlb (cluster : Nat)           -- a cluster's translation cache
  | xreg (berth reg : Nat)         -- a general register of a berth
  | vreg (berth reg : Nat)         -- a vector register of a berth
  | coin (berth : Nat) (survives : Bool)   -- a coin field, one of whose copies survives or not (14 R258)
  | savedCoin (core i : Nat) (survives : Bool)   -- that of a core's saved context: resident ones by berth, then the evicted
  | recCoin (quad i : Nat) (survives : Bool)     -- that of a record of a deque
  | ctxCoin (core i : Nat) (survives : Bool)     -- that of a context of an arrival queue
  | cmdCoin (quad ch i : Nat) (survives : Bool)  -- that of an engine command in its queue
  | msgCoin (i j : Nat) (survives : Bool)        -- that of a message in flight: of stolen records, the j-th one's
  | bursar                         -- state of the bursar
  deriving DecidableEq, Repr

/-- The instructions and steps of the D6: one constructor per row of the opcode table, in its order. -/
inductive Instr where
  -- major 0 (05 R83 R84)
  | add (d a b : Reg) | sub (d a b : Reg) | mul (d a b : Reg) | mulh (d a b : Reg) | mulhz (d a b : Reg)
  | div (d a b : Reg) | divz (d a b : Reg) | rem (d a b : Reg) | remz (d a b : Reg)
  | and (d a b : Reg) | or (d a b : Reg) | xor (d a b : Reg) | andn (d a b : Reg)
  | shl (d a b : Reg) | shlImm (d a : Reg) (n : BitVec 7)
  | shr (d a b : Reg) | shrImm (d a : Reg) (n : BitVec 7)
  | sha (d a b : Reg) | shaImm (d a : Reg) (n : BitVec 7)
  | rot (d a b : Reg) | rotImm (d a : Reg) (n : BitVec 7)
  | min (d a b : Reg) | max (d a b : Reg) | minz (d a b : Reg) | maxz (d a b : Reg)
  | clz (d a : Reg) | ctz (d a : Reg) | popc (d a : Reg) | mov (d a : Reg)
  -- immediates (05 R85), lea (R86), bit fields (R87), compares (R88)
  | addi (d a : Reg) (i : BitVec 17) | addiExt (d a : Reg) (i : BitVec 45)
  | andi (d a : Reg) (i : BitVec 17) | andiExt (d a : Reg) (i : BitVec 45)
  | ori (d a : Reg) (i : BitVec 17) | oriExt (d a : Reg) (i : BitVec 45)
  | xori (d a : Reg) (i : BitVec 17) | xoriExt (d a : Reg) (i : BitVec 45)
  | movi (d : Reg) (i : BitVec 17) | moviExt (d : Reg) (i : BitVec 45)
  | lea (d a : Reg) (o : BitVec 12) | leaExt (d a : Reg) (o : BitVec 40)
  | bfx (d a : Reg) (off wid : BitVec 7) | bfxs (d a : Reg) (off wid : BitVec 7) | bfi (d a : Reg) (off wid : BitVec 7)
  | cmp (c : Cond) (a b : Reg) (skip : BitVec 2)
  | cmpi (c : Cond) (a : Reg) (skip : BitVec 2) (i : BitVec 12)
  | cmpiExt (c : Cond) (a : Reg) (skip : BitVec 2) (i : BitVec 40)
  | tst (ne : Bool) (a b : Reg) (skip : BitVec 2)
  | tstBit (ne : Bool) (a : Reg) (skip : BitVec 2) (n : BitVec 6)
  -- vectors (05 R89)
  | vadd (d a b : VIdx) (r : Rnd) | vsub (d a b : VIdx) (r : Rnd) | vmul (d a b : VIdx) (r : Rnd)
  | vfma (d a b c : VIdx) (r : Rnd) | vfms (d a b c : VIdx) (r : Rnd)
  | vmin (d a b : VIdx) (r : Rnd) (z : Bool) | vmax (d a b : VIdx) (r : Rnd) (z : Bool)
  | vabs (d a : VIdx) (r : Rnd) | vneg (d a : VIdx) (r : Rnd)
  | vand (d a b : VIdx) | vor (d a b : VIdx) | vxor (d a b : VIdx)
  | vshl (d a b : VIdx) | vshr (d a b : VIdx) | vsha (d a b : VIdx)
  | vcmp (d a b : VIdx) (k : Cond)
  | vsel (d a b c : VIdx) | vperm (d a b : VIdx)
  | vbcast (d : VIdx) (x : Reg) (t : BitVec 4)
  | vins (d a : VIdx) (x : Reg) (k : BitVec 5) | vext (a : VIdx) (x : Reg) (k : BitVec 5)
  | vred (d a : VIdx) (r : Rnd) (z : Bool) (o : RedOp) | vscan (d a : VIdx) (r : Rnd) (z : Bool) (o : RedOp)
  | vcvt (d a : VIdx) (z : Bool) (p : BitVec 3) (r : Rnd) (t : BitVec 4)
  | vdot (d a b : VIdx) (r : Rnd)
  | vrcp (d a : VIdx) (r : Rnd) | vrsq (d a : VIdx) (r : Rnd) | vexp2 (d a : VIdx) (r : Rnd)
  | vlog2 (d a : VIdx) (r : Rnd) | vtanh (d a : VIdx) (r : Rnd)
  | vtag (d a : VIdx) (t : BitVec 4)
  | vscaleWrite (d a : VIdx) (x : Reg) | vscaleRead (a : VIdx) (x : Reg)
  | vld2 (d : VIdx) (a : Reg) (f : BitVec 3) (o : BitVec 12) | vld2Ext (d : VIdx) (a : Reg) (f : BitVec 3) (o : BitVec 40)
  -- memory (11)
  | ldv (d : VIdx) (a : Reg) (f : BitVec 3) (o : BitVec 12) | ldvExt (d : VIdx) (a : Reg) (f : BitVec 3) (o : BitVec 40)
  | stv (d : VIdx) (a : Reg) (o : BitVec 12) | stvExt (d : VIdx) (a : Reg) (o : BitVec 40)
  | ld (d a : Reg) (z : Size) (g : Bool) (o : BitVec 12) | ldExt (d a : Reg) (z : Size) (g : Bool) (o : BitVec 40)
  | ldc (d a : Reg) (z : Size) (g : Bool) (o : BitVec 12) | ldcExt (d a : Reg) (z : Size) (g : Bool) (o : BitVec 40)
  | ldf (d a : Reg) (z : Size) (g : Bool) (o : BitVec 12) | ldfExt (d a : Reg) (z : Size) (g : Bool) (o : BitVec 40)
  | feq (d a : Reg) (o : BitVec 12) | feqExt (d a : Reg) (o : BitVec 40)
  | st (d a : Reg) (z : Size) (o : BitVec 12) | stExt (d a : Reg) (z : Size) (o : BitVec 40)
  | stf (d a : Reg) (z : Size) (o : BitVec 12) | stfExt (d a : Reg) (z : Size) (o : BitVec 40)
  | fez (a : Reg) (o : BitVec 12) | fezExt (a : Reg) (o : BitVec 40)
  | pref (a : Reg) (v : Bool) (o : BitVec 12) | prefExt (a : Reg) (v : Bool) (o : BitVec 40)
  | aadd (d a b : Reg) (dbl : Bool) | aand (d a b : Reg) (dbl : Bool) | aor (d a b : Reg) (dbl : Bool)
  | axor (d a b : Reg) (dbl : Bool) | amin (d a b : Reg) (dbl g : Bool) | amax (d a b : Reg) (dbl g : Bool)
  | aswp (d a b : Reg) (dbl : Bool) | acas (d a b : Reg) (dbl : Bool)
  | link (d a b : Reg) (aOld bOld : Bool) | grab (d a h : Reg)
  | fence (s : Scope) (o : Order) | fenceb
  -- gangs and tiles (06), assayer (07)
  | gang (d a : Reg) | gangv (d a : Reg) | disband | tzero
  | tload (a b : Reg) (f : TileFmt) | tstore (a b : Reg) (r : Rnd) (f : TileFmt)
  | tshape (a : Reg) | tside (a b : Reg) | mma (a b : Reg)
  | assay (d a : Reg) | astat (d : Reg) (sel : BitVec 3) | mmas (a b : Reg) (side : Bool)
  -- engines (12)
  | cpy (d a : Reg) (ch : BitVec 2) | gath (a : Reg) | scat (a : Reg) | qfence (q : BitVec 5) | stage (d : Reg)
  | waitm (a : Reg) (ch : BitVec 2) | expect (a : Reg) (k : BitVec 3) | waite (d : Reg) (k : BitVec 3)
  -- control (15)
  | b (disp : BitVec 25) | bExt (disp : BitVec 53) | bl (disp : BitVec 25) | blExt (disp : BitVec 53)
  | jr (d a : Reg) | ret | nalloc (d a : Reg) | nfree (a : Reg) | redex (q a b : Reg) (range : Bool) | done
  | spawn (a b : Reg) | rnext (d : Reg) | rsplit (d a : Reg) | migr (a : Reg) | bar (a : Reg) | red (d a b : Reg)
  | qwait (d : Reg) | qwaitNet (d a : Reg) | cls (n : BitVec 2) | clsReg (a : Reg) | yield
  -- system (17)
  | trap (a : Reg) (cause : BitVec 4) | eret (d a : Reg) (mode : BitVec 2)
  | tlbi (n a b : Reg) (named : Bool) | tlbiAll (n : Reg) (named : Bool)
  | save (a : Reg) | rest (a : Reg) | dbrk (code : BitVec 8)
  | srd (d : Reg) (n : BitVec 12) | swr (d : Reg) (n : BitVec 12) | mqRcv (v : VIdx) | mqSnd (v : VIdx)
  -- first words that are no instruction (03 R58 R60)
  | illegalInstruction | mislanded
  -- work placement (13)
  | dispatch (berth : Nat) | admission (berth : Nat) | contextArrival (msg : Nat) | arrivalSpillReadmission (core : Nat)
  | remoteRedex (msg : Nat) | refill (quad : Nat) | stealProbe (thief victim net : Nat) | stealReply (msg : Nat)
  -- memory system (08, 09, 11)
  | waitTableReissue (berth : Nat) | memoryReply (berth : Nat) | settle (line : Nat) | rehome (berth : Nat)
  | pageWalk (quad net va : Nat)
  -- engines (12), tiles (06), assayer (07)
  | commandStart (quad ch : Nat) | tellerCopy (quad ch : Nat) (granules : List Nat) | replayAnswer (quad ch : Nat) (retry : Bool)
  | gatherRow (quad row : Nat) | scatterRow (quad row : Nat) | engineCompletion (quad ch : Nat)
  | operandsConsumed (berth : Nat) | mmaCompletion (berth : Nat) | assayCompletion (berth : Nat)
  -- messages between threads (15)
  | barrierSweep (msg : Nat) | barrierRelease (core net k : Nat) | flitArrival (msg : Nat) | flitResend (berth : Nat)
  -- faults, voiding, mints (14, 17)
  | faultRedex (berth : Nat) | voidTrap (berth : Nat) | mintReturn (msg : Nat) | mintBorrow (berth : Nat)
  | mintClose (net : Nat) (state reason : BitVec 2) | qwaitWake (net : Nat) | qwaitRetry (berth : Nat) | deadline (net : Nat)
  -- the bursar's life of a net (13)
  | bind (entry ox oy pool cells : Nat) | netCompletion (net : Nat) | park (net quad : Nat) | rebind (net : Nat)
  | bankRoleChange (slice : Nat) | watchdogExpiry (berth : Nat)
  -- outside (16, 18)
  | hostWrite (port pa : Nat) (bytes : List Byte) | hostRead (port pa n : Nat)
  | peerMemoryAccess (span : Nat) (write : Bool) (pa n : Nat) (bytes : List Byte)
  | commandPacket (src : Source) (queue : Nat) (bytes : List Byte)
  -- commands the bursar takes from the head of a queue (18 R325)
  | launch (queue : Nat) | abort (queue : Nat) | halt (queue : Nat) | resume (queue : Nat) | watchdog (queue : Nat) | arm (queue : Nat)
  | claim (queue : Nat) | handover (queue : Nat) | accept (queue : Nat) | release (queue : Nat) | heartbeat (queue : Nat)
  | acl (queue : Nat) | slicemap (queue : Nat) (late : List Nat) | bankrole (queue : Nat) | island (queue : Nat)
  | powercap (queue : Nat) | window (queue : Nat) | fwload (queue : Nat) | attest (queue : Nat) | snapshot (queue : Nat)
  -- module events (16, 17, 18)
  | handoverTimeout | successorLinkDown | ownerLinkDown | ownerTimeout
  | spanLinkAttestation (span : Nat) (peer : BitVec 16) | coldReset | warmReset
  | correctedError (die : Nat) | uncorrectableError (site : ErrSite)
  | thermalThrottle (die : Nat) | throttleEnd (die : Nat) | thermalTrip (die : Nat)
  | governorBubble (core : Nat) | hostPortTraining (port : Nat) (cxl : Bool) | islandPointLowering (die : Nat)
  deriving DecidableEq, Repr

end Sys2Proof
end

