-- ==== Sys2Proof/WellFormed.lean ====
section
/-!
DEFINITION. Which instructions are well formed: those that some pair of words encodes (03 R57 R58 and the entries' further illegal uses), and those events whose names lie in the module (01 R7 R9).
-/

namespace Sys2Proof

/-- The module has 262,144 quads, named in the physical form of `%quad` (01 R7 R19). -/
def quadCount : Nat := 262144
/-- Four cores a quad, sixteen berths a core (01 R7). -/
def coreCount : Nat := 1048576
def berthCount : Nat := 16777216
/-- 4,096 vault slices, one a cluster (01 R14). -/
def sliceCount : Nat := 4096

/-- `ld.d` and its kin require sg = 0 (11 R191). -/
def Size.signOk (z : Size) (g : Bool) : Bool := !(z == .d && g)

/-- Well-formedness: what the fields' types do not already say. -/
def wellFormed : Instr → Bool
  -- 05 R100: an odd vd faults ILLEGAL
  | .vld2 d _ _ _ | .vld2Ext d _ _ _ => d.val % 2 == 0
  -- 11 R191 R193
  | .ld _ _ z g _ | .ldExt _ _ z g _ | .ldc _ _ z g _ | .ldcExt _ _ z g _ | .ldf _ _ z g _ | .ldfExt _ _ z g _ => z.signOk g
  -- 11 R204: rd = rb with both nonzero faults ILLEGAL
  | .grab d _ h => !(d == h && d != 0)
  -- 07 R137
  | .astat _ sel => decide (sel.toNat < 6)
  -- 12 R228
  | .qfence q => q != 0
  -- 17 R314: void, watchdog and the reserved codes fault ILLEGAL
  | .trap _ c => !(c == 11 || c == 12 || c == 14 || c == 15)
  -- 17 R315
  | .eret _ _ m => m != 3
  -- 17 R313 R316: rd names a net only with mod<1> = 1
  | .tlbi n _ _ named | .tlbiAll n named => named || n == 0
  -- 15 R281: %mq.rcv and %mq.snd move vector registers only
  | .srd _ n => n != 0x011
  | .swr _ n => n != 0x010
  -- events: the names they carry lie in the module
  | .dispatch b | .admission b | .waitTableReissue b | .memoryReply b | .rehome b | .operandsConsumed b | .mmaCompletion b
  | .assayCompletion b | .flitResend b | .faultRedex b | .voidTrap b | .mintBorrow b | .qwaitRetry b | .watchdogExpiry b =>
      decide (b < berthCount)
  | .arrivalSpillReadmission c | .governorBubble c => decide (c < coreCount)
  | .barrierRelease c n k => decide (c < coreCount) && decide (n < 4096) && decide (k < 8)
  | .refill q | .gatherRow q _ | .scatterRow q _ => decide (q < quadCount)
  | .stealProbe t v n => decide (t < quadCount) && decide (v < quadCount) && decide (n < 4096)
  | .pageWalk q n va => decide (q < quadCount) && decide (n < 4096) && decide (va < 2 ^ 56)
  | .commandStart q ch | .tellerCopy q ch _ | .replayAnswer q ch _ | .engineCompletion q ch => decide (q < quadCount) && decide (ch < 5)
  | .mintClose n _ _ | .qwaitWake n | .deadline n | .netCompletion n | .rebind n => decide (n < 4096)
  | .park n q => decide (n < 4096) && decide (q < quadCount)
  | .bankRoleChange sl => decide (sl < sliceCount)
  | .bind _ ox oy pool cells => decide (ox < 64) && decide (oy < 64) && decide (pool < 0x30000) && decide (cells < 0x30000)
  | .hostWrite p pa bs => decide (p < 2) && decide (pa + bs.length ≤ 2 ^ 52)
  | .hostRead p pa n => decide (p < 2) && decide (pa + n ≤ 2 ^ 52)
  | .peerMemoryAccess sp _ pa n _ => decide (sp < 16) && decide (pa + n ≤ 2 ^ 52)
  | .commandPacket src q _ => decide (q < 64) && (match src with | .host p => decide (p < 2) | .peer sp => decide (sp < 16))
  | .launch q | .abort q | .halt q | .resume q | .watchdog q | .arm q | .claim q | .handover q | .accept q | .release q
  | .heartbeat q | .acl q | .bankrole q | .island q | .powercap q | .window q | .fwload q | .attest q | .snapshot q => decide (q < 64)
  | .slicemap q late => decide (q < 64) && late.all (fun c => decide (c < sliceCount))
  | .spanLinkAttestation sp _ => decide (sp < 16)
  | .correctedError d | .thermalThrottle d | .throttleEnd d | .thermalTrip d | .islandPointLowering d => decide (d < 16)
  | .hostPortTraining p _ => decide (p < 2)
  | .uncorrectableError (.xreg b r) => decide (b < berthCount) && decide (r < 16)
  | .uncorrectableError (.vreg b r) => decide (b < berthCount) && decide (r < 8)
  | .uncorrectableError (.coin b _) => decide (b < berthCount)
  | .uncorrectableError (.copy q _) | .uncorrectableError (.icache q) | .uncorrectableError (.tlb q) => decide (q < quadCount)
  | _ => true

end Sys2Proof
end

