-- ==== Sys2Proof/Decode.lean ====
section
/-!
DEFINITION. Decoding (03 R52 to R60), total on any words and rejecting by name, and after it the encoder.
A word is a Nat below 2^32 here; `field w lo n` is its slice of n bits from bit lo up.
-/

namespace Sys2Proof

/-- Why a first word (with its second, where it takes one) is no instruction (03 R58 R60). -/
inductive DecodeError where
  | mislanded                     -- a first word with the marker 0b1111 (R60)
  | illegalMajor (major : Nat)    -- majors 29 to 59 (R55)
  | illegalForm                   -- an unassigned fn, op, cond, sz or sg value, or a nonzero unused field (R56 R57 R58)
  | illegalExtension              -- E = 1 where no extension is taken, or the next word lacks the marker (R53)
  deriving DecidableEq, Repr

/-- Bits lo + n − 1 down to lo (00 R6). -/
def field (w lo n : Nat) : Nat := w / 2 ^ lo % 2 ^ n

def regAt (w lo : Nat) : Reg := ⟨w / 2 ^ lo % 16, Nat.mod_lt _ (by decide)⟩
def vregAt (w lo : Nat) : VIdx := ⟨w / 2 ^ lo % 8, Nat.mod_lt _ (by decide)⟩

def sizeOf2 : Nat → Size
  | 0 => .b | 1 => .h | 2 => .w | _ => .d
def rndOf2 : Nat → Rnd
  | 0 => .rne | 1 => .rz | 2 => .ru | _ => .rd
def condOf3 : Nat → Option Cond
  | 0 => some .eq | 1 => some .ne | 2 => some .lt | 3 => some .ge | 4 => some .lo | 5 => some .hs | _ => none
def redOf3 : Nat → Option RedOp
  | 0 => some .add | 1 => some .min | 2 => some .max | _ => none
def scopeOf2 : Nat → Scope
  | 0 => .quad | 1 => .die | 2 => .module | _ => .system
def orderOf2 : Nat → Order
  | 0 => .acq | 1 => .rel | 2 => .acqrel | _ => .sc
def tileFmtOf4 : Nat → Option TileFmt
  | 3 => some .i32 | 6 => some .fp16 | 7 => some .bf16 | 8 => some .fp32 | _ => none

def Size.code : Size → Nat
  | .b => 0 | .h => 1 | .w => 2 | .d => 3
def Rnd.code : Rnd → Nat
  | .rne => 0 | .rz => 1 | .ru => 2 | .rd => 3
def Cond.code : Cond → Nat
  | .eq => 0 | .ne => 1 | .lt => 2 | .ge => 3 | .lo => 4 | .hs => 5
def RedOp.code : RedOp → Nat
  | .add => 0 | .min => 1 | .max => 2
def Scope.code : Scope → Nat
  | .quad => 0 | .die => 1 | .module => 2 | .system => 3
def Order.code : Order → Nat
  | .acq => 0 | .rel => 1 | .acqrel => 2 | .sc => 3
def TileFmt.code : TileFmt → Nat
  | .i32 => 3 | .fp16 => 6 | .bf16 => 7 | .fp32 => 8
def bit (b : Bool) : Nat := if b then 1 else 0

/-- The check that a field is zero, as R57 asks of every field an entry does not use. -/
def guardZero (z : Nat) (i : Instr) : Option Instr := if z = 0 then some i else none

/-- Major 0 (03 R56 R57, 05 R83): with K = 1 (mod bit 7) a shift takes its amount from mod<6:0>. -/
def decMajor0 (w : Nat) : Option Instr :=
  let d := regAt w 21
  let a := regAt w 17
  let b := regAt w 13
  let bz := field w 13 4
  let md := field w 0 8
  let n := BitVec.ofNat 7 md
  let fn := field w 8 5
  if md < 128 then
    if md = 0 then
      match fn with
      | 0 => some (.add d a b) | 1 => some (.sub d a b) | 2 => some (.mul d a b) | 3 => some (.mulh d a b) | 4 => some (.mulhz d a b)
      | 5 => some (.div d a b) | 6 => some (.divz d a b) | 7 => some (.rem d a b) | 8 => some (.remz d a b)
      | 9 => some (.and d a b) | 10 => some (.or d a b) | 11 => some (.xor d a b) | 12 => some (.andn d a b)
      | 13 => some (.shl d a b) | 14 => some (.shr d a b) | 15 => some (.sha d a b) | 16 => some (.rot d a b)
      | 17 => some (.min d a b) | 18 => some (.max d a b) | 19 => some (.minz d a b) | 20 => some (.maxz d a b)
      | 21 => guardZero bz (.clz d a) | 22 => guardZero bz (.ctz d a) | 23 => guardZero bz (.popc d a) | 24 => guardZero bz (.mov d a)
      | _ => none
    else none
  else if bz = 0 then
    match fn with
    | 13 => some (.shlImm d a n) | 14 => some (.shrImm d a n) | 15 => some (.shaImm d a n) | 16 => some (.rotImm d a n)
    | _ => none
  else none

/-- A major-13 form with one vector source and no vb or c (05 R89). -/
def unaryV (w : Nat) (i : Instr) : Option Instr := guardZero (field w 12 7 + field w 0 4) i
/-- A major-13 form with two vector sources, no c, no sel (05 R89). -/
def binaryV (w : Nat) (i : Instr) : Option Instr := guardZero (field w 12 4 + field w 0 4) i

/-- Major 13 (03 R56, 05 R89): vector operations. -/
def decMajor13 (w : Nat) : Option Instr :=
  let d := vregAt w 22
  let a := vregAt w 19
  let b := vregAt w 16
  let c := vregAt w 12
  let x := regAt w 12
  let r := rndOf2 (field w 4 2)
  let rz := field w 4 2
  let s := field w 0 4
  let dz := field w 22 3
  let az := field w 19 3
  let bz := field w 16 3
  let cz := field w 12 4
  let c15 := field w 15 1
  let k5 := BitVec.ofNat 5 (field w 0 5)
  let t := BitVec.ofNat 4 s
  match field w 6 6 with
  | 0 => binaryV w (.vadd d a b r) | 1 => binaryV w (.vsub d a b r) | 2 => binaryV w (.vmul d a b r)
  | 3 => guardZero (c15 + s) (.vfma d a b c r) | 4 => guardZero (c15 + s) (.vfms d a b c r)
  | 5 => guardZero (cz + field w 1 3) (.vmin d a b r (field w 0 1 == 1))
  | 6 => guardZero (cz + field w 1 3) (.vmax d a b r (field w 0 1 == 1))
  | 7 => unaryV w (.vabs d a r) | 8 => unaryV w (.vneg d a r)
  | 9 => guardZero (cz + rz + s) (.vand d a b) | 10 => guardZero (cz + rz + s) (.vor d a b) | 11 => guardZero (cz + rz + s) (.vxor d a b)
  | 12 => guardZero (cz + rz + s) (.vshl d a b) | 13 => guardZero (cz + rz + s) (.vshr d a b) | 14 => guardZero (cz + rz + s) (.vsha d a b)
  | 15 => match condOf3 (field w 0 3) with
      | some k => guardZero (cz + rz + field w 3 1) (.vcmp d a b k)
      | none => none
  | 16 => guardZero (c15 + rz + s) (.vsel d a b c)
  | 17 => guardZero (cz + rz + s) (.vperm d a b)
  | 18 => guardZero (az + bz + rz) (.vbcast d x t)
  | 19 => guardZero (bz + field w 5 1) (.vins d a x k5)
  | 20 => guardZero (dz + bz + field w 5 1) (.vext a x k5)
  | 21 => match redOf3 (field w 0 3) with
      | some o => guardZero (bz + cz) (.vred d a r (field w 3 1 == 1) o)
      | none => none
  | 22 => match redOf3 (field w 0 3) with
      | some o => guardZero (bz + cz) (.vscan d a r (field w 3 1 == 1) o)
      | none => none
  | 23 => guardZero (field w 17 2 + c15) (.vcvt d a (field w 16 1 == 1) (BitVec.ofNat 3 (field w 12 3)) r t)
  | 24 => binaryV w (.vdot d a b r)
  | 25 => unaryV w (.vrcp d a r) | 26 => unaryV w (.vrsq d a r) | 27 => unaryV w (.vexp2 d a r)
  | 28 => unaryV w (.vlog2 d a r) | 29 => unaryV w (.vtanh d a r)
  | 30 => guardZero (bz + cz + rz) (.vtag d a t)
  | 31 => match s with
      | 0 => guardZero (bz + rz) (.vscaleWrite d a x)
      | 1 => guardZero (dz + bz + rz) (.vscaleRead a x)
      | _ => none
  | _ => none

/-- Majors 14, 15 and 16 (03 R55, 11 R191 to R197, 05 R100): memory forms, the offset given apart for the two-word forms. -/
def decMem (w : Nat) (ext : Option Nat) : Option Instr :=
  let d := regAt w 21
  let a := regAt w 17
  let v := vregAt w 21
  let d24 := field w 24 1
  let dz := field w 21 4
  let z := sizeOf2 (field w 15 2)
  let g := field w 14 1 == 1
  let g3 := field w 14 3
  let f := BitVec.ofNat 3 g3
  let o := BitVec.ofNat 12 (field w 0 12)
  let pick := fun (short : Instr) (long : BitVec 40 → Instr) => match ext with
    | none => short
    | some x => long (BitVec.ofNat 40 (x * 2 ^ 12 + field w 0 12))
  match field w 26 6, field w 12 2 with
  | 14, 0 => guardZero d24 (pick (.ldv v a f o) (.ldvExt v a f))
  | 14, 1 => guardZero (d24 + g3) (pick (.stv v a o) (.stvExt v a))
  | 14, 2 => guardZero (d24 + field w 21 1) (pick (.vld2 v a f o) (.vld2Ext v a f))
  | 15, 0 => if z.signOk g then some (pick (.ld d a z g o) (.ldExt d a z g)) else none
  | 15, 1 => if z.signOk g then some (pick (.ldc d a z g o) (.ldcExt d a z g)) else none
  | 15, 2 => if z.signOk g then some (pick (.ldf d a z g o) (.ldfExt d a z g)) else none
  | 15, 3 => guardZero g3 (pick (.feq d a o) (.feqExt d a))
  | 16, 0 => guardZero (field w 14 1) (pick (.st d a z o) (.stExt d a z))
  | 16, 1 => guardZero (field w 14 1) (pick (.stf d a z o) (.stfExt d a z))
  | 16, 2 => guardZero (dz + g3) (pick (.fez a o) (.fezExt a))
  | 16, 3 => guardZero (dz + field w 16 1 + field w 14 1) (pick (.pref a (field w 15 1 == 1) o) (.prefExt a (field w 15 1 == 1)))
  | _, _ => none

/-- Major 17 (03 R57, 11 R198): atomics; sz is 10 or 11, sg only with `amin` and `amax`. -/
def decAtomic (w : Nat) : Option Instr :=
  let d := regAt w 21
  let a := regAt w 17
  let b := regAt w 13
  let dbl := field w 6 1 == 1
  let g := field w 5 1 == 1
  if field w 7 1 = 1 ∧ field w 0 5 = 0 then
    match field w 8 5 with
    | 0 => guardZero (field w 5 1) (.aadd d a b dbl) | 1 => guardZero (field w 5 1) (.aand d a b dbl)
    | 2 => guardZero (field w 5 1) (.aor d a b dbl) | 3 => guardZero (field w 5 1) (.axor d a b dbl)
    | 4 => some (.amin d a b dbl g) | 5 => some (.amax d a b dbl g)
    | 6 => guardZero (field w 5 1) (.aswp d a b dbl) | 7 => guardZero (field w 5 1) (.acas d a b dbl)
    | _ => none
  else none

/-- Majors 18 to 22 (03 R55): link and grab, fences, gangs and tiles, the assayer, the engines. -/
def decUnits (w : Nat) : Option Instr :=
  let d := regAt w 21
  let a := regAt w 17
  let b := regAt w 13
  let dz := field w 21 4
  let az := field w 17 4
  let bz := field w 13 4
  let m := field w 0 8
  match field w 26 6, field w 8 5 with
  | 18, 0 => guardZero (field w 2 6) (.link d a b (field w 0 1 == 1) (field w 1 1 == 1))
  | 18, 1 => if d = b ∧ d ≠ 0 then none else guardZero m (.grab d a b)
  | 19, 0 => guardZero (dz + az + bz + field w 0 4) (.fence (scopeOf2 (field w 6 2)) (orderOf2 (field w 4 2)))
  | 19, 1 => guardZero (dz + az + bz + m) .fenceb
  | 20, 0 => guardZero (bz + m) (.gang d a)
  | 20, 1 => guardZero (bz + m) (.gangv d a)
  | 20, 2 => guardZero (dz + az + bz + m) .disband
  | 20, 3 => guardZero (dz + az + bz + m) .tzero
  | 20, 4 => match tileFmtOf4 (field w 0 4) with
      | some f => guardZero (dz + field w 4 4) (.tload a b f)
      | none => none
  | 20, 5 => match tileFmtOf4 (field w 0 4) with
      | some f => guardZero (dz + field w 6 2) (.tstore a b (rndOf2 (field w 4 2)) f)
      | none => none
  | 20, 6 => guardZero (dz + bz + m) (.tshape a)
  | 20, 7 => guardZero (dz + m) (.tside a b)
  | 20, 8 => guardZero (dz + m) (.mma a b)
  | 21, 0 => guardZero (bz + m) (.assay d a)
  | 21, 1 => if m < 6 then guardZero (az + bz) (.astat d (BitVec.ofNat 3 m)) else none
  | 21, 2 => guardZero (dz + field w 1 7) (.mmas a b (field w 0 1 == 1))
  | 22, 0 => guardZero (bz + field w 2 6) (.cpy d a (BitVec.ofNat 2 (field w 0 2)))
  | 22, 1 => guardZero (dz + bz + m) (.gath a)
  | 22, 2 => guardZero (dz + bz + m) (.scat a)
  | 22, 3 => if field w 0 5 = 0 then none else guardZero (dz + az + bz + field w 5 3) (.qfence (BitVec.ofNat 5 (field w 0 5)))
  | 22, 4 => guardZero (az + bz + m) (.stage d)
  | 22, 5 => guardZero (dz + bz + field w 2 6) (.waitm a (BitVec.ofNat 2 (field w 0 2)))
  | 22, 6 => guardZero (dz + bz + field w 3 5) (.expect a (BitVec.ofNat 3 (field w 0 3)))
  | 22, 7 => guardZero (az + bz + field w 3 5) (.waite d (BitVec.ofNat 3 (field w 0 3)))
  | _, _ => none

/-- Majors 25 and 26 (15 R259, 17 R313): control and system. -/
def decControl (w : Nat) : Option Instr :=
  let d := regAt w 21
  let a := regAt w 17
  let b := regAt w 13
  let dz := field w 21 4
  let az := field w 17 4
  let bz := field w 13 4
  let m := field w 0 8
  match field w 26 6, field w 8 5 with
  | 25, 0 => guardZero (bz + m) (.jr d a)
  | 25, 1 => guardZero (dz + az + bz + m) .ret
  | 25, 2 => guardZero (bz + m) (.nalloc d a)
  | 25, 3 => guardZero (dz + bz + m) (.nfree a)
  | 25, 4 => guardZero (field w 1 7) (.redex d a b (field w 0 1 == 1))
  | 25, 5 => guardZero (dz + az + bz + m) .done
  | 25, 6 => guardZero (dz + m) (.spawn a b)
  | 25, 7 => guardZero (az + bz + m) (.rnext d)
  | 25, 8 => guardZero (bz + m) (.rsplit d a)
  | 25, 9 => guardZero (dz + bz + m) (.migr a)
  | 25, 10 => guardZero (dz + bz + m) (.bar a)
  | 25, 11 => guardZero m (.red d a b)
  | 25, 12 => if m = 1 then guardZero (az + bz) (.qwait d) else guardZero (bz + m) (.qwaitNet d a)
  | 25, 13 => if field w 2 1 = 0 then guardZero (dz + az + bz + field w 3 5) (.cls (BitVec.ofNat 2 (field w 0 2)))
      else guardZero (dz + bz + field w 3 5 + field w 0 2) (.clsReg a)
  | 25, 14 => guardZero (dz + az + bz + m) .yield
  | 26, 0 => if m = 11 ∨ m = 12 ∨ m = 14 ∨ m = 15 then none else guardZero (dz + bz + field w 4 4) (.trap a (BitVec.ofNat 4 (field w 0 4)))
  | 26, 1 => if m = 3 then none else guardZero (bz + field w 2 6) (.eret d a (BitVec.ofNat 2 (field w 0 2)))
  | 26, 2 =>
      let named := field w 1 1 == 1
      if named = false ∧ dz ≠ 0 then none
      else if field w 0 1 = 0 then guardZero (field w 2 6) (.tlbi d a b named)
      else guardZero (az + bz + field w 2 6) (.tlbiAll d named)
  | 26, 3 => guardZero (dz + bz + m) (.save a)
  | 26, 4 => guardZero (dz + bz + m) (.rest a)
  | 26, 5 => guardZero (dz + az + bz) (.dbrk (BitVec.ofNat 8 m))
  | _, _ => none

/-- Majors 1 to 12 (03 R52 R55 R57): immediates, lea, bit fields, compares; `ext` is the extension of a two-word form. -/
def decImm (w : Nat) (ext : Option Nat) : Option Instr :=
  let d := regAt w 21
  let a := regAt w 17
  let az := field w 17 4
  let i := BitVec.ofNat 17 (field w 0 17)
  let pick := fun (short : Instr) (long : BitVec 45 → Instr) => match ext with
    | none => short
    | some x => long (BitVec.ofNat 45 (x * 2 ^ 17 + field w 0 17))
  let off := BitVec.ofNat 7 (field w 10 7)
  let wid := BitVec.ofNat 7 (field w 3 7)
  let low := field w 0 3
  let ca := regAt w 18
  let cb := regAt w 14
  let cbz := field w 14 4
  let sk := BitVec.ofNat 2 (field w 12 2)
  let i12 := field w 0 12
  match field w 26 6 with
  | 1 => some (pick (.addi d a i) (.addiExt d a))
  | 2 => some (pick (.andi d a i) (.andiExt d a))
  | 3 => some (pick (.ori d a i) (.oriExt d a))
  | 4 => some (pick (.xori d a i) (.xoriExt d a))
  | 5 => guardZero az (pick (.movi d i) (.moviExt d))
  | 6 => guardZero (field w 12 5) (match ext with
      | none => .lea d a (BitVec.ofNat 12 i12)
      | some x => .leaExt d a (BitVec.ofNat 40 (x * 2 ^ 12 + i12)))
  | 7 => guardZero low (.bfx d a off wid)
  | 8 => guardZero low (.bfxs d a off wid)
  | 9 => guardZero low (.bfi d a off wid)
  | 10 => match condOf3 (field w 22 3) with
      | some c => guardZero i12 (.cmp c ca cb sk)
      | none => none
  | 11 => match condOf3 (field w 22 3) with
      | some c => guardZero cbz (match ext with
          | none => .cmpi c ca sk (BitVec.ofNat 12 i12)
          | some x => .cmpiExt c ca sk (BitVec.ofNat 40 (x * 2 ^ 12 + i12)))
      | none => none
  | 12 =>
      let ne := field w 22 1 == 1
      if field w 23 2 ≠ 0 then none
      else if field w 11 1 = 0 then guardZero i12 (.tst ne ca cb sk)
      else guardZero (cbz + field w 6 5) (.tstBit ne ca sk (BitVec.ofNat 6 (field w 0 6)))
  | _ => none

/-- Majors 23, 24, 27 and 28 (15 R260 R281, 17 R320): branches and special registers. -/
def decRest (w : Nat) (ext : Option Nat) : Option Instr :=
  let d := regAt w 21
  let disp := BitVec.ofNat 25 (field w 0 25)
  let n := field w 0 12
  let nz := field w 12 9      -- imm17<16:12> and ra
  match field w 26 6 with
  | 23 => some (match ext with | none => .b disp | some x => .bExt (BitVec.ofNat 53 (x * 2 ^ 25 + field w 0 25)))
  | 24 => some (match ext with | none => .bl disp | some x => .blExt (BitVec.ofNat 53 (x * 2 ^ 25 + field w 0 25)))
  | 27 => if nz = 0 then
        if n = 0x011 then (if field w 24 1 = 1 then some (.mqRcv (vregAt w 21)) else none) else some (.srd d (BitVec.ofNat 12 n))
      else none
  | 28 => if nz = 0 then
        if n = 0x010 then (if field w 24 1 = 1 then some (.mqSnd (vregAt w 21)) else none) else some (.swr d (BitVec.ofNat 12 n))
      else none
  | _ => none

/-- Only the I, M, C and J forms of R54 take an extension (03 R53 R54): a word of major 6 or 14 whose op R55 leaves unassigned names none of those
    forms, so its E = 1 faults ILLEGAL before a second word is fetched. -/
def takesExt (w : Nat) : Bool :=
  match field w 26 6 with
  | 1 | 2 | 3 | 4 | 5 | 11 | 15 | 16 | 23 | 24 => true
  | 6 => field w 12 2 == 0
  | 14 => field w 12 2 != 3
  | _ => false

/-- The instruction of a first word whose E bit and extension have been settled (03 R59: `Assigned`). -/
def decodeForm (w : Nat) (ext : Option Nat) : Option Instr :=
  let m := field w 26 6
  if m = 0 then decMajor0 w
  else if m ≤ 12 then decImm w ext
  else if m = 13 then decMajor13 w
  else if m ≤ 16 then decMem w ext
  else if m = 17 then decAtomic w
  else if m ≤ 22 then decUnits w
  else if m = 25 ∨ m = 26 then decControl w
  else decRest w ext

/-- Decoding of a first word and, where it takes one, the word after it (03 R59): total, rejecting by name.
    The second result is the length in words. -/
def decode (w e : Nat) : Except DecodeError (Instr × Nat) :=
  if field w 28 4 = 15 then .error .mislanded
  else if field w 26 6 > 28 then .error (.illegalMajor (field w 26 6))
  else if field w 25 1 = 1 then
    if takesExt w = false then .error .illegalExtension
    else if field e 28 4 ≠ 15 then .error .illegalExtension
    else match decodeForm w (some (field e 0 28)) with
      | some i => .ok (i, 2)
      | none => .error .illegalForm
  else match decodeForm w none with
    | some i => .ok (i, 1)
    | none => .error .illegalForm

/-- The little-endian number of a list of bytes (00 R4). -/
def leNat : List Byte → Nat
  | [] => 0
  | b :: bs => b.toNat + 256 * leNat bs

/-- The n bytes of a number, lowest first (00 R4). -/
def leBytes : Nat → Nat → List Byte
  | 0, _ => []
  | n + 1, v => BitVec.ofNat 8 v :: leBytes n (v / 256)

/-- Decoding at the head of a byte string: the instruction and the bytes after it. Missing bytes read as zero. -/
def decodeBytes (bs : List Byte) : Except DecodeError (Instr × List Byte) :=
  match decode (leNat (bs.take 4)) (leNat ((bs.drop 4).take 4)) with
  | .ok (i, n) => .ok (i, bs.drop (4 * n))
  | .error r => .error r

/-- The instruction the decoder reads from a word numbered as the opcode table numbers it; the bytes above nbits are zero. -/
def decodeTableWord (nbits w : Nat) : Option Instr :=
  match decodeBytes (leBytes 8 (w % 2 ^ nbits)) with
  | .ok (i, _) => some i
  | .error _ => none

/-! ### The encoder (03 R52): each format laid out from the high field to the low. -/

def wordA (maj d a b fn m : Nat) : Nat := maj * 2 ^ 26 + d * 2 ^ 21 + a * 2 ^ 17 + b * 2 ^ 13 + fn * 2 ^ 8 + m
def wordI (maj e d a i : Nat) : Nat := maj * 2 ^ 26 + e * 2 ^ 25 + d * 2 ^ 21 + a * 2 ^ 17 + i
def wordC (maj e c a b s i : Nat) : Nat := maj * 2 ^ 26 + e * 2 ^ 25 + c * 2 ^ 22 + a * 2 ^ 18 + b * 2 ^ 14 + s * 2 ^ 12 + i
def wordV (fn d a b c r s : Nat) : Nat := 13 * 2 ^ 26 + d * 2 ^ 22 + a * 2 ^ 19 + b * 2 ^ 16 + c * 2 ^ 12 + fn * 2 ^ 6 + r * 2 ^ 4 + s
def wordM (maj e d a g op o : Nat) : Nat := maj * 2 ^ 26 + e * 2 ^ 25 + d * 2 ^ 21 + a * 2 ^ 17 + g * 2 ^ 14 + op * 2 ^ 12 + o
def wordJ (maj e disp : Nat) : Nat := maj * 2 ^ 26 + e * 2 ^ 25 + disp
/-- The extension word (03 R53). -/
def wordE (x : Nat) : Nat := 15 * 2 ^ 28 + x

def encI (maj : Nat) (d a : Reg) (i : BitVec 17) : List Nat := [wordI maj 0 d a i.toNat]
def encIExt (maj : Nat) (d a : Reg) (i : BitVec 45) : List Nat := [wordI maj 1 d a (i.toNat % 2 ^ 17), wordE (i.toNat / 2 ^ 17)]
def encM (maj : Nat) (d a g op : Nat) (o : BitVec 12) : List Nat := [wordM maj 0 d a g op o.toNat]
def encMExt (maj : Nat) (d a g op : Nat) (o : BitVec 40) : List Nat := [wordM maj 1 d a g op (o.toNat % 2 ^ 12), wordE (o.toNat / 2 ^ 12)]
/-- The atomics' mod field: sz 10 or 11, and sg (03 R57). -/
def atomMod (dbl g : Bool) : Nat := 128 + 64 * bit dbl + 32 * bit g

/-- The words of an instruction, first word first; none for what is no instruction word. -/
def encode : Instr → Option (List Nat)
  | .add d a b => some [wordA 0 d a b 0 0] | .sub d a b => some [wordA 0 d a b 1 0] | .mul d a b => some [wordA 0 d a b 2 0]
  | .mulh d a b => some [wordA 0 d a b 3 0] | .mulhz d a b => some [wordA 0 d a b 4 0] | .div d a b => some [wordA 0 d a b 5 0]
  | .divz d a b => some [wordA 0 d a b 6 0] | .rem d a b => some [wordA 0 d a b 7 0] | .remz d a b => some [wordA 0 d a b 8 0]
  | .and d a b => some [wordA 0 d a b 9 0] | .or d a b => some [wordA 0 d a b 10 0] | .xor d a b => some [wordA 0 d a b 11 0]
  | .andn d a b => some [wordA 0 d a b 12 0] | .shl d a b => some [wordA 0 d a b 13 0] | .shr d a b => some [wordA 0 d a b 14 0]
  | .sha d a b => some [wordA 0 d a b 15 0] | .rot d a b => some [wordA 0 d a b 16 0] | .min d a b => some [wordA 0 d a b 17 0]
  | .max d a b => some [wordA 0 d a b 18 0] | .minz d a b => some [wordA 0 d a b 19 0] | .maxz d a b => some [wordA 0 d a b 20 0]
  | .shlImm d a n => some [wordA 0 d a 0 13 (128 + n.toNat)] | .shrImm d a n => some [wordA 0 d a 0 14 (128 + n.toNat)]
  | .shaImm d a n => some [wordA 0 d a 0 15 (128 + n.toNat)] | .rotImm d a n => some [wordA 0 d a 0 16 (128 + n.toNat)]
  | .clz d a => some [wordA 0 d a 0 21 0] | .ctz d a => some [wordA 0 d a 0 22 0] | .popc d a => some [wordA 0 d a 0 23 0]
  | .mov d a => some [wordA 0 d a 0 24 0]
  | .addi d a i => some (encI 1 d a i) | .addiExt d a i => some (encIExt 1 d a i)
  | .andi d a i => some (encI 2 d a i) | .andiExt d a i => some (encIExt 2 d a i)
  | .ori d a i => some (encI 3 d a i) | .oriExt d a i => some (encIExt 3 d a i)
  | .xori d a i => some (encI 4 d a i) | .xoriExt d a i => some (encIExt 4 d a i)
  | .movi d i => some (encI 5 d 0 i) | .moviExt d i => some (encIExt 5 d 0 i)
  | .lea d a o => some (encM 6 d a 0 0 o) | .leaExt d a o => some (encMExt 6 d a 0 0 o)
  | .bfx d a off wid => some [wordI 7 0 d a (off.toNat * 2 ^ 10 + wid.toNat * 2 ^ 3)]
  | .bfxs d a off wid => some [wordI 8 0 d a (off.toNat * 2 ^ 10 + wid.toNat * 2 ^ 3)]
  | .bfi d a off wid => some [wordI 9 0 d a (off.toNat * 2 ^ 10 + wid.toNat * 2 ^ 3)]
  | .cmp c a b s => some [wordC 10 0 c.code a b s.toNat 0]
  | .cmpi c a s i => some [wordC 11 0 c.code a 0 s.toNat i.toNat]
  | .cmpiExt c a s i => some [wordC 11 1 c.code a 0 s.toNat (i.toNat % 2 ^ 12), wordE (i.toNat / 2 ^ 12)]
  | .tst ne a b s => some [wordC 12 0 (bit ne) a b s.toNat 0]
  | .tstBit ne a s n => some [wordC 12 0 (bit ne) a 0 s.toNat (2 ^ 11 + n.toNat)]
  | .vadd d a b r => some [wordV 0 d a b 0 r.code 0] | .vsub d a b r => some [wordV 1 d a b 0 r.code 0]
  | .vmul d a b r => some [wordV 2 d a b 0 r.code 0] | .vfma d a b c r => some [wordV 3 d a b c r.code 0]
  | .vfms d a b c r => some [wordV 4 d a b c r.code 0] | .vmin d a b r z => some [wordV 5 d a b 0 r.code (bit z)]
  | .vmax d a b r z => some [wordV 6 d a b 0 r.code (bit z)] | .vabs d a r => some [wordV 7 d a 0 0 r.code 0]
  | .vneg d a r => some [wordV 8 d a 0 0 r.code 0] | .vand d a b => some [wordV 9 d a b 0 0 0] | .vor d a b => some [wordV 10 d a b 0 0 0]
  | .vxor d a b => some [wordV 11 d a b 0 0 0] | .vshl d a b => some [wordV 12 d a b 0 0 0] | .vshr d a b => some [wordV 13 d a b 0 0 0]
  | .vsha d a b => some [wordV 14 d a b 0 0 0] | .vcmp d a b k => some [wordV 15 d a b 0 0 k.code] | .vsel d a b c => some [wordV 16 d a b c 0 0]
  | .vperm d a b => some [wordV 17 d a b 0 0 0] | .vbcast d x t => some [wordV 18 d 0 0 x 0 t.toNat]
  | .vins d a x k => some [wordV 19 d a 0 x (k.toNat / 16) (k.toNat % 16)] | .vext a x k => some [wordV 20 0 a 0 x (k.toNat / 16) (k.toNat % 16)]
  | .vred d a r z o => some [wordV 21 d a 0 0 r.code (8 * bit z + o.code)] | .vscan d a r z o => some [wordV 22 d a 0 0 r.code (8 * bit z + o.code)]
  | .vcvt d a z p r t => some [wordV 23 d a (bit z) p.toNat r.code t.toNat] | .vdot d a b r => some [wordV 24 d a b 0 r.code 0]
  | .vrcp d a r => some [wordV 25 d a 0 0 r.code 0] | .vrsq d a r => some [wordV 26 d a 0 0 r.code 0] | .vexp2 d a r => some [wordV 27 d a 0 0 r.code 0]
  | .vlog2 d a r => some [wordV 28 d a 0 0 r.code 0] | .vtanh d a r => some [wordV 29 d a 0 0 r.code 0] | .vtag d a t => some [wordV 30 d a 0 0 0 t.toNat]
  | .vscaleWrite d a x => some [wordV 31 d a 0 x 0 0] | .vscaleRead a x => some [wordV 31 0 a 0 x 0 1]
  | .vld2 d a f o => some (encM 14 d a f.toNat 2 o) | .vld2Ext d a f o => some (encMExt 14 d a f.toNat 2 o)
  | .ldv d a f o => some (encM 14 d a f.toNat 0 o) | .ldvExt d a f o => some (encMExt 14 d a f.toNat 0 o)
  | .stv d a o => some (encM 14 d a 0 1 o) | .stvExt d a o => some (encMExt 14 d a 0 1 o)
  | .ld d a z g o => some (encM 15 d a (2 * z.code + bit g) 0 o) | .ldExt d a z g o => some (encMExt 15 d a (2 * z.code + bit g) 0 o)
  | .ldc d a z g o => some (encM 15 d a (2 * z.code + bit g) 1 o) | .ldcExt d a z g o => some (encMExt 15 d a (2 * z.code + bit g) 1 o)
  | .ldf d a z g o => some (encM 15 d a (2 * z.code + bit g) 2 o) | .ldfExt d a z g o => some (encMExt 15 d a (2 * z.code + bit g) 2 o)
  | .feq d a o => some (encM 15 d a 0 3 o) | .feqExt d a o => some (encMExt 15 d a 0 3 o)
  | .st d a z o => some (encM 16 d a (2 * z.code) 0 o) | .stExt d a z o => some (encMExt 16 d a (2 * z.code) 0 o)
  | .stf d a z o => some (encM 16 d a (2 * z.code) 1 o) | .stfExt d a z o => some (encMExt 16 d a (2 * z.code) 1 o)
  | .fez a o => some (encM 16 0 a 0 2 o) | .fezExt a o => some (encMExt 16 0 a 0 2 o)
  | .pref a v o => some (encM 16 0 a (2 * bit v) 3 o) | .prefExt a v o => some (encMExt 16 0 a (2 * bit v) 3 o)
  | .aadd d a b w => some [wordA 17 d a b 0 (atomMod w false)] | .aand d a b w => some [wordA 17 d a b 1 (atomMod w false)]
  | .aor d a b w => some [wordA 17 d a b 2 (atomMod w false)] | .axor d a b w => some [wordA 17 d a b 3 (atomMod w false)]
  | .amin d a b w g => some [wordA 17 d a b 4 (atomMod w g)] | .amax d a b w g => some [wordA 17 d a b 5 (atomMod w g)]
  | .aswp d a b w => some [wordA 17 d a b 6 (atomMod w false)] | .acas d a b w => some [wordA 17 d a b 7 (atomMod w false)]
  | .link d a b ao bo => some [wordA 18 d a b 0 (bit ao + 2 * bit bo)] | .grab d a h => some [wordA 18 d a h 1 0]
  | .fence s o => some [wordA 19 0 0 0 0 (64 * s.code + 16 * o.code)] | .fenceb => some [wordA 19 0 0 0 1 0]
  | .gang d a => some [wordA 20 d a 0 0 0] | .gangv d a => some [wordA 20 d a 0 1 0] | .disband => some [wordA 20 0 0 0 2 0]
  | .tzero => some [wordA 20 0 0 0 3 0] | .tload a b f => some [wordA 20 0 a b 4 f.code]
  | .tstore a b r f => some [wordA 20 0 a b 5 (16 * r.code + f.code)] | .tshape a => some [wordA 20 0 a 0 6 0]
  | .tside a b => some [wordA 20 0 a b 7 0] | .mma a b => some [wordA 20 0 a b 8 0]
  | .assay d a => some [wordA 21 d a 0 0 0] | .astat d s => some [wordA 21 d 0 0 1 s.toNat] | .mmas a b s => some [wordA 21 0 a b 2 (bit s)]
  | .cpy d a ch => some [wordA 22 d a 0 0 ch.toNat] | .gath a => some [wordA 22 0 a 0 1 0] | .scat a => some [wordA 22 0 a 0 2 0]
  | .qfence q => some [wordA 22 0 0 0 3 q.toNat] | .stage d => some [wordA 22 d 0 0 4 0] | .waitm a ch => some [wordA 22 0 a 0 5 ch.toNat]
  | .expect a k => some [wordA 22 0 a 0 6 k.toNat] | .waite d k => some [wordA 22 d 0 0 7 k.toNat]
  | .b x => some [wordJ 23 0 x.toNat] | .bExt x => some [wordJ 23 1 (x.toNat % 2 ^ 25), wordE (x.toNat / 2 ^ 25)]
  | .bl x => some [wordJ 24 0 x.toNat] | .blExt x => some [wordJ 24 1 (x.toNat % 2 ^ 25), wordE (x.toNat / 2 ^ 25)]
  | .jr d a => some [wordA 25 d a 0 0 0] | .ret => some [wordA 25 0 0 0 1 0] | .nalloc d a => some [wordA 25 d a 0 2 0]
  | .nfree a => some [wordA 25 0 a 0 3 0] | .redex q a b t => some [wordA 25 q a b 4 (bit t)] | .done => some [wordA 25 0 0 0 5 0]
  | .spawn a b => some [wordA 25 0 a b 6 0] | .rnext d => some [wordA 25 d 0 0 7 0] | .rsplit d a => some [wordA 25 d a 0 8 0]
  | .migr a => some [wordA 25 0 a 0 9 0] | .bar a => some [wordA 25 0 a 0 10 0] | .red d a b => some [wordA 25 d a b 11 0]
  | .qwait d => some [wordA 25 d 0 0 12 1] | .qwaitNet d a => some [wordA 25 d a 0 12 0] | .cls n => some [wordA 25 0 0 0 13 n.toNat]
  | .clsReg a => some [wordA 25 0 a 0 13 4] | .yield => some [wordA 25 0 0 0 14 0]
  | .trap a c => some [wordA 26 0 a 0 0 c.toNat] | .eret d a m => some [wordA 26 d a 0 1 m.toNat]
  | .tlbi n a b m => some [wordA 26 n a b 2 (2 * bit m)] | .tlbiAll n m => some [wordA 26 n 0 0 2 (1 + 2 * bit m)]
  | .save a => some [wordA 26 0 a 0 3 0] | .rest a => some [wordA 26 0 a 0 4 0] | .dbrk c => some [wordA 26 0 0 0 5 c.toNat]
  | .srd d n => some [wordI 27 0 d 0 n.toNat] | .swr d n => some [wordI 28 0 d 0 n.toNat]
  | .mqRcv v => some [wordI 27 0 (8 + v.val) 0 0x011] | .mqSnd v => some [wordI 28 0 (8 + v.val) 0 0x010]
  | _ => none

end Sys2Proof
end

