-- ==== Sys2Proof/Machine/State.lean ====
section
/-!
DEFINITION. The state of the module: plain data, holding every piece of state the spec gives it (INVENTORY.md, State).
Quads, berths and cores are named by numbers: a quad by its physical `%quad` form (01 R7), a berth by 64·quad + 16·core + berth,
a core by 4·quad + core. Sparse collections are lists of key and value pairs (`Tbl`), a missing key standing for the initial value.
-/

namespace Sys2Proof.Machine

/-- A sparse table: key and value pairs. -/
abbrev Tbl (α : Type) := List (Nat × α)

/-- Format tags of vector registers (04 R78). -/
inductive Tag where
  | raw | i8 | i16 | i32 | e4m3 | e5m2 | fp16 | bf16 | fp32 | f4b
  deriving DecidableEq, Repr

/-- Fault causes (17 R297). -/
inductive Cause where
  | illegal | mislanded | format | scaleSeq | align | page | access | expectRange | poison | linkCorrupt | gangBroken | void | watchdog | debug
  deriving DecidableEq, Repr

/-- A vector register: data, tag and side word, written together (03 R49). -/
structure VReg where
  data : VData := 0
  tag : Tag := .raw
  side : Word := 0
  deriving DecidableEq, Repr

/-- The touched set of a thread (09 R170): up to eight slices, or a mask of dies. -/
inductive Touched where
  | slices (l : List Nat)
  | dies (mask : BitVec 16)
  deriving DecidableEq, Repr

/-- What a fault records (17 R299). -/
structure FaultInfo where
  cause : Cause := .illegal
  info : BitVec 32 := 0
  pc : BitVec 56 := 0
  addr : Word := 0
  sw : Bool := false
  lnk : Bool := false
  reg : Bool := false
  deriving DecidableEq, Repr

/-- A waiting full/empty load (11 R195): berth, thread, memory key, bytes, zero-extension, destination, `ldc` or `ldf`, length of the instruction. -/
structure ParkReq where
  berth : Nat
  tid : Nat
  key : Nat
  n : Nat
  zext : Bool
  rd : Reg
  clear : Bool
  len : Nat
  deriving DecidableEq, Repr

/-- An old end of a `link` (02 R39): its consumed slot, its cell (an offset in the own purse), and the far port that its claim found. -/
structure OldEnd where
  slot : Word
  cell : Nat
  far : Word := 0
  claimed : Bool := false
  redirected : Bool := false
  deriving DecidableEq, Repr

/-- A side of the wire that a `link` makes (02 R39 R41): the port to be joined, the value its slot holds until then, and the other value that R41
    lets pass for it. A side is reached through a consumed slot, its face, with that slot's cell; the new end of a `link`, and a side whose
    half-join has been made, have none. -/
structure WireSide where
  port : Word
  exp : Word
  alt : Word := 0
  face : Option Word := none
  cell : Option Nat := none         -- a memory key
  made : Bool := false
  deriving DecidableEq, Repr

/-- The progress of a `link` (02 R39, 11 R201 R202): its old ends, the new end joined with a single old one, and what is still to be done. -/
structure LinkProg where
  rd : Reg
  status : Nat := 0
  olds : List OldEnd := []
  new : Word := 0
  sides : List WireSide := []           -- the two sides of its wire, once every old end is redirected
  grown : Bool := false             -- it has completed a meeting, so its sides are no longer those of its own cells (02 R41)
  gone : Option Word := none        -- another party has completed a meeting with it, through this slot
  cells : List Nat := []            -- memory keys of the cells that go back when it ends
  resolved : Bool := false          -- no half-join is left
  push : Option (Word × Word) := none
  onHold : Bool := false            -- the last try found HOLD (02 R40)
  rehome : Option Nat := none       -- its last request was answered REHOME at this physical address (08 R150)
  deriving DecidableEq, Repr

/-- What keeps a thread out of rotation (03 R11 and the entries). -/
inductive Wait where
  | ready
  | sent                               -- its redex or context has left; waits until the receiver has entered it
  | reply                              -- its access has been performed; the reply is on its way
  | added (key n time : Nat)           -- an `aadd` that crosses the bank net, performed on n bytes at a clearing time; its reply is on its way (01 R17)
  | fetch                              -- its instruction's word or translation is being fetched (03 R51, 08 R156); the pc stays
  | rehomed (pa : Nat)                 -- its request was answered REHOME (08 R150); the pc stays on the instruction
  | rehomedAdd (pa n amt : Nat) (rd : Reg) (lead : Option Nat)  -- its `aadd` of amt on n bytes was answered REHOME, alone, or combined with that of the
                                       -- berth `lead` (08 R150); the pc stays
  | room                               -- waits for queue or scoreboard room; the pc stays on the instruction
  | spill                              -- waits for a block of the spill pool (13 R239); the pc stays
  | cells (n : Nat)                    -- a `link` waits for n free cells (02 R39); the pc stays
  | held                               -- waits for a held sub-tile or a bank changing role (06 R107, 08 R148); the pc stays
  | borrow                             -- a borrow is on its way to the mint (14 R251); the pc stays
  | parked (r : ParkReq)               -- holds an entry of a wait table (11 R195)
  | refused (r : ParkReq)              -- refused by a full wait table (11 R195)
  | mark (ch v : Nat)                  -- `waitm` (12 R230)
  | counter (k : Nat) (rd : Reg)       -- `waite` (12 R231)
  | bar (k : Nat) (gen : Bool)         -- 15 R274
  | red (k : Nat) (gen : Bool) (rd : Reg)
  | qwait (net : Nat) (rd : Reg)       -- registered at a mint (14 R256)
  | qretry (net : Nat) (rd : Reg)      -- found the waiter table full
  | flit (v : VIdx)                    -- `srd` of %mq.rcv (15 R283)
  | send (data : VData) (dst : Nat)    -- a flit not yet accepted (15 R282)
  | gangop                             -- a gang or tile operation in progress (06 R119)
  | assay (rd : Reg)                   -- an assay in progress (07 R136)
  | link (p : LinkProg)                -- a link from its first claim on, or that has only its push left
  | fault (block : Nat)                -- parked on a fault; the key of its block (17 R301)
  | faultPending (f : FaultInfo)       -- parked on a fault; every block of the quad is held (17 R298)
  deriving DecidableEq, Repr

/-- A thread's architectural state (03 R47, 17 R304), its net and what it waits for. `tid` names the thread across pre-emption (09 R158). -/
structure Ctx where
  tid : Nat := 0
  net : Nat := 0
  regs : Vector Word 16 := Vector.replicate 16 0
  vecs : Vector VReg 8 := Vector.replicate 8 {}
  pc : BitVec 56 := 0
  coin : Nat := 0
  pts : Nat := 0
  cls : BitVec 2 := 0
  fflags : BitVec 5 := 0
  report : Vector Word 6 := Vector.replicate 6 0
  touched : Touched := .slices []
  range : Option (Word × Word) := none
  broken : Bool := false
  brokenVec : Bool := false            -- the gang whose end left the broken mark was a vector gang (06 R109)
  mq : List (VData × Nat) := []        -- received flits, oldest first, with the clearing time each carries
  wait : Wait := .ready
  regErr : List Nat := []              -- uncorrectable errors not yet reported: 0-15 an x, 16-23 a v register, 32 more for a gang member's (17 R309)
  woken : Bool := false                -- woken with VOIDED by `qwait`: takes no VOID trap (14 R256)
  lent : Nat := 0                      -- borrows granted to the instruction at the pc that it has not come to yet, of 2^32 grains each (14 R251)
  desc : Option (Nat × List Byte) := none  -- the descriptor that the instruction at the pc has read, before it waits (12 R209), with its schedule place
  waited : Nat := 0                    -- watched eighths of a cycle of the present wait (17 R308)
  slot : Nat := 0                      -- where its record stands in the eviction area while it is evicted (17 R305)
  deriving DecidableEq, Repr

/-- A held berth (13 R247): its thread and the issue counters. -/
structure Berth where
  ctx : Ctx := {}
  p : Nat := 0
  g : Nat := 0
  gave : Bool := false                 -- a pending `yield` (15 R280)
  deriving DecidableEq, Repr

/-- An operand record as read (06 R110). -/
structure Operand where
  tag : Nat := 0
  base : Nat := 0
  seq0 : Nat := 0
  k : Nat := 0
  stride : Nat := 0
  deriving DecidableEq, Repr

/-- An assay record's header as read (07 R133). -/
structure AssayHead where
  src : Operand := {}
  n : Nat := 0
  status : Nat := 0
  terms : Nat := 0
  resid : Nat := 0
  deriving DecidableEq, Repr

/-- A byte string as it lies in memory: keys and sizes of its pieces, in order. -/
abbrev Pieces := List (Nat × Nat)

/-- A matrix operation in progress (06 R127, 07 R138): where what it reads lies, and its result once the operands are consumed. A row of an
    operand is one byte string; of an assayed operand it is a value and an index row for each term. -/
structure MatOp where
  a : Operand := {}
  b : Operand := {}
  side : Option Bool := none                   -- the assayed side of an `mmas`: false for A
  head : AssayHead := {}
  resid : List (Nat × Nat × Nat) := []         -- residual entries of the record: row, position, element
  rowsA : List (Nat × List Pieces) := []
  rowsB : List (Nat × List Pieces) := []
  tilesA : List (Nat × Pieces) := []           -- scale tiles by ordinal, whole or their headers alone
  tilesB : List (Nat × Pieces) := []
  rest : Pieces := []                          -- the header and the residual list of an assay record
  consumed : Bool := false
  poisoned : Bool := false
  result : List (Nat × Nat) := []              -- memory keys of accumulator elements and their new bits
  flags : BitVec 5 := 0
  deriving DecidableEq, Repr

/-- A matrix gang (06 R105 R117 R126). -/
structure MGang where
  x0 : Nat
  y0 : Nat
  w : Nat
  h : Nat
  shape : Option (List (Nat × Nat)) := none
  sideA : Word := 0
  sideB : Word := 0
  op : Option MatOp := none
  deriving DecidableEq, Repr

/-- A vector gang (06 R108): member berths other than the leader's, in member order, with their registers. -/
structure VGang where
  size : Nat
  index : Nat                                  -- the leader's member index
  members : List (Nat × Nat × Vector VReg 8)   -- member index, berth, registers
  deriving DecidableEq, Repr

/-- An assay in progress (07 R136). -/
structure AssayOp where
  berth : Nat
  cluster : Nat
  src : Operand
  n : Nat
  tmax : Nat
  bound : Nat
  rows : List (Nat × List Pieces) := []
  tiles : List (Nat × Pieces) := []
  heads : List (List Byte) := []               -- the first sectors of the scale tiles, as the check of their numbers has read them (07 R136)
  record : Pieces := []                        -- every byte that the record may take (07 R134)
  consumed : Bool := false
  bytes : List Byte := []                      -- the record as decided, once the operands are consumed
  report : Vector Word 6 := Vector.replicate 6 0
  status : Nat := 0
  poisoned : Bool := false
  deriving DecidableEq, Repr

/-- A plain global store, cleared and not yet settled (09 R168 R169). -/
structure Store where
  tid : Nat
  addr : Nat
  bytes : List Byte
  wts : Nat
  deriving DecidableEq, Repr

/-- A line's home times (09 R165). -/
structure LineTime where
  wts : Nat := 0
  rts : Nat := 0
  deriving DecidableEq, Repr

/-- A leased copy (09 R165) in a quad's data cache, or as a guest line in a CACHE bank of a slice, for its die (08 R151). -/
structure Copy where
  guest : Bool
  holder : Nat
  line : Nat
  data : List Byte
  wts : Nat
  lend : Nat
  gtick : Nat
  deriving DecidableEq, Repr

/-- A translation cache entry (08 R155): of a quad or of a cluster. -/
structure TlbEnt where
  cluster : Bool
  holder : Nat
  net : Nat
  bits : Nat                 -- log2 of the page size
  va : Nat
  pa : Nat
  r : Bool
  w : Bool
  x : Bool
  n : Bool
  deriving DecidableEq, Repr

/-- A redex record (02 R31) with the clearing time it carries (09 R161). -/
structure Rec where
  a : Word
  b : Word
  coin : Nat
  net : Nat
  cls : BitVec 2
  typ : Nat
  time : Nat := 0
  deriving DecidableEq, Repr

/-- A context in an arrival queue, a spill or in flight (15 R270). -/
structure Context where
  net : Nat
  cls : BitVec 2
  pts : Nat
  x : List Word              -- x1 to x7
  pc : BitVec 56
  coin : Nat
  quad : Nat
  core : Nat
  broken : Bool := false     -- the thread's broken mark, which `migr` leaves as it is (06 R109; log entry 88)
  brokenVec : Bool := false
  seq : Nat := 0             -- the order of arrival at its core
  slot : Nat := 0            -- where its 96 bytes stand while it is in the arrival spill (13 R243)
  deriving DecidableEq, Repr

/-- A command descriptor as read (12 R210 R211). -/
structure Desc where
  aw : Word := 0
  bw : Word := 0
  len : Nat := 0
  cnt : Bool := false
  ctr : Nat := 0
  cont : Bool := false
  dep : Nat := 0
  dch : Nat := 0
  strict : Bool := false
  pool : Bool := false
  unit : Bool := false
  side0 : Word := 0
  side1 : Word := 0
  depVal : Nat := 0
  tlen : Nat := 0
  n : Nat := 0
  row : Nat := 0
  idx : Word := 0
  stat : Word := 0
  pitch : Nat := 0
  stride : Nat := 0
  deriving DecidableEq, Repr

inductive CmdKind where
  | copy | gather | scatter | fence (mask : BitVec 5)
  deriving DecidableEq, Repr

/-- A row of a gather or scatter that has begun: its index, what of it has moved, and whether a part was poisoned (12 R220 R223). -/
structure RowProg where
  row : Nat
  idx : Nat
  moved : List Nat                      -- the granules of the row done
  bad : Bool
  deriving DecidableEq, Repr

/-- A queued engine command (12 R208 R209 R215). `seq` tells the order of entry on all queues; a `qfence` has one number in all of its queues. -/
structure Cmd where
  kind : CmdKind
  desc : Desc := {}
  coin : Nat
  net : Nat
  cls : BitVec 2
  id : Nat := 0
  seq : Nat
  tid : Nat
  quad : Nat
  descAddr : Word := 0
  started : Bool := false
  moved : List Nat := []                -- granules or rows done
  idxs : List Nat := []                 -- the indices read so far, in list order (12 R223)
  rows : List RowProg := []             -- rows begun and not yet done
  snap : Option (List (Option (List Byte × Bool))) := none  -- the source as it stood, and what of it was poisoned, for ranges that overlap as shown
                                                            -- (12 R222); nothing for a granule whose read faulted
  waitOp : Bool := false                -- DEP = 10 not yet met
  stopped : Option Nat := none          -- the virtual address of a page request (12 R220)
  statRow : Option Nat := none          -- the row whose status write made the page request (12 R223)
  failed : Option Cause := none         -- an engine fault met (12 R219)
  voided : Bool := false
  time : Nat := 0
  deriving DecidableEq, Repr

/-- A fault with no parked thread that waits for a fault block: of an engine command (12 R219, 17 R298), or of a unit whose coin was
    recovered (14 R258), for which `eng` is false. -/
structure EngFault where
  seq : Nat
  eng : Bool := true
  cause : Cause
  coin : Nat
  cls : BitVec 2
  descAddr : Word
  time : Nat
  deriving DecidableEq, Repr

/-- A teller channel or the collector (12 R208 R212). -/
structure Chan where
  queue : List Cmd := []
  next : Nat := 1
  mark : Nat := 0
  time : Nat := 0                       -- the largest clearing time of its completed commands (09 R161)
  deriving DecidableEq, Repr

/-- An expect counter (12 R213). -/
structure Counter where
  count : Nat := 0
  under : Bool := false
  time : Nat := 0
  deriving DecidableEq, Repr

/-- A barrier context of a core, net and identifier (15 R274). -/
structure BarCtx where
  gen : Bool := false
  arrived : Bool := false
  rect : Word := 0
  isRed : Bool := false
  got : List (Nat × Word) := []         -- at the north-west core: member cores whose arrival has come, with their values
  time : Nat := 0                       -- the largest clearing time of the core's arrivals (09 R161)
  deriving DecidableEq, Repr

/-- States of a bind record (13 R235). -/
inductive NetState where
  | free | bound | parked | voiding
  deriving DecidableEq, Repr

/-- A bind record (13 R235) with the launch's sender, tag and reply address, and the watchdog limit (17 R308). -/
structure NetRec where
  st : NetState := .free
  cls : BitVec 2 := 0
  priv : Bool := false
  counters : BitVec 8 := 0
  spawnLim : Nat := 0
  cellKib : Nat := 0
  deadline : Nat := 0
  ptRoot : Nat := 0
  ruleBase : Nat := 0
  codeBase : Nat := 0
  handler : Word := 0
  ox : Nat := 0
  oy : Nat := 0
  wc : Nat := 1
  hc : Nat := 1
  poolOff : Nat := 0
  poolSize : Nat := 0
  cellOff : Nat := 0
  mint : Nat := 0
  schedBase : Nat := 0
  schedCount : Nat := 0
  watch : Nat := 0
  src : Source := .host 0
  master : Nat := 0                      -- who launched it: host port 0 or 1, or 2 more than a peer module id (16 R285)
  queue : Nat := 0
  tagg : Nat := 0
  reply : Nat := 0
  deriving DecidableEq, Repr

/-- A block of redex records that a quad keeps for the nets parked on it (13 R239): its number in the spill pool, and its records. -/
structure ParkedBlock where
  quad : Nat
  no : Nat
  recs : List Rec
  deriving DecidableEq, Repr

/-- What a net holds on one quad: pool cells in use, cells of the cell area in use, fault blocks held, schedule cursor, halt and arming. -/
structure NetQuad where
  nodes : List (Nat × Nat) := []        -- purse offset and size of each allocated node cell
  cells : List Nat := []                -- purse offsets of the relinking cells in use
  freed : List Nat := []                -- purse offsets of freed node cells that no later cell has taken
  blocks : List Nat := []               -- numbers 0 to 3 of the fault blocks held
  waiting : List Nat := []              -- what waits for a block, in the order the faults arose (17 R298): threads, and engine faults as 2^64 + seq
  eng : List EngFault := []
  cursor : Nat := 0
  halted : Bool := false
  armed : Bool := false
  parked : Bool := false
  deriving DecidableEq, Repr

inductive MintState where
  | opened | quiet | voiding | voided
  deriving DecidableEq, Repr

/-- What a registered waiter is to be told (14 R256): its report, the clearing time of the return, and whether the mint is VOIDED. -/
structure Due where
  tid : Nat
  report : Word
  time : Nat
  voided : Bool
  deriving DecidableEq, Repr

/-- A mint (14 R249) and its registered waiters (R256). -/
structure Mint where
  issued : Nat := 0
  returned : Nat := 0
  st : MintState := .opened
  reason : BitVec 2 := 0
  borrows : Nat := 0
  tick : Nat := 0
  waiters : List Nat := []              -- registered threads (14 R256)
  due : List Due := []                  -- those that a change of state wakes, and that have not been reached yet
  time : Nat := 0
  deriving DecidableEq, Repr

/-- A message in flight (01 R16, 14 R253). -/
inductive MsgBody where
  | redex (r : Rec) (sender : Option Nat)
  | context (c : Context) (sender : Option Nat)
  | steal (recs : List Rec)
  | flit (data : VData) (dst sender net : Nat) (time : Nat)
  | sweep (net k core : Nat) (v : Word) (nw time : Nat)
  | ret (net amount time : Nat)
  deriving DecidableEq, Repr

structure Msg where
  src : Nat
  dst : Nat
  body : MsgBody
  deriving DecidableEq, Repr

/-- A command packet in a queue (18 R324). -/
structure Packet where
  src : Source
  bytes : List Byte
  deriving DecidableEq, Repr

/-- An accepted launch waiting to be bound (13 R233). -/
structure Launch where
  net : Nat
  record : List Byte
  src : Source
  master : Nat
  queue : Nat
  tagg : Nat
  reply : Nat
  deriving DecidableEq, Repr

/-- A reply or report sent to a master (18 R326, 16 R296). -/
structure Reply where
  src : Source
  addr : Nat
  status : Nat
  tagg : Nat
  net : Nat
  seq : Nat
  vector : Option Nat
  data : List Byte := []
  abort : Bool := false                  -- Completer Abort (16 R290)
  deriving DecidableEq, Repr

/-- A journal entry (17 R310); its CRC is a function of the rest. -/
structure JEntry where
  seq : Nat
  wall : Nat
  code : Nat
  status : Nat
  net : Nat
  fromSt : Nat
  toSt : Nat
  kind : Nat
  port : Nat
  peer : Nat
  issued : Nat
  returned : Nat
  deriving DecidableEq, Repr

inductive OwnState where
  | vacant | owned | handover
  deriving DecidableEq, Repr

/-- The ownership register and its time limits (16 R286 R289). -/
structure Owner where
  epoch : BitVec 32 := 0
  st : OwnState := .vacant
  port : Nat := 0
  succ : Nat := 0
  lastPacket : Nat := 0                  -- wall times
  handoverAt : Nat := 0
  deriving DecidableEq, Repr

/-- An entry of the access-control table (16 R291): its four doubles. -/
structure AclEntry where
  w0 : Word := 0
  w1 : Word := 0
  w2 : Word := 0
  w3 : Word := 0
  deriving DecidableEq, Repr

/-- What powers the module: running, shut down by a thermal trip (18 R330), or running with no firmware that verified (18 R327). -/
inductive Power where
  | on | off | noFirmware
  deriving DecidableEq, Repr

inductive HostMode where
  | down | pcie | cxl
  deriving DecidableEq, Repr

/-- Which agent moves next (log entry 2): a core's issue slot, a step of another agent, time, or the loss of a copy a cache may drop at will. -/
inductive Move where
  | slot (core : Nat)
  | event (i : Instr)
  | tick (cycles : Nat)
  | loseCopy (guest : Bool) (holder line : Nat)
  | loseFetch (quad : Nat)
  | loseTlb (cluster : Bool) (holder : Nat)
  | linkBudget (acts : Option Nat)
  | refuseHead (queue : Nat)          -- the bursar takes a packet whose code R325 does not assign
  | combine (i j : Nat)               -- two returns in flight to one mint meet in a switch of the bank net (01 R17, 14 R250)
  | hbmTraffic (die read written : Nat)  -- home slices fill from HBM and write back to it: bytes that a die counts (18 R331; log entry 8)
  | nonPosted (port addr : Nat)       -- a host's non-posted request that would change state (16 R290)
  deriving DecidableEq, Repr

/-- The state of the module. -/
structure State where
  -- the model's own: what moves next, choices, thread names (log entries 2 and 3)
  agenda : List Move := []
  turn : Nat := 0
  cur : Nat := 0
  tape : List Nat := []
  nfree : Nat := 0
  nextTid : Nat := 1
  nextArr : Nat := 0                     -- the number of the next context to arrive at a core
  linkBudget : Option Nat := none
  -- time (09 R163, 03 R50, 13 R232)
  clock : Nat := 0                       -- units of 1.25 ns since the last reset
  wallBase : Nat := 0                    -- wall time in nanoseconds at the last reset
  dieLost : Tbl Nat := []                -- eighths of a core cycle that a die's clock has lost against 800 MHz since the last reset (18 R329)
  served : Tbl Nat := []                 -- one more than the cycle of each core's last issue slot
  lastIssue : Tbl Nat := []              -- the berth of the last issue of each core's phase, by 8 · core + phase (13 R247)
  -- memory (08, 09)
  mem : List Host.Cell := []
  empties : List Nat := []               -- granule keys of purses that are empty (08 R145)
  poison : List Nat := []                -- granule keys that are poisoned (17 R309)
  stores : List Store := []
  lines : Tbl LineTime := []             -- home times of global lines; for a purse granule (a key from 2^56 on) wts is the time of its last access
  copies : List Copy := []
  tlb : List TlbEnt := []
  icache : Tbl Nat := []                 -- quad · 2^52 + physical address of a word, and the word as cached
  waits : Tbl (List ParkReq) := []       -- wait table of each quad's purse
  roles : Tbl Nat := []                  -- bank-role register of each slice
  roleChg : Tbl Nat := []                -- a slice's register value that has not taken effect yet
  sliceMap : Tbl Nat := []               -- entries that differ from the reset map
  oldMap : Tbl Nat := []                 -- the map of the generation before
  mapGen : BitVec 16 := 0
  stalePorts : List Nat := []            -- cluster ports whose copy is still of the generation before
  -- quads and cores
  floors : Tbl Nat := []
  deques : Tbl (List Rec) := []          -- oldest first
  spills : Tbl (List (Nat × List Rec)) := []   -- top block first: its number in the spill pool, and its records
  rr : Tbl Nat := []                     -- the core served last, of each quad
  stealTurn : Tbl Nat := []              -- one more than the net that a quad probed for last (13 R240)
  stealRuns : Tbl (Nat × Nat × Nat) := []  -- by 4096 · quad + net: the start, the stride and the number of probes of the present run (13 R240)
  arrivals : Tbl (List Context) := []    -- of each core, oldest first
  arrSpill : Tbl (List Context) := []
  parkedRec : List ParkedBlock := []     -- blocks of records of parked nets, oldest first (13 R239)
  berths : Tbl Berth := []
  residents : Tbl Ctx := []              -- register banks of pre-empted threads, by berth
  evicted : Tbl (List Ctx) := []         -- of each core, oldest first
  bubbles : Tbl Nat := []                -- of each core
  chans : Tbl Chan := []                 -- 8 · quad + channel; channel 4 is the collector
  counters : Tbl Counter := []           -- 8 · quad + counter
  nextCmd : Nat := 0                     -- the number of the next engine command to enter a queue
  bars : Tbl BarCtx := []                -- (4096 · core + net) · 8 + k
  mgangs : Tbl MGang := []               -- by leader's berth
  vgangs : Tbl VGang := []
  assays : List AssayOp := []            -- oldest first
  -- nets
  nets : Tbl NetRec := []
  netqs : Tbl NetQuad := []              -- 2^18 · net + quad
  mints : Tbl Mint := []
  launches : List Launch := []
  msgs : List Msg := []
  poolDry : Bool := false                -- the spill pool's exhaustion has been journalled (13 R239)
  suspense : List (Nat × Msg) := []      -- each with its place in the suspense area (17 R307)
  -- the module (16, 17, 18)
  owner : Owner := {}
  acl : Tbl AclEntry := []
  resBase : Nat := 0x29E00000000
  resSize : Nat := 0x80000000
  bar2 : Tbl Nat := []
  peers : Tbl Word := []
  fused : List Nat := []
  purseHeld : Tbl (List Nat) := []       -- masters whose nets have held areas of a quad's purse since it was last scrubbed whole (08 R144)
  cmdqs : Tbl (List Packet) := []
  polled : List Nat := []                -- command queues that the present polling round has passed (18 R326)
  journal : List JEntry := []
  jseq : Nat := 0
  lastCmd : Nat := 0                     -- the journal number of the last accepted command (16 R296)
  replies : List Reply := []
  hostMode : Tbl HostMode := []
  span : Tbl (BitVec 16) := []
  refusedW : Tbl Nat := []
  points : Tbl Nat := []
  throttled : List Nat := []
  capped : Tbl Nat := []                 -- points lowered under the power cap
  powerCap : Nat := 7500
  power : Power := .on
  fwActive : BitVec 384 := 0
  fwInactive : Option (BitVec 384 × Nat) := none
  fwPending : Bool := false              -- FWLOAD has written the inactive flash copy, and it has not booted yet (18 R328)
  fwVersion : Nat := 0
  rollback : Nat := 0
  perf : Tbl Nat := []                   -- 16 · die + index
  perfSnap : Tbl Nat := []
  deriving DecidableEq, Repr

/-- Why the machine stops. -/
inductive Fault where
  /-- Raised by `step` alone, after a thermal trip has shut the module down (18 R330) and while no cold reset has come. Safe: the spec gives a module without power no step. -/
  | shutDown
  deriving DecidableEq, Repr

/-- Why the model gives no meaning. -/
inductive Refusal where
  /-- Raised by an arm of `exec` that has no meaning yet; no arm of this model does. Safe: nothing can be proved of such an instruction. -/
  | notModelled (mnemonic : String)
  deriving DecidableEq, Repr

/-- The module right after a cold reset (18 R327): every field at the value its declaration above gives. -/
def State.reset : State := {}

end Sys2Proof.Machine
end

