-- ==== Sys2Proof/Machine/Tables.lean ====
section
/-!
DEFINITION. Sparse tables, byte memory in its one canonical form, and the numbering of quads, clusters and cores (01 R7).
-/

namespace Sys2Proof.Machine

/-- The value of a key. -/
def Tbl.get? {α : Type} : Tbl α → Nat → Option α
  | [], _ => none
  | (j, v) :: r, k => if k = j then some v else Tbl.get? r k

/-- The value of a key, or what a missing key stands for. -/
def Tbl.getD {α : Type} (t : Tbl α) (k : Nat) (d : α) : α := (Tbl.get? t k).getD d

/-- Sets the value of a key; a table in ascending order of its keys stays so. -/
def Tbl.set {α : Type} : Tbl α → Nat → α → Tbl α
  | [], k, v => [(k, v)]
  | (j, w) :: r, k, v => if k = j then (k, v) :: r else if k < j then (k, v) :: (j, w) :: r else (j, w) :: Tbl.set r k v

/-- Removes a key. -/
def Tbl.del {α : Type} (t : Tbl α) (k : Nat) : Tbl α := t.filter (fun e => e.1 != k)

/-! ### Byte memory -/

/-- The byte at an address; an unlisted address reads zero (08 R144 R148; HBM: log entry 1). -/
def memGet : List Host.Cell → Nat → Byte
  | [], _ => 0
  | (k, b) :: r, a => if a = k then b else memGet r a

def memErase (m : List Host.Cell) (a : Nat) : List Host.Cell := m.filter (fun c => c.1 != a)

def memInsert : List Host.Cell → Nat → Byte → List Host.Cell
  | [], a, b => [(a, b)]
  | c :: r, a, b => if a < c.1 then (a, b) :: c :: r else c :: memInsert r a b

/-- Writes one byte; writing zero removes the entry, so equal memories are equal lists. -/
def memSet (m : List Host.Cell) (a : Nat) (b : Byte) : List Host.Cell :=
  if b = 0 then memErase m a else memInsert (memErase m a) a b

/-- The canonical form: addresses strictly rising, and no entry zero. -/
def Memory.wf : List Host.Cell → Bool
  | [] => true
  | c :: r => (c.2 != 0) && r.all (fun d => c.1 < d.1) && Memory.wf r

def memRead (m : List Host.Cell) (a : Nat) : Nat → List Byte
  | 0 => []
  | n + 1 => memGet m a :: memRead m (a + 1) n

def memWrite (m : List Host.Cell) (a : Nat) : List Byte → List Host.Cell
  | [] => m
  | b :: bs => memWrite (memSet m a b) (a + 1) bs

/-- Clears a range of addresses to zero. -/
def memClear (m : List Host.Cell) (lo hi : Nat) : List Host.Cell := m.filter (fun c => c.1 < lo || hi ≤ c.1)

/-- Lays `src` over the bytes of `dst` that stand at addresses from `a` on, `src` standing at `b`. -/
def overlay (a : Nat) (dst : List Byte) (b : Nat) (src : List Byte) : List Byte :=
  match dst with
  | [] => []
  | d :: ds => (if b ≤ a ∧ a < b + src.length then src.getD (a - b) 0 else d) :: overlay (a + 1) ds b src

/-- Bits h to l of a number, both included. -/
def bits (v h l : Nat) : Nat := v / 2 ^ l % 2 ^ (h + 1 - l)

/-- A word as a double, in little-endian bytes, and back. -/
def wordBytes (w : Word) : List Byte := leBytes 8 w.toNat
def bytesWord (l : List Byte) : Word := BitVec.ofNat 64 (leNat l)

/-- Double number i of a byte string. -/
def dbl (l : List Byte) (off : Nat) : Nat := leNat ((l.drop off).take 8)

def zeros (n : Nat) : List Byte := List.replicate n 0

/-! ### Places (01 R7) -/

/-- A die, its 128×128 quads and 16×16 clusters: the coordinates of a quad. -/
def quadX (q : Nat) : Nat := (q / 2 ^ 14 % 4) * 128 + q % 128
def quadY (q : Nat) : Nat := (q / 2 ^ 14 / 4) * 128 + q % 2 ^ 14 / 128
def quadAt (px py : Nat) : Nat := (4 * (py / 128) + px / 128) * 2 ^ 14 + 128 * (py % 128) + px % 128
def dieOf (q : Nat) : Nat := q / 2 ^ 14
/-- The cluster, which is also its slice: 256 · die + cluster within die. -/
def clusterOf (q : Nat) : Nat := 256 * dieOf q + 16 * (quadY q % 128 / 8) + quadX q % 128 / 8
def rankOf (q : Nat) : Nat := 8 * (quadY q % 8) + quadX q % 8
/-- The cluster at a place of the 64×64 cluster grid. -/
def clusterAt (cx cy : Nat) : Nat := 256 * (4 * (cy / 16) + cx / 16) + 16 * (cy % 16) + cx % 16
def clusterX (c : Nat) : Nat := (c / 256 % 4) * 16 + c % 16
def clusterY (c : Nat) : Nat := (c / 256 / 4) * 16 + c % 256 / 16
def quadInCluster (c r : Nat) : Nat := quadAt (8 * clusterX c + r % 8) (8 * clusterY c + r / 8)

def quadOf (berth : Nat) : Nat := berth / 64
def coreOf (berth : Nat) : Nat := berth / 16 % 4
def coreId (berth : Nat) : Nat := berth / 16
/-- Core coordinates of a core of the whole grid (R7). -/
def coreX (core : Nat) : Nat := 2 * quadX (core / 4) + core % 2
def coreY (core : Nat) : Nat := 2 * quadY (core / 4) + core % 4 / 2
def coreAt (x y : Nat) : Nat := 4 * quadAt (x / 2) (y / 2) + 2 * (y % 2) + x % 2

/-- The memory key of a purse byte, and back. -/
def purseKey (q off : Nat) : Nat := 2 ^ 60 + q * 2 ^ 18 + off
def isPurse (key : Nat) : Bool := 2 ^ 60 ≤ key
def keyQuad (key : Nat) : Nat := (key - 2 ^ 60) / 2 ^ 18
def keyOff (key : Nat) : Nat := key % 2 ^ 18
/-- The granule that holds a byte, and the home line of a global byte. -/
def granule (key : Nat) : Nat := key / 16
def granules (key n : Nat) : List Nat := if n = 0 then [] else (List.range ((key + n - 1) / 16 + 1 - key / 16)).map (· + key / 16)

end Sys2Proof.Machine
end

