-- ==== Sys2Proof/Machine/Memory.lean ====
section
/-!
DEFINITION. Memory: nets' grids, address words, translation, the checks of an access (08, 11 R189), clearing time, leases and
publication (09). Functions on the whole state; those of a thread act for the issuing berth `s.cur`.
-/

namespace Sys2Proof.Machine

/-- Why an instruction ends without its effect: it faults (03 R68), or it leaves rotation with the pc on it and issues again later (11 R190). With it,
    the state that the accesses made before it have left, where there were any: they stand (09 R161 R169, 18 R331). -/
inductive Stop where
  | fault (f : FaultInfo) (left : Option State := none)
  | wait (w : Wait) (left : Option State := none)
  deriving DecidableEq, Repr

/-- The state in which a stop is taken, of what began in state s. -/
def Stop.state (s : State) : Stop → State
  | .fault _ t => t.getD s
  | .wait _ t => t.getD s

/-- A stop met after accesses that have led to state t. -/
def Stop.after (t : State) : Stop → Stop
  | .fault f u => .fault f (some (u.getD t))
  | .wait w u => .wait w (some (u.getD t))

/-- A stop taken in state t, whatever it has left before. -/
def Stop.leaving (t : State) : Stop → Stop
  | .fault f _ => .fault f (some t)
  | .wait w _ => .wait w (some t)

/-- An instruction's effect, or why it ends without it. -/
abbrev Run (α : Type) := Except Stop α

def failAt {α : Type} (c : Cause) (a : Word) : Run α := .error (.fault { cause := c, addr := a })
def fail {α : Type} (c : Cause) : Run α := failAt c 0
def waitOn {α : Type} (w : Wait) : Run α := .error (.wait w)
/-- A check: faults with cause c unless b holds. -/
def need (b : Bool) (c : Cause) : Run Unit := if b then .ok () else fail c
def needAt (b : Bool) (c : Cause) (a : Word) : Run Unit := if b then .ok () else failAt c a

/-! ### The issuing thread -/

/-- The module tick: 640 ns, 512 units of the reference clock (09 R163). -/
def State.T (s : State) : Nat := s.clock / 512
def State.wall (s : State) : Nat := s.wallBase + s.clock * 5 / 4
def State.berth (s : State) (b : Nat) : Berth := Tbl.getD s.berths b {}
def State.held (s : State) (b : Nat) : Bool := (Tbl.get? s.berths b).isSome
def State.setBerth (s : State) (b : Nat) (x : Berth) : State := { s with berths := Tbl.set s.berths b x }
def State.ctx (s : State) (b : Nat) : Ctx := (s.berth b).ctx
def State.setCtx (s : State) (b : Nat) (c : Ctx) : State := s.setBerth b { s.berth b with ctx := c }
/-- The issuing thread. -/
def State.th (s : State) : Ctx := s.ctx s.cur
def State.setTh (s : State) (c : Ctx) : State := s.setCtx s.cur c
def State.quad (s : State) : Nat := quadOf s.cur
def State.netRec (s : State) (n : Nat) : NetRec := Tbl.getD s.nets n {}
def State.net (s : State) : NetRec := s.netRec s.th.net
def State.netq (s : State) (n q : Nat) : NetQuad := Tbl.getD s.netqs (2 ^ 18 * n + q) {}
def State.setNetq (s : State) (n q : Nat) (x : NetQuad) : State := { s with netqs := Tbl.set s.netqs (2 ^ 18 * n + q) x }

/-- A choice the spec leaves to the hardware, below a bound: off the tape, or a free value (log entry 3). -/
def choice (s : State) (bound : Nat) : Nat × State :=
  match s.tape with
  | c :: r => (c % bound, { s with tape := r })
  | [] => (Config.freeChoice s.nfree % bound, { s with nfree := s.nfree + 1 })

/-- A performance counter of a die counts (18 R331). -/
def count (die idx n : Nat) (s : State) : State :=
  { s with perf := Tbl.set s.perf (16 * die + idx) ((Tbl.getD s.perf (16 * die + idx) 0 + n) % 2 ^ 64) }

/-- A quad makes a page walk, which its die counts. -/
def walked (q : Nat) (s : State) : State := count (dieOf q) 9 1 s

/-- A result that stops, if it does, after accesses that have led to state t. -/
def stopsAt {α : Type} (t : State) (r : Run α) : Run α :=
  match r with
  | .error e => .error (e.after t)
  | r => r

/-- Goes on from what an access has brought; what stops after it leaves the access made. -/
def reading {α β : Type} (r : Run (α × State)) (k : α → State → Run β) : Run β :=
  match r with
  | .error e => .error e
  | .ok (x, t) => stopsAt t (k x t)

/-- Raises a thread's program time, and its quad's floor (09 R164). -/
def State.raise (s : State) (b p : Nat) : State :=
  let c := s.ctx b
  let t := max c.pts p
  let s := s.setCtx b { c with pts := t }
  { s with floors := Tbl.set s.floors (quadOf b) (max (Tbl.getD s.floors (quadOf b) 0) t) }

/-- The issuing thread's program time before an access (09 R164). -/
def State.now (s : State) : Nat := max s.th.pts s.T

/-- A thread leaves rotation, which clears P and G (13 R247). -/
def State.leave (s : State) (b : Nat) (w : Wait) : State :=
  let x := s.berth b
  s.setBerth b { x with ctx := { x.ctx with wait := w, waited := 0 }, p := 0, g := 0 }

/-- Whether a thread's `aadd` on any of n bytes may still meet another on its way. -/
def Wait.addsOn (key n : Nat) : Wait → Bool
  | .added k m _ => decide (k < key + n) && decide (key < k + m)
  | _ => false

/-- A read of n bytes at their home: no `aadd` of them that comes after it has met one that came before it, since nothing stands between two that
    meet (09 R176). -/
def parted (key n : Nat) (s : State) : State :=
  if s.berths.any (fun e => e.2.ctx.wait.addsOn key n) then
    { s with berths := s.berths.map (fun e => (e.1, if e.2.ctx.wait.addsOn key n then { e.2 with ctx := { e.2.ctx with wait := .reply } } else e.2)) }
  else s

/-! ### A net's grid (01 R20 to R22, 13 R236) -/

/-- The ranks of a cluster's enabled quads, ascending. -/
def enabledRanks (s : State) (cl : Nat) : List Nat := (List.range 64).filter (fun r => !s.fused.contains (quadInCluster cl r))

/-- The physical quad at a place of the net's grid: `none` when absent, fused, or outside the region. -/
def NetRec.toPhys (nr : NetRec) (s : State) (x y : Nat) : Option Nat :=
  if nr.priv then
    if 8 * nr.ox ≤ x ∧ x < 8 * (nr.ox + nr.wc) ∧ 8 * nr.oy ≤ y ∧ y < 8 * (nr.oy + nr.hc) ∧ x < 512 ∧ y < 512
      ∧ s.fused.contains (quadAt x y) = false then some (quadAt x y) else none
  else if x < 8 * nr.wc ∧ y < 8 * nr.hc then
    let cl := clusterAt (nr.ox + x / 8) (nr.oy + y / 8)
    ((enabledRanks s cl)[8 * (y % 8) + x % 8]?).map (quadInCluster cl)
  else none

/-- The place of a physical quad in the net's grid. -/
def NetRec.place (nr : NetRec) (s : State) (q : Nat) : Nat × Nat :=
  if nr.priv then (quadX q, quadY q)
  else
    let cl := clusterOf q
    let k := (enabledRanks s cl).idxOf (rankOf q)
    (8 * (clusterX cl - nr.ox) + k % 8, 8 * (clusterY cl - nr.oy) + k / 8)

/-- The number a net gives a quad, in the form of `%quad` (03 R50). -/
def NetRec.form (nr : NetRec) (s : State) (q : Nat) : Nat := quadAt (nr.place s q).1 (nr.place s q).2
/-- The quad that a number in the form of `%quad` names for the net. -/
def NetRec.ofForm (nr : NetRec) (s : State) (f : Nat) : Option Nat := nr.toPhys s (quadX f) (quadY f)

/-- Whether a physical quad lies in the net's region and is enabled. -/
def NetRec.inRegion (nr : NetRec) (s : State) (q : Nat) : Bool :=
  let cl := clusterOf q
  nr.ox ≤ clusterX cl && clusterX cl < nr.ox + nr.wc && nr.oy ≤ clusterY cl && clusterY cl < nr.oy + nr.hc && !s.fused.contains q

/-- The places of the net's grid, by rows. -/
def NetRec.places (nr : NetRec) : List (Nat × Nat) :=
  let x0 := if nr.priv then 8 * nr.ox else 0
  let y0 := if nr.priv then 8 * nr.oy else 0
  (List.range (8 * nr.hc)).flatMap (fun y => (List.range (8 * nr.wc)).map (fun x => (x0 + x, y0 + y)))

/-- Every quad of the net, by rows of its grid; the launch quad is the first (13 R236). -/
def NetRec.quads (nr : NetRec) (s : State) : List Nat := nr.places.filterMap (fun p => nr.toPhys s p.1 p.2)
def firstPhys (nr : NetRec) (s : State) : List (Nat × Nat) → Nat
  | [] => 0
  | p :: r => match nr.toPhys s p.1 p.2 with
    | some q => q
    | none => firstPhys nr s r
def NetRec.launchQuad (nr : NetRec) (s : State) : Nat := firstPhys nr s nr.places

/-- How many quads the net has. -/
def NetRec.quadCount (nr : NetRec) (s : State) : Nat :=
  64 * nr.wc * nr.hc - (s.fused.filter (fun q => ({ nr with priv := true }).inRegion { s with fused := [] } q)).length

/-- A full purse address word of the net (08 R140), and the port word of a tag at it (02 R26 R27). -/
def NetRec.purseWord (nr : NetRec) (s : State) (q off : Nat) : Word := BitVec.ofNat 64 (nr.form s q * 2 ^ 18 + off)
def NetRec.port (nr : NetRec) (s : State) (tag q off : Nat) : Word := BitVec.ofNat 64 (tag * 2 ^ 60 + nr.form s q * 2 ^ 18 + off)

/-- The state of a net on a quad (13 R239): PARKED there, or as its bind record says. -/
def State.netStateAt (s : State) (n q : Nat) : NetState :=
  match (s.netRec n).st with
  | .free => .free
  | .voiding => .voiding
  | x => if !(s.netRec n).inRegion s q then .free else if (s.netq n q).parked then .parked else x

/-- The nets of a quad's bind set (13 R237), ascending. -/
def State.bindSet (s : State) (q : Nat) : List Nat :=
  (s.nets.filter (fun e => e.2.st != .free && e.2.inRegion s q)).map (·.1)

/-! ### Address words (08 R140 to R142) -/

inductive Form where
  | glob (va : Nat)
  | full (quad off : Nat)
  | clus (rank off : Nat)
  | own (off : Nat)
  deriving DecidableEq, Repr

/-- How an address word is read (08 R140); `none` for a word outside the table. -/
def formOf (aw : Word) : Option Form :=
  let v := aw.toNat
  if bits v 63 60 ≠ 0 then none
  else if bits v 59 59 = 1 then (if bits v 58 56 = 0 then some (.glob (bits v 55 0)) else none)
  else if bits v 58 56 = 0 then (if bits v 55 36 = 0 then some (.full (bits v 35 18) (bits v 17 0)) else none)
  else if bits v 58 56 = 1 then (if bits v 55 24 = 0 then some (.clus (bits v 23 18) (bits v 17 0)) else none)
  else if bits v 58 56 = 2 then (if bits v 55 18 = 0 then some (.own (bits v 17 0)) else none)
  else none

def isGlob (aw : Word) : Bool := match formOf aw with | some (.glob _) => true | _ => false

/-- The quad that a purse form names for a net on quad q (08 R141); `none` outside the region, absent, fused or beyond the grid (R142). -/
def purseQuad (s : State) (nr : NetRec) (q : Nat) : Form → Option Nat
  | .full f _ => nr.ofForm s f
  | .clus r _ =>
    let p := nr.place s q
    nr.toPhys s (8 * (p.1 / 8) + r % 8) (8 * (p.2 / 8) + r / 8)
  | .own _ => some q
  | .glob _ => none

def formOff : Form → Nat
  | .glob va => va
  | .full _ o => o
  | .clus _ o => o
  | .own o => o

/-- A purse access of n bytes (08 R142): the memory key of its first byte. -/
def purseAccess (s : State) (nr : NetRec) (q : Nat) (f : Form) (n : Nat) : Option Nat :=
  match purseQuad s nr q f with
  | some p => if formOff f + n ≤ 0x30000 ∧ formOff f < 0x30000 then some (purseKey p (formOff f)) else none
  | none => none

/-! ### Poison (17 R309) -/

/-- Whether an access of n bytes touches a poisoned purse granule or global sector. -/
def poisoned (s : State) (key n : Nat) : Bool :=
  if isPurse key then (granules key n).any s.poison.contains
  else (granules (key / 32 * 32) ((key + n + 31) / 32 * 32 - key / 32 * 32)).any s.poison.contains

/-- A write of n bytes clears the poison of each granule it wholly covers. -/
def clearPoison (s : State) (key n : Nat) : State :=
  if s.poison = [] then s
  else { s with poison := s.poison.filter (fun g => !(key ≤ 16 * g && 16 * g + 16 ≤ key + n)) }

/-! ### Homes, slices and banks (08 R147 to R150) -/

def hbmTop : Nat := 0x29E8D608000
def vaultBase : Nat := 0x1000000000000
def isVault (pa : Nat) : Bool := vaultBase ≤ pa && pa < vaultBase + 2 ^ 35
def mapEntry (s : State) (h : Nat) : Nat := Tbl.getD s.sliceMap h h
def oldEntry (s : State) (h : Nat) : Nat := Tbl.getD s.oldMap h h
def homeHash (pa : Nat) : Nat := Nat.xor (Nat.xor (Nat.xor (bits pa 19 8) (bits pa 31 20)) (bits pa 43 32)) (bits pa 51 44)
/-- The slice at which accesses to a global byte are performed (08 R149, 09 R167). -/
def homeOf (s : State) (pa : Nat) : Nat := if isVault pa then (pa - vaultBase) / 2 ^ 23 else mapEntry s (homeHash pa)
/-- The role of the bank that holds a byte of the vault window: 0 CACHE, 1 SCRATCH, 2 OPERAND (08 R148). -/
def bankRole (s : State) (slice bank : Nat) : Nat := bits (Tbl.getD s.roles slice 0) (2 * bank + 1) (2 * bank)
def bankOf (pa : Nat) : Nat := bits (pa - vaultBase) 22 18
def roleOf (s : State) (pa : Nat) : Nat := bankRole s (homeOf s pa) (bankOf pa)
/-- Whether the bank of a vault byte is changing its role (08 R148). -/
def roleChanging (s : State) (pa : Nat) : Bool :=
  match Tbl.get? s.roleChg (homeOf s pa) with
  | some v => bits v (2 * bankOf pa + 1) (2 * bankOf pa) != roleOf s pa
  | none => false

/-- Whether a request from a cluster port for an HBM line is answered REHOME (08 R149 R150). -/
def rehomed (s : State) (cluster pa : Nat) : Bool :=
  !isPurse pa && !isVault pa && s.stalePorts.contains cluster && oldEntry s (homeHash pa) != mapEntry s (homeHash pa)

/-- A REHOME answer of the line's old home, which its die counts (18 R331): the port's requests are hashed under the new map from then on (log entry
    55). -/
def rehash (cluster pa : Nat) (s : State) : State :=
  count (oldEntry s (homeHash pa) / 256) 8 1 { s with stalePorts := s.stalePorts.filter (· != cluster) }

/-- A request of a quad's hardware for a line, which is hashed again and issued again at once where it is answered REHOME (08 R150). -/
def hwRequest (q pa : Nat) (s : State) : State := if rehomed s (clusterOf q) pa then rehash (clusterOf q) pa s else s

/-! ### Translation (08 R152 to R157) -/

/-- What an access asks of a leaf (08 R153). -/
structure Need where
  r : Bool := false
  w : Bool := false
  x : Bool := false
  eng : Bool := false
  deriving DecidableEq, Repr

def needR : Need := { r := true }
def needW : Need := { w := true }
def needRW : Need := { r := true, w := true }
def needX : Need := { x := true }
def engR : Need := { r := true, eng := true }
def engW : Need := { w := true, eng := true }

/-- One walk from a level's table (08 R152 R153): log2 of the page size, and the leaf. A table outside populated HBM faults ACCESS, where the spec
    names no cause (log entry 91). -/
def walkAt (s : State) (va : Nat) : Nat → Nat → Except Cause (Nat × Nat)
  | 0, _ => .error .page
  | left + 1, base =>
    let shift := 16 + 10 * left
    let a := base + 8 * (va / 2 ^ shift % 1024)
    if hbmTop < a + 8 then .error .access
    else if poisoned s a 8 then .error .poison
    else
      let e := leNat (memRead s.mem a 8)
      if e % 2 = 0 then .error .page
      else if bits e 1 1 = 0 then
        if left = 0 ∨ bits e 63 52 ≠ 0 ∨ bits e 12 2 ≠ 0 then .error .page
        else walkAt s va left (bits e 51 13 * 2 ^ 13)
      else if left = 3 ∨ bits e 63 52 ≠ 0 ∨ bits e 15 13 ≠ 0 ∨ bits e 12 6 ≠ 0 ∨ bits e 51 16 * 2 ^ 16 % 2 ^ shift ≠ 0 then .error .page
      else .ok (shift, e)

/-- The table entries that a walk reads, where they lie. -/
def walkKeys (s : State) (va : Nat) : Nat → Nat → List Nat
  | 0, _ => []
  | left + 1, base =>
    let a := base + 8 * (va / 2 ^ (16 + 10 * left) % 1024)
    let e := leNat (memRead s.mem a 8)
    if hbmTop < a + 8 then []
    else a :: (if e % 4 = 1 then walkKeys s va left (bits e 51 13 * 2 ^ 13) else [])

/-- The walk of a net's virtual address, as an entry of a translation cache. -/
def walk (s : State) (net va : Nat) : Except Cause TlbEnt :=
  match walkAt s va 4 (s.netRec net).ptRoot with
  | .error c => .error c
  | .ok (sh, e) => .ok { cluster := false, holder := 0, net := net, bits := sh, va := va / 2 ^ sh * 2 ^ sh, pa := bits e 51 16 * 2 ^ 16,
                         r := bits e 2 2 = 1, w := bits e 3 3 = 1, x := bits e 4 4 = 1, n := bits e 5 5 = 1 }

def TlbEnt.covers (t : TlbEnt) (net va : Nat) : Bool := t.net == net && t.va == va / 2 ^ t.bits * 2 ^ t.bits

def tlbFind (s : State) (cluster : Bool) (holder net va : Nat) : Option TlbEnt :=
  s.tlb.find? (fun t => t.cluster == cluster && t.holder == holder && t.covers net va)

/-- Fills a translation cache of 64 or 2,048 entries (08 R155); a full one drops its oldest entry, where the spec names none (log entry 71). -/
def tlbFill (s : State) (cluster : Bool) (holder : Nat) (t : TlbEnt) : State :=
  let mine := s.tlb.filter (fun u => u.cluster == cluster && u.holder == holder)
  let rest := s.tlb.filter (fun u => !(u.cluster == cluster && u.holder == holder))
  { s with tlb := { t with cluster := cluster, holder := holder } :: (mine.take (if cluster then 2047 else 63) ++ rest) }

/-- Whether a translation misses in the quad's cache (08 R156), and whether it takes a walk (08 R155). -/
def tlbMiss (s : State) (q net va : Nat) : Bool := (tlbFind s false q net va).isNone
def walks (s : State) (q net va : Nat) : Bool := tlbMiss s q net va && (tlbFind s true (clusterOf q) net va).isNone

/-- The entry for a net's virtual address at a quad: its own cache, then the cluster's, then a walk, which fills both (08 R155). A walk that ends in
    a fault has been made, too, and fills nothing. -/
def translation (s : State) (q net va : Nat) : Except (Cause × State) (TlbEnt × State) :=
  match tlbFind s false q net va with
  | some t => .ok (t, s)
  | none =>
    match tlbFind s true (clusterOf q) net va with
    | some t => .ok (t, tlbFill s false q t)
    | none =>
      let u := walked q ((walkKeys s va 4 (s.netRec net).ptRoot).foldl (fun s a => parted a 8 s) s)
      match walk s net va with
      | .error c => .error (c, u)
      | .ok t => .ok (t, tlbFill (tlbFill u true (clusterOf q) t) false q t)

/-- The rows of the physical map (08 R146). -/
inductive Region where
  | hbm | vault | cxl | peer | control | none
  deriving DecidableEq, Repr

def regionOf (pa : Nat) : Region :=
  if pa < hbmTop then .hbm
  else if isVault pa then .vault
  else if bits pa 51 48 = 2 ∧ pa < 2 ^ 52 then .cxl
  else if bits pa 51 48 = 3 ∧ pa < 2 ^ 52 then .peer
  else if bits pa 51 48 = 15 ∧ pa < 2 ^ 52 then .control
  else .none

/-- The physical checks of a thread's access or of a fetch (08 R146 R147 R157, 16 R293): the reserved region, CACHE banks and the windows for engines refuse it. -/
def physThread (s : State) (nr : NetRec) (pa n : Nat) : Except Cause Unit :=
  match regionOf pa with
  | .hbm => if pa + n ≤ hbmTop ∧ (nr.priv ∨ pa + n ≤ s.resBase ∨ s.resBase + s.resSize ≤ pa) then .ok () else .error .access
  | .vault => if roleOf s pa = 0 then .error .access else .ok ()
  | _ => .error .access

def permitted (t : TlbEnt) (nd : Need) : Bool := (!nd.r || t.r) && (!nd.w || t.w) && (!nd.x || t.x) && (!nd.eng || !t.n)

/-- A thread's global access of n bytes, translated and checked (08 R153): its physical address. -/
def globAccess (s : State) (q net va n : Nat) (nd : Need) : Except Stop (Nat × State) :=
  let a := BitVec.ofNat 64 va
  match translation s q net va with
  | .error (c, u) => stopsAt u (failAt c a)
  | .ok (t, u) =>
    stopsAt u
      (if permitted t nd = false then failAt .access a
       else
         let pa := t.pa + va % 2 ^ t.bits
         if isVault pa ∧ roleChanging u pa then waitOn .held
         else match physThread u (u.netRec net) pa n with
           | .error c => failAt c a
           | .ok () => .ok (pa, u))

/-! ### Held sub-tiles (06 R106 R107) -/

/-- The core whose accumulator sub-tile holds a purse byte. -/
def subTileCore (key : Nat) : Option Nat :=
  if isPurse key ∧ keyOff key % 0xC000 ≥ 0xB000 ∧ keyOff key < 0x30000 then some (4 * keyQuad key + keyOff key / 0xC000) else none

def MGang.has (g : MGang) (core : Nat) : Bool :=
  g.x0 ≤ coreX core && coreX core < g.x0 + g.w && g.y0 ≤ coreY core && coreY core < g.y0 + g.h

/-- Whether an access touches a sub-tile held by a gang instruction in progress of another thread. -/
def heldTile (s : State) (key n : Nat) : Bool :=
  let held := fun k => match subTileCore k with
    | some c => s.mgangs.any (fun e => e.2.op.isSome && e.1 != s.cur && e.2.has c)
    | none => false
  held key || held (key + n - 1)

/-- A copy in a quad's data cache, or a guest line of its die. -/
def Copy.near (c : Copy) (q : Nat) : Bool := if c.guest then c.holder / 256 == dieOf q else c.holder == q

/-- The copies of a line that a load at program time p may use (09 R165): in the quad's data cache, or as a guest line of its die (08 R151). -/
def usableCopies (s : State) (q line p : Nat) : List Copy :=
  s.copies.filter (fun c => c.line == line && c.near q && c.wts ≤ p && p < c.lend && s.T < c.gtick + 16)

/-! ### The checks of a thread's access (11 R188 R189) -/

/-- An access in parts, each within one granule, sector or page. -/
def partsOf (aw : Word) (n unit : Nat) : List (Word × Nat) :=
  if n ≤ unit then [(aw, n)] else (List.range ((n + unit - 1) / unit)).map (fun i => (aw + BitVec.ofNat 64 (unit * i), min unit (n - unit * i)))

/-- The fault address of an address word: the virtual address of a global form, else the word (17 R300; log entry 20). -/
def faultAddr (aw : Word) : Word := match formOf aw with | some (.glob va) => BitVec.ofNat 64 va | _ => aw

/-- Check 3 of one part: its memory key. -/
def placeOf (s : State) (aw : Word) (n : Nat) (nd : Need) : Run (Nat × State) :=
  match formOf aw with
  | none => failAt .access aw
  | some (.glob va) => globAccess s s.quad s.th.net va n nd
  | some f =>
    match purseAccess s s.net s.quad f n with
    | some k => .ok (k, s)
    | none => failAt .access aw

def placesOf (nd : Need) : List (Word × Nat) → State → Run (List (Nat × Nat) × State)
  | [], s => .ok ([], s)
  | (aw, n) :: r, s =>
    reading (placeOf s aw n nd) fun k t =>
      match placesOf nd r t with
      | .error e => .error e
      | .ok (ks, t) => .ok ((k, n) :: ks, t)

/-- Whether a request of the issuing thread at a key is answered REHOME: a load that a copy serves makes none (09 R165). -/
def answeredRehome (s : State) (nd : Need) (key : Nat) : Bool :=
  rehomed s (clusterOf s.quad) key && (nd.w || (usableCopies s s.quad (key / 256) s.now).isEmpty)

/-- The five checks of 11 R189 for a thread's access of n bytes: the parts' keys and sizes. A request that would be answered REHOME
    has not been performed (08 R150) and leaves the thread out of rotation. -/
def access (s : State) (aw : Word) (n align : Nat) (purseOnly : Bool) (nd : Need) (overwrites : Bool) (unit : Nat) : Run (List (Nat × Nat) × State) :=
  match formOf aw with
  | none => failAt .access aw
  | some f =>
    if purseOnly && (match f with | .glob _ => true | _ => false) then failAt .access (faultAddr aw)
    else if aw.toNat % align ≠ 0 then failAt .align (faultAddr aw)
    else
      reading (placesOf nd (partsOf aw n unit) s) fun ks t =>
        if ks.any (fun k => heldTile t k.1 k.2) then waitOn .held
        else if !overwrites && ks.any (fun k => poisoned t k.1 k.2) then failAt .poison (faultAddr aw)
        else match ks.find? (fun k => answeredRehome t nd k.1) with
          | some k => waitOn (.rehomed k.1)
          | none => .ok (ks, t)

/-- `access` for one part. -/
def access1 (s : State) (aw : Word) (n align : Nat) (purseOnly : Bool) (nd : Need) : Run (Nat × State) :=
  match access s aw n align purseOnly nd false 64 with
  | .error e => .error e
  | .ok (ks, s) => .ok ((ks.headD (0, 0)).1, s)

/-- Whether an access leaves rotation: anything but the issuing quad's purse (11 R191). -/
def isLocal (s : State) (key : Nat) : Bool := isPurse key && keyQuad key == s.quad

/-! ### Cleared stores and their settling (09 R168 R169) -/

def applyStores (m : List Host.Cell) : List Store → List Host.Cell
  | [] => m
  | st :: r => applyStores (memWrite m st.addr st.bytes) r

/-- Settles every cleared store of the lines a test selects, in clr order. -/
def settleWhere (s : State) (p : Nat → Bool) : State :=
  if s.stores = [] then s
  else { s with mem := applyStores s.mem (s.stores.filter (fun st => p (st.addr / 256))), stores := s.stores.filter (fun st => !p (st.addr / 256)) }

def settleLine (s : State) (line : Nat) : State := settleWhere s (· == line)

/-- Settles every line that holds a cleared store of a thread at a slice a test selects (R169, R170). -/
def publishWhere (s : State) (tid : Nat) (slice : Nat → Bool) : State :=
  let ls := (s.stores.filter (fun st => st.tid == tid && slice (homeOf s st.addr))).map (fun st => st.addr / 256)
  settleWhere s ls.contains

/-- Adds a slice to a touched set (09 R170). -/
def Touched.add (t : Touched) (slice : Nat) : Touched :=
  match t with
  | .slices l =>
    if l.contains slice then .slices l
    else if l.length < 8 then .slices (l ++ [slice])
    else .dies ((slice :: l).foldl (fun m x => m ||| (1 <<< (x / 256))) 0)
  | .dies m => .dies (m ||| (1 <<< (slice / 256)))

/-- The members a publication of the slices a test selects leaves in a touched set; `die` selects whole dies. -/
def Touched.left (t : Touched) (slice die : Nat → Bool) : Touched :=
  match t with
  | .slices l => .slices (l.filter (fun x => !slice x))
  | .dies m =>
    let l := (List.range 16).filter (fun d => m.getLsbD d && !die d)
    if l = [] then .slices [] else .dies (l.foldl (fun m d => m ||| (1 <<< d)) 0)

/-- Publication of the issuing thread's writes, by the scope of a fence (09 R171). -/
def publish (sc : Scope) (s : State) : State :=
  let cl := clusterOf s.quad
  let slice := fun x => match sc with | .quad => x == cl | .die => x / 256 == cl / 256 | .module => true | .system => true
  let die := fun d => match sc with | .quad => false | .die => d == cl / 256 | .module => true | .system => true
  let s := publishWhere s s.th.tid slice
  s.setTh { s.th with touched := s.th.touched.left slice die }

/-- Whether the issuing thread has stores to publish (11 R199, R207): those not settled yet, whatever its touched set still names, where the spec does
    not say which of the two a form that publishes waits for (log entry 92). -/
def hasStores (s : State) : Bool := s.stores.any (fun st => st.tid == s.th.tid)

/-- The acquire step (09 R166): past the lease end of every copy of the quad's data cache and of the die's guest slots. -/
def acquireAt (b : Nat) (s : State) : State :=
  let q := quadOf b
  let mine := s.copies.filter (·.near q)
  s.raise b (mine.foldl (fun m c => max m c.lend) (max (s.ctx b).pts s.T))

def acquire (s : State) : State := acquireAt s.cur s

/-! ### Clearing time -/

/-- The clearing time of a purse access from program time p: later than every earlier access to its granules (09 R165). -/
def purseTime (s : State) (key n p : Nat) : Nat :=
  (granules key n).foldl (fun t g => match Tbl.get? s.lines g with | some l => max t (l.wts + 1) | none => t) p

def setPurseTime (s : State) (key n t : Nat) : State :=
  { s with lines := (granules key n).foldl (fun l g => Tbl.set l g { wts := t }) s.lines }

def lineTime (s : State) (line : Nat) : LineTime := Tbl.getD s.lines line {}

/-- A store's or arrival write's times at a line's home (09 R165): the write time, past every lease. -/
def writeTime (s : State) (line p : Nat) : Nat × State :=
  let w := max p (lineTime s line).rts
  (w, { s with lines := Tbl.set s.lines line { wts := w, rts := w + 1 } })

/-- The copy that a load uses; which of several is the hardware's choice (log entry 3). -/
def findCopy (s : State) (q line p : Nat) : Option Copy × State :=
  match usableCopies s q line p with
  | [] => (none, s)
  | [c] => (some c, s)
  | l => let (i, s) := choice s l.length; (l[i]?, s)

/-- Lines that a data cache of 32 KiB holds (01 R13). -/
def dataLines : Nat := 128

/-- Installs copies of a line as its home answers (09 R165, 08 R151); a full data cache drops the line it has held longest, where the spec names
    none (log entry 71). -/
def installCopy (s : State) (q line lend : Nat) (guest : Bool) : State :=
  let c : Copy := { guest := false, holder := q, line := line, data := memRead s.mem (256 * line) 256, wts := (lineTime s line).wts, lend := lend, gtick := s.T }
  let rest := s.copies.filter (fun d => !(d.line == line && d.near q && (guest || !d.guest)))
  let mine := (rest.filter (fun d => !d.guest && d.holder == q)).take (dataLines - 1)
  let others := rest.filter (fun d => !(!d.guest && d.holder == q))
  { s with copies := c :: mine ++ (if guest then [{ c with guest := true, holder := clusterOf q }] else []) ++ others }

/-- Whether a slice has a CACHE bank (08 R148). -/
def hasCache (s : State) (slice : Nat) : Bool := (List.range 32).any (fun b => bankRole s slice b == 0)

/-- The lease a home grants at program time p (09 R165): its length, 1 to 16 ticks, and whether a guest copy is made are the home's choice.
    With `own` the loading thread has stores of its own on the line that are not settled: a copy that other threads of the quad could read
    comes only with their settling, which the home may choose at any time (R169). -/
def grant (s : State) (q line p : Nat) (own : Bool) : State :=
  let (c, s) := choice (parted (256 * line) 256 s) 64
  let settles := c / 32 == 1
  let s := if own && settles then settleLine s line else s
  let lt := lineTime s line
  let lend := max p lt.wts + (1 + c % 16)
  let s := { s with lines := Tbl.set s.lines line { wts := lt.wts, rts := max lt.rts lend } }
  if own && !settles then s
  else installCopy s q line lend (c / 16 % 2 == 1 && homeOf s (256 * line) / 256 != dieOf q && hasCache s (clusterOf q))

/-- A byte string at a line's home as thread t sees it: the banks', under the thread's own cleared stores. -/
def latest (s : State) (key n : Nat) : List Byte :=
  s.stores.foldl (fun l st => overlay key l st.addr st.bytes) (memRead s.mem key n)

/-- A load of a global line through a quad's data cache at program time p (09 R165): its value, its clearing time, and the state after. `tid` is
    the loading thread's; hardware of the quad has none, and sees no store unsettled (R169). -/
def cacheLoad (q p : Nat) (tid : Option Nat) (key n : Nat) (s : State) : List Byte × Nat × State :=
  let line := key / 256
  match findCopy s q line p with
  | (some c, s) => ((c.data.drop (key % 256)).take n, p, s)
  | (none, s) =>
    let s := if s.stores.any (fun st => st.addr / 256 == line && tid != some st.tid) then settleLine s line else s
    let v := latest s key n
    let s := grant s q line p (s.stores.any (fun st => st.addr / 256 == line))
    (v, max p (lineTime s line).wts, s)

/-- A load of the issuing thread, placed in clr (03 R67, 09 R165). -/
def clrLoad (key n : Nat) (s : State) : List Byte × State :=
  if isPurse key then
    let t := purseTime s key n s.now
    (memRead s.mem key n, (setPurseTime s key n t).raise s.cur t)
  else
    let r := cacheLoad s.quad s.now (some s.th.tid) key n s
    (r.1, r.2.2.raise s.cur r.2.1)

/-- Goes on from a load of the issuing thread; what stops after it leaves the load made. -/
def loading {β : Type} (key n : Nat) (s : State) (k : List Byte → State → Run β) : Run β :=
  let r := clrLoad key n s
  stopsAt r.2 (k r.1 r.2)

/-- The home alone serves a load of the issuing thread: the copies of its line that the quad could use are dropped first, as a cache may drop them. -/
def homeLoad (key n : Nat) (s : State) : List Byte × State :=
  clrLoad key n { s with copies := s.copies.filter (fun c => !(c.line == key / 256 && c.near s.quad)) }

def clrLoads : List (Nat × Nat) → State → List Byte × State
  | [], s => ([], s)
  | (k, n) :: r, s =>
    let (a, s) := clrLoad k n s
    let (b, s) := clrLoads r s
    (a ++ b, s)

/-- Goes on from several loads of the issuing thread. -/
def loadingAll {β : Type} (ks : List (Nat × Nat)) (s : State) (k : List Byte → State → Run β) : Run β :=
  let r := clrLoads ks s
  stopsAt r.2 (k r.1 r.2)

/-- A plain store of the issuing thread (09 R165 R168): published at once at a purse, cleared and unsettled at a global line. -/
def clrStore (key : Nat) (bs : List Byte) (s : State) : State :=
  if isPurse key then
    let t := purseTime s key bs.length s.now
    let s := setPurseTime s key bs.length t
    let s := clearPoison { s with mem := memWrite s.mem key bs } key bs.length
    s.raise s.cur t
  else
    let (w, s) := writeTime s (key / 256) s.now
    let s := { s with stores := s.stores ++ [({ tid := s.th.tid, addr := key, bytes := bs, wts := w } : Store)] }
    let s := s.setTh { s.th with touched := s.th.touched.add (homeOf s key) }
    let s := if poisoned s key bs.length then clearPoison (settleLine s (key / 256)) key bs.length else s
    s.raise s.cur w

def clrStores (s : State) : List (Nat × Nat) → List Byte → State
  | [], _ => s
  | (k, n) :: r, bs => clrStores (clrStore k (bs.take n) s) r (bs.drop n)

/-- A read-modify-write of the issuing thread (09 R165): performed at the bank and published at once; `f` answers nothing when it writes no value. -/
def clrRmw (key n : Nat) (f : List Byte → Option (List Byte)) (s : State) : List Byte × State :=
  let s := if isPurse key then s else settleLine s (key / 256)
  let old := memRead s.mem key n
  let (t, s) := if isPurse key then
      let t := purseTime s key n s.now
      (t, setPurseTime s key n t)
    else writeTime s (key / 256) s.now
  let s := match f old with
    | some bs => { s with mem := memWrite s.mem key bs }
    | none => s
  (old, s.raise s.cur t)

/-! ### Full/empty granules and the wait table (08 R145, 11 R194 R195) -/

def isFull (s : State) (g : Nat) : Bool := !s.empties.contains g
def setEmpty (s : State) (g : Nat) : State := { s with empties := g :: s.empties.filter (· != g) }

/-- A loaded value, extended (11 R191). -/
def extend (zext : Bool) (l : List Byte) : Word :=
  if zext then BitVec.ofNat 64 (leNat l) else (BitVec.ofNat (8 * l.length) (leNat l)).signExtend 64

def setReg (r : Vector Word 16) (d : Reg) (v : Word) : Vector Word 16 := if d = 0 then r else r.set d v

/-- Serves one waiting request: it is performed here, which is its place in clr, and its thread returns to rotation past the instruction. One that
    finds its granule poisoned is withdrawn, and its instruction issues again and meets the check (11 R189). -/
def serve (s : State) (r : ParkReq) : State :=
  if poisoned s r.key r.n then s.setCtx r.berth { s.ctx r.berth with wait := .ready }
  else
    let p := purseTime s r.key r.n (max (s.ctx r.berth).pts s.T)
    let v := extend r.zext (memRead s.mem r.key r.n)
    let s := (setPurseTime s r.key r.n p).raise r.berth p
    let s := acquireAt r.berth s
    let c := s.ctx r.berth
    let s := s.setCtx r.berth { c with regs := setReg c.regs r.rd v, pc := c.pc + BitVec.ofNat 56 r.len, wait := .ready }
    if r.clear then setEmpty s (granule r.key) else s

/-- Serves the parked requests of a granule in entry order: every `ldf`, and the first `ldc` that takes it, at which service stops. -/
def serveList (s : State) (g : Nat) : List ParkReq → List ParkReq × State
  | [] => ([], s)
  | r :: rest =>
    if granule r.key ≠ g then
      let (k, s) := serveList s g rest
      (r :: k, s)
    else if r.clear && !poisoned s r.key r.n then (rest, serve s r)
    else serveList (serve s r) g rest

/-- Fills a purse granule: sets it full and serves the requests parked on it (11 R195). -/
def fillGranule (s : State) (g : Nat) : State :=
  let s := { s with empties := s.empties.filter (· != g) }
  let q := keyQuad (16 * g)
  match Tbl.get? s.waits q with
  | none => s
  | some l =>
    let (k, s) := serveList s g l
    { s with waits := if k = [] then Tbl.del s.waits q else Tbl.set s.waits q k }

def fillGranules (s : State) (gs : List Nat) : State := gs.foldl fillGranule s

/-! ### Arrival reads and writes (09 R162 R167) -/

/-- An engine's, host's or peer's read: what has arrived at the bank. -/
def arrRead (s : State) (key n : Nat) : List Byte := memRead s.mem key n

/-- The clearing time of a write at program time p that its bank performs at once (09 R162 R165): the home settles the line first. -/
def bankTime (p : Nat) (s : State) (key n : Nat) : Nat × State :=
  if isPurse key then
    let t := purseTime s key n p
    (t, setPurseTime s key n t)
  else writeTime (settleLine s (key / 256)) (key / 256) p

/-- A write within one line at program time p, without the filling of granules: its clearing time, and the state after. -/
def bankStore (p : Nat) (s : State) (key : Nat) (bs : List Byte) : Nat × State :=
  let (t, s) := bankTime p s key bs.length
  (t, clearPoison { s with mem := memWrite s.mem key bs } key bs.length)

/-- An arrival write within one line: its program time is 0 (09 R165). -/
def arrStore (s : State) (key : Nat) (bs : List Byte) : State := (bankStore 0 s key bs).2

/-- An engine's, host's or peer's write within one line; a purse granule is filled. -/
def arrWrite (s : State) (key : Nat) (bs : List Byte) : State :=
  if isPurse key then fillGranules (arrStore s key bs) (granules key bs.length) else arrStore s key bs

/-- A long arrival write, granule by granule. -/
def arrWrites (s : State) (key : Nat) (bs : List Byte) : Nat → State
  | 0 => s
  | k + 1 =>
    if bs = [] then s
    else
      let n := 16 - key % 16
      arrWrites (arrWrite s key (bs.take n)) (key + n) (bs.drop n) k

/-- A write of the module's own hardware, outside any granule's filling (17 R301, 13 R233), at once at its bank. -/
def hwWrite (s : State) (key : Nat) (bs : List Byte) : State := arrStore s key bs

/-! ### The reserved region (16 R293; where each part lies is the model's choice, log entry 6) -/

def slotPa (s : State) (n : Nat) : Nat := s.resBase + 128 * n
def mintPa (s : State) (n : Nat) : Nat := s.resBase + 0x100000 + 64 * n
def journalPa (s : State) (seq : Nat) : Nat := s.resBase + 0x4000000 + 64 * (seq % 2 ^ 20)
def poolPa (s : State) (blk : Nat) : Nat := s.resBase + 0x40000000 + 8192 * blk
def poolBlocks : Nat := 131072

/-- The block of the spill pool that a byte of it lies in. -/
def poolBlock (s : State) (pa : Nat) : Nat := (pa - poolPa s 0) / 8192

/-- Spill-pool blocks in use (13 R239 R243, 17 R305): those of the deques' stacks and of parked nets' records, and those that the records of
    contexts stand in. -/
def poolInUse (s : State) : List Nat :=
  (s.spills.flatMap (fun e => e.2.map (·.1)) ++ s.parkedRec.map (·.no) ++ s.arrSpill.flatMap (fun e => e.2.map (fun c => poolBlock s c.slot))
    ++ s.evicted.flatMap (fun e => e.2.map (fun c => poolBlock s c.slot))).dedup
def poolFull (s : State) : Bool := poolBlocks ≤ (poolInUse s).length

/-- The lowest block that nothing holds. -/
def freeBlockNo (s : State) : Nat :=
  let used := poolInUse s
  ((List.range (used.length + 1)).find? (fun i => !used.contains i)).getD 0

/-- A place for one more record in a FIFO of the spill pool, whose blocks hold `cap` records of `size` bytes and whose records stand at `used`:
    a free place of its own blocks, or a new block's first; `none` while the pool is exhausted. -/
def poolSlot (s : State) (used : List Nat) (cap size : Nat) : Option Nat :=
  let own := ((used.map (poolBlock s)).dedup.flatMap (fun b => (List.range cap).map (fun i => poolPa s b + size * i)))
  match own.find? (fun a => !used.contains a) with
  | some a => some a
  | none => if poolFull s then none else some (poolPa s (freeBlockNo s))

/-- A place in the suspense area (17 R307): 128 bytes, the lowest free. -/
def suspensePa (s : State) (i : Nat) : Nat := s.resBase + 0x8000000 + 128 * i
def freeSuspense (s : State) : Nat := ((List.range (s.suspense.length + 1)).find? (fun i => s.suspense.all (·.1 != i))).getD 0

/-- A double as the bank holds it. -/
def bankWord (s : State) (key : Nat) : Word := bytesWord (memRead s.mem key 8)

end Sys2Proof.Machine
end

