-- ==== Sys2Proof/Machine/Ops.lean ====
section
/-!
DEFINITION. The shared operations on threads: registers, the ends of an instruction, coins and mints, redexes and contexts, node cells,
taking a fault and returning from one (03 R68, 13, 14, 15, 17).
-/

namespace Sys2Proof.Machine

/-! ### Registers and the ends of an instruction -/

/-- What a meaning answers. -/
abbrev Result := Host.Outcome State Fault Refusal

/-- X(n): register 0 reads as zero (03 R48). -/
def State.x (s : State) (r : Reg) : Word := if r = 0 then 0 else s.th.regs[r]
/-- XW(n, v): a write to register 0 is discarded (03 R48). -/
def State.xw (s : State) (d : Reg) (v : Word) : State := s.setTh { s.th with regs := setReg s.th.regs d v }
/-- The pc moves past an instruction of n bytes (03 R59). -/
def State.pass (s : State) (n : Nat) : State := s.setTh { s.th with pc := s.th.pc + BitVec.ofNat 56 n }
/-- Leaves rotation with the instruction performed: its reply is on the way (03 R11). -/
def State.away (s : State) : State := s.leave s.cur .reply
/-- Leaves rotation unless the access was local (11 R191). -/
def State.awayUnless (s : State) (here : Bool) : State := if here then s else s.away

/-- Names the thread that a berth holds. -/
def State.tidAt (s : State) (b : Nat) : Nat := (s.ctx b).tid

/-! ### The journal (17 R310) -/

/-- What an entry records beside its number, its time and the mint's counts. -/
structure Event where
  code : Nat := 0
  status : Nat := 0
  net : Nat := 0
  fromSt : Nat := 0
  toSt : Nat := 0
  kind : Nat := 3
  port : Nat := 0
  peer : Nat := 0

def State.mint (s : State) (n : Nat) : Mint := Tbl.getD s.mints n {}

def mintCode : MintState → Nat
  | .opened => 0 | .quiet => 1 | .voiding => 2 | .voided => 3

/-- A mint record (14 R249). -/
def mintBytes (n : Nat) (m : Mint) : List Byte :=
  leBytes 16 m.issued ++ leBytes 16 m.returned ++ leBytes 8 (mintCode m.st * 2 ^ 62 + m.reason.toNat * 2 ^ 60 + n) ++ leBytes 8 m.borrows
    ++ leBytes 8 m.tick ++ zeros 8

/-- Changes a mint, and its record in HBM with it, by a read-modify-write at program time p (14 R250): its clearing time, and the state after. -/
def State.mintRmw (s : State) (p n : Nat) (m : Mint) : Nat × State := bankStore p { s with mints := Tbl.set s.mints n m } (mintPa s n) (mintBytes n m)
/-- The same by the bursar, whose writes are arrival writes. -/
def State.setMint (s : State) (n : Nat) (m : Mint) : State := (s.mintRmw 0 n m).2
/-- When a request at program time p to a mint's record clears (09 R165). -/
def mintTime (s : State) (p n : Nat) : Nat := max p (lineTime s (mintPa s n / 256)).rts

def netStateCode : NetState → Nat
  | .free => 0 | .bound => 1 | .parked => 2 | .voiding => 3

/-- A bind record (13 R235). -/
def bindBytes (n : Nat) (r : NetRec) : List Byte :=
  let w := leBytes 8
  w (n * 2 ^ 52 + netStateCode r.st * 2 ^ 50 + r.cls.toNat * 2 ^ 48 + (if r.priv then 2 ^ 47 else 0) + r.counters.toNat * 2 ^ 32
      + r.spawnLim * 2 ^ 16 + (r.cellKib - 1) * 2 ^ 10)
    ++ w r.deadline ++ w r.ptRoot ++ w r.ruleBase ++ w r.codeBase ++ wordBytes r.handler
    ++ w (r.ox * 2 ^ 18 + r.oy * 2 ^ 12 + (r.wc - 1) * 2 ^ 6 + (r.hc - 1))
    ++ w (r.poolOff * 2 ^ 36 + r.poolSize * 2 ^ 18 + r.cellOff) ++ w r.mint ++ w r.schedBase ++ w r.schedCount ++ zeros 40

/-- Changes a bind record, and its backing in HBM with it (13 R234, 16 R293). -/
def State.setNet (s : State) (n : Nat) (r : NetRec) : State := hwWrite { s with nets := Tbl.set s.nets n r } (slotPa s n) (bindBytes n r)

/-- CRC-32 of a byte string (17 R310; the polynomial 0x04C11DB7 of IEEE 802.3, log entry 9). -/
def crcBit (c : BitVec 32) : BitVec 32 := if c.getLsbD 0 then (c >>> 1) ^^^ 0xEDB88320 else c >>> 1
def crcByte (c : BitVec 32) (b : Byte) : BitVec 32 :=
  crcBit (crcBit (crcBit (crcBit (crcBit (crcBit (crcBit (crcBit (c ^^^ b.zeroExtend 32))))))))
def crc32 (l : List Byte) : BitVec 32 := ~~~(l.foldl crcByte 0xFFFFFFFF)

/-- A journal entry (17 R310). -/
def journalBytes (j : JEntry) : List Byte :=
  let w := leBytes 8
  let body := w j.seq ++ w j.wall ++ w (j.code * 2 ^ 56 + j.status * 2 ^ 48 + j.net * 2 ^ 36 + j.fromSt * 2 ^ 32 + j.toSt * 2 ^ 28)
    ++ w (j.kind * 2 ^ 62 + j.port * 2 ^ 48 + j.peer) ++ w j.issued ++ w j.returned
    ++ w (j.issued / 2 ^ 64 % 2 ^ 32 * 2 ^ 32 + j.returned / 2 ^ 64 % 2 ^ 32)
  body ++ w (crc32 body).toNat

/-- Appends an entry to the ring of 2^20 entries, written back to HBM at once. -/
def journal (e : Event) (s : State) : State :=
  let m : Mint := if 2 ≤ e.fromSt ∨ e.toSt = 2 then s.mint e.net else {}
  let j : JEntry := { seq := s.jseq, wall := s.wall, code := e.code, status := e.status, net := e.net, fromSt := e.fromSt, toSt := e.toSt,
                      kind := e.kind, port := e.port, peer := e.peer, issued := m.issued, returned := m.returned }
  hwWrite { s with journal := (s.journal ++ [j]).drop (s.journal.length + 1 - 2 ^ 20), jseq := s.jseq + 1 } (journalPa s s.jseq) (journalBytes j)

/-- The bursar journals that the spill pool is exhausted, once until a block is written again (13 R239). -/
def noteDry (s : State) : State := if s.poolDry then s else journal { kind := 2 } { s with poolDry := true }

/-- What needs a block of the spill pool happens, or waits for one. -/
def orDry (r : Option State) (s : State) : State := match r with | some t => t | none => noteDry s

/-! ### Coins and mints (14) -/

/-- A return on its way to a mint (14 R250 R255); a zero amount sends nothing. -/
def sendReturn (n amount time src : Nat) (s : State) : State :=
  if amount = 0 then s else { s with msgs := s.msgs ++ [({ src := src, dst := 0, body := .ret n amount time } : Msg)] }

/-- The mint's report word (14 R256). -/
def reportWord (m : Mint) : Word := BitVec.ofNat 64 (min m.borrows (2 ^ 32 - 1) * 2 ^ 32 + (if m.st = .voided then 1 else 0))

/-- A mint that has become QUIET or VOIDED owes its registered waiters their wake (14 R250 R256). -/
def wakeAll (m : Mint) : Mint :=
  { m with waiters := [], due := m.due ++ m.waiters.map (fun t => { tid := t, report := reportWord m, time := m.time, voided := m.st == .voided }) }

/-- A request of a quad for a mint's line, which may be answered REHOME first (08 R150). -/
def mintRequest (q n : Nat) (s : State) : State := hwRequest q (mintPa s n) s

/-- A return performed at the mint (14 R250): equal counts end OPEN as QUIET, and VOIDING as VOIDED. A VOIDED mint changes in nothing (R258). -/
def mintReturn (n amount time : Nat) (s : State) : State :=
  let m := s.mint n
  if m.st = .voided then s
  else
    let m := { m with returned := m.returned + amount, time := max m.time (mintTime s time n) }
    let m :=
      if m.returned = m.issued then
        match m.st with
        | .opened => wakeAll { m with st := .quiet, tick := s.T }
        | .voiding => wakeAll { m with st := .voided, tick := s.T }
        | _ => m
      else m
    (s.mintRmw time n m).2

/-- A borrow at program time p performed at the mint (14 R250 R252), with its clearing time; refused while VOIDING or VOIDED. -/
def mintBorrow? (n p : Nat) (s : State) : Option (Nat × State) :=
  let m := s.mint n
  let s := count (homeOf s (mintPa s n) / 256) 6 1 s
  let more := { m with issued := m.issued + 2 ^ 32, borrows := min (m.borrows + 1) (2 ^ 64 - 1) }
  match m.st with
  | .voiding => none
  | .voided => none
  | .quiet => some (s.mintRmw p n { more with st := .opened, tick := s.T })
  | .opened => some (s.mintRmw p n more)

/-- A borrow made for a berth's thread, which orders the thread after it (14 R251 R252); `none` when the mint refuses. -/
def borrowAt (b : Nat) (s : State) : Option State :=
  let c := s.ctx b
  (mintBorrow? c.net (max c.pts s.T) s).map (fun r => r.2.raise b r.1)

/-- Every grain a thread holds: its `%coin`, and what borrows have granted to the instruction at its pc (14 R251). -/
def Ctx.grains (c : Ctx) : Nat := c.coin + 2 ^ 32 * c.lent

/-- The thread with every grain in its `%coin`. -/
def Ctx.whole (c : Ctx) : Ctx := { c with coin := c.grains, lent := 0 }

/-- CoinSplit (14 R251) of the issuing thread: the child's coin. With fewer than two grains the thread takes a borrow that it has been granted, or
    leaves to borrow, the pc on the instruction. -/
def coinSplit (s : State) : Run (Nat × State) :=
  let c := if s.th.coin < 2 ∧ s.th.lent ≠ 0 then { s.th with coin := s.th.coin + 2 ^ 32, lent := s.th.lent - 1 } else s.th
  if c.coin < 2 then waitOn .borrow else .ok (c.coin / 2, s.setTh { c with coin := c.coin - c.coin / 2 })

/-- CoinSplit made by the quad on a thread's behalf, which borrows at once (14 R254); `none` when the mint refuses. -/
def coinSplitAt (b : Nat) (s : State) : Option (Nat × State) :=
  let split := fun coin (s : State) => (coin / 2, s.setCtx b { s.ctx b with coin := coin - coin / 2 })
  let coin := (s.ctx b).coin
  if coin < 2 then (borrowAt b s).map (split (coin + 2 ^ 32)) else some (split coin s)

/-! ### Redex records (02 R31, 13 R238 R239) -/

def State.deque (s : State) (q : Nat) : List Rec := Tbl.getD s.deques q []
def State.setDeque (s : State) (q : Nat) (l : List Rec) : State := { s with deques := if l = [] then Tbl.del s.deques q else Tbl.set s.deques q l }
def State.spill (s : State) (q : Nat) : List (Nat × List Rec) := Tbl.getD s.spills q []
def State.setSpill (s : State) (q : Nat) (l : List (Nat × List Rec)) : State := { s with spills := if l = [] then Tbl.del s.spills q else Tbl.set s.spills q l }

/-- A redex record as it stands in a spill block (02 R31). -/
def recBytes (r : Rec) : List Byte :=
  wordBytes r.a ++ wordBytes r.b ++ leBytes 8 r.coin ++ leBytes 8 (r.net * 2 ^ 52 + r.cls.toNat * 2 ^ 50 + r.typ * 2 ^ 48)

/-- The coin summary of a block of the spill pool (13 R239, 14 R258), from the nets and coins of its records: nets in ascending order, with the
    sum of their coins. -/
def coinSummary (l : List (Nat × Nat)) : List Byte :=
  let nets := ((List.range 4096).filter (fun n => l.any (fun r => r.1 == n))).take 16
  let e := nets.flatMap (fun n =>
    let c := ((l.filter (fun r => r.1 == n)).map (·.2)).sum
    leBytes 8 (n * 2 ^ 52 + c / 2 ^ 64) ++ leBytes 8 c)
  e ++ zeros (256 - e.length)

/-- A spill block (13 R239): 8 KiB. -/
def blockBytes (l : List Rec) : List Byte :=
  let rs := l.flatMap recBytes
  let sum := coinSummary (l.map (fun r => (r.net, r.coin)))
  rs ++ zeros (4096 - rs.length) ++ sum ++ sum ++ zeros 3584

/-- Writes a block of records of the spill pool. -/
def writeBlock (q no : Nat) (l : List Rec) (s : State) : State :=
  count (dieOf q) 5 1 (hwWrite { s with poolDry := false } (poolPa s no) (blockBytes l))

/-- The records of a block that can be read, and those that are poisoned, each with whether a copy of the block's coin summary survives (14 R258). -/
def readBlock (no : Nat) (l : List Rec) (s : State) : List Rec × List (Rec × Bool) :=
  let pa := poolPa s no
  let bad := fun (i : Nat) => poisoned s (pa + 32 * i) 32
  let survives := !poisoned s (pa + 4096) 256 || !poisoned s (pa + 4352) 256
  ((l.zipIdx.filter (fun e => !bad e.2)).map (·.1), (l.zipIdx.filter (fun e => bad e.2)).map (fun e => (e.1, survives)))

/-- Writes a record behind those that a block holds, and the block's summaries. -/
def growBlock (no : Nat) (l : List Rec) (r : Rec) (s : State) : State :=
  let pa := poolPa s no
  let sum := coinSummary ((l ++ [r]).map (fun r => (r.net, r.coin)))
  hwWrite (hwWrite (hwWrite s (pa + 32 * l.length) (recBytes r)) (pa + 4096) sum) (pa + 4352) sum

/-- Writes records as a block on a quad's spill stack; the caller has looked for room in the pool. -/
def pushBlock (q : Nat) (l : List Rec) (s : State) : State :=
  let b := freeBlockNo s
  let s := writeBlock q b l s
  s.setSpill q ((b, l) :: s.spill q)

/-- A record of a net parked on a quad joins the blocks kept for such nets there (13 R238 R239): the last one while it has room, else a new block. -/
def pushParked (q : Nat) (r : Rec) (s : State) : Option State :=
  match (s.parkedRec.filter (·.quad == q)).getLast? with
  | some b =>
    if b.recs.length < 128 then
      some (growBlock b.no b.recs r { s with parkedRec := s.parkedRec.map (fun x => if x.no = b.no then { b with recs := b.recs ++ [r] } else x) })
    else fresh s
  | none => fresh s
where
  fresh (s : State) : Option State :=
    if poolFull s then none
    else
      let b := freeBlockNo s
      let s := writeBlock q b [r] s
      some { s with parkedRec := s.parkedRec ++ [{ quad := q, no := b, recs := [r] }] }

/-- Takes the records that a test selects out of the blocks that a quad keeps for parked nets, in order, and those found poisoned in the blocks that
    it reads for that; a block left empty is free. -/
def takeParked (q : Nat) (p : Rec → Bool) (s : State) : List Rec × List (Rec × Bool) × State :=
  let hit := fun (b : ParkedBlock) => b.quad == q && b.recs.any p
  let good := fun (b : ParkedBlock) => (readBlock b.no b.recs s).1
  let left := fun (b : ParkedBlock) => { b with recs := (good b).filter (fun r => !p r) }
  let bs := s.parkedRec.filter hit
  let t := bs.foldl (fun t b => hwWrite t (poolPa t b.no) (blockBytes (left b).recs)) s
  (bs.flatMap (fun b => (good b).filter p), bs.flatMap (fun b => (readBlock b.no b.recs s).2),
    { t with parkedRec := (s.parkedRec.map (fun b => if hit b then left b else b)).filter (fun b => !b.recs.isEmpty) })

/-- A record enters a quad's deque at the newest end; a full deque first spills its 128 oldest records (13 R239). `none` while the
    spill pool is exhausted. A record of a net parked there waits with the net's others. -/
def pushRec (q : Nat) (r : Rec) (s : State) : Option State :=
  if s.netStateAt r.net q = .parked then pushParked q r s
  else
    let d := s.deque q
    if d.length < 256 then some (s.setDeque q (d ++ [r]))
    else if poolFull s then none
    else
      let s := pushBlock q (d.take 128) s
      some (s.setDeque q (d.drop 128 ++ [r]))

/-- Whether a push onto a quad's deque spills first (13 R239), so that a thread that makes it leaves rotation (15 R259). -/
def spills (s : State) (q n : Nat) : Bool := s.netStateAt n q != .parked && 256 ≤ (s.deque q).length

/-- A thread's push: spill-pool exhaustion keeps it out of rotation (13 R239). -/
def pushRun (q : Nat) (r : Rec) (s : State) : Run State :=
  match pushRec q r s with
  | some s => .ok s
  | none => waitOn .spill

/-! ### Contexts (13 R242 R243, 15 R270) -/

def State.arrQ (s : State) (core : Nat) : List Context := Tbl.getD s.arrivals core []
def State.setArrQ (s : State) (core : Nat) (l : List Context) : State := { s with arrivals := if l = [] then Tbl.del s.arrivals core else Tbl.set s.arrivals core l }
def State.arrS (s : State) (core : Nat) : List Context := Tbl.getD s.arrSpill core []
def State.setArrS (s : State) (core : Nat) (l : List Context) : State := { s with arrSpill := if l = [] then Tbl.del s.arrSpill core else Tbl.set s.arrSpill core l }

/-- A context's 96 bytes (15 R270). -/
def ctxBytes (s : State) (c : Context) : List Byte :=
  leBytes 8 (c.net * 2 ^ 52 + c.cls.toNat * 2 ^ 50 + c.core * 2 ^ 18 + (s.netRec c.net).form s c.quad) ++ leBytes 8 c.pts
    ++ ((List.range 7).flatMap (fun i => wordBytes (c.x.getD i 0))) ++ leBytes 8 c.pc.toNat ++ leBytes 8 c.coin ++ zeros 8

/-- Where the contexts of an arrival spill lie in their blocks: 64 records of 96 bytes, then the coin summary twice (14 R258; log entry 6). -/
def ctxPerBlock : Nat := 64
def ctxSummary (s : State) (block copy : Nat) : Nat := poolPa s block + 6144 + 256 * copy

/-- The coin summaries of an arrival-spill block, as its contexts now are. -/
def summarize (core block : Nat) (s : State) : State :=
  let sum := coinSummary (((s.arrS core).filter (fun c => poolBlock s c.slot == block)).map (fun c => (c.net, c.coin)))
  hwWrite (hwWrite s (ctxSummary s block 0) sum) (ctxSummary s block 1) sum

/-- A context joins its core's arrival spill (13 R243); `none` while the spill pool is exhausted. -/
def spillCtx (core : Nat) (c : Context) (s : State) : Option State :=
  let l := s.arrS core
  match poolSlot s (l.map (·.slot)) ctxPerBlock 96 with
  | none => none
  | some a =>
    let b := poolBlock s a
    let s := if l.all (fun x => poolBlock s x.slot != b) then count (dieOf (core / 4)) 5 1 { s with poolDry := false } else s
    some (summarize core b ((hwWrite s a (ctxBytes s c)).setArrS core (l ++ [{ c with slot := a }])))

/-- A context arrives at its core (13 R242 R243): discarded while its net is VOIDING, else queued, or spilled behind a full queue, behind contexts
    that are spilled, or where its net is PARKED. `none` while the spill pool is exhausted. -/
def arrive (core : Nat) (c : Context) (s : State) : Option State :=
  let c := { c with seq := s.nextArr }
  let s := { s with nextArr := s.nextArr + 1 }
  match s.netStateAt c.net (core / 4) with
  | .voiding => some (sendReturn c.net c.coin c.pts (core / 4) s)
  | .parked => spillCtx core c s
  | _ =>
    if (s.arrQ core).length < 64 ∧ s.arrS core = [] then some (s.setArrQ core (s.arrQ core ++ [c]))
    else spillCtx core c s

/-! ### Port words, headers and node cells (02 R23 R26 to R30, 15 R262) -/

def tagOf (w : Word) : Nat := bits w.toNat 63 60
/-- The address of a port word, as memory operands take it. -/
def addrOf (w : Word) : Word := BitVec.ofNat 64 (bits w.toNat 59 0)
def programKind (k : Nat) : Bool := 1 ≤ k && k ≤ 0xEF
/-- A kind that dispatch, `link` and `grab` accept (02 R23). -/
def kindOk (k : Nat) : Bool := programKind k || k == 0xFE || k == 0xFF
def immKind (w : Word) : Nat := bits w.toNat 58 51

/-- Whether a port word keeps the forms of 02 R26 to R28. -/
def portOk (w : Word) : Bool :=
  let v := w.toNat
  let addr := if bits v 59 59 = 1 then bits v 58 56 == 0 else bits v 58 36 == 0
  match tagOf w with
  | 0 => bits v 59 0 == 0
  | 1 => addr && bits v 2 0 == 0
  | 2 => addr && bits v 3 0 == 0
  | 3 => addr && bits v 3 0 == 0
  | 4 => bits v 59 0 == 0
  | 5 => bits v 59 59 == 0 && bits v 50 48 == 0 && programKind (immKind w)
  | _ => false

def holdWord : Word := BitVec.ofNat 64 (4 * 2 ^ 60)
/-- A side of a redex: a PRIN or IMM word of good form (15 R264). -/
def sideOk (w : Word) : Bool := (tagOf w == 2 || tagOf w == 5) && portOk w

def hdrKind (h : Word) : Nat := bits h.toNat 63 56
def hdrArity (h : Word) : Nat := bits h.toNat 55 52
def hdrS (h : Word) : Bool := bits h.toNat 51 51 == 1
def hdrL (h : Word) : Bool := bits h.toNat 50 50 == 1
/-- Whether a header keeps 02 R30 and R23. -/
def headerOk (h : Word) : Bool :=
  let v := h.toNat
  kindOk (hdrKind h) && hdrArity h ≤ 6 && bits v 49 48 == 0 && !(hdrS h && hdrL h)
    && (!hdrL h || (1 ≤ bits v 5 0 && bits v 5 0 ≤ 32 && bits v 47 6 == 0))
def hdrLen (h : Word) : Nat := if hdrL h then 8 * ((bits h.toNat 5 0 + 7) / 8) else 0
/-- The size of the node a header describes (15 R262). -/
def nodeSize (h : Word) : Nat := 16 * ((16 + 8 * hdrArity h + hdrLen h + 15) / 16)

/-- Whether `size` bytes at a purse offset are clear of the cells in use. -/
def clearOf (l : List (Nat × Nat)) (off size : Nat) : Bool := l.all (fun c => off + size ≤ c.1 || c.1 + c.2 ≤ off)

def firstFit (l : List (Nat × Nat)) (size hi : Nat) : Nat → Nat → Option Nat
  | 0, _ => none
  | k + 1, off => if off + size ≤ hi ∧ clearOf l off size then some off else firstFit l size hi k (off + 16)

/-- A free cell of a net's pool on a quad: which one is the quad's affair (15 R262; log entry 3). -/
def allocNode (n q size : Nat) (s : State) : Option (Nat × State) :=
  let nr := s.netRec n
  let nq := s.netq n q
  let (c, s) := choice s (2 ^ 32)
  let hi := nr.poolOff + nr.poolSize
  let off0 := nr.poolOff + 16 * (c % (nr.poolSize / 16))
  let found := if off0 + size ≤ hi ∧ clearOf nq.nodes off0 size then some off0 else firstFit nq.nodes size hi (nr.poolSize / 16) nr.poolOff
  match found with
  | none => none
  | some off => some (off, s.setNetq n q { nq with nodes := (off, size) :: nq.nodes, freed := nq.freed.filter (fun o => o < off || off + size ≤ o) })

/-! ### Rule entries (02 R24 R25) and reads of a net's global memory by its quads -/

/-- A read of len bytes at an address word by a quad's hardware for a net, at program time p: its clearing time, the bytes, and the state after. A
    global line is read through the quad's data cache (02 R23, 09 R165), whose request may be answered REHOME (08 R150), and a bank that is changing
    its role keeps it waiting (08 R148). -/
def hwRead (n q p : Nat) (aw : Word) (len : Nat) (s : State) : Run ((Nat × List Byte) × State) :=
  match formOf aw with
  | none => fail .access
  | some (.glob va) =>
    reading (globAccess s q n va len needR) fun pa s =>
      if poisoned s pa len then fail .poison
      else
        let r := cacheLoad q p none pa len (if (usableCopies s q (pa / 256) p).isEmpty then hwRequest q pa s else s)
        .ok ((r.2.1, r.1), r.2.2)
  | some f =>
    match purseAccess s (s.netRec n) q f len with
    | none => fail .access
    | some k =>
      if poisoned s k len then fail .poison
      else
        let t := purseTime s k len p
        .ok ((t, memRead s.mem k len), setPurseTime s k len t)

/-- The same where a read that cannot be made brings nothing; an error is a wait. -/
def hwTry (n q p : Nat) (aw : Word) (len : Nat) (s : State) : Run (Option (List Byte) × State) :=
  match hwRead n q p aw len s with
  | .ok (r, t) => .ok (some r.2, t)
  | .error (.fault _ t) => .ok (none, t.getD s)
  | .error e => .error e

/-- The address word of a virtual address. -/
def globWord (va : Nat) : Word := BitVec.ofNat 64 (2 ^ 59 + va)

/-- What a rule entry says (02 R25): its index and ACC bit, when V = 1 and the reserved bits are zero. -/
def ruleOf (l : List Byte) : Option (Nat × Bool) :=
  let e := leNat l
  if bits e 31 31 = 1 ∧ bits e 29 28 = 0 then some (bits e 27 0, bits e 30 30 == 1) else none

/-- The rule entry of a pair of kinds. One that cannot be read is taken as one with V = 0 (log entry 34). -/
def ruleEntry (n q p key : Nat) (s : State) : Run (Option (Nat × Bool) × State) :=
  (hwTry n q p (globWord ((s.netRec n).ruleBase + 4 * key)) 4 s).map (fun r => (r.1.bind ruleOf, r.2))

/-- The memory key of the net's handler cell (13 R233): the 64 bytes above the launch quad's node pool. -/
def handlerKey (s : State) (n : Nat) : Nat :=
  let nr := s.netRec n
  purseKey (nr.launchQuad s) (nr.poolOff + nr.poolSize)

/-- Whether the net's handler kind has a rule against FAULT (02 R46), as quad q reads it, and the state after. A rule that cannot be read just now, in
    a bank that is changing its role, is not found missing: its fault redex is made later. -/
def hasHandler (n q : Nat) (s : State) : Bool × State :=
  match ruleEntry n q s.T (256 * hdrKind (bankWord s (handlerKey s n)) + 0xFF) s with
  | .ok (e, t) => (e.isSome, t)
  | .error e => (true, e.state s)

/-! ### The end of a gang, of a thread, of a net's work -/

/-- Whether a thread leads a gang. -/
def leadsGang (s : State) (b : Nat) : Bool := (Tbl.get? s.mgangs b).isSome || (Tbl.get? s.vgangs b).isSome

/-- Ends the gangs a berth leads (06 R109): the members' registers are discarded, the sub-tiles stay. -/
def endGangs (b : Nat) (s : State) : State := { s with mgangs := Tbl.del s.mgangs b, vgangs := Tbl.del s.vgangs b }

/-- Meets the operands-consumed dependencies that wait on a thread (12 R215). -/
def meetDeps (tid : Nat) (s : State) : State :=
  { s with chans := s.chans.map (fun e => (e.1, { e.2 with queue := e.2.queue.map (fun c => if c.tid = tid then { c with waitOp := false } else c) })) }

/-- Withdraws a thread's entry of a wait table (11 R190 R195). -/
def withdraw (b : Nat) (s : State) : State :=
  match (s.ctx b).wait with
  | .parked r =>
    let q := keyQuad r.key
    let l := (Tbl.getD s.waits q []).filter (fun e => e.berth != b)
    { s with waits := if l = [] then Tbl.del s.waits q else Tbl.set s.waits q l }
  | _ => s

/-- Takes a thread out of the lines it stands in: a wait table, the faults that wait for a block, an assay. -/
def unqueue (b : Nat) (s : State) : State :=
  let s := withdraw b s
  let c := s.ctx b
  let nq := s.netq c.net (quadOf b)
  let s := if nq.waiting.contains c.tid then s.setNetq c.net (quadOf b) { nq with waiting := nq.waiting.filter (· != c.tid) } else s
  { s with assays := s.assays.filter (fun a => a.berth != b) }

/-- A berth's thread ends (15 R269): its gang ends, its message queue, report and touched set are discarded, the berth is free. -/
def freeBerth (b : Nat) (s : State) : State :=
  let s := meetDeps (s.tidAt b) (endGangs b (unqueue b s))
  { s with berths := Tbl.del s.berths b }

/-- Publishes every write of a berth's thread (09 R168). -/
def publishAt (b : Nat) (s : State) : State :=
  let s := publishWhere s (s.tidAt b) (fun _ => true)
  s.setCtx b { s.ctx b with touched := .slices [] }

/-- A VOID discard (14 R257): the thread's writes are published, its coin goes back, its berth is free. -/
def discard (b : Nat) (s : State) : State :=
  let s := publishAt b s
  let c := s.ctx b
  freeBerth b (sendReturn c.net c.grains c.pts (quadOf b) s)

/-- The net's number in the journal for a bind record's state (17 R310). -/
def stateCode : NetState → Nat
  | .free => 0
  | .bound => 2
  | .parked => 3
  | .voiding => 4

/-- The engine and recovered-coin faults of a net that wait for a block are discarded, and their coins go back (14 R257). -/
def dropEngFaults (n : Nat) (s : State) : State :=
  (s.netqs.filter (fun e => e.1 / 2 ^ 18 == n && e.2.eng != [])).foldl (fun s e =>
    let q := e.1 % 2 ^ 18
    let s := e.2.eng.foldl (fun s f => sendReturn n f.coin f.time q s) s
    s.setNetq n q { s.netq n q with waiting := e.2.waiting.filter (· < 2 ^ 64), eng := [] }) s

/-- A mint enters VOIDING (14 R257), or goes straight to VOIDED from QUIET; the net's queued commands are marked as cancelled (12 R221). The rule has a
    mint leave QUIET so at its deadline alone; an ABORT and a void of R46 move it in the same way, with reason 10 (DESIGN CHOICE, log entry 107). -/
def voidNet (n : Nat) (reason : BitVec 2) (s : State) : State :=
  let nr := s.netRec n
  let m := s.mint n
  if nr.st = .voiding ∨ nr.st = .free then s
  else
    let s := match m.st with
      | .opened => s.setMint n { m with st := .voiding, reason := reason, tick := s.T }
      | .quiet => s.setMint n (wakeAll { m with st := .voided, reason := reason, tick := s.T })
      | _ => s
    let s := dropEngFaults n (s.setNet n { nr with st := .voiding })
    { s with chans := s.chans.map (fun e => (e.1, { e.2 with queue := e.2.queue.map (fun c => if c.net = n then { c with voided := true } else c) })) }

/-- The same where no command causes it: hardware (kind 3) or the bursar (kind 2) journals it (17 R310). -/
def startVoid (n : Nat) (reason : BitVec 2) (kind : Nat) (s : State) : State :=
  let nr := s.netRec n
  if nr.st = .voiding ∨ nr.st = .free then s else journal { net := n, fromSt := stateCode nr.st, toSt := 4, kind := kind } (voidNet n reason s)

/-- A forced close (14 R258): VOIDED, reason 11, returned set equal to issued. -/
def forceClose (n : Nat) (s : State) : State :=
  let s := startVoid n 3 2 s
  let m := s.mint n
  s.setMint n (wakeAll { m with st := .voided, reason := 3, returned := m.issued, tick := s.T })

/-! ### Taking a fault (03 R68, 17 R298 to R301) -/

def causeCode : Cause → Nat
  | .illegal => 0 | .mislanded => 1 | .format => 2 | .scaleSeq => 3 | .align => 4 | .page => 5 | .access => 6 | .expectRange => 7
  | .poison => 8 | .linkCorrupt => 9 | .gangBroken => 10 | .void => 11 | .watchdog => 12 | .debug => 13

def tagCode : Tag → Nat
  | .raw => 0 | .i8 => 1 | .i16 => 2 | .i32 => 3 | .e4m3 => 4 | .e5m2 => 5 | .fp16 => 6 | .bf16 => 7 | .fp32 => 8 | .f4b => 9

/-- The two touched-set doubles of a snapshot record (17 R300). -/
def touchedWords : Touched → Nat × Nat
  | .slices l => (l.length * 2 ^ 60 + ((l.take 4).zipIdx.map (fun e => e.1 * 2 ^ (12 * e.2))).sum, ((l.drop 4).zipIdx.map (fun e => e.1 * 2 ^ (12 * e.2))).sum)
  | .dies m => (15 * 2 ^ 60 + m.toNat, 0)

/-- A snapshot record (17 R300): 640 bytes. -/
def snapshot (c : Ctx) (pc : BitVec 56) (addr : Word) : List Byte :=
  let t := touchedWords c.touched
  let r := c.range.getD (0, 0)
  let w := fun v => leBytes 8 v
  wordBytes 0 ++ ((c.regs.toList.drop 1).flatMap wordBytes)
    ++ c.vecs.toList.flatMap (fun v => leBytes 32 v.data.toNat)
    ++ c.vecs.toList.flatMap (fun v => wordBytes v.side)
    ++ w pc.toNat ++ w c.grains ++ w c.pts
    ++ w (c.net * 2 ^ 52 + c.cls.toNat * 2 ^ 50 + c.fflags.toNat * 2 ^ 45 + (if c.broken then 2 ^ 44 else 0)
        + (if c.range.isSome then 2 ^ 43 else 0) + (c.vecs.toList.zipIdx.map (fun e => tagCode e.1.tag * 2 ^ (4 * e.2))).sum)
    ++ w t.1 ++ w t.2 ++ wordBytes r.1 ++ wordBytes r.2 ++ c.report.toList.flatMap wordBytes ++ wordBytes addr ++ zeros 72

/-- A net's fault reserve on a quad (17 R298): the memory key of block i. -/
def blockKey (s : State) (n q i : Nat) : Nat :=
  let nr := s.netRec n
  purseKey q (nr.poolOff + nr.poolSize + (if q = nr.launchQuad s then 64 else 0) + 704 * i)

/-- A FAULT node and the 16 zero bytes after it (17 R299): 64 bytes. -/
def faultNode (s : State) (n q : Nat) (f : FaultInfo) (eng : Bool) (place : Nat) (pc : Nat) (snap : Word) : List Byte :=
  let bit := fun b k => if b then 2 ^ k else 0
  leBytes 8 0xFF04000000000018 ++ wordBytes (s.netRec n).handler
    ++ leBytes 8 (causeCode f.cause * 2 ^ 60 + bit f.sw 59 + bit eng 58 + bit f.lnk 57 + bit f.reg 56 + f.info.toNat * 2 ^ 24
        + place * 2 ^ 18 + (s.netRec n).form s q)
    ++ leBytes 8 pc ++ wordBytes snap ++ zeros 24

/-- The lowest free fault block of a net on a quad (17 R298). -/
def freeBlock (s : State) (n q : Nat) : Option Nat := [0, 1, 2, 3].find? (fun i => !(s.netq n q).blocks.contains i)

/-- Whether a recorded fault address is kept (17 R300). -/
def recordsAddr (c : Cause) : Bool := c == .align || c == .page || c == .access || c == .poison

/-- What stands first in line for a fault block: a thread held by a berth of the quad, or an engine fault (17 R298). -/
def firstWaiting (s : State) (n q : Nat) : Option Nat :=
  (s.netq n q).waiting.find? (fun t => 2 ^ 64 ≤ t || s.berths.any (fun e => quadOf e.1 == q && e.2.ctx.tid == t))

/-- The fault redexes of a net's engine commands on a quad that stand first in line for a block (12 R219, 17 R298 R301): no snapshot, and
    the command's whole coin. -/
def serveEng (n q : Nat) : Nat → State → State
  | 0, s => s
  | k + 1, s =>
    let nq := s.netq n q
    match freeBlock s n q, firstWaiting s n q with
    | some i, some w =>
      (match nq.eng.find? (fun e => 2 ^ 64 + e.seq == w) with
       | none => s
       | some e =>
         let key := blockKey s n q i
         let nr := s.netRec n
         let s1 := hwWrite s key (faultNode s n q { cause := e.cause } e.eng 0 (bits e.descAddr.toNat 55 0) 0)
         match pushRec q { a := nr.handler, b := nr.port s 2 q (keyOff key), coin := e.coin, net := n, cls := e.cls, typ := 2, time := e.time } s1 with
         | none => noteDry s
         | some s2 =>
           let nq := s2.netq n q
           serveEng n q k (s2.setNetq n q { nq with blocks := i :: nq.blocks, waiting := nq.waiting.filter (· != w), eng := nq.eng.filter (·.seq != e.seq) }))
    | _, _ => s

/-- The block for the fault redex of a berth parked on a fault (17 R298 R301): the lowest free one, once it is the thread's turn, and not in a net that is
    voiding (14 R254). -/
def redexBlock (b : Nat) (s : State) : Option Nat :=
  let c := s.ctx b
  let first := firstWaiting s c.net (quadOf b)
  if (first.isSome ∧ first ≠ some c.tid) ∨ (s.netRec c.net).st = .voiding then none else freeBlock s c.net (quadOf b)

/-- Makes the fault redex of a berth in block i (17 R301): snapshot, FAULT node, the split coin, the type-2 record. While the spill pool is exhausted the
    berth stays as it is. A refused borrow discards the thread (14 R254). -/
def makeRedex (b i : Nat) (f : FaultInfo) (s : State) : State :=
  let c := s.ctx b
  let q := quadOf b
  let n := c.net
  let s := if c.coin < 2 then mintRequest q n s else s
  let k := blockKey s n q i
  let nr := s.netRec n
  let snap := nr.purseWord s q (keyOff k + 64)
  let s1 := hwWrite s (k + 64) (snapshot c f.pc (if recordsAddr f.cause then f.addr else 0))
  let s1 := hwWrite s1 k (faultNode s1 n q f false (b % 16 * 4 + coreOf b) f.pc.toNat snap)
  match coinSplitAt b s1 with
  | none => discard b s
  | some (coin, s2) =>
    let node := nr.port s 2 q (keyOff k)
    match pushRec q { a := nr.handler, b := node, coin := coin, net := n, cls := c.cls, typ := 2, time := (s2.ctx b).pts } s2 with
    | none => noteDry s
    | some s3 =>
      let nq := s3.netq n q
      let s3 := s3.setNetq n q { nq with blocks := i :: nq.blocks, waiting := nq.waiting.filter (· != c.tid) }
      s3.setCtx b { s3.ctx b with wait := .fault k }

/-- A berth parked on a fault gets its fault redex where a block is free for it, or is voided with a net whose handler has no rule (02 R46). -/
def faultRedexAt (b : Nat) (s : State) : State :=
  match (s.ctx b).wait, redexBlock b s with
  | .faultPending f, some i =>
    let (handled, s) := hasHandler (s.ctx b).net (quadOf b) s
    if handled then makeRedex b i f s else startVoid (s.ctx b).net 2 3 s
  | _, _ => s

/-- The berth of a fault parks with the pc on the instruction, a led gang ends and leaves the broken mark, and a borrow granted joins the coin (17 R302
    R312). -/
def parkFault (b : Nat) (f : FaultInfo) (s : State) : State :=
  let c := s.ctx b
  let led := leadsGang s b
  let vec := (Tbl.get? s.vgangs b).isSome
  let s := endGangs b (unqueue b (meetDeps c.tid s))
  let s := s.setCtx b { (s.ctx b).whole with broken := c.broken || led, brokenVec := c.brokenVec || vec, desc := none }
  s.leave b (.faultPending f)

/-- TAKING A FAULT (03 R68, 17 R301 R302 R312): the berth parks; a VOIDING net's thread is discarded instead; a net with no rule for its handler is
    voided (02 R46); else the fault redex is made, once a block is free. -/
def faultBerth (b : Nat) (f : FaultInfo) (s : State) : State :=
  let c := s.ctx b
  let q := quadOf b
  if (s.netRec c.net).st = .voiding then discard b (meetDeps c.tid s)
  else
    let (handled, s) := hasHandler c.net q (parkFault b f s)
    if handled then
      let nq := s.netq c.net q
      let s := s.setNetq c.net q { nq with waiting := nq.waiting ++ [c.tid] }
      match redexBlock b s with
      | none => s
      | some i => makeRedex b i f s
    else startVoid c.net 2 3 s

/-- The issuing thread faults: the pc of the FAULT node is its own (03 R68). -/
def takeFault (f : FaultInfo) (s : State) : State := faultBerth s.cur { f with pc := s.th.pc } s

/-- What stops an instruction of the issuing thread happens, in the state that its accesses have left: a fault is taken, and a wait leaves the pc on
    the instruction; the bursar journals a stall on an exhausted spill pool (13 R239). -/
def stopWith (e : Stop) (s : State) : State :=
  match e with
  | .fault f _ => takeFault f s
  | .wait w _ => (if w = .spill then noteDry s else s).leave s.cur w

/-- Ends an instruction of the issuing thread. -/
def finish (s : State) (r : Run State) : Host.Outcome State Fault Refusal :=
  match r with
  | .ok t => .next t
  | .error e => .next (stopWith e (e.state s))

/-! ### Ranges (02 R34, 15 R265 to R268) -/

/-- The key of the granule of a RANGE node that holds lo and hi, checked as an access of the issuing thread. -/
def rangeGranule (s : State) (rangeNode : Word) : Run (Nat × State) := access1 s (addrOf rangeNode + 16) 16 16 false needRW

/-- Settles a thread's range when it ends (15 R265): an unfinished range goes back as a type-1 record. -/
def settleRange (s : State) : Run State :=
  match s.th.range with
  | none => .ok s
  | some (body, node) =>
    reading (rangeGranule s node) fun k s => loading k 16 s fun g s =>
      if dbl g 0 < dbl g 8 then do
        let (coin, s) ← coinSplit s
        let s ← pushRun s.quad { a := body, b := node, coin := coin, net := s.th.net, cls := s.th.cls, typ := 1, time := s.th.pts } s
        .ok (s.setTh { s.th with range := none })
      else .ok (s.setTh { s.th with range := none })

/-- The end of the issuing thread as by `done` (15 R269): range, gang, publication, the whole coin returned, the berth freed. -/
def endThread (s : State) : Run State :=
  (settleRange s).map (fun s =>
    let s := publishAt s.cur s
    let c := s.th
    freeBerth s.cur (sendReturn c.net c.grains c.pts s.quad s))

/-- A borrow is granted to a berth's thread: its instruction takes the grains where it comes to its CoinSplit (14 R251). -/
def granted (b : Nat) (s : State) : State :=
  let c := s.ctx b
  s.setCtx b { c with lent := c.lent + 1, wait := (match c.wait with | .borrow => .ready | w => w) }

/-- The same for another berth, by the quad (17 R303), in up to k tries: it borrows at once, and hashes again at once a request answered REHOME (08
    R150). What else keeps the settling of its range waiting keeps the end waiting; a range whose node can no longer be accessed is lost with the
    thread, for which the spec states no end (log entry 73). -/
def endTries (b : Nat) : Nat → State → Run State
  | 0, _ => waitOn .held
  | k + 1, s =>
    match endThread { s with cur := b } with
    | .ok t => .ok { t with cur := s.cur }
    | .error e =>
      let t := { e.state { s with cur := b } with cur := s.cur }
      match e with
      | .wait .borrow _ =>
        let t := mintRequest (quadOf b) (t.ctx b).net t
        (match borrowAt b t with
         | none => .ok (discard b t)
         | some u => endTries b k (granted b u))
      | .wait (.rehomed pa) _ => endTries b k (rehash (clusterOf (quadOf b)) pa t)
      | .wait .. => .error (e.leaving t)
      | .fault .. => .ok (discard b t)

def endThreadAt (b : Nat) (s : State) : Run State := endTries b 3 s

/-! ### Coins that can no longer be read where they stood (14 R258) -/

/-- What a saved thread leaves when it is gone: its writes are published, and what waits for its operands waits no more (12 R215). -/
def leaveSaved (c : Ctx) (s : State) : State := meetDeps c.tid (publishWhere s c.tid (fun _ => true))

/-- A fault redex of cause POISON that carries a recovered coin, or a return of that coin during voiding (14 R258). The coin of a thread that holds
    zero grains cannot stand in a unit of work (14 R251): the quad borrows first, as for a thread's fault (14 R254; log entry 54), and a refused borrow
    leaves nothing. -/
def coinFault (n q coin : Nat) (cls : BitVec 2) (time : Nat) (s : State) : State :=
  let make := fun (coin time : Nat) (s : State) =>
    let nq := s.netq n q
    let f : EngFault := { seq := s.nextCmd, eng := false, cause := .poison, coin := coin, cls := cls, descAddr := 0, time := time }
    serveEng n q 4 (({ s with nextCmd := s.nextCmd + 1 } : State).setNetq n q { nq with waiting := nq.waiting ++ [2 ^ 64 + f.seq], eng := nq.eng ++ [f] })
  if (s.netRec n).st = .voiding then sendReturn n coin time q s
  else
    let (handled, s) := hasHandler n q s
    if handled = false then sendReturn n coin time q (startVoid n 2 3 s)
    else if coin ≠ 0 then make coin time s
    else
      let s := mintRequest q n s
      match mintBorrow? n (max time s.T) s with
      | none => s
      | some (t, s) => make (2 ^ 32) (max time t) s

/-- A coin that no copy preserves: the quad journals the loss, and the bursar closes the mint by force (14 R258). -/
def coinLost (n : Nat) (s : State) : State :=
  let st := stateCode (s.netRec n).st
  forceClose n (journal { kind := 3, net := n, fromSt := st, toSt := st } s)

/-- A unit whose coin can no longer be read where it stood: the coin is recovered, or it is lost and the quad journals the loss (14 R258). -/
def coinGone (n q coin : Nat) (cls : BitVec 2) (time : Nat) (survives : Bool) (s : State) : State :=
  if survives then coinFault n q coin cls time s else coinLost n s

/-- Whether an evicted context's record is poisoned (17 R309). -/
def recordBad (s : State) (c : Ctx) : Bool := poisoned s c.slot 1024

/-- An evicted context whose record is poisoned has left the eviction area, which state t shows: its coin survives unless the granule that holds it is
    poisoned (log entry 31). -/
def recordGone (q : Nat) (c : Ctx) (s t : State) : State :=
  coinGone c.net q c.grains c.cls c.pts (!poisoned s (c.slot + 448) 16) (leaveSaved c t)

/-! ### Returning from a fault (17 R303) -/

/-- The registers that `eret reload` and `rest` take from a snapshot record (17 R303 R318); `none` when a tag is 10 to 15. -/
def tagOfCode : Nat → Option Tag
  | 0 => some .raw | 1 => some .i8 | 2 => some .i16 | 3 => some .i32 | 4 => some .e4m3 | 5 => some .e5m2 | 6 => some .fp16
  | 7 => some .bf16 | 8 => some .fp32 | 9 => some .f4b | _ => none

def recVec (l : List Byte) (i : Nat) : Option VReg :=
  match tagOfCode (bits (dbl l 472) (4 * i + 3) (4 * i)) with
  | none => none
  | some t => some { data := BitVec.ofNat 256 (leNat ((l.drop (128 + 32 * i)).take 32)), tag := t, side := BitVec.ofNat 64 (dbl l (384 + 8 * i)) }

def reloadCtx (c : Ctx) (l : List Byte) : Option Ctx :=
  match recVec l 0, recVec l 1, recVec l 2, recVec l 3, recVec l 4, recVec l 5, recVec l 6, recVec l 7 with
  | some a, some b, some d, some e, some f, some g, some h, some i =>
    some { c with
      regs := Vector.ofFn (fun r => if r = 0 then 0 else BitVec.ofNat 64 (dbl l (8 * r.val)))
      vecs := #v[a, b, d, e, f, g, h, i]
      fflags := BitVec.ofNat 5 (bits (dbl l 472) 49 45)
      report := Vector.ofFn (fun r => BitVec.ofNat 64 (dbl l (512 + 8 * r.val))) }
  | _, _, _, _, _, _, _, _ => none

/-- Where a parked thread that a FAULT node names is: in its berth, resident, or evicted (17 R306). -/
inductive Seat where
  | berth (b : Nat)
  | resident (b : Nat)
  | evicted (core i : Nat)
  deriving DecidableEq, Repr

def parkedOn (c : Ctx) (k : Nat) : Bool := match c.wait with | .fault j => j == k | _ => false

/-- The seat of the thread that a FAULT node names by its berth and block. A context that was evicted takes any free berth of its core (17 R306),
    so each of the core's berths is looked at. -/
def findSeat (s : State) (b k : Nat) : Option Seat :=
  let bs := b :: (List.range 16).map (16 * coreId b + ·)
  match bs.find? (fun x => s.held x && parkedOn (s.ctx x) k) with
  | some x => some (.berth x)
  | none =>
    match bs.find? (fun x => match Tbl.get? s.residents x with | some c => parkedOn c k | none => false) with
    | some x => some (.resident x)
    | none =>
      let l := Tbl.getD s.evicted (coreId b) []
      let i := l.findIdx (parkedOn · k)
      if i < l.length then some (.evicted (coreId b) i) else none

def seatCtx (s : State) : Seat → Ctx
  | .berth b => s.ctx b
  | .resident b => Tbl.getD s.residents b {}
  | .evicted core i => (Tbl.getD s.evicted core []).getD i {}

def setSeat (s : State) (c : Ctx) : Seat → State
  | .berth b => s.setCtx b c
  | .resident b => { s with residents := Tbl.set s.residents b c }
  | .evicted core i => { s with evicted := Tbl.set s.evicted core ((Tbl.getD s.evicted core []).set i c) }

/-- A seat without its saved context. -/
def unseat (s : State) : Seat → State
  | .berth _ => s
  | .resident b => { s with residents := Tbl.del s.residents b }
  | .evicted core i => { s with evicted := Tbl.set s.evicted core ((Tbl.getD s.evicted core []).eraseIdx i) }

/-- Ends a saved context as by `done` (17 R303): it stands in a berth's place while that is done, and the berth's present thread is put back. What
    keeps the end waiting leaves the context in its seat. -/
def endSaved (b : Nat) (x : Seat) (s : State) : Run State :=
  let back := fun (t : State) =>
    let t := { t with mgangs := s.mgangs, vgangs := s.vgangs, assays := s.assays }
    match Tbl.get? s.berths b with
    | some y => t.setBerth b y
    | none => { t with berths := Tbl.del t.berths b }
  let u := (unseat s x).setBerth b { ctx := seatCtx s x }
  match endThreadAt b u with
  | .ok t => .ok (back t)
  | .error e =>
    let t := e.state u
    .error (e.leaving (setSeat { back t with residents := s.residents, evicted := s.evicted } (t.ctx b) x))

/-- The thread of a seat ends as by `done` (17 R303). -/
def dropSeat (s : State) (x : Seat) : Run State :=
  match x with
  | .berth b => endThreadAt b s
  | .resident b => endSaved b x s
  | .evicted core _ => if recordBad s (seatCtx s x) then .ok (recordGone (core / 4) (seatCtx s x) s (unseat s x)) else endSaved (16 * core) x s

/-! ### Vector registers -/

def setVec (v : Vector VReg 8) (d : VIdx) (x : VReg) : Vector VReg 8 := v.set d x
def State.vw (s : State) (d : VIdx) (x : VReg) : State := s.setTh { s.th with vecs := setVec s.th.vecs d x }
def State.flag (s : State) (f : BitVec 5) : State := s.setTh { s.th with fflags := s.th.fflags ||| f }

end Sys2Proof.Machine
end

