-- ==== Sys2Proof/Machine/Operands.lean ====
section
/-!
DEFINITION. Operand forms: effective addresses and immediates (03 R54 R67), fetching (03 R51 R59), the compares' conditions and annulling (03 R61 R62).
-/

namespace Sys2Proof.Machine

/-- EA(a, off) with a sign-extended offset (03 R67, 11 R188). -/
def State.ea {n : Nat} (s : State) (a : Reg) (off : BitVec n) : Word := s.x a + off.signExtend 64

/-- Imm(f, w, 1), an immediate sign-extended to 64 bits (03 R54). -/
def immS {n : Nat} (i : BitVec n) : Word := i.signExtend 64
/-- Imm(f, w, 0), zero-extended (03 R54). -/
def immZ {n : Nat} (i : BitVec n) : Word := i.zeroExtend 64

/-- A branch target: pc + 4 × displacement, modulo 2^56 (15 R260). -/
def branchTo {n : Nat} (pc : BitVec 56) (disp : BitVec n) : BitVec 56 := pc + BitVec.ofNat 56 4 * disp.signExtend 56

/-- The key of a quad's cached copy of an instruction word. -/
def icKey (q pa : Nat) : Nat := q * 2 ^ 52 + pa

/-- Instruction words that a quad's instruction cache of 32 KiB holds (01 R13). -/
def icacheWords : Nat := 8192

/-- Fills a word into a quad's instruction cache. A full one drops the quad's word of the lowest address, where the spec names none (log entry 71). -/
def icFill (s : State) (q pa w : Nat) : State :=
  let mine := s.icache.filter (fun e => e.1 / 2 ^ 52 == q)
  let c := if mine.length < icacheWords then s.icache else Tbl.del s.icache ((mine.headD (0, 0)).1)
  { s with icache := Tbl.set c (icKey q pa) w }

/-- Fetch takes no part in the clearing order (03 R51): of a line with stores that have not settled it finds the old words or the new ones, as the home
    chooses (log entry 3). A store made before the net was bound to the quad has settled. -/
def fetchSettles (pa : Nat) (s : State) : State :=
  if s.stores.any (fun st => st.addr / 256 == pa / 256) then
    let (c, s) := choice s 2
    if c = 0 then s else settleLine s (pa / 256)
  else s

/-- One instruction word as a berth's quad fetches it (03 R51): translated with X, from HBM alone (08 R146) outside the reserved region (16 R293),
    through the instruction cache. A miss is a request of the quad's for the line, and a read of it at its home (08 R150, 09 R176). -/
def fetchWord (s : State) (b : Nat) (va : Nat) : Except (Cause × State) (Nat × State) :=
  let q := quadOf b
  let n := (s.ctx b).net
  match translation s q n va with
  | .error e => .error e
  | .ok (t, s) =>
    let pa := t.pa + va % 2 ^ t.bits
    if permitted t needX = false || isVault pa then .error (.access, s)
    else
      match physThread s (s.netRec n) pa 4 with
      | .error c => .error (c, s)
      | .ok () =>
        match Tbl.get? s.icache (icKey q pa) with
        | some w => .ok (w, s)
        | none =>
          if poisoned s pa 4 then .error (.poison, s)
          else
            let s := fetchSettles pa (parted pa 4 (hwRequest q pa s))
            let w := leNat (memRead s.mem pa 4)
            .ok (w, icFill s q pa w)

/-- Whether the fetch of a word misses in the quad's translation cache (08 R156) or in its instruction cache (03 R51). -/
def fetchMiss (s : State) (b va : Nat) : Bool :=
  let q := quadOf b
  match tlbFind s false q (s.ctx b).net va with
  | none => true
  | some t => (Tbl.get? s.icache (icKey q (t.pa + va % 2 ^ t.bits))).isNone

/-- What an issue fetches (03 R59): an instruction of n words, or a first word that is none; a word that missed and is filled now; or a fetch that
    faults, with the address; each with the state that the fetch has left. -/
inductive Fetched where
  | instr (i : Instr) (words : Nat) (s : State)
  | miss (s : State)
  | fault (c : Cause) (addr : Nat) (s : State)
  deriving DecidableEq, Repr

/-- What two words decode to: an instruction, or the step of a word that is none (03 R59 R60). -/
def decoded (w e : Nat) (s : State) : Fetched :=
  match decode w e with
  | .ok (i, n) => .instr i n s
  | .error .mislanded => .instr .mislanded 1 s
  | .error _ => .instr .illegalInstruction 1 s

/-- One issue's fetch and decoding at the pc of a berth (03 R59 R60). The address of an extension word wraps at 2^56, as every step of the pc does
    (log entry 85). -/
def fetch (s : State) (b : Nat) : Fetched :=
  let p := (s.ctx b).pc.toNat
  let e := (p + 4) % 2 ^ 56
  match fetchWord s b p with
  | .error (c, t) => .fault c p t
  | .ok (w, t) =>
    if fetchMiss s b p then .miss t
    else if field w 28 4 ≠ 15 ∧ field w 25 1 = 1 ∧ takesExt w = true then
      match fetchWord t b e with
      | .error (c, u) => .fault c e u
      | .ok (x, u) => if fetchMiss t b e then .miss u else decoded w x u
    else decoded w 0 t

/-- Cond(c, a, b) (03 R61). -/
def condHolds (c : Cond) (a b : Word) : Bool :=
  match c with
  | .eq => a == b
  | .ne => a != b
  | .lt => a.slt b
  | .ge => !a.slt b
  | .lo => a.ult b
  | .hs => !a.ult b

/-- The pc after annulling k instructions from npc (03 R62): stops at a word whose fetch would fault or that carries the marker. With it, whether a
    word that was looked at missed. A step of npc past 2^56 wraps (log entry 85). -/
def annul (s : State) (b : Nat) : Nat → BitVec 56 → BitVec 56 × Bool × State
  | 0, npc => (npc, false, s)
  | k + 1, npc =>
    match fetchWord s b npc.toNat with
    | .error (_, t) => (npc, false, t)
    | .ok (u, t) =>
      let miss := fetchMiss s b npc.toNat
      if field u 28 4 = 15 then (npc, miss, t)
      else
        let r := annul t b k (npc + BitVec.ofNat 56 (4 + 4 * field u 25 1))
        (r.1, miss || r.2.1, r.2.2)

/-- A compare of n bytes with its condition decided (03 R62): its whole effect is the pc. Where a word that it annuls by misses in the quad's caches,
    the thread is out of rotation until the fill has come (01 R11, 03 R51, log entry 97). -/
def compare (holds : Bool) (skip : BitVec 2) (n : Nat) (s : State) : State :=
  let s := s.pass n
  if holds then
    let r := annul s s.cur skip.toNat s.th.pc
    let s := r.2.2.setTh { r.2.2.th with pc := r.1 }
    if r.2.1 then s.leave s.cur .fetch else s
  else s

end Sys2Proof.Machine
end

