-- ==== Sys2Proof/Machine/Flags.lean ====
section
/-!
DEFINITION. Numbers (04): exact values, Dec and Enc with every flag they raise (R69 to R77), exact sums and products (R74), conversions
(R76 R98) and the special functions (05 R102).
-/

namespace Sys2Proof.Machine

abbrev Flags := BitVec 5
def fNV : Flags := 1
def fDZ : Flags := 2
def fOF : Flags := 4
def fUF : Flags := 8
def fNX : Flags := 16
def flagIf (b : Bool) (f : Flags) : Flags := if b then f else 0

/-- An exact value (04 R74): a NaN, signalling or quiet; an infinity; or a finite value, its magnitude as a fraction and its sign apart, so that zeros keep theirs. -/
inductive Val where
  | nan (sig : Bool)
  | inf (neg : Bool)
  | fin (neg : Bool) (num den : Nat)
  deriving DecidableEq, Repr

/-- A floating-point format (04 R69). -/
structure Fmt where
  width : Nat
  mant : Nat
  bias : Nat
  sign : Bool := true
  hasInf : Bool := true
  hasNan : Bool := true
  sat : Bool := false
  nan : Nat := 0          -- the canonical NaN
  maxPat : Nat            -- the pattern of the largest finite magnitude
  deriving DecidableEq, Repr

def fp32 : Fmt := { width := 32, mant := 23, bias := 127, nan := 0x7FC00000, maxPat := 0x7F7FFFFF }
def fp16 : Fmt := { width := 16, mant := 10, bias := 15, nan := 0x7E00, maxPat := 0x7BFF }
def bf16 : Fmt := { width := 16, mant := 7, bias := 127, nan := 0x7FC0, maxPat := 0x7F7F }
def e4m3 : Fmt := { width := 8, mant := 3, bias := 7, hasInf := false, sat := true, nan := 0x7F, maxPat := 0x7E }
def e5m2 : Fmt := { width := 8, mant := 2, bias := 15, sat := true, nan := 0x7E, maxPat := 0x7B }
def fp4 : Fmt := { width := 4, mant := 1, bias := 1, hasInf := false, hasNan := false, sat := true, maxPat := 7 }
def e3m5 : Fmt := { width := 8, mant := 5, bias := 3, sign := false, hasInf := false, hasNan := false, sat := true, maxPat := 0xFF }

/-- The width of the exponent field. -/
def Fmt.expW (f : Fmt) : Nat := f.width - f.mant - (if f.sign then 1 else 0)

/-- 2^e for an integer e, as a fraction. -/
def pow2 (e : Int) : Nat × Nat := if 0 ≤ e then (2 ^ e.toNat, 1) else (1, 2 ^ (-e).toNat)

/-- Dec(f, b) (04 R70). -/
def dec (f : Fmt) (b : Nat) : Val :=
  let neg := f.sign && b / 2 ^ (f.width - 1) % 2 == 1
  let top := 2 ^ f.expW - 1
  let e := b / 2 ^ f.mant % 2 ^ f.expW
  let m := b % 2 ^ f.mant
  if f.hasInf && e == top then (if m = 0 then .inf neg else .nan (m / 2 ^ (f.mant - 1) == 0))
  else if f.hasNan && !f.hasInf && e == top && m == 2 ^ f.mant - 1 then .nan false
  else
    let n := if e = 0 then m else m + 2 ^ f.mant
    let p := pow2 ((if e = 0 then 1 else (e : Int)) - f.bias - f.mant)
    .fin neg (n * p.1) p.2

/-- floor(log2(n / d)) for positive n and d. -/
def floorLog2 (n d : Nat) : Int :=
  let e : Int := (Nat.log2 n : Int) - Nat.log2 d
  let p := pow2 e
  if n * p.2 < d * p.1 then e - 1 else e

/-- RoundInt(n / d, rm, s) (04 R75), and whether it is exact. -/
def roundInt (n d : Nat) (rm : Rnd) (neg : Bool) : Nat × Bool :=
  let q := n / d
  let r := n % d
  let up := match rm with
    | .rne => 2 * r > d || (2 * r == d && q % 2 == 1)
    | .rz => false
    | .ru => !neg
    | .rd => neg
  if r = 0 then (q, true) else (if up then q + 1 else q, false)

/-- Enc(f, v, rm) (04 R75): the pattern and the flags. An infinity encoded into E5M2 is its infinity, as R75 has it; R69's word "saturate" would
    also bear the largest magnitude (log entry 72). -/
def enc (f : Fmt) (v : Val) (rm : Rnd) : Nat × Flags :=
  let sgn := fun neg => if f.sign && neg then 2 ^ (f.width - 1) else 0
  let infPat := (2 ^ f.expW - 1) * 2 ^ f.mant
  match v with
  | .nan _ => if f.hasNan then (f.nan, 0) else (0, fNV)
  | .inf neg =>
    if !f.sign && neg then (0, fNV)
    else if f.hasInf then (sgn neg + infPat, 0) else (sgn neg + f.maxPat, fOF ||| fNX)
  | .fin neg n d =>
    if !f.sign && neg then (0, if n = 0 then 0 else fNV)
    else if n = 0 then (sgn neg, 0)
    else
      let emin : Int := 1 - (f.bias : Int)
      let l := floorLog2 n d
      let tiny := l < emin
      let e := if tiny then emin else l
      let p := pow2 (f.mant - e)
      let (q, exact) := roundInt (n * p.1) (d * p.2) rm neg
      let fl := flagIf (!exact) fNX ||| flagIf (tiny && !exact) fUF
      let (q, e) := if 2 ^ (f.mant + 1) ≤ q then (q / 2, e + 1) else (q, e)
      let pat := if q < 2 ^ f.mant then q else (e + f.bias).toNat * 2 ^ f.mant + (q - 2 ^ f.mant)
      if f.maxPat < pat then
        let stay := f.sat || rm == .rz || (rm == .ru && neg) || (rm == .rd && !neg)
        (sgn neg + (if stay then f.maxPat else infPat), fl ||| fOF ||| fNX)
      else (sgn neg + pat, fl)

/-! ### Exact arithmetic (04 R74) -/

def Val.isSig : Val → Bool
  | .nan s => s
  | _ => false

def Val.isNan : Val → Bool
  | .nan _ => true
  | _ => false

def Val.neg : Val → Val
  | .nan s => .nan s
  | .inf n => .inf (!n)
  | .fin n a b => .fin (!n) a b

def Val.abs : Val → Val
  | .nan s => .nan s
  | .inf _ => .inf false
  | .fin _ a b => .fin false a b

def Val.isNeg : Val → Bool
  | .nan _ => false
  | .inf n => n
  | .fin n _ _ => n

/-- The sum of two signed fractions, over the larger denominator where one divides the other: numerator and denominator. -/
def addFrac (a : Int) (b : Nat) (c : Int) (d : Nat) : Int × Nat :=
  if b = d then (a + c, b)
  else if b % d = 0 then (a + c * (b / d : Nat), b)
  else if d % b = 0 then (a * (d / b : Nat) + c, d)
  else (a * d + c * b, b * d)

def signedNum (neg : Bool) (n : Nat) : Int := if neg then -(n : Int) else n

/-- A product (R74): 0 × ∞ is invalid; the sign is the exclusive OR. -/
def mulVal : Val → Val → Val × Flags
  | .nan s, y => (.nan false, flagIf (s || y.isSig) fNV)
  | x, .nan s => (.nan false, flagIf (x.isSig || s) fNV)
  | .inf a, .inf b => (.inf (a != b), 0)
  | .inf a, .fin b n _ => if n = 0 then (.nan false, fNV) else (.inf (a != b), 0)
  | .fin a n _, .inf b => if n = 0 then (.nan false, fNV) else (.inf (a != b), 0)
  | .fin a n d, .fin b m e => (.fin (a != b) (n * m) (d * e), 0)

/-- What a sum of exact terms has gathered (R74). -/
structure Acc where
  num : Int := 0
  den : Nat := 1
  nan : Bool := false
  sig : Bool := false         -- a signalling NaN, or ∞ − ∞ before any NaN
  pinf : Bool := false
  ninf : Bool := false
  allPos : Bool := true       -- every term so far is +0
  allNeg : Bool := true       -- every term so far is −0
  deriving DecidableEq, Repr

def Acc.add (a : Acc) : Val → Acc
  | .nan s => { a with nan := true, sig := a.sig || s, allPos := false, allNeg := false }
  | .inf n =>
    let clash := !a.nan && (if n then a.pinf else a.ninf)
    { a with pinf := a.pinf || !n, ninf := a.ninf || n, nan := a.nan || clash, sig := a.sig || clash, allPos := false, allNeg := false }
  | .fin n p q =>
    let r := addFrac a.num a.den (signedNum n p) q
    { a with num := r.1, den := r.2, allPos := a.allPos && p == 0 && !n, allNeg := a.allNeg && p == 0 && n }

/-- The sum (R74): ∞ − ∞ is invalid, where it comes before any NaN; an exact zero is +0, −0 under RD, and keeps its sign where every term is a zero of that sign. -/
def Acc.value (a : Acc) (rm : Rnd) : Val × Flags :=
  if a.nan then (.nan false, flagIf a.sig fNV)
  else if a.pinf then (.inf false, 0)
  else if a.ninf then (.inf true, 0)
  else if a.num = 0 then (.fin (if a.allNeg then true else if a.allPos then false else rm == .rd) 0 1, 0)
  else (.fin (a.num < 0) a.num.natAbs a.den, 0)

def sumVal (l : List Val) (rm : Rnd) : Val × Flags := (l.foldl Acc.add {}).value rm

/-- The exact sum of a block's products, which starts at +0 (06 R115; log entry 24), and the flags of both (R74). -/
def blockSum (l : List (Val × Val)) (rm : Rnd) : Val × Flags :=
  let ps := l.map (fun p => mulVal p.1 p.2)
  let s := sumVal (.fin false 0 1 :: ps.map (·.1)) rm
  (s.1, ps.foldl (fun f p => f ||| p.2) s.2)

/-- Order by value: −0 equals +0; none with a NaN. -/
def cmpVal : Val → Val → Option Ordering
  | .nan _, _ => none
  | _, .nan _ => none
  | .inf a, .inf b => some (if a = b then .eq else if a then .lt else .gt)
  | .inf a, .fin .. => some (if a then .lt else .gt)
  | .fin .., .inf b => some (if b then .gt else .lt)
  | .fin a n d, .fin b m e => some (Ord.compare (signedNum a n * e) (signedNum b m * d))

/-- Minimum and maximum (R74): −0 below +0; a NaN gives the other operand, two the canonical NaN. -/
def minmaxVal (mx : Bool) (a b : Val) : Val × Flags :=
  let fl := flagIf (a.isSig || b.isSig) fNV
  match a, b with
  | .nan _, .nan _ => (.nan false, fl)
  | .nan _, b => (b, fl)
  | a, .nan _ => (a, fl)
  | a, b =>
    let aLess := match cmpVal a b with
      | some .lt => true
      | some .gt => false
      | _ => a.isNeg && !b.isNeg
    (if mx == aLess then b else a, fl)

/-- To an integer of width w (R76): a NaN gives 0, what lies outside gives the nearest end, both with NV. -/
def toInt (v : Val) (w : Nat) (uns : Bool) (rm : Rnd) : Int × Flags :=
  let lo : Int := if uns then 0 else -(2 ^ (w - 1) : Int)
  let hi : Int := if uns then 2 ^ w - 1 else 2 ^ (w - 1) - 1
  match v with
  | .nan _ => (0, fNV)
  | .inf n => (if n then lo else hi, fNV)
  | .fin neg n d =>
    let (q, exact) := roundInt n d rm neg
    let i := signedNum neg q
    if i < lo then (lo, fNV) else if hi < i then (hi, fNV) else (i, flagIf (!exact) fNX)

def ofInt (i : Int) : Val := .fin (i < 0) i.natAbs 1

/-! ### Special functions (05 R102)

A transcendental value is found as an integer Q with Q / 2^K below it by less than 2^−K, K far finer than the result's rounding
boundaries; the fraction (2Q + 1) / 2^(K + 1) then rounds as the value does, in every mode (log entry 21). -/

/-- floor(√n), bit by bit. -/
def isqrt (n : Nat) : Nat → Nat → Nat
  | 0, r => r
  | k + 1, r => isqrt n k (if (r + 2 ^ k) * (r + 2 ^ k) ≤ n then r + 2 ^ k else r)

def sticky (neg : Bool) (q k : Nat) : Val := .fin neg (2 * q + 1) (2 ^ (k + 1))

/-- 1 / √(n / d). -/
def rsqrtFin (n d : Nat) : Val :=
  let k := 128
  let q := isqrt (2 ^ (2 * k) * d / n) (k + 80) 0
  if q * q * n = 2 ^ (2 * k) * d then .fin false q (2 ^ k) else sticky false q k

/-- ln 2 in units of 2^−p. -/
def ln2At (p : Nat) : Nat := ((List.range p).map (fun i => 2 ^ p / ((i + 1) * 2 ^ (i + 1)))).sum

/-- e^t for t below 1 in units of 2^−p, by the series. -/
def expSeries (p t : Nat) : Nat → Nat → Nat → Nat → Nat
  | 0, _, _, acc => acc
  | k + 1, i, term, acc => expSeries p t k (i + 1) (term * t / ((i + 1) * 2 ^ p)) (acc + term)

def expAt (p t : Nat) : Nat := expSeries p t 100 0 (2 ^ p) 0

/-- 2^x for a finite x (−1)^neg · n / d. -/
def exp2Fin (neg : Bool) (n d : Nat) : Val :=
  let x := signedNum neg n
  let i := x / (d : Int)              -- floor
  let f := x % (d : Int)
  if f = 0 ∧ -2000 ≤ i ∧ i ≤ 2000 then .fin false (pow2 i).1 (pow2 i).2
  else if 2000 < i then .fin false (2 ^ 2000) 1
  else if i < -2000 then .fin false 1 (2 ^ 2000)
  else
    let p := 400
    let q := expAt p (ln2At p * f.natAbs / d) / 2 ^ (p - 128)
    let s := pow2 i
    .fin false ((2 * q + 1) * s.1) (2 ^ 129 * s.2)

/-- The bits of log2 of m, 1 ≤ m < 2 in units of 2^−p, by repeated squaring. -/
def log2Bits (p : Nat) : Nat → Nat → Nat → Nat
  | 0, _, acc => acc
  | k + 1, m, acc =>
    let m := m * m / 2 ^ p
    if 2 ^ (p + 1) ≤ m then log2Bits p k (m / 2) (2 * acc + 1) else log2Bits p k m (2 * acc)

/-- log2(n / d) for positive n and d. -/
def log2Fin (n d : Nat) : Val :=
  let e := floorLog2 n d
  let q := pow2 e
  if n * q.2 = d * q.1 then ofInt e
  else
    let p := 400
    let m := n * q.2 * 2 ^ p / (d * q.1)
    let t := e * 2 ^ 96 + (log2Bits p 96 m 0 : Int)
    .fin (t < 0) (2 * t + 1).natAbs (2 ^ 97)

/-- tanh of a positive n / d. -/
def tanhFin (n d : Nat) : Nat × Nat :=
  if 20 * d ≤ n then (2 ^ 100 - 1, 2 ^ 100)
  else if n * 2 ^ 60 < d then (n * (2 ^ 100 - 1), d * 2 ^ 100)
  else
    let p := 512
    let e := expAt p (n * 2 ^ p / (32 * d))
    let sq := fun x => x * x / 2 ^ p
    let e := sq (sq (sq (sq (sq (sq e)))))
    let q := (e - 2 ^ p) * 2 ^ 160 / (e + 2 ^ p)
    (2 * q + 1, 2 ^ 161)

inductive Special where
  | rcp | rsq | exp2 | log2 | tanh
  deriving DecidableEq, Repr

/-- f(x) and the flags that its special inputs raise (05 R102). -/
def special (f : Special) (v : Val) : Val × Flags :=
  match f, v with
  | _, .nan s => (.nan false, flagIf s fNV)
  | .rcp, .inf neg => (.fin neg 0 1, 0)
  | .rcp, .fin neg n d => if n = 0 then (.inf neg, fDZ) else (.fin neg d n, 0)
  | .rsq, .inf neg => if neg then (.nan false, fNV) else (.fin false 0 1, 0)
  | .rsq, .fin neg n d => if n = 0 then (.inf neg, fDZ) else if neg then (.nan false, fNV) else (rsqrtFin n d, 0)
  | .exp2, .inf neg => (if neg then .fin false 0 1 else .inf false, 0)
  | .exp2, .fin neg n d => (exp2Fin neg n d, 0)
  | .log2, .inf neg => if neg then (.nan false, fNV) else (.inf false, 0)
  | .log2, .fin neg n d => if n = 0 then (.inf true, fDZ) else if neg then (.nan false, fNV) else (log2Fin n d, 0)
  | .tanh, .inf neg => (.fin neg 1 1, 0)
  | .tanh, .fin neg n d => if n = 0 then (.fin neg 0 1, 0) else (.fin neg (tanhFin n d).1 (tanhFin n d).2, 0)

/-! ### F4B blocks (04 R71 R72, 05 R98) -/

/-- The value of an FP4 element under a block scale. -/
def fp4Val (elem scale : Nat) : Val := (mulVal (dec fp4 elem) (dec e3m5 scale)).1

def maxAbs (l : List Val) : Val :=
  l.foldl (fun m v => match cmpVal v.abs m with | some .gt => v.abs | _ => m) (.fin false 0 1)

/-- v / S for a positive finite S. -/
def divVal (v : Val) (s : Val) : Val :=
  match v, s with
  | .fin neg n d, .fin _ a b => .fin neg (n * b) (d * a)
  | v, _ => v

/-- Eight values as one F4B block (05 R98): the word, the scale and the element flags. -/
def f4bBlock (l : List Val) (rm : Rnd) : Nat × Nat × Flags :=
  let amax := maxAbs (l.filter (fun v => !v.isNan))
  let sc := (enc e3m5 (match amax with | .fin _ n d => .fin false n (6 * d) | v => v) .ru).1
  let es := l.map (fun v => enc fp4 (if sc = 0 then v else divVal v (dec e3m5 sc)) rm)
  ((es.zipIdx.map (fun e => e.1.1 * 2 ^ (4 * e.2))).sum, sc, es.foldl (fun f e => f ||| e.2) 0)

end Sys2Proof.Machine
end

