-- ==== Sys2Proof/Machine/Issue.lean ====
section
/-!
DEFINITION. Time, the issue choice (13 R246 R247), and what an issue meets before its instruction (14 R257, 17 R309).
-/

namespace Sys2Proof.Machine

/-! ### Clocks and counters -/

/-- The operating point of a die (18 R329 R330): 3 under a thermal throttle, else as lowered under the cap, else the owner's. -/
def pointOf (s : State) (die : Nat) : Nat :=
  if s.throttled.contains die then 3 else max (Tbl.getD s.points die 0) (Tbl.getD s.capped die 0)

/-- Eighths of a cycle that a point loses against 800 MHz in 1.25 ns (18 R329). -/
def lostAt : Nat → Nat
  | 0 => 0
  | 1 => 1
  | 2 => 2
  | _ => 4

/-- The cycles of a die's cores since the last reset (03 R50). -/
def cycleOf (s : State) (die : Nat) : Nat := (8 * s.clock - Tbl.getD s.dieLost die 0) / 8

/-- Whether a net is halted on some quad (17 R308). -/
def haltedAnywhere (s : State) (n : Nat) : Bool := s.netqs.any (fun e => e.1 / 2 ^ 18 == n && e.2.halted)

/-- The waits a watchdog watches (17 R308): of a `link`, those for cells and for a slot found at HOLD. -/
def watchedWait : Wait → Bool
  | .parked _ | .refused _ | .mark .. | .counter .. | .bar .. | .red .. | .flit _ | .cells _ => true
  | .link p => p.onHold
  | _ => false

/-! The limits of 16 R289 take effect at the moment they are met: time does not pass one, and the next step is the limit's own. -/

/-- One second of wall time, in nanoseconds. -/
def second : Nat := 1000000000

/-- The wall times at which a pending handover, and the ownership, run out. -/
def handoverEnd (s : State) : Option Nat := if s.owner.st = .handover then some (s.owner.handoverAt + second) else none
def ownerEnd (s : State) : Option Nat := if s.owner.st = .vacant then none else some (s.owner.lastPacket + second)

def reached (s : State) (t : Option Nat) : Bool := match t with | some t => t ≤ s.wall | none => false

/-- The step of a limit that has been met. -/
def dueLimit (s : State) : Option Instr :=
  if s.power = .off then none else if reached s (handoverEnd s) then some .handoverTimeout else if reached s (ownerEnd s) then some .ownerTimeout else none

/-- At most n units, and no further than the next limit. -/
def upTo (s : State) (n : Nat) : Option Nat → Nat
  | some t => min n ((4 * (t - s.wall) + 4) / 5)
  | none => n

/-- Time passes: n units of 1.25 ns on every die's clock, and on the watchdogs of the threads that wait (17 R308), up to the next limit of R289. -/
def tick (n : Nat) (s : State) : State :=
  let n := upTo s (upTo s n (handoverEnd s)) (ownerEnd s)
  let dies := ((s.points.map (·.1)) ++ (s.capped.map (·.1)) ++ s.throttled).dedup
  { s with
    clock := s.clock + n
    dieLost := dies.foldl (fun t d => Tbl.set t d (Tbl.getD t d 0 + n * lostAt (pointOf s d))) s.dieLost
    perf := s.throttled.foldl (fun t d => Tbl.set t (16 * d + 14) (Tbl.getD t (16 * d + 14) 0 + n)) s.perf
    berths := s.berths.map (fun e => (e.1,
      if watchedWait e.2.ctx.wait && (s.netRec e.2.ctx.net).st == .bound && !haltedAnywhere s e.2.ctx.net
      then { e.2 with ctx := { e.2.ctx with waited := e.2.ctx.waited + n * (8 - lostAt (pointOf s (dieOf (quadOf e.1)))) } } else e.2)) }

/-! ### The effective class (13 R246) -/

/-- The rectangle word's corner and extent in core coordinates of the net (15 R273). -/
def rectX (w : Word) : Nat := bits w.toNat 9 0
def rectY (w : Word) : Nat := bits w.toNat 19 10
def rectW (w : Word) : Nat := bits w.toNat 29 20 + 1
def rectH (w : Word) : Nat := bits w.toNat 39 30 + 1
def rectK (w : Word) : Nat := bits w.toNat 42 40
def inRect (w : Word) (x y : Nat) : Bool := rectX w ≤ x && x < rectX w + rectW w && rectY w ≤ y && y < rectY w + rectH w

/-- A core's place in a net's core grid (15 R273). -/
def NetRec.corePlace (nr : NetRec) (s : State) (core : Nat) : Nat × Nat :=
  let p := nr.place s (core / 4)
  (2 * p.1 + core % 2, 2 * p.2 + core % 4 / 2)

def barKey (core net k : Nat) : Nat := (4096 * core + net) * 8 + k
def State.bar (s : State) (core net k : Nat) : BarCtx := Tbl.getD s.bars (barKey core net k) {}

/-- The identifier and generation a thread waits for. -/
def waitsBar : Wait → Option Nat
  | .bar k _ => some k
  | .red k _ _ => some k
  | _ => none

/-- The classes that barrier waiters lend (13 R246), one round of inheritance after another. -/
structure Lender where
  core : Nat
  ctx : Ctx
  cls : Nat            -- its effective class, as far as the rounds have brought it

/-- The threads that wait at a barrier, in berths and saved: the inheritance ends only with the release. -/
def lenders (s : State) : List Lender :=
  let at' := fun (core : Nat) (c : Ctx) => if (waitsBar c.wait).isSome then [({ core := core, ctx := c, cls := c.cls.toNat } : Lender)] else []
  s.berths.flatMap (fun e => at' (coreId e.1) e.2.ctx) ++ s.residents.flatMap (fun e => at' (coreId e.1) e.2)
    ++ s.evicted.flatMap (fun e => e.2.flatMap (at' e.1))

def lend (s : State) (core : Nat) (c : Ctx) (ls : List Lender) : Nat :=
  ls.foldl (fun m l =>
    match waitsBar l.ctx.wait with
    | some k =>
      let rect := (s.bar l.core l.ctx.net k).rect
      let p := (s.netRec c.net).corePlace s core
      if l.ctx.net == c.net && inRect rect p.1 p.2 && !(s.bar core c.net k).arrived then max m l.cls else m
    | none => m) c.cls.toNat

def lenderRounds (s : State) : Nat → List Lender → List Lender
  | 0, l => l
  | k + 1, l => lenderRounds s k (l.map (fun e => { e with cls := lend s e.core e.ctx l }))

/-- The effective class of a berth (13 R246). -/
def effClass (s : State) (b : Nat) : Nat :=
  match lenders s with
  | [] => (s.ctx b).cls.toNat
  | ls => lend s (coreId b) (s.ctx b) (lenderRounds s ls.length ls)

/-! ### The choice (13 R247) -/

/-- A berth is ready: it holds a thread in rotation, whose net is not halted on the quad (13 R247, 17 R307). -/
def isReady (s : State) (b : Nat) : Bool :=
  s.held b && (s.ctx b).wait == .ready && !(s.netq (s.ctx b).net (quadOf b)).halted

/-- Which of the ready berths of a phase is served (13 R247, 15 R280). Where both are of one class and none of the phase has issued before, R247 names
    no berth, and the model takes the lower one (log entry 74). -/
def chosen (s : State) (lo hi : Nat) : Option Nat :=
  let rl := isReady s lo
  let rh := isReady s hi
  if !rl && !rh then none
  else if !rh then some lo
  else if !rl then some hi
  else
    let bl := s.berth lo
    let bh := s.berth hi
    if bl.gave && !bh.gave then some hi
    else if bh.gave && !bl.gave then some lo
    else if 16 ≤ bl.p then some lo
    else if 16 ≤ bh.p then some hi
    else if effClass s lo < effClass s hi then some hi
    else if effClass s hi < effClass s lo then some lo
    else if Tbl.get? s.lastIssue (8 * coreId lo + lo % 8) = some lo then some hi else some lo

/-- The other berth of a phase loses the turn: its P rises, unless it gave the turn away (13 R247, 15 R280). -/
def loseTurn (s : State) (b : Nat) (lone : Bool) : State :=
  if isReady s b then
    let x := s.berth b
    s.setBerth b { x with p := if x.gave && lone then x.p else x.p + 1, gave := false }
  else s

/-- A core's slot in the present cycle: which berth issues, and the state with the counters of the choice (13 R247). With `hold` the
    governor holds the chosen instruction, where its G allows (01 R12). A core has one slot a cycle (01 R9). -/
def slotOf (s : State) (core : Nat) (hold : Bool) : Option Nat × State :=
  let cyc := cycleOf s (dieOf (core / 4))
  if Tbl.getD s.served core 0 = cyc + 1 then (none, s)
  else
    let lo := 16 * core + cyc % 8
    let hi := lo + 8
    match chosen s lo hi with
    | none => (none, { s with served := Tbl.set s.served core (cyc + 1) })
    | some b =>
      let other := if b = lo then hi else lo
      let x := s.berth b
      let lone := !x.gave
      if hold && 7 ≤ x.g then (none, s)
      else
        let s := { s with served := Tbl.set s.served core (cyc + 1) }
        let s := loseTurn s other lone
        if hold then
          let s := count (dieOf (core / 4)) 1 1 { s with bubbles := Tbl.set s.bubbles core ((Tbl.getD s.bubbles core 0 + 1) % 2 ^ 64) }
          (none, s.setBerth b { x with g := x.g + 1, gave := false })
        else
          let s := s.setBerth b { x with p := 0, g := 0, gave := false }
          let s := { s with lastIssue := Tbl.set s.lastIssue (8 * core + cyc % 8) b, cur := b }
          (some b, s)

/-- Whether the issuing thread takes a VOID trap in place of its instruction (14 R256 R257). -/
def takesVoid (s : State) : Bool := (s.net).st == .voiding && !s.th.woken

/-- The thread with a register zero that an error has struck (17 R309): its own, or one of a gang member's berth, which goes with the gang. -/
def zeroReg (c : Ctx) (r : Nat) : Ctx :=
  if r < 16 then { c with regs := c.regs.setIfInBounds r 0 }
  else if r < 32 then { c with vecs := c.vecs.setIfInBounds (r - 16) {} }
  else c

/-- The thread as it reports the first of its register errors: every register that an error has struck is zero, and the others are reported at its
    next issues (log entry 109). -/
def reportReg (c : Ctx) : Ctx := { c.regErr.foldl zeroReg c with regErr := c.regErr.drop 1 }

/-- What an issue runs: an instruction with the state it runs in, which is counted (18 R331), or a state reached without one: a VOID trap, a register
    error, a fetch that faults, or one that misses and keeps the thread out of rotation until its word has come (03 R51, 08 R156). -/
inductive Issue where
  | run (i : Instr) (s : State)
  | instead (s : State)
  deriving DecidableEq, Repr

def issue (s : State) : Issue :=
  if takesVoid s then .instead (discard s.cur s)
  else
    match s.th.regErr with
    | r :: _ => .instead (takeFault { cause := .poison, reg := true, info := BitVec.ofNat 32 (r % 32) } (s.setTh (reportReg s.th)))
    | [] =>
      match fetch s s.cur with
      | .fault c a s => .instead (takeFault { cause := c, addr := if c = .poison then 0 else BitVec.ofNat 64 a } s)
      | .miss s => .instead (s.leave s.cur .fetch)
      | .instr i _ s => .run i (count (dieOf s.quad) 0 1 s)

/-! ### A step -/

/-- The rows of the table that no word encodes: steps of the module's other agents. -/
def isEvent (i : Instr) : Bool := (encode i).isNone && !(i == .illegalInstruction) && !(i == .mislanded)

/-- Two returns to one mint that are in flight meet in a switch of the bank net and travel on as one, with their exact sum (01 R17, 14 R250): the die
    of the mint's home counts a combine (18 R331). -/
def combineReturns (i j : Nat) (s : State) : State :=
  match s.msgs[i]?, s.msgs[j]? with
  | some x, some y =>
    (match x.body, y.body with
     | .ret n a t, .ret m b u =>
       if i < j ∧ n = m then
         count (homeOf s (mintPa s n) / 256) 7 1
           { s with msgs := (s.msgs.set i { x with body := .ret n (a + b) (max t u) }).eraseIdx j }
       else s
     | _, _ => s)
  | _, _ => s

/-- A non-posted request of a host that would change state (16 R290): from a port that is not the owner's it completes with Completer Abort. The spec
    gives the owner no such request but the accesses of R321, and the model no effect of one (log entry 75). -/
def nonPosted (port addr : Nat) (s : State) : State :=
  if s.owner.st != .vacant && s.owner.port == port then s
  else { s with replies := s.replies ++ [({ src := .host port, addr := addr, status := 0, tagg := 0, net := 0, seq := 0, vector := none, abort := true } : Reply)] }

/-- What a step does: runs an instruction in a state, or reaches a state without one. -/
def slotIssue (s : State) (core : Nat) : Issue :=
  match slotOf s core false with
  | (some _, s) => issue s
  | (none, s) => .instead s

/-- The bursar takes a packet whose code R325 does not assign: refused BADREC (18 R325); here only the packet leaves, its answer is written by `refuseHead`. -/
def takeMove (m : Move) (refuse : Nat → State → State) (s : State) : Issue :=
  match m with
  | .slot core => slotIssue s core
  | .event i => if isEvent i then .run i s else .instead s
  | .tick n => .instead (tick n s)
  | .loseCopy g h l => .instead { s with copies := s.copies.filter (fun c => !(c.guest == g && c.holder == h && c.line == l)) }
  | .loseFetch q => .instead { s with icache := s.icache.filter (fun e => e.1 / 2 ^ 52 != q) }
  | .loseTlb c h => .instead { s with tlb := s.tlb.filter (fun t => !(t.cluster == c && t.holder == h)) }
  | .linkBudget k => .instead { s with linkBudget := k }
  | .refuseHead q => .instead (refuse q s)
  | .combine i j => .instead (combineReturns i j s)
  | .hbmTraffic d r w => .instead (count d 10 r (count d 11 w s))
  | .nonPosted p a => .instead (nonPosted p a s)

/-- What comes next (log entry 2): a limit of 16 R289 that has been met; else the agenda's head; with an empty agenda one cycle passes and core
    `turn` has its slot. -/
def nextIssue (refuse : Nat → State → State) (s : State) : Issue :=
  match dueLimit s with
  | some i => .run i s
  | none =>
    match s.agenda with
    | m :: r => takeMove m refuse { s with agenda := r }
    | [] => slotIssue (tick 1 s) s.turn

end Sys2Proof.Machine
end

