-- ==== Sys2Proof/Machine/Vector.lean ====
section
/-!
DEFINITION. Vector instructions (05 R89 to R104), but for the memory forms. Each is a function of one member's vector registers, which the
leader of a vector gang runs in every member.
-/

namespace Sys2Proof.Machine

/-- What a vector instruction makes of one member's registers; `none` for a tag that faults FORMAT (04 R80). -/
abbrev VRun := Option (Vector VReg 8 × Flags)

/-! ### Elements (04 R78) -/

def tagWidth : Tag → Nat
  | .raw => 32
  | .i8 | .e4m3 | .e5m2 => 8
  | .i16 | .fp16 | .bf16 => 16
  | .i32 | .fp32 => 32
  | .f4b => 4

def tagFmt : Tag → Option Fmt
  | .e4m3 => some e4m3
  | .e5m2 => some e5m2
  | .fp16 => some fp16
  | .bf16 => some bf16
  | .fp32 => some fp32
  | _ => none

def isIntTag (t : Tag) : Bool := t == .i8 || t == .i16 || t == .i32
/-- Classes A and F (05 R89). -/
def classA (t : Tag) : Bool := isIntTag t || t == .fp16 || t == .bf16 || t == .fp32
def classF (t : Tag) : Bool := t == .fp16 || t == .bf16 || t == .fp32

/-- The elements of width w of 256 bits, and back. -/
def elems (w : Nat) (d : VData) : List Nat := (List.range (256 / w)).map (fun j => d.toNat / 2 ^ (w * j) % 2 ^ w)
def packElems (w : Nat) (l : List Nat) : VData := BitVec.ofNat 256 (l.foldr (fun e acc => e % 2 ^ w + 2 ^ w * acc) 0)
def readInt (z : Bool) (w v : Nat) : Int := if z then v else if v < 2 ^ (w - 1) then v else (v : Int) - 2 ^ w
def wrapInt (w : Nat) (i : Int) : Nat := (i % 2 ^ w).toNat

/-- Encoded results as one register's data and their flags together. -/
def packEnc (w : Nat) (l : List (Nat × Flags)) : VData × Flags := (packElems w (l.map (·.1)), l.foldl (fun f e => f ||| e.2) 0)

/-- A result with its flags through Enc. -/
def encWith (f : Fmt) (v : Val × Flags) (rm : Rnd) : Nat × Flags :=
  let e := enc f v.1 rm
  (e.1, v.2 ||| e.2)

def putVec (v : Vector VReg 8) (d : VIdx) (data : VData) (t : Tag) (side : Word) : Vector VReg 8 := v.set d { data := data, tag := t, side := side }

/-- The columns of several element lists. -/
def columns : List (List Nat) → List (List Nat)
  | [] => []
  | [l] => l.map (fun x => [x])
  | l :: r => List.zipWith (fun x xs => x :: xs) l (columns r)

/-- An element-wise form (05 R90): sources of one tag of a class; integers wrap, values go through Enc. Z with a floating-point tag faults FORMAT. -/
def elementwise (ok : Tag → Bool) (srcs : List VIdx) (d : VIdx) (rm : Rnd) (z : Bool) (fi : List Int → Int) (fv : List Val → Val × Flags)
    (v : Vector VReg 8) : VRun :=
  let t := (v[srcs.headD 0]).tag
  if !ok t || srcs.any (fun i => v[i].tag != t) then none
  else
    let w := tagWidth t
    let cols := columns (srcs.map (fun i => elems w v[i].data))
    match tagFmt t with
    | some f =>
      if z then none
      else
        let r := packEnc w (cols.map (fun c => encWith f (fv (c.map (dec f))) rm))
        some (putVec v d r.1 t 0, r.2)
    | none => some (putVec v d (packElems w (cols.map (fun c => wrapInt w (fi (c.map (readInt z w)))))) t 0, 0)

def sigFlag (v : Val) : Flags := flagIf v.isSig fNV

/-! ### Issuing a vector instruction, in a vector gang in every member (05 R104, 06 R108 R109) -/

/-- Runs in every member; `none` if any member's tags fail. -/
def runMembers (f : Vector VReg 8 → VRun) : List (Nat × Nat × Vector VReg 8) → Option (List (Nat × Nat × Vector VReg 8) × Flags)
  | [] => some ([], 0)
  | (m, b, v) :: r =>
    match f v, runMembers f r with
    | some (v, fl), some (r, fr) => some ((m, b, v) :: r, fl ||| fr)
    | _, _ => none

/-- A thread whose vector gang its own fault or pre-emption ended faults GANG_BROKEN (06 R109), before its instruction's tags or address are looked at,
    where no rule orders the two (log entry 23). -/
def notBrokenVec (s : State) : Run Unit := need (!(s.th.broken && s.th.brokenVec)) .gangBroken

/-- Sets the vector registers of the issuing thread and of its gang's members. -/
def State.setVecs (s : State) (v : Vector VReg 8) (ms : List (Nat × Nat × Vector VReg 8)) : State :=
  let s := s.setTh { s.th with vecs := v }
  match Tbl.get? s.vgangs s.cur with
  | none => s
  | some g => { s with vgangs := Tbl.set s.vgangs s.cur { g with members := ms } }

def gangMembers (s : State) : List (Nat × Nat × Vector VReg 8) :=
  match Tbl.get? s.vgangs s.cur with
  | none => []
  | some g => g.members

/-- A vector instruction: every tag is checked before any write, and the flags of all members are the leader's (04 R77). -/
def vecRun (f : Vector VReg 8 → VRun) (s : State) : Run State :=
  match notBrokenVec s with
  | .error e => .error e
  | .ok () =>
    match f s.th.vecs, runMembers f (gangMembers s) with
    | some (v, fl), some (ms, fm) => .ok (((s.setVecs v ms).flag (fl ||| fm)).pass 4)
    | _, _ => fail .format

def vecOp (f : Vector VReg 8 → VRun) (s : State) : Result := finish s (vecRun f s)

/-! ### Arithmetic (05 R90) -/

def two (f : Val → Val → Val × Flags) (l : List Val) : Val × Flags := f (l.getD 0 (.nan false)) (l.getD 1 (.nan false))
def intTwo (f : Int → Int → Int) (l : List Int) : Int := f (l.getD 0 0) (l.getD 1 0)

/-- a · b + c, rounded once (05 R90). -/
def fmaVal (rm : Rnd) (neg : Bool) (l : List Val) : Val × Flags :=
  let p := mulVal (l.getD 0 (.nan false)) (l.getD 1 (.nan false))
  let c := l.getD 2 (.nan false)
  let r := sumVal [p.1, if neg then c.neg else c] rm
  (r.1, p.2 ||| r.2)

def execVadd (d a b : VIdx) (r : Rnd) (s : State) : Result :=
  vecOp (elementwise classA [a, b] d r false (intTwo (· + ·)) (two (fun x y => sumVal [x, y] r))) s
def execVsub (d a b : VIdx) (r : Rnd) (s : State) : Result :=
  vecOp (elementwise classA [a, b] d r false (intTwo (· - ·)) (two (fun x y => sumVal [x, y.neg] r))) s
def execVmul (d a b : VIdx) (r : Rnd) (s : State) : Result :=
  vecOp (elementwise classA [a, b] d r false (intTwo (· * ·)) (two mulVal)) s
def execVfma (d a b c : VIdx) (r : Rnd) (s : State) : Result :=
  vecOp (elementwise classA [a, b, c] d r false (fun l => l.getD 0 0 * l.getD 1 0 + l.getD 2 0) (fmaVal r false)) s
def execVfms (d a b c : VIdx) (r : Rnd) (s : State) : Result :=
  vecOp (elementwise classA [a, b, c] d r false (fun l => l.getD 0 0 * l.getD 1 0 - l.getD 2 0) (fmaVal r true)) s
def execVmin (d a b : VIdx) (r : Rnd) (z : Bool) (s : State) : Result :=
  vecOp (elementwise classA [a, b] d r z (intTwo min) (two (minmaxVal false))) s
def execVmax (d a b : VIdx) (r : Rnd) (z : Bool) (s : State) : Result :=
  vecOp (elementwise classA [a, b] d r z (intTwo max) (two (minmaxVal true))) s
def execVabs (d a : VIdx) (r : Rnd) (s : State) : Result :=
  vecOp (elementwise classA [a] d r false (fun l => (l.getD 0 0).natAbs) (fun l => ((l.getD 0 (.nan false)).abs, sigFlag (l.getD 0 (.nan false))))) s
def execVneg (d a : VIdx) (r : Rnd) (s : State) : Result :=
  vecOp (elementwise classA [a] d r false (fun l => -(l.getD 0 0)) (fun l => ((l.getD 0 (.nan false)).neg, sigFlag (l.getD 0 (.nan false))))) s

/-! ### Bitwise, shifts, compares, selection (05 R91 to R95) -/

/-- The result tag of two data sources (04 R80): `none` when they differ and neither is RAW. -/
def joinTag (a b : Tag) : Option Tag := if a = b then some a else if a = .raw then some b else if b = .raw then some a else none

/-- The side word of a result by R91: an F4B result takes va's scales if va is F4B, else vb's. -/
def joinSide (t : Tag) (a b : VReg) : Word := if t = .f4b then (if a.tag = .f4b then a.side else b.side) else 0

def bitwise (f : VData → VData → VData) (d a b : VIdx) (v : Vector VReg 8) : VRun :=
  match joinTag v[a].tag v[b].tag with
  | none => none
  | some t => some (putVec v d (f v[a].data v[b].data) t (joinSide t v[a] v[b]), 0)

def execVand (d a b : VIdx) (s : State) : Result := vecOp (bitwise (· &&& ·) d a b) s
def execVor (d a b : VIdx) (s : State) : Result := vecOp (bitwise (· ||| ·) d a b) s
def execVxor (d a b : VIdx) (s : State) : Result := vecOp (bitwise (· ^^^ ·) d a b) s

/-- Shifts by element (05 R91): f takes the width, the element and the amount. -/
def shiftVec (f : Nat → Nat → Nat → Nat) (d a b : VIdx) (v : Vector VReg 8) : VRun :=
  let t := v[a].tag
  if !isIntTag t || v[b].tag != t then none
  else
    let w := tagWidth t
    some (putVec v d (packElems w (List.zipWith (f w) (elems w v[a].data) (elems w v[b].data))) t 0, 0)

def execVshl (d a b : VIdx) (s : State) : Result := vecOp (shiftVec (fun w x n => if w ≤ n then 0 else x * 2 ^ n % 2 ^ w) d a b) s
def execVshr (d a b : VIdx) (s : State) : Result := vecOp (shiftVec (fun w x n => if w ≤ n then 0 else x / 2 ^ n) d a b) s
def execVsha (d a b : VIdx) (s : State) : Result :=
  vecOp (shiftVec (fun w x n => wrapInt w (if w ≤ n then (if x < 2 ^ (w - 1) then 0 else -1) else readInt false w x / 2 ^ n)) d a b) s

/-- The condition of `vcmp` between two values (05 R92), with its flags. -/
def cmpVals (k : Cond) (a b : Val) : Bool × Flags :=
  let o := cmpVal a b
  match k with
  | .eq => (o == some .eq, flagIf (a.isSig || b.isSig) fNV)
  | .ne => (o != some .eq, flagIf (a.isSig || b.isSig) fNV)
  | .lt => (o == some .lt, flagIf (a.isNan || b.isNan) fNV)
  | .ge => (o == some .gt || o == some .eq, flagIf (a.isNan || b.isNan) fNV)
  | _ => (false, 0)

def cmpInts (k : Cond) (w a b : Nat) : Bool :=
  match k with
  | .eq => a == b
  | .ne => a != b
  | .lt => readInt false w a < readInt false w b
  | .ge => readInt false w b ≤ readInt false w a
  | .lo => a < b
  | .hs => b ≤ a

def maskTag (w : Nat) : Tag := if w = 8 then .i8 else if w = 16 then .i16 else .i32

def compareVec (k : Cond) (d a b : VIdx) (v : Vector VReg 8) : VRun :=
  let t := v[a].tag
  if !(classA t || t == .e4m3 || t == .e5m2) || v[b].tag != t then none
  else
    let w := tagWidth t
    let ones := fun (c : Bool) => if c then 2 ^ w - 1 else 0
    match tagFmt t with
    | none => some (putVec v d (packElems w (List.zipWith (fun x y => ones (cmpInts k w x y)) (elems w v[a].data) (elems w v[b].data))) (maskTag w) 0, 0)
    | some f =>
      if k = .lo ∨ k = .hs then none
      else
        let r := packEnc w (List.zipWith (fun x y => let c := cmpVals k (dec f x) (dec f y); (ones c.1, c.2)) (elems w v[a].data) (elems w v[b].data))
        some (putVec v d r.1 (maskTag w) 0, r.2)

def execVcmp (d a b : VIdx) (k : Cond) (s : State) : Result := vecOp (compareVec k d a b) s

def execVsel (d a b c : VIdx) (s : State) : Result :=
  vecOp (fun v => bitwise (fun x y => (x &&& v[c].data) ||| (y &&& ~~~v[c].data)) d a b v) s

/-- Byte permutation (05 R94); an F4B source faults FORMAT. -/
def permVec (d a b : VIdx) (v : Vector VReg 8) : VRun :=
  if v[a].tag = .f4b then none
  else
    let src := elems 8 v[a].data
    some (putVec v d (packElems 8 ((elems 8 v[b].data).map (fun i => if 128 ≤ i then 0 else src.getD (i % 32) 0))) v[a].tag 0, 0)

def execVperm (d a b : VIdx) (s : State) : Result := vecOp (permVec d a b) s

/-- `vbcast` (05 R95): F4B and the reserved tags fault FORMAT. -/
def bcastVec (d : VIdx) (x : Word) (t : BitVec 4) (v : Vector VReg 8) : VRun :=
  match tagOfCode t.toNat with
  | none => none
  | some .f4b => none
  | some t => some (putVec v d (packElems (tagWidth t) (List.replicate (256 / tagWidth t) x.toNat)) t 0, 0)

def execVbcast (d : VIdx) (x : Reg) (t : BitVec 4) (s : State) : Result := vecOp (bcastVec d (s.x x) t) s

/-- RAW and F4B registers are taken as eight 32-bit lanes where an element is named (05 R89). -/
def laneWidth (t : Tag) : Nat := if t = .raw ∨ t = .f4b then 32 else tagWidth t

def insVec (d a : VIdx) (x : Word) (k : Nat) (v : Vector VReg 8) : VRun :=
  let t := v[a].tag
  let w := laneWidth t
  some (putVec v d (packElems w ((elems w v[a].data).set k x.toNat)) t (if t = .f4b then v[a].side else 0), 0)

def execVins (d a : VIdx) (x : Reg) (k : BitVec 5) (s : State) : Result := vecOp (insVec d a (s.x x) k.toNat) s

/-- Element k of a register (05 R95): sign-extended for integer tags; 0 at or beyond the element count. -/
def extElem (r : VReg) (k : Nat) : Word :=
  let w := laneWidth r.tag
  let e := (elems w r.data).getD k 0
  if isIntTag r.tag then BitVec.ofInt 64 (readInt false w e) else BitVec.ofNat 64 e

/-- `vext` writes the leader's general register from the leader's own source (05 R104). -/
def execVext (a : VIdx) (x : Reg) (k : BitVec 5) (s : State) : Result :=
  finish s (do notBrokenVec s; .ok ((s.xw x (extElem s.th.vecs[a] k.toNat)).pass 4))

/-! ### Reductions and scans (05 R96) -/

/-- F, one step of a reduction over encoded elements. -/
def redStep (t : Tag) (o : RedOp) (z : Bool) (rm : Rnd) (a b : Nat) : Nat × Flags :=
  let w := tagWidth t
  match tagFmt t with
  | some f =>
    match o with
    | .add => encWith f (sumVal [dec f a, dec f b] rm) rm
    | .min => encWith f (minmaxVal false (dec f a) (dec f b)) rm
    | .max => encWith f (minmaxVal true (dec f a) (dec f b)) rm
  | none =>
    match o with
    | .add => ((a + b) % 2 ^ w, 0)
    | .min => (if readInt z w a ≤ readInt z w b then a else b, 0)
    | .max => (if readInt z w a ≤ readInt z w b then b else a, 0)

def redPairs (f : Nat → Nat → Nat × Flags) : List Nat → List Nat × Flags
  | a :: b :: r =>
    let x := f a b
    let y := redPairs f r
    (x.1 :: y.1, x.2 ||| y.2)
  | l => (l, 0)

/-- The pairwise tree, round by round. -/
def redTree (f : Nat → Nat → Nat × Flags) : Nat → List Nat → Nat × Flags
  | 0, l => (l.headD 0, 0)
  | k + 1, l =>
    let r := redPairs f l
    let t := redTree f k r.1
    (t.1, r.2 ||| t.2)

def scanFrom (f : Nat → Nat → Nat × Flags) (acc : Nat) : List Nat → List Nat × Flags
  | [] => ([], 0)
  | x :: r =>
    let y := f acc x
    let t := scanFrom f y.1 r
    (y.1 :: t.1, y.2 ||| t.2)

def scanList (f : Nat → Nat → Nat × Flags) : List Nat → List Nat × Flags
  | [] => ([], 0)
  | x :: r =>
    let t := scanFrom f x r
    (x :: t.1, t.2)

def reduceVec (scan : Bool) (d a : VIdx) (rm : Rnd) (z : Bool) (o : RedOp) (v : Vector VReg 8) : VRun :=
  let t := v[a].tag
  if !classA t || (z && !isIntTag t) then none
  else
    let w := tagWidth t
    let f := redStep t o z rm
    let r := if scan then scanList f (elems w v[a].data) else let x := redTree f 5 (elems w v[a].data); ([x.1], x.2)
    some (putVec v d (packElems w r.1) t 0, r.2)

def execVred (d a : VIdx) (r : Rnd) (z : Bool) (o : RedOp) (s : State) : Result := vecOp (reduceVec false d a r z o) s
def execVscan (d a : VIdx) (r : Rnd) (z : Bool) (o : RedOp) (s : State) : Result := vecOp (reduceVec true d a r z o) s

/-! ### Conversions (05 R97 R98) -/

/-- What a source element is, read for a conversion. -/
inductive Src where
  | int (i : Int)
  | val (v : Val)

def Src.value : Src → Val
  | .int i => ofInt i
  | .val v => v

/-- The source elements of a register (05 R97): F4B elements under their block scales. -/
def sources (r : VReg) (z : Bool) : List Src :=
  let w := tagWidth r.tag
  match r.tag with
  | .f4b => (elems 4 r.data).zipIdx.map (fun e => .val (fp4Val e.1 (r.side.toNat / 2 ^ (8 * (e.2 / 8)) % 256)))
  | t => match tagFmt t with
    | some f => (elems w r.data).map (fun e => .val (dec f e))
    | none => (elems w r.data).map (fun e => .int (readInt z w e))

/-- One element into a target other than F4B (05 R97). -/
def convert (tf : Tag) (z : Bool) (rm : Rnd) (x : Src) : Nat × Flags :=
  let w := tagWidth tf
  match tagFmt tf, x with
  | some f, .int i => enc f (ofInt i) rm
  | some f, .val v => encWith f (v, sigFlag v) rm
  | none, .int i =>
    let lo : Int := if z then 0 else -(2 ^ (w - 1) : Int)
    let hi : Int := if z then 2 ^ w - 1 else 2 ^ (w - 1) - 1
    (wrapInt w (if i < lo then lo else if hi < i then hi else i), 0)
  | none, .val v =>
    let r := toInt v w z rm
    (wrapInt w r.1, r.2)

/-- Blocks of eight into F4B words and scales (05 R98), for at most k blocks. -/
def toBlocks (rm : Rnd) : Nat → List Src → List (Nat × Nat × Flags)
  | 0, _ => []
  | _ + 1, [] => []
  | k + 1, x :: r => f4bBlock (((x :: r).take 8).map Src.value) rm :: toBlocks rm k ((x :: r).drop 8)

/-- Converted elements, the block scales of an F4B target, and the flags of every element (05 R97). -/
def convertAll (tf : Tag) (z : Bool) (rm : Rnd) (l : List Src) : List Nat × List Nat × Flags :=
  match tf with
  | .f4b =>
    let bs := toBlocks rm 8 l
    (bs.flatMap (fun b => (List.range 8).map (fun j => b.1 / 2 ^ (4 * j) % 16)), bs.map (·.2.1), bs.foldl (fun f b => f ||| b.2.2) 0)
  | _ =>
    let es := l.map (convert tf z rm)
    (es.map (·.1), [], es.foldl (fun f e => f ||| e.2) 0)

/-- `l` laid over `base` from place k on. -/
def layOver (base : List Nat) (k : Nat) (l : List Nat) : List Nat := base.take k ++ l ++ base.drop (k + l.length)

def sideScales (w : Word) : List Nat := (List.range 8).map (fun i => w.toNat / 2 ^ (8 * i) % 256)
def scalesSide (l : List Nat) : Word := BitVec.ofNat 64 (l.foldr (fun e acc => e % 256 + 256 * acc) 0)

/-- `vcvt` (05 R97): widening writes a pair, narrowing reads one and may merge into a part, equal widths convert in place. -/
def cvtVec (d a : VIdx) (z : Bool) (p : Nat) (rm : Rnd) (t : Nat) (v : Vector VReg 8) : VRun :=
  let ts := v[a].tag
  match tagOfCode t with
  | none => none
  | some tf =>
    if tf = .raw ∨ ts = .raw then none
    else
      let w := tagWidth tf
      let ns := 256 / tagWidth ts
      let nd := 256 / w
      if nd < ns then
        if d.val % 2 = 1 then none
        else
          let r := convertAll tf z rm (((sources v[a] z).drop (2 * nd * (p % (ns / nd / 2)))).take (2 * nd))
          some (putVec (putVec v d (packElems w (r.1.take nd)) tf 0) (d + 1) (packElems w (r.1.drop nd)) tf 0, r.2.2)
      else if ns < nd then
        if a.val % 2 = 1 ∨ v[a + 1].tag ≠ ts then none
        else
          let q := nd / ns / 2
          let p' := p % q
          let fresh := q == 1 || p' == 0
          if !fresh && v[d].tag != tf then none
          else
            let r := convertAll tf z rm (sources v[a] z ++ sources v[a + 1] z)
            let base := if fresh then List.replicate nd 0 else elems w v[d].data
            let scales := layOver (if fresh then List.replicate 8 0 else sideScales v[d].side) (2 * ns * p' / 8) r.2.1
            some (putVec v d (packElems w (layOver base (2 * ns * p') r.1)) tf (if tf = .f4b then scalesSide scales else 0), r.2.2)
      else
        let r := convertAll tf z rm (sources v[a] z)
        some (putVec v d (packElems w r.1) tf (if tf = .f4b then scalesSide r.2.1 else 0), r.2.2)

def execVcvt (d a : VIdx) (z : Bool) (p : BitVec 3) (r : Rnd) (t : BitVec 4) (s : State) : Result :=
  vecOp (cvtVec d a z p.toNat r t.toNat) s

/-! ### Dot products (05 R101) -/

/-- The exact sum of one lane's products, each scaled by the block scales `sc` of F4B. With `.rne`, R101 makes the lane one block step of 06 R115,
    which starts at +0 and scales the sum (log entry 24). -/
def dotSum (rm : Rnd) (sc : List Val) (ps : List (Val × Val)) : Val × Flags :=
  let scale := fun (v : Val × Flags) => sc.foldl (fun x y => ((mulVal x.1 y).1, x.2 ||| (mulVal x.1 y).2)) v
  if rm = .rne then scale (blockSum ps rm)
  else
    let ps := ps.map (fun p => scale (mulVal p.1 p.2))
    let s := sumVal (ps.map (·.1)) rm
    (s.1, ps.foldl (fun f p => f ||| p.2) s.2)

/-- One lane of `vdot`: the scaled sum of its products, then the accumulation. -/
def dotLane (rm : Rnd) (acc : Nat) (sc : List Val) (ps : List (Val × Val)) : Nat × Flags :=
  let s := encWith fp32 (dotSum rm sc ps) rm
  let r := encWith fp32 (sumVal [dec fp32 acc, dec fp32 s.1] rm) rm
  (r.1, s.2 ||| r.2)

/-- The elements of a register without their block scales. -/
def dotElems (r : VReg) : List Val := if r.tag = .f4b then (elems 4 r.data).map (dec fp4) else (sources r false).map Src.value

/-- The block scale of lane i, of an F4B register only. -/
def dotScale (r : VReg) (i : Nat) : List Val := if r.tag = .f4b then [dec e3m5 (r.side.toNat / 2 ^ (8 * i) % 256)] else []

def dotVec (d a b : VIdx) (rm : Rnd) (v : Vector VReg 8) : VRun :=
  let t := v[a].tag
  if v[b].tag ≠ t then none
  else
    let n := 32 / tagWidth t
    let accs := elems 32 v[d].data
    match t with
    | .i8 =>
      if v[d].tag ≠ .i32 then none
      else
        let r := accs.zipIdx.map (fun e =>
          wrapInt 32 ((e.1 : Int) + (List.zipWith (fun x y => readInt false 8 x * readInt false 8 y)
            (((elems 8 v[a].data).drop (4 * e.2)).take 4) (((elems 8 v[b].data).drop (4 * e.2)).take 4)).sum))
        some (putVec v d (packElems 32 r) .i32 0, 0)
    | .e4m3 | .e5m2 | .fp16 | .bf16 | .f4b =>
      if v[d].tag ≠ .fp32 then none
      else
        let xs := dotElems v[a]
        let ys := dotElems v[b]
        let r := packEnc 32 (accs.zipIdx.map (fun e => dotLane rm e.1 (dotScale v[a] e.2 ++ dotScale v[b] e.2) (List.zip ((xs.drop (n * e.2)).take n) ((ys.drop (n * e.2)).take n))))
        some (putVec v d r.1 .fp32 0, r.2)
    | _ => none

def execVdot (d a b : VIdx) (r : Rnd) (s : State) : Result := vecOp (dotVec d a b r) s

/-! ### Special functions (05 R102), tags and scales (R103) -/

def specialVec (f : Special) (d a : VIdx) (r : Rnd) (s : State) : Result :=
  vecOp (elementwise classF [a] d r false (fun l => l.getD 0 0) (fun l => special f (l.getD 0 (.nan false)))) s

def execVrcp (d a : VIdx) (r : Rnd) (s : State) : Result := specialVec .rcp d a r s
def execVrsq (d a : VIdx) (r : Rnd) (s : State) : Result := specialVec .rsq d a r s
def execVexp2 (d a : VIdx) (r : Rnd) (s : State) : Result := specialVec .exp2 d a r s
def execVlog2 (d a : VIdx) (r : Rnd) (s : State) : Result := specialVec .log2 d a r s
def execVtanh (d a : VIdx) (r : Rnd) (s : State) : Result := specialVec .tanh d a r s

def tagVec (d a : VIdx) (t : Nat) (v : Vector VReg 8) : VRun :=
  match tagOfCode t with
  | none => none
  | some t => some (putVec v d v[a].data t v[a].side, 0)

def execVtag (d a : VIdx) (t : BitVec 4) (s : State) : Result := vecOp (tagVec d a t.toNat) s

def scaleVec (d a : VIdx) (x : Word) (v : Vector VReg 8) : VRun :=
  if v[a].tag ≠ .f4b then none else some (putVec v d v[a].data .f4b x, 0)

def execVscaleWrite (d a : VIdx) (x : Reg) (s : State) : Result := vecOp (scaleVec d a (s.x x)) s

/-- The reading form writes the leader's general register; every member checks its tag (05 R103 R104). -/
def execVscaleRead (a : VIdx) (x : Reg) (s : State) : Result :=
  finish s (do
    notBrokenVec s
    need (s.th.vecs[a].tag == .f4b && (gangMembers s).all (fun m => m.2.2[a].tag == .f4b)) .format
    .ok ((s.xw x s.th.vecs[a].side).pass 4))

end Sys2Proof.Machine
end

