-- ==== Sys2Proof/Machine/Access.lean ====
section
/-!
DEFINITION. Loads, stores, full/empty forms, prefetch, atomics and fences (11), and `vld2` (05 R100).
-/

namespace Sys2Proof.Machine

def sizeBytes : Size → Nat
  | .b => 1 | .h => 2 | .w => 4 | .d => 8

/-! ### Sized loads and stores (11 R191) -/

def loadRun (len : Nat) (d : Reg) (z : Size) (g : Bool) (aw : Word) (s : State) : Run State :=
  match access1 s aw (sizeBytes z) (sizeBytes z) false needR with
  | .error e => .error e
  | .ok (k, s) =>
    let r := clrLoad k (sizeBytes z) s
    .ok (((r.2.xw d (extend g r.1)).pass len).awayUnless (isLocal s k))

def storeRun (len : Nat) (d : Reg) (z : Size) (aw : Word) (s : State) : Run State :=
  match access1 s aw (sizeBytes z) (sizeBytes z) false needW with
  | .error e => .error e
  | .ok (k, t) => .ok (((clrStore k (leBytes (sizeBytes z) (s.x d).toNat) t).pass len).awayUnless (isLocal s k))

def execLd (d a : Reg) (z : Size) (g : Bool) (o : BitVec 12) (s : State) : Result := finish s (loadRun 4 d z g (s.ea a o) s)
def execLdExt (d a : Reg) (z : Size) (g : Bool) (o : BitVec 40) (s : State) : Result := finish s (loadRun 8 d z g (s.ea a o) s)
def execSt (d a : Reg) (z : Size) (o : BitVec 12) (s : State) : Result := finish s (storeRun 4 d z (s.ea a o) s)
def execStExt (d a : Reg) (z : Size) (o : BitVec 40) (s : State) : Result := finish s (storeRun 8 d z (s.ea a o) s)

/-! ### Vector loads and stores (11 R192, 05 R100, 06 R108) -/

/-- The format codes of `ldv` and of `vld2`. -/
def ldvTag : Nat → Tag
  | 0 => .i8 | 1 => .e4m3 | 2 => .e5m2 | 3 => .f4b | 4 => .fp16 | 5 => .bf16 | 6 => .i32 | _ => .fp32
def vld2Tag : Nat → Tag
  | 3 => .i16
  | n => ldvTag n

/-- The members of the issuing thread's vector gang by member index, the leader among them; one member 0 when it leads none. -/
def memberList (s : State) : List (Nat × Option Nat) :=
  match Tbl.get? s.vgangs s.cur with
  | none => [(0, none)]
  | some g => (List.range g.size).map (fun m => (m, if m = g.index then none else some m))

/-- The checks of every member's access at a + 32 · m, before any member reads or writes (11 R189). -/
def memberAccess (aw : Word) (nd : Need) (owr : Bool) : List (Nat × Option Nat) → State → Run (List (Option Nat × Nat) × State)
  | [], s => .ok ([], s)
  | (m, who) :: r, s =>
    reading (access s (aw + BitVec.ofNat 64 (32 * m)) 32 32 false nd owr 64) fun ks t =>
      match memberAccess aw nd owr r t with
      | .error e => .error e
      | .ok (l, t) => .ok ((who, (ks.headD (0, 0)).1) :: l, t)

def setMember (s : State) (who : Option Nat) (d : VIdx) (x : VReg) : State :=
  match who, Tbl.get? s.vgangs s.cur with
  | some m, some g => { s with vgangs := Tbl.set s.vgangs s.cur { g with members := g.members.map (fun e => if e.1 = m then (e.1, e.2.1, e.2.2.set d x) else e) } }
  | _, _ => s.vw d x

def memberReg (s : State) (who : Option Nat) (d : VIdx) : VReg :=
  match who with
  | none => s.th.vecs[d]
  | some m => match (gangMembers s).find? (fun e => e.1 == m) with
    | some e => e.2.2[d]
    | none => {}

def loadMembers (d : VIdx) (t : Tag) (s : State) : List (Option Nat × Nat) → State
  | [] => s
  | (who, k) :: r =>
    let v := clrLoad k 32 s
    loadMembers d t (setMember v.2 who d { data := BitVec.ofNat 256 (leNat v.1), tag := t, side := 0 }) r

def storeMembers (d : VIdx) (s : State) : List (Option Nat × Nat) → State
  | [] => s
  | (who, k) :: r => storeMembers d (clrStore k (leBytes 32 (memberReg s who d).data.toNat) s) r

def ldvRun (len : Nat) (d : VIdx) (f : BitVec 3) (aw : Word) (s : State) : Run State :=
  match notBrokenVec s with
  | .error e => .error e
  | .ok () =>
    match memberAccess aw needR false (memberList s) s with
    | .error e => .error e
    | .ok (l, s) => .ok (((loadMembers d (ldvTag f.toNat) s l).pass len).awayUnless (l.all (fun e => isLocal s e.2)))

def stvRun (len : Nat) (d : VIdx) (aw : Word) (s : State) : Run State :=
  match notBrokenVec s with
  | .error e => .error e
  | .ok () =>
    match memberAccess aw needW true (memberList s) s with
    | .error e => .error e
    | .ok (l, s) => .ok (((storeMembers d s l).pass len).awayUnless (l.all (fun e => isLocal s e.2)))

/-- `vld2` (05 R100): the leader alone; an odd vd faults ILLEGAL. It is a vector instruction for R109's mark. -/
def vld2Run (len : Nat) (d : VIdx) (f : BitVec 3) (aw : Word) (s : State) : Run State :=
  if d.val % 2 = 1 then fail .illegal
  else
    match notBrokenVec s with
    | .error e => .error e
    | .ok () =>
      match access s aw 64 32 false needR false 32 with
      | .error e => .error e
      | .ok (ks, s) =>
        let v := clrLoads ks s
        let reg := fun (l : List Byte) => ({ data := BitVec.ofNat 256 (leNat l), tag := vld2Tag f.toNat, side := 0 } : VReg)
        .ok ((((v.2.vw d (reg (v.1.take 32))).vw (d + 1) (reg (v.1.drop 32))).pass len).awayUnless (ks.all (fun k => isLocal s k.1)))

def execLdv (d : VIdx) (a : Reg) (f : BitVec 3) (o : BitVec 12) (s : State) : Result := finish s (ldvRun 4 d f (s.ea a o) s)
def execLdvExt (d : VIdx) (a : Reg) (f : BitVec 3) (o : BitVec 40) (s : State) : Result := finish s (ldvRun 8 d f (s.ea a o) s)
def execStv (d : VIdx) (a : Reg) (o : BitVec 12) (s : State) : Result := finish s (stvRun 4 d (s.ea a o) s)
def execStvExt (d : VIdx) (a : Reg) (o : BitVec 40) (s : State) : Result := finish s (stvRun 8 d (s.ea a o) s)
def execVld2 (d : VIdx) (a : Reg) (f : BitVec 3) (o : BitVec 12) (s : State) : Result := finish s (vld2Run 4 d f (s.ea a o) s)
def execVld2Ext (d : VIdx) (a : Reg) (f : BitVec 3) (o : BitVec 40) (s : State) : Result := finish s (vld2Run 8 d f (s.ea a o) s)

/-! ### Full/empty forms (11 R193 to R196) -/

/-- An access of the thread to a granule's bit, placed in clr (09 R165). -/
def touchGranule (key : Nat) (s : State) : State :=
  let t := purseTime s key 1 s.now
  (setPurseTime s key 1 t).raise s.cur t

/-- Enters a request in the wait table of its purse, or is refused by a full one (11 R195); the pc stays on the instruction. -/
def park (r : ParkReq) (s : State) : State :=
  let q := keyQuad r.key
  let l := Tbl.getD s.waits q []
  if l.length < 128 then (({ s with waits := Tbl.set s.waits q (l ++ [r]) } : State)).leave r.berth (.parked r)
  else s.leave r.berth (.refused r)

/-- `ldc` and `ldf` (11 R194 R195): wait until the granule is full; `ldc` publishes first and empties it; both then acquire. -/
def waitingLoad (clear : Bool) (len : Nat) (d : Reg) (z : Size) (g : Bool) (aw : Word) (s : State) : Run State :=
  let n := sizeBytes z
  match access1 s aw n n true needRW with
  | .error e => .error e
  | .ok (k, s) =>
    let pub := clear && hasStores s
    let s := if clear then publish .module s else s
    if isFull s (granule k) then
      let r := clrLoad k n s
      let t := if clear then setEmpty r.2 (granule k) else r.2
      .ok ((((acquire t).xw d (extend g r.1)).pass len).awayUnless (isLocal s k && !pub))
    else .ok (park { berth := s.cur, tid := s.th.tid, key := k, n := n, zext := g, rd := d, clear := clear, len := len } s)

def feqRun (len : Nat) (d : Reg) (aw : Word) (s : State) : Run State :=
  match access1 s aw 1 1 true needR with
  | .error e => .error e
  | .ok (k, s) => .ok ((((touchGranule k s).xw d (if isFull s (granule k) then 1 else 0)).pass len).awayUnless (isLocal s k))

def stfRun (len : Nat) (d : Reg) (z : Size) (aw : Word) (s : State) : Run State :=
  let n := sizeBytes z
  match access1 s aw n n true needW with
  | .error e => .error e
  | .ok (k, t) =>
    let u := clrStore k (leBytes n (s.x d).toNat) (publish .module t)
    .ok (((fillGranule u (granule k)).pass len).awayUnless (isLocal s k && !hasStores s))

def fezRun (len : Nat) (aw : Word) (s : State) : Run State :=
  match access1 s aw 1 1 true needW with
  | .error e => .error e
  | .ok (k, t) => .ok (((setEmpty (touchGranule k (publish .module t)) (granule k)).pass len).awayUnless (isLocal s k && !hasStores s))

def execLdc (d a : Reg) (z : Size) (g : Bool) (o : BitVec 12) (s : State) : Result := finish s (waitingLoad true 4 d z g (s.ea a o) s)
def execLdcExt (d a : Reg) (z : Size) (g : Bool) (o : BitVec 40) (s : State) : Result := finish s (waitingLoad true 8 d z g (s.ea a o) s)
def execLdf (d a : Reg) (z : Size) (g : Bool) (o : BitVec 12) (s : State) : Result := finish s (waitingLoad false 4 d z g (s.ea a o) s)
def execLdfExt (d a : Reg) (z : Size) (g : Bool) (o : BitVec 40) (s : State) : Result := finish s (waitingLoad false 8 d z g (s.ea a o) s)
def execFeq (d a : Reg) (o : BitVec 12) (s : State) : Result := finish s (feqRun 4 d (s.ea a o) s)
def execFeqExt (d a : Reg) (o : BitVec 40) (s : State) : Result := finish s (feqRun 8 d (s.ea a o) s)
def execStf (d a : Reg) (z : Size) (o : BitVec 12) (s : State) : Result := finish s (stfRun 4 d z (s.ea a o) s)
def execStfExt (d a : Reg) (z : Size) (o : BitVec 40) (s : State) : Result := finish s (stfRun 8 d z (s.ea a o) s)
def execFez (a : Reg) (o : BitVec 12) (s : State) : Result := finish s (fezRun 4 (s.ea a o) s)
def execFezExt (a : Reg) (o : BitVec 40) (s : State) : Result := finish s (fezRun 8 (s.ea a o) s)

/-! ### Prefetch (11 R197) -/

/-- With target q the home grants a copy as for a load; with v nothing visible. No access, no fault: a failing check makes it a no-op. -/
def prefetch (v : Bool) (aw : Word) (s : State) : State :=
  match formOf aw with
  | some (.glob va) =>
    match globAccess s s.quad s.th.net va 1 needR with
    | .error e => e.state s
    | .ok (pa, t) =>
      if v || isVault pa || poisoned t pa 1 || !(usableCopies t t.quad (pa / 256) t.now).isEmpty then t
      else
        let t := hwRequest t.quad pa t
        let t := if t.stores.any (fun st => st.addr / 256 == pa / 256 && st.tid != t.th.tid) then settleLine t (pa / 256) else t
        grant t t.quad (pa / 256) t.now (t.stores.any (fun st => st.addr / 256 == pa / 256))
  | _ => s

def execPref (a : Reg) (v : Bool) (o : BitVec 12) (s : State) : Result := .next ((prefetch v (s.ea a o) s).pass 4)
def execPrefExt (a : Reg) (v : Bool) (o : BitVec 40) (s : State) : Result := .next ((prefetch v (s.ea a o) s).pass 8)

/-! ### Atomics (11 R198 R199) -/

/-- A read-modify-write of n bytes: f answers the new value, or none when it writes no value. -/
def atomicRun (n : Nat) (g : Bool) (d : Reg) (aw : Word) (f : Nat → Option Nat) (s : State) : Run State :=
  match access1 s aw n n false needRW with
  | .error e => .error e
  | .ok (k, t) =>
    let r := clrRmw k n (fun l => (f (leNat l)).map (leBytes n)) (publish .module t)
    .ok (((r.2.xw d (extend g r.1)).pass 4).awayUnless (isLocal s k && !hasStores s))

/-- The berths whose `aadd`s stand last on the n bytes at a global key, their replies still on the way and nothing placed after them: one of the same
    bytes that comes now may have met them in a switch of the bank net (01 R17, 09 R176). -/
def addsMet (s : State) (key n : Nat) : List Nat :=
  (s.berths.filter (fun e => match e.2.ctx.wait with
    | .added k m t => k == key && m == n && lineTime s (key / 256) == { wts := t, rts := t + 1 }
    | _ => false)).map (·.1)

/-- A combined reply carries the later clearing time to the requester before (09 R176). -/
def combineAdd (key n t : Nat) (s : State) (b : Nat) : State :=
  let s := s.raise b t
  s.setCtx b { s.ctx b with wait := .added key n t }

/-- What an `aadd` of amt makes of n bytes. -/
def addTo (n amt : Nat) (l : List Byte) : Option (List Byte) := some (leBytes n ((leNat l + amt) % 2 ^ (8 * n)))

/-- The berths whose `aadd`s on the same bytes have been answered REHOME and stand first in their combined request. -/
def addsWaiting (s : State) (pa n : Nat) : List Nat :=
  (s.berths.filter (fun e => match e.2.ctx.wait with | .rehomedAdd k m _ _ none => k == pa && m == n | _ => false)).map (·.1)

/-- An `aadd` answered REHOME has not been performed (08 R150). It may have met another of the same bytes on its way, with which it is reissued as
    one; whether it has is the hardware's choice (log entries 3 and 76), and is counted (18 R331). -/
def addRehomed (pa n amt : Nat) (d : Reg) (s : State) : State :=
  match addsWaiting s pa n with
  | [] => s.leave s.cur (.rehomedAdd pa n amt d none)
  | l =>
    let (c, s) := choice s (l.length + 1)
    match l[c]? with
    | none => s.leave s.cur (.rehomedAdd pa n amt d none)
    | some b => count (homeOf s pa / 256) 7 1 (s.leave s.cur (.rehomedAdd pa n amt d (some b)))

/-- `aadd` (11 R198): an atomic that may combine on the bank net; whether it does is the hardware's choice (log entry 3), and is counted (18 R331). -/
def aaddRun (n : Nat) (d : Reg) (aw : Word) (amt : Nat) (s : State) : Run State :=
  match access1 s aw n n false needRW with
  | .error (.wait (.rehomed pa) t) => .ok (addRehomed pa n amt d (publish .module (t.getD s)))
  | .error e => .error e
  | .ok (k, t) =>
    let t := publish .module t
    let met := if isPurse k then [] else addsMet t k n
    let r := clrRmw k n (addTo n amt) t
    let u := (r.2.xw d (extend false r.1)).pass 4
    if isPurse k then .ok (u.awayUnless (isLocal s k && !hasStores s))
    else
      let time := (lineTime u (k / 256)).wts
      let u := u.leave u.cur (.added k n time)
      if met = [] then .ok u
      else
        let (c, u) := choice u 2
        .ok (if c = 0 then u else count (homeOf u k / 256) 7 1 (met.foldl (combineAdd k n time) u))

def atomBytes (dbl : Bool) : Nat := if dbl then 8 else 4
/-- X(rb)<w−1 : 0>. -/
def State.low (s : State) (r : Reg) (dbl : Bool) : Nat := (s.x r).toNat % 2 ^ (8 * atomBytes dbl)

def execAadd (d a b : Reg) (dbl : Bool) (s : State) : Result :=
  finish s (aaddRun (atomBytes dbl) d (s.x a) (s.low b dbl) s)
def execAand (d a b : Reg) (dbl : Bool) (s : State) : Result :=
  finish s (atomicRun (atomBytes dbl) false d (s.x a) (fun m => some (m &&& s.low b dbl)) s)
def execAor (d a b : Reg) (dbl : Bool) (s : State) : Result :=
  finish s (atomicRun (atomBytes dbl) false d (s.x a) (fun m => some (m ||| s.low b dbl)) s)
def execAxor (d a b : Reg) (dbl : Bool) (s : State) : Result :=
  finish s (atomicRun (atomBytes dbl) false d (s.x a) (fun m => some (m ^^^ s.low b dbl)) s)
/-- The smaller, or the larger, read as signed, or as unsigned with `.z`. -/
def pickInt (mx g : Bool) (w m b : Nat) : Nat :=
  if readInt g w m < readInt g w b then (if mx then b else m) else (if mx then m else b)
def execAmin (d a b : Reg) (dbl g : Bool) (s : State) : Result :=
  finish s (atomicRun (atomBytes dbl) g d (s.x a) (fun m => some (pickInt false g (8 * atomBytes dbl) m (s.low b dbl))) s)
def execAmax (d a b : Reg) (dbl g : Bool) (s : State) : Result :=
  finish s (atomicRun (atomBytes dbl) g d (s.x a) (fun m => some (pickInt true g (8 * atomBytes dbl) m (s.low b dbl))) s)
def execAswp (d a b : Reg) (dbl : Bool) (s : State) : Result :=
  finish s (atomicRun (atomBytes dbl) false d (s.x a) (fun _ => some (s.low b dbl)) s)
/-- The expected value is X(rd), read before the old value is written into it. -/
def execAcas (d a b : Reg) (dbl : Bool) (s : State) : Result :=
  finish s (atomicRun (atomBytes dbl) false d (s.x a) (fun m => if m = s.low d dbl then some (s.low b dbl) else none) s)

/-! ### Fences (09 R170 R171, 11 R205 R206) -/

def fenceState (sc : Scope) (o : Order) (s : State) : State :=
  let s := match o with | .acq => s | _ => publish sc s
  match o with | .rel => s | _ => acquire s

def execFence (sc : Scope) (o : Order) (s : State) : Result := .next ((fenceState sc o s).pass 4).away
def execFenceb (s : State) : Result := .next ((fenceState .module .acqrel s).pass 4).away

end Sys2Proof.Machine
end

