-- ==== Sys2Proof/Machine/Link.lean ====
section
/-!
DEFINITION. `link` and `grab` (02 R39 to R43, 11 R200 to R204). A `link` claims its old ends, redirects them and makes its half-joins in
atomic acts one after another; `linkBudget` bounds how many acts one step performs (log entry 2), and its progress is kept in `Wait.link`.
-/

namespace Sys2Proof.Machine

/-- The slot of a port (11 R200): +8 of a PRIN end's node, an AUXP end itself; an IMM word has none. -/
def slotOfPort (w : Word) : Option Word :=
  match tagOf w with
  | 1 => some (addrOf w)
  | 2 => some (addrOf w + 8)
  | _ => none

def auxWord (slot : Word) : Word := slot ||| BitVec.ofNat 64 (1 * 2 ^ 60)
def isImm (w : Word) : Bool := tagOf w == 5
/-- A port of a redex: principal, or an inline nullary node. -/
def isPrincipal (w : Word) : Bool := tagOf w == 2 || tagOf w == 5

/-- Whether an end keeps the forms of 11 R200: AUXP for an old end; PRIN, AUXP or IMM for a new one. -/
def endOk (old : Bool) (w : Word) : Bool :=
  portOk w && (if old then tagOf w == 1 else tagOf w == 1 || tagOf w == 2 || tagOf w == 5)

/-- Whether a memory key lies in the net's handler cell (02 R46, 11 R203). -/
def inHandler (s : State) (key : Nat) : Bool :=
  let h := handlerKey s s.th.net
  h ≤ key && key < h + 64

/-- The checked memory key of a port's slot (11 R201): `none` for an IMM end. -/
def slotKey (s : State) (w : Word) : Run (Option Nat × State) :=
  match slotOfPort w with
  | none => .ok (none, s)
  | some a =>
    reading (access1 s a 8 1 false needRW) fun k s => if inHandler s k then fail .linkCorrupt else .ok (some k, s)

/-- An unconditional write of a slot, published at once (11 R201). -/
def writeSlot (k : Nat) (v : Word) (s : State) : State := (clrRmw k 8 (fun _ => some (wordBytes v)) s).2

/-- Free cells of a net's cell area on a quad (02 R39 R45): their purse offsets. Which free cells a `link` takes is the quad's affair; here
    the lowest (log entry 70). -/
def takeCells (n q count : Nat) (s : State) : Option (List Nat × State) :=
  let nr := s.netRec n
  let nq := s.netq n q
  let free := ((List.range (64 * nr.cellKib)).map (fun i => nr.cellOff + 16 * i)).filter (fun o => !nq.cells.contains o)
  if free.length < count then none else some (free.take count, s.setNetq n q { nq with cells := free.take count ++ nq.cells })

def returnCell (n q off : Nat) (s : State) : State :=
  let nq := s.netq n q
  s.setNetq n q { nq with cells := nq.cells.filter (· != off) }

/-- Where a `link` stands after an act: going on, waiting with nothing done, answered REHOME, or ended by a fault after its first claim
    (11 R201). -/
inductive LinkOut where
  | going (p : LinkProg) (s : State)
  | wait (p : LinkProg) (s : State)
  | fault (f : FaultInfo) (s : State)

def linkFault (c : Cause) (s : State) : LinkOut := .fault { cause := c, lnk := true } s

/-- A request of a `link` that its checks stop, of what began in state s: a fault, a REHOME answer, or a moment's wait (08 R148 R150). -/
def linkStop (p : LinkProg) (e : Stop) (s : State) : LinkOut :=
  match e with
  | .fault f _ => .fault { f with lnk := true } (e.state s)
  | .wait (.rehomed pa) _ => .wait { p with rehome := some pa } (e.state s)
  | .wait .. => .wait p (e.state s)

/-- A read of a slot as a compare-and-swap that writes nothing (02 R40, 11 R201). -/
def readSlot (k : Nat) (s : State) : Word × State :=
  let r := clrRmw k 8 (fun _ => none) s
  (bytesWord r.1, r.2)

/-- A far port of good form (02 R27, 11 R202): a wire's other end. -/
def farOk (p : Word) : Bool := portOk p && (tagOf p == 1 || tagOf p == 2 || tagOf p == 5)

/-! ### Half-joins and meetings (02 R39 to R41)

A wire has two sides. Where consumed slots of several `link`s lie on it, each adjoining pair of slots is a meeting of its own: its lower party
completes it and goes on with the other party's other side, so that the chain grows shorter one meeting at a time (log entry 16). -/

/-- A side whose half-join is still to be made. -/
def WireSide.open (x : WireSide) : Bool := !x.made && (slotOfPort x.port).isSome

/-- Every old end is redirected: the two sides of the wire, in the order of their half-joins (11 R202). -/
def LinkProg.start (p : LinkProg) (q : Nat) : LinkProg :=
  let side := fun (o : OldEnd) => ({ port := o.far, exp := o.slot, face := some o.slot, cell := some (purseKey q o.cell) } : WireSide)
  { p with sides := p.olds.map side ++ (if p.olds.length = 1 then [{ port := p.new, exp := holdWord }] else []) }

/-- The redex that a wire between two ports makes (02 R42). -/
def redexOf (a b : Word) : Option (Word × Word) := if isPrincipal a && isPrincipal b then some (a, b) else none

/-- The join is over once no side is open: a redex is due where both ports are principal. -/
def LinkProg.settle (p : LinkProg) : LinkProg :=
  if p.sides.any WireSide.open then p
  else
    { p with
      sides := [], resolved := true, cells := p.cells ++ p.sides.filterMap (·.cell)
      push := match p.sides with | [l, r] => redexOf r.port l.port | _ => none }

/-- The lower of two port words' slots, as R41 compares them. -/
def slotNo (w : Word) : Nat := (addrOf w).toNat

/-- Writes a port's slot where it has one. -/
def wire (x v : Word) (s : State) : Except Stop State :=
  match slotKey s x with
  | .error e => .error e
  | .ok (none, s) => .ok s
  | .ok (some k, s) => .ok (writeSlot k v s)

/-- Gives a cell back to the quad it came from (02 R41). -/
def reclaim (s : State) (key : Nat) : State := if isPurse key then returnCell s.th.net (keyQuad key) (keyOff key) s else s

/-- The other `link`s of the net that are in progress, by berth. -/
def otherLinks (s : State) : List (Nat × LinkProg) :=
  s.berths.filterMap (fun e => match e.2.ctx.wait with
    | .link p => if e.1 = s.cur ∨ e.2.ctx.net ≠ s.th.net then none else some (e.1, p)
    | _ => none)

/-- A party of a meeting: its berth, its program, its side there, and its other side. -/
structure Party where
  berth : Nat
  prog : LinkProg
  here : WireSide
  rest : WireSide
  deriving DecidableEq, Repr

def partyWith (f : WireSide → Bool) (s : State) : Option Party :=
  (otherLinks s).findSome? (fun e => match e.2.sides with
    | [l, r] => if f l then some ⟨e.1, e.2, l, r⟩ else if f r then some ⟨e.1, e.2, r, l⟩ else none
    | _ => none)

/-- The party that is to join the wire at the slot through which this `link` reaches a side, or has made its half-join there. -/
def facing (s : State) (x : WireSide) : Option Party :=
  x.face.bind (fun a => partyWith (fun y => y.port == a && (y.face == none || y.face == some x.port)) s)

/-- The other party of a meeting on a side: the one that faces this `link`, or that reaches its own port through the slot found. -/
def partyOf (s : State) (x : WireSide) : Option Party :=
  match facing s x with
  | some o => some o
  | none => partyWith (fun y => y.face == some x.port) s

/-- A `link` of the net that has claimed the slot and not yet redirected all its old ends. -/
def claiming (s : State) (slot : Word) : Bool := (otherLinks s).any (fun e => e.2.sides == [] && e.2.gone.isNone && !e.2.resolved && e.2.olds.any (·.slot == slot))

/-- The slot of a meeting's other party has been found to hold REDIR(c): the party's cell names the port to go on to, and what that port's slot
    holds (02 R39). -/
def cellOf (redir : Word) (s : State) : Run ((Nat × Word × Word) × State) :=
  reading (access1 s (addrOf redir) 16 1 false needRW) fun c s => loading c 16 s fun l s =>
    let y := bytesWord (l.take 8)
    let e := bytesWord (l.drop 8)
    if farOk y && (e == holdWord || (portOk e && tagOf e == 1)) then .ok ((c, y, e), s) else fail .linkCorrupt

/-- The completing party of a meeting goes on with the other party's other side (02 R41): EMPTY goes into the other party's slot, at key k, and the
    two half-joins are left to be made, its own target's first. Where the other party has completed no meeting itself, its cell, found through
    `redir`, names that side; and where it runs no more, its cell is all there is. -/
def completeMeeting (p : LinkProg) (me oth : WireSide) (k : Nat) (redir : Word) (o : Option Party) (s : State) : LinkOut :=
  match cellOf redir s with
  | .error e => linkStop p e s
  | .ok ((c, y, e), s) =>
    let s := writeSlot k 0 s
    match o with
    | some o =>
      let alt := if tagOf e = 1 then o.here.port else 0
      let rest := if o.prog.grown then o.rest else { o.rest with port := y, exp := e, alt := alt }
      let s := s.setCtx o.berth { s.ctx o.berth with
        wait := .link { o.prog with sides := [], cells := [], gone := o.here.face, status := o.prog.status ||| 2 } }
      .going ({ p with
        sides := [{ oth with made := false }, { rest with made := false }], grown := true, status := p.status ||| 4
        cells := p.cells ++ o.prog.cells ++ me.cell.toList ++ o.here.cell.toList } : LinkProg).settle s
    | none =>
      let rest : WireSide := { port := y, exp := e, alt := if tagOf e = 1 then me.face.getD 0 else 0, face := if tagOf e = 1 then some e else none }
      .going ({ p with
        sides := [{ oth with made := false }, rest], grown := true, status := p.status ||| 4, cells := p.cells ++ me.cell.toList ++ [c] } : LinkProg).settle s

/-- Whether a `link` completes the meeting on its side `me` (02 R41): its slot is the lower; or it has made its own half-join there already, and the
    other party, which has claimed its slot after that, waits for it. -/
def completes (me : WireSide) (o : Option Party) : Bool :=
  match me.face, o with
  | none, _ => true
  | some a, some o => (match o.here.face with | some b => slotNo a ≤ slotNo b | none => false)
  | some a, none => slotNo a ≤ slotNo me.port

/-- The other old end of a `link` with two, for the half-join on its side `me` (02 R41). -/
def otherEnd (p : LinkProg) (me oth : WireSide) : Option Word :=
  match p.olds with
  | [a, b] => some (if oth.face = some a.slot ∨ (oth.face ≠ some b.slot ∧ me.face ≠ some a.slot) then a.slot else b.slot)
  | _ => none

/-- A half-join that finds a value which R40 has no other row for (02 R41, work already done): with two old ends the slot of the other one is read, and
    where it reads EMPTY, a completer has joined the wire through that end, and the `link` writes no more. Else the value faults LINK_CORRUPT. -/
def workDone (p : LinkProg) (me oth : WireSide) (s : State) : LinkOut :=
  match otherEnd p me oth with
  | none => linkFault .linkCorrupt s
  | some a =>
    match access1 s (addrOf a) 8 1 false needRW with
    | .error e => linkStop p e s
    | .ok (k, s) =>
      let (w, s) := readSlot k s
      if w = 0 then .going { p with sides := [], resolved := true, cells := p.cells ++ me.cell.toList } s else linkFault .linkCorrupt s

/-- The half-join on one side of the wire (02 R39 R40): a compare-and-swap of the port's slot, which acts on what it finds; on the second side only a
    meeting is completed while the first is open. The deferring party of a meeting changes nothing. Where a `link` of two old ends has made its first
    half-join alone and another has then claimed that slot, the other's swap waits for the second half-join: R40 gives its find LINK_CORRUPT, and R42
    and R44 want the wire made (log entry 16). -/
def halfJoin (p : LinkProg) (first : Bool) (me oth : WireSide) (s : State) : LinkOut :=
  let sides := fun (me oth : WireSide) => if first then [me, oth] else [oth, me]
  if (match facing s me with | some o => o.here.face.isNone | none => false) then .wait p s
  else
    match slotKey s me.port with
    | .error e => linkStop p e s
    | .ok (none, s) => .going ({ p with sides := sides { me with made := true } oth } : LinkProg).settle s
    | .ok (some k, s) =>
      let hit := fun (w : Word) => w == me.exp || (me.alt != 0 && w == me.alt)
      let due := first || !oth.open
      let r := clrRmw k 8 (fun l => if due && hit (bytesWord l) then some (wordBytes oth.port) else none) s
      let w := bytesWord r.1
      let s := r.2
      if hit w && !due then .wait p s
      else if hit w then
        .going ({ p with
          sides := sides { me with exp := oth.port, alt := 0, face := none, cell := none, made := true } oth
          cells := p.cells ++ me.cell.toList } : LinkProg).settle s
      else if w = holdWord ∧ tagOf me.exp = 1 then .wait { p with onHold := true } s
      else if tagOf w = 3 ∧ portOk w then
        let o := partyOf s me
        if o.isNone && claiming s me.port then .wait { p with onHold := true } s
        else if !completes me o then .wait p s
        else
          match slotKey s (match o with | some o => o.here.face.getD me.port | none => me.port) with
          | .error e => linkStop p e s
          | .ok (none, s) => linkFault .linkCorrupt s
          | .ok (some k, s) => completeMeeting p me oth k w o s
      else if portOk w = false ∨ w = holdWord then linkFault .linkCorrupt s
      else workDone p me oth s

/-- An own slot that reads EMPTY: another party has completed the wire through it, and the `link` makes no further write (02 R41). A word in it that
    breaks R27 faults. -/
def taken (l : List WireSide) (s : State) : Run (Bool × State) :=
  match l with
  | [] => .ok (false, s)
  | x :: r =>
    match x.face with
    | none => taken r s
    | some a =>
      reading (access1 s (addrOf a) 8 1 false needRW) fun k s =>
        let (w, u) := readSlot k s
        if w = 0 then .ok (true, u) else stopsAt u (if portOk w then taken r u else fail .linkCorrupt)

/-- Whether a chain has closed on itself: a side leads to the slot that the other is reached through, and no other party is left on it. -/
def ring (l r : WireSide) (s : State) : Bool :=
  (l.face == some r.port || r.face == some l.port) && (facing s l).isNone && (facing s r).isNone

/-- The closed wire of a chain leaves EMPTY in the slots that the `link` has before it (11 R202). -/
def closeRing (p : LinkProg) (l r : WireSide) (s : State) : LinkOut :=
  match wire (l.face.getD 0) 0 s with
  | .error e => linkStop p e s
  | .ok s =>
    match wire (r.face.getD 0) 0 s with
    | .error e => linkStop p e s
    | .ok s => .going { p with sides := [], resolved := true, cells := p.cells ++ [l, r].filterMap (·.cell) } s

/-- Whether a `link` in progress still has a slot of `p` before it. -/
def onSlotOf (p : LinkProg) (e : LinkProg) : Bool := p.olds.any (fun o => e.gone == some o.slot || e.sides.any (·.face == some o.slot))

/-- A `link` that deferred ends once its slot reads EMPTY, and no other party is left to join a wire through another slot of its (02 R33 R41). A word in
    it that breaks R27 faults. -/
def endDeferred (p : LinkProg) (slot : Word) (s : State) : LinkOut :=
  match access1 s (addrOf slot) 8 1 false needRW with
  | .error e => linkStop p e s
  | .ok (k, s) =>
    let (w, s) := readSlot k s
    if portOk w = false then linkFault .linkCorrupt s
    else if w = 0 ∧ (otherLinks s).all (fun e => !onSlotOf p e.2) then .going { p with resolved := true } s
    else .wait p s

/-- Step 3 of 02 R39, once every old end is redirected: the next half-join. Where the first side has to wait for another party of a meeting, the
    second is looked at. -/
def resolve (p : LinkProg) (s : State) : LinkOut :=
  match p.gone, p.sides with
  | some f, _ => endDeferred p f s
  | none, [l, r] =>
    (match taken (p.sides.filter WireSide.open) s with
     | .error e => linkStop p e s
     | .ok (true, s) => .going { p with status := p.status ||| 2, sides := [], resolved := true } s
     | .ok (false, s) =>
       if ring l r s then closeRing p l r s
       else if l.open then
         (match halfJoin p true l r s with
          | .wait q t => if !q.onHold && q.rehome.isNone && r.open then halfJoin q false r l t else .wait q t
          | o => o)
       else if r.open then halfJoin p false r l s
       else .going p.settle s)
  | none, _ => .going { p with resolved := true } s

/-! ### The acts of a `link` -/

/-- Changes one old end of a `link`. -/
def setOld (p : LinkProg) (slot : Word) (f : OldEnd → OldEnd) : LinkProg :=
  { p with olds := p.olds.map (fun o => if o.slot = slot then f o else o) }

/-- A fault gives back the cells that no slot names yet (log entry 70). -/
def linkEndsIn (p : LinkProg) (o : LinkOut) : LinkOut :=
  match o with
  | .fault f s => .fault f ((p.olds.filter (fun o => !o.redirected)).foldl (fun s o => returnCell s.th.net s.quad o.cell s) s)
  | o => o

/-- The claim of an old end (02 R39 step 1): its slot is exchanged with HOLD. A claim that returns REDIR faults as one that returns HOLD or EMPTY does,
    where 02 R40 and 11 R202 name those two alone (log entry 90). -/
def claim (p : LinkProg) (o : OldEnd) (s : State) : LinkOut :=
  match access1 s (addrOf o.slot) 8 1 false needRW with
  | .error e => linkStop p e s
  | .ok (k, s) =>
    let r := clrRmw k 8 (fun _ => some (wordBytes holdWord)) s
    let far := bytesWord r.1
    if farOk far then .going (setOld p o.slot (fun o => { o with claimed := true, far := far })) r.2 else linkFault .linkCorrupt r.2

/-- What an old end's cell names (02 R39 step 2): the port its slot is to reach, and what that port's slot holds now. -/
def targetOf (p : LinkProg) (o : OldEnd) : Word × Word :=
  match p.olds.find? (fun x => x.slot != o.slot) with
  | some x => (x.far, x.slot)
  | none => (p.new, holdWord)

/-- The last redirect begins the half-joins. -/
def redirected (p : LinkProg) (slot : Word) (q : Nat) : LinkProg :=
  let p := setOld p slot (fun o => { o with redirected := true })
  if p.olds.all (·.redirected) then p.start q else p

/-- The redirect of an old end (02 R39 step 2): the cell is filled, and the slot receives REDIR(cell). -/
def redirect (p : LinkProg) (o : OldEnd) (s : State) : LinkOut :=
  match access1 s (addrOf o.slot) 8 1 false needRW with
  | .error e => linkStop p e s
  | .ok (k, s) =>
    let t := targetOf p o
    let s := clrStore (purseKey s.quad o.cell) (wordBytes t.1 ++ wordBytes t.2) s
    .going (redirected p o.slot s.quad) (writeSlot k (s.net.port s 3 s.quad o.cell) s)

/-- Two old ends of one wire: it closes on itself (11 R202). -/
def closed (p : LinkProg) : Bool :=
  match p.olds with
  | [a, b] => a.far == b.slot && b.far == a.slot
  | _ => false

def closeWire (p : LinkProg) (s : State) : LinkOut :=
  match wire ((p.olds.headD { slot := 0, cell := 0 }).slot) 0 s with
  | .error e => linkStop p e s
  | .ok s =>
    match wire ((p.olds.headD { slot := 0, cell := 0 }).far) 0 s with
    | .error e => linkStop p e s
    | .ok s => .going { p with resolved := true, cells := p.olds.map (fun o => purseKey s.quad o.cell) } s

/-- Whether a side of a redex is a RANGE node (02 R34): the `link` reads its header, which R23 and R30 may refuse. -/
def rangeSide (w : Word) (s : State) : Run (Bool × State) :=
  if tagOf w = 2 then
    reading (access1 s (addrOf w) 8 1 false needR) fun k s => loading k 8 s fun l s =>
      let h := bytesWord l
      if headerOk h then .ok (hdrKind h == 0xFE, s) else fail .linkCorrupt
  else .ok (false, s)

/-- The push of a resulting redex (02 R42, of type 1 with a RANGE side, R34): a coin below two waits for a borrow, a full spill pool for room;
    that stall is journalled (13 R239). -/
def linkPush (p : LinkProg) (a b : Word) (s : State) : LinkOut :=
  match rangeSide a s with
  | .error e => linkStop p e s
  | .ok (ra, s) =>
    match rangeSide b s with
    | .error e => linkStop p e s
    | .ok (rb, s) =>
      match coinSplit s with
      | .error _ => .wait p s
      | .ok (coin, t) =>
        match pushRec t.quad { a := a, b := b, coin := coin, net := t.th.net, cls := t.th.cls, typ := if ra || rb then 1 else 0, time := t.th.pts } t with
        | none => .wait p (noteDry s)
        | some t => .going { p with push := none, status := p.status ||| 1 } t

/-- One atomic act of a `link`: the next claim, the next redirect, the next half-join or meeting, the push. -/
def linkAct (p : LinkProg) (s : State) : LinkOut :=
  match p.olds.find? (fun o => !o.claimed) with
  | some o => claim p o s
  | none =>
    if p.resolved then
      match p.push with
      | some (a, b) => linkPush p a b s
      | none => .wait p s
    else if closed p then closeWire p s
    else
      match p.olds.find? (fun o => !o.redirected) with
      | some o => redirect p o s
      | none => resolve p s

/-- Nothing is left to be done. -/
def LinkProg.over (p : LinkProg) : Bool := p.olds.all (·.claimed) && p.resolved && p.push.isNone

/-- Up to a number of acts. -/
def linkActs : Nat → LinkProg → State → LinkOut
  | 0, p, s => .going p s
  | k + 1, p, s =>
    if p.over then .going p s
    else
      match linkEndsIn p (linkAct { p with onHold := false } s) with
      | .going p s => linkActs k p s
      | o => o

/-- The end of a `link`: its cells and those of the meetings it completed go back, and rd receives the status (11 R200 R201, 02 R41). -/
def linkEnd (p : LinkProg) (s : State) : State :=
  let s := p.cells.foldl reclaim s
  ((s.xw p.rd (BitVec.ofNat 64 p.status)).pass 4).away

/-- Leaves rotation in a `link`; a try that changes nothing is part of one wait (17 R308). -/
def linkStay (p q : LinkProg) (s : State) : State := if s.th.wait = .link p ∧ q = p then s else s.leave s.cur (.link q)

/-- Runs a `link` as far as the budget lets it (log entry 2), by one act at least. -/
def linkRun (p : LinkProg) (s : State) : State :=
  match linkActs (s.linkBudget.getD 63 + 1) p s with
  | .fault f s => takeFault f s
  | .going q s => if q.over then linkEnd q s else linkStay p q s
  | .wait q s => linkStay p q s

/-- Two new ends (11 R202): plain writes, then a push where both are PRIN or IMM. -/
def linkNew (d : Reg) (a : Word) (ka : Option Nat) (b : Word) (kb : Option Nat) (s : State) : State :=
  let s := match ka with | some k => writeSlot k b s | none => s
  let s := match kb with | some k => writeSlot k a s | none => s
  linkRun { rd := d, resolved := true, push := redexOf a b } s

/-- A new end's slot must hold HOLD (11 R201 step 3): a read of the thread. -/
def holdsHold (s : State) (old : Bool) (k : Option Nat) : Bool × State :=
  match old, k with
  | false, some k =>
    let (l, s) := clrLoad k 8 s
    (bytesWord l == holdWord, s)
  | _, _ => (true, s)

/-- The checks of a `link` before any write (11 R200 R201 R203): the slots' keys, and the cells taken. End a is checked wholly, then end b, then that
    they do not share a slot: no rule orders those causes (log entry 98). -/
def linkChecks (wa wb : Word) (aOld bOld : Bool) (s : State) : Run (Option Nat × Option Nat × List Nat × State) := do
  need (endOk aOld wa && endOk bOld wb) .linkCorrupt
  reading (slotKey s wa) fun ka s =>
    reading (slotKey s wb) fun kb s => do
      need (!(ka.isSome && ka == kb)) .linkCorrupt
      let n := (if aOld then 1 else 0) + (if bOld then 1 else 0)
      match takeCells s.th.net s.quad n s with
      | none => waitOn (.cells n)
      | some (cells, t) =>
        let (ha, u) := holdsHold s aOld ka
        let (hb, u) := holdsHold u bOld kb
        stopsAt u (need (ha && hb) .linkCorrupt)
        .ok (ka, kb, cells, { u with netqs := t.netqs })

def oldEnd (slot : Word) (cell : Nat) : OldEnd := { slot := slot, cell := cell }

def execLink (d a b : Reg) (aOld bOld : Bool) (s : State) : Result :=
  let wa := s.x a
  let wb := s.x b
  match linkChecks wa wb aOld bOld s with
  | .error e => finish s (.error e)
  | .ok (ka, kb, cells, t) =>
    let t := publish .module t
    match aOld, bOld, cells with
    | true, true, [o1, o2] => .next (linkRun { rd := d, olds := [oldEnd wa o1, oldEnd wb o2] } t)
    | true, false, [o] => .next (linkRun { rd := d, olds := [oldEnd wa o], new := wb } t)
    | false, true, [o] => .next (linkRun { rd := d, olds := [oldEnd wb o], new := wa } t)
    | _, _, _ => .next (linkNew d wa ka wb kb t)

/-! ### grab (11 R204) -/

/-- A far port as `grab` takes it: of an IMM word R204 has the kind checked by R23 alone. -/
def grabOk (w : Word) : Bool := if isImm w then kindOk (immKind w) else portOk w && (tagOf w == 1 || tagOf w == 2)

def grabRun (d a h : Reg) (s : State) : Run State := do
  need (!(d == h && d != 0)) .illegal
  let w := s.x a
  need (endOk true w) .linkCorrupt
  reading (access1 s (addrOf w) 8 1 false needR) fun k s => loading k 8 s fun l s => do
    let p := bytesWord l
    need (grabOk p) .linkCorrupt
    if tagOf p = 2 then
      reading (access1 s (addrOf p) 8 1 false needR) fun k s => loading k 8 s fun l s => do
        let hd := bytesWord l
        need (headerOk hd) .linkCorrupt
        .ok (((s.xw d p).xw h hd).pass 4).away
    else .ok (((s.xw d p).xw h 0).pass 4).away

def execGrab (d a h : Reg) (s : State) : Result := finish s (grabRun d a h s)

end Sys2Proof.Machine
end

