-- ==== Sys2Proof/Machine/Control.lean ====
section
/-!
DEFINITION. Control, rule and net instructions (15 R259 to R280).
-/

namespace Sys2Proof.Machine

/-! ### Branches (15 R260 R261) -/

def execB (disp : BitVec 25) (s : State) : Result := .next (s.setTh { s.th with pc := branchTo s.th.pc disp })
def execBExt (disp : BitVec 53) (s : State) : Result := .next (s.setTh { s.th with pc := branchTo s.th.pc disp })

/-- `bl` writes the address after its own n bytes into x15 (15 R260). -/
def linkReg (s : State) (d : Reg) (n : Nat) : State := s.xw d ((s.th.pc + BitVec.ofNat 56 n).zeroExtend 64)

def execBl (disp : BitVec 25) (s : State) : Result :=
  let t := linkReg s 15 4
  .next (t.setTh { t.th with pc := branchTo s.th.pc disp })
def execBlExt (disp : BitVec 53) (s : State) : Result :=
  let t := linkReg s 15 8
  .next (t.setTh { t.th with pc := branchTo s.th.pc disp })

/-- A jump to Wrap(v, 56) (15 R261): bits 1:0 not zero fault ALIGN before any write. -/
def jumpRun (d : Reg) (v : Word) (s : State) : Run State :=
  if v.toNat % 4 ≠ 0 then fail .align
  else
    let t := linkReg s d 4
    .ok (t.setTh { t.th with pc := v.setWidth 56 })

def execJr (d a : Reg) (s : State) : Result := finish s (jumpRun d (s.x a) s)
def execRet (s : State) : Result := finish s (jumpRun 0 (s.x 15) s)

/-! ### Node cells (15 R262 R263) -/

/-- What `nalloc` writes: header, HOLD into every slot, zero into every inline payload word (15 R262). -/
def freshNode (h : Word) : List Byte :=
  wordBytes h ++ (List.replicate (1 + hdrArity h) (wordBytes holdWord)).flatten ++ zeros (hdrLen h)

def nallocRun (d a : Reg) (s : State) : Run State :=
  let h := s.x a
  if !headerOk h || hdrKind h == 0xFF then fail .linkCorrupt
  else
    match allocNode s.th.net s.quad (nodeSize h) s with
    | none => .ok ((s.xw d 0).pass 4)
    | some (off, t) => .ok (((clrStore (purseKey s.quad off) (freshNode h) t).xw d (s.net.port s 2 s.quad off)).pass 4)

def execNalloc (d a : Reg) (s : State) : Result := finish s (nallocRun d a s)

/-- Whether a slot of the node at a key keeps it from being freed: an auxiliary slot that holds HOLD (02 R33), or any slot with a word that
    02 R27 refuses wherever `nfree` reads it. The principal slot of a node that was pushed and never wired still holds HOLD when its body
    frees the node, as 20 R333 does (log entry 26). -/
def slotRefused (s : State) (k : Nat) (h : Word) : Bool :=
  (List.range (min (hdrArity h) 6 + 1)).any (fun i => let w := bankWord s (k + 8 + 8 * i); !portOk w || (i != 0 && w == holdWord))

/-- The bytes that `nfree` reads and writes as one (15 R263): the header and every slot of a node; of what is no node its header alone. -/
def nodeBytes (s : State) (k : Nat) : Nat :=
  let nq := s.netq s.th.net (keyQuad k)
  if k = handlerKey s s.th.net ∨ nq.nodes.any (fun c => c.1 == keyOff k) then 16 + 8 * min (hdrArity (bankWord s k)) 6 else 8

def nfreeRun (a : Reg) (s : State) : Run State := do
  let w := s.x a
  need (tagOf w == 0 || portOk w) .linkCorrupt
  needAt (tagOf w == 0 || tagOf w == 2) .access w
  let (k, _) ← access1 s (addrOf w) 8 1 true needRW
  let len := nodeBytes s k
  let (_, t) ← access1 s (addrOf w) len 1 true needRW
  need (k != handlerKey t t.th.net) .linkCorrupt
  let q := keyQuad k
  let nq := t.netq t.th.net q
  needAt (nq.freed.contains (keyOff k) || nq.nodes.any (fun c => c.1 == keyOff k)) .access (addrOf w)
  let h := bankWord t k
  need (!nq.freed.contains (keyOff k) && hdrKind h != 0) .linkCorrupt
  need (!slotRefused t k h) .linkCorrupt
  let u := (clrRmw k len (fun l => some (zeros 8 ++ l.drop 8)) (publish .module t)).2
  let u := u.setNetq u.th.net q { u.netq u.th.net q with nodes := nq.nodes.filter (fun c => c.1 != keyOff k), freed := keyOff k :: nq.freed }
  .ok ((u.pass 4).awayUnless (isLocal s k && !hasStores s))

def execNfree (a : Reg) (s : State) : Result := finish s (nfreeRun a s)

/-! ### Making work (15 R264 R271) -/

/-- A target quad named in the form of `%quad` (15 R264): nonzero bits above it, or a quad that is no quad of the net, fault ACCESS. -/
def targetQuad (s : State) (v : Word) (width : Nat) : Run Nat :=
  if bits v.toNat 63 width ≠ 0 then fail .access
  else match s.net.ofForm s (bits v.toNat 17 0) with
    | some q => .ok q
    | none => fail .access

/-- A record sent over the near net; the thread waits until its receiver has entered it. -/
def sendRec (q : Nat) (r : Rec) (s : State) : State :=
  (({ s with msgs := s.msgs ++ [({ src := s.quad, dst := q, body := .redex r (some s.th.tid) } : Msg)] } : State).pass 4).leave s.cur .sent

/-- Enters a record locally, or sends it (15 R264 R268). -/
def placeRec (q : Nat) (r : Rec) (s : State) : Run State :=
  if q = s.quad then
    match pushRun q r s with
    | .error e => .error e
    | .ok t => .ok (t.pass 4)
  else .ok (sendRec q r s)

def redexRun (q a b : Reg) (range : Bool) (s : State) : Run State := do
  need (sideOk (s.x a) && sideOk (s.x b)) .linkCorrupt
  let dst ← if q = 0 then .ok s.quad else targetQuad s (s.x q) 18
  let (coin, t) ← coinSplit s
  let u ← placeRec dst { a := s.x a, b := s.x b, coin := coin, net := s.th.net, cls := s.th.cls, typ := if range then 1 else 0, time := s.now } t
  -- a local push that spills leaves rotation (15 R259)
  .ok (u.awayUnless (dst != s.quad || !spills t dst s.th.net))

def execRedex (q a b : Reg) (range : Bool) (s : State) : Result := finish s (redexRun q a b range s)

def execDone (s : State) : Result := finish s (endThread s)

/-- x1 to x7, as a context carries them (15 R270). -/
def contextRegs (c : Ctx) : List Word := (c.regs.toList.drop 1).take 7

/-- `spawn` (15 R271): half of the thread's coin goes with a context for a core. A full arrival queue of its own core keeps the thread in
    rotation while the context finds room in the spill area: R259 names queue room, R271 has such a spawn wait only for the borrow (log entry 86). -/
def spawnRun (a b : Reg) (s : State) : Run State := do
  let v := s.x b
  let dst ← if b = 0 then .ok s.quad else targetQuad s v 20
  let core := if b = 0 then coreOf s.cur else bits v.toNat 19 18
  need ((s.x a).toNat % 4 == 0) .align
  let (coin, t) ← coinSplit s
  let c : Context := { net := s.th.net, cls := s.th.cls, pts := s.now, x := contextRegs s.th, pc := (s.x a).setWidth 56, coin := coin, quad := dst, core := core }
  if 4 * dst + core = coreId s.cur then
    match arrive (4 * dst + core) c t with
    | none => waitOn .spill
    | some t => .ok (t.pass 4)
  else .ok ((({ t with msgs := t.msgs ++ [({ src := s.quad, dst := dst, body := .context c (some s.th.tid) } : Msg)] } : State).pass 4).leave s.cur .sent)

def execSpawn (a b : Reg) (s : State) : Result := finish s (spawnRun a b s)

/-! ### Ranges (15 R266 R268, 02 R35) -/

def rnextRun (d : Reg) (s : State) : Run State :=
  match s.th.range with
  | none => .ok ((s.xw d (-1)).pass 4)
  | some (_, node) =>
    (rangeGranule s node).map (fun (k, t) =>
      let draw := fun (g : List Byte) => if dbl g 0 < dbl g 8 then some (leBytes 8 (dbl g 0 + 1) ++ g.drop 8) else none
      let r := clrRmw k 16 draw (publish .module t)
      ((r.2.xw d (if dbl r.1 0 < dbl r.1 8 then BitVec.ofNat 64 (dbl r.1 0) else -1)).pass 4).awayUnless (isLocal s k && !hasStores s))

def execRnext (d : Reg) (s : State) : Result := finish s (rnextRun d s)

/-- k doubles from an address on, as a quad's hardware reads them for a net, with the latest clearing time. -/
def hwDoubles (n q p : Nat) : Nat → Word → State → Run ((Nat × List Byte) × State)
  | 0, _, s => .ok ((p, []), s)
  | k + 1, a, s =>
    reading (hwRead n q p a 8 s) fun x s =>
      match hwDoubles n q p k (a + 8) s with
      | .error e => .error e
      | .ok (y, s) => .ok ((max x.1 y.1, x.2 ++ y.2), s)

/-- A body node as the quad's hardware reads it to duplicate it (02 R35 R37), with the latest clearing time: header and inline payload; an IMM body
    has neither. -/
def readBody (n q p : Nat) (body : Word) (s : State) : Run ((Option (Word × List Byte) × Nat) × State) :=
  if isImm body then .ok ((none, p), s)
  else
    reading (hwRead n q p (addrOf body) 8 s) fun x s =>
      let h := bytesWord x.2
      reading (hwDoubles n q p (hdrLen h / 8) (addrOf body + BitVec.ofNat 64 (16 + 8 * hdrArity h)) s) fun y s =>
        .ok ((some (h, y.2), max x.1 y.1), s)

/-- The virtual address of a sealed payload's count (02 R30 R36). -/
def countAddr (h : Word) : Nat := bits h.toNat 47 0 * 256

/-- The checks of a body's sealed count, which a duplicate of the body raises (02 R37): its key; 0 without one. -/
def countKey (n q : Nat) (h : Word) (s : State) : Run (Nat × State) :=
  if !hdrS h then .ok (0, s)
  else reading (globAccess s q n (countAddr h) 8 needRW) fun k s => if poisoned s k 8 then fail .poison else .ok (k, hwRequest q k s)

/-- The count of a sealed payload rises by one (02 R37), by one read-modify-write at the block's bank from program time p: its clearing time. -/
def raiseCount (k p : Nat) (h : Word) (s : State) : Nat × State :=
  if !hdrS h then (p, s)
  else
    let s := settleLine s (k / 256)
    bankStore p s k (wordBytes (bankWord s k + 1))

/-- A RANGE node [lo, hi) and a duplicate of the body node, in the net's pool of quad `dst` (02 R35), written from program time p: their ports, and
    the latest clearing time; `none` where a cell lacks. An IMM body is no node: the thief's record holds the same word, and one cell is asked for, where
    R35, R37 and R268 give no duplicate of one (log entry 100). -/
def splitNodes (n dst p : Nat) (body : Word) (info : Option (Word × List Byte)) (lo hi : Nat) (s : State) : Option (Word × Word × Nat × State) :=
  let nr := s.netRec n
  match allocNode n dst 32 s with
  | none => none
  | some (ro, s) =>
    let (x, s) := bankStore p s (purseKey dst ro) (leBytes 8 0xFE04000000000010 ++ wordBytes holdWord ++ leBytes 8 lo ++ leBytes 8 hi)
    match info with
    | none => some (body, nr.port s 2 dst ro, x, s)
    | some (h, l) =>
      match allocNode n dst (nodeSize h) s with
      | none => none
      | some (bo, s) =>
        let (y, s) := bankStore p s (purseKey dst bo) (wordBytes h ++ wordBytes holdWord ++ l)
        some (nr.port s 2 dst bo, nr.port s 2 dst ro, max x y, s)

def bodyArity (info : Option (Word × List Byte)) : Nat := match info with | some (h, _) => hdrArity h | none => 0

/-- Whether the body node of a split lies in the issuing quad's purse, or inline: any other is a remote read (15 R259). -/
def bodyHere (s : State) (body : Word) : Bool :=
  isImm body || (match access1 s (addrOf body) 8 1 true needR with | .ok (k, _) => isLocal s k | .error _ => false)

/-- The read-modify-write of an `rsplit` that finds nothing to split. -/
def splitNone (d : Reg) (k : Nat) (here : Bool) (s : State) : State :=
  (((clrRmw k 16 (fun _ => none) s).2.xw d 0).pass 4).awayUnless here

/-- The writes of an `rsplit` whose nodes stand: the count, hi, rd and the record. Its read-modify-write publishes nothing, where 09 R172 calls every such
    one of a thread a release write and R168, R259 and R268 name no publication for it (log entry 99). -/
def splitWrites (d : Reg) (dst k ck coin mid hi : Nat) (bw rw h : Word) (s : State) : Run State :=
  let (time, s) := raiseCount ck s.now h s
  let s := (clrRmw k 16 (fun g => some (g.take 8 ++ leBytes 8 mid)) (s.raise s.cur time)).2
  let s := s.xw d (BitVec.ofNat 64 (hi - mid))
  placeRec dst { a := bw, b := rw, coin := coin, net := s.th.net, cls := s.th.cls, typ := 1, time := s.th.pts } s

/-- `rsplit` (15 R268). It leaves rotation where the RANGE granule, the body, a sealed count or the target is remote, and not for a spill of its own
    deque (15 R259). What stops it leaves its reads, and none of its nodes. -/
def rsplitRun (d a : Reg) (s : State) : Run State :=
  match s.th.range with
  | none => .ok ((s.xw d 0).pass 4)
  | some (body, node) => do
    let dst ← if a = 0 then .ok s.quad else targetQuad s (s.x a) 18
    reading (rangeGranule s node) fun k t =>
      let here := isLocal s k && bodyHere s body
      reading (readBody t.th.net t.quad t.now body t) fun b t =>
        let t := t.raise t.cur b.2
        let g := latest t k 16
        let lo := dbl g 0
        let hi := dbl g 8
        let mid := lo + (hi - lo + 1) / 2
        let h := match b.1 with | some (h, _) => h | none => 0
        if hi - lo < 2 ∨ bodyArity b.1 > 0 ∨ (splitNodes t.th.net t.quad t.now body b.1 mid hi t).isNone then .ok (splitNone d k here t)
        else
          reading (countKey t.th.net t.quad h t) fun ck t =>
            match splitNodes t.th.net t.quad t.now body b.1 mid hi t with
            | none => .ok (splitNone d k here t)
            | some (bw, rw, time, u) => do
              let (coin, u) ← coinSplit (u.raise u.cur time)
              let u ← splitWrites d dst k ck coin mid hi bw rw h u
              .ok (if here && !hdrS h || u.th.wait != .ready then u else u.away)

def execRsplit (d a : Reg) (s : State) : Result := finish s (rsplitRun d a s)

/-! ### migr (15 R272) -/

def migrRun (a : Reg) (s : State) : Run State :=
  let aw := s.x a
  match formOf aw with
  | none => failAt .access aw
  | some f =>
    match purseAccess s s.net s.quad f 1 with
    | none => failAt .access (faultAddr aw)
    | some k => do
      let s ← settleRange s
      let s := publishAt s.cur (endGangs s.cur s)
      let (coin, s) ← coinSplit s
      let c := s.th
      let x : Context :=
        { net := c.net, cls := c.cls, pts := s.now, x := contextRegs c, pc := c.pc + 4, coin := coin, quad := keyQuad k, core := keyOff k / 0xC000
          broken := c.broken, brokenVec := c.brokenVec }
      let s := { s with msgs := s.msgs ++ [({ src := s.quad, dst := keyQuad k, body := .context x none } : Msg)] }
      .ok (freeBerth s.cur (sendReturn c.net c.grains s.now s.quad s))

def execMigr (a : Reg) (s : State) : Result := finish s (migrRun a s)

/-! ### Barriers and reductions (15 R273 to R277) -/

/-- The checks of a rectangle word (15 R273). -/
def checkRect (red : Bool) (w : Word) (s : State) : Run Unit := do
  let v := w.toNat
  need (bits v 63 47 == 0 && bits v 43 43 == 0 && (if red then bits v 46 44 != 7 else bits v 46 44 == 0)) .format
  let nr := s.net
  let x0 := if nr.priv then 16 * nr.ox else 0
  let y0 := if nr.priv then 16 * nr.oy else 0
  need (x0 ≤ rectX w && rectX w + rectW w ≤ x0 + 16 * nr.wc && y0 ≤ rectY w && rectY w + rectH w ≤ y0 + 16 * nr.hc) .access
  let p := nr.corePlace s (coreId s.cur)
  need (inRect w p.1 p.2) .access

/-- The member cores of a rectangle by rows from the north-west (15 R273); absent and fused quads give none. -/
def rectRows (nr : NetRec) (s : State) (w : Word) : List (List Nat) :=
  (List.range (rectH w)).map (fun j => (List.range (rectW w)).filterMap (fun i =>
    let x := rectX w + i
    let y := rectY w + j
    (nr.toPhys s (x / 2) (y / 2)).map (fun q => 4 * q + 2 * (y % 2) + x % 2)))

/-- The core that gathers the arrivals: the north-west member. -/
def gatherCore (nr : NetRec) (s : State) (w : Word) : Nat := ((rectRows nr s w).flatten).headD 0

/-- An arrival (15 R274 R276): the core's first thread records the rectangle and sweeps; later ones join, but not in a reduction. -/
def arriveRun (w : Word) (red : Option (Reg × Word)) (s : State) : Run State := do
  checkRect red.isSome w s
  let n := s.th.net
  let core := coreId s.cur
  let k := rectK w
  let b := s.bar core n k
  let wait : Wait := match red with | some (d, _) => .red k b.gen d | none => .bar k b.gen
  if b.arrived then
    need (b.rect == w && b.isRed == red.isSome && red.isNone) .access
    .ok (({ s with bars := Tbl.set s.bars (barKey core n k) { b with time := max b.time s.now } } : State).leave s.cur wait)
  else
    let b := { b with arrived := true, rect := w, isRed := red.isSome, time := s.now }
    let s := { s with bars := Tbl.set s.bars (barKey core n k) b }
    let g := gatherCore s.net s w
    let v := match red with | some (_, v) => v | none => 0
    .ok ((({ s with msgs := s.msgs ++ [({ src := s.quad, dst := g / 4, body := .sweep n k core v g s.now } : Msg)] } : State)).leave s.cur wait)

def execBar (a : Reg) (s : State) : Result := finish s (arriveRun (s.x a) none s)
def execRed (d a b : Reg) (s : State) : Result := finish s (arriveRun (s.x a) (some (d, s.x b)) s)

/-! ### Waiting for quiet (15 R278, 14 R256) -/

/-- A waiter wakes: its report, the clearing time of the return that completed it, and its place past the `qwait` (14 R256). -/
def wokenCtx (c : Ctx) (n : Nat) (u : Due) (d : Reg) : Ctx :=
  { c with regs := setReg c.regs d u.report, pc := c.pc + 4, wait := .ready, pts := max c.pts u.time, woken := c.woken || (u.voided && n == c.net) }

/-- How many waiters the waiter table of a mint's home slice holds (14 R256). -/
def waitersAt (s : State) (slice : Nat) : Nat :=
  ((s.mints.filter (fun e => homeOf s (mintPa s e.1) == slice)).map (fun e => e.2.waiters.length + e.2.due.length)).sum

/-- Steps 2 and 3 of 14 R256 for a berth: woken at once, registered, or left to retry. -/
def readMint (b n : Nat) (d : Reg) (s : State) : State :=
  let m := s.mint n
  if m.st = .quiet ∨ m.st = .voided then
    let s := s.setCtx b (wokenCtx (s.ctx b) n { tid := s.tidAt b, report := reportWord m, time := m.time, voided := m.st == .voided } d)
    (s.raise b m.time).leave b .reply
  else if waitersAt s (homeOf s (mintPa s n)) < 64 then
    ({ s with mints := Tbl.set s.mints n { m with waiters := m.waiters ++ [s.tidAt b] } } : State).leave b (.qwait n d)
  else s.leave b (.qretry n d)

def qwaitRun (n : Nat) (d : Reg) (s : State) : State :=
  if n = s.th.net then
    let s := publishAt s.cur s
    let coin := s.th.grains
    let s := s.setTh { s.th with coin := 0, lent := 0 }
    let s := mintRequest s.quad n s
    readMint s.cur n d (if coin = 0 then s else mintReturn n coin s.now s)
  else readMint s.cur n d (mintRequest s.quad n s)

def execQwait (d : Reg) (s : State) : Result := .next (qwaitRun s.th.net d s)

def execQwaitNet (d a : Reg) (s : State) : Result :=
  let n := bits (s.x a).toNat 11 0
  finish s (do
    need (n == s.th.net || (s.net.priv && (Tbl.get? s.mints n).isSome)) .access
    .ok (qwaitRun n d s))

/-! ### Class and turn (15 R279 R280) -/

/-- A class above the net's is lowered to it, unless the net is privileged. -/
def capClass (s : State) (c : BitVec 2) : BitVec 2 := if s.net.priv then c else if s.net.cls.ult c then s.net.cls else c

def execCls (n : BitVec 2) (s : State) : Result := .next ((s.setTh { s.th with cls := capClass s n }).pass 4)
def execClsReg (a : Reg) (s : State) : Result := .next ((s.setTh { s.th with cls := capClass s ((s.x a).setWidth 2) }).pass 4)

def execYield (s : State) : Result :=
  let s := s.pass 4
  .next (s.setBerth s.cur { s.berth s.cur with gave := true })

end Sys2Proof.Machine
end

