-- ==== Sys2Proof/Machine/System.lean ====
section
/-!
DEFINITION. System instructions (17 R313 to R320) and the special and message registers (03 R50, 15 R281 to R283).
-/

namespace Sys2Proof.Machine

/-! ### trap and dbrk (17 R314 R319) -/

/-- The cause of a code that `trap` accepts (17 R297 R314). -/
def trapCause : Nat → Option Cause
  | 0 => some .illegal | 1 => some .mislanded | 2 => some .format | 3 => some .scaleSeq | 4 => some .align | 5 => some .page
  | 6 => some .access | 7 => some .expectRange | 8 => some .poison | 9 => some .linkCorrupt | 10 => some .gangBroken | 13 => some .debug
  | _ => none

def execTrap (a : Reg) (cause : BitVec 4) (s : State) : Result :=
  match trapCause cause.toNat with
  | none => finish s (fail .illegal)
  | some c => .next (takeFault { cause := c, sw := true, info := (s.x a).setWidth 32 } s)

/-- With debugging armed the quad halts for the net, the pc past the `dbrk`; else DEBUG (17 R319). -/
def execDbrk (code : BitVec 8) (s : State) : Result :=
  let nq := s.netq s.th.net s.quad
  if nq.armed then .next ((s.setNetq s.th.net s.quad { nq with halted := true }).pass 4)
  else .next (takeFault { cause := .debug, sw := true, info := code.zeroExtend 32 } s)

/-! ### eret (17 R303 R315) -/

/-- The block that a word names (17 R315): its key and number. The word is a PRIN word of a purse address, or that with its tag cleared (02 R27). -/
def blockOf (w : Word) (s : State) : Run (Nat × Nat) :=
  let v := w.toNat
  if !(tagOf w == 0 || tagOf w == 2) || bits v 59 36 != 0 || bits v 3 0 != 0 then fail .access
  else
    match purseAccess s s.net s.quad (.full (bits v 35 18) (bits v 17 0)) 704 with
    | none => fail .access
    | some k =>
      match [0, 1, 2, 3].find? (fun i => blockKey s s.th.net (keyQuad k) i == k) with
      | none => fail .access
      | some i => .ok (k, i)

/-- The thread goes on at the FAULT node's pc (17 R303; a pc has bits 1:0 zero, 03 R51). -/
def resumeAt (pc : Nat) (c : Ctx) : Ctx := { c with pc := BitVec.ofNat 56 (pc / 4 * 4), wait := .ready }

/-- The granules of the snapshot record of the fault block at a key. -/
def snapParts (k : Nat) : List (Nat × Nat) := (List.range 40).map (fun i => (k + 64 + 16 * i, 16))

/-- What a mode does to the parked thread (17 R303), from the doubles w and pc of its FAULT node: the status and the state after; status 4
    leaves the block held. -/
def eretMode (k w pc : Nat) (mode : BitVec 2) (s : State) : Run (Nat × State) :=
  let b := 64 * keyQuad k + bits w 19 18 * 16 + bits w 23 20
  match (if bits w 58 58 = 1 then none else findSeat s b k) with
  | none => .ok (3, s)
  | some x =>
    let lnk := bits w 57 57 == 1
    if mode = 2 then (dropSeat s x).map (fun s => (2, s))
    else if lnk || (mode == 0 && bits w 56 56 == 1) then .ok (4, s)
    else if mode = 0 then .ok (0, setSeat s (resumeAt pc (seatCtx s x)) x)
    else if poisoned s (k + 64) 640 then failAt .poison (s.net.purseWord s (keyQuad k) (keyOff k + 64))
    else loadingAll (snapParts k) s fun l s =>
      match reloadCtx (seatCtx s x) l with
      | none => fail .format
      | some c => .ok (1, setSeat s (resumeAt pc c) x)

/-- The block goes back to the reserve with its header zero, by one read-modify-write (17 R303, 11 R207). -/
def returnBlock (k i : Nat) (s : State) : State :=
  let n := s.th.net
  let q := keyQuad k
  let s := (clrRmw k 8 (fun _ => some (zeros 8)) s).2
  serveEng n q 4 (s.setNetq n q { s.netq n q with blocks := (s.netq n q).blocks.filter (· != i) })

def eretRun (d a : Reg) (mode : BitVec 2) (s : State) : Run State := do
  need (mode != 3) .illegal
  let (k, i) ← blockOf (s.x a) s
  needAt (!poisoned s k 32) .poison (addrOf (s.x a))
  loading k 8 s fun h s => do
    need (bytesWord h == 0xFF04000000000018) .linkCorrupt
    loading (k + 16) 16 s fun l s =>
      (eretMode k (dbl l 0) (dbl l 8) mode s).map (fun (st, t) =>
        let t := if st = 4 then t else returnBlock k i t
        ((t.xw d (BitVec.ofNat 64 st)).pass 4).away)

def execEret (d a : Reg) (mode : BitVec 2) (s : State) : Result := finish s (eretRun d a mode s)

/-! ### tlbi (17 R316, 08 R154 R156) -/

/-- Removes the entries of a net that overlap [lo, hi) from every translation cache. -/
def dropEntries (n lo hi : Nat) (s : State) : State :=
  { s with tlb := s.tlb.filter (fun t => !(t.net == n && t.va < hi && lo < t.va + 2 ^ t.bits)) }

/-- The net that a `tlbi` names, which only its own net or a privileged one may. -/
def tlbiNet (n : Reg) (named : Bool) (s : State) : Run Nat :=
  if !named then .ok s.th.net
  else
    let m := bits (s.x n).toNat 11 0
    if s.net.priv || m == s.th.net then .ok m else fail .access

def tlbiRun (n : Reg) (named : Bool) (lo hi : Nat) (s : State) : Run State := do
  let m ← tlbiNet n named s
  .ok (((dropEntries m lo hi (publish .module s)).pass 4).away)

/-- The 64 KiB pages that overlap [v, v + len), clipped at 2^56. -/
def pageSpan (v len : Nat) : Nat × Nat := if len = 0 then (0, 0) else (v / 65536 * 65536, min (2 ^ 56) ((v + len + 65535) / 65536 * 65536))

def execTlbi (n a b : Reg) (named : Bool) (s : State) : Result :=
  let sp := pageSpan (bits (s.x a).toNat 55 0) (s.x b).toNat
  finish s (tlbiRun n named sp.1 sp.2 s)
def execTlbiAll (n : Reg) (named : Bool) (s : State) : Result := finish s (tlbiRun n named 0 (2 ^ 56) s)

/-! ### save and rest (17 R317 R318) -/

/-- The checks on a record's range: 64-byte alignment, then those of 11 R189 over the whole. -/
def recordAccess (aw : Word) (nd : Need) (s : State) : Run (List (Nat × Nat) × State) :=
  if aw.toNat % 64 ≠ 0 then failAt .align (faultAddr aw) else access s aw 640 64 false nd false 16

def saveRun (a : Reg) (s : State) : Run State :=
  match recordAccess (s.x a) needW s with
  | .error e => .error e
  | .ok (ks, t) =>
    .ok (((clrStores t ks (snapshot s.th (s.th.pc + 4) 0)).pass 4).awayUnless (ks.all (fun k => isLocal s k.1)))

def execSave (a : Reg) (s : State) : Result := finish s (saveRun a s)

def restRun (a : Reg) (s : State) : Run State :=
  reading (recordAccess (s.x a) needR s) fun ks t => loadingAll ks t fun l t => do
    need (bits (dbl l 472) 63 52 == s.th.net) .access
    match reloadCtx t.th l with
    | none => fail .format
    | some c =>
      let pc := dbl l 448 % 2 ^ 56
      need (pc % 4 == 0) .align
      .ok ((t.setTh { c with pc := BitVec.ofNat 56 pc }).awayUnless (ks.all (fun k => isLocal s k.1)))

def execRest (a : Reg) (s : State) : Result := finish s (restRun a s)

/-! ### Special registers (03 R50, 17 R320) -/

/-- A teller channel of a quad, or its collector as channel 4 (12 R208). -/
def chanKey (q ch : Nat) : Nat := 8 * q + ch
def State.chan (s : State) (q ch : Nat) : Chan := Tbl.getD s.chans (chanKey q ch) {}
def State.setChan (s : State) (q ch : Nat) (c : Chan) : State := { s with chans := Tbl.set s.chans (chanKey q ch) c }

/-- What `srd` reads (03 R50); `none` for a number that is unassigned or write-only. -/
def specialReg (n : Nat) (s : State) : Option Nat :=
  let c := s.th
  let q := s.quad
  match n with
  | 0x000 => some c.grains
  | 0x001 => some c.pts
  | 0x002 => some c.cls.toNat
  | 0x003 => some c.net
  | 0x004 => some (s.net.form s q)
  | 0x005 => some (coreOf s.cur)
  | 0x006 => some (s.cur % 16)
  | 0x007 => some (s.net.place s q).1
  | 0x008 => some (s.net.place s q).2
  | 0x009 => some (if s.net.priv then 4 * (quadCount - s.fused.length) else 4 * s.net.quadCount s)
  | 0x00A => some s.net.spawnLim
  | 0x00B => some c.fflags.toNat
  | 0x00C => some (Tbl.getD s.bubbles (coreId s.cur) 0)
  | 0x00D => some (cycleOf s (dieOf q))
  | 0x020 => some (s.chan q 0).mark
  | 0x021 => some (s.chan q 1).mark
  | 0x022 => some (s.chan q 2).mark
  | 0x023 => some (s.chan q 3).mark
  | _ => none

/-- What a read does beside: `%pts` advances first (09 R164); a mark orders the thread after the completions it counts (09 R161). -/
def readEffect (n : Nat) (s : State) : State :=
  if n = 0x001 then s.raise s.cur s.now
  else if 0x020 ≤ n ∧ n ≤ 0x023 then s.raise s.cur (s.chan s.quad (n - 0x020)).time
  else s

def srdRun (d : Reg) (n : Nat) (s : State) : Run State :=
  let s := readEffect n s
  match specialReg n s with
  | none => fail .illegal
  | some v => .ok ((s.xw d (BitVec.ofNat 64 v)).pass 4)

def execSrd (d : Reg) (n : BitVec 12) (s : State) : Result := finish s (srdRun d n.toNat s)

/-- `%fflags` alone is writable by a general register (03 R50). -/
def swrRun (d : Reg) (n : Nat) (s : State) : Run State :=
  if n = 0x00B then .ok ((s.setTh { s.th with fflags := (s.x d).setWidth 5 }).pass 4) else fail .illegal

def execSwr (d : Reg) (n : BitVec 12) (s : State) : Result := finish s (swrRun d n.toNat s)

/-! ### Flits (15 R281 to R284) -/

/-- A receive takes the oldest flit; an empty queue parks the thread, the pc on the instruction (15 R283). -/
def execMqRcv (v : VIdx) (s : State) : Result :=
  match s.th.mq with
  | [] => .next (s.leave s.cur (.flit v))
  | (d, t) :: r =>
    let s := (s.setTh { s.th with mq := r }).raise s.cur t
    .next ((s.vw v { data := d, tag := .raw, side := 0 }).pass 4)

/-- The berth that a flit's header names for a net (15 R281); `none` for a quad that is none of the net's. -/
def flitDest (s : State) (data : VData) : Option Nat :=
  let h := data.toNat
  (s.net.ofForm s (bits h 17 0)).map (fun q => 64 * q + 16 * bits h 19 18 + bits h 23 20)

/-- A send (15 R282): the thread is out of rotation until the flit is accepted, and passes the instruction then. -/
def mqSndRun (v : VIdx) (s : State) : Run State :=
  let data := s.th.vecs[v].data
  match flitDest s data with
  | none => fail .access
  | some b =>
    let m : Msg := { src := s.quad, dst := quadOf b, body := .flit data b s.cur s.th.net s.now }
    .ok (({ s with msgs := s.msgs ++ [m] } : State).leave s.cur (.send data b))

def execMqSnd (v : VIdx) (s : State) : Result := finish s (mqSndRun v s)

end Sys2Proof.Machine
end

