-- ==== Sys2Proof/Machine/Matrix.lean ====
section
/-!
DEFINITION. What the matrix path and the assayer share: operand records, where rows and scale tiles lie, and the summation order (06 R105 to R118).
-/

namespace Sys2Proof.Machine

/-! ### Gangs (06 R105 R106 R118) -/

/-- The core of member (gx, gy). -/
def MGang.core (g : MGang) (gx gy : Nat) : Nat := coreAt (g.x0 + gx) (g.y0 + gy)
def MGang.cores (g : MGang) : List Nat := (List.range g.h).flatMap (fun y => (List.range g.w).map (fun x => g.core x y))
/-- The memory key of element (i, j) of C (06 R106). -/
def MGang.elem (g : MGang) (i j : Nat) : Nat :=
  let c := g.core (j / 32) (i / 32)
  purseKey (c / 4) (0xC000 * (c % 4) + 0xB000 + 128 * (i % 32) + 4 * (j % 32))
/-- Whether row i is live (06 R118). -/
def MGang.live (g : MGang) (i : Nat) : Bool :=
  match g.shape with
  | none => true
  | some l => l.any (fun e => e.1 ≤ i && i < e.1 + e.2)
def MGang.liveRows (g : MGang) : List Nat := (List.range (32 * g.h)).filter g.live
/-- Whether some row of a data tile of A is live. -/
def MGang.liveTile (g : MGang) (gy : Nat) : Bool := decide (gy < g.h) && (List.range 32).any (fun r => g.live (32 * gy + r))

/-- The matrix gang that the issuing thread leads. -/
def gangOf (s : State) : Run MGang :=
  match Tbl.get? s.mgangs s.cur with
  | some g => if s.th.broken then fail .gangBroken else .ok g
  | none => fail .gangBroken

def setGang (b : Nat) (g : MGang) (s : State) : State := { s with mgangs := Tbl.set s.mgangs b g }

/-! ### Operand records (06 R110 to R112) -/

def matTag (t : Nat) : Bool := t == 1 || t == 4 || t == 5 || t == 6 || t == 7 || t == 9
/-- The width of an element in bits. -/
def elemBits (t : Nat) : Nat := if t = 9 then 4 else if t = 6 ∨ t = 7 then 16 else 8
def blockSize (t : Nat) : Nat := if t = 9 then 8 else if t = 6 ∨ t = 7 then 2 else 4
def kOk (k : Nat) : Bool := k % 64 == 0 && 64 ≤ k && k ≤ 16384
/-- K elements in bytes. -/
def spanBytes (t k : Nat) : Nat := if t = 9 then k / 2 else if t = 6 ∨ t = 7 then 2 * k else k

/-- An operand record, unless it faults FORMAT. -/
def parseOperand (l : List Byte) : Option Operand :=
  let a := dbl l 0
  let b := dbl l 8
  let c := dbl l 16
  let o : Operand := { tag := bits a 63 60, base := bits a 55 0, seq0 := bits b 63 32, k := bits b 15 0, stride := bits c 19 0 }
  if matTag o.tag && bits a 59 56 == 0 && bits b 31 16 == 0 && kOk o.k && bits c 63 20 == 0 && dbl l 24 == 0 then some o else none

/-- The stride that 06 R112 asks for. -/
def Operand.strideOk (o : Operand) : Bool := o.stride % 32 == 0 && spanBytes o.tag o.k ≤ o.stride
def Operand.rowVa (o : Operand) (r : Nat) : Nat := o.base + r * o.stride

/-- A record of n bytes read by one access of the issuing thread. -/
def readRecord (aw : Word) (n align : Nat) (s : State) : Run (List Byte × State) :=
  match access1 s aw n align false needR with
  | .error e => .error e
  | .ok (k, s) => .ok (clrLoad k n s)

/-! ### Where operands lie (06 R112 R113 R114) -/

/-- One piece of an engine access to the OPERAND banks of the issuing thread's cluster slice, within a sector. -/
def operPiece (s : State) (va n : Nat) (nd : Need) : Run (Nat × State) :=
  let a := BitVec.ofNat 64 va
  if 2 ^ 56 < va + n then failAt .access a
  else
    match translation s s.quad s.th.net va with
    | .error (c, u) => stopsAt u (failAt c a)
    | .ok (t, u) =>
      let pa := t.pa + va % 2 ^ t.bits
      stopsAt u
        (if permitted t nd = false then failAt .access a
         else if isVault pa && roleChanging u pa then waitOn .held
         else if isVault pa && homeOf u pa == clusterOf u.quad && roleOf u pa == 2 then .ok (pa, u)
         else failAt .access a)

def operPieces (nd : Need) : List (Nat × Nat) → State → Run (Pieces × State)
  | [], s => .ok ([], s)
  | (va, n) :: r, s =>
    reading (operPiece s va n nd) fun k s =>
      match operPieces nd r s with
      | .error e => .error e
      | .ok (l, s) => .ok ((k, n) :: l, s)

/-- The pieces of n bytes at va, cut at sectors. -/
def sectorsOf (va n : Nat) : List (Nat × Nat) :=
  if n = 0 then []
  else (List.range ((va % 32 + n + 31) / 32)).map (fun i =>
    let lo := max va (va / 32 * 32 + 32 * i)
    (lo, min (va + n) (va / 32 * 32 + 32 * (i + 1)) - lo))

def operBytes (nd : Need) (va n : Nat) (s : State) : Run (Pieces × State) := operPieces nd (sectorsOf va n) s

/-- A list of byte strings, each a name with the virtual addresses and lengths of its parts. -/
def operRows : List (Nat × List (Nat × Nat)) → State → Run (List (Nat × List Pieces) × State)
  | [], s => .ok ([], s)
  | (i, segs) :: r, s =>
    reading (operSegs segs s) fun ps s =>
      match operRows r s with
      | .error e => .error e
      | .ok (l, s) => .ok ((i, ps) :: l, s)
where
  operSegs : List (Nat × Nat) → State → Run (List Pieces × State)
    | [], s => .ok ([], s)
    | (va, n) :: r, s =>
      reading (operBytes engR va n s) fun p s =>
        match operSegs r s with
        | .error e => .error e
        | .ok (ps, s) => .ok (p :: ps, s)

/-- Dense rows of an operand. -/
def denseRows (o : Operand) (rows : List Nat) (s : State) : Run (List (Nat × List Pieces) × State) :=
  operRows (rows.map (fun r => (r, [(o.rowVa r, spanBytes o.tag o.k)]))) s

/-- Scale tiles by ordinal (06 R113): whole for the row groups named, the header alone for the ordinals of `heads`. -/
def tilesAt (p k : Nat) (groups heads : List Nat) (s : State) : Run (List (Nat × Pieces) × State) :=
  let whole := groups.flatMap (fun g => (List.range (k / 64)).map (fun i => (g * (k / 64) + i, [(p + 288 * (g * (k / 64) + i), 288)])))
  let head := heads.map (fun g => (g * (k / 64), [(p + 288 * (g * (k / 64)), 8)]))
  match operRows (whole ++ head) s with
  | .error e => .error e
  | .ok (l, s) => .ok (l.map (fun e => (e.1, e.2.headD [])), s)

/-- The bytes of a list of pieces as their banks hold them: an engine read, in arr. -/
def readPieces (s : State) (ps : Pieces) : List Byte := ps.flatMap (fun p => memRead s.mem p.1 p.2)
/-- Pieces are read: no `aadd` that comes after met one that came before (09 R176). -/
def partedAll (ps : Pieces) (s : State) : State := ps.foldl (fun s p => parted p.1 p.2 s) s
def poisonedAny (s : State) (ps : Pieces) : Bool := ps.any (fun p => poisoned s p.1 p.2)
def pieceGranules (ps : Pieces) : List Nat := ps.flatMap (fun p => granules p.1 p.2)
/-- The granules of every sector that some pieces touch. -/
def sectorGranules (ps : Pieces) : List Nat := ps.flatMap (fun p => granules (p.1 / 32 * 32) ((p.1 % 32 + p.2 + 31) / 32 * 32))

/-- The first sector of a scale tile, its header in it (06 R113): as it is read, and whether it is poisoned. -/
def headSector (s : State) (t : Nat × Pieces) : List Byte := readPieces s (t.2.take 1)
def headBad (s : State) (t : Nat × Pieces) : Bool := poisonedAny s (t.2.take 1)
/-- Whether a scale tile carries its sequence number (06 R113). -/
def seqOk (s : State) (seq0 : Nat) (t : Nat × Pieces) : Bool := leNat ((headSector s t).take 4) == (seq0 + t.1) % 2 ^ 32

/-- The headers of scale tiles are read (09 R176). -/
def readHeads (tiles : List (Nat × Pieces)) (s : State) : State := partedAll (tiles.flatMap (·.2.take 1)) s

/-- The sequence numbers of one operand's scale tiles (06 R113): a poisoned header faults POISON, a wrong number SCALE_SEQ. Which comes first within step
    5 of R127 no rule says; the model takes the poison of all of A's headers, then A's numbers, then B's the same way (log entry 101). -/
def checkSeqs (s : State) (seq0 : Nat) (tiles : List (Nat × Pieces)) : Run Unit := do
  need (tiles.all (fun t => !headBad s t)) .poison
  need (tiles.all (seqOk s seq0)) .scaleSeq

/-! ### The footprint (12 R217) -/

def MatOp.pieces (o : MatOp) : Pieces :=
  (o.rowsA ++ o.rowsB).flatMap (fun r => r.2.flatten) ++ (o.tilesA ++ o.tilesB).flatMap (·.2) ++ o.rest
def AssayOp.pieces (o : AssayOp) : Pieces := o.rows.flatMap (fun r => r.2.flatten) ++ o.tiles.flatMap (·.2)
def MatOp.footprint (o : MatOp) : List Nat := sectorGranules o.pieces
def AssayOp.footprint (o : AssayOp) : List Nat := sectorGranules o.pieces

/-- Whether a granule lies in the registered footprint of a matrix operation, or of any operation. -/
def inMatFootprint (s : State) (g : Nat) : Bool :=
  s.mgangs.any (fun e => match e.2.op with | some o => !o.consumed && o.footprint.contains g | none => false)
def inFootprint (s : State) (g : Nat) : Bool := inMatFootprint s g || s.assays.any (fun a => !a.consumed && a.footprint.contains g)

/-! ### The summation order (06 R115, 07 R139) -/

/-- Elements of a row. -/
def elemsOf (t : Nat) : List Byte → List Nat
  | [] => []
  | b :: r =>
    if t = 9 then (b.toNat % 16) :: (b.toNat / 16) :: elemsOf t r
    else if t = 6 ∨ t = 7 then
      match r with
      | [] => []
      | c :: r => (b.toNat + 256 * c.toNat) :: elemsOf t r
    else b.toNat :: elemsOf t r

/-- An element's value. -/
def elemVal (t e : Nat) : Val :=
  match t with
  | 1 => ofInt (readInt false 8 e)
  | 4 => dec e4m3 e
  | 5 => dec e5m2 e
  | 6 => dec fp16 e
  | 7 => dec bf16 e
  | _ => dec fp4 e

/-- The stored entries of one index byte and its two values: positions within the row and elements (07 R133). -/
def slotEntries (g ix v0 v1 : Nat) : List (Nat × Nat) :=
  (if bits ix 6 6 = 1 then [(8 * g + bits ix 2 0, v0)] else []) ++ (if bits ix 7 7 = 1 then [(8 * g + bits ix 5 3, v1)] else [])

/-- The entries of a row's terms, given as value and index rows in turn. -/
def termEntries (t : Nat) : List (List Byte) → List (Nat × Nat)
  | v :: ix :: r =>
    let vs := elemsOf t v
    (ix.zipIdx.flatMap (fun e => slotEntries e.2 e.1.toNat (vs.getD (2 * e.2) 0) (vs.getD (2 * e.2 + 1) 0))) ++ termEntries t r
  | _ => []

/-- One operand as read: its tag, the entries of each row (position and element), and its scale tiles. -/
structure SideData where
  tag : Nat
  k : Nat
  rows : List (Nat × List (Nat × Nat))
  tiles : List (Nat × List Byte)

def SideData.row (d : SideData) (r : Nat) : List (Nat × Nat) :=
  match d.rows.find? (fun e => e.1 == r) with
  | some e => e.2
  | none => []

def SideData.tile (d : SideData) (t : Nat) : List Byte :=
  match d.tiles.find? (fun e => e.1 == t) with
  | some e => e.2
  | none => []

/-- The block scale and the band scale of a row (06 R113). -/
def SideData.scale (d : SideData) (r q : Nat) : Val :=
  dec e3m5 ((d.tile (r / 32 * (d.k / 64) + q / 8)).getD (32 + 8 * (r % 32) + q % 8) 0).toNat
def SideData.band (d : SideData) (r : Nat) : Val :=
  dec bf16 (leNat (((d.tile (2 * (r / 64) * (d.k / 64))).drop 4).take 2))

/-- Entries in K order: by position, those of one position as they stand. -/
def insertPos (e : Nat × Nat) : List (Nat × Nat) → List (Nat × Nat)
  | [] => [e]
  | f :: r => if e.1 < f.1 then e :: f :: r else f :: insertPos e r
def inKOrder (l : List (Nat × Nat)) : List (Nat × Nat) := l.foldl (fun r e => insertPos e r) []

/-- The pairs of elements of one block in K order: every stored entry of the assayed side with the other side's element, else every position. -/
def blockPairs (byB : Bool) (ra rb : List (Nat × Nat)) (lo bs : Nat) : List (Nat × Nat) :=
  let block := fun (l : List (Nat × Nat)) => inKOrder (l.filter (fun e => decide (lo ≤ e.1) && decide (e.1 < lo + bs)))
  if byB then (block rb).map (fun e => ((ra.getD e.1 (0, 0)).2, e.2)) else (block ra).map (fun e => (e.2, (rb.getD e.1 (0, 0)).2))

def mulWith (x : Val × Flags) (y : Val) : Val × Flags :=
  let p := mulVal x.1 y
  (p.1, x.2 ||| p.2)

/-- One block step of 06 R115. -/
def blockStep (a b : SideData) (byB : Bool) (i j : Nat) (ra rb : List (Nat × Nat)) (acc : Nat × Flags) (q : Nat) : Nat × Flags :=
  let bs := blockSize a.tag
  let ps := blockPairs byB ra rb (q * bs) bs
  if a.tag = 1 then
    (wrapInt 32 ((acc.1 : Int) + (ps.map (fun p => readInt false 8 p.1 * readInt false 8 p.2)).sum), acc.2)
  else
    let s := blockSum (ps.map (fun p => (elemVal a.tag p.1, elemVal b.tag p.2))) .rne
    let s := if a.tag = 9 then mulWith (mulWith (mulWith (mulWith s (a.scale i q)) (b.scale j q)) (a.band i)) (b.band j) else s
    let p := encWith fp32 s .rne
    let r := encWith fp32 (sumVal [dec fp32 acc.1, dec fp32 p.1] .rne) .rne
    (r.1, acc.2 ||| p.2 ||| r.2)

/-- One element of C. -/
def cellProduct (a b : SideData) (byB : Bool) (i j c : Nat) : Nat × Flags :=
  (List.range (a.k / blockSize a.tag)).foldl (blockStep a b byB i j (a.row i) (b.row j)) (c, 0)

end Sys2Proof.Machine
end

