-- ==== Sys2Proof/Machine/Tiles.lean ====
section
/-!
DEFINITION. Gang and tile instructions (06 R119 to R127), `mmas` (07 R138), and the events that end a matrix operation (06 R114 R127).
-/

namespace Sys2Proof.Machine

/-- A report in rd, at the end of an instruction that leaves rotation. -/
def answer (d : Reg) (v : Nat) (s : State) : State := ((s.xw d (BitVec.ofNat 64 v)).pass 4).away

/-! ### gang, gangv, disband (06 R105 R108 R120 to R122) -/

def coresMeet (s : State) (g : MGang) : Bool := g.cores.any (fun c => s.mgangs.any (fun e => e.2.has c))

def gangRun (d a : Reg) (s : State) : Run State :=
  let v := (s.x a).toNat
  let core := coreId s.cur
  let g : MGang := { x0 := coreX core, y0 := coreY core, w := bits v 3 0 + 1, h := bits v 7 4 + 1 }
  if leadsGang s s.cur then .ok (answer d 3 s)
  else if 16 < g.x0 % 16 + g.w ∨ 16 < g.y0 % 16 + g.h then .ok (answer d 2 s)
  else if g.cores.any (fun c => !s.net.inRegion s (c / 4)) then fail .access
  else if coresMeet s g then .ok (answer d 1 s)
  else .ok (answer d 0 ((setGang s.cur g s).setTh { s.th with broken := false, brokenVec := false }))

def execGang (d a : Reg) (s : State) : Result := finish s (gangRun d a s)

/-- A berth that dispatch may take: it holds no thread, and no vector gang has reserved it (06 R108). -/
def berthFree (s : State) (b : Nat) : Bool := !s.held b && s.vgangs.all (fun g => g.2.members.all (fun m => m.2.1 != b))

/-- The cores of a vector gang by member index, and the leader's own index (06 R108). -/
def vectorGroup (core n : Nat) : List Nat × Nat :=
  let q := core / 4
  let cx := core % 2
  let cy := core % 4 / 2
  if n = 2 then ([4 * q + 2 * cy, 4 * q + 2 * cy + 1], cx)
  else if n = 4 then ([4 * q, 4 * q + 1, 4 * q + 2, 4 * q + 3], 2 * cy + cx)
  else
    let px := quadX q
    let l := quadAt (px / 2 * 2) (quadY q)
    let r := quadAt (px / 2 * 2 + 1) (quadY q)
    ([4 * l, 4 * l + 1, 4 * l + 2, 4 * l + 3, 4 * r, 4 * r + 1, 4 * r + 2, 4 * r + 3], 4 * (px % 2) + 2 * cy + cx)

/-- The wait state of an eviction record (17 R305): kind, k, generation, mint net id and FAULT node address, each in a double of its own, as the
    kind is by R305 (log entry 6). -/
def waitState (w : Wait) : List Nat :=
  match w with
  | .bar k g => [1, k, if g then 1 else 0, 0, 0]
  | .red k g _ => [2, k, if g then 1 else 0, 0, 0]
  | .qwait n _ => [3, 0, 0, n, 0]
  | .fault k => [4, 0, 0, 0, k]
  | .faultPending _ => [4, 0, 0, 0, 0]
  | _ => [0, 0, 0, 0, 0]

/-- An eviction record (17 R305): snapshot record, flits, wait state. -/
def evictionBytes (s : State) (c : Ctx) : List Byte :=
  let fs := ((c.mq.take 8).flatMap (fun f => leBytes 32 f.1.toNat))
  let w := match c.wait with
    | .fault k => waitState (.fault ((s.netRec c.net).purseWord s (keyQuad k) (keyOff k)).toNat)
    | w => waitState w
  snapshot c c.pc 0 ++ fs ++ zeros (256 - fs.length) ++ w.flatMap (leBytes 8) ++ zeros 88

def State.evict (s : State) (core : Nat) : List Ctx := Tbl.getD s.evicted core []
def State.setEvict (s : State) (core : Nat) (l : List Ctx) : State := { s with evicted := if l = [] then Tbl.del s.evicted core else Tbl.set s.evicted core l }

/-- An incoming use of a berth's register bank evicts the context that is resident there (17 R305); `none` while the spill pool is exhausted. -/
def evictBank (b : Nat) (s : State) : Option State :=
  match Tbl.get? s.residents b with
  | none => some s
  | some c =>
    let core := coreId b
    match poolSlot s ((s.evict core).map (·.slot)) 8 1024 with
    | none => none
    | some a =>
      let s := hwWrite { s with residents := Tbl.del s.residents b } a (evictionBytes s c)
      some (s.setEvict core (s.evict core ++ [{ c with slot := a }]))

def evictBanks : List Nat → State → Option State
  | [], s => some s
  | b :: r, s => match evictBank b s with
    | none => none
    | some s => evictBanks r s

/-- `gangv` (06 R108 R121): every member berth's vector registers are zero, the leader's among them. -/
def gangvRun (d a : Reg) (s : State) : Run State :=
  let n := bits (s.x a).toNat 3 0
  if leadsGang s s.cur then .ok (answer d 3 s)
  else if !(n == 2 || n == 4 || n == 8) then .ok (answer d 2 s)
  else
    let (cores, me) := vectorGroup (coreId s.cur) n
    let others := (cores.zipIdx.filter (fun e => e.2 != me)).map (fun e => (e.2, 16 * e.1 + s.cur % 16))
    if cores.any (fun c => !s.net.inRegion s (c / 4)) then fail .access
    else if others.any (fun e => !berthFree s e.2) then .ok (answer d 1 s)
    else
      match evictBanks (others.map (·.2)) s with
      | none => waitOn .spill
      | some t =>
        let g : VGang := { size := n, index := me, members := others.map (fun e => (e.1, e.2, Vector.replicate 8 {})) }
        let c := { t.th with vecs := Vector.replicate 8 {}, broken := false, brokenVec := false }
        .ok (answer d 0 (({ t with vgangs := Tbl.set t.vgangs t.cur g } : State).setTh c))

def execGangv (d a : Reg) (s : State) : Result := finish s (gangvRun d a s)

def execDisband (s : State) : Result :=
  let t := endGangs s.cur s
  .next (((t.setTh { t.th with broken := false, brokenVec := false }).pass 4).away)

/-! ### tzero, tload, tstore (06 R123 R124) -/

/-- A store of the issuing thread of a sector of C, which fills every granule it writes (06 R107 R127). -/
def tileStore (key : Nat) (bs : List Byte) (s : State) : State := fillGranules (clrStore key bs s) (granules key bs.length)

/-- Stores into a row of C from a sector's first byte on, one for each sector (11 R207). -/
def tileStores (key : Nat) (bs : List Byte) (s : State) : State :=
  (List.range ((bs.length + 31) / 32)).foldl (fun s i => tileStore (key + 32 * i) ((bs.drop (32 * i)).take 32) s) s

/-- The keys of the 128-byte stretches of a row of C, one for each member of the gang row. -/
def MGang.stretches (g : MGang) (i : Nat) : List Nat := (List.range g.w).map (fun x => g.elem i (32 * x))

def zeroRows (g : MGang) (s : State) : State :=
  (g.liveRows.flatMap g.stretches).foldl (fun s k => tileStores k (zeros 128) s) s

def execTzero (s : State) : Result :=
  finish s (do
    let g ← gangOf s
    .ok ((zeroRows g s).pass 4).away)

def tileBytes : TileFmt → Nat
  | .i32 => 4 | .fp16 => 2 | .bf16 => 2 | .fp32 => 4

/-- A sector of a transfer: the row of C, its first column there, and the sector's address, an exact sum (00 R6). -/
structure TileSector where
  row : Nat
  col : Nat
  addr : Nat
  deriving DecidableEq, Repr

/-- The sectors of a transfer. -/
def tileSectors (g : MGang) (e base pitch : Nat) : List TileSector :=
  g.liveRows.flatMap (fun i => (List.range (g.w * e)).map (fun n => { row := i, col := n * (32 / e), addr := base + i * pitch + 32 * n }))

/-- Checks sectors in turn as accesses of the issuing thread: those before the first that fails, each with its key in place of its address, and why
    that one fails. A sum that no address word holds names no memory. -/
def checkSectors (nd : Need) : List TileSector → State → List TileSector × Option Stop × State
  | [], s => ([], none, s)
  | x :: r, s =>
    match (if x.addr < 2 ^ 64 then access1 s (BitVec.ofNat 64 x.addr) 32 32 false nd else failAt .access (BitVec.ofNat 64 x.addr)) with
    | .error e => ([], some e, e.state s)
    | .ok (k, s) =>
      let t := checkSectors nd r s
      ({ x with addr := k } :: t.1, t.2.1, t.2.2)

/-- Reads every sector of a transfer before any is written (00 R6): what each brings, and the flags. -/
def readSectors (get : TileSector → State → (List Byte × Flags) × State) : List TileSector → State → List (TileSector × List Byte) × Flags × State
  | [], s => ([], 0, s)
  | x :: r, s =>
    let a := get x s
    let b := readSectors get r a.2
    ((x, a.1.1) :: b.1, a.1.2 ||| b.2.1, b.2.2)

/-- Moves sectors: all are read, then all are written. -/
def moveTiles (get : TileSector → State → (List Byte × Flags) × State) (put : TileSector → List Byte → State → State) (l : List TileSector) (s : State) :
    Flags × State :=
  let r := readSectors get l s
  (r.2.1, r.1.foldl (fun s e => put e.1 e.2 s) r.2.2)

/-- A transfer of sectors (06 R124). A fault in mid-transfer leaves some of the sectors before it moved, how many is the hardware's
    choice (log entry 3). -/
def transfer (nd : Need) (get : TileSector → State → (List Byte × Flags) × State) (put : TileSector → List Byte → State → State)
    (secs : List TileSector) (s : State) : Result :=
  match checkSectors nd secs s with
  | (l, none, t) => let r := moveTiles get put l t; .next ((r.2.flag r.1).pass 4).away
  | (_, some (.wait w _), t) => .next (t.leave t.cur w)
  | (l, some (.fault f _), t) =>
    let (c, t) := choice t (l.length + 1)
    .next (takeFault f (moveTiles get put (l.take c) t).2)

/-- The checks of `tload` and `tstore` before any sector. -/
def tileChecks (a b : Reg) (f : TileFmt) (s : State) : Run MGang := do
  let g ← gangOf s
  let base := s.x a
  let pitch := s.x b
  needAt (base.toNat % 32 == 0 && pitch.toNat % 32 == 0 && 32 * g.w * tileBytes f ≤ pitch.toNat) .align (faultAddr base)
  .ok g

/-- An element of memory as `tload` brings it into C (04 R76). -/
def widenTile (f : TileFmt) (e : Nat) : Nat × Flags :=
  let cvt := fun (g : Fmt) =>
    let v := dec g e
    encWith fp32 (v, flagIf v.isSig fNV) .rne
  match f with
  | .fp16 => cvt fp16
  | .bf16 => cvt bf16
  | _ => (e, 0)

/-- An element of C as `tstore` writes it. -/
def narrowTile (f : TileFmt) (rm : Rnd) (e : Nat) : Nat × Flags :=
  let v := dec fp32 e
  let cvt := fun (g : Fmt) => encWith g (v, flagIf v.isSig fNV) rm
  match f with
  | .i32 => (e, 0)
  | .fp16 => cvt fp16
  | .bf16 => cvt bf16
  | .fp32 => cvt fp32

/-- The elements of e bytes of a byte string. -/
def chunks (e : Nat) (l : List Byte) : List Nat := (List.range (l.length / e)).map (fun i => leNat ((l.drop (e * i)).take e))

/-- Elements converted one by one: their bytes, and the flags of all. -/
def convertTile (cvt : Nat → Nat × Flags) (inBytes outBytes : Nat) (l : List Byte) : List Byte × Flags :=
  let es := (chunks inBytes l).map cvt
  (es.flatMap (fun e => leBytes outBytes e.1), es.foldl (fun m e => m ||| e.2) 0)

/-- A sector of memory as `tload` brings it into C. -/
def loadSector (f : TileFmt) (x : TileSector) (s : State) : (List Byte × Flags) × State :=
  let r := clrLoad x.addr 32 s
  (convertTile (widenTile f) (tileBytes f) 4 r.1, r.2)

/-- The elements of C that make a sector of memory, as `tstore` writes it. R207 places the sectors' writes and names no place for this read; the model
    places it as a read of the thread in clr, and gives `mma`'s read of C none (log entry 102). -/
def storeSector (g : MGang) (f : TileFmt) (rm : Rnd) (x : TileSector) (s : State) : (List Byte × Flags) × State :=
  let r := clrLoad (g.elem x.row x.col) (4 * (32 / tileBytes f)) s
  (convertTile (narrowTile f rm) 4 (tileBytes f) r.1, r.2)

def putTile (g : MGang) (x : TileSector) (l : List Byte) (s : State) : State := tileStores (g.elem x.row x.col) l s

/-- A sector of memory is written; one in a purse fills its granules (06 R107). -/
def putSector (x : TileSector) (l : List Byte) (s : State) : State :=
  if isPurse x.addr then tileStore x.addr l s else clrStore x.addr l s

/-- A poisoned granule of C that a `tstore` would read (17 R309). The model reports it before a destination's PAGE or ACCESS, and moves no sector then,
    where no rule orders the two (log entry 40). -/
def poisonedC (s : State) (g : MGang) : Bool := (g.liveRows.flatMap g.stretches).any (fun k => poisoned s k 128)

def execTload (a b : Reg) (f : TileFmt) (s : State) : Result :=
  match tileChecks a b f s with
  | .error e => finish s (.error e)
  | .ok g => transfer needR (loadSector f) (putTile g) (tileSectors g (tileBytes f) (s.x a).toNat (s.x b).toNat) s

def execTstore (a b : Reg) (r : Rnd) (f : TileFmt) (s : State) : Result :=
  match tileChecks a b f s with
  | .error e => finish s (.error e)
  | .ok g =>
    if poisonedC s g then finish s (fail .poison)
    else transfer needW (storeSector g f r) putSector (tileSectors g (tileBytes f) (s.x a).toNat (s.x b).toNat) s

/-! ### tshape and tside (06 R117 R125 R126) -/

/-- The groups of a shape record, unless it is rejected (06 R117). -/
def parseShape (h : Nat) (l : List Byte) : Option (List (Nat × Nat)) :=
  let g := dbl l 0
  if g = 0 ∨ 32 < g ∨ dbl l 8 ≠ 0 then none
  else
    let es := (List.range g).map (fun n => let e := leNat ((l.drop (16 + 4 * n)).take 4); (bits e 31 16, bits e 15 0))
    let ends := es.map (fun e => e.1 + e.2)
    let nexts := (es.drop 1).map (·.1) ++ [32 * h]
    if (List.zip ends nexts).all (fun p => p.1 ≤ p.2) then some es else none

/-- The length of a record whose first double is v; that of the header alone for one that R117 rejects. -/
def shapeBytes (v : Nat) : Nat := if v = 0 ∨ 32 < v then 16 else 16 + 4 * v

/-- What one read of a shape record brings at its first key: of a global record as much as lies in the line, so that its length and its entries
    come from the same copy (06 R125); of a purse a granule. -/
def shapeRead (key : Nat) : Nat := if isPurse key then 16 else min (shapeBytes 32) (256 - key % 256)

/-- Whether some pieces of memory overlap the record of a pending assay of the cluster, which a gang instruction that reads them waits
    for (07 R136). -/
def pendingRecord (s : State) (ps : Pieces) : Bool :=
  let gs := pieceGranules ps
  s.assays.any (fun a => a.cluster == clusterOf s.quad && (pieceGranules a.record).any gs.contains)

/-- `tshape` (06 R125): its record is read as one access, for which a pending assay's record keeps it waiting (07 R136). -/
def tshapeRun (a : Reg) (s : State) : Run State := do
  let g ← gangOf s
  let aw := s.x a
  if aw = 0 then .ok ((setGang s.cur { g with shape := none } s).pass 4).away
  else
    reading (access1 s aw 16 16 false needR) fun hk s =>
      if pendingRecord s [(hk, 16)] then waitOn .held
      else loading hk (shapeRead hk) s fun l s =>
        let n := shapeBytes (dbl l 0)
        reading (access s aw n 16 false needR false 16) fun ks s =>
          if pendingRecord s ks then waitOn .held
          else loadingAll (ks.filter (fun k => k.1 < hk || hk + shapeRead hk ≤ k.1)) s fun r s =>
            match parseShape g.h (l.take n ++ r) with
            | none => fail .format
            | some es => .ok ((setGang s.cur { g with shape := some es } s).pass 4).away

def execTshape (a : Reg) (s : State) : Result := finish s (tshapeRun a s)

/-- The checks of one stream pointer. -/
def streamOk (w : Word) : Run Unit := do
  need (w == 0 || isGlob w) .access
  need (w.toNat % 32 == 0) .align

def tsideRun (a b : Reg) (s : State) : Run State := do
  let g ← gangOf s
  streamOk (s.x a)
  streamOk (s.x b)
  .ok ((setGang s.cur { g with sideA := s.x a, sideB := s.x b } s).pass 4)

def execTside (a b : Reg) (s : State) : Result := finish s (tsideRun a b s)

/-! ### mma and mmas: the checks (06 R127, 07 R138) -/

/-- The alignment of a record's address, then its bytes. -/
def alignedTo (aw : Word) (n : Nat) : Run Unit := needAt (aw.toNat % n == 0) .align (faultAddr aw)

/-- The tags and Ks of the two operands (06 R127 step 3). -/
def pairOk (a b : Operand) : Bool :=
  (a.tag == b.tag || (a.tag == 4 && b.tag == 5) || (a.tag == 5 && b.tag == 4)) && a.k == b.k

def parsed (l : List Byte) : Run Operand := match parseOperand l with | some o => .ok o | none => fail .format

/-- An assay record's header (07 R133), unless it faults FORMAT (07 R138); `rows` is what n must be. -/
def parseHead (l : List Byte) (rows : Nat) : Option AssayHead :=
  let a := dbl l 0
  let b := dbl l 8
  let c := dbl l 16
  let d := dbl l 24
  let h : AssayHead := { src := { tag := bits a 63 60, base := bits a 55 0, seq0 := bits b 63 32, k := bits b 15 0, stride := bits c 19 0 },
                         n := bits b 31 16, status := bits c 31 28, terms := bits c 27 26, resid := d }
  if matTag h.src.tag && bits a 59 56 == 0 && kOk h.src.k && bits c 63 32 == 0 && bits c 25 20 == 0
      && h.status < 3 && h.resid ≤ 512 && h.n == rows then some h else none

/-- The row groups of A whose tiles are read, and those of which the header alone is read for its band scale (06 R118). -/
def liveGroups (g : MGang) : List Nat := (List.range g.h).filter g.liveTile
def headGroups (g : MGang) : List Nat := (List.range g.h).filter (fun y => y % 2 == 0 && !g.liveTile y && g.liveTile (y + 1))

/-- Where the scale tiles of both operands lie (06 R127 step 5), and the check of their numbers. -/
def scaleTiles (g : MGang) (a b : Operand) (s : State) : Run ((List (Nat × Pieces) × List (Nat × Pieces)) × State) :=
  if a.tag ≠ 9 then .ok (([], []), s)
  else do
    need (g.sideA != 0 && g.sideB != 0) .scaleSeq
    reading (tilesAt (bits g.sideA.toNat 55 0) a.k (liveGroups g) (headGroups g) s) fun ta s =>
      reading (tilesAt (bits g.sideB.toNat 55 0) b.k (List.range g.w) [] s) fun tb s =>
        let s := readHeads (ta ++ tb) s
        stopsAt s (do
          checkSeqs s a.seq0 ta
          checkSeqs s b.seq0 tb
          .ok ((ta, tb), s))

/-- The bytes of a row of the values and of the indices of one term (07 R133). -/
def valueRow (o : Operand) : Nat := spanBytes o.tag o.k / 4
def indexRow (o : Operand) : Nat := o.k / 8
def termBytes (o : Operand) (n : Nat) : Nat := n * (valueRow o + indexRow o)

/-- The parts of row r of a SPARSE record's terms: values and indices in turn. -/
def recordRow (h : AssayHead) (base r : Nat) : List (Nat × Nat) :=
  (List.range h.terms).flatMap (fun t =>
    let v := base + 32 + t * termBytes h.src h.n
    [(v + r * valueRow h.src, valueRow h.src), (v + h.n * valueRow h.src + r * indexRow h.src, indexRow h.src)])

/-- A residual list (07 R133), unless it breaks 07 R138. Of an element its format's bits count, and those above them in bits 15:0 do not (log entry 89). -/
def parseResid (h : AssayHead) (l : List Byte) : Option (List (Nat × Nat × Nat)) :=
  let es := chunks 8 l
  let rs := es.map (fun e => (bits e 63 48, bits e 47 32, e % 2 ^ elemBits h.src.tag))
  let key := fun e => e / 2 ^ 32
  if es.all (fun e => bits e 31 16 == 0) && rs.all (fun r => r.1 < h.n && r.2.1 < h.src.k)
      && (List.zip es (es.drop 1)).all (fun p => key p.1 < key p.2) then some rs else none

/-- The rows of an operand that a test admits. -/
def rowsIn (rows : List Nat) (l : List (Nat × List Pieces)) : List (Nat × List Pieces) := l.filter (fun e => rows.contains e.1)

/-- Where the rows of the assayed operand lie: those of the source for a DENSE record; header, terms and residual list of a SPARSE one. Every
    row's bytes must lie in OPERAND banks, and those of `rows` are read (07 R138). The residual list is checked here, after those bytes and before
    the scale tiles: R138 says no more than that it is checked before the first write to C (log entry 77). -/
def assayedRows (h : AssayHead) (aw : Word) (rows : List Nat) (s : State) : Run ((List (Nat × List Pieces) × Pieces × List (Nat × Nat × Nat)) × State) := do
  let base ← (match formOf aw with | some (.glob va) => .ok va | _ => failAt .access aw)
  reading (operBytes engR base 32 s) fun hp s =>
    if h.status ≠ 0 then (denseRows h.src (List.range h.n) s).map (fun r => ((rowsIn rows r.1, hp, []), r.2))
    else
      reading (operRows ((List.range h.n).map (fun r => (r, recordRow h base r))) s) fun l s =>
        reading (operBytes engR (base + 32 + h.terms * termBytes h.src h.n) (8 * h.resid) s) fun rp s =>
          if pendingRecord s rp then waitOn .held
          else if poisonedAny s rp then fail .poison
          else
            let s := partedAll rp s
            stopsAt s (match parseResid h (readPieces s rp) with
              | none => fail .format
              | some rs => .ok ((rowsIn rows l, hp ++ rp, rs), s))

/-- An operand record as a gang instruction reads it: one access, which a pending assay of the record keeps waiting (07 R136). -/
def readOperand (aw : Word) (s : State) : Run (List Byte × State) :=
  reading (access1 s aw 32 32 false needR) fun k s => if pendingRecord s [(k, 32)] then waitOn .held else .ok (clrLoad k 32 s)

/-- Starts an operation: its sub-tiles are held and its footprint is registered until it has been read. A record of a pending assay that
    it would read keeps it waiting (07 R136). -/
def startOp (g : MGang) (o : MatOp) (s : State) : Run State :=
  if pendingRecord s o.pieces then waitOn .held
  else .ok ((setGang s.cur { g with op := some o } s).leave s.cur .gangop)

/-- Where every row of an operand lies (06 R127 step 4), and of them the rows that are read (06 R118). -/
def liveOf (o : Operand) (n : Nat) (rows : List Nat) (s : State) : Run (List (Nat × List Pieces) × State) :=
  (denseRows o (List.range n) s).map (fun r => (rowsIn rows r.1, r.2))

/-- `mma` (06 R127). Every row of A must lie in OPERAND banks, and the live ones are read (06 R112 R118, log entry 78). -/
def mmaRun (a b : Reg) (s : State) : Run State := do
  let g ← gangOf s
  alignedTo (s.x a) 32
  alignedTo (s.x b) 32
  reading (readOperand (s.x a) s) fun la s =>
    reading (readOperand (s.x b) s) fun lb s => do
      let oa ← parsed la
      let ob ← parsed lb
      need (pairOk oa ob) .format
      need (oa.strideOk && ob.strideOk) .align
      let s := publish .module s
      stopsAt s (reading (liveOf oa (32 * g.h) g.liveRows s) fun ra s =>
        reading (denseRows ob (List.range (32 * g.w)) s) fun rb s =>
          reading (scaleTiles g oa ob s) fun t s =>
            startOp g { a := oa, b := ob, rowsA := ra, rowsB := rb, tilesA := t.1, tilesB := t.2 } s)

def execMma (a b : Reg) (s : State) : Result := finish s (mmaRun a b s)

/-- `mmas` (07 R138): `side` true names an assay record for B. -/
def mmasRun (a b : Reg) (side : Bool) (s : State) : Run State := do
  let g ← gangOf s
  let wr := s.x (if side then b else a)
  alignedTo (s.x a) (if side then 32 else 256)
  alignedTo (s.x b) (if side then 256 else 32)
  reading (readOperand (s.x a) s) fun la s =>
    reading (readOperand (s.x b) s) fun lb s => do
      let (lr, lo) := if side then (lb, la) else (la, lb)
      let oo ← parsed lo
      match parseHead lr (32 * (if side then g.w else g.h)) with
      | none => fail .format
      | some h =>
        need (pairOk h.src oo) .format
        need (h.src.strideOk && oo.strideOk) .align
        let s := publish .module s
        let rowsR := if side then List.range (32 * g.w) else g.liveRows
        let rowsO := if side then g.liveRows else List.range (32 * g.w)
        let (oa, ob) := if side then (oo, h.src) else (h.src, oo)
        stopsAt s (reading (liveOf oo (32 * (if side then g.h else g.w)) rowsO s) fun ro s =>
          reading (assayedRows h wr rowsR s) fun r s =>
            reading (scaleTiles g oa ob s) fun t s =>
              startOp g { a := oa, b := ob, side := some side, head := h, resid := r.2.2, rowsA := if side then ro else r.1,
                          rowsB := if side then r.1 else ro, tilesA := t.1, tilesB := t.2, rest := r.2.1 } s)

def execMmas (a b : Reg) (side : Bool) (s : State) : Result := finish s (mmasRun a b side s)

/-! ### The operation's events -/

/-- One operand as its banks hold it now. -/
def sideData (s : State) (o : Operand) (sparse : Bool) (rows : List (Nat × List Pieces)) (resid : List (Nat × Nat × Nat)) (tiles : List (Nat × Pieces)) : SideData :=
  { tag := o.tag, k := o.k
    rows := rows.map (fun r =>
      let segs := r.2.map (readPieces s)
      (r.1, if sparse then termEntries o.tag segs ++ (resid.filter (fun e => e.1 == r.1)).map (·.2)
            else (elemsOf o.tag (segs.headD [])).zipIdx.map (fun e => (e.2, e.1))))
    tiles := tiles.map (fun t => (t.1, readPieces s t.2)) }

/-- The whole of C as the operation leaves it (06 R115 R116), and the flags. -/
def matResult (s : State) (g : MGang) (o : MatOp) : List (Nat × Nat) × Flags :=
  let sparse := fun (b : Bool) => o.side == some b && o.head.status == 0
  let a := sideData s o.a (sparse false) o.rowsA o.resid o.tilesA
  let b := sideData s o.b (sparse true) o.rowsB o.resid o.tilesB
  let cells := g.liveRows.flatMap (fun i => (List.range (32 * g.w)).map (fun j =>
    let k := g.elem i j
    (k, cellProduct a b (sparse true) i j (leNat (memRead s.mem k 4)))))
  (cells.map (fun c => (c.1, c.2.1)), cells.foldl (fun f c => f ||| c.2.2) 0)

/-- The last operand sector and scale tile have been read (06 R114): pins and footprint are released, and commands that wait go on (12 R215). R114
    does not say when before this each sector is read; the model reads all of them here (log entry 79). -/
def consumeMat (b : Nat) (g : MGang) (o : MatOp) (s : State) : State :=
  let s := partedAll o.pieces s
  let bad := poisonedAny s o.pieces || poisonedC s g
  let r := if bad then ([], 0) else matResult s g o
  meetDeps (s.tidAt b) (setGang b { g with op := some { o with consumed := true, poisoned := bad, result := r.1, flags := r.2 } } s)

/-- Acts for another berth. -/
def State.as (s : State) (b : Nat) (f : State → State) : State := { f { s with cur := b } with cur := s.cur }

/-- The stream pointer after an operation over n data tiles (06 R113). One that would pass the end of the virtual addresses wraps, where the spec names
    no value (log entry 87). -/
def advanceStream (w : Word) (n : Nat) : Word := BitVec.ofNat 64 (2 ^ 59 + (bits w.toNat 55 0 + 288 * n) % 2 ^ 56)

/-- The elements of C, in order, as the sectors of 32 bytes that they make. -/
def sectorsOfC (l : List (Nat × Nat)) : List (Nat × List Byte) :=
  (List.range ((l.length + 7) / 8)).map (fun i =>
    let es := (l.drop (8 * i)).take 8
    ((es.headD (0, 0)).1, es.flatMap (fun e => leBytes 4 e.2)))

/-- The operation completes (06 R127): C is written by stores of its thread, the flags join its own, and the streams advance; a poisoned
    operand poisons the whole of the gang's sub-tiles and faults POISON instead. -/
def completeMat (b : Nat) (g : MGang) (o : MatOp) (s : State) : State :=
  s.as b (fun s =>
    if o.poisoned then
      let gs := g.cores.flatMap (fun c => granules (purseKey (c / 4) (0xC000 * (c % 4) + 0xB000)) 4096)
      let s := { s with poison := gs ++ s.poison.filter (fun p => !gs.contains p) }
      takeFault { cause := .poison } (setGang b { g with op := none } s)
    else
      let g := if o.a.tag = 9 then { g with sideA := advanceStream g.sideA (g.h * (o.a.k / 64)), sideB := advanceStream g.sideB (g.w * (o.b.k / 64)) } else g
      let s := (setGang b { g with op := none } s).flag o.flags
      let s := (sectorsOfC o.result).foldl (fun s e => tileStore e.1 e.2 s) s
      (s.setTh { s.th with wait := .ready }).pass 4)

def execMmaCompletion (b : Nat) (s : State) : Result :=
  match Tbl.get? s.mgangs b with
  | none => .next s
  | some g =>
    match g.op with
    | none => .next s
    | some o => if o.consumed then .next (completeMat b g o s) else .next s

end Sys2Proof.Machine
end

