-- ==== Sys2Proof/Machine/Assayer.lean ====
section
/-!
DEFINITION. The assayer (07 R128 to R137) and the events of an assay.
-/

namespace Sys2Proof.Machine

/-! ### Entries, groups and ranks (07 R128 R129) -/

/-- An entry: row, position, element bits, and its exact magnitude as a fraction. -/
structure Entry where
  row : Nat
  pos : Nat
  bits : Nat
  num : Nat
  den : Nat
  deriving DecidableEq, Repr

/-- The value of an element (07 R128): for F4B scaled by block and band. -/
def assayVal (d : SideData) (r k e : Nat) : Val :=
  let v := elemVal d.tag e
  if d.tag = 9 then (mulVal (mulVal v (d.scale r (k / 8))).1 (d.band r)).1 else v

/-- Every element's value, by row and position. -/
def assayVals (d : SideData) : List (Nat × Nat × Nat × Val) :=
  d.rows.flatMap (fun r => r.2.map (fun e => (r.1, e.1, e.2, assayVal d r.1 e.1 e.2)))

def isFinite : Val → Bool
  | .fin .. => true
  | _ => false

/-- The entries: finite values that are not zero. -/
def entriesOf (vs : List (Nat × Nat × Nat × Val)) : List Entry :=
  vs.filterMap (fun v => match v.2.2.2 with
    | .fin _ n d => if n = 0 then none else some { row := v.1, pos := v.2.1, bits := v.2.2.1, num := n, den := d }
    | _ => none)

/-- Inserts before the first element that the new one precedes. -/
def insertBy (lt : Entry → Entry → Bool) (e : Entry) : List Entry → List Entry
  | [] => [e]
  | f :: r => if lt e f then e :: f :: r else f :: insertBy lt e r

/-- A stable sort. -/
def sortBy (lt : Entry → Entry → Bool) (l : List Entry) : List Entry := l.foldl (fun acc e => insertBy lt e acc) []

def larger (e f : Entry) : Bool := f.num * e.den < e.num * f.den
def smaller (e f : Entry) : Bool := e.num * f.den < f.num * e.den

/-- The groups of a tile: eight elements of one row, each with its entries in order of position. -/
def groupsOf (n k : Nat) (es : List Entry) : List (Nat × Nat × List Entry) :=
  (List.range n).flatMap (fun r =>
    let row := es.filter (fun e => e.row == r)
    (List.range (k / 8)).map (fun g => (r, g, row.filter (fun e => e.pos / 8 == g))))

/-- Terms used (07 R129). -/
def termCount (tmax : Nat) (gs : List (Nat × Nat × List Entry)) : Nat :=
  let cmax := gs.foldl (fun m g => max m g.2.2.length) 0
  min tmax ((cmax + 1) / 2)

/-- The entries of a group that go to term t, the lower position first; and those that go to the residual. -/
def termOf (t : Nat) (es : List Entry) : List Entry :=
  sortBy (fun e f => e.pos < f.pos) (((sortBy larger es).drop (2 * t)).take 2)
def residOf (t : Nat) (es : List Entry) : List Entry := (sortBy larger es).drop (2 * t)

/-! ### The loss bound (07 R130) -/

def addFracN (a b c d : Nat) : Nat × Nat :=
  if b = d then (a + c, b) else if b % d = 0 then (a + c * (b / d), b) else if d % b = 0 then (a * (d / b) + c, d) else (a * d + c * b, b * d)

/-- The exact energy of a list of entries. -/
def energy (es : List Entry) : Nat × Nat := es.foldl (fun x e => addFracN x.1 x.2 (e.num * e.num) (e.den * e.den)) (0, 1)

/-- Drops in drop order while D · 2^32 ≤ L · E: the number dropped, D, and the last entry dropped. -/
def drops (bound : Nat) (tot : Nat × Nat) : List Entry → Nat → Nat × Nat → Option Entry → Nat × (Nat × Nat) × Option Entry
  | [], d, x, last => (d, x, last)
  | e :: r, d, x, last =>
    let y := addFracN x.1 x.2 (e.num * e.num) (e.den * e.den)
    if y.1 * 2 ^ 32 * tot.2 ≤ bound * tot.1 * y.2 then drops bound tot r (d + 1) y (some e) else (d, x, last)

/-- Residual entries in drop order: energy, then row, then position. -/
def dropOrder (es : List Entry) : List Entry :=
  sortBy smaller (sortBy (fun e f => e.row < f.row || (e.row == f.row && e.pos < f.pos)) es)

/-! ### The record (07 R133) -/

/-- A header. -/
def recordHead (o : Operand) (n status terms resid : Nat) : List Byte :=
  leBytes 8 (o.tag * 2 ^ 60 + o.base) ++ leBytes 8 (o.seq0 * 2 ^ 32 + n * 2 ^ 16 + o.k)
    ++ leBytes 8 (status * 2 ^ 28 + terms * 2 ^ 26 + o.stride) ++ leBytes 8 resid

/-- A list of element codes as they stand in memory. -/
def packRow (t : Nat) (l : List Nat) : List Byte :=
  let w := elemBits t
  leBytes (l.length * w / 8) (l.foldr (fun e acc => e % 2 ^ w + 2 ^ w * acc) 0)

/-- The two slots of a group in a term: their elements, and the index byte. -/
def slotsOf (es : List Entry) : List Nat × Nat :=
  match es with
  | [] => ([0, 0], 0)
  | [e] => ([e.bits, 0], 64 + e.pos % 8)
  | e :: f :: _ => ([e.bits, f.bits], 192 + f.pos % 8 * 8 + e.pos % 8)

/-- A term's value plane and index plane. -/
def termPlanes (t tag : Nat) (gs : List (Nat × Nat × List Entry)) : List Byte :=
  let ss := gs.map (fun g => slotsOf (termOf t g.2.2))
  packRow tag (ss.flatMap (·.1)) ++ ss.map (fun x => BitVec.ofNat 8 x.2)

def residBytes (es : List Entry) : List Byte := es.flatMap (fun e => leBytes 8 (e.row * 2 ^ 48 + e.pos * 2 ^ 32 + e.bits))

/-! ### The assay (07 R131 R135 R136) -/

/-- What an assay decides: status, record, and report. -/
structure Verdict where
  status : Nat
  bytes : List Byte
  report : List Nat

def fracVal (x : Nat × Nat) : Val := .fin false x.1 x.2

/-- Report word 4: E rounded to nearest, D rounded up (07 R135). -/
def energyWord (e d : Nat × Nat) : Nat := (enc fp32 (fracVal e) .rne).1 * 2 ^ 32 + (enc fp32 (fracVal d) .ru).1

def decide7 (o : Operand) (n tmax bound : Nat) (d : SideData) : Verdict :=
  let vs := assayVals d
  if vs.any (fun v => !isFinite v.2.2.2) then { status := 2, bytes := recordHead o n 2 0 0, report := [2, 0, 0, 0, 0, 0] }
  else
    let es := entriesOf vs
    let gs := groupsOf n o.k es
    let t := termCount tmax gs
    let res := dropOrder (gs.flatMap (fun g => residOf t g.2.2))
    let tot := energy es
    let (c, dropped, last) := if bound = 0 ∨ tot.1 = 0 then (0, (0, 1), none) else drops bound tot res 0 (0, 1) none
    let kept := sortBy (fun e f => e.row < f.row || (e.row == f.row && e.pos < f.pos)) (res.drop c)
    if 512 < kept.length then
      { status := 1, bytes := recordHead o n 1 0 0, report := [1, es.length, 0, 0, energyWord tot (0, 1), 0] }
    else
      { status := 0
        bytes := recordHead o n 0 t kept.length ++ (List.range t).flatMap (fun i => termPlanes i o.tag gs) ++ residBytes kept
        report := [t * 16 + kept.length * 256, es.length, c,
                   if tot.1 = 0 then 0 else (2 ^ 32 * dropped.1 * tot.2 + dropped.2 * tot.1 - 1) / (dropped.2 * tot.1),
                   energyWord tot dropped,
                   match last with | some e => e.row * 2 ^ 16 + e.pos | none => 0] }

/-! ### assay and astat -/

/-- A control block (07 R132), unless it faults FORMAT at step 2. -/
structure AssayBlock where
  src : Nat
  bound : Nat
  n : Nat
  tmax : Nat
  record : Nat
  stream : Nat

def parseBlock (l : List Byte) : Option AssayBlock :=
  let a := dbl l 0
  let b := dbl l 8
  let c := dbl l 16
  let d := dbl l 24
  let n := bits b 31 16
  if bits a 63 56 = 0 ∧ bits b 15 10 = 0 ∧ bits b 7 0 = 0 ∧ bits c 63 56 = 0 ∧ bits d 63 56 = 0 ∧ bits b 9 8 ≠ 0 ∧ n % 32 = 0 ∧ 32 ≤ n ∧ n ≤ 512 then
    some { src := a, bound := bits b 63 32, n := n, tmax := bits b 9 8, record := c, stream := d }
  else none

/-- The bytes that a record may take (07 R134). -/
def maxRecord (o : Operand) (n tmax : Nat) : Nat := 32 + tmax * termBytes o n + 8 * 512

/-- Where the rows, the record and the scale tiles of an assay lie (07 R136 steps 5 and 6), and its start. A poisoned header does not end the checks:
    the assay meets it as it meets any poisoned sector. -/
def startAssay (d : Reg) (o : Operand) (c : AssayBlock) (s : State) : Run State :=
  reading (denseRows o (List.range c.n) s) fun rows s =>
    reading (operBytes engW c.record (maxRecord o c.n c.tmax) s) fun rec' s =>
      reading (if o.tag = 9 ∧ c.stream ≠ 0 then tilesAt c.stream o.k (List.range (c.n / 32)) [] s else .ok ([], s)) fun tiles s =>
        let s := readHeads tiles s
        stopsAt s (do
          need (!(o.tag == 9 && c.stream == 0)) .scaleSeq
          need (tiles.all (fun t => headBad s t || seqOk s o.seq0 t)) .scaleSeq
          let x : AssayOp := { berth := s.cur, cluster := clusterOf s.quad, src := o, n := c.n, tmax := c.tmax, bound := c.bound, rows := rows,
                               tiles := tiles, heads := tiles.map (headSector s), record := rec', poisoned := tiles.any (headBad s) }
          .ok (({ s with assays := s.assays ++ [x] } : State).leave s.cur (.assay d)))

/-- The control block or the source record of an assay, as one access. 07 R136 makes it an engine read in arr and 11 R207 a read of the thread in
    clr: its home serves it, as it serves a read in arr, and it is placed in clr (log entry 103). -/
def blockRead (aw : Word) (s : State) : Run (List Byte × State) :=
  (access1 s aw 32 32 false needR).map (fun (k, s) => homeLoad k 32 s)

/-- `assay` (07 R136): the thread's writes are published before anything is read. -/
def assayRun (d a : Reg) (s : State) : Run State := do
  alignedTo (s.x a) 32
  let s := publish .module s
  stopsAt s (reading (blockRead (s.x a) s) fun l s =>
    match parseBlock l with
    | none => fail .format
    | some c => do
      need (c.src % 32 == 0 && c.record % 256 == 0 && c.stream % 32 == 0) .align
      reading (blockRead (globWord c.src) s) fun lo s => do
        let o ← parsed lo
        need (decide (c.n * o.k ≤ 2 ^ 18) && (o.tag == 9 || c.stream == 0)) .format
        need o.strideOk .align
        startAssay d o c s)

def execAssay (d a : Reg) (s : State) : Result := finish s (assayRun d a s)

/-- `astat` (07 R137): sel 6 and 7 fault ILLEGAL. -/
def execAstat (d : Reg) (sel : BitVec 3) (s : State) : Result :=
  finish s (if h : sel.toNat < 6 then .ok ((s.xw d s.th.report[sel.toNat]).pass 4) else fail .illegal)

/-! ### The events of an assay -/

/-- The assay that its cluster serves now: the oldest (07 R136). -/
def servedAssay (s : State) (b : Nat) : Option AssayOp :=
  match s.assays.find? (fun a => a.berth == b) with
  | none => none
  | some a =>
    match s.assays.find? (fun x => x.cluster == a.cluster) with
    | some x => if x.berth = b then some a else none
    | none => none

def setAssay (x : AssayOp) (s : State) : State := { s with assays := s.assays.map (fun a => if a.berth = x.berth then x else a) }

/-- What is left of the scale tiles to read once their first sectors have been read. -/
def AssayOp.restTiles (x : AssayOp) : List (Nat × Pieces) := x.tiles.map (fun t => (t.1, t.2.drop 1))

/-- The source and its scale tiles, each sector as the one read of it brings it (07 R136). -/
def assayData (s : State) (x : AssayOp) : SideData :=
  let d := sideData s x.src false x.rows [] x.restTiles
  { d with tiles := (List.zip d.tiles x.heads).map (fun e => (e.1.1, e.2 ++ e.1.2)) }

/-- The tile has been read whole, which decides the record (07 R136). -/
def consumeAssay (x : AssayOp) (s : State) : State :=
  let s := partedAll x.pieces s
  let bad := x.poisoned || poisonedAny s (x.rows.flatMap (fun r => r.2.flatten) ++ x.restTiles.flatMap (·.2))
  let x := if bad then { x with consumed := true, poisoned := true, bytes := recordHead x.src x.n 3 0 0 }
    else
      let v := decide7 x.src x.n x.tmax x.bound (assayData s x)
      { x with consumed := true, bytes := v.bytes, status := v.status, report := Vector.ofFn (fun i => BitVec.ofNat 64 (v.report.getD i.val 0)) }
  meetDeps (s.tidAt x.berth) (setAssay x s)

/-- Operands consumed (06 R114): of the matrix operation or the assay of a berth. -/
def execOperandsConsumed (b : Nat) (s : State) : Result :=
  match Tbl.get? s.mgangs b, servedAssay s b with
  | some g, _ =>
    (match g.op, servedAssay s b with
     | some o, _ => if o.consumed then .next s else .next (consumeMat b g o s)
     | none, some x => if x.consumed then .next s else .next (consumeAssay x s)
     | none, none => .next s)
  | none, some x => if x.consumed then .next s else .next (consumeAssay x s)
  | none, none => .next s

/-- Writes bytes into pieces, one after another. -/
def writePieces (s : State) : Pieces → List Byte → State
  | [], _ => s
  | (k, n) :: r, bs => if bs = [] then s else writePieces (arrWrite s k (bs.take n)) r (bs.drop n)

/-- The pieces that the first n bytes lie in. -/
def piecesUpTo : Nat → Pieces → Pieces
  | _, [] => []
  | n, (k, m) :: r => if n = 0 then [] else (k, min n m) :: piecesUpTo (n - m) r

/-- The largest write time of the lines of some pieces. -/
def piecesTime (s : State) (ps : Pieces) : Nat := ps.foldl (fun t p => max t (lineTime s (p.1 / 256)).wts) 0

/-- The assay completes (07 R136): the record is written, then report and rd; a poisoned operand leaves an INVALID header and faults POISON.
    A record waits while a matrix operation still reads what it writes (12 R217); an assay that is yet to be served reads it as it then stands (07 R136). -/
def completeAssay (b : Nat) (x : AssayOp) (s : State) : State :=
  if (pieceGranules (piecesUpTo x.bytes.length x.record)).any (inMatFootprint s) then s
  else
    let s := writePieces s x.record x.bytes
    let s := { s with assays := s.assays.filter (fun a => a.berth != b) }
    s.as b (fun s =>
      let s := s.raise b (piecesTime s (piecesUpTo x.bytes.length x.record))
      if x.poisoned then takeFault { cause := .poison } s
      else
        match s.th.wait with
        | .assay d =>
          let s := s.setTh { s.th with report := x.report, wait := .ready }
          (s.xw d (BitVec.ofNat 64 x.status)).pass 4
        | _ => s)

def execAssayCompletion (b : Nat) (s : State) : Result :=
  match servedAssay s b with
  | none => .next s
  | some x => if x.consumed then .next (completeAssay b x s) else .next s

end Sys2Proof.Machine
end

