-- ==== Sys2Proof/Machine/Engines.lean ====
section
/-!
DEFINITION. The teller and the collector (12): descriptors, queues, the scoreboard, and the eight engine instructions.
-/

namespace Sys2Proof.Machine

/-! ### Descriptors (12 R210 R211) -/

def parseDesc (l : List Byte) (gather : Bool) : Desc :=
  let c := dbl l 24
  let z := dbl l 16
  { aw := BitVec.ofNat 64 (dbl l 0), bw := BitVec.ofNat 64 (dbl l 8), len := if gather then 0 else bits z 35 0
    cnt := bits c 63 63 == 1, ctr := bits c 62 60, cont := bits c 59 59 == 1, dep := bits c 58 57, dch := bits c 56 55
    strict := bits c 54 54 == 1, pool := bits c 53 53 == 1, unit := bits c 52 52 == 1
    side0 := BitVec.ofNat 64 (dbl l 32), side1 := BitVec.ofNat 64 (dbl l 40), depVal := dbl l 48
    tlen := bits z 63 32, n := if gather then bits z 31 12 else 0, row := 32 * bits z 11 0
    idx := BitVec.ofNat 64 (dbl l 64), stat := BitVec.ofNat 64 (dbl l 72), pitch := bits (dbl l 80) 63 32, stride := bits (dbl l 80) 31 0 }

/-- Every check that faults FORMAT (12 R210 R211 R227); `word56` is what +56 may hold. -/
def descFormat (l : List Byte) (gather word56 : Bool) : Bool :=
  let d := parseDesc l gather
  let c := dbl l 24
  let z := dbl l 16
  bits c 51 0 == 0 && d.dep != 3 && (d.dep == 1 || (d.dch == 0 && d.depVal == 0)) && (d.cont || (d.side0 == 0 && d.side1 == 0)) && word56
    && (if gather then !d.unit && d.row != 0 && decide (d.row ≤ 65536) && decide (d.row ≤ d.pitch) && decide (d.row ≤ d.stride) && dbl l 88 == 0
        else !d.strict && bits z 63 36 == 0 && !(d.cnt && !d.unit && decide (2 ^ 24 ≤ d.len)))

/-- Every check that faults ALIGN. -/
def descAlign (d : Desc) (gather : Bool) : Bool :=
  if gather then d.bw.toNat % 32 == 0 && d.stride % 32 == 0 && d.idx.toNat % 4 == 0
  else d.aw.toNat % 16 == 0 && d.bw.toNat % 16 == 0 && d.len % 16 == 0

/-- The bytes of the packed side. -/
def packedBytes (d : Desc) : Nat := if d.n = 0 then 0 else (d.n - 1) * d.stride + d.row

/-- A purse address word of a descriptor over an extent (12 R209), of which an empty one has its form and quad checked alone; a global form is
    checked as the engine runs. -/
def checkWord (s : State) (w : Word) (n : Nat) : Run Unit :=
  match formOf w with
  | none => failAt .access w
  | some (.glob _) => .ok ()
  | some f =>
    let ok := if n = 0 then (purseQuad s s.net s.quad f).isSome else (purseAccess s s.net s.quad f n).isSome
    if ok then .ok () else failAt .access w

def checkWords (s : State) (d : Desc) (gather : Bool) : Run Unit :=
  if gather then do
    checkWord s d.aw 1
    checkWord s d.bw (packedBytes d)
    checkWord s d.idx (4 * d.n)
    if d.stat = 0 then .ok () else checkWord s d.stat d.n
  else do
    checkWord s d.aw d.len
    checkWord s d.bw d.len

/-! ### The scoreboard (12 R216) -/

/-- The physical address of a net's virtual address at a quad, when it translates: what the scoreboard goes by, which walks nothing. -/
def peekPa (s : State) (q n va : Nat) : Option Nat :=
  match translation s q n va with
  | .ok (t, _) => some (t.pa + va % 2 ^ t.bits)
  | .error _ => none

/-- The 64 KiB pages of a virtual range: where each begins. -/
def pagesOf (va len : Nat) : List Nat := (List.range ((va % 65536 + len + 65535) / 65536)).map (fun i => va / 65536 * 65536 + 65536 * i)

/-- Whether some byte of a virtual range lies in the vault window. -/
def touchesVault (s : State) (q n va len : Nat) : Bool :=
  (pagesOf va len).any (fun v => match peekPa s q n v with | some pa => isVault pa | none => false)

/-- The length of a table range, clipped at the end of the purse or bank that holds it (12 R216), and of the virtual addresses. -/
def tableLen (s : State) (q n : Nat) (d : Desc) : Nat :=
  let len := d.tlen * d.pitch
  match formOf d.aw with
  | none => 0
  | some (.glob va) =>
    let len := min len (2 ^ 56 - va)
    (match peekPa s q n va with
     | some pa => if isVault pa then min len (2 ^ 18 - (pa - vaultBase) % 2 ^ 18) else len
     | none => len)
  | some f => min len (0x30000 - formOff f)

/-- The ranges of a command of a net on a quad: address word and bytes. -/
def cmdRanges (s : State) (q n : Nat) (k : CmdKind) (d : Desc) : List (Word × Nat) :=
  let collect := [(d.aw, tableLen s q n d), (d.bw, packedBytes d), (d.idx, 4 * d.n)] ++ (if d.stat = 0 then [] else [(d.stat, d.n)])
  match k with
  | .copy => [(d.aw, d.len), (d.bw, d.len)]
  | .gather => collect
  | .scatter => collect
  | .fence _ => []

/-- Whether a range is registered: some of it lies in a purse or in the vault window. -/
def registered (s : State) (q n : Nat) (r : Word × Nat) : Bool :=
  r.2 != 0 && (match formOf r.1 with
    | some (.glob va) => touchesVault s q n va r.2
    | some _ => true
    | none => false)

def rangeCount (s : State) (q n : Nat) (k : CmdKind) (d : Desc) : Nat := ((cmdRanges s q n k d).filter (registered s q n)).length

def State.chanCmds (s : State) (q : Nat) : List Cmd := (List.range 5).flatMap (fun c => (s.chan q c).queue)

/-- What a row of a gather or scatter does: its status bits, and whether its sectors move or are filled with zero (12 R223 R224). -/
inductive RowMode where
  | oob | misaligned | move
  deriving DecidableEq, Repr

/-- Where table row x starts: an exact sum (00 R6). -/
def rowStart (d : Desc) (x : Nat) : Nat := d.aw.toNat + x * d.pitch
def rowMode (d : Desc) (x : Nat) : RowMode :=
  if d.tlen ≤ x then .oob else if rowStart d x % 32 ≠ 0 then .misaligned else .move
/-- The granules that a row moves. -/
def rowGranules (c : Cmd) (m : RowMode) : Nat := if c.kind = .scatter ∧ m ≠ .move then 0 else c.desc.row / 16

/-- Whether granule k of row i has moved. -/
def granuleMoved (c : Cmd) (i k : Nat) : Bool := c.moved.contains i || c.rows.any (fun p => p.row == i && p.moved.contains k)
/-- Whether every granule of row i has moved; its status byte and its count may be left. -/
def rowMoved (c : Cmd) (i : Nat) : Bool := c.moved.contains i || c.rows.any (fun p => p.row == i && p.moved.length == rowGranules c (rowMode c.desc p.idx))

/-- Whether a copy has read a granule of its source: moved, or read with the rest as it began (12 R222). -/
def sourceRead (c : Cmd) (i : Nat) : Bool :=
  c.moved.contains i || (match c.snap with | some l => (l.getD i none).isSome | none => false)

/-- For each range of `cmdRanges`, whether the command has made its last access to it, which releases the range (12 R216). One that met an engine fault
    writes nothing more but the status of its rows (12 R219). -/
def rangesDone (c : Cmd) : List Bool :=
  let d := c.desc
  let ended := c.failed.isSome
  let rows := ended || (List.range d.n).all (rowMoved c)
  let collect := [rows, rows, ended || c.idxs.length == d.n, (List.range d.n).all c.moved.contains]
  match c.kind with
  | .copy => [ended || (List.range (d.len / 16)).all (sourceRead c), ended || c.moved.length == d.len / 16]
  | .gather => collect
  | .scatter => collect
  | .fence _ => []

/-- Whether the i-th range of a command is released. -/
def rangeDone (c : Cmd) (i : Nat) : Bool := (rangesDone c).getD i true

def rangesHeld (s : State) (q : Nat) : Nat :=
  ((s.chanCmds q).map (fun c => ((cmdRanges s q c.net c.kind c.desc).zipIdx.filter (fun r => registered s q c.net r.1 && !rangeDone c r.2)).length)).sum

/-- Room in a queue of 16 and in the scoreboard of 64 ranges (12 R208 R216). -/
def hasRoom (s : State) (q ch : Nat) (k : CmdKind) (d : Desc) (n : Nat) : Bool :=
  (s.chan q ch).queue.length < 16 && rangesHeld s q + rangeCount s q n k d ≤ 64

/-! ### Entry (12 R209 R227) -/

/-- A settled-mark dependency is lowered to the last identifier issued on its channel before this entry (12 R215). -/
def lowered (s : State) (q : Nat) (d : Desc) : Desc := if d.dep = 1 then { d with depVal := min d.depVal ((s.chan q d.dch).next - 1) } else d

/-- Enters a command in a queue: its identifier, and the state after. -/
def enter (q ch : Nat) (k : CmdKind) (d : Desc) (coin : Nat) (aw : Word) (s : State) : Nat × State :=
  let x := s.chan q ch
  let c : Cmd := { kind := k, desc := lowered s q d, coin := coin, net := s.th.net, cls := s.th.cls, id := x.next, seq := s.nextCmd, tid := s.th.tid,
                   quad := q, descAddr := aw, waitOp := d.dep == 2 }
  (x.next, ({ s with nextCmd := s.nextCmd + 1 } : State).setChan q ch { x with queue := x.queue ++ [c], next := x.next + 1 })

/-- The checks of a descriptor after it has been read (12 R209): FORMAT before ALIGN, then the words, the counter and the sides. -/
def checkDesc (l : List Byte) (gather word56 : Bool) (s : State) : Run Desc := do
  need (descFormat l gather word56) .format
  let d := parseDesc l gather
  need (descAlign d gather) .align
  checkWords s d gather
  need (!d.cnt || s.net.counters.getLsbD d.ctr) .access
  need (!d.cont || (sideOk d.side0 && sideOk d.side1)) .linkCorrupt
  .ok d

/-- The thread keeps the descriptor that it has read, so that a wait for room or for a borrow does not read it again (12 R209); that of a schedule's
    entry i with place i + 1, and any other with place 0. -/
def State.keepDesc (s : State) (d : Option (Nat × List Byte)) : State := s.setTh { s.th with desc := d }

/-- The descriptor at an address word, as one access of the thread, which keeps it; and whether that access was local. -/
def readDesc (aw : Word) (gather : Bool) (s : State) : Run (List Byte × Bool × State) :=
  match s.th.desc with
  | some (_, l) => .ok (l, true, s)
  | none => do
    alignedTo aw 32
    let (ks, s) ← access s aw (if gather then 96 else 64) 32 false needR false 32
    let r := clrLoads ks s
    .ok (r.1, ks.all (fun k => isLocal s k.1), r.2.keepDesc (some (0, r.1)))

/-- The rest of `cpy` and `stage` once their descriptor is read, at an address word (12 R209). -/
def copyEntry (l : List Byte) (word56 : Bool) (ch : Nat) (aw : Word) (d : Reg) (s : State) : Run State := do
  let ds ← checkDesc l false word56 s
  if !hasRoom s s.quad ch .copy ds s.th.net then waitOn .room
  else
    let (coin, t) ← coinSplit s
    let (id, t) := enter t.quad ch .copy ds coin aw t
    .ok (((t.keepDesc none).xw d (BitVec.ofNat 64 id)).pass 4)

/-- Leaves rotation where the run of an instruction left its thread in it, unless `here`. -/
def awayIf (away : Bool) (r : Run State) : Run State := r.map (fun s => s.awayUnless (!away))

def execCpy (d a : Reg) (ch : BitVec 2) (s : State) : Result :=
  match readDesc (s.x a) false s with
  | .error e => finish s (.error e)
  | .ok (l, here, t) => finish t (awayIf (!here) (copyEntry l (dbl l 56 == 0) ch.toNat (s.x a) d t))

def collectEntry (l : List Byte) (k : CmdKind) (aw : Word) (s : State) : Run State := do
  let ds ← checkDesc l true (dbl l 56 == 0) s
  if !hasRoom s s.quad 4 k ds s.th.net then waitOn .room
  else
    let (coin, t) ← coinSplit s
    let (_, t) := enter t.quad 4 k ds coin aw t
    .ok ((t.keepDesc none).pass 4)

def collect (a : Reg) (k : CmdKind) (s : State) : Result :=
  match readDesc (s.x a) true s with
  | .error e => finish s (.error e)
  | .ok (l, here, t) => finish t (awayIf (!here) (collectEntry l k (s.x a) t))

def execGath (a : Reg) (s : State) : Result := collect a .gather s
def execScat (a : Reg) (s : State) : Result := collect a .scatter s

/-- Enters a fence in one queue. -/
def enterFence (q : Nat) (mask : BitVec 5) (coin seq : Nat) (s : State) (ch : Nat) : State :=
  if mask.getLsbD ch then
    let x := s.chan q ch
    let c : Cmd := { kind := .fence mask, coin := coin, net := s.th.net, cls := s.th.cls, id := x.next, seq := seq, tid := s.th.tid, quad := q }
    s.setChan q ch { x with queue := x.queue ++ [c], next := x.next + 1 }
  else s

def qfenceRun (m : BitVec 5) (s : State) : Run State :=
  let q := s.quad
  if m = 0 then fail .illegal
  else if (List.range 5).any (fun c => m.getLsbD c && 16 ≤ (s.chan q c).queue.length) then waitOn .room
  else do
    let (coin, t) ← coinSplit s
    .ok (((List.range 5).foldl (enterFence q m coin t.nextCmd) { t with nextCmd := t.nextCmd + 1 }).pass 4)

def execQfence (m : BitVec 5) (s : State) : Result := finish s (qfenceRun m s)

/-! ### stage (12 R225 R229) -/

/-- The next schedule entry from a place on that names the issuing quad: its index and bytes. -/
def nextEntry : Nat → Nat → State → Run (Option (Nat × List Byte) × State)
  | 0, _, s => .ok (none, s)
  | k + 1, i, s =>
    reading (access s (globWord (s.net.schedBase + 64 * i)) 64 32 false needR false 32) fun ks t =>
    let r := clrLoads ks t
    if s.net.ofForm s (bits (dbl r.1 56) 17 0) = some s.quad then .ok (some (i, r.1), r.2) else nextEntry k (i + 1) r.2

/-- The entry that a `stage` takes: the one it has taken already, before a wait, else the quad's next. -/
def stageEntry (s : State) : Run (Option (Nat × List Byte) × State) :=
  let cur := (s.netq s.th.net s.quad).cursor
  match s.th.desc with
  | some (i + 1, l) => .ok (some (i, l), s)
  | _ => nextEntry (s.net.schedCount - cur) cur s

/-- Whether word +56 of a schedule entry keeps its zero bits (12 R225). -/
def entryWordOk (w : Nat) : Bool := bits w 63 50 == 0 && bits w 47 18 == 0

/-- The cursor passes entry i, which a `stage` keeps until it has entered it: entries are taken in the order in which `stage`s reach the cursor (12
    R225). -/
def takeEntry (i : Nat) (l : List Byte) (s : State) : State :=
  let nq := s.netq s.th.net s.quad
  (s.setNetq s.th.net s.quad { nq with cursor := max nq.cursor (i + 1) }).keepDesc (some (i + 1, l))

/-- `stage` (12 R225 R229): it leaves rotation where it reads an entry, which lies in global memory. An entry that fails its checks leaves the cursor on
    it. -/
def execStage (d : Reg) (s : State) : Result :=
  let n := s.th.net
  let q := s.quad
  match stageEntry s with
  | .error e => finish s (.error e)
  | .ok (none, t) => .next (((t.keepDesc none).xw d 0).pass 4 |>.awayUnless (s.net.schedCount ≤ (s.netq n q).cursor))
  | .ok (some (i, l), t) =>
    let w := dbl l 56
    match checkDesc l false (entryWordOk w) t with
    | .error e => finish t (.error e)
    | .ok _ =>
      let t := takeEntry i l t
      finish t (awayIf true (copyEntry l (entryWordOk w) (bits w 49 48) (globWord (s.net.schedBase + 64 * i)) d t))

/-! ### waitm, expect, waite (12 R212 R213 R214 R230 R231) -/

def execWaitm (a : Reg) (ch : BitVec 2) (s : State) : Result :=
  let c := s.chan s.quad ch.toNat
  let v := min (s.x a).toNat (c.next - 1)
  .next (if v ≤ c.mark then (if v = 0 then s else s.raise s.cur c.time).pass 4 else s.leave s.cur (.mark ch.toNat v))

def State.counter (s : State) (q k : Nat) : Counter := Tbl.getD s.counters (8 * q + k) {}
def State.setCounter (s : State) (q k : Nat) (c : Counter) : State := { s with counters := Tbl.set s.counters (8 * q + k) c }

def expectRun (a : Reg) (k : Nat) (s : State) : Run State := do
  need (s.net.counters.getLsbD k) .access
  let c := s.counter s.quad k
  let v := (s.x a).toNat
  need (decide (v < 2 ^ 24) && decide (c.count + v < 2 ^ 24)) .expectRange
  .ok ((s.setCounter s.quad k { c with count := c.count + v }).pass 4)

def execExpect (a : Reg) (k : BitVec 3) (s : State) : Result := finish s (expectRun a k.toNat s)

/-- A thread that finds its counter at zero (12 R231): UNDER goes to rd and is cleared. -/
def takeZero (b k : Nat) (d : Reg) (s : State) : State :=
  let q := quadOf b
  let c := s.counter q k
  let s := (s.setCounter q k { c with under := false }).raise b c.time
  let x := s.ctx b
  s.setCtx b { x with regs := setReg x.regs d (if c.under then 1 else 0), pc := x.pc + 4, wait := .ready }

def waiteRun (d : Reg) (k : Nat) (s : State) : Run State := do
  need (s.net.counters.getLsbD k) .access
  if (s.counter s.quad k).count = 0 then .ok (takeZero s.cur k d s) else waitOn (.counter k d)

def execWaite (d : Reg) (k : BitVec 3) (s : State) : Result := finish s (waiteRun d k.toNat s)

/-! ### Engine accesses (12 R219 R220, 08 R146 R153) -/

/-- Whether a peer-window offset names a valid slot whose module is verified on a span port that the slot allows (18 R322). -/
def peerOk (s : State) (off : Nat) : Bool :=
  let e := (Tbl.getD s.peers (bits off 47 44) 0).toNat
  bits e 63 63 == 1 && (List.range 16).any (fun p => e / 2 ^ (16 + p) % 2 == 1 && (match Tbl.get? s.span p with | some id => id.toNat == bits e 15 0 | none => false))
    && Config.peerGrants (BitVec.ofNat 16 (bits e 15 0)) (bits off 43 0)

/-- The physical check of an engine access (08 R146 R157, 12 R220): control space and the CXL and peer windows are open to the copy engine alone. -/
def physEngine (s : State) (nr : NetRec) (pa n : Nat) (write pool copier : Bool) : Bool :=
  match regionOf pa with
  | .hbm => decide (pa + n ≤ hbmTop) && (nr.priv || decide (pa + n ≤ s.resBase) || decide (s.resBase + s.resSize ≤ pa))
  | .vault => roleOf s pa != 0
  | .cxl => copier && pool && Tbl.getD s.hostMode (bits pa 47 47) .down == .cxl
  | .peer => copier && peerOk s (bits pa 47 0)
  | .control => copier && nr.priv && !write
  | .none => false

/-- How an engine access of at most 32 bytes ends: performed at a key, faulting (with its virtual address), or held for now. -/
inductive EngOut where
  | go (key : Nat) (s : State)
  | fault (c : Cause) (va : Nat) (s : State)
  | hold
  deriving DecidableEq, Repr

/-- Whether an access touches a sub-tile held by a gang instruction in progress (06 R107). -/
def heldAny (s : State) (key : Nat) : Bool :=
  match subTileCore key with
  | some c => s.mgangs.any (fun e => e.2.op.isSome && e.2.has c)
  | none => false

def engAccess (s : State) (q n : Nat) (aw : Word) (len : Nat) (write pool copier : Bool) : EngOut :=
  let nr := s.netRec n
  match formOf aw with
  | none => .fault .access 0 s
  | some (.glob va) =>
    (match translation s q n va with
     | .error (c, s) => .fault c va s
     | .ok (t, s) =>
       let pa := t.pa + va % 2 ^ t.bits
       if permitted t (if write then engW else engR) = false then .fault .access va s
       else if isVault pa && roleChanging s pa then .hold
       else if physEngine s nr pa len write pool copier = false then .fault .access va s
       else .go pa (hwRequest q pa s))
  | some f =>
    match purseAccess s nr q f len with
    | none => .fault .access 0 s
    | some k => if heldAny s k then .hold else .go k s

/-! ### Ordering against earlier commands (12 R216 R217) -/

/-- Where a granule of a purse or of the vault lies in a range: its offsets from the range's first byte, below 0 where the range begins within it, of
    which pages that map the same memory give several. -/
def rangeOffs (s : State) (q n : Nat) (aw : Word) (len g : Nat) : List Int :=
  match formOf aw with
  | none => []
  | some (.glob va) =>
    (pagesOf va len).filterMap (fun v =>
      match peekPa s q n v with
      | some pa => if isVault pa && pa ≤ 16 * g && 16 * g < pa + 65536 && va < v + (16 * g - pa) + 16 && v + (16 * g - pa) < va + len
                   then some (((v + (16 * g - pa) : Nat) : Int) - va) else none
      | none => none)
  | some f =>
    match purseAccess s (s.netRec n) q f 1 with
    | some k => if k < 16 * g + 16 && 16 * g < k + len then [((16 * g : Nat) : Int) - k] else []
    | none => []

/-- Where the granule at an offset of the table range lies in row i, from the row's first byte on, where the row's index is known and the row moves it. -/
def inTableRow (c : Cmd) (o : Int) (i : Nat) : Option Nat :=
  match c.idxs[i]? with
  | some x =>
    let k := o - ((x * c.desc.pitch : Nat) : Int)
    if rowMode c.desc x == .move && decide (0 ≤ k) && decide (k < c.desc.row) then some k.toNat else none
  | none => none

/-- Whether a command has still to reach the granule at an offset of its table range: until its indices tell which rows lie there and have moved it, or,
    where none does, until the range is released. -/
def tableBusy (c : Cmd) (o : Int) : Bool :=
  let here := (List.range c.desc.n).filterMap (fun i => (inTableRow c o i).map (fun k => (i, k / 16)))
  !rangeDone c 0 && !(c.idxs.length == c.desc.n && here != [] && here.all (fun e => granuleMoved c e.1 e.2))

/-- The same in its packed range, of which each granule belongs to one row, or to the gap behind it. -/
def packedBusy (c : Cmd) (o : Int) : Bool :=
  let d := c.desc
  let o := o.toNat
  let k := o % d.stride / 16
  !rangeDone c 1 && (if 16 * k < d.row then !granuleMoved c (o / d.stride) k else true)

/-- The same of the rows' status bytes, and of the indices. -/
def statBusy (c : Cmd) (o : Int) : Bool :=
  (List.range 16).any (fun j => decide (0 ≤ o + j) && decide (o + j < c.desc.n) && !c.moved.contains (o + j).toNat)
def indexBusy (c : Cmd) (o : Int) : Bool := !rangeDone c 2 && decide (c.idxs.length < min c.desc.n ((o + 19) / 4).toNat)

/-- Whether an earlier command may still read, and may still write, a granule. -/
def pending (s : State) (c : Cmd) (g : Nat) : Bool × Bool :=
  let d := c.desc
  let at' := fun (aw : Word) (len : Nat) (p : Int → Bool) => (rangeOffs s c.quad c.net aw len g).any p
  let stat := d.stat != 0 && at' d.stat d.n (statBusy c)
  let index := at' d.idx (4 * d.n) (indexBusy c)
  let packed := at' d.bw (packedBytes d) (packedBusy c)
  let table := at' d.aw (tableLen s c.quad c.net d) (tableBusy c)
  match c.kind with
  | .copy => (at' d.aw d.len (fun o => !rangeDone c 0 && !sourceRead c (o.toNat / 16)), at' d.bw d.len (fun o => !rangeDone c 1 && !c.moved.contains (o.toNat / 16)))
  | .gather => (table || index, packed || stat)
  | .scatter => (packed || index, table || stat)
  | .fence _ => (false, false)

/-- Whether a command's access to a granule must wait: for an earlier command of the quad, or for a footprint (12 R217). -/
def mustWait (s : State) (q seq key len : Nat) (write : Bool) : Bool :=
  (isPurse key || isVault key) && (granules key len).any (fun g =>
    (write && inFootprint s g) || (s.chanCmds q).any (fun c => c.seq < seq && (let p := pending s c g; p.2 || (write && p.1))))

/-- An engine access of a command, with the scoreboard's say. -/
def cmdAccess (s : State) (c : Cmd) (aw : Word) (len : Nat) (write : Bool) : EngOut :=
  match engAccess s c.quad c.net aw len write c.desc.pool (c.kind == .copy) with
  | .go k t => if mustWait s c.quad c.seq k len write then .hold else .go k (if write then t else parted k len t)
  | x => x

/-! ### What control space shows (18 R323), and engine reads and writes -/

def ownerWord (o : Owner) : Nat :=
  o.epoch.toNat * 2 ^ 32 + (if o.st = .handover then o.succ * 2 ^ 16 else 0) + (if o.st = .vacant then 0 else o.port * 2 ^ 8)
    + (match o.st with | .vacant => 0 | .owned => 1 | .handover => 2)

def aclWord (s : State) (i k : Nat) : Nat :=
  let e := Tbl.getD s.acl i { w0 := 0, w1 := 0, w2 := 0, w3 := 0 }
  (match k with | 0 => e.w0 | 1 => e.w1 | 2 => e.w2 | _ => e.w3).toNat

/-- A fuse-map byte. -/
def fuseByte (s : State) (i : Nat) : Nat :=
  ((List.range 8).map (fun b => let x := 8 * i + b; if s.fused.contains (quadAt (x % 512) (x / 512)) then 2 ^ b else 0)).sum

/-- A double of control space, at an offset that is a multiple of 8; `none` where the model has no value for it. -/
def controlWord (s : State) (o : Nat) : Option Nat :=
  if o = 0x1000 then some (ownerWord s.owner)
  else if o = 0x2000 then some s.resBase
  else if o = 0x2008 then some s.resSize
  else if o = 0x3000 ∨ o = 0x3008 then some (Tbl.getD s.bar2 (o / 8 % 2) 0)
  else if 0x4000 ≤ o ∧ o < 0x4080 then some (Tbl.getD s.peers ((o - 0x4000) / 8) 0).toNat
  else if 0x10000 ≤ o ∧ o < 0x12000 then some (aclWord s ((o - 0x10000) / 32) (o / 8 % 4))
  else if 0x20000 ≤ o ∧ o < 0x28000 then some (leNat ((List.range 8).map (fun i => BitVec.ofNat 8 (fuseByte s (o - 0x20000 + i)))))
  else if 0x100000 ≤ o ∧ o < 0x108000 then
    some (if o < 0x101000 ∧ o / 8 % 32 < 16 then Tbl.getD s.perf (16 * ((o - 0x100000) / 256) + o / 8 % 32) 0 else 0)
  else if 0x108000 ≤ o ∧ o < 0x110000 then
    some (if o < 0x109000 ∧ o / 8 % 32 < 16 then Tbl.getD s.perfSnap (16 * ((o - 0x108000) / 256) + o / 8 % 32) 0 else 0)
  else none

/-- A byte of control space; where R323 lists nothing, a free value (log entry 8). -/
def controlByte (s : State) (pa : Nat) : Byte :=
  let o := pa % 2 ^ 48
  match controlWord s (o / 8 * 8) with
  | some w => BitVec.ofNat 8 (w / 2 ^ (8 * (o % 8)))
  | none => Config.controlByte s.clock pa

/-- The bytes that an arrival read of an engine, host or peer returns. -/
def outerRead (s : State) (key n : Nat) : List Byte :=
  if regionOf key = .control ∧ !isPurse key then (List.range n).map (fun i => controlByte s (key + i)) else memRead s.mem key n

/-- The clearing time of the last write at a key. -/
def timeAt (s : State) (key : Nat) : Nat :=
  if isPurse key then (match Tbl.get? s.lines (granule key) with | some l => l.wts | none => 0) else (lineTime s (key / 256)).wts

/-- An engine write of a granule: zero and poisoned where the source was poisoned (12 R219), and only then full (08 R145). -/
def engWrite (key : Nat) (bs : List Byte) (bad : Bool) (s : State) : State :=
  if bad then
    let gs := granules key bs.length
    let s := arrStore s key (zeros bs.length)
    let s := { s with poison := gs ++ s.poison.filter (fun p => !gs.contains p) }
    if isPurse key then fillGranules s gs else s
  else arrWrite s key bs

end Sys2Proof.Machine
end

