-- ==== Sys2Proof/Machine/EngineEvents.lean ====
section
/-!
DEFINITION. The steps of the teller and the collector (12 R215 to R224).
-/

namespace Sys2Proof.Machine

def headCmd (s : State) (q ch : Nat) : Option Cmd := (s.chan q ch).queue.head?
def setHead (q ch : Nat) (c : Cmd) (s : State) : State :=
  let x := s.chan q ch
  s.setChan q ch { x with queue := c :: x.queue.drop 1 }

/-- Whether the quad is halted for debugging (17 R307). -/
def quadHalted (s : State) (q : Nat) : Bool := s.netqs.any (fun e => e.1 % 2 ^ 18 == q && e.2.halted)

/-! ### Beginning (12 R208 R215 R222 R228) -/

/-- Whether a command's dependency is met. -/
def depMet (s : State) (c : Cmd) : Bool :=
  match c.desc.dep with
  | 1 => decide (c.desc.depVal ≤ (s.chan c.quad c.desc.dch).mark)
  | 2 => !c.waitOp
  | _ => true

/-- A fence stands at the head of every queue it names, or has left it. -/
def fenceReady (s : State) (q seq : Nat) : Bool :=
  (List.range 5).all (fun ch => match (s.chan q ch).queue with
    | [] => true
    | x :: r => x.seq == seq || r.all (·.seq != seq))

/-- Source and destination of a copy overlap as their address words show. -/
def overlaps (d : Desc) : Bool := d.aw.toNat < d.bw.toNat + d.len && d.bw.toNat < d.aw.toNat + d.len

/-- The address word of a copy's source granule. -/
def sourceWord (d : Desc) (i : Nat) : Word := d.aw + BitVec.ofNat 64 (16 * i)

/-- Reads granules of a copy's source as they stand, with what of them is poisoned; `none` while one must wait. One that faults leaves its place
    empty. -/
def readSource (c : Cmd) : List Nat → State → Option (List (Option (List Byte × Bool)) × State)
  | [], s => some ([], s)
  | i :: r, s =>
    match cmdAccess s c (sourceWord c.desc i) 16 false with
    | .hold => none
    | .fault _ _ t => (readSource c r t).map (fun x => (none :: x.1, x.2))
    | .go k t => (readSource c r t).map (fun x => (some (outerRead t k 16, poisoned t k 16) :: x.1, x.2))

/-- Source granules that could not be read when the copy began, and that can now, are read before anything more is written (12 R220 R222). -/
def refreshSnap (c : Cmd) : List (Option (List Byte × Bool)) → Nat → State → List (Option (List Byte × Bool)) × State
  | [], _, s => ([], s)
  | some x :: r, i, s => let (l, s) := refreshSnap c r (i + 1) s; (some x :: l, s)
  | none :: r, i, s =>
    let (x, s) := match cmdAccess s c (sourceWord c.desc i) 16 false with
      | .go k t => (some (outerRead t k 16, poisoned t k 16), t)
      | .fault _ _ t => (none, t)
      | .hold => (none, s)
    let (l, s) := refreshSnap c r (i + 1) s
    (x :: l, s)

def execCommandStart (q ch : Nat) (s : State) : Result :=
  match headCmd s q ch with
  | none => .next s
  | some c =>
    if c.started || c.voided || quadHalted s q || !depMet s c then .next s
    else
      let c := { c with started := true, time := max c.time (if c.desc.dep = 1 then (s.chan q c.desc.dch).time else 0) }
      match c.kind with
      | .fence _ => .next (if fenceReady s q c.seq then setHead q ch c s else s)
      | .copy =>
        if overlaps c.desc then
          match readSource c (List.range (c.desc.len / 16)) s with
          | none => .next s
          | some (l, s) => .next (setHead q ch { c with snap := some l } s)
        else .next (setHead q ch c s)
      | _ => .next (setHead q ch c s)

/-! ### Faults and page requests (12 R219 R220) -/

/-- A pool-class command's PAGE fault stops it in place; any other ends it. -/
def stopCmd (c : Cmd) (x : Cause) (va : Nat) : Cmd :=
  if x = .page && c.desc.pool then { c with stopped := some va } else { c with failed := some x }

def running (c : Cmd) : Bool := c.started && c.failed.isNone && c.stopped.isNone

/-! ### Copies (12 R222) -/

/-- Moves one granule, or leaves it where it must wait. -/
def moveGranule (q ch : Nat) (s : State) (i : Nat) : State :=
  match headCmd s q ch with
  | none => s
  | some c =>
    if !running c || c.kind != .copy || c.desc.len / 16 ≤ i || c.moved.contains i then s
    else
      let (l, s) := refreshSnap c (c.snap.getD []) 0 s
      let c := { c with snap := c.snap.map (fun _ => l) }
      match cmdAccess s c (sourceWord c.desc i) 16 false with
      | .hold => s
      | .fault x va s => setHead q ch (stopCmd c x va) s
      | .go ks t =>
        match cmdAccess t c (c.desc.bw + BitVec.ofNat 64 (16 * i)) 16 true with
        | .hold => s
        | .fault x va t => setHead q ch (stopCmd c x va) t
        | .go kd t =>
          let src := match c.snap.bind (fun l => l.getD i none) with
            | some x => x
            | none => (outerRead t ks 16, poisoned t ks 16)
          let t := engWrite kd src.1 src.2 t
          setHead q ch { c with moved := i :: c.moved, time := max c.time (timeAt t kd) } t

def execTellerCopy (q ch : Nat) (gs : List Nat) (s : State) : Result := .next (gs.foldl (moveGranule q ch) s)

/-! ### Expect counters and marks (12 R212 R213) -/

/-- Wakes the threads of a quad that wait for a counter at zero. -/
def wakeCounter (q k : Nat) (s : State) : State :=
  if (s.counter q k).count ≠ 0 then s
  else s.berths.foldl (fun t e => match e.2.ctx.wait with
    | .counter j d => if j = k ∧ quadOf e.1 = q then takeZero e.1 k d t else t
    | _ => t) s

/-- A subtraction from a counter. -/
def subtract (q k amt time : Nat) (s : State) : State :=
  let c := s.counter q k
  let c := if amt ≤ c.count then { c with count := c.count - amt } else { c with count := 0, under := true }
  wakeCounter q k (s.setCounter q k { c with time := max c.time time })

/-- Wakes the threads of a quad whose mark has been reached. -/
def wakeMark (q ch : Nat) (s : State) : State :=
  let x := s.chan q ch
  s.berths.foldl (fun t e => match e.2.ctx.wait with
    | .mark c v =>
      if c = ch ∧ quadOf e.1 = q ∧ v ≤ x.mark then
        let t := t.raise e.1 x.time
        let y := t.ctx e.1
        t.setCtx e.1 { y with pc := y.pc + 4, wait := .ready }
      else t
    | _ => t) s

/-! ### Gathers and scatters (12 R223 R224) -/

/-- The status bits of a row that is done. -/
def rowStatus (m : RowMode) (bad : Bool) : Nat := match m with | .oob => 4 | .misaligned => 2 | .move => if bad then 9 else 1

/-- Whether a table row lies where its words can name it: a purse row ends below offset 0x30000 (12 R209), a global one within the virtual
    addresses (08 R140). -/
def rowFits (d : Desc) (x : Nat) : Bool :=
  match formOf d.aw with
  | some (.glob va) => decide (va + x * d.pitch + d.row ≤ 2 ^ 56)
  | some f => decide (formOff f + x * d.pitch + d.row ≤ 0x30000)
  | none => false

/-- How the granules of a row end: those done, whether one was poisoned, the time, and why they stop short. -/
structure RowOut where
  moved : List Nat
  bad : Bool
  time : Nat
  stop : Option (Cause × Nat)

/-- Moves granules k of row i in turn, each by one engine access of its source and one of its destination (12 R219 R223). -/
def moveSectors (c : Cmd) (i x : Nat) (m : RowMode) : List Nat → RowOut → State → RowOut × State
  | [], o, s => (o, s)
  | k :: r, o, s =>
    let packed := c.desc.bw + BitVec.ofNat 64 (i * c.desc.stride + 16 * k)
    let table := BitVec.ofNat 64 (rowStart c.desc x + 16 * k)
    let (src, dst) := if c.kind = .gather then (table, packed) else (packed, table)
    let read : EngOut := match m with | .move => cmdAccess s c src 16 false | _ => .go 0 s
    match read with
    | .hold => (o, s)
    | .fault e va s => ({ o with stop := some (e, va) }, s)
    | .go ks t =>
      match cmdAccess t c dst 16 true with
      | .hold => (o, s)
      | .fault e va t => ({ o with stop := some (e, va) }, t)
      | .go kd t =>
        let data := match m with | .move => outerRead t ks 16 | _ => zeros 16
        let p := match m with | .move => poisoned t ks 16 | _ => false
        let t := engWrite kd data p t
        moveSectors c i x m r { o with moved := k :: o.moved, bad := o.bad || p, time := max o.time (timeAt t kd) } t

/-- An earlier row of a scatter that is not done and names the same table row (12 R224). -/
def earlierSame (c : Cmd) (i x : Nat) : Bool :=
  c.kind == .scatter && (List.range i).any (fun j => !c.moved.contains j && c.idxs[j]? == some x)

def setProg (c : Cmd) (p : RowProg) : Cmd := { c with rows := p :: c.rows.filter (fun r => r.row != p.row) }

/-- A row is done: it is counted, and a strict command ends on an index out of range. -/
def countRow (q : Nat) (c : Cmd) (i : Nat) (m : RowMode) (failed : Option Cause) (s : State) : State :=
  let f := match failed with
    | some x => some x
    | none => if m = .oob ∧ c.desc.strict then some .access else none
  let c := { c with moved := i :: c.moved, rows := c.rows.filter (fun r => r.row != i), failed := f }
  let s := setHead q 4 c s
  if c.desc.cnt then subtract q c.desc.ctr 1 c.time s else s

/-- The status byte of a row whose sectors are done, then the count (12 R223). -/
def closeRow (q : Nat) (c : Cmd) (i : Nat) (m : RowMode) (bad : Bool) (s : State) : State :=
  if c.desc.stat = 0 then countRow q c i m none s
  else
    match cmdAccess s c (c.desc.stat + BitVec.ofNat 64 i) 1 true with
    | .hold => setHead q 4 c s
    | .fault x va s => if x = .page && c.desc.pool then setHead q 4 { c with stopped := some va, statRow := some i } s else countRow q c i m (some x) s
    | .go k t =>
      let t := arrWrite t k [BitVec.ofNat 8 (rowStatus m bad)]
      countRow q { c with time := max c.time (timeAt t k) } i m none t

/-- What one step moves of the granules that a row has left: one of them, or all, as the hardware chooses (09 R159; log entry 3). -/
def nextGranules (left : List Nat) (s : State) : List Nat × State :=
  if left = [] then ([], s)
  else
    let (c, s) := choice s (2 * left.length)
    (if c < left.length then (left.drop c).take 1 else left, s)

/-- Row i with its index, from where it stands. -/
def runRow (q : Nat) (c : Cmd) (p : RowProg) (s : State) : State :=
  let m := rowMode c.desc p.idx
  if earlierSame c p.row p.idx then setHead q 4 c s
  else if m = .move ∧ rowFits c.desc p.idx = false then setHead q 4 { c with failed := some .access } s
  else
    let n := rowGranules c m
    let (ks, s) := nextGranules ((List.range n).filter (fun k => !p.moved.contains k)) s
    let (o, s) := moveSectors c p.row p.idx m ks { moved := p.moved, bad := p.bad, time := c.time, stop := none } s
    let c := { setProg c { p with moved := o.moved, bad := o.bad } with time := o.time }
    match o.stop with
    | some (x, va) => setHead q 4 (stopCmd c x va) s
    | none => if o.moved.length < n then setHead q 4 c s else closeRow q c p.row m o.bad s

/-- Reads indices in list order, k of them at most (12 R223): whether all were read, the command and the state. -/
def readIdxs (c : Cmd) : Nat → State → Bool × Cmd × State
  | 0, s => (true, c, s)
  | k + 1, s =>
    match cmdAccess s c (c.desc.idx + BitVec.ofNat 64 (4 * c.idxs.length)) 4 false with
    | .hold => (false, c, s)
    | .fault x va s => (false, stopCmd c x va, s)
    | .go key t =>
      if poisoned t key 4 then (false, { c with failed := some .poison }, t)
      else readIdxs { c with idxs := c.idxs ++ [leNat (outerRead t key 4)] } k t

/-- The next act of a row of the collector's command: a row whose index has not been read begins with the next batch, of up to 64 indices. -/
def rowStep (q i : Nat) (k : CmdKind) (s : State) : State :=
  match headCmd s q 4 with
  | none => s
  | some c =>
    if !running c || c.kind != k || c.desc.n ≤ i || c.moved.contains i || c.idxs.length + 64 ≤ i then s
    else
      match readIdxs c (i + 1 - c.idxs.length) s with
      | (false, c, t) => setHead q 4 c t
      | (true, c, t) =>
        let p := match c.rows.find? (fun r => r.row == i) with
          | some p => p
          | none => { row := i, idx := c.idxs.getD i 0, moved := [], bad := false }
        runRow q (setProg c p) p t

/-- The bursar's answer to a page request (12 R220): "retry" follows the removal of the net's translations of the page (17 R316). Where the request
    was for a status write, "refuse" leaves that byte unwritten, and its row counts as complete (12 R223). -/
def execReplayAnswer (q ch : Nat) (retry : Bool) (s : State) : Result :=
  match headCmd s q ch with
  | none => .next s
  | some c =>
    match c.stopped with
    | none => .next s
    | some va =>
      if retry then .next (setHead q ch { c with stopped := none, statRow := none } (dropEntries c.net (va / 65536 * 65536) (va / 65536 * 65536 + 65536) s))
      else
        let x := c.failed.getD .page
        match c.statRow with
        | some i => .next (countRow q { c with stopped := none, statRow := none } i .move (some x) s)
        | none => .next (setHead q ch { c with stopped := none, failed := some x } s)

def execGatherRow (q row : Nat) (s : State) : Result := .next (rowStep q row .gather s)
def execScatterRow (q row : Nat) (s : State) : Result := .next (rowStep q row .scatter s)

/-! ### Completion (12 R208 R212 R219 R221, 09 R175) -/

/-- How a command at the head of its queue ends now, if it does. -/
inductive Ending where
  | done
  | fault (c : Cause)
  | cancelled
  deriving DecidableEq, Repr

def isVoided (s : State) (c : Cmd) : Bool := c.voided || (s.netRec c.net).st == .voiding

def ending (s : State) (c : Cmd) : Option Ending :=
  if isVoided s c && (!c.started || c.stopped.isSome) then some .cancelled
  else if !c.started || c.stopped.isSome then none
  else
    match c.failed with
    | some x => some (.fault x)
    | none =>
      match c.kind with
        | .fence _ => some .done
        | .copy => if c.moved.length = c.desc.len / 16 then some .done else none
        | _ => if c.moved.length = c.desc.n then some .done else none

/-- Flags FAULT in the status of every row that an ended gather or scatter leaves, each of which then counts as complete (12 R219 R223): whether
    that is done, or a status byte must wait, for an earlier access or for the bursar (12 R220). -/
def flagRows (q : Nat) : List Nat → Cmd → State → Bool × Cmd × State
  | [], c, s => (true, c, s)
  | i :: r, c, s =>
    let next := fun (c : Cmd) (s : State) =>
      flagRows q r { c with moved := i :: c.moved } (if c.desc.cnt then subtract q c.desc.ctr 1 c.time s else s)
    match cmdAccess s c (c.desc.stat + BitVec.ofNat 64 i) 1 true with
    | .hold => (false, c, s)
    | .fault x va s =>
      if x = .page && c.desc.pool then (false, { c with stopped := some va, statRow := some i }, s)
      else next c s
    | .go k t =>
      let t := arrWrite t k [16]
      next { c with time := max c.time (timeAt t k) } t

def isCollect (k : CmdKind) : Bool := match k with | .gather => true | .scatter => true | _ => false
def rowsLeft (c : Cmd) : List Nat := if isCollect c.kind then (List.range c.desc.n).filter (fun i => !c.moved.contains i) else []

/-- What a command still has to subtract from its counter at its end. -/
def amountLeft (c : Cmd) : Nat :=
  if !c.desc.cnt then 0
  else match c.kind with
    | .copy => if c.desc.unit then 1 else c.desc.len
    | .fence _ => 0
    | _ => c.desc.n - c.moved.length

/-- Where a command's coin goes (12 R208 R215 R219 R221): to a continuation, to a fault redex, or back to the mint. `none` while the spill
    pool has no room for a continuation. -/
def spendCoin (q : Nat) (c : Cmd) (e : Ending) (s : State) : Option State :=
  let back := fun (s : State) => some (sendReturn c.net c.coin c.time q s)
  if isVoided s c then back s
  else match e with
    | .fault x =>
      let (handled, s) := hasHandler c.net q s
      if handled then
        let nq := s.netq c.net q
        let f : EngFault := { seq := c.seq, cause := x, coin := c.coin, cls := c.cls, descAddr := c.descAddr, time := c.time }
        some (serveEng c.net q 4 (s.setNetq c.net q { nq with waiting := nq.waiting ++ [2 ^ 64 + c.seq], eng := nq.eng ++ [f] }))
      else back (startVoid c.net 2 3 s)
    | .done =>
      if c.desc.cont then
        pushRec q { a := c.desc.side0, b := c.desc.side1, coin := c.coin, net := c.net, cls := c.cls, typ := 0, time := c.time } s
      else back s
    | .cancelled => back s

/-- A fence has left every other queue. -/
def lastFence (s : State) (q ch seq : Nat) : Bool :=
  (List.range 5).all (fun x => x == ch || (s.chan q x).queue.all (·.seq != seq))

/-- The command leaves its queue; a channel's mark rises by one. -/
def popCmd (q ch : Nat) (c : Cmd) (s : State) : State :=
  let x := s.chan q ch
  wakeMark q ch (s.setChan q ch { x with queue := x.queue.drop 1, mark := if ch < 4 then x.mark + 1 else x.mark, time := max x.time c.time })

def complete (q ch : Nat) (c : Cmd) (e : Ending) (s : State) : State :=
  let flagged := match e with
    | .fault _ => if c.desc.stat = 0 then (true, c, s) else flagRows q (rowsLeft c) c s
    | _ => (true, c, s)
  match flagged with
  | (false, c, t) => setHead q ch c t
  | (true, c, t) =>
    let paid := match c.kind with
      | .fence _ => if lastFence t q ch c.seq then spendCoin q c e t else some t
      | _ => spendCoin q c e t
    match paid with
    | none => noteDry (setHead q ch c t)
    | some t =>
      let t := popCmd q ch c t
      if c.desc.cnt then subtract q c.desc.ctr (amountLeft c) c.time t else t

def execEngineCompletion (q ch : Nat) (s : State) : Result :=
  match headCmd s q ch with
  | none => .next s
  | some c =>
    match ending s c with
    | none => .next s
    | some e => .next (complete q ch c e s)

end Sys2Proof.Machine
end

