-- ==== Sys2Proof/Machine/Placement.lean ====
section
/-!
DEFINITION. Placing work: dispatch, admission, arrivals, refills and steals (02 R31 to R35, 13 R238 to R244, 15 R265 R267 R270, 17 R305 R306).
Each definition `exec…` is one step of the table; it changes nothing where the step cannot happen.
-/

namespace Sys2Proof.Machine

/-! ### Messages on the near net (01 R16) -/

def isReturn (m : Msg) : Bool := match m.body with | .ret .. => true | _ => false

/-- The message at a place in flight, and the state without it. Messages between one pair of quads keep their order (01 R16); returns to
    mints travel on the bank net and keep none. -/
def takeMsg (s : State) (i : Nat) : Option (Msg × State) :=
  match s.msgs[i]? with
  | none => none
  | some m =>
    if isReturn m || !(s.msgs.take i).any (fun x => x.src == m.src && x.dst == m.dst && !isReturn x) then some (m, { s with msgs := s.msgs.eraseIdx i })
    else none

/-- The net of a message that carries work, or of a flit. -/
def msgNet : MsgBody → Option Nat
  | .redex r _ => some r.net
  | .context c _ => some c.net
  | .steal rs => rs.head?.map (·.net)
  | .flit _ _ _ n _ => some n
  | .sweep .. => none
  | .ret .. => none

/-- Changes every thread of a test, wherever it stands: in a berth, resident, or evicted. -/
def mapThreads (p : Nat → Ctx → Bool) (f : Ctx → Ctx) (s : State) : State :=
  { s with
    berths := s.berths.map (fun e => (e.1, if p (coreId e.1) e.2.ctx then { e.2 with ctx := f e.2.ctx } else e.2))
    residents := s.residents.map (fun e => (e.1, if p (coreId e.1) e.2 then f e.2 else e.2))
    evicted := s.evicted.map (fun e => (e.1, e.2.map (fun c => if p e.1 c then f c else c))) }

/-- The cores on which a thread of a test stands, wherever it is kept. -/
def coresWith (p : Nat → Ctx → Bool) (s : State) : List Nat :=
  (s.berths.filter (fun e => p (coreId e.1) e.2.ctx)).map (fun e => coreId e.1)
    ++ (s.residents.filter (fun e => p (coreId e.1) e.2)).map (fun e => coreId e.1)
    ++ (s.evicted.filter (fun e => e.2.any (p e.1))).map (·.1)

/-- The floors of the quads of some cores, to whose threads a clearing time is handed (09 R164). -/
def handTime (cores : List Nat) (time : Nat) (s : State) : State :=
  { s with floors := cores.foldl (fun f c => Tbl.set f (c / 4) (max (Tbl.getD f (c / 4) 0) time)) s.floors }

/-- The receiver has entered a record or context: its sender returns to rotation (15 R264 R271). -/
def wakeSender (t : Option Nat) (s : State) : State :=
  match t with
  | none => s
  | some tid => mapThreads (fun _ c => c.tid == tid && c.wait == .sent) (fun c => { c with wait := .ready }) s

/-- Enters records in turn at the newest end. -/
def pushRecs (q : Nat) : List Rec → State → Option State
  | [], s => some s
  | r :: rs, s => match pushRec q r s with
    | none => none
    | some s => pushRecs q rs s

/-- Returns the coins of records. -/
def returnRecs (q : Nat) (rs : List Rec) (s : State) : State := rs.foldl (fun s r => sendReturn r.net r.coin r.time q s) s

/-- Discards the k newest records of a quad's deque: their coins go back. -/
def dropNewest (q k : Nat) (s : State) : State :=
  let d := s.deque q
  returnRecs q (d.drop (d.length - k)) (s.setDeque q (d.take (d.length - k)))

/-- Records arrive at a quad and enter its deque (13 R238). Those of a net that is voiding there are discarded on arrival, as 14 R257 has it of a
    message, or when a berth or a steal would take them, as it has it of a deque's record: which of the two is a choice (log entry 48). -/
def deliverRecs (q : Nat) (rs : List Rec) (s : State) : Option State :=
  (pushRecs q rs s).map (fun t =>
    if rs.any (fun r => s.netStateAt r.net q == .voiding) then
      let (c, t) := choice t 2
      if c = 0 then dropNewest q rs.length t else t
    else t)

/-- A message that carries work enters its quad (13 R238 R242, 14 R257): `none` while no spill block is free. -/
def deliver (m : Msg) (s : State) : Option State :=
  match m.body with
  | .redex r t => (deliverRecs m.dst [r] s).map (wakeSender t)
  | .steal rs => deliverRecs m.dst rs s
  | .context c t => (arrive (4 * m.dst + c.core) c s).map (wakeSender t)
  | _ => some s

def haltedAt (s : State) (n q : Nat) : Bool := (s.netq n q).halted

/-- What a message looks like in the suspense area (17 R307): a redex record, a context's 96 bytes, or a flit with its berths, its net and its time
    (log entry 6). -/
def suspenseBytes (s : State) : MsgBody → List Byte
  | .redex r _ => recBytes r
  | .steal rs => rs.flatMap recBytes
  | .context c _ => ctxBytes s c
  | .flit d dst sender n t => leBytes 32 d.toNat ++ [dst, sender, n, t].flatMap (leBytes 8)
  | _ => []

/-- A message goes to the suspense area; stolen records are kept one by one. -/
def suspend (m : Msg) (s : State) : State :=
  let ms := match m.body with | .steal rs => rs.map (fun r => { m with body := .steal [r] }) | _ => [m]
  ms.foldl (fun s m =>
    let i := freeSuspense s
    hwWrite { s with suspense := s.suspense ++ [(i, m)] } (suspensePa s i) (suspenseBytes s m.body)) s

/-- Whether a message goes to the suspense area of the quad that it comes to. -/
def suspends (s : State) (m : Msg) : Bool :=
  match msgNet m.body with
  | some n => haltedAt s n m.dst && (s.netRec n).st != .voiding
  | none => false

/-- A message of work arrives: at a quad halted for its net it goes to the suspense area (17 R307), unless the net is voiding (14 R257). -/
def receive (p : MsgBody → Bool) (i : Nat) (s : State) : State :=
  match takeMsg s i with
  | none => s
  | some (m, t) =>
    if !p m.body then s
    else if suspends s m then
      wakeSender (match m.body with | .redex _ w => w | .context _ w => w | _ => none) (suspend m t)
    else orDry (deliver m t) s

def isRedex (b : MsgBody) : Bool := match b with | .redex .. => true | _ => false
def isContext (b : MsgBody) : Bool := match b with | .context .. => true | _ => false
def isSteal (b : MsgBody) : Bool := match b with | .steal _ => true | _ => false

def execRemoteRedex (msg : Nat) (s : State) : Result := .next (receive isRedex msg s)
def execContextArrival (msg : Nat) (s : State) : Result := .next (receive isContext msg s)
def execStealReply (msg : Nat) (s : State) : Result := .next (receive isSteal msg s)

/-! ### What a free berth takes (13 R241, 17 R306) -/

/-- The berths of a quad that a net holds; those reserved for a vector gang count for the leader's net. -/
def heldBy (s : State) (q n : Nat) : Nat :=
  (s.berths.filter (fun e => quadOf e.1 == q && e.2.ctx.net == n)).length
    + (s.vgangs.map (fun g => if (s.ctx g.1).net = n then (g.2.members.filter (fun m => quadOf m.2.1 == q)).length else 0)).sum

def mayTake (s : State) (q n : Nat) : Bool :=
  (s.netStateAt n q == .bound || s.netStateAt n q == .voiding) && decide (heldBy s q n < (s.netRec n).spawnLim)

/-- The lowest-numbered free berth of a core. -/
def lowestFree (s : State) (core : Nat) : Option Nat := ((List.range 16).map (16 * core + ·)).find? (berthFree s)

inductive Fill where
  | evicted (i : Nat)
  | context (i : Nat)
  | record (i : Nat)
  deriving DecidableEq, Repr

/-- Whether a berth could take a record: its net may, or its net is not bound and the record goes nowhere (02 R31). -/
def recCand (s : State) (q : Nat) (r : Rec) : Bool := mayTake s q r.net || s.netStateAt r.net q == .free

/-- The newest record of the highest class among those a test admits: its place in the deque. -/
def bestRec (p : Rec → Bool) : List Rec → Nat → Option (Nat × BitVec 2) → Option (Nat × BitVec 2)
  | [], _, best => best
  | r :: rs, i, best => bestRec p rs (i + 1) (if p r && (match best with | some (_, c) => c.ule r.cls | none => true) then some (i, r.cls) else best)

/-- What fills a free berth of a core (13 R241): evicted contexts stand ahead of arrivals (17 R306). -/
def fill (s : State) (core : Nat) : Option Fill :=
  let q := core / 4
  let e := Tbl.getD s.evicted core []
  let i := e.findIdx (fun c => mayTake s q c.net)
  if i < e.length then some (.evicted i)
  else
    let a := s.arrQ core
    let j := a.findIdx (fun c => mayTake s q c.net)
    if j < a.length then some (.context j)
    else (bestRec (recCand s q) (s.deque q) 0 none).map (fun b => .record b.1)

/-- The cores of a quad in the order in which they are served next (13 R241). -/
def coreOrder (s : State) (q : Nat) : List Nat := [1, 2, 3, 4].map (fun i => 4 * q + (Tbl.getD s.rr q 3 + i) % 4)

/-- What a berth is offered now: cores are served round robin from the one after the last served (13 R241). -/
def offered (s : State) (b : Nat) : Option Fill :=
  match (coreOrder s (quadOf b)).find? (fun c => (lowestFree s c).isSome && (fill s c).isSome) with
  | some c => if lowestFree s c = some b then fill s c else none
  | none => none

/-- A thread takes a berth, which first evicts the context resident in its bank (17 R305); `none` while the spill pool is exhausted. -/
def seat (b : Nat) (c : Ctx) (s : State) : Option State :=
  match evictBank b s with
  | none => none
  | some s => some { s.setBerth b { ctx := c } with rr := Tbl.set s.rr (quadOf b) (coreOf b) }

/-! ### Dispatch (02 R32, 15 R264 R265) -/

/-- The kind and the header of a node that dispatch accepts (02 R23 R30). -/
def nodeOf (l : List Byte) : Option (Nat × Word) := if headerOk (bytesWord l) then some (hdrKind (bytesWord l), bytesWord l) else none

/-- A side as dispatch reads it at program time p: its kind, and the header of a node; `none` for one that it refuses. An error is a wait. -/
def openSide (n q p : Nat) (w : Word) (s : State) : Run (Option (Nat × Word) × State) :=
  if isImm w then .ok (some (immKind w, 0), s) else (hwTry n q p (addrOf w) 8 s).map (fun r => (r.1.bind nodeOf, r.2))

/-- A side of a redex: its port word, its kind, and its header. -/
abbrev Side := Word × Nat × Word

/-- Sides A and B of a record with their kinds and headers (02 R24). -/
def orderSides (n q p : Nat) (a b : Word) (s : State) : Run (Option (Side × Side) × State) :=
  reading (openSide n q p a s) fun x s =>
    reading (openSide n q p b s) fun y s =>
      .ok (match x, y with
        | some x, some y => if y.1 < x.1 ∨ (y.1 = x.1 ∧ b.toNat < a.toNat) then some ((b, y), (a, x)) else some ((a, x), (b, y))
        | _, _ => none, s)

/-- What a thread receives for a side. -/
def sideReg (w : Word) : Word := if isImm w then w else addrOf w

/-- The sealed reference count that x3 receives (02 R32 step 4): 0 without ACC or S; `none` where it cannot be read. -/
def sealedCount (n q p : Nat) (acc : Bool) (h : Word) (s : State) : Run (Option Word × State) :=
  if !(acc && hdrS h) then .ok (some 0, s) else (hwTry n q p (globWord (countAddr h)) 8 s).map (fun r => (r.1.map bytesWord, r.2))

/-- The thread that dispatch makes of a record from program time p on, its fault if it faults, and the state after its reads (02 R32, 17 R299). -/
def dispatchCtx (q p : Nat) (r : Rec) (s : State) : Run ((Ctx × Option FaultInfo) × State) :=
  let n := r.net
  let nr := s.netRec n
  let c : Ctx := { tid := s.nextTid, net := n, coin := r.coin, cls := r.cls }
  let bad := fun (c : Ctx) (x : Cause) (info pc : Nat) (s : State) =>
    (.ok (({ c with pc := BitVec.ofNat 56 pc }, some { cause := x, info := BitVec.ofNat 32 info, pc := BitVec.ofNat 56 pc }), s)
      : Run ((Ctx × Option FaultInfo) × State))
  reading (if sideOk r.a && sideOk r.b then orderSides n q p r.a r.b s else .ok (none, s)) fun sides s =>
    match sides with
    | none => bad c .linkCorrupt 0x80000000 nr.ruleBase s
    | some ((aw, ka, ha), (bw, kb, _)) =>
      let key := 256 * ka + kb
      let info := 0x80010000 + key
      let pc := nr.ruleBase + 4 * key
      if (r.typ = 1 ∧ kb ≠ 0xFE) ∨ (r.typ = 0 ∧ (ka = 0xFE ∨ kb = 0xFE)) then bad c .linkCorrupt info pc s
      else
        let c := { c with regs := setReg (setReg c.regs 1 (sideReg aw)) 2 (sideReg bw) }
        reading (ruleEntry n q p key s) fun e s =>
          match e with
          | none => bad c .illegal info pc s
          | some (e, acc) =>
            reading (sealedCount n q p acc ha s) fun v s =>
              match v with
              | none => bad c .linkCorrupt info pc s
              | some v =>
                .ok (({ c with regs := setReg c.regs 3 v, pc := BitVec.ofNat 56 (nr.codeBase + 4 * e),
                               range := if r.typ = 1 then some (aw, bw) else none }, none), s)

/-- Where dispatch starts a thread in time (09 R164). -/
def startTime (s : State) (q t : Nat) : Nat := max (max s.T t) (Tbl.getD s.floors q 0)

/-- Dispatch of a record into a berth; an error is a wait, for a read or for room in the spill pool. -/
def dispatchInto (b : Nat) (r : Rec) (s : State) : Run State :=
  let q := quadOf b
  let p := startTime s q r.time
  reading (dispatchCtx q p r s) fun x s =>
    match seat b x.1 s with
    | none => waitOn .spill
    | some t =>
      let u := (count (dieOf q) 2 1 { t with nextTid := t.nextTid + 1 }).raise b p
      .ok (match x.2 with
        | none => u
        | some f => faultBerth b f u)

/-- A berth takes record i of its quad's deque: records of type 3 and of a voiding net give back their coins (02 R31, 14 R257). A dispatch that must
    wait leaves its record where it stood. -/
def takeRecord (b i : Nat) (s : State) : State :=
  let q := quadOf b
  match (s.deque q)[i]? with
  | none => s
  | some r =>
    let t := s.setDeque q ((s.deque q).eraseIdx i)
    if s.netStateAt r.net q = .free then journal { kind := 3, net := r.net } t
    else if r.typ = 3 ∨ s.netStateAt r.net q = .voiding then returnRecs q [r] t
    else
      match dispatchInto b r t with
      | .ok u => u
      | .error e =>
        let u := { e.state t with deques := s.deques }
        match e with
        | .wait .spill _ => noteDry u
        | _ => u

def execDispatch (b : Nat) (s : State) : Result :=
  match offered s b with
  | some (.record i) => .next (takeRecord b i s)
  | _ => .next s

/-! ### Admission (13 R241 R242, 15 R270, 17 R306) -/

/-- Whether voiding leaves a saved thread alone: a registered waiter, or one that woke with VOIDED (14 R256 R257). -/
def keptInVoid (c : Ctx) : Bool := c.woken || (match c.wait with | .qwait .. => true | _ => false)

/-- A saved thread is discarded (14 R257): its coin goes back. -/
def discardSaved (q : Nat) (c : Ctx) (s : State) : State := sendReturn c.net c.grains c.pts q (leaveSaved c s)

/-- The thread of an admitted context. -/
def admittedCtx (s : State) (x : Context) : Ctx :=
  { tid := s.nextTid, net := x.net, cls := x.cls, coin := x.coin, pc := x.pc, pts := x.pts, broken := x.broken, brokenVec := x.brokenVec
    regs := (x.x.zipIdx).foldl (fun r e => r.setIfInBounds (e.2 + 1) e.1) (Vector.replicate 16 0) }

def admitContext (b i : Nat) (s : State) : State :=
  let q := quadOf b
  let core := coreId b
  match (s.arrQ core)[i]? with
  | none => s
  | some x =>
    let t := s.setArrQ core ((s.arrQ core).eraseIdx i)
    if s.netStateAt x.net q = .voiding then sendReturn x.net x.coin x.pts q t
    else
      match seat b (admittedCtx t x) t with
      | none => noteDry s
      | some t => ({ t with nextTid := t.nextTid + 1 } : State).raise b (max t.T x.pts)

/-- An evicted context takes a berth (17 R306). One whose record is poisoned is lost with its thread, in a voiding net too. -/
def admitEvicted (b i : Nat) (s : State) : State :=
  let q := quadOf b
  let core := coreId b
  match (s.evict core)[i]? with
  | none => s
  | some c =>
    let t := s.setEvict core ((s.evict core).eraseIdx i)
    if recordBad s c then recordGone q c s t
    else if s.netStateAt c.net q = .voiding && !keptInVoid c then discardSaved q c t
    else
      match seat b { c with slot := 0 } t with
      | none => noteDry s
      | some t => t.raise b c.pts

def execAdmission (b : Nat) (s : State) : Result :=
  match offered s b with
  | some (.context i) => .next (admitContext b i s)
  | some (.evicted i) => .next (admitEvicted b i s)
  | _ => .next s

/-- Whether a copy of an arrival-spill block's coin summary can be read. -/
def summaryReads (s : State) (block : Nat) : Bool := !poisoned s (ctxSummary s block 0) 256 || !poisoned s (ctxSummary s block 1) 256

/-- A context leaves the arrival spill for its core's queue, at the tail; one that is poisoned has its coin recovered from the block's summary, or
    lost (14 R258). -/
def readmitOne (core : Nat) (bad survives : Bool) (s : State) (c : Context) : State :=
  if bad then coinGone c.net (core / 4) c.coin c.cls c.pts survives s else s.setArrQ core (s.arrQ core ++ [{ c with slot := 0 }])

/-- Contexts have left blocks of a core's arrival spill: the summaries of those blocks that still hold some (14 R258). -/
def leftBlocks (core : Nat) (bs : List Nat) (s : State) : State :=
  bs.dedup.foldl (fun t b => if (t.arrS core).any (fun c => poolBlock s c.slot == b) then summarize core b t else t) s

/-- Up to 16 contexts move from the head of a core's arrival spill to the tail of its queue while the queue holds 48 or fewer (13 R243). Those of a
    net that is parked on the quad stay where they are (13 R242). -/
def readmit (core : Nat) (s : State) : State :=
  let parked := fun (c : Context) => s.netStateAt c.net (core / 4) == .parked
  let go := ((s.arrS core).filter (fun c => !parked c)).take 16
  if 48 < (s.arrQ core).length ∨ go = [] then s
  else
    let t := s.setArrS core ((s.arrS core).filter (fun c => !go.contains c))
    let t := leftBlocks core (go.map (fun c => poolBlock s c.slot)) t
    go.foldl (fun t c => readmitOne core (poisoned s c.slot 96) (summaryReads s (poolBlock s c.slot)) t c) t

def execArrivalSpillReadmission (core : Nat) (s : State) : Result := .next (readmit core s)

/-! ### Refills (13 R239, 14 R258) -/

/-- The units whose records are poisoned: their coins stand in a summary that survives, or are lost (14 R258). -/
def recover (q : Nat) (lost : List (Rec × Bool)) (s : State) : State :=
  lost.foldl (fun s e => coinGone e.1.net q e.1.coin e.1.cls e.1.time e.2 s) s

/-- The coins that a message carries, each with its net, class and time. -/
def msgCoins : MsgBody → List (Nat × Nat × BitVec 2 × Nat)
  | .redex r _ => [(r.net, r.coin, r.cls, r.time)]
  | .steal rs => rs.map (fun r => (r.net, r.coin, r.cls, r.time))
  | .context c _ => [(c.net, c.coin, c.cls, c.pts)]
  | _ => []

/-- Whether an entry of the suspense area is poisoned (17 R309), and whether its coin can be read all the same: that of a context stands 80 bytes on,
    that of a redex among the record's 32 bytes (log entry 31). -/
def suspenseBad (s : State) (e : Nat × Msg) : Bool := poisoned s (suspensePa s e.1) (suspenseBytes s e.2.body).length
def suspenseCoin (s : State) (e : Nat × Msg) : Bool :=
  match e.2.body with
  | .context .. => !poisoned s (suspensePa s e.1 + 80) 16
  | _ => !suspenseBad s e

/-- An entry of the suspense area that cannot be read where it stood: its coin is recovered, or lost (14 R258). -/
def suspenseLost (s : State) (e : Nat × Msg) : State :=
  (msgCoins e.2.body).foldl (fun t c => coinGone c.1 e.2.dst c.2.1 c.2.2.1 c.2.2.2 (suspenseCoin s e) t) s

/-- A quad discards what it keeps of nets that are voiding (14 R257): the records kept for them while they were parked, and what came for them while
    the quad was halted. Their coins go back. -/
def dropVoiding (q : Nat) (s : State) : State :=
  let voiding := fun (n : Nat) => s.netStateAt n q == .voiding
  let mine := fun (e : Nat × Msg) => e.2.dst == q && (match msgNet e.2.body with | some n => voiding n | none => false)
  let s := if s.parkedRec.any (fun b => b.quad == q && b.recs.any (fun r => voiding r.net)) then
      (let (rs, lost, t) := takeParked q (fun r => voiding r.net) s; recover q lost (returnRecs q rs t)) else s
  (s.suspense.filter mine).foldl (fun t e =>
    if suspenseCoin s e then (msgCoins e.2.body).foldl (fun t c => sendReturn c.1 c.2.1 c.2.2.2 q t) t else suspenseLost t e)
    { s with suspense := s.suspense.filter (fun e => !mine e) }

/-- The top block of a quad's stack returns to the oldest end of its deque (13 R239), but for the records of nets parked there, which stay in the
    block. What the quad keeps of nets that are voiding goes (14 R257). -/
def refill (q : Nat) (s : State) : State :=
  let s := dropVoiding q s
  if 32 < (s.deque q).length then s
  else
    match s.spill q with
    | [] => s
    | (no, rs) :: rest =>
      let (good, lost) := readBlock no rs s
      let aside := good.filter (fun r => s.netStateAt r.net q == .parked)
      let s := s.setSpill q rest
      let s := if aside = [] then s else writeBlock q no aside { s with parkedRec := { quad := q, no := no, recs := aside } :: s.parkedRec }
      recover q lost (s.setDeque q (good.filter (fun r => !aside.contains r) ++ s.deque q))

def execRefill (q : Nat) (s : State) : Result := .next (refill q s)

/-! ### Steals (13 R240, 02 R35, 15 R267) -/

/-- The victims of a quad for a net. -/
def victims (s : State) (n q : Nat) : List Nat := ((s.netRec n).quads s).filter (· != q)

/-- The next victim of a run (13 R240): victims are visited at o + i · s, s coprime to their number; the run's draw of o and s is the
    generator's, and shows in the first two probes of a run. -/
def nextVictim (s : State) (q n victim : Nat) : Option State :=
  let vs := victims s n q
  let cnt := vs.length
  let v := vs.idxOf victim
  let key := 4096 * q + n
  let set := fun (x : Nat × Nat × Nat) => some { s with stealRuns := Tbl.set s.stealRuns key x }
  if cnt ≤ v then none
  else
    match Tbl.get? s.stealRuns key with
    | none => set (v, 0, 1)
    | some (o, st, i) =>
      if cnt ≤ i then set (v, 0, 1)
      else if i = 1 then (if Nat.gcd ((v + cnt - o) % cnt) cnt = 1 then set (o, (v + cnt - o) % cnt, 2) else none)
      else if v = (o + i * st) % cnt then set (o, st, i + 1) else none

/-- Whether a core keeps an evicted context of a net that stands ahead of what a probe could bring to a berth of the core (17 R306). -/
def evictedFirst (s : State) (core n : Nat) : Bool := (lowestFree s core).isSome && (s.evict core).any (fun x => x.net == n)

/-- Whether a quad probes for a net: a berth that the net may take, and no work of it in its deque, its spill area or its arrival queues. A free berth
    whose core keeps an evicted context of the net has its work there, and is none to probe for (log entry 52). -/
def probes (s : State) (q n : Nat) : Bool :=
  (s.bindSet q).contains n && mayTake s q n && (List.range 4).any (fun c => (lowestFree s (4 * q + c)).isSome)
    && (s.deque q).all (fun r => r.net != n) && (s.spill q).all (fun b => b.2.all (fun r => r.net != n))
    && s.parkedRec.all (fun b => b.quad != q || b.recs.all (fun r => r.net != n))
    && (List.range 4).all (fun c => (s.arrQ (4 * q + c)).all (fun x => x.net != n) && (s.arrS (4 * q + c)).all (fun x => x.net != n) && !evictedFirst s (4 * q + c) n)

/-- The net that a quad's steal unit probes for next: the first, from the one after the last it probed for, that it probes for (13 R240). -/
def nextStealNet (s : State) (q : Nat) : Option Nat :=
  let last := Tbl.getD s.stealTurn q 0
  let ns := s.bindSet q
  (ns.filter (fun n => last ≤ n) ++ ns.filter (fun n => n < last)).find? (probes s q)

/-- The granule of a RANGE node's interval, as a quad's steal unit reaches it to read, change and write it at once. -/
def nodeGranule (n q : Nat) (node : Word) (s : State) : Run (Nat × State) :=
  let a := addrOf node + 16
  match formOf a with
  | none => fail .access
  | some (.glob va) =>
    reading (globAccess s q n va 16 needRW) fun k s =>
      if poisoned s k 16 then fail .poison else .ok (k, parted k 16 (settleLine (hwRequest q k s) (k / 256)))
  | some f =>
    match purseAccess s (s.netRec n) q f 16 with
    | none => fail .access
    | some k => if poisoned s k 16 then fail .poison else .ok (k, s)

/-- Splits a RANGE node for a quad at program time p (02 R35): the thief's two sides, the latest clearing time of the split's accesses (09 R161), and
    the state with hi lowered. -/
def splitGranule (n q thief p : Nat) (body node : Word) (s : State) : Run (Option (Word × Word × Nat) × State) :=
  reading (nodeGranule n q node s) fun k s =>
    reading (readBody n q p body s) fun b s =>
      let g := memRead s.mem k 16
      let lo := dbl g 0
      let hi := dbl g 8
      let mid := lo + (hi - lo + 1) / 2
      let h := match b.1 with | some (h, _) => h | none => 0
      if hi < lo + 2 ∨ bodyArity b.1 > 0 ∨ (splitNodes n thief p body b.1 mid hi s).isNone then .ok (none, s)
      else
        reading (countKey n q h s) fun ck s =>
          match splitNodes n thief p body b.1 mid hi s with
          | none => .ok (none, s)
          | some (bw, rw, nt, t) =>
            let (ct, t) := raiseCount ck p h t
            let (rt, t) := bankStore p t k (g.take 8 ++ leBytes 8 mid)
            .ok (some (bw, rw, max (max b.2 nt) (max ct rt)), t)

/-- The same for a probe, which fails where one of its accesses is stopped or kept waiting. -/
def splitRange (n q thief p : Nat) (body node : Word) (s : State) : Option (Word × Word × Nat) × State :=
  match splitGranule n q thief p body node s with
  | .ok r => r
  | .error e => (none, e.state s)

/-- A range record of a deque, split (02 R35): the record that the victim keeps, and the thief's. -/
def splitRec (n q thief : Nat) (r : Rec) (s : State) : Option (Rec × Rec) × State :=
  let p := startTime s q r.time
  if r.coin < 2 then (none, s)
  else
    match orderSides n q p r.a r.b s with
    | .error e => (none, e.state s)
    | .ok (none, s) => (none, s)
    | .ok (some ((aw, _, _), (bw, kb, _)), s) =>
      if kb ≠ 0xFE ∨ isImm bw then (none, s)
      else
        let (x, s) := splitRange n q thief p aw bw s
        (x.map (fun (b', r', t) =>
          ({ r with coin := r.coin - r.coin / 2 }, { a := b', b := r', coin := r.coin / 2, net := n, cls := r.cls, typ := 1, time := max r.time t })), s)

/-- The range of a berth, split between two instructions of its thread (15 R267): one that has an instruction in progress, with a borrow granted or a
    descriptor read, is passed over. -/
def splitHeld (n q thief b : Nat) (s : State) : Option Rec × State :=
  let c := s.ctx b
  match c.range with
  | none => (none, s)
  | some (body, node) =>
    if c.coin < 2 ∨ c.net ≠ n ∨ isReady s b = false ∨ c.lent ≠ 0 ∨ c.desc.isSome then (none, s)
    else
      match splitRange n q thief (max c.pts s.T) body node s with
      | (none, s) => (none, s)
      | (some (b', r', t), s) =>
        (some { a := b', b := r', coin := c.coin / 2, net := n, cls := c.cls, typ := 1, time := max c.pts t }, s.setCtx b { s.ctx b with coin := c.coin - c.coin / 2 })

/-- The first berth of a quad, by core and berth, whose range can be split. -/
def firstHeld (n q thief : Nat) : List Nat → State → Option Rec × State
  | [], s => (none, s)
  | b :: bs, s => match splitHeld n q thief b s with
    | (some x, s) => (some x, s)
    | (none, s) => firstHeld n q thief bs s

/-- The records that a victim whose oldest is ordinary gives: up to half, up to 64, none past a range record. -/
def givenRecs (n : Nat) (l : List Rec) : List Rec :=
  let mine := l.filter (fun r => r.net == n && r.typ != 2)
  ((mine.take ((mine.length + 1) / 2)).take 64).takeWhile (fun r => r.typ != 1)

/-- Removes the first occurrences of records. -/
def removeRecs (l rs : List Rec) : List Rec := rs.foldl (fun l r => l.erase r) l

/-- A berth is filled, as far as its quad's other berths go by it. -/
def fillsWith (b n : Nat) (s : State) : State := s.setBerth b { ctx := { net := n } }

/-- The records that a quad's free berths take in a cycle, by one berth of each core in the order in which the cores are served (13 R241). -/
def takenNow (q : Nat) : List Nat → State → List Rec
  | [], _ => []
  | core :: cs, s =>
    match lowestFree s core, fill s core with
    | some b, some (.record i) =>
      (match (s.deque q)[i]? with
       | some r => r :: takenNow q cs (fillsWith b r.net (s.setDeque q ((s.deque q).eraseIdx i)))
       | none => takenNow q cs s)
    | some b, some (.context i) =>
      takenNow q cs (fillsWith b (((s.arrQ core)[i]?.map (·.net)).getD 0) (s.setArrQ core ((s.arrQ core).eraseIdx i)))
    | some b, some (.evicted i) =>
      takenNow q cs (fillsWith b (((s.evict core)[i]?.map (·.net)).getD 0) (s.setEvict core ((s.evict core).eraseIdx i)))
    | _, _ => takenNow q cs s

/-- The records of a victim's deque that a probe for net n finds. Where the spawn limit is 1, a record that a free berth of the victim takes in this very
    cycle (13 R241) is none of them; with a higher one either may come first (log entry 96). -/
def foundRecs (n q : Nat) (s : State) : List Rec :=
  if (s.netRec n).spawnLim = 1 then removeRecs (s.deque q) (takenNow q (coreOrder s q) s) else s.deque q

/-- What a victim gives (13 R240): nothing where the list is empty. -/
def give (n q thief : Nat) (s : State) : List Rec × State :=
  let d := foundRecs n q s
  let held := fun (s : State) => let (x, s) := firstHeld n q thief ((List.range 64).map (64 * q + ·)) s; (x.toList, s)
  match d.find? (fun r => r.net == n && r.typ != 2) with
  | none => held s
  | some r =>
    if r.typ = 1 then
      match splitRec n q thief r s with
      | (some (keep, t), s) => ([t], s.setDeque q ((s.deque q).set ((s.deque q).idxOf r) keep))
      | (none, s) => held s
    else (givenRecs n d, s.setDeque q (removeRecs (s.deque q) (givenRecs n d)))

/-- A probe, for the net whose turn it is: a quad halted for the net fails it (17 R307); a voiding net's records are discarded where a steal would take
    them (14 R257). -/
def stealProbe (thief victim n : Nat) (s : State) : State :=
  if nextStealNet s thief ≠ some n then s
  else
    match nextVictim s thief n victim with
    | none => s
    | some s =>
      let s := count (dieOf thief) 3 1 { s with stealTurn := Tbl.set s.stealTurn thief (n + 1) }
      if haltedAt s n victim || !(s.netStateAt n victim == .bound || s.netStateAt n victim == .voiding) then s
      else if s.netStateAt n victim = .voiding then
        let rs := givenRecs n (s.deque victim)
        returnRecs victim rs (s.setDeque victim (removeRecs (s.deque victim) rs))
      else
        match give n victim thief s with
        | ([], s) => s
        | (rs, s) => count (dieOf thief) 4 1 { s with msgs := s.msgs ++ [({ src := victim, dst := thief, body := .steal rs } : Msg)] }

def execStealProbe (thief victim net : Nat) (s : State) : Result := .next (stealProbe thief victim net s)

end Sys2Proof.Machine
end

