-- ==== Sys2Proof/Machine/NetLife.lean ====
section
/-!
DEFINITION. The life of a net under the bursar: launch records, binding, completion, parking and rebinding (13 R232 to R239, 14 R256,
16 R294, 17 R304 R306).
-/

namespace Sys2Proof.Machine

/-! ### Launch records (13 R232) -/

structure LaunchRec where
  cls : Nat
  priv : Bool
  typ : Nat
  counters : Nat
  cellKib : Nat
  poolKib : Nat
  spawn : Nat
  deadline : Nat
  coin : Nat
  ptRoot : Nat
  ruleBase : Nat
  codeBase : Nat
  head : Word
  side0 : Word
  side1 : Word
  ox : Nat
  oy : Nat
  wc : Nat
  hc : Nat
  schedBase : Nat
  schedCount : Nat
  deriving DecidableEq, Repr

/-- A side of the first redex: a PRIN side names a global address. -/
def firstSideOk (w : Word) : Bool := sideOk w && (isImm w || bits w.toNat 59 59 == 1)

/-- A launch record; `none` where it is rejected BADREC. -/
def parseLaunch (l : List Byte) : Option LaunchRec :=
  let d := dbl l
  let a := d 0
  let r : LaunchRec :=
    { cls := bits a 55 54, priv := bits a 53 53 == 1, typ := bits a 51 50, counters := bits a 47 40, cellKib := bits a 39 34 + 1
      poolKib := bits a 33 26, spawn := bits a 15 0, deadline := d 8, coin := if d 16 = 0 then 2 ^ 62 else d 16, ptRoot := d 24
      ruleBase := d 32, codeBase := d 40, head := BitVec.ofNat 64 (d 48), side0 := BitVec.ofNat 64 (d 56), side1 := BitVec.ofNat 64 (d 64)
      ox := bits (d 72) 23 18, oy := bits (d 72) 17 12, wc := bits (d 72) 11 6 + 1, hc := bits (d 72) 5 0 + 1
      schedBase := d 80, schedCount := d 88 }
  let sched := bits a 52 52 == 1
  if bits a 63 56 == 2 && decide (r.typ < 2) && bits a 49 48 == 0 && decide (r.poolKib ≤ 176) && bits a 25 16 == 0
      && decide (1 ≤ r.spawn) && decide (r.spawn ≤ 64)
      && bits r.ptRoot 63 52 == 0 && bits r.ptRoot 12 0 == 0 && bits r.ruleBase 63 56 == 0 && r.ruleBase % 65536 == 0
      && bits r.codeBase 63 56 == 0 && r.codeBase % 4 == 0
      && headerOk r.head && programKind (hdrKind r.head) && hdrArity r.head == 0 && !hdrS r.head && !hdrL r.head
      && firstSideOk r.side0 && firstSideOk r.side1
      && bits (d 72) 63 24 == 0 && (r.priv || (r.ox == 0 && r.oy == 0))
      && bits r.schedBase 63 56 == 0 && r.schedBase % 64 == 0 && bits r.schedCount 63 32 == 0 && (sched || (r.schedBase == 0 && r.schedCount == 0))
      && (l.drop 96).all (· == 0) then some r else none

/-- The fault reserve and, on the launch quad, the handler cell (17 R298, 13 R233). -/
def reserveBytes : Nat := 2816

/-- What no wait can cure (13 R233 step 1): the launch is rejected NOROOM. -/
def noRoomEver (s : State) (r : LaunchRec) : Bool :=
  (r.priv && (64 < r.ox + r.wc || 64 < r.oy + r.hc)) || decide (44 < r.cellKib) || decide (45056 < 1024 * r.poolKib + reserveBytes + 64)
    || (if r.priv then (({ st := .bound, priv := true, ox := r.ox, oy := r.oy, wc := r.wc, hc := r.hc } : NetRec).quads s).isEmpty
        else decide (quadCount ≤ s.fused.length))

/-! ### Binding (13 R233) -/

/-- The bind record of a launch placed at an origin and at offsets of the purse. -/
def boundRec (l : Launch) (r : LaunchRec) (ox oy pool cells mint : Nat) : NetRec :=
  { st := .bound, cls := BitVec.ofNat 2 r.cls, priv := r.priv, counters := BitVec.ofNat 8 r.counters, spawnLim := r.spawn, cellKib := r.cellKib
    deadline := r.deadline, ptRoot := r.ptRoot, ruleBase := r.ruleBase, codeBase := r.codeBase, ox := ox, oy := oy, wc := r.wc, hc := r.hc
    poolOff := pool, poolSize := 1024 * r.poolKib, cellOff := cells, mint := mint, schedBase := r.schedBase, schedCount := r.schedCount
    watch := 2 ^ 28, src := l.src, master := l.master, queue := l.queue, tagg := l.tagg, reply := l.reply }

/-- The areas of a net in a quad's purse: cell area, and node pool with handler cell and fault reserve. -/
def areas (nr : NetRec) (launchQuad q : Nat) : List (Nat × Nat) :=
  [(nr.cellOff, 1024 * nr.cellKib), (nr.poolOff, nr.poolSize + reserveBytes + (if q = launchQuad then 64 else 0))]

/-- An area lies within one of the four runs of 44 KiB. -/
def inRun (a : Nat × Nat) : Bool := a.1 < 0x30000 && a.1 % 0xC000 + a.2 ≤ 0xB000

def apart (a b : Nat × Nat) : Bool := a.1 + a.2 ≤ b.1 || b.1 + b.2 ≤ a.1

/-- What binding asks of one quad (13 R233 step 2, 16 R294). -/
def quadAdmits (s : State) (nr : NetRec) (lq q : Nat) : Bool :=
  let mine := areas nr lq q
  let others := (s.bindSet q).map s.netRec
  decide (others.length < 16)
    && mine.all inRun && (match mine with | [a, b] => apart a b | _ => false)
    && others.all (fun o => (areas o (o.launchQuad s) q).all (fun a => mine.all (apart a)) && (o.counters &&& nr.counters) == 0 && o.master == nr.master)

/-- Whether a launch can be bound at a place. -/
def bindable (s : State) (l : Launch) (r : LaunchRec) (ox oy pool cells : Nat) : Bool :=
  let nr := boundRec l r ox oy pool cells 0
  let lq := nr.launchQuad s
  decide (ox + r.wc ≤ 64) && decide (oy + r.hc ≤ 64) && (!r.priv || (ox == r.ox && oy == r.oy))
    && pool % 64 == 0 && cells % 1024 == 0 && (r.deadline == 0 || decide (s.wall < r.deadline))
    && !(nr.quads s).isEmpty && (nr.quads s).all (quadAdmits s nr lq)

/-- Whether a launch can be bound anywhere (13 R233 step 2): at some origin, with its areas at some offsets of the purses. -/
def bindableSomewhere (s : State) (l : Launch) (r : LaunchRec) : Bool :=
  (List.range 64).any (fun ox => (List.range 64).any (fun oy =>
    (!r.priv || (ox == r.ox && oy == r.oy)) && (List.range 3072).any (fun i => (List.range 192).any (fun j => bindable s l r ox oy (64 * i) (1024 * j)))))

/-- Whether launch a stands before launch b in the queue: by class, then by arrival. -/
def standsBefore (ra rb : LaunchRec) (ia ib : Nat) : Bool := decide (rb.cls < ra.cls) || (ra.cls == rb.cls && decide (ia < ib))

/-- A whole purse is scrubbed: zero, full, and no granule poisoned (08 R144). -/
def scrub (q : Nat) (s : State) : State :=
  let lo := purseKey q 0
  let s := { s with mem := memClear s.mem lo (lo + 0x30000), poison := s.poison.filter (fun g => !(lo ≤ 16 * g && 16 * g < lo + 0x30000)) }
  fillGranules s (s.empties.filter (fun g => lo ≤ 16 * g && 16 * g < lo + 0x30000))

/-- One quad takes a net into its bind set (13 R233 step 5, 08 R144): its instruction cache is emptied, and every store before stands at its home, so
    that what is fetched from then on is the memory's (03 R51). -/
def enterQuad (n master : Nat) (s : State) (q : Nat) : State :=
  let held := Tbl.getD s.purseHeld q []
  let s := settleWhere (if held.any (· != master) then scrub q s else s) (fun _ => true)
  ({ s with
      purseHeld := Tbl.set s.purseHeld q [master]
      icache := s.icache.filter (fun e => e.1 / 2 ^ 52 != q) } : State).setNetq n q {}

/-- Removes what is left of an id's earlier net from translation caches, steal runs and barrier contexts. -/
def forgetNet (n : Nat) (s : State) : State :=
  { s with tlb := s.tlb.filter (fun t => t.net != n), stealRuns := s.stealRuns.filter (fun e => e.1 % 4096 != n)
           bars := s.bars.filter (fun e => e.1 / 8 % 4096 != n) }

/-- Steps 3 to 6 of 13 R233; `none` while the spill pool has no room for the first redex. The bind writes no bank role (08 R148 allows a write and names
    no value; DESIGN CHOICE, log entry 104). -/
def bindNet (l : Launch) (r : LaunchRec) (ox oy pool cells : Nat) (s : State) : Option State :=
  let n := l.net
  let nr := boundRec l r ox oy pool cells (mintPa s n)
  let lq := nr.launchQuad s
  let nr := { nr with handler := nr.port s 2 lq (pool + nr.poolSize) }
  let s := (forgetNet n s).setMint n { issued := r.coin, tick := s.T }
  let s := s.setNet n nr
  let s := (nr.quads s).foldl (enterQuad n nr.master) s
  let s := hwWrite s (handlerKey s n) (wordBytes r.head ++ wordBytes holdWord)
  match pushRec lq { a := r.side0, b := r.side1, coin := r.coin, net := n, cls := BitVec.ofNat 2 r.cls, typ := r.typ, time := s.T } s with
  | none => none
  | some s => some (journal { code := 1, net := n, fromSt := 1, toSt := 2, kind := (match l.src with | .host _ => 0 | .peer _ => 1),
                              port := (match l.src with | .host p => p | .peer _ => 0), peer := (match l.src with | .host _ => 0 | .peer _ => l.master - 2) } s)

/-- The bursar binds a launch of the queue, unless one that stands before it could be bound, wherever that is. -/
def execBind (entry ox oy pool cells : Nat) (s : State) : Result :=
  let open' := s.launches.zipIdx.filterMap (fun e => (parseLaunch e.1.record).map (fun r => (e.2, e.1, r)))
  match open'.find? (fun e => e.1 == entry) with
  | none => .next s
  | some (i, l, r) =>
    if !bindable s l r ox oy pool cells || open'.any (fun e => standsBefore e.2.2 r e.1 i && bindableSomewhere s e.2.1 e.2.2) then .next s
    else .next (orDry (bindNet l r ox oy pool cells { s with launches := s.launches.eraseIdx i }) s)

/-! ### Replies (18 R326) -/

/-- A reply to a master: a host's is followed by MSI-X vector q. -/
def reply (src : Source) (queue tagg addr status net seq : Nat) (data : List Byte) (s : State) : State :=
  let r : Reply := { src := src, addr := addr, status := status, tagg := tagg, net := net, seq := seq,
                     vector := (match src with | .host _ => some queue | .peer _ => none), data := data }
  { s with replies := s.replies ++ [r] }

/-- The number of the last journal entry. -/
def lastSeq (s : State) : Nat := s.jseq - 1

/-! ### Completion (14 R256) -/

/-- Whether a thread of a net stands anywhere: in a berth, resident, or evicted. -/
def hasThreads (s : State) (n : Nat) : Bool :=
  s.berths.any (fun e => e.2.ctx.net == n) || s.residents.any (fun e => e.2.net == n) || s.evicted.any (fun e => e.2.any (fun c => c.net == n))

/-- A quad drops a net from its bind set: its counters are cleared (12 R213). -/
def leaveQuad (n : Nat) (counters : BitVec 8) (s : State) (q : Nat) : State :=
  { s with
    counters := s.counters.filter (fun e => !(e.1 / 8 == q && counters.getLsbD (e.1 % 8)))
    netqs := Tbl.del s.netqs (2 ^ 18 * n + q) }

/-- The bursar completes a net. It scrubs no purse then, which 08 R144 leaves to it (log entry 93). -/
def completeNet (n : Nat) (nr : NetRec) (s : State) : State :=
  let voided := (s.mint n).st == .voided
  let st := if voided then 7 else 8
  let s := journal { status := st, net := n, fromSt := stateCode nr.st, toSt := if voided then 6 else 5, kind := 2 } s
  let s := (nr.quads s).foldl (leaveQuad n nr.counters) s
  let s := forgetNet n (s.setNet n {})
  reply nr.src nr.queue nr.tagg nr.reply st n (lastSeq s) [] s

def execNetCompletion (n : Nat) (s : State) : Result :=
  let nr := s.netRec n
  let m := s.mint n
  if nr.st != .free && (m.st == .quiet || m.st == .voided) && !hasThreads s n then .next (completeNet n nr s) else .next s

/-! ### Parking and rebinding (13 R239, 17 R304 R306) -/

/-- An instruction that completes before pre-emption takes effect (06 R127, 07 R136 R138, 11 R190 R201, 15 R264 R282). -/
def mustFinish (w : Wait) : Bool :=
  match w with
  | .sent | .send .. | .gangop | .assay _ | .link _ => true
  | _ => false

/-- What a saved context goes on waiting for: a barrier arrival, a registered `qwait` and a fault stay; every other wait is withdrawn. -/
def savedWait (w : Wait) : Wait :=
  match w with
  | .bar .. | .red .. | .qwait .. | .fault _ | .faultPending _ => w
  | _ => .ready

/-- Pre-emption of a berth (17 R304): its gang ends, its context stays resident, and the berth is free. -/
def preempt (s : State) (b : Nat) : State :=
  let led := leadsGang s b
  let vec := (Tbl.get? s.vgangs b).isSome
  let s := endGangs b (withdraw b s)
  let c := (s.ctx b).whole
  -- a schedule's entry that its `stage` has taken stays its own (12 R225)
  let desc := c.desc.bind (fun e => if e.1 = 0 then none else some e)
  { s with
    berths := Tbl.del s.berths b
    residents := Tbl.set s.residents b { c with wait := savedWait c.wait, broken := c.broken || led, brokenVec := c.brokenVec || vec, desc := desc } }

def threadsOf (s : State) (n q : Nat) : List Nat := (s.berths.filter (fun e => quadOf e.1 == q && e.2.ctx.net == n)).map (·.1)

/-- Contexts in the order in which they arrived. -/
def insertSeq (c : Context) : List Context → List Context
  | [] => [c]
  | x :: r => if c.seq < x.seq then c :: x :: r else x :: insertSeq c r
def bySeq (l : List Context) : List Context := l.foldl (fun r c => insertSeq c r) []

/-- Contexts join a core's arrival spill, each at its place in the order of arrival (13 R239 R243). -/
def spillMany (core : Nat) : List Context → State → Option State
  | [], s => some (s.setArrS core (bySeq (s.arrS core)))
  | c :: r, s => match spillCtx core c s with
    | none => none
    | some s => spillMany core r s

/-- Records join the blocks kept for parked nets, in order. -/
def parkRecs (q : Nat) : List Rec → State → Option State
  | [], s => some s
  | r :: rs, s => match pushParked q r s with
    | none => none
    | some s => parkRecs q rs s

/-- The net's contexts leave their arrival queues for the spill, core by core. -/
def parkCtxs (n : Nat) : List Nat → State → Option State
  | [], s => some s
  | core :: r, s =>
    let cs := (s.arrQ core).filter (fun c => c.net == n)
    match spillMany core cs (s.setArrQ core ((s.arrQ core).filter (fun c => c.net != n))) with
    | none => none
    | some s => parkCtxs n r s

/-- The cores of a quad. -/
def coresOf (q : Nat) : List Nat := (List.range 4).map (4 * q + ·)

/-- The net's records and contexts on a quad move into its spill area, in order (13 R239); `none` while the spill pool is exhausted. -/
def setAside (n q : Nat) (s : State) : Option State :=
  let rs := (s.deque q).filter (fun r => r.net == n)
  match parkRecs q rs (s.setDeque q ((s.deque q).filter (fun r => r.net != n))) with
  | none => none
  | some s => parkCtxs n (coresOf q) s

/-- The net is parked on one quad. Its one bind record reads PARKED, and the journal says so, once it is parked on all of its quads (DESIGN CHOICE, log
    entry 105). -/
def parkNet (n q : Nat) (s : State) : Option State :=
  (setAside n q ((threadsOf s n q).foldl preempt s)).map (fun s =>
    let s := s.setNetq n q { s.netq n q with parked := true }
    let nr := s.netRec n
    if nr.st = .bound && (nr.quads s).all (fun p => (s.netq n p).parked) then
      journal { net := n, fromSt := 2, toSt := 3, kind := 2 } (s.setNet n { nr with st := .parked })
    else s)

/-- The bursar parks a bound net of a lower class than a launch that waits (13 R233 R239). -/
def execPark (n q : Nat) (s : State) : Result :=
  let wanted := s.launches.any (fun l => match parseLaunch l.record with | some r => decide ((s.netRec n).cls.toNat < r.cls) | none => false)
  if wanted && s.netStateAt n q == .bound && (threadsOf s n q).all (fun b => !mustFinish (s.ctx b).wait) then .next (orDry (parkNet n q s) s)
  else .next s

/-- A resident context becomes ready in place (17 R306). -/
def unpreempt (n : Nat) (s : State) (b : Nat) : State :=
  match Tbl.get? s.residents b with
  | some c => if c.net = n then ({ s.setBerth b { ctx := c } with residents := Tbl.del s.residents b } : State).raise b c.pts else s
  | none => s

/-- Records kept for a net go onto the spill stack in blocks, the newest on top, and refill from there (13 R239); `none` while the pool is exhausted. -/
def stackRecs (q : Nat) : Nat → List Rec → State → Option State
  | 0, _, s => some s
  | k + 1, rs, s => if rs = [] then some s else if poolFull s then none else stackRecs q k (rs.drop 128) (pushBlock q (rs.take 128) s)

/-- The contexts of a net that is bound again which stand in the spill before any context of a net that is not parked: they are readmitted at once, by
    the order of arrival (13 R244). -/
def firstSpilled (n : Nat) (parked : Context → Bool) (l : List Context) : List Context :=
  (l.takeWhile (fun c => c.net == n || parked c)).filter (fun c => c.net == n)

/-- One core's contexts of a net that is bound again join the queue at their places in the order of arrival, and what the queue of 64 cannot hold goes
    back to the spill. Those that are poisoned have their coins recovered, or lost (14 R258). -/
def unparkCore (n core : Nat) (s : State) : Option State :=
  let go := firstSpilled n (fun c => c.net != n && s.netStateAt c.net (core / 4) == .parked) (s.arrS core)
  let bad := fun (c : Context) => poisoned s c.slot 96
  let all := bySeq (s.arrQ core ++ (go.filter (fun c => !bad c)).map (fun c => { c with slot := 0 }))
  let left := leftBlocks core (go.map (fun c => poolBlock s c.slot)) ((s.setArrQ core (all.take 64)).setArrS core ((s.arrS core).filter (fun c => !go.contains c)))
  (spillMany core (all.drop 64) left).map (fun t =>
    (go.filter bad).foldl (fun t c => readmitOne core true (summaryReads s (poolBlock s c.slot)) t c) t)

def unparkCores (n : Nat) : List Nat → State → Option State
  | [], s => some s
  | c :: r, s => match unparkCore n c s with
    | none => none
    | some s => unparkCores n r s

/-- One quad has a parked net again: its resident contexts are ready, its records and contexts return, and the instruction cache is emptied as at
    every binding (17 R306, 13 R239 R244, 03 R51). -/
def unparkQuad (n : Nat) (s : State) (q : Nat) : Option State :=
  let s := ((List.range 64).map (64 * q + ·)).foldl (unpreempt n) s
  let s := s.setNetq n q { s.netq n q with parked := false }
  let (rs, lost, s) := takeParked q (fun r => r.net == n) s
  match stackRecs q rs.length rs { settleWhere s (fun _ => true) with icache := s.icache.filter (fun e => e.1 / 2 ^ 52 != q) } with
  | none => none
  | some s => unparkCores n (coresOf q) (recover q lost s)

def unparkQuads (n : Nat) : List Nat → State → Option State
  | [], s => some s
  | q :: r, s => match unparkQuad n s q with
    | none => none
    | some s => unparkQuads n r s

/-- A parked net is bound again (17 R306, 13 R244), on every quad where it is parked in one step (DESIGN CHOICE, log entry 106). -/
def execRebind (n : Nat) (s : State) : Result :=
  let nr := s.netRec n
  let qs := (nr.quads s).filter (fun q => (s.netq n q).parked)
  if (nr.st == .bound || nr.st == .parked) && !qs.isEmpty then
    let t := if nr.st = .parked then journal { net := n, fromSt := 3, toSt := 2, kind := 2 } (s.setNet n { nr with st := .bound }) else s
    .next (orDry (unparkQuads n qs t) s)
  else .next s

end Sys2Proof.Machine
end

