-- ==== Sys2Proof/Machine/MemEvents.lean ====
section
/-!
DEFINITION. Steps of the memory system: replies, reissues, settling, page walks, changes of bank roles (03 R11, 08 R148 to R156, 09 R169, 11 R195).
-/

namespace Sys2Proof.Machine

/-! ### Replies and reissues -/

/-- How many cells of the net's cell area on a quad are free (02 R39). -/
def freeCells (s : State) (n q : Nat) : Nat :=
  (((List.range (64 * (s.netRec n).cellKib)).map (fun i => (s.netRec n).cellOff + 16 * i)).filter (fun o => !(s.netq n q).cells.contains o)).length

/-- A thread returns to rotation (03 R11): its reply or its fetched word has come, or what it waits for may be there now and its instruction issues
    again. A `link` past its claims goes on instead, and one that waits for cells goes on once they are free. -/
def replyTo (b : Nat) (s : State) : State :=
  let c := s.ctx b
  let ready := s.setCtx b { c with wait := .ready }
  match c.wait with
  | .reply => ready
  | .added .. => ready
  | .fetch => ready
  | .room => ready
  | .spill => ready
  | .held => ready
  | .cells n => if n ≤ freeCells s c.net (quadOf b) then ready else s
  | .link p => if p.rehome.isSome then s else s.as b (linkRun p)
  | _ => s

def execMemoryReply (b : Nat) (s : State) : Result := .next (if s.held b then replyTo b s else s)

/-- The `aadd`s of one combined request that was answered REHOME, the one of berth b first (08 R150, 01 R17). -/
def combined (s : State) (b pa n : Nat) : List Nat :=
  b :: (s.berths.filter (fun e => match e.2.ctx.wait with | .rehomedAdd k m _ _ (some l) => k == pa && m == n && l == b | _ => false)).map (·.1)

/-- One `aadd` is performed at the home of its bytes, and its reply is on its way. -/
def performAdd (s : State) (b : Nat) : State :=
  match (s.ctx b).wait with
  | .rehomedAdd pa n amt d _ =>
    s.as b (fun s =>
      let r := clrRmw pa n (addTo n amt) s
      ((r.2.xw d (extend false r.1)).pass 4).leave b (.added pa n 0))
  | _ => s

/-- A combined request is reissued as one, with nothing between its parts; each reply carries the latest clearing time (09 R176). Where its bytes have
    been poisoned since, its instructions issue again and meet the check. -/
def reissueAdds (b pa n : Nat) (s : State) : State :=
  let bs := combined s b pa n
  if poisoned s pa n then bs.foldl (fun s b => s.setCtx b { s.ctx b with wait := .ready }) s
  else
    let s := bs.foldl performAdd s
    bs.foldl (combineAdd pa n (lineTime s (pa / 256)).wts) s

/-- The berth whose `aadd` stands first in the request that one met, while it still waits there. -/
def leadOf (s : State) (b pa n : Nat) : Option Nat → Nat
  | none => b
  | some l => if (addsWaiting s pa n).contains l then l else b

/-- A request answered REHOME is hashed again under the port's current map (08 R150): its instruction issues again, a `link` past its first claim goes on
    from where it stands, and an `aadd` is performed, with those that it had combined with. -/
def execRehome (b : Nat) (s : State) : Result :=
  let again := fun (b pa : Nat) (w : Wait) (f : State → State) =>
    let s := rehash (clusterOf (quadOf b)) pa s
    .next (f (s.setCtx b { s.ctx b with wait := w }))
  match (s.ctx b).wait with
  | .rehomed pa => again b pa .ready id
  | .rehomedAdd pa n _ _ lead =>
    let l := leadOf s b pa n lead
    again l pa (s.ctx l).wait (reissueAdds l pa n)
  | .link p =>
    match p.rehome with
    | some pa => again b pa (.link { p with rehome := none }) id
    | none => .next s
  | _ => .next s

/-- A request refused by a full wait table reaches the purse again (11 R195): served, entered, or refused once more. A sub-tile that a gang
    instruction of another thread holds keeps it waiting (06 R107); of a poisoned granule `serve` sends the instruction back to its checks. -/
def reissue (b : Nat) (s : State) : State :=
  match (s.ctx b).wait with
  | .refused r =>
    if heldTile { s with cur := b } r.key r.n then s
    else if isFull s (granule r.key) || poisoned s r.key r.n then serve s r
    else if (Tbl.getD s.waits (keyQuad r.key) []).length < 128 then
      let s := { s with waits := Tbl.set s.waits (keyQuad r.key) (Tbl.getD s.waits (keyQuad r.key) [] ++ [r]) }
      s.setCtx b { s.ctx b with wait := .parked r }
    else s
  | _ => s

def execWaitTableReissue (b : Nat) (s : State) : Result := .next (reissue b s)

/-! ### Settling and page walks -/

/-- A home settles a line's cleared stores (09 R169). -/
def execSettle (line : Nat) (s : State) : Result := .next (settleLine s line)

/-- A walk completes and fills the caches of its cluster and its quad (08 R155); a fault is never cached. -/
def execPageWalk (q n va : Nat) (s : State) : Result :=
  .next (if (s.bindSet q).contains n then
    (match translation s q n va with
     | .ok (_, t) => t
     | .error (_, t) => t)
  else s)

/-! ### Bank roles (08 R148) -/

/-- The memory keys of a bank of the vault window. -/
def bankBase (slice bank : Nat) : Nat := vaultBase + slice * 2 ^ 23 + bank * 2 ^ 18

def inBank (slice bank key : Nat) : Bool := bankBase slice bank ≤ key && key < bankBase slice bank + 2 ^ 18

/-- An operation in progress names a bank. -/
def bankNamed (s : State) (slice bank : Nat) : Bool :=
  s.mgangs.any (fun e => match e.2.op with | some o => o.pieces.any (fun p => inBank slice bank p.1) | none => false)
    || s.assays.any (fun a => (a.pieces ++ a.record).any (fun p => inBank slice bank p.1))

/-- A bank leaves or enters CACHE: it is cleared, and no copy of its lines is used again. -/
def clearBank (slice bank : Nat) (s : State) : State :=
  let s := settleWhere s (fun l => inBank slice bank (256 * l))
  { s with
    mem := memClear s.mem (bankBase slice bank) (bankBase slice bank + 2 ^ 18)
    poison := s.poison.filter (fun g => !inBank slice bank (16 * g))
    copies := s.copies.filter (fun c => !inBank slice bank (256 * c.line)) }

/-- A slice left with no CACHE bank holds no guest lines (08 R148 R151). -/
def dropGuests (slice : Nat) (s : State) : State :=
  if hasCache s slice then s else { s with copies := s.copies.filter (fun c => !(c.guest && c.holder == slice)) }

/-- One bank of a slice takes its new role, unless it must wait. -/
def changeBank (slice v : Nat) (s : State) (bank : Nat) : State :=
  let old := bankRole s slice bank
  let new := bits v (2 * bank + 1) (2 * bank)
  if old = new ∨ (old = 2 ∧ bankNamed s slice bank = true) then s
  else
    let s := if old = 0 ∨ new = 0 then clearBank slice bank s else s
    dropGuests slice { s with roles := Tbl.set s.roles slice (Tbl.getD s.roles slice 0 + new * 4 ^ bank - old * 4 ^ bank) }

def changeRoles (slice : Nat) (s : State) : State :=
  match Tbl.get? s.roleChg slice with
  | none => s
  | some v =>
    let s := (List.range 32).foldl (changeBank slice v) s
    if Tbl.getD s.roles slice 0 = v then { s with roleChg := Tbl.del s.roleChg slice } else s

def execBankRoleChange (slice : Nat) (s : State) : Result := .next (changeRoles slice s)

end Sys2Proof.Machine
end

