-- ==== Sys2Proof/Machine/Messages.lean ====
section
/-!
DEFINITION. Barriers, reductions and flits as they travel and arrive (15 R274 to R284).
-/

namespace Sys2Proof.Machine

/-! ### Barriers and reductions -/

/-- An arrival reaches the north-west core (15 R274); those of a voiding net go nowhere (15 R275). -/
def sweep (i : Nat) (s : State) : State :=
  match takeMsg s i with
  | none => s
  | some (m, t) =>
    match m.body with
    | .sweep n k core v nw time =>
      if (t.netRec n).st = .voiding ∨ (t.netRec n).st = .free then t
      else
        let c := t.bar nw n k
        { t with bars := Tbl.set t.bars (barKey nw n k) { c with got := (c.got.filter (fun e => e.1 != core)) ++ [(core, v)], time := max c.time time } }
    | _ => s

def execBarrierSweep (msg : Nat) (s : State) : Result := .next (sweep msg s)

/-- F of 15 R276 and R277, with the flags of an `fadd` step. -/
def barStep (op : Nat) (a b : Word) : Word × Flags :=
  match op with
  | 0 => (a + b, 0)
  | 1 => (if a.slt b then a else b, 0)
  | 2 => (if a.slt b then b else a, 0)
  | 3 => (a &&& b, 0)
  | 4 => (a ||| b, 0)
  | 5 => (a ^^^ b, 0)
  | _ =>
    let r := sumVal [dec fp32 (a.toNat % 2 ^ 32), dec fp32 (b.toNat % 2 ^ 32)] .rne
    let e := enc fp32 r.1 .rne
    (BitVec.ofNat 64 e.1, r.2 ||| e.2)

/-- A fold from the first value on. -/
def barFold (op : Nat) : List Word → Word × Flags
  | [] => (0, 0)
  | a :: r => r.foldl (fun x b => let y := barStep op x.1 b; (y.1, x.2 ||| y.2)) (a, 0)

/-- The result of a reduction (15 R277): each row from west to east, then the rows from north to south. A result of `fadd` has bits 63:32 zero. -/
def barResult (op : Nat) (rows : List (List Word)) : Word × Flags :=
  let rs := (rows.filter (fun r => r != [])).map (barFold op)
  let x := barFold op (rs.map (·.1))
  (if op = 6 then (x.1.setWidth 32).setWidth 64 else x.1, rs.foldl (fun f r => f ||| r.2) x.2)

/-- Every member of the rectangle has arrived, for one rectangle and one kind, and its arrival has come to the north-west core. -/
def allArrived (s : State) (n k : Nat) (nw : BarCtx) (cores : List Nat) : Bool :=
  cores.all (fun c => let x := s.bar c n k; x.arrived && x.rect == nw.rect && x.isRed == nw.isRed && nw.got.any (fun e => e.1 == c))

/-- A waiting thread of a member goes on (15 R274 R276). -/
def released (c : Ctx) (v : Word) (f : Flags) (time : Nat) : Ctx :=
  match c.wait with
  | .red _ _ d => { c with regs := setReg c.regs d v, fflags := c.fflags ||| f, pc := c.pc + 4, wait := .ready, pts := max c.pts time }
  | _ => { c with pc := c.pc + 4, wait := .ready, pts := max c.pts time }

/-- Whether a thread waits for identifier k in a generation. -/
def waitsFor (c : Ctx) (n k : Nat) (gen : Bool) : Bool :=
  c.net == n && (match c.wait with | .bar j g => j == k && g == gen | .red j g _ => j == k && g == gen | _ => false)

/-- One member core releases its threads, wherever they stand, and flips its generation (15 R274 R275). What it has gathered of cores that are no members
    belongs to other rectangles of its identifier, and stays. -/
def releaseCore (n k : Nat) (v : Word) (f : Flags) (time : Nat) (members : List Nat) (s : State) (core : Nat) : State :=
  let b := s.bar core n k
  let woke := fun (c : Nat) (x : Ctx) => c == core && waitsFor x n k b.gen
  let s := handTime (coresWith woke s) time (mapThreads woke (fun x => released x v f time) s)
  { s with bars := Tbl.set s.bars (barKey core n k) { gen := !b.gen, got := b.got.filter (fun e => !members.contains e.1) } }

/-- The release (15 R274), which the north-west core sends once every member has arrived. -/
def release (core n k : Nat) (s : State) : State :=
  let nr := s.netRec n
  let nw := s.bar core n k
  let rows := rectRows nr s nw.rect
  let cores := rows.flatten
  if (nr.st = .bound ∨ nr.st = .parked) ∧ nw.arrived = true ∧ gatherCore nr s nw.rect = core ∧ allArrived s n k nw cores = true then
    let value := fun c => ((nw.got.find? (fun e => e.1 == c)).map (·.2)).getD 0
    let r := if nw.isRed then barResult (bits nw.rect.toNat 46 44) (rows.map (fun l => l.map value)) else (0, 0)
    let time := cores.foldl (fun t c => max t (s.bar c n k).time) nw.time
    cores.foldl (releaseCore n k r.1 r.2 time cores) s
  else s

def execBarrierRelease (core net k : Nat) (s : State) : Result := .next (release core net k s)

/-! ### Flits (15 R281 to R284) -/

/-- The header as received: bits 23:0 of lane 0 name the sender. -/
def receivedFlit (data : VData) (sender form : Nat) : VData :=
  data / 2 ^ 24 * 2 ^ 24 + BitVec.ofNat 256 (sender % 16 * 2 ^ 20 + coreOf sender * 2 ^ 18 + form)

/-- The context of a net at a berth, running or resident (15 R282). -/
inductive Inbox where
  | running (c : Ctx)
  | resident (c : Ctx)
  | nobody
  deriving DecidableEq, Repr

def inbox (s : State) (n b : Nat) : Inbox :=
  match Tbl.get? s.berths b, Tbl.get? s.residents b with
  | some x, r => if x.ctx.net = n then .running x.ctx else (match r with | some c => if c.net = n then .resident c else .nobody | none => .nobody)
  | none, some c => if c.net = n then .resident c else .nobody
  | none, none => .nobody

/-- A flit enters a context's queue; a receiver parked on an empty queue returns to rotation and takes it (15 R283). -/
def enqueue (c : Ctx) (data : VData) (time : Nat) : Ctx :=
  { c with mq := c.mq ++ [(data, time)], wait := (match c.wait with | .flit _ => .ready | w => w) }

/-- A flit enters, or is discarded; `none` where a full queue refuses it. -/
def enterFlit (data : VData) (dst sender n time : Nat) (s : State) : Option State :=
  let d := receivedFlit data sender ((s.netRec n).form s (quadOf sender))
  match inbox s n dst with
  | .running c => if 8 ≤ c.mq.length then none else some (s.setCtx dst (enqueue c d time))
  | .resident c => if 8 ≤ c.mq.length then none else some { s with residents := Tbl.set s.residents dst (enqueue c d time) }
  | .nobody => some s

/-- The sender's flit has been accepted: its `swr` is performed (15 R282). -/
def acceptFlit (sender n : Nat) (s : State) : State :=
  let c := s.ctx sender
  match c.wait with
  | .send .. => if s.held sender && c.net == n then s.setCtx sender { c with pc := c.pc + 4, wait := .reply } else s
  | _ => s

/-- A flit reaches its quad: entered, discarded, refused by a full queue, or taken into suspense (15 R282, 17 R307). -/
def flitArrival (i : Nat) (s : State) : State :=
  match takeMsg s i with
  | none => s
  | some (m, t) =>
    match m.body with
    | .flit data dst sender n time =>
      if suspends s m then acceptFlit sender n (suspend m t)
      else
        match enterFlit data dst sender n time t with
        | none => t
        | some u => acceptFlit sender n u
    | _ => s

def execFlitArrival (msg : Nat) (s : State) : Result := .next (flitArrival msg s)

/-- Whether a berth's flit is in flight. -/
def flying (s : State) (b : Nat) : Bool := s.msgs.any (fun m => match m.body with | .flit _ _ x _ _ => x == b | _ => false)

/-- A refused flit is sent again (15 R282). -/
def execFlitResend (b : Nat) (s : State) : Result :=
  let c := s.ctx b
  match c.wait with
  | .send data dst =>
    .next (if flying s b then s
      else { s with msgs := s.msgs ++ [({ src := quadOf b, dst := quadOf dst, body := .flit data dst b c.net (max c.pts s.T) } : Msg)] })
  | _ => .next s

end Sys2Proof.Machine
end

