-- ==== Sys2Proof/Machine/FaultEvents.lean ====
section
/-!
DEFINITION. Steps of faults, voiding, mints and time limits (14 R250 to R257, 17 R298 R301 R308).
-/

namespace Sys2Proof.Machine

/-! ### Fault redexes and VOID traps -/

/-- A berth's fault redex is made when a block is free and its turn has come, and those of the engine faults behind it (17 R298 R301). -/
def execFaultRedex (b : Nat) (s : State) : Result :=
  .next (if s.held b then serveEng (s.ctx b).net (quadOf b) 4 (faultRedexAt b s) else s)

/-- Waits that voiding ends at once (14 R257, 11 R190); what has been made completes first, and a registered waiter stays. A thread of the voiding net
    that waits at another net's mint stays too, until that mint wakes it (DESIGN CHOICE, log entry 108). -/
def endedByVoid (w : Wait) : Bool :=
  match w with
  | .reply | .added .. | .sent | .send .. | .gangop | .assay _ | .link _ | .qwait .. | .qretry .. | .borrow => false
  | _ => true

/-- A thread of a voiding net is discarded (14 R257). A resident context that voiding keeps goes on in its berth instead (14 R256). -/
def voidTrap (b : Nat) (s : State) : State :=
  let s := match Tbl.get? s.residents b with
    | some c =>
      if (s.netRec c.net).st = .voiding then
        (if keptInVoid c then (if berthFree s b then { s.setBerth b { ctx := c } with residents := Tbl.del s.residents b } else s)
         else discardSaved (quadOf b) c { s with residents := Tbl.del s.residents b })
      else s
    | none => s
  if s.held b && (s.netRec (s.ctx b).net).st == .voiding && !(s.ctx b).woken && endedByVoid (s.ctx b).wait then discard b s else s

def execVoidTrap (b : Nat) (s : State) : Result := .next (voidTrap b s)

/-! ### Mints (14 R250 R252) -/

def execMintReturn (msg : Nat) (s : State) : Result :=
  match takeMsg s msg with
  | none => .next s
  | some (m, t) =>
    match m.body with
    | .ret n amount time => .next (mintReturn n amount time (mintRequest m.src n t))
    | _ => .next s

/-- A coin below two grains waits on a borrow: before its instruction goes on, or for the push of a `link`. -/
def wantsBorrow (c : Ctx) : Bool :=
  match c.wait with
  | .borrow => true
  | .link p => p.push.isSome && decide (c.coin < 2) && c.lent == 0
  | _ => false

/-- Another thread of the net whose borrow is on its way, and may meet this one in a switch of the bank net (14 R250). -/
def otherBorrower (b : Nat) (s : State) : Option Nat :=
  (s.berths.find? (fun e => e.1 != b && e.2.ctx.net == (s.ctx b).net && wantsBorrow e.2.ctx)).map (·.1)

/-- Two borrows that have met: both are performed in one arrival, and each reply carries the later clearing time (09 R176). -/
def borrowWith (b o : Nat) (s : State) : State :=
  match borrowAt o s with
  | none => s
  | some t =>
    let time := max (t.ctx b).pts (t.ctx o).pts
    count (homeOf t (mintPa t (t.ctx b).net) / 256) 7 1 (granted o ((t.raise b time).raise o time))

/-- A borrow is performed at the mint and replied to: granted, the thread goes on; refused, it is discarded (14 R251 R252 R257). Whether it meets
    another thread's borrow on its way is the hardware's choice (log entry 3). -/
def borrow (b : Nat) (s : State) : State :=
  if !(s.held b && wantsBorrow (s.ctx b)) then s
  else
    let s := mintRequest (quadOf b) (s.ctx b).net s
    match borrowAt b s with
    | none => discard b s
    | some t =>
      match otherBorrower b t with
      | none => granted b t
      | some o =>
        let (c, t) := choice t 2
        granted b (if c = 0 then t else borrowWith b o t)

def execMintBorrow (b : Nat) (s : State) : Result := .next (borrow b s)

/-- A net's deadline has passed (14 R257). -/
def late (s : State) (deadline : Nat) : Bool := deadline != 0 && decide (deadline ≤ s.wall)

/-- The bursar writes a mint's state and reason (14 R250): VOIDING of an OPEN mint, VOIDED of a QUIET one, with reason 01, once the net's
    deadline has passed. An ABORT, R46 and a forced close write theirs in steps of their own. -/
def execMintClose (n : Nat) (state reason : BitVec 2) (s : State) : Result :=
  let m := s.mint n
  .next (if late s (s.netRec n).deadline && reason == 1 && ((state == 2 && m.st == .opened) || (state == 3 && m.st == .quiet)) then startVoid n 1 2 s else s)

/-! ### Waiting for quiet (14 R256) -/

/-- A registered waiter is told its report, wherever it stands. -/
def tell (n : Nat) (s : State) (u : Due) : State :=
  let p := fun (_ : Nat) (c : Ctx) => c.tid == u.tid && (match c.wait with | .qwait m _ => m == n | _ => false)
  handTime (coresWith p s) u.time (mapThreads p (fun c => match c.wait with | .qwait _ d => wokenCtx c n u d | _ => c) s)

def execQwaitWake (n : Nat) (s : State) : Result :=
  let m := s.mint n
  if m.due = [] then .next s else .next (m.due.foldl (tell n) { s with mints := Tbl.set s.mints n { m with due := [] } })

def execQwaitRetry (b : Nat) (s : State) : Result :=
  match (s.ctx b).wait with
  | .qretry n d => .next (if s.held b then readMint b n d (mintRequest (quadOf b) n s) else s)
  | _ => .next s

/-! ### Time limits -/

/-- A launch that waits is voided: it is never bound, and its id is free (13 R233, 18 R326). -/
def voidLaunch (l : Launch) (s : State) : State :=
  let s := journal { status := 7, net := l.net, fromSt := 1, toSt := 6, kind := 2 } { s with launches := s.launches.filter (fun x => x.net != l.net) }
  reply l.src l.queue l.tagg l.reply 7 l.net (lastSeq s) [] s

/-- The wall clock passes a deadline (13 R233, 14 R257). -/
def execDeadline (n : Nat) (s : State) : Result :=
  match s.launches.find? (fun l => l.net == n) with
  | some l => .next (if late s (dbl l.record 8) then voidLaunch l s else s)
  | none => .next (if late s (s.netRec n).deadline then startVoid n 1 2 s else s)

/-- A thread has waited for W cycles (17 R308): the wait is withdrawn, and the thread faults WATCHDOG with the pc on the instruction. -/
def execWatchdogExpiry (b : Nat) (s : State) : Result :=
  let x := s.berth b
  let nr := s.netRec x.ctx.net
  if s.held b && watchedWait x.ctx.wait && nr.watch != 0 && decide (8 * nr.watch ≤ x.ctx.waited) && nr.st == .bound && !haltedAnywhere s x.ctx.net then
    .next (faultBerth b { cause := .watchdog, pc := x.ctx.pc, lnk := (match x.ctx.wait with | .link _ => true | _ => false) } s)
  else .next s

end Sys2Proof.Machine
end

