-- ==== Sys2Proof/Machine/Bursar.lean ====
section
/-!
DEFINITION. Command packets and the bursar's commands (16 R285 to R296, 18 R324 to R331).
-/

namespace Sys2Proof.Machine

/-! ### Packets (18 R324) -/

def Packet.word (p : Packet) (i : Nat) : Nat := dbl p.bytes (8 * i)
def Packet.code (p : Packet) : Nat := bits (p.word 0) 63 56
def Packet.tagg (p : Packet) : Nat := bits (p.word 0) 47 32
def Packet.epoch (p : Packet) : Nat := bits (p.word 0) 31 0
def Packet.addr (p : Packet) : Nat := p.word 1
def Packet.net (p : Packet) : Nat := bits (p.word 2) 11 0
def Packet.arg (p : Packet) : Nat := p.word 3
def Packet.body (p : Packet) : List Byte := p.bytes.drop 128

/-- Command codes (18 R325). -/
def assigned (c : Nat) : Bool := (1 ≤ c && c ≤ 6) || (0x10 ≤ c && c ≤ 0x14) || (0x20 ≤ c && c ≤ 0x25) || (0x30 ≤ c && c ≤ 0x32)
/-- Commands that any host master may give. -/
def freeCommand (c : Nat) : Bool := c == 0x10 || c == 0x12 || c == 0x31 || c == 0x32
def namesNet (c : Nat) : Bool := 2 ≤ c && c ≤ 6
def argZero (c : Nat) : Bool := c == 1 || c == 2 || c == 0x10 || c == 0x12 || c == 0x13 || c == 0x14 || c == 0x31 || c == 0x32

/-- How many bytes of the body a command uses. -/
def bodyUsed (p : Packet) : Nat :=
  match p.code with
  | 0x01 => 128
  | 0x20 => 32
  | 0x22 => 8
  | 0x25 => if bits p.arg 63 63 = 1 then 8 else 0
  | 0x31 => 48
  | _ => 0

/-- The fields that R324 requires to be zero. -/
def fieldsZero (p : Packet) : Bool :=
  bits (p.word 0) 55 48 == 0 && bits (p.word 2) 63 12 == 0 && (namesNet p.code || p.net == 0) && (!argZero p.code || p.arg == 0)
    && ((p.bytes.drop 32).take 96).all (· == 0) && (p.body.drop (bodyUsed p)).all (· == 0)

/-! ### Masters (16 R285 R287 R292) -/

/-- The verified peer id of a span port. -/
def peerId (s : State) (span : Nat) : Option (BitVec 16) := Tbl.get? s.span span

/-- A master's number: a host port, or 2 more than a peer id. -/
def masterNo (s : State) (src : Source) : Option Nat :=
  match src with
  | .host p => some p
  | .peer sp => (peerId s sp).map (fun i => i.toNat + 2)

def isOwner (s : State) (src : Source) : Bool :=
  match src with
  | .host p => s.owner.st != .vacant && s.owner.port == p
  | .peer _ => false

/-- The valid access-control entry that names a peer. -/
def aclOf (s : State) (id : BitVec 16) : Option AclEntry :=
  (s.acl.find? (fun e => bits e.2.w0.toNat 63 63 == 1 && bits e.2.w0.toNat 15 0 == id.toNat)).map (·.2)

/-- Whether the access-control table allows a peer's command (16 R292). Attestation and counters are served to every master (16 R287 R296). -/
def peerAllowed (s : State) (sp q : Nat) (c : Nat) : Bool :=
  match peerId s sp with
  | none => false
  | some id =>
    if c = 0x31 ∨ c = 0x32 then true
    else
      match aclOf s id with
      | none => false
      | some e => e.w1.getLsbD q && ((c == 1 && bits e.w0.toNat 62 62 == 1) || (c == 2 && bits e.w0.toNat 61 61 == 1))

/-- Status values (18 R326). -/
def stACCEPTED : Nat := 0
def stSTALE : Nat := 1
def stNOTOWNER : Nat := 2
def stDENIED : Nat := 3
def stBADREC : Nat := 4
def stNOROOM : Nat := 5
def stNOTPRIV : Nat := 6
def stVOIDED : Nat := 7
def stBUSY : Nat := 9

/-- Steps 1 to 4 of 16 R287, and the packet's own form: the status of a refusal. With no firmware every command is refused BADREC (18 R327). -/
def refusal (s : State) (q : Nat) (p : Packet) : Option Nat :=
  let peer := match p.src with | .peer sp => some sp | .host _ => none
  if s.power = .noFirmware then some stBADREC
  else if (match peer with | some sp => (peerId s sp).isNone | none => false) then some stDENIED
  else if p.epoch ≠ s.owner.epoch.toNat then some stSTALE
  else if assigned p.code = false then some stBADREC
  else if !(freeCommand p.code || isOwner s p.src || (peer.isSome && (p.code == 1 || p.code == 2))) then some stNOTOWNER
  else if (match peer with | some sp => !peerAllowed s sp q p.code | none => false) then some stDENIED
  else if fieldsZero p then none else some stBADREC

/-! ### Polling (18 R326, 16 R288) -/

def State.cmdq (s : State) (q : Nat) : List Packet := Tbl.getD s.cmdqs q []

/-- The queues of the present round that hold a packet, in order. -/
def toPoll (s : State) : List Nat :=
  let l := (List.range 64).filter (fun q => s.cmdq q != [] && !s.polled.contains q)
  if l = [] then (List.range 64).filter (fun q => s.cmdq q != []) else l

/-- The port of a host's CLAIM at the head of a queue. -/
def claimPort (s : State) (q : Nat) : Option Nat :=
  match s.cmdq q with
  | p :: _ => if p.code = 0x10 then (match p.src with | .host h => some h | .peer _ => none) else none
  | [] => none

/-- The queue that the bursar takes from next: claims of one round go lower port first. -/
def nextQueue (s : State) : Option Nat :=
  match toPoll s with
  | [] => none
  | q :: r =>
    match claimPort s q with
    | some h => if h = 0 then some q else some ((r.find? (fun x => claimPort s x == some 0)).getD q)
    | none => some q

/-- Takes the packet at a queue's head, in its turn. -/
def takePacket (q : Nat) (s : State) : Option (Packet × State) :=
  match s.cmdq q with
  | [] => none
  | p :: r =>
    if nextQueue s ≠ some q then none
    else
      let fresh := (List.range 64).all (fun x => s.cmdq x == [] || s.polled.contains x)
      let before := if fresh then [] else s.polled
      let lowest := (toPoll s).head? == some q
      let passed := if lowest then (List.range (q + 1)).filter (fun x => !before.contains x) else [q]
      some (p, { s with cmdqs := if r = [] then Tbl.del s.cmdqs q else Tbl.set s.cmdqs q r, polled := passed ++ before })

/-! ### Answers (17 R310, 18 R326) -/

/-- The journal entry of a command from its master. -/
def entry (s : State) (p : Packet) (status net fromSt toSt : Nat) : Event :=
  { code := p.code, status := status, net := net, fromSt := fromSt, toSt := toSt
    kind := (match p.src with | .host _ => 0 | .peer _ => 1)
    port := (match p.src with | .host h => h | .peer _ => 0)
    peer := (match p.src with | .host _ => 0 | .peer sp => ((peerId s sp).map (·.toNat)).getD 0) }

/-- Journals a decision and then replies; the last accepted command is kept for attestation (16 R296). -/
def answerCmd (q : Nat) (p : Packet) (status net fromSt toSt : Nat) (data : List Byte) (s : State) : State :=
  let s := if status = stACCEPTED then { s with lastCmd := s.jseq } else s
  let s := journal (entry s p status net fromSt toSt) s
  reply p.src q p.tagg p.addr status net (lastSeq s) data s

/-- The journal's code for the state of the net that a command names, where it names one (17 R310). -/
def namedState (s : State) (p : Packet) : Nat :=
  if !namesNet p.code then 0 else if s.launches.any (fun l => l.net == p.net) then 1 else stateCode (s.netRec p.net).st

/-- A refused command changes nothing: it is journalled, with the state of the net that it names, and answered. -/
def refuse (q : Nat) (p : Packet) (status : Nat) (s : State) : State := answerCmd q p status p.net (namedState s p) 7 [] s

/-- An accepted command that changes no net's state: its entry holds the state of the net that it names, where it names one (17 R310). -/
def accept (q : Nat) (p : Packet) (s : State) : State :=
  answerCmd q p stACCEPTED p.net (namedState s p) (namedState s p) [] s

/-- What a command does once it has passed the checks of R287: refused with a status, or a new state with its answer given. -/
abbrev CmdOut := Except Nat State

/-- A command step: the packet at the head of a queue, when it carries this code and is the next. -/
def command (code q : Nat) (f : Packet → State → CmdOut) (s : State) : Result :=
  match takePacket q s with
  | none => .next s
  | some (p, t) =>
    if p.code ≠ code then .next s
    else
      match refusal t q p with
      | some st => .next (refuse q p st t)
      | none =>
        match f p t with
        | .error st => .next (refuse q p st t)
        | .ok u => .next u

/-- A command of no code that R325 assigns is refused. -/
def refuseHead (q : Nat) (s : State) : State :=
  match takePacket q s with
  | none => s
  | some (p, t) => if assigned p.code then s else refuse q p ((refusal t q p).getD stBADREC) t

/-! ### Launches and aborts (13 R233, 14 R257, 16 R295) -/

/-- An id that a launch may take: no net's, no waiting launch's, and no waiter is registered on its old mint (14 R256). Of several the lowest is taken,
    where 13 R233 names none (log entry 94). -/
def freeId (s : State) : Option Nat :=
  (List.range 4096).find? (fun n => (s.netRec n).st == .free && s.launches.all (fun l => l.net != n) && (s.mint n).waiters == [] && (s.mint n).due == [])

def doLaunch (q : Nat) (p : Packet) (s : State) : CmdOut :=
  match parseLaunch p.body with
  | none => .error stBADREC
  | some r =>
    if r.priv && !isOwner s p.src then .error stNOTPRIV
    else if noRoomEver s r then .error stNOROOM
    else
      match freeId s with
      | none => .error stBUSY
      | some n =>
        let l : Launch := { net := n, record := p.body, src := p.src, master := (masterNo s p.src).getD 0, queue := q, tagg := p.tagg, reply := p.addr }
        .ok (answerCmd q p stACCEPTED n 0 1 [] { s with launches := s.launches ++ [l] })

def execLaunch (q : Nat) (s : State) : Result := command 0x01 q (doLaunch q) s

/-- A peer aborts only what it launched (16 R291). -/
def mayAbort (s : State) (src : Source) (master : Nat) : Bool :=
  match src with
  | .host _ => true
  | .peer _ => masterNo s src == some master

def doAbort (q : Nat) (p : Packet) (s : State) : CmdOut :=
  let n := p.net
  let nr := s.netRec n
  match s.launches.find? (fun l => l.net == n) with
  | some l =>
    if !mayAbort s p.src l.master then .error stDENIED
    else
      let t := answerCmd q p stACCEPTED n 1 6 [] { s with launches := s.launches.filter (fun x => x.net != n) }
      .ok (reply l.src l.queue l.tagg l.reply stVOIDED n (lastSeq t) [] t)
  | none =>
    if nr.st = .free then .error stBADREC
    else if !mayAbort s p.src nr.master then .error stDENIED
    else if nr.st = .voiding then .ok (accept q p s)
    else .ok (answerCmd q p stACCEPTED n (stateCode nr.st) 4 [] (voidNet n 2 s))

def execAbort (q : Nat) (s : State) : Result := command 0x02 q (doAbort q) s

/-! ### Halts, watchdogs and debugging (17 R307 R308) -/

/-- The quad that a word in the form of `%quad` names for a net that has a bind record. -/
def netQuadOf (s : State) (n v : Nat) : Option Nat :=
  let nr := s.netRec n
  if nr.st = .free ∨ 2 ^ 18 ≤ v then none else nr.ofForm s v

def doHalt (q : Nat) (p : Packet) (s : State) : CmdOut :=
  match netQuadOf s p.net p.arg with
  | none => .error stBADREC
  | some d => .ok (accept q p (s.setNetq p.net d { s.netq p.net d with halted := true }))

def execHalt (q : Nat) (s : State) : Result := command 0x03 q (doHalt q) s

/-- A suspended arrival enters its quad, and one that finds no spill room stays in flight. One whose entry is poisoned is lost, its coin as 14 R258
    has it; of a flit nothing is left (log entry 31). -/
def unsuspend (s : State) (e : Nat × Msg) : State :=
  let m := e.2
  if suspenseBad s e then suspenseLost s e
  else match m.body with
  | .flit data dst sender n time =>
    let d := receivedFlit data sender ((s.netRec n).form s (quadOf sender))
    (match inbox s n dst with
     | .running c => s.setCtx dst (enqueue c d time)
     | .resident c => { s with residents := Tbl.set s.residents dst (enqueue c d time) }
     | .nobody => s)
  | _ => (deliver m s).getD { s with msgs := s.msgs ++ [m] }

/-- The end of a halt: suspended arrivals enter in arrival order, ahead of later ones (17 R307). -/
def endHalt (n d : Nat) (s : State) : State :=
  let here := fun (e : Nat × Msg) => e.2.dst == d && msgNet e.2.body == some n
  let mine := s.suspense.filter here
  let later := s.msgs
  let s := { s with suspense := s.suspense.filter (fun e => !here e), msgs := [] }
  let s := mine.foldl unsuspend (s.setNetq n d { s.netq n d with halted := false })
  { s with msgs := s.msgs ++ later }

def doResume (q : Nat) (p : Packet) (s : State) : CmdOut :=
  match netQuadOf s p.net p.arg with
  | none => .error stBADREC
  | some d => .ok (accept q p (endHalt p.net d s))

def execResume (q : Nat) (s : State) : Result := command 0x04 q (doResume q) s

def doWatchdog (q : Nat) (p : Packet) (s : State) : CmdOut :=
  let nr := s.netRec p.net
  if nr.st = .free then .error stBADREC else .ok (accept q p (s.setNet p.net { nr with watch := p.arg }))

def execWatchdog (q : Nat) (s : State) : Result := command 0x05 q (doWatchdog q) s

def doArm (q : Nat) (p : Packet) (s : State) : CmdOut :=
  match netQuadOf s p.net (p.arg % 2 ^ 63) with
  | none => .error stBADREC
  | some d => .ok (accept q p (s.setNetq p.net d { s.netq p.net d with armed := decide (2 ^ 63 ≤ p.arg) }))

def execArm (q : Nat) (s : State) : Result := command 0x06 q (doArm q) s

/-! ### Ownership (16 R286 to R289) -/

/-- The ownership register takes a new state, and the epoch rises. -/
def own (st : OwnState) (port succ : Nat) (s : State) : State :=
  { s with owner := { s.owner with st := st, port := port, succ := succ, epoch := s.owner.epoch + 1 } }

def hostPort (src : Source) : Nat := match src with | .host p => p | .peer _ => 0

def doClaim (q : Nat) (p : Packet) (s : State) : CmdOut :=
  if s.owner.st ≠ .vacant then .error stNOTOWNER
  else
    let t := own .owned (hostPort p.src) 0 s
    .ok (accept q p { t with owner := { t.owner with lastPacket := s.wall } })

def execClaim (q : Nat) (s : State) : Result := command 0x10 q (doClaim q) s

/-- HANDOVER (16 R289): to the other port, or to none, which cancels. -/
def doHandover (q : Nat) (p : Packet) (s : State) : CmdOut :=
  let a := p.arg
  if 8 ≤ a then .error stBADREC
  else if a = 4 then .ok (accept q p (if s.owner.st = .handover then own .owned s.owner.port 0 s else s))
  else if 4 < a ∨ 1 < a ∨ a = s.owner.port then .error stBADREC
  else
    let t := own .handover s.owner.port a s
    .ok (accept q p { t with owner := { t.owner with handoverAt := s.wall } })

def execHandover (q : Nat) (s : State) : Result := command 0x11 q (doHandover q) s

def doAccept (q : Nat) (p : Packet) (s : State) : CmdOut :=
  if s.owner.st = .handover ∧ hostPort p.src = s.owner.succ then
    let t := own .owned (hostPort p.src) 0 s
    .ok (accept q p { t with owner := { t.owner with lastPacket := s.wall } })
  else .error stNOTOWNER

def execAccept (q : Nat) (s : State) : Result := command 0x12 q (doAccept q) s
def execRelease (q : Nat) (s : State) : Result := command 0x13 q (fun p s => .ok (accept q p (own .vacant 0 0 s))) s
def execHeartbeat (q : Nat) (s : State) : Result := command 0x14 q (fun p s => .ok (accept q p s)) s

/-! ### Tables, roles, islands, power (16 R291, 08 R148 R149, 18 R321 R322 R329 R330) -/

/-- An access-control entry keeps its zero fields. -/
def aclFormOk (e : AclEntry) : Bool :=
  bits e.w0.toNat 58 16 == 0 && bits e.w2.toNat 63 52 == 0 && bits e.w2.toNat 25 0 == 0 && bits e.w3.toNat 63 20 == 0

def doAcl (q : Nat) (p : Packet) (s : State) : CmdOut :=
  let b := p.body
  let w := fun i => BitVec.ofNat 64 (dbl b (8 * i))
  let e : AclEntry := { w0 := w 0, w1 := w 1, w2 := w 2, w3 := w 3 }
  let valid := fun (x : AclEntry) => bits x.w0.toNat 63 63 == 1
  if 256 ≤ p.arg ∨ aclFormOk e = false then .error stBADREC
  else if valid e && s.acl.any (fun x => x.1 != p.arg && valid x.2 && bits x.2.w0.toNat 15 0 == bits e.w0.toNat 15 0) then .error stBADREC
  else .ok (accept q p { s with acl := Tbl.set s.acl p.arg e })

def execAcl (q : Nat) (s : State) : Result := command 0x20 q (doAcl q) s

/-- A slice map as it lies in HBM: 4,096 entries of 16 bits. -/
def mapAt (s : State) (pa : Nat) : Tbl Nat :=
  (List.range 4096).filterMap (fun h =>
    let v := leNat (memRead s.mem (pa + 2 * h) 2) % 4096
    if v = h then none else some (h, v))

/-- A new generation (08 R149): lines that change their home are retired, which settles them; the ports of `late` receive their copy later. -/
def newMap (m : Tbl Nat) (late : List Nat) (s : State) : State :=
  let moved := fun (line : Nat) => let h := homeHash (256 * line); !isVault (256 * line) && mapEntry s h != Tbl.getD m h h
  { settleWhere s moved with sliceMap := m, oldMap := s.sliceMap, mapGen := s.mapGen + 1, stalePorts := late }

def doSlicemap (q : Nat) (late : List Nat) (p : Packet) (s : State) : CmdOut :=
  if hbmTop < p.arg + 8192 then .error stBADREC else .ok (accept q p (newMap (mapAt s p.arg) late (parted p.arg 8192 s)))

def execSlicemap (q : Nat) (late : List Nat) (s : State) : Result := command 0x21 q (doSlicemap q late) s

def doBankrole (q : Nat) (p : Packet) (s : State) : CmdOut :=
  let v := dbl p.body 0
  let slice := 256 * bits p.arg 63 60 + bits p.arg 59 52
  if bits p.arg 51 0 ≠ 0 ∨ (List.range 32).any (fun b => bits v (2 * b + 1) (2 * b) == 3) = true then .error stBADREC
  else .ok (accept q p { s with roleChg := if Tbl.getD s.roles slice 0 = v then Tbl.del s.roleChg slice else Tbl.set s.roleChg slice v })

def execBankrole (q : Nat) (s : State) : Result := command 0x22 q (doBankrole q) s

def doIsland (q : Nat) (p : Packet) (s : State) : CmdOut :=
  if 64 ≤ p.arg then .error stBADREC else .ok (accept q p { s with points := Tbl.set s.points (p.arg % 16) (p.arg / 16) })

def execIsland (q : Nat) (s : State) : Result := command 0x23 q (doIsland q) s

/-- The cap (18 R330); points that were lowered under an earlier cap return to the owner's. -/
def doPowercap (q : Nat) (p : Packet) (s : State) : CmdOut :=
  if p.arg < 4000 ∨ 7500 < p.arg then .error stBADREC else .ok (accept q p { s with powerCap := p.arg, capped := [] })

def execPowercap (q : Nat) (s : State) : Result := command 0x24 q (doPowercap q) s

/-- WINDOW (18 R321 R322): with bit 63 the entry of peer slot bits 3:0; else the BAR2 base in bits 63:36, the port in bit 0 (the layout of
    the argument is the model's, log entry 13). R322 names no content of bits 62:32 of an entry, and a packet that sets one is refused BADREC, by the
    model's choice (log entry 13). -/
def doWindow (q : Nat) (p : Packet) (s : State) : CmdOut :=
  let a := p.arg
  let e := dbl p.body 0
  if bits a 63 63 = 1 then
    if bits a 62 4 ≠ 0 ∨ bits e 62 32 ≠ 0 then .error stBADREC else .ok (accept q p { s with peers := Tbl.set s.peers (bits a 3 0) (BitVec.ofNat 64 e) })
  else
    if bits a 35 1 ≠ 0 ∨ hbmTop ≤ bits a 63 36 * 2 ^ 36 then .error stBADREC
    else .ok (accept q p { s with bar2 := Tbl.set s.bar2 (bits a 0 0) (bits a 63 36 * 2 ^ 36) })

def execWindow (q : Nat) (s : State) : Result := command 0x25 q (doWindow q) s

/-! ### Firmware, attestation, counters (18 R328 R331, 16 R296) -/

/-- FWLOAD: an image that verifies, and whose version the rollback counter allows, goes to the inactive flash copy. -/
def doFwload (q : Nat) (p : Packet) (s : State) : CmdOut :=
  let v := Config.imageVersion s.mem p.arg
  if hbmTop ≤ p.arg ∨ Config.imageVerifies s.mem p.arg = false ∨ v < s.rollback then .error stBADREC
  else .ok (accept q p { parted p.arg (hbmTop - p.arg) s with fwInactive := some (Config.imageDigest s.mem p.arg, v), fwPending := true })

def execFwload (q : Nat) (s : State) : Result := command 0x30 q (doFwload q) s

/-- A 384-bit digest as 48 bytes, first byte first. -/
def digestBytes (d : BitVec 384) : List Byte := leBytes 48 d.toNat

/-- The attestation report (16 R296). -/
def attestReport (nonce : List Byte) (s : State) : List Byte :=
  let fuse := (List.range 32768).map (fun i => BitVec.ofNat 8 (fuseByte s i))
  let acl := (List.range 1024).flatMap (fun i => leBytes 8 (aclWord s (i / 4) (i % 4)))
  nonce ++ digestBytes s.fwActive ++ digestBytes (Config.sha384 fuse) ++ digestBytes (Config.sha384 acl)
    ++ leBytes 8 (ownerWord s.owner) ++ leBytes 8 Config.serial.toNat ++ leBytes 8 s.lastCmd

def doAttest (q : Nat) (p : Packet) (s : State) : CmdOut :=
  let r := attestReport (p.body.take 48) s
  .ok (answerCmd q p stACCEPTED 0 0 0 (r ++ Config.ecdsaSign r ++ Config.lmsSign r) s)

def execAttest (q : Nat) (s : State) : Result := command 0x31 q (doAttest q) s

/-- SNAPSHOT copies every counter of every die (18 R331). -/
def execSnapshot (q : Nat) (s : State) : Result := command 0x32 q (fun p s => .ok (accept q p { s with perfSnap := s.perf })) s

end Sys2Proof.Machine
end

