-- ==== Sys2Proof/Machine/Integer.lean ====
section
/-!
DEFINITION. Integer, immediate, address, bit-field and compare instructions (05 R83 to R88), and the first words that are no instruction (03 R58 R60).
-/

namespace Sys2Proof.Machine

/-- An instruction of n bytes that writes one general register and moves the pc past itself. -/
def writes (n : Nat) (d : Reg) (v : Word) (s : State) : Result := .next ((s.xw d v).pass n)

/-! ### Op(fn, a, b) (05 R84) -/

def mulHigh (a b : Word) : Word := BitVec.ofInt 64 (a.toInt * b.toInt / 2 ^ 64)
def mulHighZ (a b : Word) : Word := BitVec.ofNat 64 (a.toNat * b.toNat / 2 ^ 64)
def divS (a b : Word) : Word := if b = 0 then -1 else a.sdiv b
def divU (a b : Word) : Word := if b = 0 then -1 else a / b
def remS (a b : Word) : Word := if b = 0 then a else a.srem b
def remU (a b : Word) : Word := if b = 0 then a else a % b
def shlBy (a : Word) (n : Nat) : Word := if 64 ≤ n then 0 else a <<< n
def shrBy (a : Word) (n : Nat) : Word := if 64 ≤ n then 0 else a >>> n
def shaBy (a : Word) (n : Nat) : Word := if 64 ≤ n then (if a.msb then -1 else 0) else a.sshiftRight n
def rotBy (a : Word) (n : Nat) : Word := a.rotateLeft (n % 64)
def minS (a b : Word) : Word := if a.slt b then a else b
def maxS (a b : Word) : Word := if a.slt b then b else a
def minU (a b : Word) : Word := if a.ult b then a else b
def maxU (a b : Word) : Word := if a.ult b then b else a
def leadingZeros (a : Word) : Word := BitVec.ofNat 64 (if a = 0 then 64 else 63 - Nat.log2 a.toNat)
def trailingZeros (a : Word) : Word := BitVec.ofNat 64 (if a = 0 then 64 else Nat.log2 (a &&& -a).toNat)
def oneBits (a : Word) : Word := BitVec.ofNat 64 ((List.range 64).countP a.getLsbD)

def execAdd (d a b : Reg) (s : State) : Result := writes 4 d (s.x a + s.x b) s
def execSub (d a b : Reg) (s : State) : Result := writes 4 d (s.x a - s.x b) s
def execMul (d a b : Reg) (s : State) : Result := writes 4 d (s.x a * s.x b) s
def execMulh (d a b : Reg) (s : State) : Result := writes 4 d (mulHigh (s.x a) (s.x b)) s
def execMulhz (d a b : Reg) (s : State) : Result := writes 4 d (mulHighZ (s.x a) (s.x b)) s
def execDiv (d a b : Reg) (s : State) : Result := writes 4 d (divS (s.x a) (s.x b)) s
def execDivz (d a b : Reg) (s : State) : Result := writes 4 d (divU (s.x a) (s.x b)) s
def execRem (d a b : Reg) (s : State) : Result := writes 4 d (remS (s.x a) (s.x b)) s
def execRemz (d a b : Reg) (s : State) : Result := writes 4 d (remU (s.x a) (s.x b)) s
def execAnd (d a b : Reg) (s : State) : Result := writes 4 d (s.x a &&& s.x b) s
def execOr (d a b : Reg) (s : State) : Result := writes 4 d (s.x a ||| s.x b) s
def execXor (d a b : Reg) (s : State) : Result := writes 4 d (s.x a ^^^ s.x b) s
def execAndn (d a b : Reg) (s : State) : Result := writes 4 d (s.x a &&& ~~~(s.x b)) s
/-- The register amount is the whole of X(rb) (05 R84). -/
def execShl (d a b : Reg) (s : State) : Result := writes 4 d (shlBy (s.x a) (s.x b).toNat) s
def execShlImm (d a : Reg) (n : BitVec 7) (s : State) : Result := writes 4 d (shlBy (s.x a) n.toNat) s
/-- The register amount is the whole of X(rb) (05 R84). -/
def execShr (d a b : Reg) (s : State) : Result := writes 4 d (shrBy (s.x a) (s.x b).toNat) s
def execShrImm (d a : Reg) (n : BitVec 7) (s : State) : Result := writes 4 d (shrBy (s.x a) n.toNat) s
/-- The register amount is the whole of X(rb) (05 R84). -/
def execSha (d a b : Reg) (s : State) : Result := writes 4 d (shaBy (s.x a) (s.x b).toNat) s
def execShaImm (d a : Reg) (n : BitVec 7) (s : State) : Result := writes 4 d (shaBy (s.x a) n.toNat) s
/-- The register amount is the whole of X(rb) (05 R84). -/
def execRot (d a b : Reg) (s : State) : Result := writes 4 d (rotBy (s.x a) (s.x b).toNat) s
def execRotImm (d a : Reg) (n : BitVec 7) (s : State) : Result := writes 4 d (rotBy (s.x a) n.toNat) s
def execMin (d a b : Reg) (s : State) : Result := writes 4 d (minS (s.x a) (s.x b)) s
def execMax (d a b : Reg) (s : State) : Result := writes 4 d (maxS (s.x a) (s.x b)) s
def execMinz (d a b : Reg) (s : State) : Result := writes 4 d (minU (s.x a) (s.x b)) s
def execMaxz (d a b : Reg) (s : State) : Result := writes 4 d (maxU (s.x a) (s.x b)) s
def execClz (d a : Reg) (s : State) : Result := writes 4 d (leadingZeros (s.x a)) s
def execCtz (d a : Reg) (s : State) : Result := writes 4 d (trailingZeros (s.x a)) s
def execPopc (d a : Reg) (s : State) : Result := writes 4 d (oneBits (s.x a)) s
def execMov (d a : Reg) (s : State) : Result := writes 4 d (s.x a) s

/-! ### Immediate forms (05 R85) and `lea` (R86) -/

def execAddi (d a : Reg) (i : BitVec 17) (s : State) : Result := writes 4 d (s.x a + immS i) s
def execAddiExt (d a : Reg) (i : BitVec 45) (s : State) : Result := writes 8 d (s.x a + immS i) s
def execAndi (d a : Reg) (i : BitVec 17) (s : State) : Result := writes 4 d (s.x a &&& immZ i) s
def execAndiExt (d a : Reg) (i : BitVec 45) (s : State) : Result := writes 8 d (s.x a &&& immZ i) s
def execOri (d a : Reg) (i : BitVec 17) (s : State) : Result := writes 4 d (s.x a ||| immZ i) s
def execOriExt (d a : Reg) (i : BitVec 45) (s : State) : Result := writes 8 d (s.x a ||| immZ i) s
def execXori (d a : Reg) (i : BitVec 17) (s : State) : Result := writes 4 d (s.x a ^^^ immZ i) s
def execXoriExt (d a : Reg) (i : BitVec 45) (s : State) : Result := writes 8 d (s.x a ^^^ immZ i) s
def execMovi (d : Reg) (i : BitVec 17) (s : State) : Result := writes 4 d (immS i) s
def execMoviExt (d : Reg) (i : BitVec 45) (s : State) : Result := writes 8 d (immS i) s
def execLea (d a : Reg) (o : BitVec 12) (s : State) : Result := writes 4 d (s.ea a o) s
def execLeaExt (d a : Reg) (o : BitVec 40) (s : State) : Result := writes 8 d (s.ea a o) s

/-! ### Bit fields (05 R87) -/

/-- The width of a field after its cut at bit 63. -/
def cutWidth (off wid : Nat) : Nat := if off < 64 then min wid (64 - off) else 0

/-- X<off+n−1 : off>. -/
def fieldOf (v : Word) (off n : Nat) : Nat := v.toNat / 2 ^ off % 2 ^ n

def execBfx (d a : Reg) (off wid : BitVec 7) (s : State) : Result :=
  let n := cutWidth off.toNat wid.toNat
  writes 4 d (if n = 0 then 0 else BitVec.ofNat 64 (fieldOf (s.x a) off.toNat n)) s

def execBfxs (d a : Reg) (off wid : BitVec 7) (s : State) : Result :=
  let n := cutWidth off.toNat wid.toNat
  writes 4 d (if n = 0 then 0 else (BitVec.ofNat n (fieldOf (s.x a) off.toNat n)).signExtend 64) s

def execBfi (d a : Reg) (off wid : BitVec 7) (s : State) : Result :=
  let n := cutWidth off.toNat wid.toNat
  let mask := BitVec.ofNat 64 ((2 ^ n - 1) * 2 ^ off.toNat)
  if n = 0 then .next (s.pass 4)
  else writes 4 d ((s.x d &&& ~~~mask) ||| BitVec.ofNat 64 (fieldOf (s.x a) 0 n * 2 ^ off.toNat)) s

/-! ### Compares (03 R61 R62, 05 R88) -/

def execCmp (c : Cond) (a b : Reg) (skip : BitVec 2) (s : State) : Result := .next (compare (condHolds c (s.x a) (s.x b)) skip 4 s)
def execCmpi (c : Cond) (a : Reg) (skip : BitVec 2) (i : BitVec 12) (s : State) : Result := .next (compare (condHolds c (s.x a) (immS i)) skip 4 s)
def execCmpiExt (c : Cond) (a : Reg) (skip : BitVec 2) (i : BitVec 40) (s : State) : Result := .next (compare (condHolds c (s.x a) (immS i)) skip 8 s)

/-- t = 0 for `eq`, t ≠ 0 for `ne`. -/
def tests (ne : Bool) (t : Word) : Bool := if ne then t != 0 else t == 0
def execTst (ne : Bool) (a b : Reg) (skip : BitVec 2) (s : State) : Result := .next (compare (tests ne (s.x a &&& s.x b)) skip 4 s)
def execTstBit (ne : Bool) (a : Reg) (skip : BitVec 2) (n : BitVec 6) (s : State) : Result :=
  .next (compare (tests ne (s.x a &&& BitVec.ofNat 64 (2 ^ n.toNat))) skip 4 s)

/-! ### First words that are no instruction (03 R58 R59 R60) -/

def execIllegalInstruction (s : State) : Result := finish s (fail .illegal)
def execMislanded (s : State) : Result := finish s (fail .mislanded)

end Sys2Proof.Machine
end

