-- ==== Sys2Proof/Machine/Outside.lean ====
section
/-!
DEFINITION. What hosts and peers do to the module from outside (16 R290 R292, 18 R321 R323 R324 R326).
-/

namespace Sys2Proof.Machine

/-- A refused write of a host port, counted (18 R324 R331). -/
def countRefused (port : Nat) (s : State) : State :=
  count 0 15 1 { s with refusedW := Tbl.set s.refusedW port ((Tbl.getD s.refusedW port 0 + 1) % 2 ^ 64) }

/-- A refused access of a peer, counted at its span port (16 R292). -/
def countPeer (span : Nat) (s : State) : State :=
  { s with refusedW := Tbl.set s.refusedW (16 + span) ((Tbl.getD s.refusedW (16 + span) 0 + 1) % 2 ^ 64) }

/-! ### Command packets (18 R324 R326) -/

/-- Every packet that the owner's port writes to a doorbell counts (16 R289). -/
def heard (src : Source) (s : State) : State :=
  if isOwner s src then { s with owner := { s.owner with lastPacket := s.wall } } else s

/-- A packet reaches a queue of 64: a full one earns BUSY; a write of another size is discarded and counted. -/
def submit (src : Source) (q : Nat) (bytes : List Byte) (s : State) : State :=
  if bytes.length ≠ 256 then (match src with | .host p => countRefused p s | .peer sp => countPeer sp s)
  else
    let p : Packet := { src := src, bytes := bytes }
    let s := heard src s
    if 64 ≤ (s.cmdq q).length then refuse q p stBUSY s else { s with cmdqs := Tbl.set s.cmdqs q (s.cmdq q ++ [p]) }

def execCommandPacket (src : Source) (q : Nat) (bytes : List Byte) (s : State) : Result := .next (submit src q bytes s)

/-! ### Host accesses (16 R290, 18 R321 R323) -/

/-- Whether an access from outside lies in the vault's banks that are no CACHE banks (08 R148). -/
def vaultReaches (s : State) (pa n : Nat) : Bool := pa + n ≤ vaultBase + 2 ^ 35 && roleOf s pa != 0 && roleOf s (pa + n - 1) != 0

/-- Whether an access touches a bank that is changing its role, which keeps it waiting (08 R148): its step does nothing until then. -/
def bankBusy (s : State) (pa n : Nat) : Bool := isVault pa && (roleChanging s pa || roleChanging s (pa + n - 1))

/-- What a host port reaches: HBM in its BAR2 window, control space through BAR0, the vault; BAR0 alone with no firmware (18 R327). -/
def hostReaches (s : State) (port pa n : Nat) : Bool :=
  match regionOf pa with
  | .control => pa % 2 ^ 48 + n ≤ 2 ^ 26
  | .hbm => s.power != .noFirmware && Tbl.getD s.bar2 port 0 ≤ pa && pa + n ≤ Tbl.getD s.bar2 port 0 + 2 ^ 36 && pa + n ≤ hbmTop
  | .vault => s.power != .noFirmware && vaultReaches s pa n
  | _ => false

/-- The longest write and the longest read request of a host port (18 R321). -/
def maxPayload : Nat := 512
def maxRead : Nat := 4096

/-- The doorbell aperture that an address of control space lies in: the queue and the offset. -/
def doorbell (pa : Nat) : Option (Nat × Nat) :=
  let o := pa % 2 ^ 48
  if regionOf pa = .control ∧ 0x2000000 ≤ o ∧ o < 0x2040000 then some ((o - 0x2000000) / 4096, o % 4096) else none

/-! The debug window (17 R307): while a quad is halted for a net, the owner reads and writes the records of the net's berths there. The spec gives
the records' layout (R300) and no address; the model lays the upper 16 MiB of BAR0 to it, 64 KiB to each of up to 256 halted quads, by their numbers,
and 1,024 bytes to each berth (log entry 59). -/

/-- Inserts a number into an ascending list without repeats. -/
def insertNat (x : Nat) : List Nat → List Nat
  | [] => [x]
  | y :: r => if x < y then x :: y :: r else if x = y then y :: r else y :: insertNat x r

/-- The quads that are halted for some net, in ascending order. -/
def haltedQuads (s : State) : List Nat := ((s.netqs.filter (·.2.halted)).map (fun e => e.1 % 2 ^ 18)).foldr insertNat []

/-- The berth and the offset in its record that an access to the debug window names. -/
def debugPlace (s : State) (pa n : Nat) : Option (Nat × Nat) :=
  let o := pa % 2 ^ 48
  if regionOf pa = .control ∧ 0x3000000 ≤ o ∧ o < 0x4000000 ∧ o % 1024 + n ≤ 640 then
    ((haltedQuads s)[(o - 0x3000000) / 2 ^ 16]?).map (fun q => (64 * q + o / 1024 % 64, o % 1024))
  else none

/-- Whether a berth holds a thread of a net that is halted on its quad. -/
def debugOpen (s : State) (b : Nat) : Bool := s.held b && haltedAt s (s.ctx b).net (quadOf b)

def debugRecord (s : State) (b : Nat) : List Byte := snapshot (s.ctx b) (s.ctx b).pc 0

/-- The touched set of a record (17 R300); `none` for a count that R300 does not give. -/
def touchedOf (w v : Nat) : Option Touched :=
  let n := bits w 63 60
  if n = 15 then some (.dies (BitVec.ofNat 16 w))
  else if 8 < n then none
  else some (.slices (((List.range 4).map (fun i => bits w (12 * i + 11) (12 * i)) ++ (List.range 4).map (fun i => bits v (12 * i + 11) (12 * i))).take n))

/-- A berth's thread with everything that its record holds but the coin, which nothing but the events of R254 moves, and with no lower program time,
    which never decreases (09 R164); `none` for a tag that R78, or a touched set that R300, does not give. -/
def recordCtx (c : Ctx) (l : List Byte) : Option Ctx :=
  match reloadCtx c l, touchedOf (dbl l 480) (dbl l 488) with
  | some c, some t =>
    let w := dbl l 472
    let broken := bits w 44 44 == 1
    some { c with
      desc := if dbl l 448 = c.pc.toNat then c.desc else none
      pc := BitVec.ofNat 56 (dbl l 448 / 4 * 4), pts := max c.pts (dbl l 464), net := bits w 63 52, cls := BitVec.ofNat 2 (bits w 51 50)
      broken := broken, brokenVec := broken && c.brokenVec, touched := t
      range := if bits w 43 43 = 1 then some (BitVec.ofNat 64 (dbl l 496), BitVec.ofNat 64 (dbl l 504)) else none }
  | _, _ => none

/-- A write to a record: the berth takes what the record then holds, or stays as it was. -/
def debugWrite (b off : Nat) (bytes : List Byte) (s : State) : State :=
  let l := (debugRecord s b).take off ++ bytes ++ (debugRecord s b).drop (off + bytes.length)
  match recordCtx (s.ctx b) l with
  | none => s
  | some c => s.setCtx b c

/-- What an owner's access to the debug window meets, where one is open. -/
def debugAccess (port pa n : Nat) (s : State) : Option (Nat × Nat) :=
  match debugPlace s pa n with
  | some (b, off) => if isOwner s (.host port) && debugOpen s b then some (b, off) else none
  | none => none

/-- A host's posted write: a packet where it meets a doorbell; the owner's to memory is an arrival write; a non-owner's is discarded and
    counted. No host writes the registers of control space, but for the owner the debug window. A host port sends no longer write than R321 gives. -/
def hostWrite (port pa : Nat) (bytes : List Byte) (s : State) : State :=
  match doorbell pa with
  | some (q, off) => if off = 0 then submit (.host port) q bytes s else countRefused port s
  | none =>
    if !isOwner s (.host port) then countRefused port s
    else if maxPayload < bytes.length then s
    else
      match debugAccess port pa bytes.length s with
      | some (b, off) => debugWrite b off bytes s
      | none =>
        if regionOf pa != .control && hostReaches s port pa bytes.length && !bankBusy s pa bytes.length then arrWrites s pa bytes bytes.length else s

def execHostWrite (port pa : Nat) (bytes : List Byte) (s : State) : Result := .next (hostWrite port pa bytes s)

/-- A read completes with its data, for every host master; a port sends no longer request than R321 gives. -/
def execHostRead (port pa n : Nat) (s : State) : Result :=
  let done := fun (s : State) (data : List Byte) => { s with replies := s.replies ++ [({ src := .host port, addr := pa, status := 0, tagg := 0, net := 0, seq := 0, vector := none, data := data } : Reply)] }
  .next (match debugAccess port pa n s with
    | some (b, off) => done s (((debugRecord s b).drop off).take n)
    | none => if n ≤ maxRead && hostReaches s port pa n && !bankBusy s pa n then done (parted pa n s) (outerRead s pa n) else s)

/-! ### Peer accesses (16 R292 R293) -/

/-- Whether a peer's access lies wholly within the window of its entry, under the right it needs, and outside the reserved region (16 R292 R293). -/
def peerWindow (s : State) (span : Nat) (write : Bool) (pa n : Nat) : Bool :=
  match peerId s span with
  | none => false
  | some id =>
    match aclOf s id with
    | none => false
    | some e =>
      let base := bits e.w2.toNat 51 26 * 2 ^ 26
      let right := if write then bits e.w0.toNat 60 60 == 1 else bits e.w0.toNat 59 59 == 1
      right && base ≤ pa && pa + n ≤ base + bits e.w3.toNat 19 0 * 2 ^ 26 && (pa + n ≤ s.resBase || s.resBase + s.resSize ≤ pa)
        && (match regionOf pa with | .hbm => decide (pa + n ≤ hbmTop) | .vault => bankBusy s pa n || vaultReaches s pa n | _ => false)

/-- Whether a verified peer reads what is served to every master (16 R285 R287, log entry 95): registers of control space (18 R323), or the journal (17
    R310). -/
def peerServed (s : State) (span : Nat) (write : Bool) (pa n : Nat) : Bool :=
  !write && (peerId s span).isSome
    && ((regionOf pa == .control && decide (pa % 2 ^ 48 + n ≤ 2 ^ 26)) || (decide (journalPa s 0 ≤ pa) && decide (pa + n ≤ journalPa s 0 + 64 * 2 ^ 20)))

/-- A peer's access: of memory within its window, which a bank that is changing its role keeps waiting, or a read that every master is served; any other
    is refused and counted, and so is every one while no firmware runs (18 R327). -/
def peerAccess (span : Nat) (write : Bool) (pa n : Nat) (bytes : List Byte) (s : State) : State :=
  let len := if write then bytes.length else n
  let served := peerServed s span write pa n
  if s.power ≠ .on ∨ !served && !peerWindow s span write pa len then countPeer span s
  else if !served && bankBusy s pa len then s
  else if write then arrWrites s pa bytes bytes.length
  else { parted pa n s with replies := s.replies ++ [({ src := .peer span, addr := pa, status := 0, tagg := 0, net := 0, seq := 0, vector := none, data := outerRead s pa n } : Reply)] }

def execPeerMemoryAccess (span : Nat) (write : Bool) (pa n : Nat) (bytes : List Byte) (s : State) : Result := .next (peerAccess span write pa n bytes s)

end Sys2Proof.Machine
end

