-- ==== Sys2Proof/Machine/Module.lean ====
section
/-!
DEFINITION. Steps of the module as a whole: ownership limits, links, resets, errors, heat and power (16 R289, 17 R309 R311, 18 R327 to R330).
-/

namespace Sys2Proof.Machine

/-! ### Ownership and links (16 R289, 18 R321 R322) -/

/-- A change of the register that no command causes, with its entry (17 R310): by the bursar, or by hardware. -/
def ownEvent (kind : Nat) (st : OwnState) (port : Nat) (s : State) : State := journal { kind := kind, port := s.owner.port } (own st port 0 s)

def execHandoverTimeout (s : State) : Result :=
  .next (if reached s (handoverEnd s) then ownEvent 2 .owned s.owner.port s else s)

def execOwnerTimeout (s : State) : Result :=
  .next (if reached s (ownerEnd s) then ownEvent 2 .vacant 0 s else s)

/-- The named successor's link goes down: the handover is cancelled. -/
def execSuccessorLinkDown (s : State) : Result :=
  .next (if s.owner.st = .handover then ownEvent 3 .owned s.owner.port { s with hostMode := Tbl.set s.hostMode s.owner.succ .down } else s)

def execOwnerLinkDown (s : State) : Result :=
  .next (if s.owner.st ≠ .vacant then ownEvent 3 .vacant 0 { s with hostMode := Tbl.set s.hostMode s.owner.port .down } else s)

def execHostPortTraining (port : Nat) (cxl : Bool) (s : State) : Result :=
  .next { s with hostMode := Tbl.set s.hostMode port (if cxl then .cxl else .pcie) }

/-- A span link attests once firmware runs (18 R327). -/
def execSpanLinkAttestation (span : Nat) (peer : BitVec 16) (s : State) : Result :=
  .next (if s.power = .on then { s with span := Tbl.set s.span span peer } else s)

/-! ### Resets (17 R311, 18 R327) -/

/-- Bytes of HBM alone, which a cold reset leaves as they are (log entry 14). -/
def hbmOnly (m : List Host.Cell) : List Host.Cell := m.filter (fun c => c.1 < hbmTop)

/-- The two flash copies change places, the one that boots being the active one, and the rollback counter rises to its version (18 R327 R328). -/
def swapFlash (d : BitVec 384) (v : Nat) (s : State) : State :=
  { s with fwActive := d, fwVersion := v, fwInactive := some (s.fwActive, s.fwVersion), fwPending := false, rollback := max s.rollback v }

/-- Which flash copy boots (18 R327): the active one, else the second one, each where its signatures verify, which outside causes decide (log entry 3),
    and where its version is at least the rollback counter; else none. -/
def bootChoice (s : State) : Power × State :=
  let (c, s) := choice s 4
  if c % 2 = 0 ∧ s.rollback ≤ s.fwVersion then (.on, s)
  else
    match s.fwInactive with
    | some (d, v) => if c < 2 ∧ s.rollback ≤ v then (.on, swapFlash d v s) else (.noFirmware, s)
    | none => (.noFirmware, s)

/-- A cold reset (18 R327): what fuses, flash and HBM keep stays, with the journal in HBM and its numbers; all else is as at reset. -/
def coldReset (s : State) : State :=
  let (p, s) := bootChoice s
  { (State.reset : State) with
    agenda := s.agenda, turn := s.turn, tape := s.tape, nfree := s.nfree, nextTid := s.nextTid, linkBudget := s.linkBudget
    wallBase := s.wall, mem := hbmOnly s.mem, poison := s.poison.filter (fun g => 16 * g < hbmTop)
    fused := s.fused, journal := s.journal, jseq := s.jseq, lastCmd := s.lastCmd, replies := s.replies, hostMode := s.hostMode
    fwActive := s.fwActive, fwInactive := s.fwInactive, fwPending := s.fwPending && p == .on, fwVersion := s.fwVersion, rollback := s.rollback, power := p }

def execColdReset (s : State) : Result := .next (coldReset s)

/-- Closes by force every net that is bound (17 R311, 14 R258). -/
def closeAll (s : State) : State := ((s.nets.filter (fun e => e.2.st != .free)).map (·.1)).foldl (fun s n => forceClose n s) s

/-- A newly loaded image runs from the next warm reset (18 R328), and the copy that it replaces stays as the second one. A module that no copy has
    booted (18 R327) boots none here. -/
def bootNew (s : State) : State :=
  match s.fwPending, s.fwInactive with
  | true, some (d, v) => if s.power = .on then swapFlash d v s else s
  | _, _ => s

/-- A warm reset empties the waiter tables, whose threads are gone. -/
def Mint.forget (m : Mint) : Mint := { m with waiters := [], due := [] }

/-- The launches that a warm reset drops before they are bound: each is a change of a net's state (17 R310). -/
def dropLaunches (s : State) : State :=
  s.launches.foldl (fun s l => journal { status := 7, net := l.net, fromSt := 1, toSt := 6, kind := 2 } s) s

/-- A warm reset (17 R311): every deque, queue, berth and message in flight goes, and the expect counters are zero (12 R213); time counts from zero
    again. -/
def warmReset (s : State) : State :=
  let s := bootNew (dropLaunches (closeAll s))
  { s with
    wallBase := s.wall, clock := 0, dieLost := [], served := [], lastIssue := []
    stores := [], lines := [], copies := [], tlb := [], icache := [], waits := []
    floors := [], deques := [], spills := [], rr := [], stealTurn := [], stealRuns := [], arrivals := [], arrSpill := [], parkedRec := []
    berths := [], residents := [], evicted := [], chans := [], counters := [], bars := [], mgangs := [], vgangs := [], assays := []
    mints := s.mints.map (fun e => (e.1, e.2.forget)), poolDry := false
    launches := [], msgs := [], suspense := [], cmdqs := [], polled := [] }

def execWarmReset (s : State) : Result := .next (warmReset s)

/-! ### Errors (17 R309, 14 R258) -/

def execCorrectedError (die : Nat) (s : State) : Result := .next (count die 12 1 s)

/-- The die of a byte of memory: of its purse, or of its home. -/
def dieAt (s : State) (key : Nat) : Nat := if isPurse key then dieOf (keyQuad key) else homeOf s key / 256

def addPoison (gs : List Nat) (s : State) : State := { s with poison := gs ++ s.poison.filter (fun g => !gs.contains g) }

/-- The leader of the vector gang that a berth is a member of. -/
def gangLeader (s : State) (b : Nat) : Option Nat := (s.vgangs.find? (fun g => g.2.members.any (fun m => m.2.1 == b))).map (·.1)

/-- A thread with one more register error to report; one that is struck again meanwhile is reported once. -/
def struck (r : Nat) (c : Ctx) : Ctx := { c with regErr := c.regErr.filter (· != r) ++ [r] }

/-- An error in a register of a berth's bank shows at the next issue of the thread that it belongs to: the berth's, one resident in its bank, or the
    leader of the gang that the berth is reserved for, of which it holds vector registers alone. -/
def regError (b r : Nat) (s : State) : State :=
  if s.held b then s.setCtx b (struck r (s.ctx b))
  else
    match gangLeader s b, Tbl.get? s.residents b with
    | some l, _ => if 16 ≤ r then s.setCtx l (struck (32 + r) (s.ctx l)) else s
    | none, some c => { s with residents := Tbl.set s.residents b (struck r c) }
    | none, none => s

/-! A coin field whose copies disagree (14 R258): with a copy that survives, the unit that it belonged to becomes a fault redex that carries the coin;
else the coin is lost, the quad journals it, and the mint is closed by force. -/

/-- The `%coin` of a berth. -/
def coinError (b : Nat) (survives : Bool) (s : State) : State :=
  if !s.held b then s
  else
    let c := s.ctx b
    if survives then coinFault c.net (quadOf b) c.grains c.cls c.pts (freeBerth b (publishAt b s))
    else coinLost c.net (s.setCtx b { c with coin := 0, lent := 0 })

/-- A saved context's coin: its thread is gone. -/
def savedError (core : Nat) (survives : Bool) (c : Ctx) (s : State) : State :=
  coinGone c.net (core / 4) c.grains c.cls c.pts survives (leaveSaved c s)

/-- The coin of the i-th saved context of a core: resident ones by berth, then the evicted. -/
def savedCoinError (core i : Nat) (survives : Bool) (s : State) : State :=
  let rs := s.residents.filter (fun e => coreId e.1 == core)
  match rs[i]?, (s.evict core)[i - rs.length]? with
  | some (b, c), _ => savedError core survives c { s with residents := Tbl.del s.residents b }
  | none, some c => savedError core survives c (s.setEvict core ((s.evict core).eraseIdx (i - rs.length)))
  | none, none => s

/-- The coin of a record of a deque. -/
def recCoinError (q i : Nat) (survives : Bool) (s : State) : State :=
  match (s.deque q)[i]? with
  | some r => coinGone r.net q r.coin r.cls r.time survives (s.setDeque q ((s.deque q).eraseIdx i))
  | none => s

/-- The coin of a context of an arrival queue. -/
def ctxCoinError (core i : Nat) (survives : Bool) (s : State) : State :=
  match (s.arrQ core)[i]? with
  | some c => coinGone c.net (core / 4) c.coin c.cls c.pts survives (s.setArrQ core ((s.arrQ core).eraseIdx i))
  | none => s

/-- Changes a quad's queued command of a number, in each queue that it stands in. -/
def mapCmd (q seq : Nat) (f : Cmd → Cmd) (s : State) : State :=
  { s with chans := s.chans.map (fun e => if e.1 / 8 = q then (e.1, { e.2 with queue := e.2.queue.map (fun c => if c.seq = seq then f c else c) }) else e) }

/-- The coin of a queued engine command, which a fence has in several queues: the command ends with cause POISON, as one that met an engine fault does
    (12 R219), and carries its coin. -/
def cmdCoinError (q ch i : Nat) (survives : Bool) (s : State) : State :=
  match (s.chan q ch).queue[i]? with
  | some c =>
    if survives then mapCmd q c.seq (fun c => { c with failed := some .poison }) s
    else coinLost c.net (mapCmd q c.seq (fun c => { c with coin := 0 }) s)
  | none => s

/-- The coin of a message of the near net: of stolen records, the j-th one's. -/
def msgCoinError (i j : Nat) (survives : Bool) (s : State) : State :=
  match s.msgs[i]? with
  | some m =>
    let t := { s with msgs := s.msgs.eraseIdx i }
    (match m.body with
     | .redex r w => coinGone r.net m.dst r.coin r.cls r.time survives (wakeSender w t)
     | .context c w => coinGone c.net m.dst c.coin c.cls c.pts survives (wakeSender w t)
     | .steal rs =>
       (match rs[j]? with
        | some r =>
          let rest := rs.eraseIdx j
          coinGone r.net m.dst r.coin r.cls r.time survives (if rest = [] then t else { s with msgs := s.msgs.set i { m with body := .steal rest } })
        | none => s)
     | _ => s)
  | none => s

def uncorrectable (x : ErrSite) (s : State) : State :=
  let at' := fun (die : Nat) => count die 13 1
  match x with
  | .granule key =>
    if isPurse key then at' (dieAt s key) (addPoison [granule key] s) else at' (dieAt s key) (addPoison [granule (key / 32 * 32), granule (key / 32 * 32) + 1] s)
  | .copy q line => at' (dieOf q) { s with copies := s.copies.filter (fun c => !(c.line == line && !c.guest && c.holder == q)) }
  | .icache q => at' (dieOf q) { s with icache := s.icache.filter (fun e => e.1 / 2 ^ 52 != q) }
  | .tlb q => at' (dieOf q) { s with tlb := s.tlb.filter (fun t => !(!t.cluster && t.holder == q)) }
  | .guest sl line => at' (sl / 256) { s with copies := s.copies.filter (fun c => !(c.line == line && c.guest && c.holder == sl)) }
  | .ctlb c => at' (c / 256) { s with tlb := s.tlb.filter (fun t => !(t.cluster && t.holder == c)) }
  | .xreg b r => at' (dieOf (quadOf b)) (regError b r s)
  | .vreg b r => at' (dieOf (quadOf b)) (regError b (16 + r) s)
  | .coin b k => at' (dieOf (quadOf b)) (coinError b k s)
  | .savedCoin core i k => at' (dieOf (core / 4)) (savedCoinError core i k s)
  | .recCoin q i k => at' (dieOf q) (recCoinError q i k s)
  | .ctxCoin core i k => at' (dieOf (core / 4)) (ctxCoinError core i k s)
  | .cmdCoin q ch i k => at' (dieOf q) (cmdCoinError q ch i k s)
  | .msgCoin i j k => at' (dieOf ((s.msgs[i]?.map (·.dst)).getD 0)) (msgCoinError i j k s)
  | .bursar => warmReset (journal { kind := 2 } s)

def execUncorrectableError (site : ErrSite) (s : State) : Result := .next (uncorrectable site s)

/-! ### Heat, power and the governor (01 R12, 18 R329 R330) -/

def execThermalThrottle (die : Nat) (s : State) : Result :=
  .next (if s.throttled.contains die then s else journal { kind := 3 } { s with throttled := die :: s.throttled })

def execThrottleEnd (die : Nat) (s : State) : Result :=
  .next (if s.throttled.contains die then journal { kind := 3 } { s with throttled := s.throttled.filter (· != die) } else s)

def execThermalTrip (_die : Nat) (s : State) : Result := .next { journal { kind := 3 } s with power := .off }

/-- The bursar lowers one die's point under the cap, which temperatures it alone knows decide. -/
def execIslandPointLowering (die : Nat) (s : State) : Result :=
  .next (if pointOf s die < 3 then { s with capped := Tbl.set s.capped die (pointOf s die + 1) } else s)

/-- The governor holds the instruction chosen in a core's present cycle (13 R247). -/
def execGovernorBubble (core : Nat) (s : State) : Result := .next (slotOf s core true).2

end Sys2Proof.Machine
end

