-- ==== Sys2Proof/Machine/Dispatch.lean ====
section
/-!
DEFINITION. What each instruction and each step of the module does: one arm for each constructor of `Instr`.
-/

namespace Sys2Proof.Machine

/-- The meaning of an instruction or step. -/
def exec (i : Instr) (s : State) : Host.Outcome State Fault Refusal :=
  match i with
  | .add d a b => Sys2Proof.Machine.execAdd d a b s
  | .sub d a b => Sys2Proof.Machine.execSub d a b s
  | .mul d a b => Sys2Proof.Machine.execMul d a b s
  | .mulh d a b => Sys2Proof.Machine.execMulh d a b s
  | .mulhz d a b => Sys2Proof.Machine.execMulhz d a b s
  | .div d a b => Sys2Proof.Machine.execDiv d a b s
  | .divz d a b => Sys2Proof.Machine.execDivz d a b s
  | .rem d a b => Sys2Proof.Machine.execRem d a b s
  | .remz d a b => Sys2Proof.Machine.execRemz d a b s
  | .and d a b => Sys2Proof.Machine.execAnd d a b s
  | .or d a b => Sys2Proof.Machine.execOr d a b s
  | .xor d a b => Sys2Proof.Machine.execXor d a b s
  | .andn d a b => Sys2Proof.Machine.execAndn d a b s
  | .shl d a b => Sys2Proof.Machine.execShl d a b s
  | .shlImm d a n => Sys2Proof.Machine.execShlImm d a n s
  | .shr d a b => Sys2Proof.Machine.execShr d a b s
  | .shrImm d a n => Sys2Proof.Machine.execShrImm d a n s
  | .sha d a b => Sys2Proof.Machine.execSha d a b s
  | .shaImm d a n => Sys2Proof.Machine.execShaImm d a n s
  | .rot d a b => Sys2Proof.Machine.execRot d a b s
  | .rotImm d a n => Sys2Proof.Machine.execRotImm d a n s
  | .min d a b => Sys2Proof.Machine.execMin d a b s
  | .max d a b => Sys2Proof.Machine.execMax d a b s
  | .minz d a b => Sys2Proof.Machine.execMinz d a b s
  | .maxz d a b => Sys2Proof.Machine.execMaxz d a b s
  | .clz d a => Sys2Proof.Machine.execClz d a s
  | .ctz d a => Sys2Proof.Machine.execCtz d a s
  | .popc d a => Sys2Proof.Machine.execPopc d a s
  | .mov d a => Sys2Proof.Machine.execMov d a s
  | .addi d a im => Sys2Proof.Machine.execAddi d a im s
  | .addiExt d a im => Sys2Proof.Machine.execAddiExt d a im s
  | .andi d a im => Sys2Proof.Machine.execAndi d a im s
  | .andiExt d a im => Sys2Proof.Machine.execAndiExt d a im s
  | .ori d a im => Sys2Proof.Machine.execOri d a im s
  | .oriExt d a im => Sys2Proof.Machine.execOriExt d a im s
  | .xori d a im => Sys2Proof.Machine.execXori d a im s
  | .xoriExt d a im => Sys2Proof.Machine.execXoriExt d a im s
  | .movi d im => Sys2Proof.Machine.execMovi d im s
  | .moviExt d im => Sys2Proof.Machine.execMoviExt d im s
  | .lea d a o => Sys2Proof.Machine.execLea d a o s
  | .leaExt d a o => Sys2Proof.Machine.execLeaExt d a o s
  | .bfx d a off wid => Sys2Proof.Machine.execBfx d a off wid s
  | .bfxs d a off wid => Sys2Proof.Machine.execBfxs d a off wid s
  | .bfi d a off wid => Sys2Proof.Machine.execBfi d a off wid s
  | .cmp c a b skip => Sys2Proof.Machine.execCmp c a b skip s
  | .cmpi c a skip im => Sys2Proof.Machine.execCmpi c a skip im s
  | .cmpiExt c a skip im => Sys2Proof.Machine.execCmpiExt c a skip im s
  | .tst ne a b skip => Sys2Proof.Machine.execTst ne a b skip s
  | .tstBit ne a skip n => Sys2Proof.Machine.execTstBit ne a skip n s
  | .vadd d a b r => Sys2Proof.Machine.execVadd d a b r s
  | .vsub d a b r => Sys2Proof.Machine.execVsub d a b r s
  | .vmul d a b r => Sys2Proof.Machine.execVmul d a b r s
  | .vfma d a b c r => Sys2Proof.Machine.execVfma d a b c r s
  | .vfms d a b c r => Sys2Proof.Machine.execVfms d a b c r s
  | .vmin d a b r z => Sys2Proof.Machine.execVmin d a b r z s
  | .vmax d a b r z => Sys2Proof.Machine.execVmax d a b r z s
  | .vabs d a r => Sys2Proof.Machine.execVabs d a r s
  | .vneg d a r => Sys2Proof.Machine.execVneg d a r s
  | .vand d a b => Sys2Proof.Machine.execVand d a b s
  | .vor d a b => Sys2Proof.Machine.execVor d a b s
  | .vxor d a b => Sys2Proof.Machine.execVxor d a b s
  | .vshl d a b => Sys2Proof.Machine.execVshl d a b s
  | .vshr d a b => Sys2Proof.Machine.execVshr d a b s
  | .vsha d a b => Sys2Proof.Machine.execVsha d a b s
  | .vcmp d a b k => Sys2Proof.Machine.execVcmp d a b k s
  | .vsel d a b c => Sys2Proof.Machine.execVsel d a b c s
  | .vperm d a b => Sys2Proof.Machine.execVperm d a b s
  | .vbcast d x t => Sys2Proof.Machine.execVbcast d x t s
  | .vins d a x k => Sys2Proof.Machine.execVins d a x k s
  | .vext a x k => Sys2Proof.Machine.execVext a x k s
  | .vred d a r z o => Sys2Proof.Machine.execVred d a r z o s
  | .vscan d a r z o => Sys2Proof.Machine.execVscan d a r z o s
  | .vcvt d a z p r t => Sys2Proof.Machine.execVcvt d a z p r t s
  | .vdot d a b r => Sys2Proof.Machine.execVdot d a b r s
  | .vrcp d a r => Sys2Proof.Machine.execVrcp d a r s
  | .vrsq d a r => Sys2Proof.Machine.execVrsq d a r s
  | .vexp2 d a r => Sys2Proof.Machine.execVexp2 d a r s
  | .vlog2 d a r => Sys2Proof.Machine.execVlog2 d a r s
  | .vtanh d a r => Sys2Proof.Machine.execVtanh d a r s
  | .vtag d a t => Sys2Proof.Machine.execVtag d a t s
  | .vscaleWrite d a x => Sys2Proof.Machine.execVscaleWrite d a x s
  | .vscaleRead a x => Sys2Proof.Machine.execVscaleRead a x s
  | .vld2 d a f o => Sys2Proof.Machine.execVld2 d a f o s
  | .vld2Ext d a f o => Sys2Proof.Machine.execVld2Ext d a f o s
  | .ldv d a f o => Sys2Proof.Machine.execLdv d a f o s
  | .ldvExt d a f o => Sys2Proof.Machine.execLdvExt d a f o s
  | .stv d a o => Sys2Proof.Machine.execStv d a o s
  | .stvExt d a o => Sys2Proof.Machine.execStvExt d a o s
  | .ld d a z g o => Sys2Proof.Machine.execLd d a z g o s
  | .ldExt d a z g o => Sys2Proof.Machine.execLdExt d a z g o s
  | .ldc d a z g o => Sys2Proof.Machine.execLdc d a z g o s
  | .ldcExt d a z g o => Sys2Proof.Machine.execLdcExt d a z g o s
  | .ldf d a z g o => Sys2Proof.Machine.execLdf d a z g o s
  | .ldfExt d a z g o => Sys2Proof.Machine.execLdfExt d a z g o s
  | .feq d a o => Sys2Proof.Machine.execFeq d a o s
  | .feqExt d a o => Sys2Proof.Machine.execFeqExt d a o s
  | .st d a z o => Sys2Proof.Machine.execSt d a z o s
  | .stExt d a z o => Sys2Proof.Machine.execStExt d a z o s
  | .stf d a z o => Sys2Proof.Machine.execStf d a z o s
  | .stfExt d a z o => Sys2Proof.Machine.execStfExt d a z o s
  | .fez a o => Sys2Proof.Machine.execFez a o s
  | .fezExt a o => Sys2Proof.Machine.execFezExt a o s
  | .pref a v o => Sys2Proof.Machine.execPref a v o s
  | .prefExt a v o => Sys2Proof.Machine.execPrefExt a v o s
  | .aadd d a b dbl => Sys2Proof.Machine.execAadd d a b dbl s
  | .aand d a b dbl => Sys2Proof.Machine.execAand d a b dbl s
  | .aor d a b dbl => Sys2Proof.Machine.execAor d a b dbl s
  | .axor d a b dbl => Sys2Proof.Machine.execAxor d a b dbl s
  | .amin d a b dbl g => Sys2Proof.Machine.execAmin d a b dbl g s
  | .amax d a b dbl g => Sys2Proof.Machine.execAmax d a b dbl g s
  | .aswp d a b dbl => Sys2Proof.Machine.execAswp d a b dbl s
  | .acas d a b dbl => Sys2Proof.Machine.execAcas d a b dbl s
  | .link d a b aOld bOld => Sys2Proof.Machine.execLink d a b aOld bOld s
  | .grab d a h => Sys2Proof.Machine.execGrab d a h s
  | .fence sc o => Sys2Proof.Machine.execFence sc o s
  | .fenceb => Sys2Proof.Machine.execFenceb s
  | .gang d a => Sys2Proof.Machine.execGang d a s
  | .gangv d a => Sys2Proof.Machine.execGangv d a s
  | .disband => Sys2Proof.Machine.execDisband s
  | .tzero => Sys2Proof.Machine.execTzero s
  | .tload a b f => Sys2Proof.Machine.execTload a b f s
  | .tstore a b r f => Sys2Proof.Machine.execTstore a b r f s
  | .tshape a => Sys2Proof.Machine.execTshape a s
  | .tside a b => Sys2Proof.Machine.execTside a b s
  | .mma a b => Sys2Proof.Machine.execMma a b s
  | .assay d a => Sys2Proof.Machine.execAssay d a s
  | .astat d sel => Sys2Proof.Machine.execAstat d sel s
  | .mmas a b side => Sys2Proof.Machine.execMmas a b side s
  | .cpy d a ch => Sys2Proof.Machine.execCpy d a ch s
  | .gath a => Sys2Proof.Machine.execGath a s
  | .scat a => Sys2Proof.Machine.execScat a s
  | .qfence q => Sys2Proof.Machine.execQfence q s
  | .stage d => Sys2Proof.Machine.execStage d s
  | .waitm a ch => Sys2Proof.Machine.execWaitm a ch s
  | .expect a k => Sys2Proof.Machine.execExpect a k s
  | .waite d k => Sys2Proof.Machine.execWaite d k s
  | .b disp => Sys2Proof.Machine.execB disp s
  | .bExt disp => Sys2Proof.Machine.execBExt disp s
  | .bl disp => Sys2Proof.Machine.execBl disp s
  | .blExt disp => Sys2Proof.Machine.execBlExt disp s
  | .jr d a => Sys2Proof.Machine.execJr d a s
  | .ret => Sys2Proof.Machine.execRet s
  | .nalloc d a => Sys2Proof.Machine.execNalloc d a s
  | .nfree a => Sys2Proof.Machine.execNfree a s
  | .redex q a b range => Sys2Proof.Machine.execRedex q a b range s
  | .done => Sys2Proof.Machine.execDone s
  | .spawn a b => Sys2Proof.Machine.execSpawn a b s
  | .rnext d => Sys2Proof.Machine.execRnext d s
  | .rsplit d a => Sys2Proof.Machine.execRsplit d a s
  | .migr a => Sys2Proof.Machine.execMigr a s
  | .bar a => Sys2Proof.Machine.execBar a s
  | .red d a b => Sys2Proof.Machine.execRed d a b s
  | .qwait d => Sys2Proof.Machine.execQwait d s
  | .qwaitNet d a => Sys2Proof.Machine.execQwaitNet d a s
  | .cls n => Sys2Proof.Machine.execCls n s
  | .clsReg a => Sys2Proof.Machine.execClsReg a s
  | .yield => Sys2Proof.Machine.execYield s
  | .trap a cause => Sys2Proof.Machine.execTrap a cause s
  | .eret d a mode => Sys2Proof.Machine.execEret d a mode s
  | .tlbi n a b named => Sys2Proof.Machine.execTlbi n a b named s
  | .tlbiAll n named => Sys2Proof.Machine.execTlbiAll n named s
  | .save a => Sys2Proof.Machine.execSave a s
  | .rest a => Sys2Proof.Machine.execRest a s
  | .dbrk code => Sys2Proof.Machine.execDbrk code s
  | .srd d n => Sys2Proof.Machine.execSrd d n s
  | .swr d n => Sys2Proof.Machine.execSwr d n s
  | .mqRcv v => Sys2Proof.Machine.execMqRcv v s
  | .mqSnd v => Sys2Proof.Machine.execMqSnd v s
  | .illegalInstruction => Sys2Proof.Machine.execIllegalInstruction s
  | .mislanded => Sys2Proof.Machine.execMislanded s
  | .dispatch berth => Sys2Proof.Machine.execDispatch berth s
  | .admission berth => Sys2Proof.Machine.execAdmission berth s
  | .contextArrival msg => Sys2Proof.Machine.execContextArrival msg s
  | .arrivalSpillReadmission core => Sys2Proof.Machine.execArrivalSpillReadmission core s
  | .remoteRedex msg => Sys2Proof.Machine.execRemoteRedex msg s
  | .refill quad => Sys2Proof.Machine.execRefill quad s
  | .stealProbe thief victim net => Sys2Proof.Machine.execStealProbe thief victim net s
  | .stealReply msg => Sys2Proof.Machine.execStealReply msg s
  | .waitTableReissue berth => Sys2Proof.Machine.execWaitTableReissue berth s
  | .memoryReply berth => Sys2Proof.Machine.execMemoryReply berth s
  | .settle line => Sys2Proof.Machine.execSettle line s
  | .rehome berth => Sys2Proof.Machine.execRehome berth s
  | .pageWalk quad net va => Sys2Proof.Machine.execPageWalk quad net va s
  | .commandStart quad ch => Sys2Proof.Machine.execCommandStart quad ch s
  | .tellerCopy quad ch granules => Sys2Proof.Machine.execTellerCopy quad ch granules s
  | .replayAnswer quad ch retry => Sys2Proof.Machine.execReplayAnswer quad ch retry s
  | .gatherRow quad row => Sys2Proof.Machine.execGatherRow quad row s
  | .scatterRow quad row => Sys2Proof.Machine.execScatterRow quad row s
  | .engineCompletion quad ch => Sys2Proof.Machine.execEngineCompletion quad ch s
  | .operandsConsumed berth => Sys2Proof.Machine.execOperandsConsumed berth s
  | .mmaCompletion berth => Sys2Proof.Machine.execMmaCompletion berth s
  | .assayCompletion berth => Sys2Proof.Machine.execAssayCompletion berth s
  | .barrierSweep msg => Sys2Proof.Machine.execBarrierSweep msg s
  | .barrierRelease core net k => Sys2Proof.Machine.execBarrierRelease core net k s
  | .flitArrival msg => Sys2Proof.Machine.execFlitArrival msg s
  | .flitResend berth => Sys2Proof.Machine.execFlitResend berth s
  | .faultRedex berth => Sys2Proof.Machine.execFaultRedex berth s
  | .voidTrap berth => Sys2Proof.Machine.execVoidTrap berth s
  | .mintReturn msg => Sys2Proof.Machine.execMintReturn msg s
  | .mintBorrow berth => Sys2Proof.Machine.execMintBorrow berth s
  | .mintClose net state reason => Sys2Proof.Machine.execMintClose net state reason s
  | .qwaitWake net => Sys2Proof.Machine.execQwaitWake net s
  | .qwaitRetry berth => Sys2Proof.Machine.execQwaitRetry berth s
  | .deadline net => Sys2Proof.Machine.execDeadline net s
  | .bind entry ox oy pool cells => Sys2Proof.Machine.execBind entry ox oy pool cells s
  | .netCompletion net => Sys2Proof.Machine.execNetCompletion net s
  | .park net quad => Sys2Proof.Machine.execPark net quad s
  | .rebind net => Sys2Proof.Machine.execRebind net s
  | .bankRoleChange slice => Sys2Proof.Machine.execBankRoleChange slice s
  | .watchdogExpiry berth => Sys2Proof.Machine.execWatchdogExpiry berth s
  | .hostWrite port pa bytes => Sys2Proof.Machine.execHostWrite port pa bytes s
  | .hostRead port pa n => Sys2Proof.Machine.execHostRead port pa n s
  | .peerMemoryAccess span write pa n bytes => Sys2Proof.Machine.execPeerMemoryAccess span write pa n bytes s
  | .commandPacket src queue bytes => Sys2Proof.Machine.execCommandPacket src queue bytes s
  | .launch queue => Sys2Proof.Machine.execLaunch queue s
  | .abort queue => Sys2Proof.Machine.execAbort queue s
  | .halt queue => Sys2Proof.Machine.execHalt queue s
  | .resume queue => Sys2Proof.Machine.execResume queue s
  | .watchdog queue => Sys2Proof.Machine.execWatchdog queue s
  | .arm queue => Sys2Proof.Machine.execArm queue s
  | .claim queue => Sys2Proof.Machine.execClaim queue s
  | .handover queue => Sys2Proof.Machine.execHandover queue s
  | .accept queue => Sys2Proof.Machine.execAccept queue s
  | .release queue => Sys2Proof.Machine.execRelease queue s
  | .heartbeat queue => Sys2Proof.Machine.execHeartbeat queue s
  | .acl queue => Sys2Proof.Machine.execAcl queue s
  | .slicemap queue late => Sys2Proof.Machine.execSlicemap queue late s
  | .bankrole queue => Sys2Proof.Machine.execBankrole queue s
  | .island queue => Sys2Proof.Machine.execIsland queue s
  | .powercap queue => Sys2Proof.Machine.execPowercap queue s
  | .window queue => Sys2Proof.Machine.execWindow queue s
  | .fwload queue => Sys2Proof.Machine.execFwload queue s
  | .attest queue => Sys2Proof.Machine.execAttest queue s
  | .snapshot queue => Sys2Proof.Machine.execSnapshot queue s
  | .handoverTimeout => Sys2Proof.Machine.execHandoverTimeout s
  | .successorLinkDown => Sys2Proof.Machine.execSuccessorLinkDown s
  | .ownerLinkDown => Sys2Proof.Machine.execOwnerLinkDown s
  | .ownerTimeout => Sys2Proof.Machine.execOwnerTimeout s
  | .spanLinkAttestation span peer => Sys2Proof.Machine.execSpanLinkAttestation span peer s
  | .coldReset => Sys2Proof.Machine.execColdReset s
  | .warmReset => Sys2Proof.Machine.execWarmReset s
  | .correctedError die => Sys2Proof.Machine.execCorrectedError die s
  | .uncorrectableError site => Sys2Proof.Machine.execUncorrectableError site s
  | .thermalThrottle die => Sys2Proof.Machine.execThermalThrottle die s
  | .throttleEnd die => Sys2Proof.Machine.execThrottleEnd die s
  | .thermalTrip die => Sys2Proof.Machine.execThermalTrip die s
  | .governorBubble core => Sys2Proof.Machine.execGovernorBubble core s
  | .hostPortTraining port cxl => Sys2Proof.Machine.execHostPortTraining port cxl s
  | .islandPointLowering die => Sys2Proof.Machine.execIslandPointLowering die s

end Sys2Proof.Machine
end

