-- ==== Sys2Proof/Machine/Step.lean ====
section
/-!
DEFINITION. The step function, and placing an instruction where the next step fetches it.
-/

namespace Sys2Proof.Machine

/-- Whether the next move is a cold reset, the one step of a module that has shut down (18 R330). -/
def coldResetNext (s : State) : Bool :=
  match s.agenda with
  | .event .coldReset :: _ => true
  | _ => false

/-- One step of the module: what `nextIssue` names runs, whole and indivisible (95_what_each_step_holds.md). -/
def step (s : State) : Host.Outcome State Fault Refusal :=
  if s.power = .off && !coldResetNext s then .fault .shutDown
  else
    match nextIssue refuseHead s with
    | .run i s => exec i s
    | .instead s => .next s

/-- `s` with an instruction placed where the next step fetches: core `turn`'s berth of the coming cycle's phase holds a thread of
    net 0 at virtual address 0, which its quad translates to physical address 0, where the instruction's bytes stand; both of its words are in the
    quad's instruction cache, and no limit of 16 R289 is due (log entry 4). -/
def State.withFetchWord (s : State) (nbits w : Nat) : State :=
  let q := s.turn / 4
  let cyc := (8 * (s.clock + 1) - Tbl.getD s.dieLost (dieOf q) 0) / 8
  let lo := 16 * s.turn + cyc % 8
  let nr : NetRec := { st := .bound, priv := true, ox := clusterX (clusterOf q), oy := clusterY (clusterOf q), spawnLim := 64 }
  let bytes := w % 2 ^ nbits
  let t : TlbEnt := { cluster := false, holder := q, net := 0, bits := 16, va := 0, pa := 0, r := true, w := true, x := true, n := false }
  { s with
    power := .on, agenda := [], served := Tbl.del s.served s.turn, points := [], capped := [], throttled := []
    fused := s.fused.filter (fun f => !(f == q))
    nets := Tbl.set s.nets 0 nr
    netqs := Tbl.set s.netqs q {}
    berths := Tbl.set (Tbl.del s.berths (lo + 8)) lo { ctx := { tid := s.nextTid } }
    nextTid := s.nextTid + 1
    tlb := t :: s.tlb
    icache := Tbl.set (Tbl.set s.icache (icKey q 0) (bytes % 2 ^ 32)) (icKey q 4) (bytes / 2 ^ 32 % 2 ^ 32)
    owner := { s.owner with lastPacket := s.wall, handoverAt := s.wall }
    poison := s.poison.filter (fun g => g != 0 && g != 1)
    mem := memWrite s.mem 0 (leBytes 8 bytes) }

end Sys2Proof.Machine
end

