-- ==== Sys2Proof/Safety.lean ====
section
/-!
DEFINITION. What a safe run is: every state it passes keeps the model's invariant and answers a next state.
-/

namespace Sys2Proof.Machine

/-- The invariant of the model: memory in its one canonical form; register 0 zero in every thread, held, resident or evicted (03 R48); and the
    members of every vector gang those of its size but the leader (06 R108). -/
structure State.Inv (s : State) : Prop where
  memory : Memory.wf s.mem = true
  held : ∀ e ∈ s.berths, e.2.ctx.regs[0] = 0
  resident : ∀ e ∈ s.residents, e.2.regs[0] = 0
  evicted : ∀ e ∈ s.evicted, ∀ c ∈ e.2, c.regs[0] = 0
  gangs : ∀ e ∈ s.vgangs, e.2.members.map (·.1) = (List.range e.2.size).filter (· != e.2.index)

/-- A state whose next step answers a next state. -/
def State.Goes (s : State) : Prop := ∃ t, step s = .next t

end Sys2Proof.Machine
end

