-- ==== Sys2Proof/Certificates/Slice0/Obligations.lean ====
section
/-!
DEFINITION. The statements for the provers, family by family, with the words they are said in. Each docstring names the rules of spec/ that a statement formalises, or says that it is the model's own.
-/

namespace Sys2Proof.Say
open Sys2Proof Sys2Proof.Machine

/-- t differs from s in the context of the issuing thread alone, which becomes c; memory, every other thread and everything else stand. -/
structure OnlyThread (s t : State) (c : Ctx) : Prop where
  rest : t = { s with berths := t.berths }
  berth : Tbl.get? t.berths s.cur = some { s.berth s.cur with ctx := c }
  others : ∀ b, b ≠ s.cur → Tbl.get? t.berths b = Tbl.get? s.berths b
  memory : ∀ a, memGet t.mem a = memGet s.mem a

/-- The instruction writes v into xd (nothing into x0, 03 R48) and moves the pc n bytes on; nothing else changes. -/
def WritesX (n : Nat) (d : Reg) (v : Word) (s : State) (o : Result) : Prop :=
  ∃ t, o = .next t ∧ OnlyThread s t { s.th with regs := t.th.regs, pc := s.th.pc + BitVec.ofNat 56 n } ∧
    ∀ r, t.x r = if r = d ∧ r ≠ 0 then v else s.x r

/-- Annulling k instructions from npc leads to p, with t the state whose caches hold the words looked at, of which one missed or none did
    (03 R62 R63). -/
def Annuls (s : State) (b : Nat) : Nat → BitVec 56 → BitVec 56 → Bool → State → Prop
  | 0, npc, p, miss, t => p = npc ∧ miss = false ∧ t = s
  | k + 1, npc, p, miss, t =>
    match fetchWord s b npc.toNat with
    | .error (_, s') => p = npc ∧ miss = false ∧ t = s'
    | .ok (u, s') =>
      if u / 2 ^ 28 % 16 = 15 then p = npc ∧ miss = fetchMiss s b npc.toNat ∧ t = s'
      else ∃ m, Annuls s' b k (npc + (if u / 2 ^ 25 % 2 = 1 then 8 else 4)) p m t ∧ miss = (fetchMiss s b npc.toNat || m)

/-- A compare of n bytes with its condition: its whole effect is the pc; where a word that it annuls by missed, the thread waits for the fill. -/
def Compares (n : Nat) (holds : Prop) (k : BitVec 2) (s : State) (o : Result) : Prop :=
  ∃ t u w, o = .next t ∧ OnlyThread u w { u.th with pc := w.th.pc } ∧
    (¬holds → u = s ∧ t = w ∧ t.th.pc = s.th.pc + BitVec.ofNat 56 n) ∧
    (holds → ∃ v miss, OnlyThread s v { s.th with pc := s.th.pc + BitVec.ofNat 56 n } ∧
      Annuls v s.cur k.toNat (s.th.pc + BitVec.ofNat 56 n) w.th.pc miss u ∧ t = if miss then w.leave s.cur .fetch else w)

/-- The coin that a CoinSplit of the issuing thread divides (14 R251): its own, or with fewer than two grains what a borrow has granted it too. -/
def coinNow (s : State) : Nat := if s.th.coin < 2 ∧ s.th.lent ≠ 0 then s.th.coin + 2 ^ 32 else s.th.coin
/-- The borrows granted and not used that it leaves. -/
def lentNow (s : State) : Nat := if s.th.coin < 2 ∧ s.th.lent ≠ 0 then s.th.lent - 1 else s.th.lent
/-- What the thread keeps of the coin. -/
def coinLeft (s : State) : Nat := coinNow s - coinNow s / 2

/-- An instruction that a check stops ends there: in the fault, or in a wait with the pc still on it; from the state that its accesses have left, which is
    s where it has made none since. -/
def Stops (s : State) (e : Stop) (o : Result) : Prop :=
  match e with
  | .fault f left => o = .next (takeFault f (left.getD s))
  | .wait w left => w ≠ .spill → o = .next ((left.getD s).leave (left.getD s).cur w)

end Sys2Proof.Say

open Sys2Proof Sys2Proof.Machine Sys2Proof.Say

/-! ### Integers (05 R83 to R88) -/

/-- R83, R84: the nine arithmetic forms, their results as integers. No operand value traps, and division by zero and by −1 give what R73 says.

    R83, R84: the bitwise forms bit by bit, the smaller and the larger by value, the three counts, and `mov`. -/
def Obligations.IntegerOperationsWriteTheirResult : Prop :=
  (
    ∀ (d a b : Reg) (s : State),
      let A := s.x a
      let B := s.x b
      WritesX 4 d (BitVec.ofInt 64 (A.toInt + B.toInt)) s (exec (.add d a b) s) ∧
      WritesX 4 d (BitVec.ofInt 64 (A.toInt - B.toInt)) s (exec (.sub d a b) s) ∧
      WritesX 4 d (BitVec.ofInt 64 (A.toInt * B.toInt)) s (exec (.mul d a b) s) ∧
      WritesX 4 d (BitVec.ofInt 64 (A.toInt * B.toInt / 2 ^ 64)) s (exec (.mulh d a b) s) ∧
      WritesX 4 d (BitVec.ofNat 64 (A.toNat * B.toNat / 2 ^ 64)) s (exec (.mulhz d a b) s) ∧
      WritesX 4 d (BitVec.ofInt 64 (if B.toInt = 0 then -1 else A.toInt.tdiv B.toInt)) s (exec (.div d a b) s) ∧
      WritesX 4 d (BitVec.ofNat 64 (if B.toNat = 0 then 2 ^ 64 - 1 else A.toNat / B.toNat)) s (exec (.divz d a b) s) ∧
      WritesX 4 d (BitVec.ofInt 64 (if B.toInt = 0 then A.toInt else A.toInt - B.toInt * A.toInt.tdiv B.toInt)) s (exec (.rem d a b) s) ∧
      WritesX 4 d (BitVec.ofNat 64 (if B.toNat = 0 then A.toNat else A.toNat % B.toNat)) s (exec (.remz d a b) s)) ∧
  (
    ∀ (d a b : Reg) (s : State),
      let A := s.x a
      let B := s.x b
      (∃ v, (∀ i, v.getLsbD i = (A.getLsbD i && B.getLsbD i)) ∧ WritesX 4 d v s (exec (.and d a b) s)) ∧
      (∃ v, (∀ i, v.getLsbD i = (A.getLsbD i || B.getLsbD i)) ∧ WritesX 4 d v s (exec (.or d a b) s)) ∧
      (∃ v, (∀ i, v.getLsbD i = (A.getLsbD i != B.getLsbD i)) ∧ WritesX 4 d v s (exec (.xor d a b) s)) ∧
      (∃ v, (∀ i, v.getLsbD i = (A.getLsbD i && !B.getLsbD i)) ∧ WritesX 4 d v s (exec (.andn d a b) s)) ∧
      (∃ v : Word, v.toInt = min A.toInt B.toInt ∧ WritesX 4 d v s (exec (.min d a b) s)) ∧
      (∃ v : Word, v.toInt = max A.toInt B.toInt ∧ WritesX 4 d v s (exec (.max d a b) s)) ∧
      (∃ v : Word, v.toNat = min A.toNat B.toNat ∧ WritesX 4 d v s (exec (.minz d a b) s)) ∧
      (∃ v : Word, v.toNat = max A.toNat B.toNat ∧ WritesX 4 d v s (exec (.maxz d a b) s)) ∧
      (∃ k, k ≤ 64 ∧ (∀ i, 64 - k ≤ i → A.getLsbD i = false) ∧ (k < 64 → A.getLsbD (63 - k) = true) ∧
        WritesX 4 d (BitVec.ofNat 64 k) s (exec (.clz d a) s)) ∧
      (∃ k, k ≤ 64 ∧ (∀ i, i < k → A.getLsbD i = false) ∧ (k < 64 → A.getLsbD k = true) ∧
        WritesX 4 d (BitVec.ofNat 64 k) s (exec (.ctz d a) s)) ∧
      WritesX 4 d (BitVec.ofNat 64 ((Finset.range 64).filter (fun i => A.getLsbD i = true)).card) s (exec (.popc d a) s) ∧
      WritesX 4 d A s (exec (.mov d a) s))

/-- R84: the shifts and the rotation, by the whole of X(rb) or by a number from 0 to 127; 64 or more shifts everything out.

    R85, R86: the immediate forms, with a field alone (one word) and with an extension (two words): `addi`, `movi` and `lea` take it signed, the
    logical forms unsigned. -/
def Obligations.ShiftsAndImmediateFormsWriteTheirResult : Prop :=
  (
    ∀ (d a b : Reg) (k : BitVec 7) (s : State),
      let A := s.x a
      let shl := fun n => BitVec.ofNat 64 (if 64 ≤ n then 0 else A.toNat * 2 ^ n)
      let shr := fun n => BitVec.ofNat 64 (if 64 ≤ n then 0 else A.toNat / 2 ^ n)
      let sha := fun n => BitVec.ofInt 64 (if 64 ≤ n then (if A.toInt < 0 then -1 else 0) else A.toInt / 2 ^ n)
      let rot := fun (n : Nat) (v : Word) => ∀ i, i < 64 → v.getLsbD ((i + n) % 64) = A.getLsbD i
      WritesX 4 d (shl (s.x b).toNat) s (exec (.shl d a b) s) ∧
      WritesX 4 d (shl k.toNat) s (exec (.shlImm d a k) s) ∧
      WritesX 4 d (shr (s.x b).toNat) s (exec (.shr d a b) s) ∧
      WritesX 4 d (shr k.toNat) s (exec (.shrImm d a k) s) ∧
      WritesX 4 d (sha (s.x b).toNat) s (exec (.sha d a b) s) ∧
      WritesX 4 d (sha k.toNat) s (exec (.shaImm d a k) s) ∧
      (∃ v, rot (s.x b).toNat v ∧ WritesX 4 d v s (exec (.rot d a b) s)) ∧
      (∃ v, rot k.toNat v ∧ WritesX 4 d v s (exec (.rotImm d a k) s))) ∧
  (
    ∀ (d a : Reg) (i : BitVec 17) (j : BitVec 45) (o : BitVec 12) (p : BitVec 40) (s : State),
      let A := s.x a
      WritesX 4 d (BitVec.ofInt 64 (A.toInt + i.toInt)) s (exec (.addi d a i) s) ∧
      WritesX 8 d (BitVec.ofInt 64 (A.toInt + j.toInt)) s (exec (.addiExt d a j) s) ∧
      WritesX 4 d (BitVec.ofNat 64 (A.toNat &&& i.toNat)) s (exec (.andi d a i) s) ∧
      WritesX 8 d (BitVec.ofNat 64 (A.toNat &&& j.toNat)) s (exec (.andiExt d a j) s) ∧
      WritesX 4 d (BitVec.ofNat 64 (A.toNat ||| i.toNat)) s (exec (.ori d a i) s) ∧
      WritesX 8 d (BitVec.ofNat 64 (A.toNat ||| j.toNat)) s (exec (.oriExt d a j) s) ∧
      WritesX 4 d (BitVec.ofNat 64 (A.toNat ^^^ i.toNat)) s (exec (.xori d a i) s) ∧
      WritesX 8 d (BitVec.ofNat 64 (A.toNat ^^^ j.toNat)) s (exec (.xoriExt d a j) s) ∧
      WritesX 4 d (BitVec.ofInt 64 i.toInt) s (exec (.movi d i) s) ∧
      WritesX 8 d (BitVec.ofInt 64 j.toInt) s (exec (.moviExt d j) s) ∧
      WritesX 4 d (BitVec.ofInt 64 (A.toInt + o.toInt)) s (exec (.lea d a o) s) ∧
      WritesX 8 d (BitVec.ofInt 64 (A.toInt + p.toInt)) s (exec (.leaExt d a p) s))

/-- R87: the bit-field forms, bit by bit. A field is cut at bit 63; an empty field gives 0, or leaves the destination of `bfi` unchanged.

    R61, R62, R63: a compare's whole effect is the pc. When its condition holds it annuls the next skip instructions, counted by instruction;
    annulling stops at a word whose fetch would fault or that carries the marker. Each word looked at fills the quad's caches; that the thread is
    out of rotation for a fill that it had to wait for is log entry 97. -/
def Obligations.BitFieldsAreCutAndComparesMoveThePcAlone : Prop :=
  (
    ∀ (d a : Reg) (off wid : BitVec 7) (s : State),
      let A := s.x a
      let n := if off.toNat < 64 then min wid.toNat (64 - off.toNat) else 0
      (∃ v, (∀ i, v.getLsbD i = (decide (i < n) && A.getLsbD (off.toNat + i))) ∧ WritesX 4 d v s (exec (.bfx d a off wid) s)) ∧
      (∃ v, (∀ i, i < 64 → v.getLsbD i = (decide (0 < n) && A.getLsbD (off.toNat + min i (n - 1)))) ∧ WritesX 4 d v s (exec (.bfxs d a off wid) s)) ∧
      (∃ v, (∀ i, v.getLsbD i = if off.toNat ≤ i ∧ i < off.toNat + n then A.getLsbD (i - off.toNat) else (s.x d).getLsbD i) ∧
        WritesX 4 d v s (exec (.bfi d a off wid) s))) ∧
  (
    ∀ (c : Cond) (ne : Bool) (a b : Reg) (k : BitVec 2) (i : BitVec 12) (j : BitVec 40) (n : BitVec 6) (s : State),
      let A := s.x a
      let B := s.x b
      let cond := fun (x y : Word) => match c with
        | .eq => x = y
        | .ne => x ≠ y
        | .lt => x.toInt < y.toInt
        | .ge => y.toInt ≤ x.toInt
        | .lo => x.toNat < y.toNat
        | .hs => y.toNat ≤ x.toNat
      let test := fun (x : Word) => if ne then x ≠ 0 else x = 0
      Compares 4 (cond A B) k s (exec (.cmp c a b k) s) ∧
      Compares 4 (cond A (BitVec.ofInt 64 i.toInt)) k s (exec (.cmpi c a k i) s) ∧
      Compares 8 (cond A (BitVec.ofInt 64 j.toInt)) k s (exec (.cmpiExt c a k j) s) ∧
      Compares 4 (test (A &&& B)) k s (exec (.tst ne a b k) s) ∧
      Compares 4 (if ne then A.getLsbD n.toNat = true else A.getLsbD n.toNat = false) k s (exec (.tstBit ne a k n) s))

/-! ### Vectors (04 R74 R77 to R81, 05 R89 to R104) -/

namespace Sys2Proof.Say

/-- Lane(d, w, j) (03 R67). -/
def lane (w j : Nat) (d : VData) : Nat := d.toNat / 2 ^ (w * j) % 2 ^ w

/-- w bits read as an integer, unsigned or signed. -/
def asInt (z : Bool) (w e : Nat) : Int := if z = true ∨ e < 2 ^ (w - 1) then e else (e : Int) - 2 ^ w

/-- What a form makes of each member's vector registers, with the flags it raises there. -/
abbrev MemberRel := Vector VReg 8 → Vector VReg 8 → Flags → Prop

/-- The relation holds of every member in turn; the members keep their places and the flags are ORed. -/
def MembersRun (P : MemberRel) : List (Nat × Nat × Vector VReg 8) → List (Nat × Nat × Vector VReg 8) → Flags → Prop
  | [], [], f => f = 0
  | m :: r, m' :: r', f => m'.1 = m.1 ∧ m'.2.1 = m.2.1 ∧ ∃ g h, P m.2.2 m'.2.2 g ∧ MembersRun P r r' h ∧ f = g ||| h
  | _, _, _ => False

/-- A vector form completes: it runs in the issuing thread and in every member of a vector gang that it leads (05 R104); the flags of all
    are ORed into the leader's (04 R77); the pc moves on, and nothing else changes. -/
def RunsInMembers (P : MemberRel) (s : State) (o : Result) : Prop :=
  ∃ t f g, o = .next t ∧ t = { s with berths := t.berths, vgangs := t.vgangs } ∧
    Tbl.get? t.berths s.cur = some { s.berth s.cur with
      ctx := { s.th with vecs := t.th.vecs, fflags := s.th.fflags ||| f ||| g, pc := s.th.pc + 4 } } ∧
    (∀ b, b ≠ s.cur → Tbl.get? t.berths b = Tbl.get? s.berths b ∧ Tbl.get? t.vgangs b = Tbl.get? s.vgangs b) ∧
    (∀ a, memGet t.mem a = memGet s.mem a) ∧
    P s.th.vecs t.th.vecs f ∧
    match Tbl.get? s.vgangs s.cur with
    | none => Tbl.get? t.vgangs s.cur = none ∧ g = 0
    | some x => ∃ ms, Tbl.get? t.vgangs s.cur = some { x with members := ms } ∧ MembersRun P x.members ms g

/-- The issuing thread has no gang to report broken, and a property holds of its registers and of every member's. -/
def AllMembers (p : Vector VReg 8 → Bool) (s : State) : Prop :=
  (s.th.broken && s.th.brokenVec) = false ∧ p s.th.vecs = true ∧ (gangMembers s).all (fun m => p m.2.2) = true

/-- vd takes data, tag and side word together (03 R49); every other vector register stands. -/
def SetsV (d : VIdx) (r : VReg) (v v' : Vector VReg 8) : Prop := ∀ k : VIdx, v'[k] = if k = d then r else v[k]

/-- An element-wise form (05 R90): integers by `fi`, modulo 2^w and with no flag; values by `fv`, through Enc, with the flags of every element. -/
def ElementWise (srcs : List VIdx) (d : VIdx) (rm : Rnd) (z : Bool) (fi : List Int → Int) (fv : List Val → Val × Flags) : MemberRel := fun v v' f =>
  let t := v[srcs.headD 0].tag
  let w := tagWidth t
  SetsV d { data := v'[d].data, tag := t, side := 0 } v v' ∧
  match tagFmt t with
  | none => f = 0 ∧ ∀ j, j < 256 / w → (lane w j v'[d].data : Int) = fi (srcs.map (fun i => asInt z w (lane w j v[i].data))) % 2 ^ w
  | some F =>
    let x := fun j => fv (srcs.map (fun i => dec F (lane w j v[i].data)))
    (∀ j, j < 256 / w → lane w j v'[d].data = (enc F (x j).1 rm).1) ∧
    f = (List.range (256 / w)).foldl (fun g j => g ||| (x j).2 ||| (enc F (x j).1 rm).2) 0

/-- Every source carries one tag of a class, and no floating-point tag stands under a Z bit. -/
def tagsEqual (cls : Tag → Bool) (z : Bool) (srcs : List VIdx) (v : Vector VReg 8) : Bool :=
  cls v[srcs.headD 0].tag && srcs.all (fun i => v[i].tag == v[srcs.headD 0].tag) && (!z || isIntTag v[srcs.headD 0].tag)

/-- The rational that a finite value stands for. -/
def ratOf : Val → ℚ
  | .fin neg n d => (if neg then -1 else 1) * (n : ℚ) / d
  | _ => 0

/-- A value of the model whose fraction is one. -/
def proper : Val → Prop
  | .fin _ _ d => 0 < d
  | _ => True

/-- Less by value: −∞ below every number, +∞ above; no NaN is ordered, and the two zeros are equal. -/
def lessVal (x y : Val) : Prop :=
  match x, y with
  | .nan _, _ => False
  | _, .nan _ => False
  | .inf a, .inf b => a = true ∧ b = false
  | .inf a, .fin .. => a = true
  | .fin .., .inf b => b = false
  | .fin .., .fin .. => ratOf x < ratOf y

/-- Less as R74 orders for a minimum: −0 stands below +0 too. -/
def below (x y : Val) : Prop :=
  lessVal x y ∨ ∃ d e, x = .fin true 0 d ∧ y = .fin false 0 e

/-- The tag of a result with two data sources (04 R80). -/
def resultTag (a b : Tag) : Option Tag := if a = .raw then some b else if b = .raw ∨ a = b then some a else none

end Sys2Proof.Say

/-- R74: sums and products of finite values are exact, sums of any length; a zero sum is −0 only under RD or when every term is −0; a product's sign
    is the exclusive OR of its operands' signs. ∞ − ∞ and 0 × ∞ are invalid, and a signalling NaN raises NV.

    R70, R75: in every format the pattern of a number encodes back as itself, in every rounding mode and with no flag, and a NaN as the canonical NaN. -/
def Obligations.NumbersAreExactUntilRounded : Prop :=
  (
    ∀ (a b : Bool) (n d m e : Nat) (rm : Rnd) (x y : Val), 0 < d → 0 < e →
      (∃ neg p q, (sumVal [.fin a n d, .fin b m e] rm) = (.fin neg p q, 0) ∧ 0 < q ∧
        ratOf (.fin neg p q) = ratOf (.fin a n d) + ratOf (.fin b m e) ∧
        (p = 0 → neg = if n = 0 ∧ m = 0 ∧ a = b then a else decide (rm = .rd))) ∧
      (∃ p q, mulVal (.fin a n d) (.fin b m e) = (.fin (a != b) p q, 0) ∧ 0 < q ∧ ratOf (.fin (a != b) p q) = ratOf (.fin a n d) * ratOf (.fin b m e)) ∧
      (∀ l : List Val, (∀ v ∈ l, ∃ s p q, v = .fin s p q ∧ 0 < q) →
        ratOf (sumVal l rm).1 = (l.map ratOf).sum ∧ (∃ s p q, (sumVal l rm).1 = .fin s p q ∧ 0 < q) ∧ (sumVal l rm).2 = 0) ∧
      sumVal [.inf true, .inf false] rm = (.nan false, fNV) ∧
      mulVal (.inf a) (.fin b 0 d) = (.nan false, fNV) ∧ mulVal (.fin b 0 d) (.inf a) = (.nan false, fNV) ∧
      ((x.isNan || y.isNan) = true →
        sumVal [x, y] rm = (.nan false, if x.isSig || y.isSig then fNV else 0) ∧ mulVal x y = (.nan false, if x.isSig || y.isSig then fNV else 0))) ∧
  (
    ∀ (f : Fmt) (b : Nat) (rm : Rnd), f ∈ [fp32, fp16, bf16, e4m3, e5m2, fp4, e3m5] → b < 2 ^ f.width →
      enc f (dec f b) rm = (if (dec f b).isNan then f.nan else b, 0))

/-- R89, R90: the element-wise arithmetic forms, for every tag of class A, every rounding mode, and in every member of a vector gang; and R74's
    minimum and maximum of two values.

    R80, R91, R93: the bitwise forms and `vsel` act on all 256 bits and take the tag of the source that is not RAW, with its scales for F4B; the
    shifts act element by element and by the whole amount. None raises a flag. -/
def Obligations.VectorArithmeticAndShiftsRunInEveryMember : Prop :=
  (
    ∀ (d a b c : VIdx) (r : Rnd) (z : Bool) (s : State),
      let at2 := fun (l : List Val) (f : Val → Val → Val × Flags) => f (l.getD 0 (.nan false)) (l.getD 1 (.nan false))
      let at1 := fun (l : List Val) (f : Val → Val) => (f (l.getD 0 (.nan false)), if (l.getD 0 (.nan false)).isSig then fNV else 0)
      let i := fun (l : List Int) (k : Nat) => l.getD k 0
      let fma := fun (l : List Val) (f : Val → Val) =>
        let p := mulVal (l.getD 0 (.nan false)) (l.getD 1 (.nan false))
        let q := sumVal [p.1, f (l.getD 2 (.nan false))] r
        (q.1, p.2 ||| q.2)
      (AllMembers (tagsEqual classA false [a, b]) s →
        RunsInMembers (ElementWise [a, b] d r false (fun l => i l 0 + i l 1) (fun l => at2 l (fun x y => sumVal [x, y] r))) s (exec (.vadd d a b r) s) ∧
        RunsInMembers (ElementWise [a, b] d r false (fun l => i l 0 - i l 1) (fun l => at2 l (fun x y => sumVal [x, y.neg] r))) s (exec (.vsub d a b r) s) ∧
        RunsInMembers (ElementWise [a, b] d r false (fun l => i l 0 * i l 1) (fun l => at2 l mulVal)) s (exec (.vmul d a b r) s)) ∧
      (AllMembers (tagsEqual classA false [a, b, c]) s →
        RunsInMembers (ElementWise [a, b, c] d r false (fun l => i l 0 * i l 1 + i l 2) (fun l => fma l id)) s (exec (.vfma d a b c r) s) ∧
        RunsInMembers (ElementWise [a, b, c] d r false (fun l => i l 0 * i l 1 - i l 2) (fun l => fma l Val.neg)) s (exec (.vfms d a b c r) s)) ∧
      (AllMembers (tagsEqual classA z [a, b]) s →
        RunsInMembers (ElementWise [a, b] d r z (fun l => min (i l 0) (i l 1)) (fun l => at2 l (minmaxVal false))) s (exec (.vmin d a b r z) s) ∧
        RunsInMembers (ElementWise [a, b] d r z (fun l => max (i l 0) (i l 1)) (fun l => at2 l (minmaxVal true))) s (exec (.vmax d a b r z) s)) ∧
      (AllMembers (tagsEqual classA false [a]) s →
        RunsInMembers (ElementWise [a] d r false (fun l => |i l 0|) (fun l => at1 l Val.abs)) s (exec (.vabs d a r) s) ∧
        RunsInMembers (ElementWise [a] d r false (fun l => -(i l 0)) (fun l => at1 l Val.neg)) s (exec (.vneg d a r) s)) ∧
      (∀ (x y : Val) (mx : Bool), proper x → proper y →
        (minmaxVal mx x y).2 = (if x.isSig || y.isSig then fNV else 0) ∧
        (x.isNan = true → y.isNan = true → (minmaxVal mx x y).1 = .nan false) ∧
        (x.isNan = true → y.isNan = false → (minmaxVal mx x y).1 = y) ∧
        (x.isNan = false → y.isNan = true → (minmaxVal mx x y).1 = x) ∧
        (below x y → (minmaxVal mx x y).1 = if mx then y else x) ∧
        (below y x → (minmaxVal mx x y).1 = if mx then x else y) ∧
        (x.isNan = false → y.isNan = false → (minmaxVal mx x y).1 = x ∨ (minmaxVal mx x y).1 = y))) ∧
  (
    ∀ (d a b c : VIdx) (s : State),
      let bitwise := fun (g : Vector VReg 8 → Nat → Bool) (v v' : Vector VReg 8) (f : Flags) => f = 0 ∧ ∃ t,
        resultTag v[a].tag v[b].tag = some t ∧ (∀ i, v'[d].data.getLsbD i = (decide (i < 256) && g v i)) ∧
        SetsV d { data := v'[d].data, tag := t, side := if t = .f4b then (if v[a].tag = .f4b then v[a].side else v[b].side) else 0 } v v'
      let shift := fun (g : Nat → Nat → Nat → Int) (v v' : Vector VReg 8) (f : Flags) => f = 0 ∧
        SetsV d { data := v'[d].data, tag := v[a].tag, side := 0 } v v' ∧
        ∀ j, j < 256 / tagWidth v[a].tag → (lane (tagWidth v[a].tag) j v'[d].data : Int)
          = g (tagWidth v[a].tag) (lane (tagWidth v[a].tag) j v[a].data) (lane (tagWidth v[a].tag) j v[b].data) % 2 ^ tagWidth v[a].tag
      (AllMembers (fun v => (resultTag v[a].tag v[b].tag).isSome) s →
        RunsInMembers (bitwise (fun v i => v[a].data.getLsbD i && v[b].data.getLsbD i)) s (exec (.vand d a b) s) ∧
        RunsInMembers (bitwise (fun v i => v[a].data.getLsbD i || v[b].data.getLsbD i)) s (exec (.vor d a b) s) ∧
        RunsInMembers (bitwise (fun v i => v[a].data.getLsbD i != v[b].data.getLsbD i)) s (exec (.vxor d a b) s) ∧
        RunsInMembers (bitwise (fun v i => if v[c].data.getLsbD i then v[a].data.getLsbD i else v[b].data.getLsbD i)) s (exec (.vsel d a b c) s)) ∧
      (AllMembers (tagsEqual isIntTag false [a, b]) s →
        RunsInMembers (shift (fun w x n => if w ≤ n then 0 else x * 2 ^ n)) s (exec (.vshl d a b) s) ∧
        RunsInMembers (shift (fun w x n => if w ≤ n then 0 else x / 2 ^ n)) s (exec (.vshr d a b) s) ∧
        RunsInMembers (shift (fun w x n => if w ≤ n then (if asInt false w x < 0 then -1 else 0) else asInt false w x / 2 ^ n)) s (exec (.vsha d a b) s)))

/-- R92, R94: `vcmp` writes all ones or all zeros into each element, under the integer tag of the same width and with NV as it says; values are
    ordered as numbers, no NaN being ordered; `vperm` moves bytes.

    R95, R103, R104: broadcast, insert, extract, `vtag` and the two forms of `vscale`. The general register is the leader's; the reading forms write
    it from the leader's own source. -/
def Obligations.VectorComparesAndMovesRunInEveryMember : Prop :=
  (
    ∀ (d a b : VIdx) (k : Cond) (s : State),
      let w := fun (v : Vector VReg 8) => tagWidth v[a].tag
      let maskTag := fun (v : Vector VReg 8) => if w v = 8 then Tag.i8 else if w v = 16 then .i16 else .i32
      let holdsInt := fun (n x y : Nat) => match k with
        | .eq => x = y
        | .ne => x ≠ y
        | .lt => asInt false n x < asInt false n y
        | .ge => asInt false n y ≤ asInt false n x
        | .lo => x < y
        | .hs => y ≤ x
      let holdsVal := fun (x y : Val) => match k with
        | .eq => cmpVal x y = some .eq
        | .ne => cmpVal x y ≠ some .eq
        | .lt => cmpVal x y = some .lt
        | _ => cmpVal x y = some .gt ∨ cmpVal x y = some .eq
      let flag := fun (x y : Val) => if (match k with | .eq | .ne => x.isSig || y.isSig | _ => x.isNan || y.isNan) then fNV else 0
      (AllMembers (fun v => tagsEqual (fun t => classA t || t == .e4m3 || t == .e5m2) (k == .lo || k == .hs) [a, b] v) s →
        RunsInMembers (fun v v' f =>
          SetsV d { data := v'[d].data, tag := maskTag v, side := 0 } v v' ∧
          match tagFmt v[a].tag with
          | none => f = 0 ∧ ∀ j, j < 256 / w v →
              (holdsInt (w v) (lane (w v) j v[a].data) (lane (w v) j v[b].data) → lane (w v) j v'[d].data = 2 ^ w v - 1) ∧
              (¬holdsInt (w v) (lane (w v) j v[a].data) (lane (w v) j v[b].data) → lane (w v) j v'[d].data = 0)
          | some F =>
            f = (List.range (256 / w v)).foldl (fun g j => g ||| flag (dec F (lane (w v) j v[a].data)) (dec F (lane (w v) j v[b].data))) 0 ∧
            ∀ j, j < 256 / w v →
              (holdsVal (dec F (lane (w v) j v[a].data)) (dec F (lane (w v) j v[b].data)) → lane (w v) j v'[d].data = 2 ^ w v - 1) ∧
              (¬holdsVal (dec F (lane (w v) j v[a].data)) (dec F (lane (w v) j v[b].data)) → lane (w v) j v'[d].data = 0)) s (exec (.vcmp d a b k) s)) ∧
      (AllMembers (fun v => v[a].tag != .f4b) s →
        RunsInMembers (fun v v' f => f = 0 ∧ SetsV d { data := v'[d].data, tag := v[a].tag, side := 0 } v v' ∧
          ∀ j, j < 32 → lane 8 j v'[d].data = if 128 ≤ lane 8 j v[b].data then 0 else lane 8 (lane 8 j v[b].data % 32) v[a].data) s
          (exec (.vperm d a b) s)) ∧
      (∀ x y : Val, proper x → proper y →
        (cmpVal x y = none ↔ (x.isNan || y.isNan) = true) ∧ (cmpVal x y = some .lt ↔ lessVal x y) ∧ (cmpVal x y = some .gt ↔ lessVal y x))) ∧
  (
    ∀ (d a : VIdx) (x : Reg) (t : BitVec 4) (g : Tag) (k : BitVec 5) (s : State),
      let w := fun (u : Tag) => if u = .raw ∨ u = .f4b then 32 else tagWidth u
      ((s.th.broken && s.th.brokenVec) = false → tagOfCode t.toNat = some g → g ≠ .f4b →
        RunsInMembers (fun v v' f => f = 0 ∧ SetsV d { data := v'[d].data, tag := g, side := 0 } v v' ∧
          ∀ j, j < 256 / tagWidth g → lane (tagWidth g) j v'[d].data = (s.x x).toNat % 2 ^ tagWidth g) s (exec (.vbcast d x t) s)) ∧
      ((s.th.broken && s.th.brokenVec) = false →
        RunsInMembers (fun v v' f => f = 0 ∧
          SetsV d { data := v'[d].data, tag := v[a].tag, side := if v[a].tag = .f4b then v[a].side else 0 } v v' ∧
          ∀ j, j < 256 / w v[a].tag → lane (w v[a].tag) j v'[d].data =
            if j = k.toNat then (s.x x).toNat % 2 ^ w v[a].tag else lane (w v[a].tag) j v[a].data) s (exec (.vins d a x k) s)) ∧
      ((s.th.broken && s.th.brokenVec) = false →
        let u := s.th.vecs[a].tag
        WritesX 4 x (if 256 / w u ≤ k.toNat then 0
          else if isIntTag u then BitVec.ofInt 64 (asInt false (w u) (lane (w u) k.toNat s.th.vecs[a].data))
          else BitVec.ofNat 64 (lane (w u) k.toNat s.th.vecs[a].data)) s (exec (.vext a x k) s)) ∧
      ((s.th.broken && s.th.brokenVec) = false → tagOfCode t.toNat = some g →
        RunsInMembers (fun v v' f => f = 0 ∧ SetsV d { data := v[a].data, tag := g, side := v[a].side } v v') s (exec (.vtag d a t) s)) ∧
      (AllMembers (fun v => v[a].tag == .f4b) s →
        RunsInMembers (fun v v' f => f = 0 ∧ SetsV d { data := v[a].data, tag := .f4b, side := s.x x } v v') s (exec (.vscaleWrite d a x) s) ∧
        WritesX 4 x s.th.vecs[a].side s (exec (.vscaleRead a x) s)))

namespace Sys2Proof.Say

/-- F, one step of a reduction between two encoded elements (05 R96). -/
def redF (t : Tag) (o : RedOp) (z : Bool) (rm : Rnd) (a b : Nat) : Nat × Flags :=
  match tagFmt t with
  | some F =>
    let r := match o with
      | .add => sumVal [dec F a, dec F b] rm
      | .min => minmaxVal false (dec F a) (dec F b)
      | .max => minmaxVal true (dec F a) (dec F b)
    ((enc F r.1 rm).1, r.2 ||| (enc F r.1 rm).2)
  | none =>
    let x := asInt z (tagWidth t) a
    let y := asInt z (tagWidth t) b
    (((match o with | .add => x + y | .min => min x y | .max => max x y) % 2 ^ tagWidth t).toNat, 0)

/-- Element j after k rounds of the pairwise tree. -/
def round (F : Nat → Nat → Nat × Flags) (e : Nat → Nat) : Nat → Nat → Nat
  | 0, j => e j
  | k + 1, j => (F (round F e k (2 * j)) (round F e k (2 * j + 1))).1

/-- Element j of the inclusive scan. -/
def scanned (F : Nat → Nat → Nat × Flags) (e : Nat → Nat) : Nat → Nat
  | 0 => e 0
  | j + 1 => (F (scanned F e j) (e (j + 1))).1

/-- The source value of element j (05 R97): of F4B, the element times its block's scale. -/
def srcElem (r : VReg) (z : Bool) (j : Nat) : Src :=
  if r.tag = .f4b then .val (fp4Val (lane 4 j r.data) (r.side.toNat / 2 ^ (8 * (j / 8)) % 256))
  else match tagFmt r.tag with
    | some F => .val (dec F (lane (tagWidth r.tag) j r.data))
    | none => .int (asInt z (tagWidth r.tag) (lane (tagWidth r.tag) j r.data))

/-- m source elements converted: the codes, the block scales of an F4B target, and the flags of every element (05 R97 R98). -/
def Converted (tf : Tag) (z : Bool) (rm : Rnd) (xs : Nat → Src) (m : Nat) (code scale : Nat → Nat) (f : Flags) : Prop :=
  if tf = .f4b then
    let blk := fun b => f4bBlock ((List.range 8).map (fun i => (xs (8 * b + i)).value)) rm
    (∀ j, j < m → code j = (blk (j / 8)).1 / 2 ^ (4 * (j % 8)) % 16) ∧ (∀ b, b < m / 8 → scale b = (blk b).2.1) ∧
      f = (List.range (m / 8)).foldl (fun g b => g ||| (blk b).2.2) 0
  else
    (∀ j, j < m → code j = (convert tf z rm (xs j)).1) ∧ f = (List.range m).foldl (fun g j => g ||| (convert tf z rm (xs j)).2) 0

/-- k is the integer that a number rounds to (04 R75). -/
def RoundsTo (rm : Rnd) (x : ℚ) (k : ℤ) : Prop :=
  match rm with
  | .rne => |x - k| ≤ 1 / 2 ∧ (|x - k| = 1 / 2 → Even k)
  | .rz => (0 ≤ x → k = ⌊x⌋) ∧ (x ≤ 0 → k = ⌈x⌉)
  | .ru => k = ⌈x⌉
  | .rd => k = ⌊x⌋

/-- An element of an F4B block divided by the block's scale S, where that is not zero (05 R98). -/
def Divided (S : ℚ) (v u : Val) : Prop :=
  match v with
  | .fin neg n d => if S = 0 then u = v else ∃ p q, u = .fin neg p q ∧ 0 < q ∧ ratOf u * S = ratOf (.fin neg n d)
  | _ => u = v

/-- What a conversion asks of a member's tags (05 R97). -/
def cvtTags (d a : VIdx) (p : Nat) (tf : Tag) (v : Vector VReg 8) : Bool :=
  let ns := 256 / tagWidth v[a].tag
  let nd := 256 / tagWidth tf
  v[a].tag != .raw && tf != .raw &&
    (if nd < ns then d.val % 2 == 0
     else if ns < nd then a.val % 2 == 0 && v[a + 1].tag == v[a].tag && (p % (nd / ns / 2) == 0 || v[d].tag == tf)
     else true)

/-- `vcvt` in one member (05 R97): widening, narrowing or in place. -/
def Converts (d a : VIdx) (z : Bool) (p : Nat) (rm : Rnd) (tf : Tag) : MemberRel := fun v v' f =>
  let ts := v[a].tag
  let ns := 256 / tagWidth ts
  let nd := 256 / tagWidth tf
  let w := tagWidth tf
  let sideOf := fun (scales : Nat → Nat) (side : Word) => ∀ b, b < 8 → side.toNat / 2 ^ (8 * b) % 256 = if tf = .f4b then scales b else 0
  ∃ code scale,
    if nd < ns then
      Converted tf z rm (fun j => srcElem v[a] z (2 * nd * (p % (ns / nd / 2)) + j)) (2 * nd) code scale f ∧
      (∀ j, j < nd → lane w j v'[d].data = code j ∧ lane w j v'[d + 1].data = code (nd + j)) ∧
      v'[d].tag = tf ∧ v'[d].side = 0 ∧ v'[d + 1].tag = tf ∧ v'[d + 1].side = 0 ∧ ∀ k : VIdx, k ≠ d → k ≠ d + 1 → v'[k] = v[k]
    else if ns < nd then
      let p' := p % (nd / ns / 2)
      Converted tf z rm (fun j => if j < ns then srcElem v[a] z j else srcElem v[a + 1] z (j - ns)) (2 * ns) code scale f ∧
      (∀ j, j < nd → lane w j v'[d].data =
        if 2 * ns * p' ≤ j ∧ j < 2 * ns * p' + 2 * ns then code (j - 2 * ns * p') else if p' = 0 then 0 else lane w j v[d].data) ∧
      sideOf (fun b => if 2 * ns * p' / 8 ≤ b ∧ b < 2 * ns * p' / 8 + 2 * ns / 8 then scale (b - 2 * ns * p' / 8)
        else if p' = 0 then 0 else v[d].side.toNat / 2 ^ (8 * b) % 256) v'[d].side ∧
      v'[d].tag = tf ∧ ∀ k : VIdx, k ≠ d → v'[k] = v[k]
    else
      Converted tf z rm (srcElem v[a] z) nd code scale f ∧
      (∀ j, j < nd → lane w j v'[d].data = code j) ∧ sideOf scale v'[d].side ∧ v'[d].tag = tf ∧ ∀ k : VIdx, k ≠ d → v'[k] = v[k]

/-- The tags that `vdot` takes (05 R101). -/
def dotTags (d a b : VIdx) (v : Vector VReg 8) : Bool :=
  v[a].tag == v[b].tag &&
    (match v[a].tag with
     | .i8 => v[d].tag == .i32
     | .e4m3 | .e5m2 | .fp16 | .bf16 | .f4b => v[d].tag == .fp32
     | _ => false)

/-- f(x) for the inputs that the table of 05 R102 names, with the flag it raises. -/
def specialInput (f : Special) : Val → Option (Val × Flags)
  | .nan sig => some (.nan false, if sig then fNV else 0)
  | .inf neg => match f with
    | .rcp => some (.fin neg 0 1, 0)
    | .rsq => some (if neg then (.nan false, fNV) else (.fin false 0 1, 0))
    | .exp2 => some (if neg then .fin false 0 1 else .inf false, 0)
    | .log2 => some (if neg then (.nan false, fNV) else (.inf false, 0))
    | .tanh => some (.fin neg 1 1, 0)
  | .fin neg 0 _ => match f with
    | .rcp => some (.inf neg, fDZ)
    | .rsq => some (.inf neg, fDZ)
    | .log2 => some (.inf true, fDZ)
    | .tanh => some (.fin neg 0 1, 0)
    | .exp2 => none
  | .fin neg _ _ => match f with
    | .rsq => if neg then some (.nan false, fNV) else none
    | .log2 => if neg then some (.nan false, fNV) else none
    | _ => none

end Sys2Proof.Say

/-- R96: `vred` combines the elements by the pairwise tree into element 0, `vscan` left to right; the flags are those of every step taken.

    R101: `vdot` adds to each lane of vd the exact sum of the lane's products, each of F4B scaled. With `.rne` the lane is a block step of 06 R115,
    whose sum starts at +0 and takes the scales after it; which of the two orders holds under which mode is the model's reading (log entry 24). -/
def Obligations.VectorSumsFollowTheFixedOrder : Prop :=
  (
    ∀ (d a : VIdx) (r : Rnd) (z : Bool) (o : RedOp) (s : State), AllMembers (tagsEqual classA z [a]) s →
      let n := fun (v : Vector VReg 8) => 256 / tagWidth v[a].tag
      let e := fun (v : Vector VReg 8) j => lane (tagWidth v[a].tag) j v[a].data
      let F := fun (v : Vector VReg 8) => redF v[a].tag o z r
      RunsInMembers (fun v v' f =>
        SetsV d { data := v'[d].data, tag := v[a].tag, side := 0 } v v' ∧
        (∀ j, j < n v → lane (tagWidth v[a].tag) j v'[d].data = if j = 0 then round (F v) (e v) (Nat.log2 (n v)) 0 else 0) ∧
        f = (List.range (Nat.log2 (n v))).foldl (fun g k => (List.range (n v / 2 ^ (k + 1))).foldl (fun h j =>
          h ||| (F v (round (F v) (e v) k (2 * j)) (round (F v) (e v) k (2 * j + 1))).2) g) 0) s (exec (.vred d a r z o) s) ∧
      RunsInMembers (fun v v' f =>
        SetsV d { data := v'[d].data, tag := v[a].tag, side := 0 } v v' ∧
        (∀ j, j < n v → lane (tagWidth v[a].tag) j v'[d].data = scanned (F v) (e v) j) ∧
        f = (List.range (n v - 1)).foldl (fun g j => g ||| (F v (scanned (F v) (e v) j) (e v (j + 1))).2) 0) s (exec (.vscan d a r z o) s)) ∧
  (
    ∀ (d a b : VIdx) (r : Rnd) (s : State), AllMembers (dotTags d a b) s →
      RunsInMembers (fun v v' f =>
        let m := 32 / tagWidth v[a].tag
        SetsV d { data := v'[d].data, tag := v[d].tag, side := 0 } v v' ∧
        if v[a].tag = .i8 then
          f = 0 ∧ ∀ i, i < 8 → (lane 32 i v'[d].data : Int) = ((lane 32 i v[d].data : Int) +
            ∑ k ∈ Finset.range 4, asInt false 8 (lane 8 (4 * i + k) v[a].data) * asInt false 8 (lane 8 (4 * i + k) v[b].data)) % 2 ^ 32
        else
          let elem := fun (x : VReg) j => if x.tag = .f4b then dec fp4 (lane 4 j x.data) else (srcElem x false j).value
          let scaled := fun (x : Val × Flags) y => ((mulVal x.1 y).1, x.2 ||| (mulVal x.1 y).2)
          let block := fun i => blockSum ((List.range m).map (fun k => (elem v[a] (m * i + k), elem v[b] (m * i + k)))) r
          let side := fun (x : VReg) i => dec e3m5 (x.side.toNat / 2 ^ (8 * i) % 256)
          let scale := fun i (x : Val × Flags) => if v[a].tag = .f4b then scaled (scaled x (side v[a] i)) (side v[b] i) else x
          let products := fun i => (List.range m).map (fun k => scale i (mulVal (elem v[a] (m * i + k)) (elem v[b] (m * i + k))))
          let sum := fun i => if r = .rne then scale i (block i)
            else ((sumVal ((products i).map (·.1)) r).1, (products i).foldl (fun f p => f ||| p.2) (sumVal ((products i).map (·.1)) r).2)
          let one := fun i => enc fp32 (sum i).1 r
          let acc := fun i => sumVal [dec fp32 (lane 32 i v[d].data), dec fp32 (one i).1] r
          (∀ i, i < 8 → lane 32 i v'[d].data = (enc fp32 (acc i).1 r).1) ∧
          f = (List.range 8).foldl (fun g i => g ||| (sum i).2 ||| (one i).2 ||| (acc i).2 ||| (enc fp32 (acc i).1 r).2) 0)
        s (exec (.vdot d a b r) s))

/-- R97, R98, R76: a conversion writes a pair (widening), reads one and merges it into a part (narrowing), or converts in place; F4B data carries its
    block scales. An element goes through Enc into a floating-point format, and into an integer it rounds and is held to the target's range; a block
    of F4B takes the least scale, of a sixth of its largest magnitude or more.

    R102: the special functions complete for every class F tag, each element through Enc of f(x); the special inputs give what the table says. How
    f(x) is found elsewhere is the model's (log entry 21). -/
def Obligations.ConversionsAndSpecialFunctions : Prop :=
  (
    ∀ (d a : VIdx) (z : Bool) (p : BitVec 3) (r : Rnd) (t : BitVec 4) (tf : Tag) (s : State), tagOfCode t.toNat = some tf →
      (AllMembers (cvtTags d a p.toNat tf) s → RunsInMembers (Converts d a z p.toNat r tf) s (exec (.vcvt d a z p r t) s)) ∧
      (∀ F, tagFmt tf = some F →
        (∀ i : ℤ, ratOf (ofInt i) = i ∧ convert tf z r (.int i) = enc F (ofInt i) r) ∧
        (∀ v : Val, convert tf z r (.val v) = ((enc F v r).1, (if v.isSig then fNV else 0) ||| (enc F v r).2))) ∧
      (isIntTag tf = true →
        let w := tagWidth tf
        let lo : ℤ := if z then 0 else -2 ^ (w - 1)
        let hi : ℤ := if z then 2 ^ w - 1 else 2 ^ (w - 1) - 1
        let pat := fun (i : ℤ) => (i % 2 ^ w).toNat
        (∀ i : ℤ, convert tf z r (.int i) = (pat (max lo (min hi i)), 0)) ∧
        (∀ b, convert tf z r (.val (.nan b)) = (0, fNV)) ∧
        (∀ b, convert tf z r (.val (.inf b)) = (pat (if b then lo else hi), fNV)) ∧
        (∀ b n d, 0 < d → ∃ k, RoundsTo r (ratOf (.fin b n d)) k ∧ convert tf z r (.val (.fin b n d)) =
          if lo ≤ k ∧ k ≤ hi then (pat k, if (k : ℚ) = ratOf (.fin b n d) then 0 else fNX) else (pat (if k < lo then lo else hi), fNV))) ∧
      (∀ l : List Val, l.length = 8 → (∀ v ∈ l, proper v) →
        let sc := (f4bBlock l r).2.1
        let scale := fun k => ratOf (dec e3m5 k)
        sc < 256 ∧
        ((∃ b, Val.inf b ∈ l) → scale sc = 63 / 2) ∧
        ((∀ b, Val.inf b ∉ l) → ∃ m : ℚ, 0 ≤ m ∧ (∀ v ∈ l, |ratOf v| ≤ m) ∧ (m = 0 ∨ ∃ v ∈ l, |ratOf v| = m) ∧
          (m / 6 ≤ scale sc ∨ sc = 255) ∧ (0 < sc → scale (sc - 1) < m / 6)) ∧
        ∃ us : List Val, List.Forall₂ (Divided (scale sc)) l us ∧
          (∀ j, j < 8 → (f4bBlock l r).1 / 2 ^ (4 * j) % 16 = (enc fp4 (us.getD j (.nan false)) r).1) ∧
          (f4bBlock l r).2.2 = us.foldl (fun f u => f ||| (enc fp4 u r).2) 0)) ∧
  (
    (∀ (d a : VIdx) (r : Rnd) (s : State), AllMembers (tagsEqual classF false [a]) s →
      let run := fun (f : Special) => ElementWise [a] d r false (fun l => l.getD 0 0) (fun l => special f (l.getD 0 (.nan false)))
      RunsInMembers (run .rcp) s (exec (.vrcp d a r) s) ∧
      RunsInMembers (run .rsq) s (exec (.vrsq d a r) s) ∧
      RunsInMembers (run .exp2) s (exec (.vexp2 d a r) s) ∧
      RunsInMembers (run .log2) s (exec (.vlog2 d a r) s) ∧
      RunsInMembers (run .tanh) s (exec (.vtanh d a r) s)) ∧
    (∀ (f : Special) (x : Val) (y : Val × Flags), specialInput f x = some y → special f x = y) ∧
    (∀ (neg : Bool) (n d : Nat), n ≠ 0 → special .rcp (.fin neg n d) = (.fin neg d n, 0)) ∧
    (∀ i : Int, -150 ≤ i → i ≤ 150 → special .exp2 (ofInt i) = (.fin false (2 ^ i.toNat) (2 ^ (-i).toNat), 0)) ∧
    (∀ i : Nat, special .log2 (.fin false (2 ^ i) 1) = (ofInt i, 0)) ∧
    (∀ i : Nat, i < 64 → special .rsq (.fin false (2 ^ (2 * i)) 1) = (.fin false (2 ^ (128 - i)) (2 ^ 128), 0)))

/-- R80, R104: a tag outside its set, in the leader or in any member of its vector gang, faults FORMAT, before any register is written. -/
def Obligations.WrongTagsFaultFormat : Prop :=
  ∀ (d a b c : VIdx) (r : Rnd) (z : Bool) (k : Cond) (o : RedOp) (p : BitVec 3) (t : BitVec 4) (x : Reg) (s : State),
    (s.th.broken && s.th.brokenVec) = false →
    let fails := fun (ok : Vector VReg 8 → Bool) (i : Instr) =>
      (ok s.th.vecs && (gangMembers s).all (fun m => ok m.2.2)) = false → exec i s = .next (takeFault { cause := .format } s)
    fails (tagsEqual classA false [a, b]) (.vadd d a b r) ∧ fails (tagsEqual classA false [a, b]) (.vsub d a b r) ∧
    fails (tagsEqual classA false [a, b]) (.vmul d a b r) ∧ fails (tagsEqual classA false [a, b, c]) (.vfma d a b c r) ∧
    fails (tagsEqual classA false [a, b, c]) (.vfms d a b c r) ∧ fails (tagsEqual classA z [a, b]) (.vmin d a b r z) ∧
    fails (tagsEqual classA z [a, b]) (.vmax d a b r z) ∧ fails (tagsEqual classA false [a]) (.vabs d a r) ∧
    fails (tagsEqual classA false [a]) (.vneg d a r) ∧
    fails (fun v => (resultTag v[a].tag v[b].tag).isSome) (.vand d a b) ∧ fails (fun v => (resultTag v[a].tag v[b].tag).isSome) (.vor d a b) ∧
    fails (fun v => (resultTag v[a].tag v[b].tag).isSome) (.vxor d a b) ∧ fails (fun v => (resultTag v[a].tag v[b].tag).isSome) (.vsel d a b c) ∧
    fails (tagsEqual isIntTag false [a, b]) (.vshl d a b) ∧ fails (tagsEqual isIntTag false [a, b]) (.vshr d a b) ∧
    fails (tagsEqual isIntTag false [a, b]) (.vsha d a b) ∧
    fails (tagsEqual (fun t => classA t || t == .e4m3 || t == .e5m2) (k == .lo || k == .hs) [a, b]) (.vcmp d a b k) ∧
    fails (fun v => v[a].tag != .f4b) (.vperm d a b) ∧
    fails (fun _ => (tagOfCode t.toNat).isSome && t != 9) (.vbcast d x t) ∧ fails (fun _ => (tagOfCode t.toNat).isSome) (.vtag d a t) ∧
    fails (tagsEqual classA z [a]) (.vred d a r z o) ∧ fails (tagsEqual classA z [a]) (.vscan d a r z o) ∧
    fails (fun v => (tagOfCode t.toNat).isSome && cvtTags d a p.toNat ((tagOfCode t.toNat).getD .raw) v) (.vcvt d a z p r t) ∧
    fails (dotTags d a b) (.vdot d a b r) ∧
    fails (tagsEqual classF false [a]) (.vrcp d a r) ∧ fails (tagsEqual classF false [a]) (.vrsq d a r) ∧
    fails (tagsEqual classF false [a]) (.vexp2 d a r) ∧ fails (tagsEqual classF false [a]) (.vlog2 d a r) ∧
    fails (tagsEqual classF false [a]) (.vtanh d a r) ∧
    fails (fun v => v[a].tag == .f4b) (.vscaleWrite d a x) ∧ fails (fun v => v[a].tag == .f4b) (.vscaleRead a x)

/-! ### Memory (08 R140 to R145, 09, 11) -/

namespace Sys2Proof.Say

def bytesOf : Size → Nat
  | .b => 1
  | .h => 2
  | .w => 4
  | .d => 8

/-- A loaded value (11 R191): unsigned with `.z`, else signed. -/
def loaded (z : Bool) (l : List Byte) : Word :=
  BitVec.ofInt 64 (if z = true ∨ leNat l < 2 ^ (8 * l.length - 1) then leNat l else (leNat l : Int) - 2 ^ (8 * l.length))

/-- A memory form of n bytes has run: beside memory, its times, copies and translations, only threads change; the issuing thread keeps all
    but the registers, the touched set and the program time that its form names; it leaves rotation unless its access was local (11 R191). -/
structure MemFrame (s t : State) (n : Nat) (here : Bool) : Prop where
  rest : t = { s with mem := t.mem, stores := t.stores, lines := t.lines, copies := t.copies, tlb := t.tlb, perf := t.perf, poison := t.poison,
                      empties := t.empties, waits := t.waits, berths := t.berths, vgangs := t.vgangs, floors := t.floors, tape := t.tape,
                      nfree := t.nfree }
  thread : t.th = { s.th with regs := t.th.regs, vecs := t.th.vecs, touched := t.th.touched, pts := t.th.pts, pc := s.th.pc + BitVec.ofNat 56 n,
                              wait := if here then s.th.wait else .reply, waited := if here then s.th.waited else 0 }
  time : s.th.pts ≤ t.th.pts

/-- Another thread's berth stands, but that its `aadd`, whose reply is on its way, may have lost its place last on its bytes (09 R176). -/
def BerthStands (s t : State) (b : Nat) : Prop :=
  Tbl.get? t.berths b = Tbl.get? s.berths b ∨
  ∃ x k n w, Tbl.get? s.berths b = some x ∧ x.ctx.wait = .added k n w ∧ Tbl.get? t.berths b = some { x with ctx := { x.ctx with wait := .reply } }

/-- No other thread, no full/empty bit and no waiting request changes. -/
structure Alone (s t : State) : Prop where
  others : ∀ b, b ≠ s.cur → BerthStands s t b
  bits : t.empties = s.empties
  waits : t.waits = s.waits

/-- The registers but for one general register. -/
def OnlyX (s t : State) (d : Reg) (v : Word) : Prop :=
  (∀ r, t.x r = if r = d ∧ r ≠ 0 then v else s.x r) ∧ t.th.vecs = s.th.vecs ∧ t.vgangs = s.vgangs

/-- What a load of the issuing thread reads at a key (09 R165): the purse's bytes; of a global line a usable copy, else what its home holds,
    where the stores of other threads settle first. -/
def ReadsAt (s : State) (k n : Nat) (bs : List Byte) : Prop :=
  if isPurse k then bs = memRead s.mem k n
  else
    let usable := fun (c : Copy) => c.line = k / 256 ∧ (if c.guest then c.holder / 256 = dieOf s.quad else c.holder = s.quad) ∧
      c.wts ≤ s.now ∧ s.now < c.lend ∧ s.T < c.gtick + 16
    (∃ c ∈ s.copies, usable c ∧ bs = (c.data.drop (k % 256)).take n) ∨
    ((∀ c ∈ s.copies, ¬usable c) ∧
      bs = latest (if s.stores.any (fun st => st.addr / 256 == k / 256 && st.tid != s.th.tid) then settleLine s (k / 256) else s) k n)

/-- A load stores nothing: every byte of a purse access reads as before; at most the line read has settled. -/
def LoadLeaves (s t : State) (k : Nat) : Prop :=
  (isPurse k = true → ∀ a, memGet t.mem a = memGet s.mem a) ∧ (t.mem = s.mem ∨ t.mem = (settleLine s (k / 256)).mem)

/-- Byte i of a word. -/
def byteOf (w : Word) (i : Nat) : Byte := BitVec.ofNat 8 (w.toNat / 256 ^ i)

/-- A sized load whose checks pass (11 R189 R191). -/
def LoadsX (len : Nat) (aw : Word) (d : Reg) (z : Size) (g : Bool) (s : State) (o : Result) : Prop :=
  ∀ k u, access1 s aw (bytesOf z) (bytesOf z) false needR = .ok (k, u) →
    ∃ t bs, o = .next t ∧ MemFrame s t len (isLocal s k) ∧ Alone s t ∧ t.th.touched = s.th.touched ∧ ReadsAt s k (bytesOf z) bs ∧
      OnlyX s t d (loaded g bs) ∧ LoadLeaves s t k

/-- A sized store whose checks pass (09 R168, 11 R191): published at once in a purse; cleared, and settled later, at a global line, unless the
    sector is poisoned (17 R309). -/
def StoresX (len : Nat) (aw : Word) (d : Reg) (z : Size) (s : State) (o : Result) : Prop :=
  ∀ k u, access1 s aw (bytesOf z) (bytesOf z) false needW = .ok (k, u) →
    ∃ t, o = .next t ∧ MemFrame s t len (isLocal s k) ∧ Alone s t ∧ OnlyX s t 0 0 ∧
      (isPurse k = true → t.stores = s.stores ∧ t.th.touched = s.th.touched ∧
        ∀ a, memGet t.mem a = if k ≤ a ∧ a < k + bytesOf z then byteOf (s.x d) (a - k) else memGet s.mem a) ∧
      (isPurse k = false → t.th.touched = s.th.touched.add (homeOf s k)) ∧
      (isPurse k = false → poisoned s k (bytesOf z) = false →
        (∃ w, t.stores = s.stores ++ [{ tid := s.th.tid, addr := k, bytes := (List.range (bytesOf z)).map (byteOf (s.x d)), wts := w }]) ∧
        ∀ a, memGet t.mem a = memGet s.mem a) ∧
      (isPurse k = false → poisoned s k (bytesOf z) = true → ∀ st ∈ t.stores, st.addr / 256 ≠ k / 256)

/-- Each member's access at 32 bytes from the one before, checked in member order and before any member reads or writes (06 R108, 11 R189): the keys,
    and the state whose caches hold the translations. -/
def MembersAt (aw : Word) (nd : Need) (owr : Bool) : List (Nat × Option Nat) → State → List (Option Nat × Nat) → State → Prop
  | [], s, l, u => l = [] ∧ u = s
  | (m, who) :: r, s, l, u => ∃ k n v l', access s (aw + BitVec.ofNat 64 (32 * m)) 32 32 false nd owr 64 = .ok ([(k, n)], v) ∧ l = (who, k) :: l' ∧
      MembersAt aw nd owr r v l' u

/-- The tags that the format codes of `ldv` name (11 R192). -/
def ldvTags : List Tag := [.i8, .e4m3, .e5m2, .f4b, .fp16, .bf16, .i32, .fp32]

/-- A vector register as a load leaves it. -/
def loadedV (t : Tag) (bs : List Byte) : VReg := { data := BitVec.ofNat 256 (leNat bs), tag := t, side := 0 }

/-- A vector load in the issuing thread and in every member of a vector gang it leads, at 32 bytes for each (11 R192, 06 R108). -/
def LoadsV (len : Nat) (aw : Word) (d : VIdx) (f : BitVec 3) (s : State) (o : Result) : Prop :=
  ∀ l u, (s.th.broken && s.th.brokenVec) = false →
    (∀ g, Tbl.get? s.vgangs s.cur = some g → g.members.map (·.1) = (List.range g.size).filter (· != g.index)) →
    MembersAt aw needR false (memberList s) s l u →
    ∃ t, o = .next t ∧ MemFrame s t len (l.all (fun e => isLocal s e.2)) ∧ Alone s t ∧ t.th.regs = s.th.regs ∧
      ((∀ e ∈ l, isPurse e.2 = true) → (∀ a, memGet t.mem a = memGet s.mem a) ∧
        ∀ e ∈ l, memberReg t e.1 d = loadedV (ldvTags.getD f.toNat .raw) (memRead s.mem e.2 32)) ∧
      (l.length = 1 → ∀ e ∈ l, e.1 = none → ∃ bs, ReadsAt s e.2 32 bs ∧ LoadLeaves s t e.2 ∧ SetsV d (loadedV (ldvTags.getD f.toNat .raw) bs) s.th.vecs t.th.vecs)

/-- A vector store (11 R192): each member's 32 bytes, in member order. -/
def StoresV (len : Nat) (aw : Word) (d : VIdx) (s : State) (o : Result) : Prop :=
  ∀ l u, (s.th.broken && s.th.brokenVec) = false → MembersAt aw needW true (memberList s) s l u →
    ∃ t, o = .next t ∧ MemFrame s t len (l.all (fun e => isLocal s e.2)) ∧ Alone s t ∧ OnlyX s t 0 0 ∧
      ((∀ e ∈ l, isPurse e.2 = true) →
        t.mem = l.foldl (fun m e => memWrite m e.2 ((List.range 32).map (fun i => BitVec.ofNat 8 ((memberReg s e.1 d).data.toNat / 256 ^ i)))) s.mem) ∧
      ((∀ e ∈ l, isPurse e.2 = false) → s.poison = [] → t.mem = s.mem ∧
        (t.stores.map (fun st => (st.tid, st.addr, st.bytes))) = s.stores.map (fun st => (st.tid, st.addr, st.bytes)) ++
          l.map (fun e => (s.th.tid, e.2, (List.range 32).map (fun i => BitVec.ofNat 8 ((memberReg s e.1 d).data.toNat / 256 ^ i)))))

/-- `vld2` (05 R100): 64 bytes into the pair vd, vd + 1; the leader alone. -/
def LoadsPair (len : Nat) (aw : Word) (d : VIdx) (f : BitVec 3) (s : State) (o : Result) : Prop :=
  ∀ ks u, d.val % 2 = 0 → (s.th.broken && s.th.brokenVec) = false → access s aw 64 32 false needR false 32 = .ok (ks, u) →
    ∃ t, o = .next t ∧ MemFrame s t len (ks.all (fun k => isLocal s k.1)) ∧ Alone s t ∧ t.th.regs = s.th.regs ∧ t.vgangs = s.vgangs ∧
      ∃ bs, bs = (clrLoads ks u).1 ∧ (ks.all (fun k => isPurse k.1) = true → bs = ks.flatMap (fun k => memRead s.mem k.1 k.2) ∧ ∀ a, memGet t.mem a = memGet s.mem a) ∧
        ∀ k : VIdx, t.th.vecs[k] =
          let tag := [Tag.i8, .e4m3, .e5m2, .i16, .fp16, .bf16, .i32, .fp32].getD f.toNat .raw
          if k = d then loadedV tag (bs.take 32)
          else if k = d + 1 then loadedV tag (bs.drop 32)
          else s.th.vecs[k]

/-- Every store of the issuing thread is published (09 R168 R172). -/
def Published (s t : State) : Prop := ∀ st ∈ t.stores, st.tid ≠ s.th.tid

/-- An atomic of n bytes whose checks pass (11 R198 R199): it publishes, reads the old value and writes the new one at the bank. P says what becomes of
    the threads. -/
def AtomicAt (n : Nat) (g : Bool) (d a : Reg) (f : Nat → Nat) (P : Nat → State → Prop) (s : State) (o : Result) : Prop :=
  ∀ k u, access1 s (s.x a) n n false needRW = .ok (k, u) →
    ∃ t, o = .next t ∧ P k t ∧ Published s t ∧
      let m := if isPurse k then (publish .module u).mem else (settleLine (publish .module u) (k / 256)).mem
      let old := memRead m k n
      OnlyX s t d (loaded g old) ∧
      (∀ x, memGet t.mem x = if k ≤ x ∧ x < k + n then BitVec.ofNat 8 (f (leNat old) / 256 ^ (x - k)) else memGet m x) ∧
      (hasStores s = false → isPurse k = true → m = s.mem)

def AtomicX (n : Nat) (g : Bool) (d a : Reg) (f : Nat → Nat) (s : State) (o : Result) : Prop :=
  AtomicAt n g d a f (fun k t => MemFrame s t 4 (isLocal s k && !hasStores s) ∧ Alone s t) s o

/-- An `aadd` at a global key: its thread waits for a reply that carries its clearing time, and a thread whose `aadd` of the same bytes it has met on its
    way is raised to that time (01 R17, 09 R176). -/
structure AddsAt (s t : State) (k n : Nat) : Prop where
  rest : t = { s with mem := t.mem, stores := t.stores, lines := t.lines, tlb := t.tlb, perf := t.perf, berths := t.berths, floors := t.floors,
                      tape := t.tape, nfree := t.nfree }
  met : ∃ time, s.th.pts ≤ t.th.pts ∧ time ≤ t.th.pts ∧
    t.th = { s.th with regs := t.th.regs, touched := t.th.touched, pts := t.th.pts, pc := s.th.pc + 4, wait := .added k n time, waited := 0 } ∧
    ∀ b, b ≠ s.cur → BerthStands s t b ∨
      ∃ before, (s.ctx b).wait = .added k n before ∧ t.ctx b = { s.ctx b with pts := max (s.ctx b).pts time, wait := .added k n time }

end Sys2Proof.Say

/-- R140, R142, R188, R189: how the three purse forms of an address word name a byte of a purse, and the faults of a word that names none: ALIGN
    before the place is looked at, ACCESS beyond 192 KiB or outside the region, POISON last. -/
def Obligations.PurseAddressesNameTheirBytes : Prop :=
  ∀ (s : State) (off f r n : Nat) (p : Bool) (nd : Need), off < 2 ^ 18 → f < 2 ^ 18 → r < 64 → n ∈ [1, 2, 4, 8, 16, 32] →
    let own := BitVec.ofNat 64 (2 * 2 ^ 56 + off)
    let full := BitVec.ofNat 64 (f * 2 ^ 18 + off)
    let clus := BitVec.ofNat 64 (2 ^ 56 + r * 2 ^ 18 + off)
    let at_ := fun (aw : Word) (q : Nat) =>
      (off % n ≠ 0 → access1 s aw n n p nd = .error (.fault { cause := .align, addr := aw })) ∧
      (off % n = 0 → 0x30000 < off + n → access1 s aw n n p nd = .error (.fault { cause := .access, addr := aw })) ∧
      (off % n = 0 → off + n ≤ 0x30000 → heldTile s (purseKey q off) n = false → poisoned s (purseKey q off) n = false →
        access1 s aw n n p nd = .ok (purseKey q off, s)) ∧
      (off % n = 0 → off + n ≤ 0x30000 → heldTile s (purseKey q off) n = false → poisoned s (purseKey q off) n = true →
        access1 s aw n n p nd = .error (.fault { cause := .poison, addr := aw } (some s)))
    at_ own s.quad ∧
    (∀ q, s.net.ofForm s f = some q → at_ full q) ∧
    (s.net.ofForm s f = none → off % n = 0 → access1 s full n n p nd = .error (.fault { cause := .access, addr := full })) ∧
    (∀ q, s.net.toPhys s (8 * ((s.net.place s s.quad).1 / 8) + r % 8) (8 * ((s.net.place s s.quad).2 / 8) + r / 8) = some q → at_ clus q)

/-- R188, R191: the sized loads and stores, in both lengths, once their checks pass.

    R188, R189: a load or store whose checks fail takes that fault and changes no memory and no register; one whose sub-tile is held, or that is
    answered REHOME, leaves rotation with the pc on it. What its page walk did stands (R155, R331). -/
def Obligations.SizedLoadsAndStoresCompleteOrFault : Prop :=
  (
    ∀ (d a : Reg) (z : Size) (g : Bool) (o : BitVec 12) (p : BitVec 40) (s : State),
      LoadsX 4 (BitVec.ofInt 64 ((s.x a).toInt + o.toInt)) d z g s (exec (.ld d a z g o) s) ∧
      LoadsX 8 (BitVec.ofInt 64 ((s.x a).toInt + p.toInt)) d z g s (exec (.ldExt d a z g p) s) ∧
      StoresX 4 (BitVec.ofInt 64 ((s.x a).toInt + o.toInt)) d z s (exec (.st d a z o) s) ∧
      StoresX 8 (BitVec.ofInt 64 ((s.x a).toInt + p.toInt)) d z s (exec (.stExt d a z p) s)) ∧
  (
    ∀ (d a : Reg) (z : Size) (g : Bool) (o : BitVec 12) (s : State),
      let aw := BitVec.ofInt 64 ((s.x a).toInt + o.toInt)
      let stops := fun (nd : Need) (i : Instr) =>
        let e := access1 s aw (bytesOf z) (bytesOf z) false nd
        (∀ f left, e = .error (.fault f left) → exec i s = .next (takeFault f (left.getD s)) ∧ (left.getD s).mem = s.mem ∧ (left.getD s).stores = s.stores ∧
          (left.getD s).th.regs = s.th.regs ∧ (left.getD s).th.vecs = s.th.vecs) ∧
        (∀ w left, e = .error (.wait w left) → (w = .held ∨ ∃ pa, w = .rehomed pa) ∧
          ∃ t, exec i s = .next t ∧ t.mem = s.mem ∧ t.stores = s.stores ∧ t.th = { s.th with wait := w, waited := 0 })
      stops needR (.ld d a z g o) ∧ stops needW (.st d a z o))

/-- R100, R192, R108: the vector loads and stores, in both lengths, once their checks pass. -/
def Obligations.VectorLoadsAndStoresComplete : Prop :=
  ∀ (d : VIdx) (a : Reg) (f : BitVec 3) (o : BitVec 12) (p : BitVec 40) (s : State),
    let near := BitVec.ofInt 64 ((s.x a).toInt + o.toInt)
    let far := BitVec.ofInt 64 ((s.x a).toInt + p.toInt)
    LoadsV 4 near d f s (exec (.ldv d a f o) s) ∧ LoadsV 8 far d f s (exec (.ldvExt d a f p) s) ∧
    StoresV 4 near d s (exec (.stv d a o) s) ∧ StoresV 8 far d s (exec (.stvExt d a p) s) ∧
    LoadsPair 4 near d f s (exec (.vld2 d a f o) s) ∧ LoadsPair 8 far d f s (exec (.vld2Ext d a f p) s)

/-- R193 to R196: `feq` reads a granule's bit; `stf` publishes, stores and fills, serving the first waiting `ldc`; `fez` empties; `ldc` and `ldf` read
    a full granule, `ldc` emptying it, and wait on an empty one with the pc on them. That publishing takes a thread out of rotation for stores that have
    not settled alone is log entry 92. -/
def Obligations.FullEmptyFormsComplete : Prop :=
  ∀ (d a : Reg) (z : Size) (g : Bool) (o : BitVec 12) (p : BitVec 40) (s : State) (k : Nat) (u : State),
    let near := BitVec.ofInt 64 ((s.x a).toInt + o.toInt)
    let far := BitVec.ofInt 64 ((s.x a).toInt + p.toInt)
    let n := bytesOf z
    let full := fun (t : State) => k / 16 ∉ t.empties
    let othersBits := fun (t : State) => ∀ h, h ≠ k / 16 → (h ∈ t.empties ↔ h ∈ s.empties)
    let feq := fun (len : Nat) (aw : Word) (i : Instr) => access1 s aw 1 1 true needR = .ok (k, u) →
      ∃ t, exec i s = .next t ∧ MemFrame s t len (isLocal s k) ∧ Alone s t ∧ OnlyX s t d (if k / 16 ∈ s.empties then 0 else 1) ∧
        ∀ x, memGet t.mem x = memGet s.mem x
    let fez := fun (len : Nat) (aw : Word) (i : Instr) => access1 s aw 1 1 true needW = .ok (k, u) →
      ∃ t, exec i s = .next t ∧ MemFrame s t len (isLocal s k && !hasStores s) ∧ Published s t ∧ OnlyX s t 0 0 ∧ ¬full t ∧ othersBits t ∧
        t.mem = (publish .module u).mem
    let stf := fun (len : Nat) (aw : Word) (i : Instr) => access1 s aw n n true needW = .ok (k, u) →
      ∃ t, exec i s = .next t ∧ Published s t ∧
        (∀ x, memGet t.mem x = if k ≤ x ∧ x < k + n then byteOf (s.x d) (x - k) else memGet (publish .module u).mem x) ∧ othersBits t ∧
        ((∀ r ∈ Tbl.getD s.waits (keyQuad k) [], r.key / 16 ≠ k / 16) → full t ∧ MemFrame s t len (isLocal s k && !hasStores s) ∧
          (∀ b, b ≠ s.cur → Tbl.get? t.berths b = Tbl.get? s.berths b) ∧ OnlyX s t 0 0) ∧
        (∀ r rest, Tbl.getD s.waits (keyQuad k) [] = r :: rest → r.key / 16 = k / 16 → r.clear = true → r.berth ≠ s.cur → s.poison = [] →
          ¬full t ∧ (t.ctx r.berth).wait = .ready ∧ (t.ctx r.berth).pc = (s.ctx r.berth).pc + BitVec.ofNat 56 r.len ∧
          (r.rd ≠ 0 → (t.ctx r.berth).regs[r.rd] = loaded r.zext (memRead t.mem r.key r.n)))
    let ldx := fun (clear : Bool) (len : Nat) (aw : Word) (i : Instr) => access1 s aw n n true needRW = .ok (k, u) →
      let m := (if clear then publish .module u else u).mem
      (full s → ∃ t, exec i s = .next t ∧ MemFrame s t len (isLocal s k && !(clear && hasStores s)) ∧ (clear = true → Published s t) ∧
        OnlyX s t d (loaded g (memRead m k n)) ∧ t.mem = m ∧ othersBits t ∧ (full t ↔ clear = false) ∧
        ∀ b, b ≠ s.cur → Tbl.get? t.berths b = Tbl.get? s.berths b) ∧
      (¬full s → ∃ t r, exec i s = .next t ∧ t.th.pc = s.th.pc ∧ OnlyX s t 0 0 ∧ t.mem = m ∧
        r = ({ berth := s.cur, tid := s.th.tid, key := k, n := n, zext := g, rd := d, clear := clear, len := len } : ParkReq) ∧
        if (Tbl.getD s.waits (keyQuad k) []).length < 128
        then t.th.wait = .parked r ∧ Tbl.getD t.waits (keyQuad k) [] = Tbl.getD s.waits (keyQuad k) [] ++ [r]
        else t.th.wait = .refused r ∧ t.waits = s.waits)
    feq 4 near (.feq d a o) ∧ feq 8 far (.feqExt d a p) ∧ fez 4 near (.fez a o) ∧ fez 8 far (.fezExt a p) ∧
    stf 4 near (.stf d a z o) ∧ stf 8 far (.stfExt d a z p) ∧
    ldx true 4 near (.ldc d a z g o) ∧ ldx true 8 far (.ldcExt d a z g p) ∧
    ldx false 4 near (.ldf d a z g o) ∧ ldx false 8 far (.ldfExt d a z g p)

/-- R198, R199, R17, R176: the eight atomics, of 4 or 8 bytes; an `aadd` at a global address may have met others of the same bytes.
    That publishing takes the thread out of rotation for stores that have not settled alone is log entry 92. -/
def Obligations.AtomicsReadModifyWrite : Prop :=
  ∀ (d a b : Reg) (dbl g : Bool) (s : State),
    let n := if dbl then 8 else 4
    let B := (s.x b).toNat % 2 ^ (8 * n)
    AtomicAt n false d a (fun m => (m + B) % 2 ^ (8 * n))
      (fun k t => if isPurse k then MemFrame s t 4 (isLocal s k && !hasStores s) ∧ Alone s t else AddsAt s t k n) s (exec (.aadd d a b dbl) s) ∧
    AtomicX n false d a (fun m => m &&& B) s (exec (.aand d a b dbl) s) ∧
    AtomicX n false d a (fun m => m ||| B) s (exec (.aor d a b dbl) s) ∧
    AtomicX n false d a (fun m => m ^^^ B) s (exec (.axor d a b dbl) s) ∧
    AtomicX n g d a (fun m => if asInt g (8 * n) m ≤ asInt g (8 * n) B then m else B) s (exec (.amin d a b dbl g) s) ∧
    AtomicX n g d a (fun m => if asInt g (8 * n) m ≤ asInt g (8 * n) B then B else m) s (exec (.amax d a b dbl g) s) ∧
    AtomicX n false d a (fun _ => B) s (exec (.aswp d a b dbl) s) ∧
    AtomicX n false d a (fun m => if m = (s.x d).toNat % 2 ^ (8 * n) then B else m) s (exec (.acas d a b dbl) s)

/-- R197: `pref` completes whatever its address: it takes no fault and moves the pc, and no register, no program time and no other thread changes. With
    target q it may settle the line that its address word names and bring a copy of it, and of no other; a translation that it misses is made. With
    target v, and where the address word names no line that the thread may load, memory, its stores, times and copies stand as they are.

    R166, R170, R171, R205, R206: a fence completes in every scope and order, out of rotation until its reply. With a release it publishes the thread's
    stores of its scope: memory and the stores that are left are those of that publication, whose lines settle whole and in order, and no store of the
    thread in the scope is left. With an acquire it raises the program time past every lease of the quad's data cache and of the die's guest lines.
    Nothing else changes. -/
def Obligations.PrefetchesAndFencesComplete : Prop :=
  (
    ∀ (a : Reg) (v : Bool) (o : BitVec 12) (p : BitVec 40) (s : State),
      let runs := fun (len : Nat) (aw : Word) (i : Instr) =>
        let names := fun (line : Nat) => v = false ∧ ∃ va pa u, formOf aw = some (.glob va) ∧ globAccess s s.quad s.th.net va 1 needR = .ok (pa, u) ∧ line = pa / 256
        s.th.wait = .ready → ∃ t, exec i s = .next t ∧
          t = { s with mem := t.mem, stores := t.stores, lines := t.lines, copies := t.copies, tlb := t.tlb, perf := t.perf, berths := t.berths, tape := t.tape,
                       nfree := t.nfree, stalePorts := t.stalePorts } ∧
          t.th = { s.th with pc := s.th.pc + BitVec.ofNat 56 len } ∧ (∀ b, b ≠ s.cur → BerthStands s t b) ∧
          ((t.mem = s.mem ∧ t.stores = s.stores) ∨ ∃ line, names line ∧ t.mem = (settleLine s line).mem ∧ t.stores = (settleLine s line).stores) ∧
          (∀ c ∈ t.copies, c ∈ s.copies ∨ names c.line) ∧ (∀ l, Tbl.get? t.lines l = Tbl.get? s.lines l ∨ names l) ∧
          ((∀ line, ¬names line) → t.mem = s.mem ∧ t.stores = s.stores ∧ t.lines = s.lines ∧ t.copies = s.copies ∧ t.tape = s.tape ∧ t.nfree = s.nfree ∧
            t.stalePorts = s.stalePorts)
      runs 4 (s.ea a o) (.pref a v o) ∧ runs 8 (s.ea a p) (.prefExt a v p)) ∧
  (
    ∀ (c : Scope) (o : Order) (s : State),
      let runs := fun (rel acq : Bool) (c : Scope) (i : Instr) =>
        let inScope := fun (st : Store) => st.tid = s.th.tid ∧
          match c with
          | .quad => homeOf s st.addr = clusterOf s.quad
          | .die => homeOf s st.addr / 256 = dieOf s.quad
          | _ => True
        let settled := fun (st : Store) => ∃ x ∈ s.stores, inScope x ∧ x.addr / 256 = st.addr / 256
        ∃ t, exec i s = .next t ∧ t = { s with mem := t.mem, stores := t.stores, berths := t.berths, floors := t.floors } ∧
          (∀ b, b ≠ s.cur → Tbl.get? t.berths b = Tbl.get? s.berths b) ∧
          t.th = { s.th with touched := t.th.touched, pts := t.th.pts, pc := s.th.pc + 4, wait := .reply, waited := 0 } ∧ s.th.pts ≤ t.th.pts ∧
          (rel = true → t.mem = (publish c s).mem ∧ t.stores = (publish c s).stores ∧ t.th.touched = (publish c s).th.touched ∧
            (∀ st, st ∈ t.stores ↔ st ∈ s.stores ∧ ¬settled st) ∧
            (∀ x, (∀ st ∈ s.stores, settled st → ¬(st.addr ≤ x ∧ x < st.addr + st.bytes.length)) → memGet t.mem x = memGet s.mem x) ∧
            ∀ l st r x, s.stores = l ++ st :: r → settled st → st.addr ≤ x → x < st.addr + st.bytes.length →
              (∀ y ∈ r, settled y → ¬(y.addr ≤ x ∧ x < y.addr + y.bytes.length)) → memGet t.mem x = st.bytes.getD (x - st.addr) 0) ∧
          (rel = false → t.mem = s.mem ∧ t.stores = s.stores ∧ t.th.touched = s.th.touched) ∧
          (acq = true → s.T ≤ t.th.pts ∧ ∀ x ∈ s.copies, (if x.guest then x.holder / 256 = dieOf s.quad else x.holder = s.quad) → x.lend ≤ t.th.pts) ∧
          (acq = false → t.th.pts = s.th.pts ∧ t.floors = s.floors)
      runs (o != .acq) (o != .rel) c (.fence c o) ∧ runs true true .module .fenceb)

/-! ### link and grab (02 R39 to R42, 11 R200 to R204) -/

namespace Sys2Proof.Say

/-- A `link` or `grab` has ended: the pc has moved on, the thread is out of rotation until its reply, and every earlier write of it is published. -/
def EndsAway (s t : State) : Prop := t.th.pc = s.th.pc + 4 ∧ t.th.wait = .reply ∧ t.cur = s.cur

/-- The double at a memory key. -/
def wordAt (m : List Host.Cell) (k : Nat) : Word := bytesWord (memRead m k 8)

/-- The slot of port x lies at a purse key, where the thread may read and write it. -/
def SlotAt (s : State) (x : Word) (k : Nat) : Prop := isPurse k = true ∧ ∃ u, slotKey s x = .ok (some k, u)

/-- A cell that a REDIR word names lies at a purse key. -/
def CellAt (s : State) (w : Word) (c : Nat) : Prop := isPurse c = true ∧ ∃ u, access1 s (addrOf w) 16 1 false needRW = .ok (c, u)

/-- A port that a wire can lead to (02 R27): AUXP, PRIN or IMM, of good form. -/
def Port (x : Word) : Prop := portOk x = true ∧ tagOf x ∈ [1, 2, 5]

/-- Two ports that react once they are wired (02 R42). -/
def Redex (x y : Word) : Prop := tagOf x ∈ [2, 5] ∧ tagOf y ∈ [2, 5]

/-- n bytes at k and m bytes at j share none. -/
def Apart (k n j m : Nat) : Prop := k + n ≤ j ∨ j + m ≤ k

/-- t's memory is m but for doubles written at keys, each given with its word. -/
def Writes (m : List Host.Cell) (t : State) (l : List (Nat × Word)) : Prop :=
  (∀ e ∈ l, wordAt t.mem e.1 = e.2) ∧ ∀ a, (∀ e ∈ l, a < e.1 ∨ e.1 + 8 ≤ a) → memGet t.mem a = memGet m a

/-- A side of a redex, whose header the `link` reads where it is a node's, is a RANGE node or not (02 R34); the header is well formed and lies at a
    purse key apart from the bytes that the `link` writes. -/
def SideAt (s : State) (m : List Host.Cell) (x : Word) (range : Bool) (writes : List (Nat × Nat)) : Prop :=
  (tagOf x ≠ 2 ∧ range = false) ∨
  (tagOf x = 2 ∧ ∃ k u, access1 s (addrOf x) 8 1 false needR = .ok (k, u) ∧ isPurse k = true ∧ headerOk (wordAt m k) = true ∧
    range = (hdrKind (wordAt m k) == 0xFE) ∧ ∀ w ∈ writes, Apart k 8 w.1 w.2)

/-- One redex of the issuing thread's has entered its quad's deque, with half of the thread's coin, of type 1 where a side is a RANGE node. -/
def Pushes (s t : State) (x y : Word) (range : Bool) : Prop :=
  ∃ r, t.deque s.quad = s.deque s.quad ++ [r] ∧ r.a = x ∧ r.b = y ∧ r.net = s.th.net ∧ r.cls = s.th.cls ∧ r.coin = s.th.coin / 2 ∧
    r.coin + t.th.coin = s.th.coin ∧ r.typ = if range then 1 else 0

/-- No other `link` of the thread's net is in progress with a side at a port. -/
def Unfaced (s : State) (x : Word) : Prop :=
  ∀ e ∈ s.berths, ∀ p, e.1 ≠ s.cur → e.2.ctx.net = s.th.net → e.2.ctx.wait = .link p → ∀ y ∈ p.sides, y.port ≠ x

/-- The side that an old end gives a `link`'s wire: its far port, which holds the old end's word, reached through its slot and its cell. -/
def farSide (q : Nat) (o : OldEnd) : WireSide := { port := o.far, exp := o.slot, face := some o.slot, cell := some (purseKey q o.cell) }

/-- A `link` whose old ends are all redirected, with two sides. -/
def Joining (p : LinkProg) (l r : WireSide) : Prop :=
  (∀ o ∈ p.olds, o.claimed = true ∧ o.redirected = true) ∧ (∀ x y, p.olds = [x, y] → ¬(x.far = y.slot ∧ y.far = x.slot)) ∧
  p.resolved = false ∧ p.gone = none ∧ p.sides = [l, r]

/-- A slot that is still to be written on a side: the port has a slot and the half-join has not been made. -/
def Open (x : WireSide) : Prop := x.made = false ∧ tagOf x.port ∈ [1, 2]

/-- The own slot of a side, where it has one, has not been emptied. -/
def OwnSlotStands (s : State) (x : WireSide) : Prop :=
  ∀ a, x.face = some a → tagOf a = 1 ∧ ∃ k, SlotAt s a k ∧ wordAt s.mem k ≠ 0 ∧ portOk (wordAt s.mem k) = true

/-- A push by the issuing thread needs no borrow and no spill. -/
def RoomToPush (s : State) : Prop := 2 ≤ s.th.coin ∧ s.netStateAt s.th.net s.quad ≠ .parked ∧ (s.deque s.quad).length < 256

end Sys2Proof.Say

/-- R204: `grab` reads the far port of an old end and, of a principal far port, the header of its node; it writes no memory. Of an IMM far port the
    kind alone is checked, by R23. -/
def Obligations.GrabReadsTheFarPort : Prop :=
  ∀ (d a h : Reg) (s u : State) (k : Nat), (d = h → d = 0) → endOk true (s.x a) = true →
    access1 s (addrOf (s.x a)) 8 1 false needR = .ok (k, u) →
    let l := clrLoad k 8 u
    let p := bytesWord l.1
    let regs := fun (t : State) (hd : Word) => ∀ r, t.x r = if r = 0 then 0 else if r = h then hd else if r = d then p else s.x r
    (portOk p = true ∧ tagOf p = 1 ∨ tagOf p = 5 ∧ kindOk (immKind p) = true → ∃ t, exec (.grab d a h) s = .next t ∧ EndsAway s t ∧ regs t 0 ∧ t.mem = l.2.mem) ∧
    (∀ k' u', portOk p = true → tagOf p = 2 → access1 l.2 (addrOf p) 8 1 false needR = .ok (k', u') → headerOk (bytesWord (clrLoad k' 8 u').1) = true →
      ∃ t, exec (.grab d a h) s = .next t ∧ EndsAway s t ∧ regs t (bytesWord (clrLoad k' 8 u').1) ∧ t.mem = (clrLoad k' 8 u').2.mem) ∧
    (isPurse k = true → l.1 = memRead s.mem k 8 ∧ l.2.mem = s.mem)

/-- R42, R200 to R202, R34, R30: a `link` of two new ends writes each end's slot, and pushes exactly one redex, with half of the thread's coin and of
    type 1 where a side is a RANGE node, when both ends are principal or inline; for that it reads the header of a side that is a node, and one that
    breaks R30 faults LINK_CORRUPT with LNK set. A wire that closes on itself leaves both slots EMPTY and pushes nothing. Both give their cells
    back. A `link` of an old and a new end, whose far port holds the old end's word, redirects the old slot and wires far port and new end to each
    other. How many of a `link`'s acts one step performs is the model's (log entry 2).

    R39, R40, R201: a `link` with old ends runs from the program that names them. Its acts are atomic: the claim of an old end exchanges its slot with
    HOLD, and one that returns no port faults LINK_CORRUPT after the claim, with LNK set (of one that returns REDIR that is log entry 90); the
    redirect fills the end's cell with the port to reach and what that port's slot holds, and puts REDIR into the slot; the last redirect leaves the
    two half-joins to be made. That one step may stop after any act is the model's (log entry 2). -/
def Obligations.LinksJoinTheirEnds : Prop :=
  (
    ∀ (d a b : Reg) (s u : State),
      let q := s.quad
      let A := s.x a
      let B := s.x b
      let m := (publish .module u).mem
      let hold := BitVec.ofNat 64 (4 * 2 ^ 60)
      let status := fun (t : State) (v : Nat) => ∀ r, t.x r = if r = d ∧ r ≠ 0 then BitVec.ofNat 64 v else s.x r
      let budget := fun (n : Nat) => ∀ k, s.linkBudget = some k → n ≤ k
      (∀ ka kb, linkChecks A B false false s = .ok (ka, kb, [], u) →
        let w := publish .module u
        let w := match ka with | some k => writeSlot k B w | none => w
        let w := match kb with | some k => writeSlot k A w | none => w
        (¬Redex A B →
          ∃ t, exec (.link d a b false false) s = .next t ∧ EndsAway s t ∧ status t 0 ∧ t.mem = w.mem ∧ t.deques = s.deques ∧ t.th.coin = s.th.coin) ∧
        (∀ ra rb w1 w2, Redex A B → RoomToPush s → rangeSide A w = .ok (ra, w1) → rangeSide B w1 = .ok (rb, w2) →
          ∃ t, exec (.link d a b false false) s = .next t ∧ EndsAway s t ∧ status t 1 ∧ t.mem = w2.mem ∧ Pushes s t A B (ra || rb)) ∧
        (∀ f left, Redex A B → rangeSide A w = .error (.fault f left) → exec (.link d a b false false) s = .next (takeFault { f with lnk := true } (left.getD w))) ∧
        (∀ f left ra w1, Redex A B → rangeSide A w = .ok (ra, w1) → rangeSide B w1 = .error (.fault f left) →
          exec (.link d a b false false) s = .next (takeFault { f with lnk := true } (left.getD w1)))) ∧
      (∀ (v x : State) (w : Word) k, (tagOf w ≠ 2 → rangeSide w v = .ok (false, v)) ∧
        (tagOf w = 2 → access1 v (addrOf w) 8 1 false needR = .ok (k, x) →
          let h := clrLoad k 8 x
          (headerOk (bytesWord h.1) = true → rangeSide w v = .ok (hdrKind (bytesWord h.1) == 0xFE, h.2)) ∧
          (headerOk (bytesWord h.1) = false → rangeSide w v = .error (.fault { cause := .linkCorrupt } (some h.2))))) ∧
      (∀ k1 k2 o1 o2, linkChecks A B true true s = .ok (some k1, some k2, [o1, o2], u) → isPurse k1 = true → isPurse k2 = true → Apart k1 8 k2 8 → budget 2 →
        wordAt m k1 = B → wordAt m k2 = A →
        ∃ t, exec (.link d a b true true) s = .next t ∧ EndsAway s t ∧ status t 0 ∧ t.deques = s.deques ∧ t.th.coin = s.th.coin ∧
          Writes m t [(k1, 0), (k2, 0)] ∧ (t.netq s.th.net q).cells = (s.netq s.th.net q).cells) ∧
      (∀ (oldFirst : Bool) k kb kp off rn rf,
        let old := if oldFirst then A else B
        let new := if oldFirst then B else A
        let cell := purseKey q off
        let far := wordAt m k
        linkChecks A B oldFirst (!oldFirst) s = .ok (if oldFirst then (some k, some kb, [off], u) else (some kb, some k, [off], u)) →
        isPurse k = true → isPurse kb = true → off + 16 ≤ 0x30000 → Port far → SlotAt u far kp → wordAt m kp = old → wordAt m kb = hold → budget 4 →
        Apart k 8 kb 8 → Apart k 8 kp 8 → Apart kb 8 kp 8 → Apart k 8 cell 16 → Apart kb 8 cell 16 → Apart kp 8 cell 16 → Unfaced s old →
        let ends := fun (t : State) => EndsAway s t ∧ Writes m t [(kp, new), (kb, far), (k, s.net.port s 3 q off), (cell, new), (cell + 8, hold)] ∧
          (t.netq s.th.net q).cells = (s.netq s.th.net q).cells
        (¬Redex new far → ∃ t, exec (.link d a b oldFirst (!oldFirst)) s = .next t ∧ ends t ∧ status t 0 ∧ t.deques = s.deques ∧ t.th.coin = s.th.coin) ∧
        (Redex new far → RoomToPush s → SideAt u m new rn [(k, 8), (kb, 8), (kp, 8), (cell, 16)] → SideAt u m far rf [(k, 8), (kb, 8), (kp, 8), (cell, 16)] →
          ∃ t, exec (.link d a b oldFirst (!oldFirst)) s = .next t ∧ ends t ∧ status t 1 ∧ Pushes s t new far (rn || rf)))) ∧
  (
    (∀ (d a b : Reg) (s u : State) (ka kb : Option Nat),
      let start := fun (slot : Word) (off : Nat) => ({ slot := slot, cell := off } : OldEnd)
      (∀ off, linkChecks (s.x a) (s.x b) true false s = .ok (ka, kb, [off], u) →
        exec (.link d a b true false) s = .next (linkRun { rd := d, olds := [start (s.x a) off], new := s.x b } (publish .module u))) ∧
      (∀ off, linkChecks (s.x a) (s.x b) false true s = .ok (ka, kb, [off], u) →
        exec (.link d a b false true) s = .next (linkRun { rd := d, olds := [start (s.x b) off], new := s.x a } (publish .module u))) ∧
      (∀ o1 o2, linkChecks (s.x a) (s.x b) true true s = .ok (ka, kb, [o1, o2], u) →
        exec (.link d a b true true) s = .next (linkRun { rd := d, olds := [start (s.x a) o1, start (s.x b) o2] } (publish .module u)))) ∧
    (∀ (p q : LinkProg) (s t : State), s.linkBudget = some 0 → p.over = false → q.over = false → linkAct { p with onHold := false } s = .going q t →
      (linkRun p s).mem = t.mem ∧ ((linkRun p s).ctx t.cur).wait = .link q ∧ ((linkRun p s).ctx t.cur).regs = t.th.regs) ∧
    (∀ (p : LinkProg) (o : OldEnd) (s : State) (k : Nat), p.olds.find? (fun x => !x.claimed) = some o → isPurse k = true →
      (∃ u, access1 s (addrOf o.slot) 8 1 false needRW = .ok (k, u)) →
      (Port (wordAt s.mem k) → ∃ t, Writes s.mem t [(k, BitVec.ofNat 64 (4 * 2 ^ 60))] ∧
        linkAct p s = .going { p with olds := p.olds.map (fun x => if x.slot = o.slot then { x with claimed := true, far := wordAt s.mem k } else x) } t) ∧
      (¬Port (wordAt s.mem k) → ∃ t, Writes s.mem t [(k, BitVec.ofNat 64 (4 * 2 ^ 60))] ∧ linkAct p s = .fault { cause := .linkCorrupt, lnk := true } t)) ∧
    (∀ (p : LinkProg) (o : OldEnd) (s : State) (k : Nat), (∀ x ∈ p.olds, x.claimed = true) → p.resolved = false →
      (∀ x y, p.olds = [x, y] → ¬(x.far = y.slot ∧ y.far = x.slot)) → p.olds.find? (fun x => !x.redirected) = some o → isPurse k = true →
      (∃ u, access1 s (addrOf o.slot) 8 1 false needRW = .ok (k, u)) → o.cell + 16 ≤ 0x30000 → Apart k 8 (purseKey s.quad o.cell) 16 →
      let after := p.olds.map (fun x => if x.slot = o.slot then { x with redirected := true } else x)
      let reach := fun (target exp : Word) (sides : List WireSide) => ∃ t,
        Writes s.mem t [(k, s.net.port s 3 s.quad o.cell), (purseKey s.quad o.cell, target), (purseKey s.quad o.cell + 8, exp)] ∧
        linkAct p s = .going { p with olds := after, sides := if after.all (fun x => x.redirected) then sides else p.sides } t
      (p.olds = [o] → reach p.new (BitVec.ofNat 64 (4 * 2 ^ 60)) [farSide s.quad o, { port := p.new, exp := BitVec.ofNat 64 (4 * 2 ^ 60) }]) ∧
      (∀ x y, p.olds = [x, y] → x.slot ≠ y.slot →
        (o = x → reach y.far y.slot [farSide s.quad x, farSide s.quad y]) ∧ (o = y → reach x.far x.slot [farSide s.quad x, farSide s.quad y]))))

/-- R39, R40, R41, R202: the half-joins of a `link`, each an act of its own, while no other `link` of the net is in progress: the first side's, and
    then the second's. A compare-and-swap of the port's slot acts on what it finds: the word that the cell names is replaced by the other side's port;
    HOLD, where a port is expected, and it is tried again; a REDIR of good form is a meeting; any other word is LINK_CORRUPT with LNK set. With two old
    ends one more thing is looked at before that fault, where the word is a port word or EMPTY: the slot of the other old end, and where that reads
    EMPTY the work is done already, and nothing more is written (R41). The two half-joins made, a redex is due where both ports are principal. An own slot that reads EMPTY ends the `link` with status bit 1; an own slot that breaks R27 faults. A REDIR is a
    meeting, here with a `link` that has ended: the party with the lower slot completes, which writes EMPTY into the other slot and goes on
    with the cell's port, its own target's half-join first; the other party waits.

    R41: two `link`s in progress meet where each one's port is the other's consumed slot. The party with the lower slot completes: in one act it writes
    EMPTY into the other party's slot, takes over the other party's other side, with the port and the expected word of that party's cell, and is left
    with two half-joins, its own target's first; it has status bit 2, the other bit 1, and both parties' cells go back with it. The other party waits
    until its slot reads EMPTY, and ends; a word in it that breaks R27 faults LINK_CORRUPT. That a chain of meetings grows shorter pair by pair is log entry 16. -/
def Obligations.HalfJoinsCompareAndSwap : Prop :=
  (
    ∀ (p : LinkProg) (l r : WireSide) (s : State) (first : Bool),
      Joining p l r → otherLinks s = [] → l.face ≠ some r.port → r.face ≠ some l.port →
      let me := if first then l else r
      let oth := if first then r else l
      let hold := BitVec.ofNat 64 (4 * 2 ^ 60)
      let same := fun (t : State) => ∀ a, memGet t.mem a = memGet s.mem a
      let number := fun (x : Word) => x.toNat % 2 ^ 60
      let corrupt := ∃ t, linkAct p s = .fault { cause := .linkCorrupt, lnk := true } t ∧ same t
      let waits := ∃ q t, linkAct p s = .wait q t ∧ same t ∧ q.olds = p.olds ∧ q.sides = p.sides ∧ q.cells = p.cells ∧ q.status = p.status
      let ends := fun (q : LinkProg) => ({ q with sides := [], resolved := true } : LinkProg)
      Open me → (first = false → ¬Open l) →
      (∀ a k, me.face = some a → tagOf a = 1 → SlotAt s a k →
        (wordAt s.mem k = 0 → ∃ t, linkAct p s = .going (ends { p with status := p.status ||| 2 }) t ∧ same t) ∧
        (wordAt s.mem k ≠ 0 → portOk (wordAt s.mem k) = false → corrupt)) ∧
      (∀ k, OwnSlotStands s me → (Open oth → OwnSlotStands s oth) → SlotAt s me.port k →
        let found := wordAt s.mem k
        let expected := found = me.exp ∨ (me.alt ≠ 0 ∧ found = me.alt)
        let joined := ({ me with exp := oth.port, alt := 0, face := none, cell := none, made := true } : WireSide)
        (expected → ∃ t, Writes s.mem t [(k, oth.port)] ∧
          (Open oth → linkAct p s = .going { p with sides := [joined, oth], cells := p.cells ++ me.cell.toList } t) ∧
          (¬Open oth → ∃ red, linkAct p s = .going (ends { p with cells := p.cells ++ me.cell.toList ++ oth.cell.toList, push := red }) t ∧
            (Redex r.port l.port → red = some (r.port, l.port)) ∧ (¬Redex r.port l.port → red = none))) ∧
        (¬expected → found = hold → tagOf me.exp = 1 → waits) ∧
        (¬expected → found = hold → tagOf me.exp ≠ 1 → corrupt) ∧
        (¬expected → found ≠ hold → ¬(tagOf found = 3 ∧ portOk found = true) →
          ((portOk found = false ∨ ∀ x y, p.olds ≠ [x, y]) → corrupt) ∧
          (∀ x y kx, portOk found = true → p.olds = [x, y] ∨ p.olds = [y, x] → x.slot ≠ y.slot → oth.face = some x.slot ∨ (oth.face = none ∧ me.face = some y.slot) →
            tagOf x.slot = 1 → SlotAt s x.slot kx →
            (wordAt s.mem kx = 0 → ∃ t, linkAct p s = .going (ends { p with cells := p.cells ++ me.cell.toList }) t ∧ same t) ∧
            (wordAt s.mem kx ≠ 0 → corrupt))) ∧
        (¬expected → tagOf found = 3 → portOk found = true →
          ((∀ a, me.face = some a → number a ≤ number me.port) → ∀ c, CellAt s found c → Port (wordAt s.mem c) →
            let e := wordAt s.mem (c + 8)
            let far : WireSide := { port := wordAt s.mem c, exp := e, alt := if tagOf e = 1 then me.face.getD 0 else 0, face := if tagOf e = 1 then some e else none }
            (e = hold ∨ portOk e = true ∧ tagOf e = 1) → tagOf oth.port ∈ [1, 2] ∨ tagOf far.port ∈ [1, 2] →
            ∃ t, Writes s.mem t [(k, 0)] ∧ linkAct p s = .going { p with
              sides := [{ oth with made := false }, far], grown := true, status := p.status ||| 4, cells := p.cells ++ me.cell.toList ++ [c] } t) ∧
          (∀ a, me.face = some a → number me.port < number a → ¬Open oth ∨ (∃ kq, SlotAt s oth.port kq ∧ wordAt s.mem kq = oth.exp) → waits)))) ∧
  (
    (∀ (p o : LinkProg) (l r h z : WireSide) (s : State) (b k kp : Nat) (a : Word),
      Joining p l r → Open l → (Open r → OwnSlotStands s r) → otherLinks s = [(b, o)] → b ≠ s.cur → o.sides = [h, z] →
      l.face = some a → h.port = a → h.face = some l.port → tagOf a = 1 → tagOf l.port = 1 →
      SlotAt s a k → wordAt s.mem k ≠ 0 → portOk (wordAt s.mem k) = true → SlotAt s l.port kp →
      let found := wordAt s.mem kp
      found ≠ l.exp → l.alt = 0 ∨ found ≠ l.alt → tagOf found = 3 → portOk found = true →
      (a.toNat % 2 ^ 60 ≤ l.port.toNat % 2 ^ 60 → ∀ c, CellAt s found c → Port (wordAt s.mem c) →
        let e := wordAt s.mem (c + 8)
        let far := if o.grown then z else { z with port := wordAt s.mem c, exp := e, alt := if tagOf e = 1 then a else 0 }
        (e = BitVec.ofNat 64 (4 * 2 ^ 60) ∨ portOk e = true ∧ tagOf e = 1) → tagOf r.port ∈ [1, 2] ∨ tagOf far.port ∈ [1, 2] →
        ∃ t, Writes s.mem t [(kp, 0)] ∧
          linkAct p s = .going { p with
            sides := [{ r with made := false }, { far with made := false }], grown := true, status := p.status ||| 4
            cells := p.cells ++ o.cells ++ l.cell.toList ++ h.cell.toList } t ∧
          (t.ctx b).wait = .link { o with sides := [], cells := [], gone := some l.port, status := o.status ||| 2 }) ∧
      (l.port.toNat % 2 ^ 60 < a.toNat % 2 ^ 60 → ¬Open r →
        ∃ q t, linkAct p s = .wait q t ∧ (∀ x, memGet t.mem x = memGet s.mem x) ∧ q.sides = p.sides ∧ q.status = p.status)) ∧
    (∀ (p : LinkProg) (s : State) (a : Word) (k : Nat),
      (∀ o ∈ p.olds, o.claimed = true ∧ o.redirected = true) → (∀ x y, p.olds = [x, y] → ¬(x.far = y.slot ∧ y.far = x.slot)) → p.resolved = false →
      p.gone = some a → otherLinks s = [] → tagOf a = 1 → SlotAt s a k →
      ∃ t, (∀ x, memGet t.mem x = memGet s.mem x) ∧ linkAct p s =
        if portOk (wordAt s.mem k) = false then .fault { cause := .linkCorrupt, lnk := true } t
        else if wordAt s.mem k = 0 then .going { p with resolved := true } t else .wait p t))

/-! ### Gangs, tiles and the assayer (06, 07) -/

namespace Sys2Proof.Say

/-- The instruction has answered n in xd and left rotation until its reply; memory and every other thread stand; the thread's vector registers are not
    named. -/
structure Answers (d : Reg) (n : Nat) (s t : State) : Prop where
  pc : t.th.pc = s.th.pc + 4
  wait : t.th.wait = .reply
  regs : ∀ r, t.x r = if r = d ∧ r ≠ 0 then BitVec.ofNat 64 n else s.x r
  memory : ∀ a, memGet t.mem a = memGet s.mem a
  others : ∀ b, b ≠ s.cur → Tbl.get? t.berths b = Tbl.get? s.berths b
  rest : t.stores = s.stores ∧ t.empties = s.empties ∧ t.deques = s.deques ∧ t.th.coin = s.th.coin

/-- Core m of a vector group of n cores (06 R108). -/
def groupCore (core n m : Nat) : Nat :=
  let q := core / 4
  if n = 2 then 4 * q + 2 * (core % 4 / 2) + m
  else if n = 4 then 4 * q + m
  else 4 * quadAt (quadX q / 2 * 2 + m / 4) (quadY q) + m % 4

/-- The member index of a core in its vector group. -/
def groupIndex (core n : Nat) : Nat :=
  if n = 2 then core % 2 else if n = 4 then core % 4 else 4 * (quadX (core / 4) % 2) + core % 4

/-- Row i and column j name a live element of C (06 R106 R118). -/
def LiveAt (g : MGang) (i j : Nat) : Prop :=
  i < 32 * g.h ∧ j < 32 * g.w ∧ (∀ l, g.shape = some l → ∃ e ∈ l, e.1 ≤ i ∧ i < e.1 + e.2)

/-- The purse byte at which element (i, j) of C lies (06 R106): in member (j div 32, i div 32). -/
def elemKey (g : MGang) (i j : Nat) : Nat :=
  let c := coreAt (g.x0 + j / 32) (g.y0 + i / 32)
  purseKey (c / 4) (0xC000 * (c % 4) + 0xB000 + 128 * (i % 32) + 4 * (j % 32))

/-- No request of the issuing thread stands in a wait table, as of any thread in rotation (11 R195). -/
def NotQueued (s : State) : Prop := ∀ e ∈ s.waits, ∀ r ∈ e.2, r.berth ≠ s.cur

/-- The thread leads a matrix gang that nothing has broken (06 R109 R127). -/
def Leads (s : State) (g : MGang) : Prop := Tbl.get? s.mgangs s.cur = some g ∧ s.th.broken = false

end Sys2Proof.Say

/-- R105, R119, R120, R122: `gang` reports 3, 2 or 1 with nothing changed, faults ACCESS, or forms its rectangle of cores with no shape and no
    streams; `disband` ends what the thread leads and clears the broken mark.

    R108, R121: `gangv` reports 3, 2 or 1 with nothing changed, faults ACCESS, or forms the group of 2, 4 or 8 cores: a free berth of the leader's
    number on every other core is reserved, with its vector registers zero, and the leader's own v0 to v7 are zero too. -/
def Obligations.GangsFormAndDisband : Prop :=
  (
    ∀ (d a : Reg) (s : State),
      let core := coreId s.cur
      let w := (s.x a).toNat % 16 + 1
      let h := (s.x a).toNat / 16 % 16 + 1
      let fits := coreX core % 16 + w ≤ 16 ∧ coreY core % 16 + h ≤ 16
      let free := ∀ x y, x < w → y < h → s.net.inRegion s (coreAt (coreX core + x) (coreY core + y) / 4) = true
      let busy := ∃ x y, x < w ∧ y < h ∧ ∃ e ∈ s.mgangs, e.2.has (coreAt (coreX core + x) (coreY core + y)) = true
      let leads := Tbl.get? s.mgangs s.cur ≠ none ∨ Tbl.get? s.vgangs s.cur ≠ none
      let tells := fun n => ∃ t, exec (.gang d a) s = .next t ∧ Answers d n s t ∧ t.th.vecs = s.th.vecs ∧ t.mgangs = s.mgangs ∧ t.vgangs = s.vgangs ∧
        t.th.broken = s.th.broken
      (leads → tells 3) ∧ (¬leads → ¬fits → tells 2) ∧
      (¬leads → fits → ¬free → exec (.gang d a) s = .next (takeFault { cause := .access } s)) ∧
      (¬leads → fits → free → busy → tells 1) ∧
      (¬leads → fits → free → ¬busy → ∃ t, exec (.gang d a) s = .next t ∧ Answers d 0 s t ∧ t.th.vecs = s.th.vecs ∧ t.th.broken = false ∧
        t.vgangs = s.vgangs ∧
        Tbl.get? t.mgangs s.cur = some { x0 := coreX core, y0 := coreY core, w := w, h := h, shape := none, sideA := 0, sideB := 0, op := none } ∧
        ∀ b, b ≠ s.cur → Tbl.get? t.mgangs b = Tbl.get? s.mgangs b) ∧
      (∃ t, exec .disband s = .next t ∧ Answers 0 0 s t ∧ t.th.vecs = s.th.vecs ∧ t.th.broken = false ∧ Tbl.get? t.mgangs s.cur = none ∧ Tbl.get? t.vgangs s.cur = none ∧
        ∀ b, b ≠ s.cur → Tbl.get? t.mgangs b = Tbl.get? s.mgangs b ∧ Tbl.get? t.vgangs b = Tbl.get? s.vgangs b)) ∧
  (
    ∀ (d a : Reg) (s : State),
      let core := coreId s.cur
      let n := (s.x a).toNat % 16
      let me := groupIndex core n
      let berth := fun m => 16 * groupCore core n m + s.cur % 16
      let sized := n = 2 ∨ n = 4 ∨ n = 8
      let inside := ∀ m, m < n → s.net.inRegion s (groupCore core n m / 4) = true
      let free := fun b => Tbl.get? s.berths b = none ∧ ∀ g ∈ s.vgangs, ∀ m ∈ g.2.members, m.2.1 ≠ b
      let leads := Tbl.get? s.mgangs s.cur ≠ none ∨ Tbl.get? s.vgangs s.cur ≠ none
      let tells := fun k => ∃ t, exec (.gangv d a) s = .next t ∧ Answers d k s t ∧ t.th.vecs = s.th.vecs ∧ t.mgangs = s.mgangs ∧ t.vgangs = s.vgangs ∧
        t.th.broken = s.th.broken
      (leads → tells 3) ∧ (¬leads → ¬sized → tells 2) ∧
      (¬leads → sized → ¬inside → exec (.gangv d a) s = .next (takeFault { cause := .access } s)) ∧
      (¬leads → sized → inside → (∃ m, m < n ∧ m ≠ me ∧ ¬free (berth m)) → tells 1) ∧
      (¬leads → sized → inside → (∀ m, m < n → m ≠ me → free (berth m) ∧ Tbl.get? s.residents (berth m) = none) →
        ∃ t, exec (.gangv d a) s = .next t ∧ Answers d 0 s t ∧ t.th.broken = false ∧ t.mgangs = s.mgangs ∧
          (∀ v : VIdx, t.th.vecs[v] = {}) ∧ Tbl.get? t.vgangs s.cur = some { size := n, index := me, members := ((List.range n).filter (· != me)).map (fun m => (m, berth m, Vector.replicate 8 {})) }))

/-- R106, R118, R123, R124: `tzero` zeroes every live element and no other byte; `tload` and `tstore` read and then write every sector of the live
    rows once their checks pass, an element at a time: I32 and, into C, FP32 by their bits, FP16 and BF16 widened exactly, and rounded on the way out.
    How many sectors a fault in mid-transfer leaves moved is a choice of the machine (log entry 3). That `tstore` stops with POISON on a poisoned
    sub-tile before any sector has moved, ahead of a PAGE or ACCESS of its destination, while `tzero` and `tload` run on it, is log entry 40, and the address of that fault, zero, entry 39. -/
def Obligations.TilesAreZeroedLoadedAndStored : Prop :=
  ∀ (a b : Reg) (r : Rnd) (f : TileFmt) (g : MGang) (s : State), Leads s g →
    let e := match f with | .i32 | .fp32 => 4 | .fp16 | .bf16 => 2
    let base := (s.x a).toNat
    let pitch := (s.x b).toNat
    let secs := tileSectors g e base pitch
    let poisonC := ∃ i j, LiveAt g i j ∧ poisoned s (elemKey g i j) 4 = true
    let into := fun (v : Nat) => match f with | .i32 | .fp32 => v | .fp16 => (enc fp32 (dec fp16 v) .rne).1 | .bf16 => (enc fp32 (dec bf16 v) .rne).1
    let outof := fun (v : Nat) => match f with
      | .i32 => v
      | .fp32 => (enc fp32 (dec fp32 v) r).1
      | .fp16 => (enc fp16 (dec fp32 v) r).1
      | .bf16 => (enc bf16 (dec fp32 v) r).1
    let elem := fun (n : Nat) (l : List Byte) (m : Nat) => leNat ((l.drop (n * m)).take n)
    let ran := fun (t : State) (end_ : Flags × State) => t.mem = end_.2.mem ∧ t.stores = end_.2.stores ∧ t.mgangs = s.mgangs ∧
      (NotQueued s → t.th.fflags = s.th.fflags ||| end_.1 ∧ t.th.pc = s.th.pc + 4 ∧ t.th.wait = .reply ∧ ∀ q, t.x q = s.x q)
    (∃ t, exec .tzero s = .next t ∧ (NotQueued s → t.th.pc = s.th.pc + 4 ∧ t.th.wait = .reply ∧ ∀ q, t.x q = s.x q) ∧ t.mgangs = s.mgangs ∧
      (∀ i j, LiveAt g i j → memRead t.mem (elemKey g i j) 4 = [0, 0, 0, 0]) ∧
      (∀ x, (∀ i j, LiveAt g i j → x < elemKey g i j ∨ elemKey g i j + 4 ≤ x) → memGet t.mem x = memGet s.mem x)) ∧
    (∀ x, x ∈ secs ↔ ∃ i n, LiveAt g i 0 ∧ n < g.w * e ∧ x = { row := i, col := n * (32 / e), addr := base + i * pitch + 32 * n }) ∧
    secs.Pairwise (fun x y => x.row < y.row ∨ (x.row = y.row ∧ x.col < y.col)) ∧
    (base % 32 = 0 → pitch % 32 = 0 → 32 * g.w * e ≤ pitch →
      (∀ l u, checkSectors needR secs s = (l, none, u) → l.map (fun x => (x.row, x.col)) = secs.map (fun x => (x.row, x.col)) ∧
        ∃ t, exec (.tload a b f) s = .next t ∧ ran t (moveTiles (loadSector f) (putTile g) l u)) ∧
      (∀ l u, ¬poisonC → checkSectors needW secs s = (l, none, u) → l.map (fun x => (x.row, x.col)) = secs.map (fun x => (x.row, x.col)) ∧
        ∃ t, exec (.tstore a b r f) s = .next t ∧ ran t (moveTiles (storeSector g f r) putSector l u)) ∧
      (∀ l u h left, checkSectors needR secs s = (l, some (.fault h left), u) →
        let c := choice u (l.length + 1)
        exec (.tload a b f) s = .next (takeFault h (moveTiles (loadSector f) (putTile g) (l.take c.1) c.2).2)) ∧
      (∀ l u h left, ¬poisonC → checkSectors needW secs s = (l, some (.fault h left), u) →
        let c := choice u (l.length + 1)
        exec (.tstore a b r f) s = .next (takeFault h (moveTiles (storeSector g f r) putSector (l.take c.1) c.2).2)) ∧
      (poisonC → exec (.tstore a b r f) s = .next (takeFault { cause := .poison } s))) ∧
    (¬(base % 32 = 0 ∧ pitch % 32 = 0 ∧ 32 * g.w * e ≤ pitch) →
      exec (.tload a b f) s = .next (takeFault { cause := .align, addr := faultAddr (s.x a) } s) ∧
      exec (.tstore a b r f) s = .next (takeFault { cause := .align, addr := faultAddr (s.x a) } s)) ∧
    (∀ (u : State) (x : TileSector) (m : Nat), m < 32 / e →
      elem 4 (loadSector f x u).1.1 m = into (elem e (clrLoad x.addr 32 u).1 m) ∧
      elem e (storeSector g f r x u).1.1 m = outof (leNat (memRead u.mem (elemKey g x.row x.col + 4 * m) 4))) ∧
    (∀ (u : State) (x : TileSector) (l : List Byte), g.elem x.row x.col = elemKey g x.row x.col ∧
      (∀ y, memGet (putTile g x l u).mem y = if h : elemKey g x.row x.col ≤ y ∧ y - elemKey g x.row x.col < l.length then l[y - elemKey g x.row x.col]
        else memGet u.mem y) ∧
      (isPurse x.addr = true → ∀ y, memGet (putSector x l u).mem y = if h : x.addr ≤ y ∧ y - x.addr < l.length then l[y - x.addr] else memGet u.mem y) ∧
      (isPurse x.addr = false → putSector x l u = clrStore x.addr l u))

/-- R117, R125, R126: `tshape` binds the groups of a record that keeps its rules, or none for address 0, and faults FORMAT on one that does not;
    `tside` binds two stream pointers, each zero or a global address on a 32-byte boundary. Neither writes memory or a register.
    A record that a pending assay of the cluster still owes keeps `tshape` waiting (R136). -/
def Obligations.ShapesAndStreamsBind : Prop :=
  ∀ (a b : Reg) (g : MGang) (s : State), Leads s g →
    let glob := fun (w : Word) => w.toNat / 2 ^ 56 = 8
    let streamOk := fun (w : Word) => w = 0 ∨ (glob w ∧ w.toNat % 32 = 0)
    let keeps := fun (t : State) => t.th.pc = s.th.pc + 4 ∧ (∀ q, t.x q = s.x q) ∧ ∀ x, x ≠ s.cur → Tbl.get? t.mgangs x = Tbl.get? s.mgangs x
    (s.x a = 0 → ∃ t, exec (.tshape a) s = .next t ∧ keeps t ∧ t.mem = s.mem ∧ Tbl.get? t.mgangs s.cur = some { g with shape := none }) ∧
    (s.x a ≠ 0 → ∀ e, access1 s (s.x a) 16 16 false needR = .error e → Stops s e (exec (.tshape a) s)) ∧
    (s.x a ≠ 0 → ∀ k u, access1 s (s.x a) 16 16 false needR = .ok (k, u) →
      let owed := fun (t : State) (ks : List (Nat × Nat)) => ∃ x ∈ t.assays, x.cluster = clusterOf t.quad ∧ ∃ q ∈ pieceGranules x.record, q ∈ pieceGranules ks
      (owed u [(k, 16)] → Stops u (.wait .held) (exec (.tshape a) s)) ∧
      (¬owed u [(k, 16)] →
      let first := if isPurse k then 16 else min 144 (256 - k % 256)
      let r := clrLoad k first u
      let n := dbl r.1 0
      let size := if n = 0 ∨ 32 < n then 16 else 16 + 4 * n
      (∀ e, access r.2 (s.x a) size 16 false needR false 16 = .error e → Stops r.2 e (exec (.tshape a) s)) ∧
      ∀ ks v, access r.2 (s.x a) size 16 false needR false 16 = .ok (ks, v) →
        (owed v ks → Stops v (.wait .held) (exec (.tshape a) s)) ∧
        (¬owed v ks →
        let more := clrLoads (ks.filter (fun p => p.1 < k || k + first ≤ p.1)) v
        let l := r.1.take size ++ more.1
        let start := fun i => leNat ((l.drop (16 + 4 * i)).take 4) / 2 ^ 16
        let len := fun i => leNat ((l.drop (16 + 4 * i)).take 4) % 2 ^ 16
        let good := 1 ≤ n ∧ n ≤ 32 ∧ dbl l 8 = 0 ∧ (∀ i, i + 1 < n → start i + len i ≤ start (i + 1)) ∧ start (n - 1) + len (n - 1) ≤ 32 * g.h
        (good → ∃ t, exec (.tshape a) s = .next t ∧ keeps t ∧ t.mem = more.2.mem ∧ (s.stores = [] → t.mem = s.mem) ∧
          Tbl.get? t.mgangs s.cur = some { g with shape := some ((List.range n).map (fun i => (start i, len i))) }) ∧
        (¬good → Stops more.2 (.fault { cause := .format }) (exec (.tshape a) s))))) ∧
    (streamOk (s.x a) → streamOk (s.x b) → ∃ t, exec (.tside a b) s = .next t ∧ keeps t ∧ t.mem = s.mem ∧ t.th.wait = s.th.wait ∧
      Tbl.get? t.mgangs s.cur = some { g with sideA := s.x a, sideB := s.x b }) ∧
    (¬(s.x a = 0 ∨ glob (s.x a)) → exec (.tside a b) s = .next (takeFault { cause := .access } s)) ∧
    ((s.x a = 0 ∨ glob (s.x a)) → (s.x a).toNat % 32 ≠ 0 → exec (.tside a b) s = .next (takeFault { cause := .align } s)) ∧
    (streamOk (s.x a) → ¬(s.x b = 0 ∨ glob (s.x b)) → exec (.tside a b) s = .next (takeFault { cause := .access } s)) ∧
    (streamOk (s.x a) → (s.x b = 0 ∨ glob (s.x b)) → (s.x b).toNat % 32 ≠ 0 → exec (.tside a b) s = .next (takeFault { cause := .align } s))

namespace Sys2Proof.Say

/-- An operand record that keeps 06 R110 and R112. -/
def GoodOperand (l : List Byte) (o : Operand) : Prop :=
  o = { tag := dbl l 0 / 2 ^ 60 % 16, base := dbl l 0 % 2 ^ 56, seq0 := dbl l 8 / 2 ^ 32 % 2 ^ 32, k := dbl l 8 % 2 ^ 16, stride := dbl l 16 % 2 ^ 20 } ∧
    o.tag ∈ [1, 4, 5, 6, 7, 9] ∧ dbl l 0 / 2 ^ 56 % 16 = 0 ∧ dbl l 8 / 2 ^ 16 % 2 ^ 16 = 0 ∧ o.k % 64 = 0 ∧ 64 ≤ o.k ∧ o.k ≤ 16384 ∧
    dbl l 16 / 2 ^ 20 % 2 ^ 44 = 0 ∧ dbl l 24 = 0

/-- The stride that 06 R112 asks for: a multiple of 32, and a row's length at least. -/
def GoodStride (o : Operand) : Prop :=
  o.stride % 32 = 0 ∧ (if o.tag = 9 then o.k / 2 else if o.tag = 6 ∨ o.tag = 7 then 2 * o.k else o.k) ≤ o.stride

/-- Tags that may be paired (06 R127). -/
def Paired (a b : Operand) : Prop := (a.tag = b.tag ∨ (a.tag = 4 ∧ b.tag = 5) ∨ (a.tag = 5 ∧ b.tag = 4)) ∧ a.k = b.k

/-- An operation has started (06 R107 R127): the pc stays on it, the thread is out of rotation, its sub-tiles are held, its earlier writes are
    published, and neither a register nor a pointer of the gang has changed. -/
def Started (s t : State) (g : MGang) (o : MatOp) : Prop :=
  t.th.wait = .gangop ∧ t.th.pc = s.th.pc ∧ (∀ r, t.x r = s.x r) ∧ Published s t ∧
    Tbl.get? t.mgangs s.cur = some { g with op := some o } ∧ o.consumed = false ∧ ∀ b, b ≠ s.cur → Tbl.get? t.mgangs b = Tbl.get? s.mgangs b

/-- An assay record's header that keeps 07 R133 and R138 over n rows. -/
def GoodHead (l : List Byte) (n : Nat) (h : AssayHead) : Prop :=
  h = { src := { tag := dbl l 0 / 2 ^ 60 % 16, base := dbl l 0 % 2 ^ 56, seq0 := dbl l 8 / 2 ^ 32 % 2 ^ 32, k := dbl l 8 % 2 ^ 16, stride := dbl l 16 % 2 ^ 20 },
        n := dbl l 8 / 2 ^ 16 % 2 ^ 16, status := dbl l 16 / 2 ^ 28 % 16, terms := dbl l 16 / 2 ^ 26 % 4, resid := dbl l 24 } ∧
    h.src.tag ∈ [1, 4, 5, 6, 7, 9] ∧ dbl l 0 / 2 ^ 56 % 16 = 0 ∧ h.src.k % 64 = 0 ∧ 64 ≤ h.src.k ∧ h.src.k ≤ 16384 ∧
    dbl l 16 / 2 ^ 32 % 2 ^ 32 = 0 ∧ dbl l 16 / 2 ^ 20 % 2 ^ 6 = 0 ∧ h.status < 3 ∧ h.resid ≤ 512 ∧ h.n = n

/-- No assay of the cluster still owes a record that an operation would read (07 R136). -/
def NoPending (t : State) (o : MatOp) : Prop := ∀ x ∈ t.assays, x.cluster = clusterOf t.quad → ∀ k ∈ pieceGranules x.record, k ∉ pieceGranules o.pieces

/-- The checks of `mma` and `mmas` up to their strides, in the order of 06 R127 and 07 R138: each operand's alignment, both records read, each record's
    form, the pairing, the strides. The first that fails ends the instruction; where all pass, `run` goes on from what was read. An operand record
    parses to an Operand by P on the one side and by Q on the other. -/
def RecordChecks (s : State) (a b : Reg) (na nb : Nat) (P Q : List Byte → Operand → Prop) (o : Result) (run : List Byte → List Byte → State → State → Prop) : Prop :=
  let faults := fun (u : State) (f : FaultInfo) => Stops u (.fault f) o
  ((s.x a).toNat % na ≠ 0 → faults s { cause := .align, addr := faultAddr (s.x a) }) ∧
  ((s.x a).toNat % na = 0 → (s.x b).toNat % nb ≠ 0 → faults s { cause := .align, addr := faultAddr (s.x b) }) ∧
  ((s.x a).toNat % na = 0 → (s.x b).toNat % nb = 0 →
    (∀ e, readOperand (s.x a) s = .error e → Stops s e o) ∧
    (∀ la u, readOperand (s.x a) s = .ok (la, u) →
      (∀ e, readOperand (s.x b) u = .error e → Stops u e o) ∧
      (∀ lb v, readOperand (s.x b) u = .ok (lb, v) →
        (¬(∃ x, P la x) ∨ ¬(∃ y, Q lb y) → faults v { cause := .format }) ∧
        (∀ x y, P la x → Q lb y →
          (¬Paired x y → faults v { cause := .format }) ∧
          (Paired x y → ¬(GoodStride x ∧ GoodStride y) → faults v { cause := .align }) ∧
          (Paired x y → GoodStride x → GoodStride y → run la lb u v)))))

end Sys2Proof.Say

/-- R110, R112, R118, R127, R138: `mma` and `mmas` check alignments, records, forms, pairing, strides, the rows of each operand and the scale tiles,
    in that order; the first check that fails is the fault taken, and where all pass the operation starts. An operand record is read by one access,
    which a pending assay of it keeps waiting (R136). Every row of an operand is checked and its live rows are read (R112, R118; that dead rows are
    checked, too, is log entry 78's reading); where the residual list's check stands is the model's choice (log entry 77). -/
def Obligations.MatrixOperationsStart : Prop :=
  ∀ (a b : Reg) (side : Bool) (g : MGang) (s : State),
    (Tbl.get? s.mgangs s.cur = none ∨ s.th.broken = true → exec (.mma a b) s = .next (takeFault { cause := .gangBroken } s) ∧
      exec (.mmas a b side) s = .next (takeFault { cause := .gangBroken } s)) ∧
    (∀ (w : Word) (u : State), (∀ e, access1 u w 32 32 false needR = .error e → readOperand w u = .error e) ∧
      (∀ k v, access1 u w 32 32 false needR = .ok (k, v) → readOperand w u =
        if ∃ x ∈ v.assays, x.cluster = clusterOf v.quad ∧ ∃ q ∈ pieceGranules x.record, q ∈ granules k 32 then .error (.wait .held (some v)) else .ok (clrLoad k 32 v))) ∧
    (∀ (x y : Operand) (u : State), (x.tag ≠ 9 → scaleTiles g x y u = .ok (([], []), u)) ∧
      (x.tag = 9 → g.sideA = 0 ∨ g.sideB = 0 → scaleTiles g x y u = .error (.fault { cause := .scaleSeq }))) ∧
    (Leads s g → RecordChecks s a b 32 32 GoodOperand GoodOperand (exec (.mma a b) s) (fun la lb u v => ∀ x y, GoodOperand la x → GoodOperand lb y →
      let w := publish .module v
      (∀ e, denseRows x (List.range (32 * g.h)) w = .error e → Stops w e (exec (.mma a b) s)) ∧
      (∀ all u3, denseRows x (List.range (32 * g.h)) w = .ok (all, u3) →
        let ra := all.filter (fun r => g.liveRows.contains r.1)
        (∀ e, denseRows y (List.range (32 * g.w)) u3 = .error e → Stops u3 e (exec (.mma a b) s)) ∧
        (∀ rb u4, denseRows y (List.range (32 * g.w)) u3 = .ok (rb, u4) →
          (∀ e, scaleTiles g x y u4 = .error e → Stops u4 e (exec (.mma a b) s)) ∧
          (∀ ta tb u5, scaleTiles g x y u4 = .ok ((ta, tb), u5) →
            let o : MatOp := { a := x, b := y, rowsA := ra, rowsB := rb, tilesA := ta, tilesB := tb }
            NoPending u5 o → ∃ t, exec (.mma a b) s = .next t ∧ Started s t g o))))) ∧
    (Leads s g →
      let rows := 32 * (if side then g.w else g.h)
      let P := fun l (x : Operand) => if side then GoodOperand l x else ∃ h, GoodHead l rows h ∧ x = h.src
      let Q := fun l (x : Operand) => if side then (∃ h, GoodHead l rows h ∧ x = h.src) else GoodOperand l x
      let rowsR := if side then List.range (32 * g.w) else g.liveRows
      let rowsO := if side then g.liveRows else List.range (32 * g.w)
      RecordChecks s a b (if side then 32 else 256) (if side then 256 else 32) P Q (exec (.mmas a b side) s) (fun la lb u v =>
        ∀ hd y, GoodHead (if side then lb else la) rows hd → GoodOperand (if side then la else lb) y →
          let w := publish .module v
          let every := List.range (32 * (if side then g.h else g.w))
          (∀ e, denseRows y every w = .error e → Stops w e (exec (.mmas a b side) s)) ∧
          (∀ all u3, denseRows y every w = .ok (all, u3) →
            let ro := all.filter (fun r => rowsO.contains r.1)
            (∀ e, assayedRows hd (s.x (if side then b else a)) rowsR u3 = .error e → Stops u3 e (exec (.mmas a b side) s)) ∧
            (∀ rr rest rs u4, assayedRows hd (s.x (if side then b else a)) rowsR u3 = .ok ((rr, rest, rs), u4) →
              (∀ e, scaleTiles g (if side then y else hd.src) (if side then hd.src else y) u4 = .error e →
                Stops u4 e (exec (.mmas a b side) s)) ∧
              (∀ ta tb u5, scaleTiles g (if side then y else hd.src) (if side then hd.src else y) u4 = .ok ((ta, tb), u5) →
                let o : MatOp := { a := if side then y else hd.src, b := if side then hd.src else y, side := some side, head := hd, resid := rs,
                                   rowsA := if side then ro else rr, rowsB := if side then rr else ro, tilesA := ta, tilesB := tb, rest := rest }
                NoPending u5 o → ∃ t, exec (.mmas a b side) s = .next t ∧ Started s t g o)))))

/-- The products of one block in K order, each entry of the assayed side with the other side's element at its place (06 R115, 07 R139); those of one
    place stand in the order of the record (log entry 24). -/
def Sys2Proof.Say.BlockValues (tag tag' lo bs : Nat) (byB : Bool) (ra rb : List (Nat × Nat)) : List (Val × Val) :=
  let here := fun (l : List (Nat × Nat)) => (List.range bs).flatMap (fun k => l.filter (fun e => e.1 == lo + k))
  let at_ := fun (l : List (Nat × Nat)) k => (l.getD k (0, 0)).2
  if byB then (here rb).map (fun e => (elemVal tag (at_ ra e.1), elemVal tag' e.2)) else (here ra).map (fun e => (elemVal tag e.2, elemVal tag' (at_ rb e.1)))

/-- R115, R116: on I8 operands each element of C becomes C + Σ A·B modulo 2^32, whatever the blocks. On floating-point operands the blocks are taken
    in order of K: the exact sum of a block's products, for F4B times both block scales and both band scales, is rounded to FP32 and added to the
    element, which is rounded again; that the sum starts at +0 and takes the scales as a whole is the model's reading (log entry 24). A sum that meets
    both infinities before any NaN raises NV. -/
def Obligations.ByteProductsAreExactSums : Prop :=
  (∀ (a b : SideData) (i j c : Nat), a.tag = 1 → a.k % 4 = 0 → c < 2 ^ 32 →
    (∀ k, k < a.k → (a.row i)[k]? = some (k, ((a.row i).getD k (0, 0)).2) ∧ ((a.row i).getD k (0, 0)).2 < 256) → (a.row i).length = a.k →
    (∀ k, k < a.k → ((b.row j).getD k (0, 0)).2 < 256) →
    let r := cellProduct a b false i j c
    r.2 = 0 ∧ r.1 < 2 ^ 32 ∧
    (r.1 : Int) = ((c : Int) + ∑ k ∈ Finset.range a.k,
      asInt false 8 ((a.row i).getD k (0, 0)).2 * asInt false 8 ((b.row j).getD k (0, 0)).2) % 2 ^ 32) ∧
  (∀ (a b : SideData) (byB : Bool) (i j c : Nat),
    let bs := if a.tag = 9 then 8 else if a.tag = 6 ∨ a.tag = 7 then 2 else 4
    cellProduct a b byB i j c = (List.range (a.k / bs)).foldl (blockStep a b byB i j (a.row i) (b.row j)) (c, 0)) ∧
  (∀ (a b : SideData) (byB : Bool) (i j q : Nat) (ra rb : List (Nat × Nat)) (acc : Nat × Flags), a.tag ∈ [4, 5, 6, 7, 9] →
    let bs := if a.tag = 9 then 8 else if a.tag = 6 ∨ a.tag = 7 then 2 else 4
    let ps := BlockValues a.tag b.tag (q * bs) bs byB ra rb
    let prods := ps.map (fun p => (mulVal p.1 p.2).1)
    let finite := fun (v : Val) => ∃ s n d, v = .fin s n d ∧ 0 < d
    let scales := if a.tag = 9 then [a.scale i q, b.scale j q, a.band i, b.band j] else []
    let total := (ps.map (fun p => ratOf p.1 * ratOf p.2)).sum * (scales.map ratOf).prod
    let r := blockStep a b byB i j ra rb acc q
    ((∀ p ∈ ps, finite p.1 ∧ finite p.2) → (∀ v ∈ scales, finite v) →
      ∃ neg n d, 0 < d ∧ ratOf (.fin neg n d) = total ∧ (total = 0 → a.tag ≠ 9 → neg = false) ∧
        let p := enc fp32 (.fin neg n d) .rne
        let t := sumVal [dec fp32 acc.1, dec fp32 p.1] .rne
        r = ((enc fp32 t.1 .rne).1, acc.2 ||| p.2 ||| (t.2 ||| (enc fp32 t.1 .rne).2))) ∧
    (∀ (m n : Nat) (x : Bool), m < n → prods[m]? = some (Val.inf x) → prods[n]? = some (Val.inf !x) →
      (∀ l v, l < n → prods[l]? = some v → v.isNan = false) → r.2 &&& fNV = fNV))

/-- R114: the operands-consumed event of a matrix operation reads its operands as the banks hold them, releases its footprint and meets the
    dependencies that wait on its thread (R215); C is not written yet. That every sector is read at that event is the model's choice (log entry 79), and
    that poison of the gang's sub-tiles counts as poison of an operand is its reading (log entry 40).
    The result holds each live element once, from its row of A and its column of B, a block at a time (R106, R115, R118). The same event of an assay
    decides its record, with the first sector of each scale tile as the check of its number read it (R136).

    R113, R127: the completion writes every element of C, ORs the flags into the thread's, advances both stream pointers by 288 for each data tile on
    F4B operands alone, and puts the thread back into rotation past the instruction; a poisoned operand, or sub-tile of C (log entry 40), faults
    POISON instead, recorded with address 0 (the model's reading, log entry 39). That a pointer past 2^56 wraps is log entry 87. -/
def Obligations.MatrixOperationsConsumeAndComplete : Prop :=
  (
    ∀ (b : Nat) (s : State),
      (∀ g o, Tbl.get? s.mgangs b = some g → g.op = some o → o.consumed = false →
        ∃ t p, exec (.operandsConsumed b) s = .next t ∧ t.mem = s.mem ∧ Tbl.get? t.mgangs b = some { g with op := some p } ∧ p.consumed = true ∧
          p.a = o.a ∧ p.b = o.b ∧
          (poisonedAny s o.pieces || poisonedC s g) = p.poisoned ∧ (p.poisoned = false → (p.result, p.flags) = matResult s g o) ∧
          (∀ e ∈ t.chans, ∀ c ∈ e.2.queue, c.tid = s.tidAt b → c.waitOp = false) ∧ ∀ x, BerthStands s t x) ∧
      (∀ x, Tbl.get? s.mgangs b = none → servedAssay s b = some x → x.berth = b → x.consumed = false →
        ∃ t y, exec (.operandsConsumed b) s = .next t ∧ t.mem = s.mem ∧ y ∈ t.assays ∧ y.berth = b ∧ y.consumed = true ∧
          let bad := x.poisoned || poisonedAny s (x.rows.flatMap (fun r => r.2.flatten) ++ x.tiles.flatMap (fun r => r.2.drop 1))
          let data : SideData := { sideData s x.src false x.rows [] [] with
            tiles := (List.zip x.tiles x.heads).map (fun e => (e.1.1, e.2 ++ readPieces s (e.1.2.drop 1))) }
          (bad = false → y.poisoned = false ∧ y.bytes = (decide7 x.src x.n x.tmax x.bound data).bytes ∧ y.status = (decide7 x.src x.n x.tmax x.bound data).status) ∧
          (bad = true → y.poisoned = true ∧ y.bytes = recordHead x.src x.n 3 0 0)) ∧
      (∀ (g : MGang) (o : MatOp),
        let sparse := fun (x : Bool) => o.side == some x && o.head.status == 0
        let A := sideData s o.a (sparse false) o.rowsA o.resid o.tilesA
        let B := sideData s o.b (sparse true) o.rowsB o.resid o.tilesB
        let cell := fun i j => cellProduct A B (sparse true) i j (leNat (memRead s.mem (elemKey g i j) 4))
        (∀ x, x ∈ (matResult s g o).1 ↔ ∃ i j, LiveAt g i j ∧ x = (elemKey g i j, (cell i j).1)) ∧
        (∀ f, f < 5 → ((matResult s g o).2.getLsbD f = true ↔ ∃ i j, LiveAt g i j ∧ (cell i j).2.getLsbD f = true))) ∧
      (∀ (o : Operand) (rows : List (Nat × List Pieces)) (rs : List (Nat × Nat × Nat)) (ts : List (Nat × Pieces)),
        (sideData s o false rows rs ts).rows = rows.map (fun r => (r.1, (elemsOf o.tag (readPieces s (r.2.headD []))).zipIdx.map (fun e => (e.2, e.1)))) ∧
        (sideData s o true rows rs ts).rows = rows.map (fun r => (r.1, termEntries o.tag (r.2.map (readPieces s)) ++ (rs.filter (·.1 = r.1)).map (·.2)))) ∧
      (∀ (l : List Byte) (t k : Nat),
        (t = 9 → k < 2 * l.length → (elemsOf t l)[k]? = some ((l.getD (k / 2) 0).toNat / 16 ^ (k % 2) % 16)) ∧
        (t = 6 ∨ t = 7 → 2 * k + 1 < l.length → (elemsOf t l)[k]? = some (leNat ((l.drop (2 * k)).take 2))) ∧
        (t ∉ [6, 7, 9] → k < l.length → (elemsOf t l)[k]? = some (l.getD k 0).toNat))) ∧
  (
    ∀ (b : Nat) (g : MGang) (o : MatOp) (s : State), Tbl.get? s.mgangs b = some g → g.op = some o → o.consumed = true →
      (o.poisoned = false → (∃ rows : List Nat, (∀ i ∈ rows, LiveAt g i 0) ∧ o.result.map (·.1) = rows.flatMap (fun i => (List.range (32 * g.w)).map (elemKey g i))) →
        (∀ e ∈ o.result, isPurse e.1 = true) → (∀ e ∈ s.waits, ∀ r ∈ e.2, r.berth ≠ b) →
        ∃ t, exec (.mmaCompletion b) s = .next t ∧ t.cur = s.cur ∧
          t.mem = o.result.foldl (fun m e => memWrite m e.1 (leBytes 4 e.2)) s.mem ∧
          (t.ctx b).wait = .ready ∧ (t.ctx b).pc = (s.ctx b).pc + 4 ∧ (t.ctx b).fflags = (s.ctx b).fflags ||| o.flags ∧ (t.ctx b).regs = (s.ctx b).regs ∧
          let next := fun (w : Word) (tiles : Nat) => BitVec.ofNat 64 (2 ^ 59 + (w.toNat % 2 ^ 56 + 288 * tiles) % 2 ^ 56)
          Tbl.get? t.mgangs b = some { g with op := none, sideA := if o.a.tag = 9 then next g.sideA (g.h * (o.a.k / 64)) else g.sideA,
                                               sideB := if o.a.tag = 9 then next g.sideB (g.w * (o.b.k / 64)) else g.sideB }) ∧
      (o.poisoned = true → ∃ t u, exec (.mmaCompletion b) s = .next t ∧ t = { takeFault { cause := .poison } u with cur := s.cur } ∧ u.cur = b ∧ u.mem = s.mem ∧
        u.berths = s.berths ∧ ∀ c ∈ g.cores, ∀ k, k < 256 → (purseKey (c / 4) (0xC000 * (c % 4) + 0xB000)) / 16 + k ∈ u.poison))

/-- R130: what an assay drops is the largest prefix of the drop order that the bound allows: its energy D keeps D · 2^32 ≤ L · E, and with the next
    entry it would not.

    R132, R133, R136, R137, R110: `assay` publishes its thread's writes before it reads anything, and starts once its control block, source record, rows
    and tiles pass their checks; its completion writes the record, the report and the status; `astat` reads the report's six words. Control block and
    source record are read at their homes, past every copy, and placed in clr: that is the model's reading (log entry 103). -/
def Obligations.AssaysDropTheLargestPrefixAndReport : Prop :=
  (
    ∀ (bound : Nat) (tot : Nat × Nat) (l : List Entry), 0 < tot.2 → (∀ e ∈ l, 0 < e.den) →
      let r := drops bound tot l 0 (0, 1) none
      let d := fun (n : Nat) => ((l.take n).map (fun e => ((e.num : ℚ) / e.den) ^ 2)).sum
      let ok := fun (n : Nat) => d n * 2 ^ 32 ≤ (bound : ℚ) * (tot.1 / tot.2)
      r.1 ≤ l.length ∧ ((r.2.1.1 : ℚ) / r.2.1.2 = d r.1) ∧ 0 < r.2.1.2 ∧ (0 < r.1 → ok r.1) ∧ (r.1 < l.length → ¬ok (r.1 + 1)) ∧
      r.2.2 = (l.take r.1).getLast?) ∧
  (
    ∀ (d a : Reg) (s : State),
      (∀ l u c lo u2 o rows u3 rec' u4 tiles u5, (s.x a).toNat % 32 = 0 → blockRead (s.x a) (publish .module s) = .ok (l, u) → parseBlock l = some c →
        c.src % 32 = 0 → c.record % 256 = 0 → c.stream % 32 = 0 → blockRead (globWord c.src) u = .ok (lo, u2) → GoodOperand lo o → GoodStride o →
        c.n * o.k ≤ 2 ^ 18 → (o.tag = 9 ↔ c.stream ≠ 0) → denseRows o (List.range c.n) u2 = .ok (rows, u3) →
        operBytes engW c.record (maxRecord o c.n c.tmax) u3 = .ok (rec', u4) →
        (if o.tag = 9 then tilesAt c.stream o.k (List.range (c.n / 32)) [] u4 else .ok ([], u4)) = .ok (tiles, u5) →
        (∀ x ∈ tiles, poisonedAny u5 (x.2.take 1) = false → leNat ((readPieces u5 (x.2.take 1)).take 4) = (o.seq0 + x.1) % 2 ^ 32) →
        ∃ t, exec (.assay d a) s = .next t ∧ t.th.wait = .assay d ∧ t.th.pc = s.th.pc ∧ (∀ r, t.x r = s.x r) ∧ Published s t ∧ t.th.report = s.th.report ∧
          t.assays = s.assays ++ [{ berth := s.cur, cluster := clusterOf s.quad, src := o, n := c.n, tmax := c.tmax, bound := c.bound, rows := rows, tiles := tiles,
                                    heads := tiles.map (fun x => readPieces u5 (x.2.take 1)), record := rec', poisoned := tiles.any (fun x => poisonedAny u5 (x.2.take 1)) }]) ∧
      (∀ (w : Word) (v : State), (∀ e, access1 v w 32 32 false needR = .error e → blockRead w v = .error e) ∧
        (∀ k x, access1 v w 32 32 false needR = .ok (k, x) → ∃ y, blockRead w v = .ok (if isPurse k = true then memRead x.mem k 32
          else latest (if x.stores.any (fun st => st.addr / 256 == k / 256 && st.tid != x.th.tid) then settleLine x (k / 256) else x) k 32, y))) ∧
      (∀ e, (s.x a).toNat % 32 = 0 → blockRead (s.x a) (publish .module s) = .error e → Stops (publish .module s) e (exec (.assay d a) s)) ∧
      (∀ (l : List Byte) (c : AssayBlock), parseBlock l = some c ↔
        c = { src := dbl l 0, bound := dbl l 8 / 2 ^ 32 % 2 ^ 32, n := dbl l 8 / 2 ^ 16 % 2 ^ 16, tmax := dbl l 8 / 2 ^ 8 % 4, record := dbl l 16, stream := dbl l 24 } ∧
          dbl l 0 < 2 ^ 56 ∧ dbl l 16 < 2 ^ 56 ∧ dbl l 24 < 2 ^ 56 ∧ dbl l 8 / 2 ^ 10 % 2 ^ 6 = 0 ∧ dbl l 8 % 2 ^ 8 = 0 ∧ c.tmax ≠ 0 ∧
          c.n % 32 = 0 ∧ 32 ≤ c.n ∧ c.n ≤ 512) ∧
      (∀ b x r, servedAssay s b = some x → x.consumed = true → x.poisoned = false → (s.ctx b).wait = .assay r →
        (∀ e ∈ s.mgangs, ∀ op, e.2.op = some op → op.consumed = false → ∀ k ∈ pieceGranules (piecesUpTo x.bytes.length x.record), k ∉ op.footprint) →
        (∀ p ∈ x.record, isPurse p.1 = false) →
        ∃ t, exec (.assayCompletion b) s = .next t ∧ t.cur = s.cur ∧ (t.ctx b).wait = .ready ∧ (t.ctx b).pc = (s.ctx b).pc + 4 ∧ (t.ctx b).report = x.report ∧
          (r ≠ 0 → (t.ctx b).regs[r] = BitVec.ofNat 64 x.status) ∧ (∀ y ∈ t.assays, y.berth ≠ b) ∧ t.mem = (writePieces s x.record x.bytes).mem) ∧
      (∀ sel : BitVec 3, (h : sel.toNat < 6) → WritesX 4 d s.th.report[sel.toNat] s (exec (.astat d sel) s)) ∧
      (∀ sel : BitVec 3, 6 ≤ sel.toNat → exec (.astat d sel) s = .next (takeFault { cause := .illegal } s)))

/-! ### The teller and the collector (12) -/

namespace Sys2Proof.Say

def fld (w hi lo : Nat) : Nat := w / 2 ^ lo % 2 ^ (hi + 1 - lo)

/-- The fields that 12 R210 and R211 give the bytes of a descriptor. -/
def DescFields (gather : Bool) (l : List Byte) (d : Desc) : Prop :=
  let c := dbl l 24
  let z := dbl l 16
  d.aw.toNat = dbl l 0 ∧ d.bw.toNat = dbl l 8 ∧ d.cnt = decide (fld c 63 63 = 1) ∧ d.ctr = fld c 62 60 ∧ d.cont = decide (fld c 59 59 = 1) ∧
    d.dep = fld c 58 57 ∧ d.dch = fld c 56 55 ∧ d.strict = decide (fld c 54 54 = 1) ∧ d.pool = decide (fld c 53 53 = 1) ∧
    d.unit = decide (fld c 52 52 = 1) ∧ d.side0.toNat = dbl l 32 ∧ d.side1.toNat = dbl l 40 ∧ d.depVal = dbl l 48 ∧
    (gather = false → d.len = fld z 35 0) ∧
    (gather = true → d.tlen = fld z 63 32 ∧ d.n = fld z 31 12 ∧ d.row = 32 * fld z 11 0 ∧ d.idx.toNat = dbl l 64 ∧ d.stat.toNat = dbl l 72 ∧
      d.pitch = fld (dbl l 80) 63 32 ∧ d.stride = fld (dbl l 80) 31 0)

/-- The rules of R210, R211, R225 and R227 that fault FORMAT. -/
def GoodForm (gather : Bool) (l : List Byte) (d : Desc) (last : Prop) : Prop :=
  fld (dbl l 24) 51 0 = 0 ∧ d.dep ≠ 3 ∧ (d.dep ≠ 1 → d.dch = 0 ∧ d.depVal = 0) ∧ (d.cont = false → d.side0 = 0 ∧ d.side1 = 0) ∧ last ∧
    (gather = false → d.strict = false ∧ fld (dbl l 16) 63 36 = 0 ∧ ¬(d.cnt = true ∧ d.unit = false ∧ 2 ^ 24 - 1 < d.len)) ∧
    (gather = true → d.unit = false ∧ 0 < d.row ∧ d.row ≤ 32 * 2048 ∧ d.row ≤ d.pitch ∧ d.row ≤ d.stride ∧ dbl l 88 = 0)

/-- Those that fault ALIGN. -/
def GoodAlign (gather : Bool) (d : Desc) : Prop :=
  if gather = true then d.bw.toNat % 32 = 0 ∧ d.stride % 32 = 0 ∧ d.idx.toNat % 4 = 0
  else d.aw.toNat % 16 = 0 ∧ d.bw.toNat % 16 = 0 ∧ d.len % 16 = 0

/-- A purse word of a descriptor names n bytes of a quad of the net, no bytes at any offset; a global word is left to the engine (R209). -/
def GoodWord (s : State) (w : Word) (n : Nat) : Prop :=
  ∃ f, formOf w = some f ∧ ((∃ va, f = .glob va) ∨ (n = 0 ∧ purseQuad s s.net s.quad f ≠ none) ∨ (n ≠ 0 ∧ purseAccess s s.net s.quad f n ≠ none))

/-- Every word of a descriptor over the extent that its command will certainly touch (R209). -/
def GoodWords (gather : Bool) (s : State) (d : Desc) : Prop :=
  if gather = true then
    GoodWord s d.aw 1 ∧ GoodWord s d.bw (if d.n = 0 then 0 else (d.n - 1) * d.stride + d.row) ∧ GoodWord s d.idx (4 * d.n) ∧ (d.stat ≠ 0 → GoodWord s d.stat d.n)
  else GoodWord s d.aw d.len ∧ GoodWord s d.bw d.len

/-- The counter a descriptor names is granted, and its continuation's sides are PRIN or IMM words (R209). -/
def GoodCounter (s : State) (d : Desc) : Prop := d.cnt = true → s.net.counters.getLsbD d.ctr = true
def GoodSides (d : Desc) : Prop := d.cont = true → sideOk d.side0 = true ∧ sideOk d.side1 = true

/-- A command has entered the tail of queue ch with half of the thread's coin (R208 R209 R212 R215), and nothing else of the engines, no byte of
    memory since the descriptor's read u, and no other thread has changed. The descriptor is kept no longer. -/
def EnteredIn (s u t : State) (ch : Nat) (k : CmdKind) (d : Desc) (aw : Word) : Prop :=
  let c := u.chan s.quad ch
  let dep := if d.dep = 1 then { d with depVal := min d.depVal ((u.chan s.quad d.dch).next - 1) } else d
  t.th.coin = coinLeft s ∧ t.th.lent = lentNow s ∧ t.th.desc = none ∧ t.th.pc = s.th.pc + 4 ∧ t.mem = u.mem ∧ t.stores = u.stores ∧ t.counters = s.counters ∧ t.deques = s.deques ∧
    t.chan s.quad ch = { c with next := c.next + 1, queue := c.queue ++ [{ kind := k, desc := dep, coin := coinNow s / 2, net := s.th.net, cls := s.th.cls, id := c.next,
                                                                           seq := s.nextCmd, tid := s.th.tid, quad := s.quad, descAddr := aw, waitOp := d.dep == 2 }] } ∧
    t.nextCmd = s.nextCmd + 1 ∧ (∀ q h, h < 8 → (q, h) ≠ (s.quad, ch) → t.chan q h = s.chan q h) ∧
    (∀ b, b ≠ s.cur → BerthStands s t b) ∧ t.th.vecs = s.th.vecs

/-- Nothing happens but that the thread leaves rotation with the pc on the instruction. -/
def WaitsFor (w : Wait) (s : State) (o : Result) : Prop :=
  ∃ t, o = .next t ∧ t.th = { s.th with wait := w, waited := 0 } ∧ t.chans = s.chans ∧ t.counters = s.counters ∧ t.deques = s.deques ∧
    ∀ b, b ≠ s.cur → Tbl.get? t.berths b = Tbl.get? s.berths b

end Sys2Proof.Say

/-- R208 to R211, R215, R216, R227: `cpy`, `gath` and `scat` read their descriptor, check it in the order FORMAT, ALIGN, ACCESS, LINK_CORRUPT, wait
    while the queue or the scoreboard has no room, and enter one command at its queue's tail. The descriptor is read once: a wait for room or for a
    borrow keeps it. -/
def Obligations.EngineCommandsEnterTheirQueues : Prop :=
  ∀ (d a : Reg) (k : BitVec 2) (s : State),
    let runs := fun (gather : Bool) (i : Instr) (ch : Nat) (kind : CmdKind) (rd : Reg) =>
      (s.th.desc = none → (s.x a).toNat % 32 ≠ 0 → exec i s = .next (takeFault { cause := .align, addr := faultAddr (s.x a) } s)) ∧
      (∀ e, readDesc (s.x a) gather s = .error e → Stops s e (exec i s)) ∧
      (∀ k l, s.th.desc = some (k, l) → readDesc (s.x a) gather s = .ok (l, true, s)) ∧
      (s.th.desc = none → (s.x a).toNat % 32 = 0 → ∀ ks v, access s (s.x a) (if gather then 96 else 64) 32 false needR false 32 = .ok (ks, v) → ∃ u,
        readDesc (s.x a) gather s = .ok ((clrLoads ks v).1, ks.all (fun k => isLocal s k.1), u) ∧ u.th.desc = some (0, (clrLoads ks v).1) ∧
        OnlyThread (clrLoads ks v).2 u { (clrLoads ks v).2.th with desc := u.th.desc }) ∧
      ∀ l here u ds, readDesc (s.x a) gather s = .ok (l, here, u) → DescFields gather l ds →
        (¬GoodForm gather l ds (dbl l 56 = 0) → exec i s = .next (takeFault { cause := .format } u)) ∧
        (GoodForm gather l ds (dbl l 56 = 0) →
          (¬GoodAlign gather ds → exec i s = .next (takeFault { cause := .align } u)) ∧
          (GoodAlign gather ds → ¬GoodWords gather s ds → ∃ w, exec i s = .next (takeFault { cause := .access, addr := w } u)) ∧
          (GoodAlign gather ds → GoodWords gather s ds → ¬GoodCounter s ds → exec i s = .next (takeFault { cause := .access } u)) ∧
          (GoodAlign gather ds → GoodWords gather s ds → GoodCounter s ds → ¬GoodSides ds → exec i s = .next (takeFault { cause := .linkCorrupt } u)) ∧
          (GoodAlign gather ds → GoodWords gather s ds → GoodCounter s ds → GoodSides ds →
            (∀ ds', ds' = parseDesc l gather → hasRoom u s.quad ch kind ds' s.th.net = false → WaitsFor .room u (exec i s)) ∧
            (∀ ds', ds' = parseDesc l gather → hasRoom u s.quad ch kind ds' s.th.net = true →
              (coinNow s < 2 → WaitsFor .borrow u (exec i s)) ∧
              (2 ≤ coinNow s → ∃ t, exec i s = .next t ∧ EnteredIn s u t ch kind ds' (s.x a) ∧ DescFields gather l ds' ∧
                (∀ r, t.x r = if r = rd ∧ r ≠ 0 then BitVec.ofNat 64 (s.chan s.quad ch).next else s.x r) ∧
                t.th.wait = if here = true then s.th.wait else .reply))))
    runs false (.cpy d a k) k.toNat .copy d ∧ runs true (.gath a) 4 .gather 0 ∧ runs true (.scat a) 4 .scatter 0

/-- R174, R228: `qfence` enters every queue that its mask names in one step, with one coin for them all, and changes no other queue; a mask of zero
    faults ILLEGAL, and a full queue makes it wait. -/
def Obligations.QueueFencesEnterEveryNamedQueue : Prop :=
  ∀ (m : BitVec 5) (s : State),
    let named := fun ch => ch < 5 ∧ m.getLsbD ch = true
    (m = 0 → exec (.qfence m) s = .next (takeFault { cause := .illegal } s)) ∧
    (m ≠ 0 → (∃ ch, named ch ∧ 16 ≤ (s.chan s.quad ch).queue.length) → WaitsFor .room s (exec (.qfence m) s)) ∧
    (m ≠ 0 → (∀ ch, named ch → (s.chan s.quad ch).queue.length < 16) → coinNow s < 2 → WaitsFor .borrow s (exec (.qfence m) s)) ∧
    (m ≠ 0 → (∀ ch, named ch → (s.chan s.quad ch).queue.length < 16) → 2 ≤ coinNow s →
      ∃ t, exec (.qfence m) s = .next t ∧ t = { s with chans := t.chans, nextCmd := s.nextCmd + 1, berths := t.berths } ∧
        t.th = { s.th with coin := coinLeft s, lent := lentNow s, pc := s.th.pc + 4 } ∧
        (∀ b, b ≠ s.cur → Tbl.get? t.berths b = Tbl.get? s.berths b) ∧
        (∀ ch, named ch → let c := s.chan s.quad ch
          t.chan s.quad ch = { c with next := c.next + 1, queue := c.queue ++ [{ kind := .fence m, coin := coinNow s / 2, net := s.th.net, cls := s.th.cls, id := c.next,
                                                                                 seq := s.nextCmd, tid := s.th.tid, quad := s.quad }] }) ∧
        ∀ q ch, ch < 8 → ¬(q = s.quad ∧ named ch) → t.chan q ch = s.chan q ch)

/-- R225, R229: `stage` takes the next schedule entry that names the quad, past which the quad's cursor moves once its checks have passed, and enters it
    in its channel; with no entry left it writes 0, enters nothing and moves no coin, in rotation where it has read no entry. An entry taken is kept
    through a wait for room or for a borrow; one that fails its checks leaves the cursor on it. -/
def Obligations.StageEntersTheNextScheduleEntry : Prop :=
  ∀ (d : Reg) (s u : State),
    let cur := (s.netq s.th.net s.quad).cursor
    let next := nextEntry (s.net.schedCount - cur) cur s
    (s.th.desc = none → stageEntry s = next) ∧
    (∀ i l, s.th.desc = some (i, l) → stageEntry s = if i = 0 then next else .ok (some (i - 1, l), s)) ∧
    (∀ e, stageEntry s = .error e → Stops s e (exec (.stage d) s)) ∧
    (stageEntry s = .ok (none, u) →
      ∃ t, exec (.stage d) s = .next t ∧ t.th.pc = s.th.pc + 4 ∧ t.th.wait = (if s.net.schedCount ≤ cur then u.th.wait else .reply) ∧ t.th.coin = s.th.coin ∧ (∀ r, t.x r = if r = d then 0 else s.x r) ∧
        t.mem = u.mem ∧ t.chans = s.chans ∧ t.netqs = s.netqs ∧ ∀ b, b ≠ s.cur → BerthStands s t b) ∧
    (∀ i l, stageEntry s = .ok (some (i, l), u) →
      let nq := s.netq s.th.net s.quad
      let kept := (u.setNetq s.th.net s.quad { nq with cursor := max nq.cursor (i + 1) }).setTh { u.th with desc := some (i + 1, l) }
      let ds := parseDesc l false
      let ch := fld (dbl l 56) 49 48
      let spare := fld (dbl l 56) 63 50 = 0 ∧ fld (dbl l 56) 47 18 = 0
      (¬GoodForm false l ds spare → exec (.stage d) s = .next (takeFault { cause := .format } u)) ∧
      (GoodForm false l ds spare → ¬GoodAlign false ds → exec (.stage d) s = .next (takeFault { cause := .align } u)) ∧
      (GoodForm false l ds spare → GoodAlign false ds → GoodWords false s ds → GoodCounter s ds → GoodSides ds →
        (hasRoom u s.quad ch .copy ds s.th.net = false → WaitsFor .room kept (exec (.stage d) s)) ∧
        (hasRoom u s.quad ch .copy ds s.th.net = true → coinNow s < 2 → WaitsFor .borrow kept (exec (.stage d) s))) ∧
      (GoodForm false l ds spare → GoodAlign false ds → GoodWords false s ds → GoodCounter s ds → GoodSides ds →
        hasRoom u s.quad ch .copy ds s.th.net = true → 2 ≤ coinNow s →
        ∃ t, exec (.stage d) s = .next t ∧ EnteredIn s u t ch .copy ds (BitVec.ofNat 64 (2 ^ 59 + (s.net.schedBase + 64 * i))) ∧
          (t.netq s.th.net s.quad).cursor = max nq.cursor (i + 1) ∧ t.th.wait = .reply ∧
          ∀ r, t.x r = if r = d ∧ r ≠ 0 then BitVec.ofNat 64 (s.chan s.quad ch).next else s.x r))

/-- R212 to R214, R230, R231: `waitm` passes once the mark suffices, of a value lowered to the last identifier issued, and parks otherwise; `expect`
    adds to a granted counter within 2^24 − 1; `waite` passes at zero with UNDER, which it clears, and parks otherwise. The program time that a passed
    mark leaves is the model's reading (log entry 44). -/
def Obligations.MarksAndCountersArePassedOrAwaited : Prop :=
  ∀ (d a : Reg) (ch : BitVec 2) (k : BitVec 3) (s : State),
    let c := s.chan s.quad ch.toNat
    let v := min (s.x a).toNat (c.next - 1)
    let x := s.counter s.quad k.toNat
    let n := (s.x a).toNat
    let still := fun (t : State) => t.mem = s.mem ∧ t.chans = s.chans ∧ ∀ b, b ≠ s.cur → Tbl.get? t.berths b = Tbl.get? s.berths b
    let others := fun (t : State) => ∀ j, j ≠ 8 * s.quad + k.toNat → Tbl.get? t.counters j = Tbl.get? s.counters j
    (v ≤ c.mark → ∃ t, exec (.waitm a ch) s = .next t ∧ still t ∧ t.counters = s.counters ∧
      t.th = { s.th with pc := s.th.pc + 4, pts := if v = 0 then s.th.pts else max s.th.pts c.time }) ∧
    (c.mark < v → WaitsFor (.mark ch.toNat v) s (exec (.waitm a ch) s)) ∧
    (s.net.counters.getLsbD k.toNat = false → exec (.expect a k) s = .next (takeFault { cause := .access } s) ∧
      exec (.waite d k) s = .next (takeFault { cause := .access } s)) ∧
    (s.net.counters.getLsbD k.toNat = true →
      (2 ^ 24 ≤ n ∨ 2 ^ 24 - 1 < x.count + n → exec (.expect a k) s = .next (takeFault { cause := .expectRange } s)) ∧
      (n < 2 ^ 24 → x.count + n ≤ 2 ^ 24 - 1 → ∃ t, exec (.expect a k) s = .next t ∧ still t ∧ others t ∧
        t.counter s.quad k.toNat = { x with count := x.count + n } ∧ t.th = { s.th with pc := s.th.pc + 4 }) ∧
      (x.count = 0 → ∃ t, exec (.waite d k) s = .next t ∧ still t ∧ others t ∧ t.counter s.quad k.toNat = { x with under := false } ∧
        t.th = { s.th with regs := t.th.regs, pc := s.th.pc + 4, pts := max s.th.pts x.time, wait := .ready } ∧
        ∀ r, t.x r = if r = d ∧ r ≠ 0 then (if x.under then 1 else 0) else s.x r) ∧
      (x.count ≠ 0 → WaitsFor (.counter k.toNat d) s (exec (.waite d k) s)))

/-! ### Control, rule and net instructions (15) -/

namespace Sys2Proof.Say

/-- Only the issuing thread's pc and at most register d change: d takes v. -/
def Jumps (d : Reg) (v : Word) (pc : Nat) (s : State) (o : Result) : Prop :=
  ∃ t, o = .next t ∧ OnlyThread s t { s.th with regs := t.th.regs, pc := t.th.pc } ∧ t.th.pc.toNat = pc ∧
    ∀ r, t.x r = if r = d ∧ r ≠ 0 then v else s.x r

/-- A target quad named in the form of `%quad` below the bit `width` (15 R264 R271). -/
def Names (s : State) (v : Word) (width q : Nat) : Prop := v.toNat < 2 ^ width ∧ s.net.ofForm s (v.toNat % 2 ^ 18) = some q
def NamesNone (s : State) (v : Word) (width : Nat) : Prop := 2 ^ width ≤ v.toNat ∨ s.net.ofForm s (v.toNat % 2 ^ 18) = none

/-- A record is placed (15 R264, 13 R238 R239): at the newest end of the own deque, where a full deque first spills its 128 oldest; or sent to
    another quad, the thread out of rotation until its receiver has entered it. A thread that pushes locally is left to `wait`. -/
def Placed (q : Nat) (r : Rec) (wait : Wait) (s t : State) : Prop :=
  (q = s.quad → t.msgs = s.msgs ∧ t.th.wait = wait ∧ s.netStateAt r.net q ≠ .parked ∧
    (∀ p, p ≠ q → Tbl.get? t.deques p = Tbl.get? s.deques p) ∧
    ((s.deque q).length < 256 → t.deque q = s.deque q ++ [r] ∧ t.spills = s.spills) ∧
    (256 ≤ (s.deque q).length → t.deque q = (s.deque q).drop 128 ++ [r] ∧ ∃ b, t.spill q = (b, (s.deque q).take 128) :: s.spill q)) ∧
  (q ≠ s.quad → t.msgs = s.msgs ++ [{ src := s.quad, dst := q, body := .redex r (some s.th.tid) }] ∧ t.deques = s.deques ∧ t.spills = s.spills ∧
    t.th.wait = .sent)

/-- The issuing thread has ended (15 R269): its berth is free, its gangs are over, what it stored is published, and no other thread has changed. -/
def Ended (s t : State) : Prop :=
  Tbl.get? t.berths s.cur = none ∧ (∀ b, b ≠ s.cur → BerthStands s t b) ∧ Tbl.get? t.mgangs s.cur = none ∧
    Tbl.get? t.vgangs s.cur = none ∧ Published s t ∧ (∀ e ∈ t.chans, ∀ c ∈ e.2.queue, c.tid = s.th.tid → c.waitOp = false) ∧ ∀ x ∈ t.assays, x.berth ≠ s.cur

end Sys2Proof.Say

/-- R260, R261, R279, R280: branches go to pc + 4 × displacement modulo 2^56, `bl` leaving the address after its own words in x15; `jr` and `ret` go
    to bits 55:0 of a register that keeps bits 1:0 zero and fault ALIGN otherwise; `cls` sets the class, lowered to the net's; `yield` gives a turn. -/
def Obligations.BranchesClassesAndTurns : Prop :=
  ∀ (d a : Reg) (i : BitVec 25) (j : BitVec 53) (n : BitVec 2) (s : State),
    let pc := s.th.pc.toNat
    let goes := fun (k : Int) => (((pc : Int) + 4 * k) % 2 ^ 56).toNat
    let after := fun (k : Nat) => BitVec.ofNat 64 ((pc + k) % 2 ^ 56)
    let reg := fun (w : Word) => w.toNat % 2 ^ 56
    let sets := fun (c : BitVec 2) (o : Result) => ∃ t, o = .next t ∧
      OnlyThread s t { s.th with pc := s.th.pc + 4, cls := if s.net.priv = true ∨ c.toNat ≤ s.net.cls.toNat then c else s.net.cls }
    Jumps 0 0 (goes i.toInt) s (exec (.b i) s) ∧ Jumps 0 0 (goes j.toInt) s (exec (.bExt j) s) ∧
    Jumps 15 (after 4) (goes i.toInt) s (exec (.bl i) s) ∧ Jumps 15 (after 8) (goes j.toInt) s (exec (.blExt j) s) ∧
    ((s.x a).toNat % 4 = 0 → Jumps d (after 4) (reg (s.x a)) s (exec (.jr d a) s)) ∧
    ((s.x a).toNat % 4 ≠ 0 → exec (.jr d a) s = .next (takeFault { cause := .align } s)) ∧
    ((s.x 15).toNat % 4 = 0 → Jumps 0 0 (reg (s.x 15)) s (exec .ret s)) ∧
    ((s.x 15).toNat % 4 ≠ 0 → exec .ret s = .next (takeFault { cause := .align } s)) ∧
    sets n (exec (.cls n) s) ∧ sets (BitVec.ofNat 2 (s.x a).toNat) (exec (.clsReg a) s) ∧
    ∃ t, exec .yield s = .next t ∧ t = { s with berths := t.berths } ∧ t.berth s.cur = { s.berth s.cur with ctx := { s.th with pc := s.th.pc + 4 }, gave := true } ∧
      ∀ b, b ≠ s.cur → Tbl.get? t.berths b = Tbl.get? s.berths b

/-- R262, R263: `nalloc` takes a free cell of the own pool that is clear of every cell in use and writes the node in it, or answers 0 when there is
    none, and faults LINK_CORRUPT on a header that breaks R30; `nfree`, one read-modify-write of header and slots, clears the header of a live node
    with no HOLD slot and returns its cell. A word of its own or of a slot that breaks R27 faults LINK_CORRUPT; what a word that names no node
    answers, and that the principal slot may hold HOLD, are the model's readings (log entries 11 and 26). -/
def Obligations.NodeCellsAreTakenAndReturned : Prop :=
  ∀ (d a : Reg) (s : State),
    let h := s.x a
    let n := s.th.net
    let q := s.quad
    let nr := s.net
    let size := nodeSize h
    let held := fun (off : Nat) => nr.poolOff ≤ off ∧ off + size ≤ nr.poolOff + nr.poolSize ∧ ∀ c ∈ (s.netq n q).nodes, off + size ≤ c.1 ∨ c.1 + c.2 ≤ off
    (headerOk h = false ∨ hdrKind h = 0xFF → exec (.nalloc d a) s = .next (takeFault { cause := .linkCorrupt } s)) ∧
    (headerOk h = true → hdrKind h ≠ 0xFF →
      (allocNode n q size s = none → (∀ i, i < nr.poolSize / 16 → ¬held (nr.poolOff + 16 * i)) ∧ WritesX 4 d 0 s (exec (.nalloc d a) s)) ∧
      (∀ off u, allocNode n q size s = some (off, u) → held off ∧
        ∃ t, exec (.nalloc d a) s = .next t ∧ t.th = { s.th with regs := t.th.regs, pc := s.th.pc + 4, pts := t.th.pts } ∧
          (∀ r, t.x r = if r = d ∧ r ≠ 0 then BitVec.ofNat 64 (2 * 2 ^ 60 + nr.form s q * 2 ^ 18 + off) else s.x r) ∧
          (t.netq n q).nodes = (off, size) :: (s.netq n q).nodes ∧ t.stores = s.stores ∧ t.empties = s.empties ∧
          (∀ b, b ≠ s.cur → Tbl.get? t.berths b = Tbl.get? s.berths b) ∧
          (off + size ≤ 2 ^ 18 → memRead t.mem (purseKey q off) 8 = wordBytes h ∧
            (∀ i, i ≤ hdrArity h → memRead t.mem (purseKey q off + 8 + 8 * i) 8 = wordBytes holdWord) ∧
            (∀ x, x < hdrLen h → memGet t.mem (purseKey q off + 16 + 8 * hdrArity h + x) = 0)) ∧
          ∀ x, x < purseKey q off ∨ purseKey q off + size ≤ x → memGet t.mem x = memGet s.mem x)) ∧
    ((tagOf h = 0 ∨ (tagOf h = 2 ∧ portOk h = true)) → ∀ e, access1 s (addrOf h) 8 1 true needRW = .error e → Stops s e (exec (.nfree a) s)) ∧
    (∀ k u', (tagOf h = 0 ∨ (tagOf h = 2 ∧ portOk h = true)) → access1 s (addrOf h) 8 1 true needRW = .ok (k, u') → isPurse k = true →
      let nq := s.netq n (keyQuad k)
      let cell := k = handlerKey s n ∨ ∃ c ∈ nq.nodes, c.1 = keyOff k
      let len := if cell then 16 + 8 * min (hdrArity (bankWord s k)) 6 else 8
      (∀ e, access1 s (addrOf h) len 1 true needRW = .error e → Stops s e (exec (.nfree a) s)) ∧
      (∀ u, access1 s (addrOf h) len 1 true needRW = .ok (k, u) →
      let live := keyOff k ∉ nq.freed ∧ hdrKind (bankWord s k) ≠ 0
      let whole := ∀ i, i ≤ min (hdrArity (bankWord s k)) 6 → portOk (bankWord s (k + 8 + 8 * i)) = true ∧ (i ≠ 0 → bankWord s (k + 8 + 8 * i) ≠ holdWord)
      let start := keyOff k ∈ nq.freed ∨ ∃ c ∈ nq.nodes, c.1 = keyOff k
      (k = handlerKey s n → exec (.nfree a) s = .next (takeFault { cause := .linkCorrupt } s)) ∧
      (k ≠ handlerKey s n → ¬start → exec (.nfree a) s = .next (takeFault { cause := .access, addr := addrOf h } s)) ∧
      (k ≠ handlerKey s n → start → ¬(live ∧ whole) → exec (.nfree a) s = .next (takeFault { cause := .linkCorrupt } s)) ∧
      (k ≠ handlerKey s n → start → live → whole → ∃ t, exec (.nfree a) s = .next t ∧ Published s t ∧ t.th.pc = s.th.pc + 4 ∧ (∀ r, t.x r = s.x r) ∧
        (∀ x, memGet t.mem x = if k ≤ x ∧ x < k + 8 then 0 else memGet (publish .module u).mem x) ∧
        (t.netq n (keyQuad k)).nodes = nq.nodes.filter (fun c => c.1 ≠ keyOff k) ∧ keyOff k ∈ (t.netq n (keyQuad k)).freed ∧
        ∀ b, b ≠ s.cur → Tbl.get? t.berths b = Tbl.get? s.berths b))) ∧
    (tagOf h ≠ 0 → portOk h = false → exec (.nfree a) s = .next (takeFault { cause := .linkCorrupt } s)) ∧
    (tagOf h ≠ 0 → tagOf h ≠ 2 → portOk h = true → exec (.nfree a) s = .next (takeFault { cause := .access, addr := h } s))

/-- R251, R264, R271: `redex` places a record with half of the thread's coin on the own deque or sends it; `spawn` sends a context with x1 to x7, or
    enters it in the own core's arrival queue. All checks come before the split, so a fault moves no coin. That a `spawn` to the own core stays in
    rotation where its context spills is log entry 86. -/
def Obligations.WorkIsMadeWithHalfTheCoin : Prop :=
  ∀ (a b q : Reg) (g : Bool) (s : State),
    let coin := coinNow s / 2
    let left := { s.th with coin := coinLeft s, lent := lentNow s, pc := s.th.pc + 4 }
    let still := fun (t : State) => t.stores = s.stores ∧ ∀ x, x ≠ s.cur → Tbl.get? t.berths x = Tbl.get? s.berths x
    let r : Rec := { a := s.x a, b := s.x b, coin := coin, net := s.th.net, cls := s.th.cls, typ := if g = true then 1 else 0, time := max s.th.pts (s.clock / 512) }
    let sides := sideOk (s.x a) = true ∧ sideOk (s.x b) = true
    let c : Context := { net := s.th.net, cls := s.th.cls, pts := max s.th.pts (s.clock / 512), x := (List.range 7).map (fun i => s.th.regs.toList.getD (i + 1) 0),
                         pc := BitVec.ofNat 56 (s.x a).toNat, coin := coin, quad := 0, core := 0 }
    (¬sides → exec (.redex q a b g) s = .next (takeFault { cause := .linkCorrupt } s)) ∧
    (sides → q ≠ 0 → NamesNone s (s.x q) 18 → exec (.redex q a b g) s = .next (takeFault { cause := .access } s)) ∧
    (∀ dst, sides → (q = 0 → dst = s.quad) → (q ≠ 0 → Names s (s.x q) 18 dst) →
      (coinNow s < 2 → WaitsFor .borrow s (exec (.redex q a b g) s)) ∧
      (2 ≤ coinNow s → dst = s.quad → s.netStateAt s.th.net dst ≠ .parked → 256 ≤ (s.deque dst).length → poolFull s = true →
        WaitsFor .spill s (exec (.redex q a b g) s)) ∧
      (2 ≤ coinNow s → (dst = s.quad → s.netStateAt s.th.net dst ≠ .parked ∧ ((s.deque dst).length < 256 ∨ poolFull s = false)) →
        ∃ t, exec (.redex q a b g) s = .next t ∧ Placed dst r (if 256 ≤ (s.deque dst).length then .reply else s.th.wait) s t ∧
          t.th = { left with wait := t.th.wait, waited := if dst = s.quad ∧ (s.deque dst).length < 256 then s.th.waited else 0 } ∧
          ((s.deque dst).length < 256 ∨ dst ≠ s.quad → still t ∧ t.mem = s.mem))) ∧
    (b ≠ 0 → NamesNone s (s.x b) 20 → exec (.spawn a b) s = .next (takeFault { cause := .access } s)) ∧
    (∀ dst core, (b = 0 → dst = s.quad ∧ core = s.cur / 16 % 4) → (b ≠ 0 → Names s (s.x b) 20 dst ∧ core = (s.x b).toNat / 2 ^ 18 % 4) →
      ((s.x a).toNat % 4 ≠ 0 → exec (.spawn a b) s = .next (takeFault { cause := .align } s)) ∧
      ((s.x a).toNat % 4 = 0 → coinNow s < 2 → WaitsFor .borrow s (exec (.spawn a b) s)) ∧
      ((s.x a).toNat % 4 = 0 → 2 ≤ coinNow s →
        let c := { c with quad := dst, core := core }
        (4 * dst + core ≠ s.cur / 16 → ∃ t, exec (.spawn a b) s = .next t ∧ t.th = { left with wait := .sent, waited := 0 } ∧ still t ∧ t.mem = s.mem ∧
          t.msgs = s.msgs ++ [{ src := s.quad, dst := dst, body := .context c (some s.th.tid) }]) ∧
        (4 * dst + core = s.cur / 16 → s.netStateAt c.net (s.cur / 64) = .bound → (s.arrQ (s.cur / 16)).length < 64 → s.arrS (s.cur / 16) = [] →
          ∃ t, exec (.spawn a b) s = .next t ∧ t.th = left ∧ still t ∧ t.mem = s.mem ∧ t.nextArr = s.nextArr + 1 ∧
            t.arrQ (s.cur / 16) = s.arrQ (s.cur / 16) ++ [{ c with seq := s.nextArr }]) ∧
        (4 * dst + core = s.cur / 16 → s.netStateAt c.net (s.cur / 64) = .bound → (64 ≤ (s.arrQ (s.cur / 16)).length ∨ s.arrS (s.cur / 16) ≠ []) →
          let room := poolSlot s ((s.arrS (s.cur / 16)).map (·.slot)) 64 96
          (room = none → WaitsFor .spill s (exec (.spawn a b) s)) ∧
          ∀ x, room = some x → ∃ t, exec (.spawn a b) s = .next t ∧ t.th = left ∧ still t ∧ t.arrQ (s.cur / 16) = s.arrQ (s.cur / 16) ∧
            t.arrS (s.cur / 16) = s.arrS (s.cur / 16) ++ [{ c with seq := s.nextArr, slot := x }])))

/-- R250, R265, R269, R272: `done` ends the thread and returns its whole coin; `migr` sends it to the core whose share holds the address, with half of
    its coin and with its broken mark (R109), and returns the rest. An unfinished range goes back to the deque first, as a type-1 record with a split of the coin. -/
def Obligations.ThreadsEndAndMigrate : Prop :=
  ∀ (a : Reg) (s : State),
    let all := s.th.coin + 2 ^ 32 * s.th.lent
    let rest := coinLeft s + 2 ^ 32 * lentNow s
    let coinBack := fun (n : Nat) (t : State) => if n = 0 then t.msgs = s.msgs else ∃ w, t.msgs = s.msgs ++ [{ src := s.quad, dst := 0, body := .ret s.th.net n w }]
    (s.th.range = none → ∃ t, exec .done s = .next t ∧ Ended s t ∧ coinBack all t ∧ t.deques = s.deques) ∧
    (∀ body node e, s.th.range = some (body, node) → rangeGranule s node = .error e → Stops s e (exec .done s)) ∧
    (∀ body node k u, s.th.range = some (body, node) → rangeGranule s node = .ok (k, u) →
      let g := (clrLoad k 16 u).1
      (dbl g 8 ≤ dbl g 0 → ∃ t, exec .done s = .next t ∧ Ended s t ∧ coinBack all t ∧ t.deques = s.deques) ∧
      (dbl g 0 < dbl g 8 → 2 ≤ coinNow s → (s.deque s.quad).length < 256 → s.netStateAt s.th.net s.quad ≠ .parked →
        ∃ t w, exec .done s = .next t ∧ Ended s t ∧ coinBack rest t ∧
          t.deque s.quad = s.deque s.quad ++ [{ a := body, b := node, coin := coinNow s / 2, net := s.th.net, cls := s.th.cls, typ := 1, time := w }]) ∧
      (dbl g 0 < dbl g 8 → coinNow s < 2 → Stops (clrLoad k 16 u).2 (.wait .borrow) (exec .done s))) ∧
    (∀ f, formOf (s.x a) = some f →
      (purseAccess s s.net s.quad f 1 = none → ∃ w, exec (.migr a) s = .next (takeFault { cause := .access, addr := w } s)) ∧
      (∀ k, purseAccess s s.net s.quad f 1 = some k → s.th.range = none →
        (coinNow s < 2 → WaitsFor .borrow s (exec (.migr a) s)) ∧
        (2 ≤ coinNow s → ∃ t p w c, exec (.migr a) s = .next t ∧ Ended s t ∧ t.deques = s.deques ∧
          c = ({ net := s.th.net, cls := s.th.cls, pts := p, x := (List.range 7).map (fun i => s.th.regs.toList.getD (i + 1) 0), pc := s.th.pc + 4,
                 coin := coinNow s / 2, quad := keyQuad k, core := keyOff k / 0xC000, broken := s.th.broken, brokenVec := s.th.brokenVec } : Context) ∧
          t.msgs = s.msgs ++ [{ src := s.quad, dst := keyQuad k, body := .context c none }, { src := s.quad, dst := 0, body := .ret s.th.net rest w }]))) ∧
    (formOf (s.x a) = none → exec (.migr a) s = .next (takeFault { cause := .access, addr := s.x a } s))

/-- R35, R266, R268: `rnext` draws lo and raises it in one read-modify-write, or answers all ones at the end of the range or with no range; `rsplit`
    lowers hi to the middle and places a type-1 record of the upper part, which comes after the rise of a sealed count, or answers 0 with nothing
    split. That `rsplit` publishes nothing, and that a body which is an IMM word is used again as it is, are the model's choices (log entries 99 and 100).
    It leaves rotation where the RANGE granule, the body, a sealed count or the target is remote. -/
def Obligations.RangesAreDrawnAndSplit : Prop :=
  ∀ (d a : Reg) (s : State),
    (s.th.range = none → WritesX 4 d (-1) s (exec (.rnext d) s) ∧ WritesX 4 d 0 s (exec (.rsplit d a) s)) ∧
    (∀ body node k u, s.th.range = some (body, node) → rangeGranule s node = .ok (k, u) →
      let m := if isPurse k then (publish .module u).mem else (settleLine (publish .module u) (k / 256)).mem
      let lo := dbl (memRead m k 16) 0
      let hi := dbl (memRead m k 16) 8
      (∃ t, exec (.rnext d) s = .next t ∧ Alone s t ∧ Published s t ∧ t.th.coin = s.th.coin ∧ t.th.pc = s.th.pc + 4 ∧ t.th.range = s.th.range ∧
        t.th.wait = (if isLocal s k && !hasStores s then s.th.wait else .reply) ∧
        (∀ r, t.x r = if r = d ∧ r ≠ 0 then (if lo < hi then BitVec.ofNat 64 lo else -1) else s.x r) ∧
        ∀ x, memGet t.mem x = if lo < hi ∧ k ≤ x ∧ x < k + 8 then BitVec.ofNat 8 ((lo + 1) / 256 ^ (x - k)) else memGet m x) ∧
      ∀ dst, (a = 0 → dst = s.quad) → (a ≠ 0 → Names s (s.x a) 18 dst) → s.th.wait = .ready →
      (∀ e, readBody s.th.net s.quad u.now body u = .error e → Stops u e (exec (.rsplit d a) s)) ∧
      ∀ info read u', readBody s.th.net s.quad u.now body u = .ok ((info, read), u') →
        let u' := u'.raise s.cur read
        let here := isLocal s k = true ∧ (tagOf body = 5 ∨ ∃ p v, access1 s (addrOf body) 8 1 true needR = .ok (p, v) ∧ isLocal s p = true)
        let g := latest u' k 16
        let n := dbl g 8 - dbl g 0
        let mid := dbl g 0 + (n + 1) / 2
        let h := match info with | some (h, _) => h | none => 0
        let nodes := fun (x : State) => splitNodes s.th.net s.quad x.now body info mid (dbl g 8) x
        let nothing := fun (x : State) => ∃ t, exec (.rsplit d a) s = .next t ∧ Alone s t ∧ t.th.coin = s.th.coin ∧ t.th.pc = s.th.pc + 4 ∧ t.deques = s.deques ∧
          t.msgs = s.msgs ∧ (∀ r, t.x r = if r = d then 0 else s.x r) ∧ t.mem = (if isPurse k then x.mem else (settleLine x (k / 256)).mem) ∧
          (here → t.th.wait = .ready) ∧ (¬here → t.th.wait = .reply)
        (n < 2 ∨ bodyArity info > 0 ∨ nodes u' = none → nothing u') ∧
        (2 ≤ n → bodyArity info = 0 → nodes u' ≠ none →
          (∀ e, countKey s.th.net s.quad h u' = .error e → Stops u' e (exec (.rsplit d a) s)) ∧
          ∀ ck u2, countKey s.th.net s.quad h u' = .ok (ck, u2) →
            (nodes u2 = none → nothing u2) ∧
            ∀ bw rw made v, nodes u2 = some (bw, rw, made, v) →
              (coinNow s < 2 → Stops u2 (.wait .borrow) (exec (.rsplit d a) s)) ∧
              (2 ≤ coinNow s →
                let v := v.raise s.cur made
                let v := v.setTh { v.th with coin := coinLeft s, lent := lentNow s }
                let time := (raiseCount ck v.now h v).1
                (dst = s.quad → ((s.deque s.quad).length < 256 ∨ poolFull s = false) ∧ s.netStateAt s.th.net s.quad ≠ .parked) →
                ∃ t w wait, exec (.rsplit d a) s = .next t ∧ t.th.coin = coinLeft s ∧ t.th.lent = lentNow s ∧ time ≤ t.th.pts ∧ time ≤ w ∧ t.th.pc = s.th.pc + 4 ∧
                  t.th.range = s.th.range ∧ (∀ r, t.x r = if r = d ∧ r ≠ 0 then BitVec.ofNat 64 (dbl g 8 - mid) else s.x r) ∧
                  (dst ≠ s.quad ∨ (s.deque s.quad).length < 256 → memRead t.mem (k + 8) 8 = leBytes 8 mid) ∧
                  (here ∧ hdrS h = false → wait = .ready) ∧ (¬(here ∧ hdrS h = false) → wait = .reply) ∧
                  Placed dst { a := bw, b := rw, coin := coinNow s / 2, net := s.th.net, cls := s.th.cls, typ := 1, time := w } wait s t))) ∧
    (∀ body node, s.th.range = some (body, node) → a ≠ 0 → NamesNone s (s.x a) 18 → exec (.rsplit d a) s = .next (takeFault { cause := .access } s))

/-- R273, R274, R276: a `bar` or `red` whose rectangle word breaks a rule faults FORMAT or ACCESS; the core's first thread to arrive records the
    rectangle and sends its arrival, a later `bar` joins it, and each waits for the release; an arrival of another kind or rectangle faults ACCESS. -/
def Obligations.BarriersArriveOnceForTheirCore : Prop :=
  ∀ (d a b : Reg) (s : State),
    let w := s.x a
    let f := fun hi lo => fld w.toNat hi lo
    let core := s.cur / 16
    let k := f 42 40
    let x0 := if s.net.priv = true then 16 * s.net.ox else 0
    let y0 := if s.net.priv = true then 16 * s.net.oy else 0
    let at_ := s.net.corePlace s core
    let shaped := fun (op : Prop) => f 63 47 = 0 ∧ f 43 43 = 0 ∧ op
    let inGrid := x0 ≤ f 9 0 ∧ f 9 0 + f 29 20 + 1 ≤ x0 + 16 * s.net.wc ∧ y0 ≤ f 19 10 ∧ f 19 10 + f 39 30 + 1 ≤ y0 + 16 * s.net.hc
    let inside := f 9 0 ≤ at_.1 ∧ at_.1 ≤ f 9 0 + f 29 20 ∧ f 19 10 ≤ at_.2 ∧ at_.2 ≤ f 19 10 + f 39 30
    let old := s.bar core s.th.net k
    let arrives := fun (op : Prop) (isRed : Bool) (v : Word) (wait : Wait) (i : Instr) =>
      (¬shaped op → exec i s = .next (takeFault { cause := .format } s)) ∧
      (shaped op → ¬(inGrid ∧ inside) → exec i s = .next (takeFault { cause := .access } s)) ∧
      (shaped op → inGrid → inside →
        (old.arrived = true → ¬(old.rect = w ∧ old.isRed = false ∧ isRed = false) → exec i s = .next (takeFault { cause := .access } s)) ∧
        (old.arrived = true → old.rect = w → old.isRed = false → isRed = false → ∃ t, exec i s = .next t ∧ t.th = { s.th with wait := wait, waited := 0 } ∧
          t = { s with bars := t.bars, berths := t.berths } ∧ t.bar core s.th.net k = { old with time := max old.time (max s.th.pts (s.clock / 512)) } ∧
          ∀ x, x ≠ s.cur → Tbl.get? t.berths x = Tbl.get? s.berths x) ∧
        (old.arrived = false → ∃ t g, exec i s = .next t ∧ t.th = { s.th with wait := wait, waited := 0 } ∧ t = { s with bars := t.bars, berths := t.berths, msgs := t.msgs } ∧
          t.bar core s.th.net k = { old with arrived := true, rect := w, isRed := isRed, time := max s.th.pts (s.clock / 512) } ∧
          t.msgs = s.msgs ++ [{ src := s.quad, dst := g / 4, body := .sweep s.th.net k core v g (max s.th.pts (s.clock / 512)) }] ∧
          (∀ p, s.net.toPhys s (f 9 0 / 2) (f 19 10 / 2) = some p → g = 4 * p + 2 * (f 19 10 % 2) + f 9 0 % 2) ∧
          ∀ x, x ≠ s.cur → Tbl.get? t.berths x = Tbl.get? s.berths x))
    arrives (f 46 44 = 0) false 0 (.bar k old.gen) (.bar a) ∧ arrives (f 46 44 ≠ 7) true (s.x b) (.red k old.gen d) (.red d a b)

/-- R256, R278: `qwait` of the own net publishes and returns the whole coin; then it takes the report of a QUIET or VOIDED mint, registers at one that
    is OPEN or VOIDING, or is left to retry when the table of 64 is full. A net that may not name the other faults ACCESS with no coin moved.

    R250, R258: what a return does at its mint: the returned count rises by the amount, and equal counts end OPEN as QUIET and VOIDING as VOIDED; a
    mint that is VOIDED does not change. A borrow counts 2^32 grains as issued, reopens a QUIET mint, and is refused while VOIDING or VOIDED. -/
def Obligations.QuietIsReportedAndMintsCount : Prop :=
  (
    ∀ (d a : Reg) (s : State),
      let n' := (s.x a).toNat % 2 ^ 12
      let allowed := n' = s.th.net ∨ (s.net.priv = true ∧ Tbl.get? s.mints n' ≠ none)
      let told := fun (n : Nat) (u : State) (i : Instr) =>
        let m := u.mint n
        let word := BitVec.ofNat 64 (min m.borrows (2 ^ 32 - 1) * 2 ^ 32 + (if m.st = .voided then 1 else 0))
        ((m.st = .quiet ∨ m.st = .voided) → ∃ t, exec i s = .next t ∧ t.mem = u.mem ∧
          t.th = { u.th with regs := t.th.regs, pc := s.th.pc + 4, wait := .reply, waited := 0, pts := max u.th.pts m.time, woken := t.th.woken } ∧
          ∀ r, t.x r = if r = d ∧ r ≠ 0 then word else s.x r) ∧
        (m.st = .opened ∨ m.st = .voiding → waitersAt u (homeOf u (mintPa u n)) < 64 → ∃ t, exec i s = .next t ∧ t.th = { u.th with wait := .qwait n d, waited := 0 } ∧
          t.mint n = { m with waiters := m.waiters ++ [s.th.tid] }) ∧
        (m.st = .opened ∨ m.st = .voiding → 64 ≤ waitersAt u (homeOf u (mintPa u n)) → ∃ t, exec i s = .next t ∧ t.th = { u.th with wait := .qretry n d, waited := 0 } ∧ t.mints = u.mints)
      let own := fun (i : Instr) =>
        let u := (publishAt s.cur s).setTh { (publishAt s.cur s).th with coin := 0, lent := 0 }
        let all := s.th.coin + 2 ^ 32 * s.th.lent
        told s.th.net (if all = 0 then u else mintReturn s.th.net all (max s.th.pts (s.clock / 512)) u) i
      own (.qwait d) ∧ (n' = s.th.net → own (.qwaitNet d a)) ∧ (n' ≠ s.th.net → allowed → told n' s (.qwaitNet d a)) ∧
      (¬allowed → exec (.qwaitNet d a) s = .next (takeFault { cause := .access } s))) ∧
  (
    ∀ (n amount time : Nat) (s : State),
      let m := s.mint n
      let t := mintReturn n amount time s
      (m.st = .voided → t = s) ∧
      (m.st ≠ .voided → (t.mint n).returned = m.returned + amount ∧ (t.mint n).issued = m.issued ∧ (t.mint n).borrows = m.borrows ∧
        (t.mint n).st = (if m.returned + amount = m.issued then (match m.st with | .opened => .quiet | .voiding => .voided | x => x) else m.st) ∧
        ∀ k, k ≠ n → Tbl.get? t.mints k = Tbl.get? s.mints k) ∧
      (m.st = .voiding ∨ m.st = .voided → mintBorrow? n time s = none) ∧
      (m.st = .opened ∨ m.st = .quiet → ∃ u w, mintBorrow? n time s = some (w, u) ∧ time ≤ w ∧ (u.mint n).issued = m.issued + 2 ^ 32 ∧ (u.mint n).returned = m.returned ∧
        (u.mint n).st = .opened ∧ (m.borrows < 2 ^ 64 - 1 → (u.mint n).borrows = m.borrows + 1) ∧ u.berths = s.berths ∧
        ∀ k, k ≠ n → Tbl.get? u.mints k = Tbl.get? s.mints k))

/-! ### Faults and system instructions (03 R50 R68, 17) -/

namespace Sys2Proof.Say

/-- The codes of 17 R297. -/
def faultCode : Cause → Nat
  | .illegal => 0 | .mislanded => 1 | .format => 2 | .scaleSeq => 3 | .align => 4 | .page => 5 | .access => 6 | .expectRange => 7
  | .poison => 8 | .linkCorrupt => 9 | .gangBroken => 10 | .void => 11 | .watchdog => 12 | .debug => 13

def tagNo : Tag → Nat
  | .raw => 0 | .i8 => 1 | .i16 => 2 | .i32 => 3 | .e4m3 => 4 | .e5m2 => 5 | .fp16 => 6 | .bf16 => 7 | .fp32 => 8 | .f4b => 9

/-- A snapshot record of a thread (17 R300): the 640 bytes l. -/
structure SnapshotOf (l : List Byte) (c : Ctx) (pc : BitVec 56) (addr : Word) : Prop where
  zero : dbl l 0 = 0
  regs : ∀ r : Reg, r ≠ 0 → dbl l (8 * r.val) = c.regs[r].toNat
  data : ∀ v : VIdx, leNat ((l.drop (128 + 32 * v.val)).take 32) = c.vecs[v].data.toNat
  sides : ∀ v : VIdx, dbl l (384 + 8 * v.val) = c.vecs[v].side.toNat
  tags : ∀ v : VIdx, fld (dbl l 472) (4 * v.val + 3) (4 * v.val) = tagNo c.vecs[v].tag
  pc : dbl l 448 = pc.toNat
  coin : dbl l 456 = (c.coin + 2 ^ 32 * c.lent) % 2 ^ 64
  pts : dbl l 464 = c.pts % 2 ^ 64
  status : c.net < 4096 → fld (dbl l 472) 63 52 = c.net ∧ fld (dbl l 472) 51 50 = c.cls.toNat ∧ fld (dbl l 472) 49 45 = c.fflags.toNat ∧
    fld (dbl l 472) 44 44 = (if c.broken then 1 else 0) ∧ fld (dbl l 472) 43 43 = (if c.range.isSome then 1 else 0) ∧ fld (dbl l 472) 42 32 = 0
  range : dbl l 496 = ((c.range.getD (0, 0)).1).toNat ∧ dbl l 504 = ((c.range.getD (0, 0)).2).toNat
  report : ∀ i : Fin 6, dbl l (512 + 8 * i.val) = c.report[i].toNat
  addr : dbl l 560 = addr.toNat
  rest : ∀ i, i < 9 → dbl l (568 + 8 * i) = 0

/-- A flit instruction changes its own thread and its quad's floor alone. -/
def OnlyFlit (s t : State) : Prop :=
  t = { s with berths := t.berths, floors := t.floors } ∧ ∀ b, b ≠ s.cur → Tbl.get? t.berths b = Tbl.get? s.berths b

/-- The pieces of a range, written in order with the bytes bs. -/
def writePieces (m : List Host.Cell) : List (Nat × Nat) → List Byte → List Host.Cell
  | [], _ => m
  | (k, n) :: r, bs => writePieces (memWrite m k (bs.take n)) r (bs.drop n)

end Sys2Proof.Say

/-- R68, R254, R297 to R302: taking a fault. The berth parks with the pc on the instruction and its registers as they were; a led gang ends and leaves
    the broken mark; the rule of the net's handler is read, which settles at most the line that it lies in; the lowest free block of the quad receives the snapshot and the FAULT node; and a type-2 record of handler and node, with half of
    the coin, enters the quad's deque. With every block held the thread waits its turn; with no rule for the handler the net is voided, as it is, by
    the model's reading, where that rule cannot be read (log entry 34).

    R60, R297, R314, R319: `trap` faults with its code, SW set and bits 31:0 of a register as its info, or ILLEGAL for the codes it does not accept;
    `dbrk` halts an armed quad for the net, the pc past it, and faults DEBUG otherwise; a word of no instruction faults ILLEGAL or MISLANDED. -/
def Obligations.FaultsParkTheThreadAndTellItsHandler : Prop :=
  (
    ∀ (f : FaultInfo) (s : State), s.held s.cur = true →
      let c := s.th
      let n := c.net
      let q := s.quad
      let nr := s.net
      let led := Tbl.get? s.mgangs s.cur ≠ none ∨ Tbl.get? s.vgangs s.cur ≠ none
      let t := takeFault f s
      let same := (∀ b, b ≠ s.cur → BerthStands s t b) ∧ Tbl.get? t.mgangs s.cur = none ∧ Tbl.get? t.vgangs s.cur = none
      let all := c.coin + 2 ^ 32 * c.lent
      let c' : Ctx := { c with coin := all, lent := 0, desc := none, waited := 0, broken := c.broken || decide led, brokenVec := c.brokenVec || (Tbl.get? s.vgangs s.cur).isSome }
      let rule := hasHandler n q (parkFault s.cur { f with pc := c.pc } s)
      (s.stores = [] → rule.2.mem = s.mem) ∧
      (nr.st ≠ .voiding → rule.1 = true → (s.netq n q).waiting = [] →
        (freeBlock s n q = none → same ∧ t.mem = rule.2.mem ∧ t.deques = s.deques ∧ (t.netq n q).waiting = [c.tid] ∧
          t.th = { c' with wait := .faultPending { f with pc := c.pc } }) ∧
        (∀ i, freeBlock s n q = some i → 2 ≤ all → (s.deque q).length < 256 → s.netStateAt n q ≠ .parked →
          let k := purseKey q (nr.poolOff + nr.poolSize + (if q = nr.launchQuad s then 64 else 0) + 704 * i)
          let node := memRead t.mem k 64
          same ∧ i ∉ (s.netq n q).blocks ∧ (∀ j, j < i → j ∈ (s.netq n q).blocks) ∧ (t.netq n q).blocks = i :: (s.netq n q).blocks ∧ (t.netq n q).waiting = [] ∧
          t.th = { c' with wait := .fault k, coin := all - all / 2 } ∧
          t.deque q = s.deque q ++ [{ a := nr.handler, b := BitVec.ofNat 64 (2 * 2 ^ 60 + nr.form s q * 2 ^ 18 + keyOff k), coin := all / 2, net := n, cls := c.cls,
                                      typ := 2, time := c.pts }] ∧
          dbl node 0 = 0xFF04000000000018 ∧ dbl node 8 = nr.handler.toNat ∧
          (nr.form s q < 2 ^ 18 → dbl node 16 = faultCode f.cause * 2 ^ 60 + (if f.sw then 2 ^ 59 else 0) + (if f.lnk then 2 ^ 57 else 0) + (if f.reg then 2 ^ 56 else 0) +
            f.info.toNat * 2 ^ 24 + (s.cur % 16 * 4 + s.cur / 16 % 4) * 2 ^ 18 + nr.form s q) ∧
          dbl node 24 = c.pc.toNat ∧ dbl node 32 = (nr.form s q * 2 ^ 18 + keyOff k + 64) % 2 ^ 64 ∧ dbl node 40 = 0 ∧ dbl node 48 = 0 ∧ dbl node 56 = 0 ∧
          SnapshotOf (memRead t.mem (k + 64) 640) c' c.pc (match f.cause with | .align | .page | .access | .poison => f.addr | _ => 0) ∧
          ∀ x, x < k ∨ k + 704 ≤ x → memGet t.mem x = memGet rule.2.mem x)) ∧
      (nr.st = .bound ∨ nr.st = .parked → rule.1 = false → same ∧ (t.netRec n).st = .voiding ∧
        t.th = { c' with wait := .faultPending { f with pc := c.pc } } ∧
        ((s.mint n).st = .opened → (t.mint n).st = .voiding ∧ (t.mint n).reason = 2)) ∧
      (nr.st = .voiding → Tbl.get? t.berths s.cur = none ∧ t.deques = s.deques ∧
        (all ≠ 0 → t.msgs = s.msgs ++ [{ src := q, dst := 0, body := .ret n all c.pts }]))) ∧
  (
    ∀ (a : Reg) (k : BitVec 4) (code : BitVec 8) (s : State),
      let raises := fun (f : FaultInfo) (i : Instr) => exec i s = .next (takeFault f s)
      (∀ x, faultCode x = k.toNat → x ≠ .void → x ≠ .watchdog → raises { cause := x, sw := true, info := BitVec.ofNat 32 (s.x a).toNat } (.trap a k)) ∧
      (k.toNat = 11 ∨ k.toNat = 12 ∨ 14 ≤ k.toNat → raises { cause := .illegal } (.trap a k)) ∧
      ((s.netq s.th.net s.quad).armed = false → raises { cause := .debug, sw := true, info := BitVec.ofNat 32 code.toNat } (.dbrk code)) ∧
      ((s.netq s.th.net s.quad).armed = true → ∃ t, exec (.dbrk code) s = .next t ∧ t = { s with netqs := t.netqs, berths := t.berths } ∧
        t.th = { s.th with pc := s.th.pc + 4 } ∧ t.netq s.th.net s.quad = { s.netq s.th.net s.quad with halted := true } ∧
        (∀ j, j ≠ 2 ^ 18 * s.th.net + s.quad → Tbl.get? t.netqs j = Tbl.get? s.netqs j) ∧ ∀ b, b ≠ s.cur → Tbl.get? t.berths b = Tbl.get? s.berths b) ∧
      raises { cause := .illegal } .illegalInstruction ∧ raises { cause := .mislanded } .mislanded)

/-- R303, R315: returning from a fault. `resume` puts the parked thread back into rotation at the FAULT node's pc with its registers as they are,
    `reload` with those of the snapshot, `discard` ends it; each clears the FAULT header and returns the block. LNK or REG, where they forbid the
    mode, answer 4 and leave the block held; a node that names no parked thread answers 3. Every access is the thread's own, in order of its program
    time. Where the thread is looked for, what becomes of bits 1:0 of the pc and which check comes first are the model's readings (log entries 10, 33
    and 45). -/
def Obligations.FaultsAreReturnedFrom : Prop :=
  ∀ (d a : Reg) (s : State),
    (exec (.eret d a 3) s = .next (takeFault { cause := .illegal } s)) ∧
    (∀ m : BitVec 2, m ≠ 3 → ∀ k i, blockOf (s.x a) s = .ok (k, i) →
      (poisoned s k 32 = true → exec (.eret d a m) s = .next (takeFault { cause := .poison, addr := addrOf (s.x a) } s)) ∧
      let r1 := clrLoad k 8 s
      let r2 := clrLoad (k + 16) 16 r1.2
      (poisoned s k 32 = false → bankWord s k ≠ 0xFF04000000000018 → exec (.eret d a m) s = .next (takeFault { cause := .linkCorrupt } r1.2)) ∧
      (poisoned s k 32 = false → bankWord s k = 0xFF04000000000018 → (s.netq s.th.net (keyQuad k)).eng = [] →
        let w := (bankWord s (k + 16)).toNat
        let named := findSeat s (64 * keyQuad k + fld w 19 18 * 16 + fld w 23 20) k
        let pc := BitVec.ofNat 56 ((bankWord s (k + 24)).toNat / 4 * 4)
        let tells := fun (st : Nat) (t : State) => t.th.pc = s.th.pc + 4 ∧ t.th.wait = .reply ∧ ∀ r, t.x r = if r = d ∧ r ≠ 0 then BitVec.ofNat 64 st else s.x r
        let back := fun (t : State) => (∀ x, memGet t.mem x = if k ≤ x ∧ x < k + 8 then 0 else memGet s.mem x) ∧ i ∉ (t.netq s.th.net (keyQuad k)).blocks
        let others := fun (x : Nat) (t : State) => ∀ b, b ≠ s.cur → b ≠ x → Tbl.get? t.berths b = Tbl.get? s.berths b
        (fld w 58 58 = 1 ∨ named = none → ∃ t, exec (.eret d a m) s = .next t ∧ tells 3 t ∧ back t ∧ others s.cur t) ∧
        (fld w 58 58 = 0 → named ≠ none → m ≠ 2 → fld w 57 57 = 1 ∨ (m = 0 ∧ fld w 56 56 = 1) → ∃ t, exec (.eret d a m) s = .next t ∧ tells 4 t ∧ others s.cur t ∧
          t.mem = s.mem ∧ t.netqs = s.netqs) ∧
        (∀ t, exec (.eret d a m) s = .next t → tells 0 t → s.th.pts ≤ t.th.pts ∧ s.clock / 512 ≤ t.th.pts) ∧
        (∀ b, fld w 58 58 = 0 → named = some (.berth b) → b ≠ s.cur → fld w 57 57 = 0 →
          (m = 0 → fld w 56 56 = 0 → ∃ t, exec (.eret d a m) s = .next t ∧ tells 0 t ∧ back t ∧ others b t ∧ t.ctx b = { s.ctx b with pc := pc, wait := .ready }) ∧
          (m = 1 → poisoned s (k + 64) 640 = true →
            exec (.eret d a m) s = .next (takeFault { cause := .poison, addr := BitVec.ofNat 64 (s.net.form s (keyQuad k) * 2 ^ 18 + (keyOff k + 64)) } r2.2)) ∧
          (m = 1 → poisoned s (k + 64) 640 = false →
            let l := memRead s.mem (k + 64) 640
            ((∃ v : VIdx, 10 ≤ fld (dbl l 472) (4 * v.val + 3) (4 * v.val)) → exec (.eret d a m) s = .next (takeFault { cause := .format } (clrLoads ((List.range 40).map (fun i => (k + 64 + 16 * i, 16))) r2.2).2)) ∧
            ((∀ v : VIdx, fld (dbl l 472) (4 * v.val + 3) (4 * v.val) < 10) → ∃ t, exec (.eret d a m) s = .next t ∧ tells 1 t ∧ back t ∧ others b t ∧
              t.ctx b = { s.ctx b with regs := (t.ctx b).regs, vecs := (t.ctx b).vecs, fflags := BitVec.ofNat 5 (fld (dbl l 472) 49 45),
                                       report := (t.ctx b).report, pc := pc, wait := .ready } ∧
              (∀ r : Reg, r ≠ 0 → (t.ctx b).regs[r].toNat = dbl l (8 * r.val)) ∧ (∀ j : Fin 6, (t.ctx b).report[j].toNat = dbl l (512 + 8 * j.val)) ∧
              ∀ v : VIdx, (t.ctx b).vecs[v].data.toNat = leNat ((l.drop (128 + 32 * v.val)).take 32) ∧ (t.ctx b).vecs[v].side.toNat = dbl l (384 + 8 * v.val) ∧
                tagNo (t.ctx b).vecs[v].tag = fld (dbl l 472) (4 * v.val + 3) (4 * v.val)))) ∧
        (∀ b, m = 2 → fld w 58 58 = 0 → named = some (.berth b) → b ≠ s.cur → (s.ctx b).range = none → ∃ t, exec (.eret d a m) s = .next t ∧ tells 2 t ∧
          Tbl.get? t.berths b = none ∧ others b t ∧
          (let all := (s.ctx b).coin + 2 ^ 32 * (s.ctx b).lent
           all ≠ 0 → ∃ u, t.msgs = s.msgs ++ [{ src := quadOf b, dst := 0, body := .ret (s.ctx b).net all u }]))))

/-- R154, R316 to R318: `tlbi` publishes and removes the net's entries that overlap the pages named, or all of them, from every translation cache;
    `save` writes the thread's snapshot record, and `rest` takes registers, vector registers, flags and report from a record of its own net and goes
    to its pc. -/
def Obligations.TranslationsAreDroppedAndRecordsMoved : Prop :=
  ∀ (n a b : Reg) (named : Bool) (s : State),
    let m := if named = true then (s.x n).toNat % 2 ^ 12 else s.th.net
    let allowed := m = s.th.net ∨ s.net.priv = true
    let v := (s.x a).toNat % 2 ^ 56
    let len := (s.x b).toNat
    let drops := fun (hit : TlbEnt → Prop) (i : Instr) =>
      (allowed → ∃ t, exec i s = .next t ∧ Published s t ∧ Alone s t ∧ OnlyX s t 0 0 ∧ t.th.pc = s.th.pc + 4 ∧ t.th.wait = .reply ∧ t.mem = (publish .module s).mem ∧
        ∀ e, e ∈ t.tlb ↔ e ∈ s.tlb ∧ ¬(e.net = m ∧ hit e)) ∧
      (¬allowed → exec i s = .next (takeFault { cause := .access } s))
    drops (fun e => len ≠ 0 ∧ e.va < min (2 ^ 56) ((v + len + 65535) / 65536 * 65536) ∧ v / 65536 * 65536 < e.va + 2 ^ e.bits) (.tlbi n a b named) ∧
    drops (fun e => e.va < 2 ^ 56 ∧ 0 < e.va + 2 ^ e.bits) (.tlbiAll n named) ∧
    ((s.x a).toNat % 64 ≠ 0 → (∃ w, exec (.save a) s = .next (takeFault { cause := .align, addr := w } s)) ∧
      ∃ w, exec (.rest a) s = .next (takeFault { cause := .align, addr := w } s)) ∧
    (∀ ks u, (s.x a).toNat % 64 = 0 → access s (s.x a) 640 64 false needW false 16 = .ok (ks, u) →
      ∃ t l, exec (.save a) s = .next t ∧ Alone s t ∧ OnlyX s t 0 0 ∧ t.th.pc = s.th.pc + 4 ∧ t.th.coin = s.th.coin ∧
        t.th.wait = (if ks.all (fun k => isLocal s k.1) then s.th.wait else .reply) ∧ l.length = 640 ∧ SnapshotOf l s.th (s.th.pc + 4) 0 ∧
        ((∀ k ∈ ks, isPurse k.1 = true) → t.mem = writePieces s.mem ks l)) ∧
    (∀ ks u, (s.x a).toNat % 64 = 0 → access s (s.x a) 640 64 false needR false 16 = .ok (ks, u) →
      let l := (clrLoads ks u).1
      let tagsOk := ∀ i : VIdx, fld (dbl l 472) (4 * i.val + 3) (4 * i.val) < 10
      (fld (dbl l 472) 63 52 ≠ s.th.net → Stops (clrLoads ks u).2 (.fault { cause := .access }) (exec (.rest a) s)) ∧
      (fld (dbl l 472) 63 52 = s.th.net → ¬tagsOk → Stops (clrLoads ks u).2 (.fault { cause := .format }) (exec (.rest a) s)) ∧
      (fld (dbl l 472) 63 52 = s.th.net → tagsOk → dbl l 448 % 4 ≠ 0 → Stops (clrLoads ks u).2 (.fault { cause := .align }) (exec (.rest a) s)) ∧
      (fld (dbl l 472) 63 52 = s.th.net → tagsOk → dbl l 448 % 4 = 0 → ∃ t, exec (.rest a) s = .next t ∧ Alone s t ∧ t.mem = (clrLoads ks u).2.mem ∧
        t.th = { s.th with regs := t.th.regs, vecs := t.th.vecs, report := t.th.report, pts := t.th.pts, fflags := BitVec.ofNat 5 (fld (dbl l 472) 49 45),
                           pc := BitVec.ofNat 56 (dbl l 448), wait := if ks.all (fun k => isLocal s k.1) then s.th.wait else .reply,
                           waited := if ks.all (fun k => isLocal s k.1) then s.th.waited else 0 } ∧
        (∀ r : Reg, r ≠ 0 → t.th.regs[r].toNat = dbl l (8 * r.val)) ∧ (∀ j : Fin 6, t.th.report[j].toNat = dbl l (512 + 8 * j.val)) ∧
        ∀ i : VIdx, t.th.vecs[i].data.toNat = leNat ((l.drop (128 + 32 * i.val)).take 32) ∧ t.th.vecs[i].side.toNat = dbl l (384 + 8 * i.val) ∧
          tagNo t.th.vecs[i].tag = fld (dbl l 472) (4 * i.val + 3) (4 * i.val)))

/-- R50, R281 to R283, R320: `srd` reads each special register of the table; `swr` writes `%fflags` alone; every other number faults ILLEGAL. `srd` of
    `%mq.rcv` takes the oldest flit or parks; `swr` of `%mq.snd` sends a flit to the berth its header names and waits until it is accepted. -/
def Obligations.SpecialAndMessageRegisters : Prop :=
  ∀ (d : Reg) (v : VIdx) (n : BitVec 12) (s : State),
    let c := s.th
    let reads := fun (k x : Nat) => n.toNat = k → WritesX 4 d (BitVec.ofNat 64 x) s (exec (.srd d n) s)
    let plain : List (Nat × Nat) := [(0, c.coin + 2 ^ 32 * c.lent), (2, c.cls.toNat), (3, c.net), (4, s.net.form s s.quad), (5, s.cur / 16 % 4), (6, s.cur % 16),
      (7, (s.net.place s s.quad).1), (8, (s.net.place s s.quad).2), (0xA, s.net.spawnLim), (0xB, c.fflags.toNat),
      (0xC, Tbl.getD s.bubbles (s.cur / 16) 0), (0xD, cycleOf s (dieOf s.quad))]
    (∀ e ∈ plain, reads e.1 e.2) ∧
    (s.net.priv = true → reads 9 (4 * (quadCount - s.fused.length))) ∧ (s.net.priv = false → reads 9 (4 * s.net.quadCount s)) ∧
    (n.toNat = 1 → ∃ t, exec (.srd d n) s = .next t ∧ t.th = { c with regs := t.th.regs, pc := c.pc + 4, pts := max c.pts (s.clock / 512) } ∧
      (∀ r, t.x r = if r = d ∧ r ≠ 0 then BitVec.ofNat 64 (max c.pts (s.clock / 512)) else s.x r) ∧ t = { s with berths := t.berths, floors := t.floors }) ∧
    (∀ k, k < 4 → n.toNat = 0x20 + k → ∃ t, exec (.srd d n) s = .next t ∧
      t.th = { c with regs := t.th.regs, pc := c.pc + 4, pts := max c.pts (s.chan s.quad k).time } ∧
      (∀ r, t.x r = if r = d ∧ r ≠ 0 then BitVec.ofNat 64 (s.chan s.quad k).mark else s.x r) ∧ t = { s with berths := t.berths, floors := t.floors }) ∧
    (n.toNat ∉ [0, 1, 2, 3, 4, 5, 6, 7, 8, 9, 0xA, 0xB, 0xC, 0xD, 0x20, 0x21, 0x22, 0x23] → exec (.srd d n) s = .next (takeFault { cause := .illegal } s)) ∧
    (n.toNat = 0xB → ∃ t, exec (.swr d n) s = .next t ∧ OnlyThread s t { c with fflags := BitVec.ofNat 5 (s.x d).toNat, pc := c.pc + 4 }) ∧
    (n.toNat ≠ 0xB → exec (.swr d n) s = .next (takeFault { cause := .illegal } s)) ∧
    (c.mq = [] → ∃ t, exec (.mqRcv v) s = .next t ∧ OnlyFlit s t ∧ t.th = { c with wait := .flit v, waited := 0 }) ∧
    (∀ x time rest, c.mq = (x, time) :: rest → ∃ t, exec (.mqRcv v) s = .next t ∧ OnlyFlit s t ∧
      t.th = { c with mq := rest, vecs := t.th.vecs, pts := max c.pts time, pc := c.pc + 4 } ∧
      ∀ k : VIdx, t.th.vecs[k] = if k = v then { data := x, tag := .raw, side := 0 } else c.vecs[k]) ∧
    (let h := c.vecs[v].data.toNat
     let to' := s.net.ofForm s (h % 2 ^ 18)
     (to' = none → exec (.mqSnd v) s = .next (takeFault { cause := .access } s)) ∧
     (∀ q, to' = some q → ∃ t, exec (.mqSnd v) s = .next t ∧ (∀ b, b ≠ s.cur → Tbl.get? t.berths b = Tbl.get? s.berths b) ∧
       (let b := 64 * q + 16 * (h / 2 ^ 18 % 4) + h / 2 ^ 20 % 16
        t.th = { c with wait := .send c.vecs[v].data b, waited := 0 } ∧
        t = { s with berths := t.berths, msgs := s.msgs ++ [{ src := s.quad, dst := quadOf b, body := .flit c.vecs[v].data b s.cur c.net (max c.pts (s.clock / 512)) }] })))

/-! ### Placing work (02 R31 to R35, 13 R238 to R244) -/

namespace Sys2Proof.Say

/-- The sender of an entered record or context returns to rotation (15 R264 R271); no other berth changes. -/
def Woken (tid : Option Nat) (s t : State) : Prop :=
  ∀ b, Tbl.get? t.berths b = (Tbl.get? s.berths b).map (fun x => if some x.ctx.tid = tid ∧ x.ctx.wait = .sent then { x with ctx := { x.ctx with wait := .ready } } else x)

/-- Message m has left the near net for its quad. -/
def Taken (i : Nat) (m : Msg) (s : State) : Prop := s.msgs[i]? = some m ∧ ∀ j, j < i → ∀ x, s.msgs[j]? = some x → (x.src = m.src ∧ x.dst = m.dst) → isReturn x = true

/-- Every berth but one stands. -/
def OthersStand (b : Nat) (s t : State) : Prop := ∀ x, x ≠ b → Tbl.get? t.berths x = Tbl.get? s.berths x

end Sys2Proof.Say

/-- R24, R25, R31, R32, R265, R270: dispatch of a record into the berth that is offered it. The side of the lower kind comes first, then the lower
    word; the thread starts at the rule's code with both sides in x1 and x2, the sealed count in x3 where the rule asks for it, the record's coin and
    class, a range of a type-1 record, and all else zero. With no rule it faults ILLEGAL there; a range record is of type 1 alone, else LINK_CORRUPT.
    A rule entry that cannot be read is taken as none (log entry 34), a header or count that cannot be read is LINK_CORRUPT (log entry 46), and a read
    that must wait leaves the record in its deque, and the reads before it made: these are the model's choices. -/
def Obligations.DispatchStartsTheRulesThread : Prop :=
  ∀ (b i : Nat) (r : Rec) (s : State), offered s b = some (.record i) → (s.deque (quadOf b))[i]? = some r →
    let q := quadOf b
    let n := r.net
    let nr := s.netRec n
    let u := s.setDeque q ((s.deque q).eraseIdx i)
    let p := max (max (s.clock / 512) r.time) (Tbl.getD s.floors q 0)
    let base : Ctx := { tid := s.nextTid, net := n, coin := r.coin, cls := r.cls, pts := p }
    let faultsAt := fun (f : FaultInfo) (c : Ctx) => ∃ v, v.ctx b = c ∧ exec (.dispatch b) s = .next (faultBerth b f v)
    let corrupt := faultsAt { cause := .linkCorrupt, info := 0x80000000, pc := BitVec.ofNat 56 nr.ruleBase } { base with pc := BitVec.ofNat 56 nr.ruleBase }
    (s.netStateAt n q = .bound → Tbl.get? s.residents b = none → r.typ < 3 →
      (¬(sideOk r.a = true ∧ sideOk r.b = true) → corrupt) ∧
      (sideOk r.a = true → sideOk r.b = true →
        (∀ w, openSide n q p r.a u = .error w → exec (.dispatch b) s = .next { w.state u with deques := s.deques }) ∧
        ∀ x v1, openSide n q p r.a u = .ok (x, v1) →
        (∀ w, openSide n q p r.b v1 = .error w → exec (.dispatch b) s = .next { w.state v1 with deques := s.deques }) ∧
        ∀ y v2, openSide n q p r.b v1 = .ok (y, v2) →
          (x = none ∨ y = none → corrupt) ∧
          ∀ k1 k2 h1 h2, x = some (k1, h1) → y = some (k2, h2) →
            let swap := k2 < k1 ∨ (k2 = k1 ∧ r.b.toNat < r.a.toNat)
            let aw := if swap then r.b else r.a
            let bw := if swap then r.a else r.b
            let ha := if swap then h2 else h1
            let key := 256 * min k1 k2 + max k1 k2
            let arg := fun (w : Word) => if w.toNat / 2 ^ 60 = 5 then w else BitVec.ofNat 64 (w.toNat % 2 ^ 60)
            let place := BitVec.ofNat 56 (nr.ruleBase + 4 * key)
            let wrongType := (r.typ = 1 ∧ max k1 k2 ≠ 0xFE) ∨ (r.typ = 0 ∧ (k1 = 0xFE ∨ k2 = 0xFE))
            let two := fun (c : Ctx) => c.regs[(1 : Reg)] = arg aw ∧ c.regs[(2 : Reg)] = arg bw ∧ ∀ x : Reg, x ≠ 1 → x ≠ 2 → x ≠ 3 → c.regs[x] = 0
            let bad := fun (cause : Cause) => ∃ c : Ctx, two c ∧ c = { base with pc := place, regs := c.regs } ∧
              faultsAt { cause := cause, info := BitVec.ofNat 32 (0x80010000 + key), pc := place } c
            (wrongType → faultsAt { cause := .linkCorrupt, info := BitVec.ofNat 32 (0x80010000 + key), pc := place } { base with pc := place }) ∧
            (¬wrongType → ∀ e v3, ruleEntry n q p key v2 = .ok (e, v3) →
              (e = none → bad .illegal) ∧
              ∀ at_ acc, e = some (at_, acc) →
                let read := hwRead n q p (BitVec.ofNat 64 (2 ^ 59 + ha.toNat % 2 ^ 48 * 256)) 8 v3
                let starts := fun (count : Word) => ∃ t, exec (.dispatch b) s = .next t ∧ (∀ x, x ≠ b → BerthStands s t x) ∧ t.deques = u.deques ∧ two (t.ctx b) ∧
                  (t.ctx b).regs[(3 : Reg)] = count ∧ t.nextTid = s.nextTid + 1 ∧
                  t.ctx b = { base with pc := BitVec.ofNat 56 (nr.codeBase + 4 * at_), regs := (t.ctx b).regs, range := if r.typ = 1 then some (aw, bw) else none }
                (¬(acc = true ∧ hdrS ha = true) → starts 0) ∧
                (acc = true → hdrS ha = true → (∀ k l v4, read = .ok ((k, l), v4) → starts (bytesWord l)) ∧ (∀ f left, read = .error (.fault f left) → bad .linkCorrupt))))) ∧
    (r.typ = 3 ∨ s.netStateAt n q = .voiding → s.netStateAt n q ≠ .free → r.coin ≠ 0 → ∃ t, exec (.dispatch b) s = .next t ∧ t.berths = s.berths ∧ t.deques = u.deques ∧
      t.msgs = s.msgs ++ [{ src := q, dst := 0, body := .ret n r.coin r.time }]) ∧
    (s.netStateAt n q = .free → ∃ t, exec (.dispatch b) s = .next t ∧ t.berths = s.berths ∧ t.deques = u.deques ∧ t.msgs = s.msgs) ∧
    (∀ (w : Word) (v : State),
      (w.toNat / 2 ^ 60 = 5 → openSide n q p w v = .ok (some (w.toNat / 2 ^ 51 % 256, 0), v)) ∧
      (w.toNat / 2 ^ 60 ≠ 5 → ∀ k l v', hwRead n q p (BitVec.ofNat 64 (w.toNat % 2 ^ 60)) 8 v = .ok ((k, l), v') → openSide n q p w v =
        .ok (if headerOk (bytesWord l) = true then some ((bytesWord l).toNat / 2 ^ 56, bytesWord l) else none, v')) ∧
      (w.toNat / 2 ^ 60 ≠ 5 → ∀ f left, hwRead n q p (BitVec.ofNat 64 (w.toNat % 2 ^ 60)) 8 v = .error (.fault f left) → openSide n q p w v = .ok (none, left.getD v))) ∧
    (∀ (key : Nat) (v : State),
      (∀ k l v', hwRead n q p (BitVec.ofNat 64 (2 ^ 59 + ((v.netRec n).ruleBase + 4 * key))) 4 v = .ok ((k, l), v') → ruleEntry n q p key v =
        .ok (if leNat l / 2 ^ 31 % 2 = 1 ∧ leNat l / 2 ^ 28 % 4 = 0 then some (leNat l % 2 ^ 28, decide (leNat l / 2 ^ 30 % 2 = 1)) else none, v')) ∧
      (∀ f left, hwRead n q p (BitVec.ofNat 64 (2 ^ 59 + ((v.netRec n).ruleBase + 4 * key))) 4 v = .error (.fault f left) → ruleEntry n q p key v = .ok (none, left.getD v)))

/-- R238 to R244, R257, R264, R270, R271, R306, R307: records and contexts that arrive enter at the newest end of the deque or the tail of the core's
    queue and free their sender, or wait in suspense while the quad is halted; of a voiding net, halted or not, a context gives back its coin, and a
    record enters, to be discarded at once or when it would be taken, which is a choice of the machine (log entry 48). Admission starts a context's thread, or an evicted one's where it left off; arrival
    spills and spill blocks come back in order. An admitted context carries the broken mark that its thread migrated with (R109; log entry 88).

    R35, R240, R267: a probe is for the net whose turn it is. One that finds ordinary records takes the oldest half of the net's, 64 at most, and
    never a fault record; one that finds a range record takes the upper half of its interval and half of its coin, and leaves the lower half in its
    place; the reply carries what was taken. Where the spawn limit is 1, a record that a free berth of the victim takes in the very cycle is none that
    a probe finds (log entry 96). How the turns go round, and what keeps a quad from probing, are the model's readings (log entry 52). -/
def Obligations.ArrivalsEnterAndStealsTakeHalf : Prop :=
  (
    ∀ (i b q core : Nat) (m : Msg) (s : State),
      (∀ r tid, Taken i m s → m.body = .redex r tid → ∃ t, exec (.remoteRedex i) s = .next t ∧
        (haltedAt s r.net m.dst = true → (s.netRec r.net).st ≠ .voiding → (∃ j, t.suspense = s.suspense ++ [(j, m)]) ∧ t.msgs = s.msgs.eraseIdx i ∧ t.deques = s.deques ∧ Woken tid s t) ∧
        (s.netStateAt r.net m.dst = .voiding → r.coin ≠ 0 → (s.deque m.dst).length < 256 → Woken tid s t ∧
          ((t.deque m.dst = s.deque m.dst ∧ t.msgs = s.msgs.eraseIdx i ++ [{ src := m.dst, dst := 0, body := .ret r.net r.coin r.time }]) ∨
            (t.deque m.dst = s.deque m.dst ++ [r] ∧ t.msgs = s.msgs.eraseIdx i))) ∧
        (haltedAt s r.net m.dst = false → s.netStateAt r.net m.dst = .bound → (s.deque m.dst).length < 256 →
          t.msgs = s.msgs.eraseIdx i ∧ t.deque m.dst = s.deque m.dst ++ [r] ∧ Woken tid s t ∧ t.mem = s.mem)) ∧
      (∀ c tid, Taken i m s → m.body = .context c tid → ∃ t, exec (.contextArrival i) s = .next t ∧
        (haltedAt s c.net m.dst = true → (s.netRec c.net).st ≠ .voiding → (∃ j, t.suspense = s.suspense ++ [(j, m)]) ∧ t.msgs = s.msgs.eraseIdx i ∧ t.arrivals = s.arrivals ∧ Woken tid s t) ∧
        (s.netStateAt c.net m.dst = .voiding → c.core < 4 → c.coin ≠ 0 → t.arrivals = s.arrivals ∧ Woken tid s t ∧
          t.msgs = s.msgs.eraseIdx i ++ [{ src := m.dst, dst := 0, body := .ret c.net c.coin c.pts }]) ∧
        (haltedAt s c.net m.dst = false → c.core < 4 →
          let at_ := 4 * m.dst + c.core
          let c' := { c with seq := s.nextArr }
          let room := poolSlot s ((s.arrS at_).map (·.slot)) 64 96
          (s.netStateAt c.net m.dst = .bound → (s.arrQ at_).length < 64 → s.arrS at_ = [] → t.msgs = s.msgs.eraseIdx i ∧ t.arrQ at_ = s.arrQ at_ ++ [c'] ∧
            t.arrSpill = s.arrSpill ∧ Woken tid s t) ∧
          (s.netStateAt c.net m.dst = .bound ∧ (64 ≤ (s.arrQ at_).length ∨ s.arrS at_ ≠ []) ∨ s.netStateAt c.net m.dst = .parked →
            (∀ x, room = some x → t.msgs = s.msgs.eraseIdx i ∧ t.arrQ at_ = s.arrQ at_ ∧ t.arrS at_ = s.arrS at_ ++ [{ c' with slot := x }] ∧ Woken tid s t) ∧
            (room = none → t.msgs = s.msgs ∧ t.arrivals = s.arrivals ∧ t.arrSpill = s.arrSpill ∧ t.berths = s.berths)))) ∧
      (∀ rs, Taken i m s → m.body = .steal rs → (∀ r ∈ rs, s.netStateAt r.net m.dst = .bound ∧ haltedAt s r.net m.dst = false) →
        (s.deque m.dst).length + rs.length ≤ 256 → ∃ t, exec (.stealReply i) s = .next t ∧ t.msgs = s.msgs.eraseIdx i ∧ t.deque m.dst = s.deque m.dst ++ rs ∧
          t.berths = s.berths) ∧
      (∀ x, offered s b = some (.context i) → (s.arrQ (coreId b))[i]? = some x → s.netStateAt x.net (quadOf b) = .bound → Tbl.get? s.residents b = none →
        x.x.length = 7 → ∃ t, exec (.admission b) s = .next t ∧ OthersStand b s t ∧ t.arrQ (coreId b) = (s.arrQ (coreId b)).eraseIdx i ∧
          t.ctx b = { tid := s.nextTid, net := x.net, cls := x.cls, coin := x.coin, pc := x.pc, regs := (t.ctx b).regs, pts := max x.pts (s.clock / 512),
                      broken := x.broken, brokenVec := x.brokenVec } ∧
          ∀ r : Reg, (t.ctx b).regs[r] = if 1 ≤ r.val ∧ r.val ≤ 7 then x.x.getD (r.val - 1) 0 else 0) ∧
      (∀ c, offered s b = some (.evicted i) → (Tbl.getD s.evicted (coreId b) [])[i]? = some c → s.netStateAt c.net (quadOf b) = .bound →
        poisoned s c.slot 1024 = false → Tbl.get? s.residents b = none → ∃ t, exec (.admission b) s = .next t ∧ OthersStand b s t ∧ t.ctx b = { c with slot := 0 } ∧
          Tbl.getD t.evicted (coreId b) [] = (Tbl.getD s.evicted (coreId b) []).eraseIdx i) ∧
      ((s.arrQ core).length ≤ 48 → (s.arrS core).Nodup → (∀ c ∈ s.arrS core, s.netStateAt c.net (core / 4) ≠ .parked) → s.poison = [] →
        ∃ t, exec (.arrivalSpillReadmission core) s = .next t ∧ t.berths = s.berths ∧
          t.arrQ core = s.arrQ core ++ ((s.arrS core).take 16).map (fun c => { c with slot := 0 }) ∧ t.arrS core = (s.arrS core).drop 16) ∧
      (∀ no rs rest, (s.deque q).length ≤ 32 → s.parkedRec = [] → s.spill q = (no, rs) :: rest → s.poison = [] → (∀ r ∈ rs, s.netStateAt r.net q ≠ .parked) →
        ∃ t, exec (.refill q) s = .next t ∧ t.deque q = rs ++ s.deque q ∧ t.spill q = rest ∧ t.berths = s.berths ∧ t.mem = s.mem)) ∧
  (
    ∀ (thief victim n : Nat) (r : Rec) (s u : State),
      (nextStealNet s thief ≠ some n → exec (.stealProbe thief victim n) s = .next s) ∧
      (nextStealNet s thief = some n → nextVictim s thief n victim = some u → haltedAt s n victim = false →
        let u := count (dieOf thief) 3 1 { u with stealTurn := Tbl.set u.stealTurn thief (n + 1) }
        let found := if (s.netRec n).spawnLim = 1 then removeRecs (s.deque victim) (takenNow victim (coreOrder u victim) u) else s.deque victim
        s.netStateAt n victim = .bound → found.find? (fun x => x.net == n && x.typ != 2) = some r →
        let sent := fun (t : State) (rs : List Rec) => t.msgs = s.msgs ++ [{ src := victim, dst := thief, body := .steal rs }] ∧ ∀ b, BerthStands s t b
        (r.typ ≠ 1 → ∃ t rs, exec (.stealProbe thief victim n) s = .next t ∧ sent t rs ∧ rs ≠ [] ∧
          (let mine := found.filter (fun x => x.net == n && x.typ != 2)
           rs.length ≤ 64 ∧ 2 * rs.length ≤ mine.length + 1 ∧ rs = mine.take rs.length ∧ (∀ x ∈ rs, x.typ ≠ 1) ∧ t.deque victim = removeRecs (s.deque victim) rs ∧
           (rs.length = mine.length ∨ rs.length = 64 ∨ mine.length + 1 < 2 * (rs.length + 1) ∨ ∃ x, mine[rs.length]? = some x ∧ x.typ = 1))) ∧
        (r.typ = 1 → 2 ≤ r.coin →
          let p := max (max (s.clock / 512) r.time) (Tbl.getD s.floors victim 0)
          ∀ aw bw ka ha hb k info bw' rw' bt nt ck v1 v2 v3 v4 v5,
            orderSides n victim p r.a r.b u = .ok (some ((aw, ka, ha), (bw, 0xFE, hb)), v1) → bw.toNat / 2 ^ 60 ≠ 5 →
            nodeGranule n victim bw v1 = .ok (k, v2) → readBody n victim p aw v2 = .ok ((info, bt), v3) → bodyArity info = 0 →
            let lo := dbl (memRead v3.mem k 16) 0
            let hi := dbl (memRead v3.mem k 16) 8
            let mid := lo + (hi - lo + 1) / 2
            let h := match info with | some (h, _) => h | none => 0
            lo + 2 ≤ hi → splitNodes n thief p aw info mid hi v3 ≠ none → countKey n victim h v3 = .ok (ck, v4) →
            splitNodes n thief p aw info mid hi v4 = some (bw', rw', nt, v5) →
            let ct := (raiseCount ck p h v5).1
            ∃ t time, exec (.stealProbe thief victim n) s = .next t ∧ bt ≤ time ∧ nt ≤ time ∧ ct ≤ time ∧
              sent t [{ a := bw', b := rw', coin := r.coin / 2, net := n, cls := r.cls, typ := 1, time := time }] ∧
              t.deque victim = (s.deque victim).set ((s.deque victim).idxOf r) { r with coin := r.coin - r.coin / 2 } ∧
              memRead t.mem k 16 = leBytes 8 lo ++ leBytes 8 mid)) ∧
      (∀ p body info lo hi bw rw made v, (∀ h l, info = some (h, l) → l.length ≤ hdrLen h) → splitNodes n thief p body info lo hi s = some (bw, rw, made, v) →
        ∃ off, rw = (s.netRec n).port s 2 thief off ∧ memRead v.mem (purseKey thief off) 8 = leBytes 8 0xFE04000000000010 ∧
          memRead v.mem (purseKey thief off + 16) 16 = leBytes 8 lo ++ leBytes 8 hi))

/-! ### Steps of the memory system, of barriers and of flits (08, 09, 11, 15) -/

namespace Sys2Proof.Say

/-- One berth's thread changes; nothing else of the module does. -/
def ThreadAlone (b : Nat) (c : Ctx) (s t : State) : Prop := t = { s with berths := t.berths } ∧ OthersStand b s t ∧ t.ctx b = c

/-- F of 15 R276 and R277. -/
def barF (op : Nat) (a b : Word) : Word :=
  match op with
  | 0 => BitVec.ofNat 64 (a.toNat + b.toNat)
  | 1 => if a.toInt ≤ b.toInt then a else b
  | 2 => if a.toInt ≤ b.toInt then b else a
  | 3 => a &&& b
  | 4 => a ||| b
  | 5 => a ^^^ b
  | _ => BitVec.ofNat 64 (enc fp32 (sumVal [dec fp32 (a.toNat % 2 ^ 32), dec fp32 (b.toNat % 2 ^ 32)] .rne).1 .rne).1

def foldOf (op : Nat) : List Word → Word
  | [] => 0
  | a :: r => r.foldl (barF op) a

/-- The result of a reduction (15 R277): rows from west to east, then the row values from north to south; `fadd` gives 32 bits. -/
def redValue (op : Nat) (rows : List (List Word)) : Word :=
  let v := foldOf op ((rows.filter (fun r => decide (r ≠ []))).map (foldOf op))
  if op = 6 then BitVec.ofNat 64 (v.toNat % 2 ^ 32) else v

/-- A thread waits at a barrier of its core for identifier k in generation g. -/
def AtBar (c : Ctx) (n k : Nat) (g : Bool) : Prop := c.net = n ∧ (c.wait = .bar k g ∨ ∃ d, c.wait = .red k g d)

end Sys2Proof.Say

/-- R11, R51, R107, R150, R155, R156, R169, R189, R195: a home settles a line's cleared stores in clearing order and touches nothing else; a reply, a
    REHOME or room puts its thread back into rotation with the pc where it is; an `aadd` that was answered REHOME is performed at the new home, once; a request that a full wait table refused is served, entered, or refused
    again, waits while a gang instruction holds its sub-tile, and goes back to its checks where its granule is poisoned; a walk fills the caches of
    the quad and its cluster. That a walk is one step, and how REHOME is answered, are the model's (log entries 80 and 55). -/
def Obligations.MemoryStepsSettleReplyAndFill : Prop :=
  ∀ (line b q n va : Nat) (s : State),
    let hit := fun (st : Store) (x : Nat) => st.addr / 256 = line ∧ st.addr ≤ x ∧ x < st.addr + st.bytes.length
    (∃ t, exec (.settle line) s = .next t ∧ t = { s with mem := t.mem, stores := s.stores.filter (fun st => st.addr / 256 ≠ line) } ∧
      (∀ x, (∀ st ∈ s.stores, ¬hit st x) → memGet t.mem x = memGet s.mem x) ∧
      ∀ l st r x, s.stores = l ++ st :: r → hit st x → (∀ y ∈ r, ¬hit y x) → memGet t.mem x = st.bytes.getD (x - st.addr) 0) ∧
    (s.held b = true → ((s.ctx b).wait ∈ [.reply, .fetch, .room, .spill, .held] ∨ (∃ k m t, (s.ctx b).wait = .added k m t) ∨ ∃ k, (s.ctx b).wait = .cells k ∧ k ≤ freeCells s (s.ctx b).net (quadOf b)) →
      ∃ t, exec (.memoryReply b) s = .next t ∧ ThreadAlone b { s.ctx b with wait := .ready } s t) ∧
    (∀ pa, s.held b = true → (s.ctx b).wait = .rehomed pa → ∃ t, exec (.rehome b) s = .next t ∧ t.ctx b = { s.ctx b with wait := .ready } ∧ OthersStand b s t ∧
      t.mem = s.mem ∧ clusterOf (quadOf b) ∉ t.stalePorts) ∧
    (∀ pa p, s.held b = true → (s.ctx b).wait = .link p → p.rehome = some pa → ∃ t, exec (.rehome b) s = .next t ∧
      t.ctx b = { s.ctx b with wait := .link { p with rehome := none } } ∧ OthersStand b s t ∧ t.mem = s.mem ∧ clusterOf (quadOf b) ∉ t.stalePorts) ∧
    (∀ pa m amt d, (s.ctx b).wait = .rehomedAdd pa m amt d none → isPurse pa = false → pa % 256 + m ≤ 256 → poisoned s pa m = false →
      (∀ e ∈ s.berths, ∀ k j x r, e.2.ctx.wait ≠ .rehomedAdd k j x r (some b)) → ∃ t time, exec (.rehome b) s = .next t ∧ clusterOf (quadOf b) ∉ t.stalePorts ∧
      let at_ := (settleLine s (pa / 256)).mem
      let old := memRead at_ pa m
      t.ctx b = { s.ctx b with regs := (t.ctx b).regs, pts := (t.ctx b).pts, pc := (s.ctx b).pc + 4, wait := .added pa m time, waited := 0 } ∧ time ≤ (t.ctx b).pts ∧
      (∀ r : Reg, (t.ctx b).regs[r] = if r = d ∧ r ≠ 0 then loaded false old else (s.ctx b).regs[r]) ∧ (∀ o, o ≠ b → BerthStands s t o) ∧
      ∀ x, memGet t.mem x = if pa ≤ x ∧ x < pa + m then BitVec.ofNat 8 ((leNat old + amt) % 2 ^ (8 * m) / 256 ^ (x - pa)) else memGet at_ x) ∧
    (∀ r, s.held b = true → (s.ctx b).wait = .refused r → r.berth = b →
      let l := Tbl.getD s.waits (keyQuad r.key) []
      let free := heldTile { s with cur := b } r.key r.n = false
      (¬free → exec (.waitTableReissue b) s = .next s) ∧
      (free → poisoned s r.key r.n = true → ∃ t, exec (.waitTableReissue b) s = .next t ∧ ThreadAlone b { s.ctx b with wait := .ready } s t) ∧
      (free → poisoned s r.key r.n = false → r.key / 16 ∉ s.empties → ∃ t, exec (.waitTableReissue b) s = .next t ∧ OthersStand b s t ∧ t.mem = s.mem ∧ t.waits = s.waits ∧
        t.ctx b = { s.ctx b with regs := (t.ctx b).regs, pts := (t.ctx b).pts, pc := (s.ctx b).pc + BitVec.ofNat 56 r.len, wait := .ready } ∧
        (∀ x : Reg, (t.ctx b).regs[x] = if x = r.rd ∧ x ≠ 0 then loaded r.zext (memRead s.mem r.key r.n) else (s.ctx b).regs[x]) ∧
        (r.key / 16 ∈ t.empties ↔ r.clear = true)) ∧
      (free → poisoned s r.key r.n = false → r.key / 16 ∈ s.empties → l.length < 128 → ∃ t, exec (.waitTableReissue b) s = .next t ∧ OthersStand b s t ∧ t.mem = s.mem ∧ t.empties = s.empties ∧
        t.ctx b = { s.ctx b with wait := .parked r } ∧ Tbl.getD t.waits (keyQuad r.key) [] = l ++ [r]) ∧
      (free → poisoned s r.key r.n = false → r.key / 16 ∈ s.empties → 128 ≤ l.length → exec (.waitTableReissue b) s = .next s)) ∧
    (∀ e u, n ∈ s.bindSet q → translation s q n va = .ok (e, u) → ∃ t, exec (.pageWalk q n va) s = .next t ∧ t.mem = s.mem ∧ (∀ x, BerthStands s t x) ∧
      (∃ x, tlbFind t false q n va = some x ∧ x.pa = e.pa ∧ x.bits = e.bits ∧ x.r = e.r ∧ x.w = e.w ∧ x.x = e.x ∧ x.n = e.n) ∧
      (tlbFind s false q n va = none → ∃ x, tlbFind t true (clusterOf q) n va = some x ∧ x.pa = e.pa ∧ x.bits = e.bits))

/-- R274 to R277: an arrival reaches the north-west core; once every member's has, the release lets every waiting thread of every member past its
    `bar` or `red`, the latter with the value folded by rows, flips each member's generation and clears what it recorded; an arrival of a core
    that is no member, gathered for another rectangle of the identifier, is not lost.

    R281 to R284, R307: a flit enters the queue of its receiver's context, naming its sender in bits 23:0, and its sender goes past its `swr`; a full
    queue of eight refuses it, and the sender sends it again; one for no context of the net is discarded. One that comes to a quad halted for its net
    goes to the suspense area, unless the net is voiding. -/
def Obligations.BarriersReleaseAndFlitsEnter : Prop :=
  (
    ∀ (i core n k : Nat) (m : Msg) (s : State),
      (∀ from' v nw time, Taken i m s → m.body = .sweep n k from' v nw time → ∃ t, exec (.barrierSweep i) s = .next t ∧ t = { s with msgs := s.msgs.eraseIdx i, bars := t.bars } ∧
        ((s.netRec n).st = .voiding ∨ (s.netRec n).st = .free → t.bars = s.bars) ∧
        ((s.netRec n).st = .bound ∨ (s.netRec n).st = .parked → (from', v) ∈ (t.bar nw n k).got ∧ (∀ e ∈ (t.bar nw n k).got, e.1 = from' → e.2 = v) ∧
          (t.bar nw n k).time = max (s.bar nw n k).time time ∧ ∀ j, j ≠ barKey nw n k → Tbl.get? t.bars j = Tbl.get? s.bars j)) ∧
      (let nw := s.bar core n k
       let rows := rectRows (s.netRec n) s nw.rect
       let cores := rows.flatten
       let val := fun (c : Nat) => ((nw.got.find? (fun e => e.1 == c)).map (·.2)).getD 0
       let result := redValue (fld nw.rect.toNat 46 44) (rows.map (fun l => l.map val))
       (s.netRec n).st = .bound → nw.arrived = true → cores.head? = some core → cores.Nodup → k < 8 → n < 4096 →
         (∀ c ∈ cores, (s.bar c n k).arrived = true ∧ (s.bar c n k).rect = nw.rect ∧ (s.bar c n k).isRed = nw.isRed ∧ ∃ e ∈ nw.got, e.1 = c) →
         ∃ t time, exec (.barrierRelease core n k) s = .next t ∧ t.mem = s.mem ∧ t.msgs = s.msgs ∧
           (∀ c ∈ cores, t.bar c n k = { gen := !(s.bar c n k).gen, got := (s.bar c n k).got.filter (fun e => !cores.contains e.1) } ∧ (s.bar c n k).time ≤ time) ∧
           (∀ b x, Tbl.get? s.berths b = some x → ¬(coreId b ∈ cores ∧ AtBar x.ctx n k (s.bar (coreId b) n k).gen) → Tbl.get? t.berths b = some x) ∧
           ∀ b x, Tbl.get? s.berths b = some x → coreId b ∈ cores → AtBar x.ctx n k (s.bar (coreId b) n k).gen →
             t.ctx b = { x.ctx with regs := (t.ctx b).regs, fflags := (t.ctx b).fflags, pc := x.ctx.pc + 4, wait := .ready, pts := max x.ctx.pts time } ∧
             (∀ g, x.ctx.wait = .bar k g → (t.ctx b).regs = x.ctx.regs ∧ (t.ctx b).fflags = x.ctx.fflags) ∧
             ∀ g d, x.ctx.wait = .red k g d → nw.isRed = true → (∀ r : Reg, (t.ctx b).regs[r] = if r = d ∧ r ≠ 0 then result else x.ctx.regs[r]) ∧
               (fld nw.rect.toNat 46 44 < 6 → (t.ctx b).fflags = x.ctx.fflags))) ∧
  (
    ∀ (i dst sender n time : Nat) (data : VData) (m : Msg) (s : State), Taken i m s → m.body = .flit data dst sender n time →
      let halts := haltedAt s n m.dst = true ∧ (s.netRec n).st ≠ .voiding
      let head := (s.netRec n).form s (quadOf sender) + sender / 16 % 4 * 2 ^ 18 + sender % 16 * 2 ^ 20
      let d : VData := BitVec.ofNat 256 (data.toNat / 2 ^ 24 * 2 ^ 24 + head)
      let sent := fun (t : State) => (∃ x y, (s.ctx sender).wait = .send x y) → s.held sender = true → (s.ctx sender).net = n → dst ≠ sender →
        t.ctx sender = { s.ctx sender with pc := (s.ctx sender).pc + 4, wait := .reply }
      (halts → ∃ t j, exec (.flitArrival i) s = .next t ∧ t.msgs = s.msgs.eraseIdx i ∧ t.suspense = s.suspense ++ [(j, m)] ∧ sent t) ∧
      (¬halts → (s.netRec n).form s (quadOf sender) < 2 ^ 18 → s.held dst = true → (s.ctx dst).net = n → (s.ctx dst).mq.length < 8 → dst ≠ sender →
        ∃ t, exec (.flitArrival i) s = .next t ∧ t.msgs = s.msgs.eraseIdx i ∧ sent t ∧
          t.ctx dst = { s.ctx dst with mq := (s.ctx dst).mq ++ [(d, time)], wait := match (s.ctx dst).wait with | .flit _ => .ready | w => w }) ∧
      (¬halts → s.held dst = true → (s.ctx dst).net = n → 8 ≤ (s.ctx dst).mq.length → exec (.flitArrival i) s = .next { s with msgs := s.msgs.eraseIdx i }) ∧
      (¬halts → s.held dst = false → Tbl.get? s.residents dst = none → ∃ t, exec (.flitArrival i) s = .next t ∧ t.msgs = s.msgs.eraseIdx i ∧ sent t ∧ t.residents = s.residents) ∧
      (∀ b x y, (s.ctx b).wait = .send x y → (∀ w ∈ s.msgs, ∀ p q' n' t', w.body ≠ .flit p q' b n' t') → exec (.flitResend b) s =
        .next { s with msgs := s.msgs ++ [{ src := quadOf b, dst := quadOf y, body := .flit x y b (s.ctx b).net (max (s.ctx b).pts (s.clock / 512)) }] }))

/-! ### Steps of the teller and the collector (12 R208 to R224) -/

namespace Sys2Proof.Say

/-- The command at the head of a queue, in progress. -/
def Runs (s : State) (q ch : Nat) (c : Cmd) : Prop :=
  (s.chan q ch).queue.head? = some c ∧ c.started = true ∧ c.failed = none ∧ c.stopped = none

/-- The queue's head becomes c; nothing else of any queue changes. -/
def HeadIs (q ch : Nat) (c : Cmd) (s t : State) : Prop :=
  t.chan q ch = { s.chan q ch with queue := c :: (s.chan q ch).queue.drop 1 } ∧ ∀ p h, h < 8 → ch < 8 → (p, h) ≠ (q, ch) → t.chan p h = s.chan p h

/-- Rows go from src to dst, a granule at a time, at purse keys that no earlier command, footprint or gang holds back. -/
def RowKeys (s : State) (c : Cmd) (aw : Word) (write : Bool) (k : Nat) : Prop :=
  isPurse k = true ∧ ∀ j, j < c.desc.row / 16 → cmdAccess s c (aw + BitVec.ofNat 64 (16 * j)) 16 write = .go (k + 16 * j) s

/-- A subtraction from a counter (12 R213). -/
def lessBy (x : Counter) (n : Nat) : Nat × Bool := if n ≤ x.count then (x.count - n, x.under) else (0, true)

end Sys2Proof.Say

/-- R208, R215, R217, R219 to R224, R228: the command at a queue's head begins once its dependency is met and its quad is not halted, a fence once it
    stands at the head of every queue it names; a copy moves granule by granule, and a poisoned source leaves zero and poison; a gather or scatter
    reads its indices in list order, 64 at most ahead, and a step of a row moves one of its granules or all that are left, as the machine chooses (log
    entry 3), an index out of range or a misaligned row moving nothing; status bytes are written after; "retry" lets a stopped command go on, "refuse"
    ends it, or leaves the status byte that it was for unwritten. -/
def Obligations.EngineCommandsBeginAndMove : Prop :=
  ∀ (q ch i : Nat) (c : Cmd) (s : State), ch < 5 →
    let d := c.desc
    ((s.chan q ch).queue.head? = some c →
      let met := match d.dep with | 1 => d.depVal ≤ (s.chan c.quad d.dch).mark | 2 => c.waitOp = false | _ => True
      let c' := { c with started := true, time := max c.time (if d.dep = 1 then (s.chan c.quad d.dch).time else 0) }
      (c.started = true ∨ c.voided = true ∨ quadHalted s q = true ∨ ¬met → exec (.commandStart q ch) s = .next s) ∧
      (c.started = false → c.voided = false → quadHalted s q = false → met →
        (c.kind = .gather ∨ c.kind = .scatter ∨ (c.kind = .copy ∧ ¬(d.aw.toNat < d.bw.toNat + d.len ∧ d.bw.toNat < d.aw.toNat + d.len)) →
          ∃ t, exec (.commandStart q ch) s = .next t ∧ HeadIs q ch c' s t ∧ t = { s with chans := t.chans }) ∧
        (∀ m, c.kind = .fence m → (∀ h, h < 5 → ∀ x r, (s.chan q h).queue = x :: r → x.seq = c.seq ∨ ∀ y ∈ r, y.seq ≠ c.seq) →
          ∃ t, exec (.commandStart q ch) s = .next t ∧ HeadIs q ch c' s t ∧ t = { s with chans := t.chans }) ∧
        (∀ m h x r, c.kind = .fence m → h < 5 → (s.chan q h).queue = x :: r → x.seq ≠ c.seq → (∃ y ∈ r, y.seq = c.seq) → exec (.commandStart q ch) s = .next s))) ∧
    (∀ va retry, (s.chan q ch).queue.head? = some c → c.stopped = some va → ∃ t, exec (.replayAnswer q ch retry) s = .next t ∧ t.mem = s.mem ∧
      (d.cnt = false ∨ c.statRow = none ∨ retry = true → t.berths = s.berths) ∧
      (c.statRow = none ∨ retry = true → HeadIs q ch { c with stopped := none, statRow := none, failed := if retry = true then c.failed else some (c.failed.getD .page) } s t) ∧
      (∀ i, ch = 4 → c.statRow = some i → retry = false → ∃ r, t.chan q 4 = { s.chan q 4 with queue := r :: (s.chan q 4).queue.drop 1 } ∧
        r = { c with stopped := none, statRow := none, moved := i :: c.moved, rows := r.rows, failed := some (c.failed.getD .page) }) ∧
      (retry = true → ∀ e ∈ t.tlb, ¬(e.net = c.net ∧ e.va < va / 65536 * 65536 + 65536 ∧ va / 65536 * 65536 < e.va + 2 ^ e.bits)) ∧ (retry = false → t.tlb = s.tlb)) ∧
    (Runs s q ch c → c.kind = .copy → i < d.len / 16 → i ∉ c.moved → c.snap = none → ∀ ks kd, isPurse ks = true → isPurse kd = true → kd % 16 = 0 →
      cmdAccess s c (d.aw + BitVec.ofNat 64 (16 * i)) 16 false = .go ks s → cmdAccess s c (d.bw + BitVec.ofNat 64 (16 * i)) 16 true = .go kd s →
      ∃ t time, exec (.tellerCopy q ch [i]) s = .next t ∧ HeadIs q ch { c with moved := i :: c.moved, time := time } s t ∧
        (∀ x, memGet t.mem x = if kd ≤ x ∧ x < kd + 16 then (if poisoned s ks 16 = true then 0 else memGet s.mem (ks + (x - kd))) else memGet s.mem x) ∧
        (kd / 16 ∈ t.poison ↔ poisoned s ks 16 = true)) ∧
    (∀ gather ki ks kd, ch = 4 → Runs s q 4 c → c.kind = (if gather = true then .gather else .scatter) → i < d.n → i ∉ c.moved → d.stat = 0 → s.poison = [] →
      i < c.idxs.length + 64 → isPurse ki = true →
      (∀ j, c.idxs.length ≤ j → j ≤ i → cmdAccess s c (d.idx + BitVec.ofNat 64 (4 * j)) 4 false = .go (ki + 4 * j) s) → (gather = false → i = 0) →
      let read := (List.range (i + 1 - c.idxs.length)).map (fun j => leNat (memRead s.mem (ki + 4 * (c.idxs.length + j)) 4))
      let idxs := c.idxs ++ read
      let p : RowProg := (c.rows.find? (fun r => r.row == i)).getD { row := i, idx := idxs.getD i 0, moved := [], bad := false }
      let x := p.idx
      let word := d.aw + BitVec.ofNat 64 (x * d.pitch)
      let row := d.bw + BitVec.ofNat 64 (i * d.stride)
      let act : Instr := if gather = true then .gatherRow q i else .scatterRow q i
      let fits := x < d.tlen ∧ word.toNat % 32 = 0
      let n := if gather = true ∨ fits then d.row / 16 else 0
      let open' := (List.range n).filter (fun k => decide (k ∉ p.moved))
      let head := fun (t : State) (e : Cmd) => ∃ time, (t.chan q 4).queue = { e with time := time } :: (s.chan q 4).queue.drop 1
      let c' := { c with idxs := idxs, rows := c.rows.filter (fun r => r.row != i) }
      let went := fun (t : State) (g : List Nat) (failed : Option Cause) => (g = open' ∨ ∃ k ∈ open', g = [k]) ∧
        (p.moved.length + g.length < n → ∃ bad, head t { c' with rows := { p with moved := g.reverse ++ p.moved, bad := bad } :: c'.rows }) ∧
        (n ≤ p.moved.length + g.length → head t { c' with moved := i :: c.moved, failed := failed })
      let touched := fun (g : List Nat) (a : Nat) => ∃ k ∈ g, kd + 16 * k ≤ a ∧ a < kd + 16 * k + 16
      (¬fits → (gather = true → RowKeys s c row true kd) → ∃ t g, exec act s = .next t ∧ went t g (if d.tlen ≤ x ∧ d.strict = true then some .access else none) ∧
        ∀ a, (gather = true ∧ touched g a → memGet t.mem a = 0) ∧ (¬(gather = true ∧ touched g a) → memGet t.mem a = memGet s.mem a)) ∧
      (fits → rowFits d x = true → RowKeys s c (if gather = true then word else row) false ks → RowKeys s c (if gather = true then row else word) true kd →
        (ks + d.row / 16 * 16 ≤ kd ∨ kd + d.row / 16 * 16 ≤ ks) → ∃ t g, exec act s = .next t ∧ went t g none ∧
        ∀ a, (touched g a → memGet t.mem a = memGet s.mem (ks + (a - kd))) ∧ (¬touched g a → memGet t.mem a = memGet s.mem a))) ∧
    ((∀ b, rowStatus .oob b = 2 ^ 2 ∧ rowStatus .misaligned b = 2) ∧ rowStatus .move false = 1 ∧ rowStatus .move true = 1 + 2 ^ 3 ∧
      ∀ k t m bad, d.stat ≠ 0 → cmdAccess s c (d.stat + BitVec.ofNat 64 i) 1 true = .go k t → isPurse k = true →
        memGet (closeRow q c i m bad s).mem k = BitVec.ofNat 8 (rowStatus m bad))

/-- R174, R208, R212, R213, R215, R219, R221, R223, R228, R230: a command that has moved everything leaves its queue, a copy, gather, scatter or
    fence: the channel's mark rises by one, its counter falls, its coin goes to its continuation or back to the mint, a fence's with the last of its
    parts, and a thread that waits for the mark goes on. A cancelled command gives back its coin too, and one that faulted sends its coin with a fault
    redex, which names the descriptor and carries no snapshot. -/
def Obligations.EngineCommandsComplete : Prop :=
  ∀ (q ch : Nat) (c : Cmd) (s : State), ch < 5 → (s.chan q ch).queue.head? = some c → c.desc.stat = 0 →
    let d := c.desc
    let x := s.counter q d.ctr
    let fence := ∃ m, c.kind = .fence m
    let voided := c.voided = true ∨ (s.netRec c.net).st = .voiding
    let all := match c.kind with | .copy => c.moved.length = d.len / 16 | .fence _ => True | _ => c.moved.length = d.n
    let amount := match c.kind with | .copy => (if d.unit = true then 1 else d.len) | .fence _ => 0 | _ => d.n - c.moved.length
    let moved := c.started = true ∧ c.failed = none ∧ c.stopped = none ∧ all
    let left := fun (t : State) => t.chan q ch = { s.chan q ch with queue := (s.chan q ch).queue.drop 1, mark := (s.chan q ch).mark + (if ch < 4 then 1 else 0), time := max (s.chan q ch).time c.time } ∧
      ((∀ e ∈ s.berths, ∀ j r, e.2.ctx.wait ≠ .counter j r) →
        ((t.counter q d.ctr).count, (t.counter q d.ctr).under) = if d.cnt = true then lessBy x amount else (x.count, x.under)) ∧
      ((s.berths.map (·.1)).Nodup → ∀ b v, s.held b = true → quadOf b = q → (s.ctx b).wait = .mark ch v → v ≤ (s.chan q ch).mark + 1 → ch < 4 →
        t.ctx b = { s.ctx b with pc := (s.ctx b).pc + 4, wait := .ready, pts := max (s.ctx b).pts (max (s.chan q ch).time c.time) })
    let returned := fun (t : State) => c.coin ≠ 0 → t.msgs = s.msgs ++ [{ src := q, dst := 0, body := .ret c.net c.coin c.time }]
    let elsewhere := ∃ h, h < 5 ∧ h ≠ ch ∧ ∃ y ∈ (s.chan q h).queue, y.seq = c.seq
    (moved → fence → ∃ t, exec (.engineCompletion q ch) s = .next t ∧ left t ∧ t.deques = s.deques ∧ t.mem = s.mem ∧ (elsewhere → t.msgs = s.msgs) ∧ (¬elsewhere → returned t)) ∧
    (moved → ¬fence → ¬voided → d.cont = false → ∃ t, exec (.engineCompletion q ch) s = .next t ∧ left t ∧ returned t ∧ t.deques = s.deques ∧ t.mem = s.mem) ∧
    (moved → ¬fence → ¬voided → d.cont = true → s.netStateAt c.net q = .bound → (s.deque q).length < 256 → ∃ t, exec (.engineCompletion q ch) s = .next t ∧ left t ∧ t.msgs = s.msgs ∧
      t.deque q = s.deque q ++ [{ a := d.side0, b := d.side1, coin := c.coin, net := c.net, cls := c.cls, typ := 0, time := c.time }]) ∧
    (voided → ¬fence → c.started = false ∨ c.stopped ≠ none ∨ moved → ∃ t, exec (.engineCompletion q ch) s = .next t ∧ left t ∧ returned t ∧ t.deques = s.deques) ∧
    (∀ f i, c.started = true → ¬fence → c.failed = some f → c.stopped = none → ¬voided → (hasHandler c.net q s).1 = true → (s.netq c.net q).waiting = [] → (s.netq c.net q).eng = [] →
      freeBlock s c.net q = some i → s.netStateAt c.net q = .bound → (s.deque q).length < 256 → (s.netRec c.net).form s q < 2 ^ 18 →
      ∃ t, exec (.engineCompletion q ch) s = .next t ∧ left t ∧ t.msgs = s.msgs ∧
      let k := blockKey s c.net q i
      let node := memRead t.mem k 64
      t.deque q = s.deque q ++ [{ a := (s.netRec c.net).handler, b := (s.netRec c.net).port s 2 q (keyOff k), coin := c.coin, net := c.net, cls := c.cls, typ := 2, time := c.time }] ∧
        dbl node 0 = 0xFF04000000000018 ∧ dbl node 8 = (s.netRec c.net).handler.toNat ∧ fld (dbl node 16) 63 60 = faultCode f ∧ fld (dbl node 16) 58 58 = 1 ∧
        dbl node 24 = c.descAddr.toNat % 2 ^ 56 ∧ dbl node 32 = 0)

/-! ### Mints, time limits and the life of a net (13, 14, 17 R298 R301 R308) -/

namespace Sys2Proof.Say

/-- A thread is discarded by voiding (14 R257): its berth is free and its coin goes back. -/
def Discarded (b : Nat) (s t : State) : Prop :=
  Tbl.get? t.berths b = none ∧ OthersStand b s t ∧ (∀ st ∈ t.stores, st.tid ≠ (s.ctx b).tid) ∧
    let all := (s.ctx b).coin + 2 ^ 32 * (s.ctx b).lent
    (all ≠ 0 → t.msgs = s.msgs ++ [{ src := quadOf b, dst := 0, body := .ret (s.ctx b).net all (s.ctx b).pts }]) ∧ (all = 0 → t.msgs = s.msgs)

/-- A net is put into voiding with a reason (14 R250 R257): its mint goes from OPEN to VOIDING, or from QUIET to VOIDED. -/
def Voids (n : Nat) (reason : BitVec 2) (s t : State) : Prop :=
  (t.netRec n).st = .voiding ∧ ((s.mint n).st = .opened → (t.mint n).st = .voiding ∧ (t.mint n).reason = reason) ∧
    ((s.mint n).st = .quiet → (t.mint n).st = .voided ∧ (t.mint n).reason = reason) ∧ (t.mint n).issued = (s.mint n).issued ∧
    (t.mint n).returned = (s.mint n).returned ∧ t.berths = s.berths ∧ t.deques = s.deques ∧
    ∀ e ∈ t.chans, ∀ c ∈ e.2.queue, c.net = n → c.voided = true

/-- A reply in the outbox (18 R326). -/
def Replied (s t : State) (r : Reply) : Prop := t.replies = s.replies ++ [r]

end Sys2Proof.Say

/-- R250 to R257, R298, R301, R308: returns and borrows are performed at their mint, a refused borrow discarding its thread; a quiet or voided mint
    wakes every waiter it owes; passed deadlines void their net or drop their launch; a thread of a voiding net is discarded; one that waits for a
    fault block takes the first free one; and a wait of W watched cycles faults WATCHDOG. A borrow may meet another of its net on its way, and both
    are then performed in one arrival at one clearing time (R176): whether it does is a choice of the machine (log entry 3). Where a granted borrow
    stands until its instruction comes to its CoinSplit is the model's layout (log entry 30); when a deadline has passed, and which waits a watchdog
    watches, are its readings (log entries 57 and 67). -/
def Obligations.MintsTimeLimitsAndVoiding : Prop :=
  ∀ (i b n : Nat) (s : State),
    let c := s.ctx b
    (∀ src' dst' amount time, s.msgs[i]? = some { src := src', dst := dst', body := .ret n amount time } →
      exec (.mintReturn i) s = .next (mintReturn n amount time (mintRequest src' n { s with msgs := s.msgs.eraseIdx i }))) ∧
    (∀ q, (clusterOf q ∉ s.stalePorts → mintRequest q n s = s) ∧ ∃ stale perf, mintRequest q n s = { s with stalePorts := stale, perf := perf }) ∧
    (let wants := c.wait = .borrow ∨ ∃ p, c.wait = .link p ∧ p.push.isSome = true ∧ c.coin < 2 ∧ c.lent = 0
     let more := fun (k : Nat) (t : State) => (t.mint c.net).issued = (s.mint c.net).issued + 2 ^ 32 * k ∧ (t.mint c.net).st = .opened
     let given := fun (o : Nat) (t : State) => ∃ p, (s.ctx o).pts ≤ p ∧
       t.ctx o = { s.ctx o with lent := (s.ctx o).lent + 1, pts := p, wait := match (s.ctx o).wait with | .borrow => .ready | w => w }
     s.held b = true → wants → (s.mint c.net).st = .opened ∨ (s.mint c.net).st = .quiet → ∃ t, exec (.mintBorrow b) s = .next t ∧ given b t ∧
       ((more 1 t ∧ OthersStand b s t) ∨
        ∃ o, otherBorrower b s = some o ∧ more 2 t ∧ given o t ∧ (t.ctx o).pts = (t.ctx b).pts ∧ ∀ k, k ≠ b → k ≠ o → Tbl.get? t.berths k = Tbl.get? s.berths k)) ∧
    (s.held b = true → c.wait = .borrow → (s.mint c.net).st = .voiding ∨ (s.mint c.net).st = .voided → ∃ t, exec (.mintBorrow b) s = .next t ∧ Discarded b s t ∧
      t.mints = s.mints) ∧
    ((s.netRec n).st = .bound → (s.netRec n).deadline ≠ 0 → (s.netRec n).deadline ≤ s.wall →
      (s.launches = [] → ∃ t, exec (.deadline n) s = .next t ∧ Voids n 1 s t) ∧
      ((s.mint n).st = .opened → ∃ t, exec (.mintClose n 2 1) s = .next t ∧ Voids n 1 s t) ∧ ((s.mint n).st = .quiet → ∃ t, exec (.mintClose n 3 1) s = .next t ∧ Voids n 1 s t)) ∧
    (∀ l, s.launches = [l] → l.net = n → dbl l.record 8 ≠ 0 → dbl l.record 8 ≤ s.wall → ∃ t r, exec (.deadline n) s = .next t ∧ t.launches = [] ∧ t.berths = s.berths ∧
      Replied s t r ∧ r.src = l.src ∧ r.status = 7 ∧ r.net = n ∧ r.tagg = l.tagg) ∧
    (((s.mint n).due.map (·.tid)).Nodup → (s.mint n).due ≠ [] → ∃ t, exec (.qwaitWake n) s = .next t ∧ (t.mint n).due = [] ∧ (t.mint n).st = (s.mint n).st ∧
      ∀ u ∈ (s.mint n).due, ∀ x d, Tbl.get? s.berths b = some x → x.ctx.tid = u.tid → x.ctx.wait = .qwait n d →
        t.ctx b = { x.ctx with regs := (t.ctx b).regs, pc := x.ctx.pc + 4, wait := .ready, pts := max x.ctx.pts u.time, woken := x.ctx.woken || (u.voided && n == x.ctx.net) } ∧
        ∀ r : Reg, (t.ctx b).regs[r] = if r = d ∧ r ≠ 0 then u.report else x.ctx.regs[r]) ∧
    (∀ d, s.held b = true → c.wait = .qretry n d → (s.mint n).st = .opened ∨ (s.mint n).st = .voiding → waitersAt s (homeOf s (mintPa s n)) < 64 →
      ∃ t, exec (.qwaitRetry b) s = .next t ∧ OthersStand b s t ∧ t.ctx b = { c with wait := .qwait n d, waited := 0 } ∧ (t.mint n).waiters = (s.mint n).waiters ++ [c.tid]) ∧
    (s.held b = true → (s.netRec c.net).st = .voiding → c.woken = false → c.wait = .ready → Tbl.get? s.residents b = none → ∃ t, exec (.voidTrap b) s = .next t ∧ Discarded b s t) ∧
    (∀ f k, s.held b = true → c.wait = .faultPending f → (hasHandler c.net (quadOf b) s).1 = true → firstWaiting s c.net (quadOf b) = some c.tid → (s.netq c.net (quadOf b)).waiting = [c.tid] →
      freeBlock s c.net (quadOf b) = some k → 2 ≤ c.coin → (s.deque (quadOf b)).length < 256 → s.netStateAt c.net (quadOf b) = .bound →
      ∃ t, exec (.faultRedex b) s = .next t ∧ (∀ x, x ≠ b → BerthStands s t x) ∧ t.ctx b = { c with wait := .fault (blockKey s c.net (quadOf b) k), coin := c.coin - c.coin / 2 } ∧
        (t.netq c.net (quadOf b)).blocks = k :: (s.netq c.net (quadOf b)).blocks ∧
        t.deque (quadOf b) = s.deque (quadOf b) ++ [{ a := (s.netRec c.net).handler, b := (s.netRec c.net).port s 2 (quadOf b) (keyOff (blockKey s c.net (quadOf b) k)),
                                                      coin := c.coin / 2, net := c.net, cls := c.cls, typ := 2, time := c.pts }]) ∧
    (let watched := match c.wait with | .parked _ | .refused _ | .mark .. | .counter .. | .bar .. | .red .. | .flit _ | .cells _ => True | .link p => p.onHold = true | _ => False
     let inLink := match c.wait with | .link _ => true | _ => false
     let due := s.held b = true ∧ watched ∧ (s.netRec c.net).watch ≠ 0 ∧ 8 * (s.netRec c.net).watch ≤ c.waited ∧ (s.netRec c.net).st = .bound ∧ haltedAnywhere s c.net = false
     (due → exec (.watchdogExpiry b) s = .next (faultBerth b { cause := .watchdog, pc := c.pc, lnk := inLink } s)) ∧ (¬due → exec (.watchdogExpiry b) s = .next s))

/-- R232 to R236, R244, R254, R256, R304 to R306: binding a launch gives its net the record, the mint, the handler cell and the first redex; a net
    ends when its mint is QUIET or VOIDED and no thread of it is left, with its report to the master; parking leaves each of its threads resident and
    keeps its records and contexts aside; rebinding puts the residents back in their berths. Which launch is placed before which, how a parked net
    stands, that its record is PARKED once it is parked on all its quads, that it is rebound on all of them at once, and what the journal holds of each
    are the model's readings (log entries 53, 50, 105, 106 and 64). -/
def Obligations.NetsAreBoundParkedReboundAndEnded : Prop :=
  ∀ (n q ox oy pool cells : Nat) (s : State),
    (∀ l r, s.launches = [l] → parseLaunch l.record = some r → bindable s l r ox oy pool cells = true →
      let lq := (boundRec l r ox oy pool cells 0).launchQuad s
      (s.deque lq).length < 256 →
      ∃ t, exec (.bind 0 ox oy pool cells) s = .next t ∧ t.launches = [] ∧
        (let x := t.netRec l.net
         x.st = .bound ∧ x.cls.toNat = r.cls % 4 ∧ x.priv = r.priv ∧ x.counters.toNat = r.counters % 256 ∧ x.spawnLim = r.spawn ∧ x.cellKib = r.cellKib ∧ x.deadline = r.deadline ∧
           x.ptRoot = r.ptRoot ∧ x.ruleBase = r.ruleBase ∧ x.codeBase = r.codeBase ∧ x.ox = ox ∧ x.oy = oy ∧ x.wc = r.wc ∧ x.hc = r.hc ∧ x.poolOff = pool ∧
           x.poolSize = 1024 * r.poolKib ∧ x.cellOff = cells ∧ x.schedBase = r.schedBase ∧ x.schedCount = r.schedCount ∧ x.watch = 2 ^ 28 ∧ x.src = l.src ∧ x.master = l.master ∧
           x.handler = x.port t 2 lq (pool + 1024 * r.poolKib)) ∧
        (t.mint l.net).issued = r.coin ∧ (t.mint l.net).returned = 0 ∧ (t.mint l.net).st = .opened ∧ (t.mint l.net).borrows = 0 ∧
        t.deque lq = s.deque lq ++ [{ a := r.side0, b := r.side1, coin := r.coin, net := l.net, cls := BitVec.ofNat 2 r.cls, typ := r.typ, time := s.clock / 512 }] ∧
        memRead t.mem (purseKey lq (pool + 1024 * r.poolKib)) 16 = wordBytes r.head ++ wordBytes holdWord) ∧
    (let x := s.netRec n
     let m := s.mint n
     let finished := x.st ≠ .free ∧ (m.st = .quiet ∨ m.st = .voided) ∧ hasThreads s n = false
     (¬finished → exec (.netCompletion n) s = .next s) ∧
     (finished → ∃ t r, exec (.netCompletion n) s = .next t ∧ (t.netRec n).st = .free ∧ Replied s t r ∧ r.src = x.src ∧ r.net = n ∧ r.tagg = x.tagg ∧
       r.status = (if m.st = .voided then 7 else 8) ∧ t.berths = s.berths ∧ t.deques = s.deques ∧ (∀ e ∈ t.tlb, e.net ≠ n) ∧ (t.mint n).issued = m.issued)) ∧
    (s.netStateAt n q = .bound → (s.berths.map (·.1)).Nodup → (poolInUse s).length + (s.deque q).length + ((coresOf q).map (fun k => (s.arrQ k).length)).sum ≤ poolBlocks → (∃ l ∈ s.launches, ∃ r, parseLaunch l.record = some r ∧ (s.netRec n).cls.toNat < r.cls) →
      (∀ b, s.held b = true → quadOf b = q → (s.ctx b).net = n → mustFinish (s.ctx b).wait = false) → ∃ t, exec (.park n q) s = .next t ∧
        t.netStateAt n q = .parked ∧ t.deque q = (s.deque q).filter (fun r => r.net ≠ n) ∧ (∀ r ∈ s.deque q, r.net = n → ∃ b ∈ t.parkedRec, b.quad = q ∧ r ∈ b.recs) ∧
        (∀ b x, Tbl.get? s.berths b = some x → ¬(quadOf b = q ∧ x.ctx.net = n) → Tbl.get? t.berths b = some x) ∧
        ∀ b x, Tbl.get? s.berths b = some x → quadOf b = q → x.ctx.net = n → Tbl.get? t.berths b = none ∧ ∃ y, Tbl.get? t.residents b = some y ∧
          y.regs = x.ctx.regs ∧ y.vecs = x.ctx.vecs ∧ y.pc = x.ctx.pc ∧ y.coin = x.ctx.coin ∧ y.pts = x.ctx.pts ∧ y.range = x.ctx.range ∧ y.tid = x.ctx.tid ∧ y.net = n ∧
          (x.ctx.wait = .ready → y.wait = .ready)) ∧
    ((s.netRec n).st = .bound ∨ (s.netRec n).st = .parked → ((s.netRec n).quads s).filter (fun p => (s.netq n p).parked) = [q] →
      (poolInUse s).length + ((s.parkedRec.map (fun b => b.recs.length)).sum + ((coresOf q).map (fun k => (s.arrQ k).length + (s.arrS k).length)).sum) ≤ poolBlocks →
      (∀ b ∈ s.parkedRec, (readBlock b.no b.recs s).2 = []) → (∀ k ∈ coresOf q, ∀ c ∈ s.arrS k, poisoned s c.slot 96 = false) → ∃ t, exec (.rebind n) s = .next t ∧
      (t.netRec n).st = .bound ∧ (t.netq n q).parked = false ∧
      ∀ b c, quadOf b = q → Tbl.get? s.residents b = some c → c.net = n → t.ctx b = c ∧ Tbl.get? t.residents b = none)

/-- R148, R151: a bank takes the role its slice's register names; one that enters or leaves CACHE reads as zero after, and no copy or unsettled store
    of it is left, nor a guest line in a slice left with no CACHE bank; a bank that an operation still names, or whose role stays, does not change,
    and every byte outside the banks that change stands. That copies and stores of the bank go with it is the model's reading (log entry 56). -/
def Obligations.BankRolesChange : Prop :=
  ∀ (slice v : Nat) (s : State), Tbl.get? s.roleChg slice = some v → slice < 4096 → v < 4 ^ 32 → Tbl.getD s.roles slice 0 < 4 ^ 32 →
    (∀ st ∈ s.stores, st.addr % 256 + st.bytes.length ≤ 256) →
    let old := fun k => Tbl.getD s.roles slice 0 / 4 ^ k % 4
    let new := fun k => v / 4 ^ k % 4
    let stays := fun k => old k = new k ∨ (old k = 2 ∧ bankNamed s slice k = true)
    let base := fun k => 2 ^ 48 + slice * 2 ^ 23 + k * 2 ^ 18
    let cleared := fun a => ∃ k, k < 32 ∧ ¬stays k ∧ (old k = 0 ∨ new k = 0) ∧ base k ≤ a ∧ a < base (k + 1)
    ∃ t, exec (.bankRoleChange slice) s = .next t ∧ t.berths = s.berths ∧ (∀ o, o ≠ slice → Tbl.getD t.roles o 0 = Tbl.getD s.roles o 0) ∧
      (∀ k, k < 32 → Tbl.getD t.roles slice 0 / 4 ^ k % 4 = if stays k then old k else new k) ∧
      ((∀ k, k < 32 → stays k → old k = new k) → Tbl.get? t.roleChg slice = none) ∧ (¬(∀ k, k < 32 → stays k → old k = new k) → Tbl.get? t.roleChg slice = some v) ∧
      (∀ a, (cleared a → memGet t.mem a = 0) ∧ (¬cleared a → memGet t.mem a = memGet s.mem a)) ∧
      (∀ st, st ∈ t.stores ↔ st ∈ s.stores ∧ ¬cleared st.addr) ∧
      (∀ c ∈ t.copies, c ∈ s.copies ∧ ¬cleared (256 * c.line)) ∧
      ((∃ k, k < 32 ∧ ¬stays k) → hasCache t slice = false → ∀ c ∈ t.copies, ¬(c.guest = true ∧ c.holder = slice))

/-! ### Hosts, peers and the bursar's commands (16, 17 R307 R308, 18) -/

namespace Sys2Proof.Say

/-- Nothing that a command could set has changed. -/
def Unmoved (s t : State) : Prop :=
  t.nets = s.nets ∧ t.mints = s.mints ∧ t.owner = s.owner ∧ t.acl = s.acl ∧ t.launches = s.launches ∧ t.berths = s.berths ∧ t.netqs = s.netqs ∧ t.sliceMap = s.sliceMap ∧
    t.roles = s.roles ∧ t.roleChg = s.roleChg ∧ t.points = s.points ∧ t.powerCap = s.powerCap ∧ t.bar2 = s.bar2 ∧ t.peers = s.peers ∧ t.fwActive = s.fwActive ∧
    t.fwInactive = s.fwInactive ∧ t.rollback = s.rollback ∧ t.perfSnap = s.perfSnap ∧ t.chans = s.chans ∧ t.deques = s.deques ∧ t.msgs = s.msgs ∧ t.suspense = s.suspense

/-- A command is journalled and then answered (17 R310, 18 R326): the next journal entry, and one reply with that entry's number. -/
def Answered (q : Nat) (p : Packet) (status net fromSt toSt : Nat) (s t : State) : Prop :=
  t.jseq = s.jseq + 1 ∧ (∃ e, t.journal.getLast? = some e ∧ e.seq = s.jseq ∧ e.code = p.code ∧ e.status = status ∧ e.net = net ∧ e.fromSt = fromSt ∧ e.toSt = toSt ∧ e.wall = s.wall) ∧
    ∃ r, t.replies = s.replies ++ [r] ∧ r.src = p.src ∧ r.status = status ∧ r.tagg = p.tagg ∧ r.net = net ∧ r.addr = p.addr ∧ r.seq = s.jseq ∧
      (∀ h, p.src = .host h → r.vector = some q)

/-- The commands of 18 R325. -/
def commandOf (q : Nat) (late : List Nat) : List (Nat × Instr) :=
  [(0x01, .launch q), (0x02, .abort q), (0x03, .halt q), (0x04, .resume q), (0x05, .watchdog q), (0x06, .arm q), (0x10, .claim q), (0x11, .handover q), (0x12, .accept q),
   (0x13, .release q), (0x14, .heartbeat q), (0x20, .acl q), (0x21, .slicemap q late), (0x22, .bankrole q), (0x23, .island q), (0x24, .powercap q), (0x25, .window q),
   (0x30, .fwload q), (0x31, .attest q), (0x32, .snapshot q)]

/-- The numbers of 17 R310 for the states of a bind record. -/
def netStateNo : NetState → Nat
  | .free => 0
  | .bound => 2
  | .parked => 3
  | .voiding => 4

/-- The state of the net that a command names, where it names one (17 R310): QUEUED while its launch waits. -/
def namedNo (u : State) (p : Packet) : Nat :=
  if ¬(2 ≤ p.code ∧ p.code ≤ 6) then 0 else if ∃ l ∈ u.launches, l.net = p.net then 1 else netStateNo (u.netRec p.net).st

/-- A command passes the checks of R287 and R324 and is refused by its own: answered, and nothing else. -/
def RefusedWith (st : Nat) (q : Nat) (p : Packet) (u : State) (o : Result) : Prop := ∃ t, o = .next t ∧ Answered q p st p.net (namedNo u p) 7 u t ∧ Unmoved u t

/-- A command is accepted with an effect that `keeps` tells; its entry holds the state of the net that it names, and zero where it names none (17 R310). -/
def AcceptedWith (q : Nat) (p : Packet) (u : State) (o : Result) (keeps : State → Prop) : Prop :=
  ∃ t, o = .next t ∧ Answered q p 0 p.net (namedNo u p) (namedNo u p) u t ∧ keeps t

/-- A read from outside is answered with some bytes, and no `aadd` after it meets one before it (09 R176). -/
def Serves (src : Source) (s : State) (o : Result) (data : List Byte → Prop) : Prop :=
  ∃ t r, o = .next t ∧ t = { s with berths := t.berths, replies := s.replies ++ [r] } ∧ (∀ b, BerthStands s t b) ∧ r.src = src ∧ data r.data

/-- The quads that are halted for some net, in ascending order, with the number that each has among them. -/
def HaltedQuad (s : State) (k q : Nat) : Prop := (haltedQuads s)[k]? = some q

/-- A touched set that R170 allows: up to eight slices, or a mask of dies. -/
def touchedOk : Touched → Prop
  | .slices l => l.length ≤ 8 ∧ ∀ x ∈ l, x < 4096
  | .dies _ => True

end Sys2Proof.Say

/-- R158, R286, R287, R290, R292, R324, R326: a packet of 256 bytes enters its queue, or earns BUSY where 64 stand in it, and any other write to a
    doorbell is counted and dropped; the owner's writes reach memory, another host's are counted and dropped; reads of what a port reaches are
    answered; a peer's access of memory needs its window and right, or is counted and dropped, while a verified peer reads the registers of control space
    and the journal (R310) without a window, as every master does: R323, R310 and R287 over R292's "any other peer access", the model's reading (log
    entry 95). Without running firmware a peer reaches nothing (R327). A host port sends no write above 512 bytes and no read above 4,096 (R321). R307: the owner reads the snapshot record of a halted net's
    berth and writes its registers and `%pts`, which no write lowers (R164); where that window lies is the model's choice (log entry 59). A bank of the vault that changes its role
    keeps an access waiting (R148). -/
def Obligations.HostsAndPeersReachWhatTheyMay : Prop :=
  ∀ (q port span pa n : Nat) (src : Source) (bytes : List Byte) (write : Bool) (s : State),
    let refusedAt := fun (k : Nat) (t : State) => Tbl.getD t.refusedW k 0 = (Tbl.getD s.refusedW k 0 + 1) % 2 ^ 64 ∧ t.mem = s.mem ∧ t.cmdqs = s.cmdqs ∧ t.replies = s.replies
    let sourceKey := match src with | .host p => p | .peer sp => 16 + sp
    (bytes.length = 256 → (s.cmdq q).length < 64 → ∃ t, exec (.commandPacket src q bytes) s = .next t ∧ t.cmdq q = s.cmdq q ++ [{ src := src, bytes := bytes }] ∧ t.mem = s.mem ∧
      t.berths = s.berths ∧ t.owner = (if isOwner s src = true then { s.owner with lastPacket := s.wall } else s.owner)) ∧
    (bytes.length = 256 → 64 ≤ (s.cmdq q).length → ∃ t r, exec (.commandPacket src q bytes) s = .next t ∧ t.cmdqs = s.cmdqs ∧ t.replies = s.replies ++ [r] ∧ r.status = 9 ∧
      t.nets = s.nets ∧ t.mints = s.mints ∧ t.berths = s.berths) ∧
    (bytes.length ≠ 256 → ∃ t, exec (.commandPacket src q bytes) s = .next t ∧ refusedAt sourceKey t) ∧
    (2 ^ 48 * 15 + 0x2000000 ≤ pa → pa < 2 ^ 48 * 15 + 0x2040000 →
      let door := (pa - (2 ^ 48 * 15 + 0x2000000)) / 4096
      (pa % 4096 = 0 → exec (.hostWrite port pa bytes) s = exec (.commandPacket (.host port) door bytes) s) ∧
      (pa % 4096 ≠ 0 → ∃ t, exec (.hostWrite port pa bytes) s = .next t ∧ refusedAt port t)) ∧
    (pa < 2 ^ 48 → ¬(s.owner.st ≠ .vacant ∧ s.owner.port = port) → ∃ t, exec (.hostWrite port pa bytes) s = .next t ∧ refusedAt port t) ∧
    (s.owner.st ≠ .vacant → s.owner.port = port → s.power = .on → Tbl.getD s.bar2 port 0 ≤ pa → pa + bytes.length ≤ Tbl.getD s.bar2 port 0 + 2 ^ 36 →
      pa + bytes.length ≤ hbmTop → pa < hbmTop → bytes.length ≤ 512 → s.stores = [] → ∃ t, exec (.hostWrite port pa bytes) s = .next t ∧ t.berths = s.berths ∧ t.refusedW = s.refusedW ∧
      ∀ x, memGet t.mem x = if pa ≤ x ∧ x < pa + bytes.length then bytes.getD (x - pa) 0 else memGet s.mem x) ∧
    (s.power = .on → Tbl.getD s.bar2 port 0 ≤ pa → pa + n ≤ Tbl.getD s.bar2 port 0 + 2 ^ 36 → pa + n ≤ hbmTop → pa < hbmTop → n ≤ 4096 →
      Serves (.host port) s (exec (.hostRead port pa n) s) (fun d => d = memRead s.mem pa n)) ∧
    (let len := if write = true then bytes.length else n
     let may := ∃ id e, Tbl.get? s.span span = some id ∧ aclOf s id = some e ∧ fld e.w0.toNat (if write = true then 60 else 59) (if write = true then 60 else 59) = 1 ∧
       fld e.w2.toNat 51 26 * 2 ^ 26 ≤ pa ∧ pa + len ≤ fld e.w2.toNat 51 26 * 2 ^ 26 + fld e.w3.toNat 19 0 * 2 ^ 26 ∧ (pa + len ≤ s.resBase ∨ s.resBase + s.resSize ≤ pa)
     let registers := write = false ∧ Tbl.get? s.span span ≠ none ∧ 2 ^ 48 * 15 ≤ pa ∧ pa + n ≤ 2 ^ 48 * 15 + 2 ^ 26 ∧ pa < 2 ^ 48 * 16
     let at_ := exec (.peerMemoryAccess span write pa n bytes) s
     let journal := write = false ∧ Tbl.get? s.span span ≠ none ∧ s.resBase + 2 ^ 26 ≤ pa ∧ pa + n ≤ s.resBase + 2 ^ 26 + 2 ^ 26
     (s.power ≠ .on ∨ ¬registers ∧ ¬journal ∧ ¬may → ∃ t, at_ = .next t ∧ refusedAt (16 + span) t) ∧
     (s.power = .on → may → ¬journal → bankBusy s pa len = true → pa + len ≤ 2 ^ 48 + 2 ^ 35 → at_ = .next s) ∧
     (s.power = .on → journal → pa + n ≤ hbmTop → pa < hbmTop → Serves (.peer span) s at_ (fun d => d = memRead s.mem pa n)) ∧
     (s.power = .on → registers → Serves (.peer span) s at_ (fun d => d = outerRead s pa n ∧ (pa = 2 ^ 48 * 15 + 0x1000 → n = 8 → leNat d = ownerWord s.owner % 2 ^ 64))) ∧
     (write = true → 2 ^ 48 * 15 ≤ pa → pa < 2 ^ 48 * 16 → ∃ t, at_ = .next t ∧ refusedAt (16 + span) t) ∧
     (s.power = .on → may → pa + len ≤ hbmTop → pa < hbmTop → write = false → Serves (.peer span) s at_ (fun d => d = memRead s.mem pa n)) ∧
     (s.power = .on → may → pa + len ≤ hbmTop → pa < hbmTop → write = true → s.stores = [] → ∃ t, at_ = .next t ∧ t.berths = s.berths ∧
       ∀ x, memGet t.mem x = if pa ≤ x ∧ x < pa + bytes.length then bytes.getD (x - pa) 0 else memGet s.mem x)) ∧
    (∀ (b off k : Nat) (r : Reg), k < 256 → HaltedQuad s k (quadOf b) → s.owner.st ≠ .vacant → s.owner.port = port → s.held b = true → (s.netq (s.ctx b).net (quadOf b)).halted = true →
      let place := 2 ^ 48 * 15 + 0x3000000 + 2 ^ 16 * k + 1024 * (b % 64)
      let fits := (s.ctx b).pc.toNat % 4 = 0 ∧ (s.ctx b).net < 4096 ∧ (s.ctx b).pts < 2 ^ 64 ∧ touchedOk (s.ctx b).touched ∧ ((s.ctx b).brokenVec = true → (s.ctx b).broken = true) ∧
        (s.ctx b).regs[0] = 0
      (off + n ≤ 640 → ∃ t q, exec (.hostRead port (place + off) n) s = .next t ∧ t = { s with replies := s.replies ++ [q] } ∧
        ∃ l, l.length = 640 ∧ SnapshotOf l (s.ctx b) (s.ctx b).pc 0 ∧ q.data = (l.drop off).take n) ∧
      (r ≠ 0 → bytes.length = 8 → fits → ∃ t, exec (.hostWrite port (place + 8 * r.val) bytes) s = .next t ∧ OthersStand b s t ∧ t.mem = s.mem ∧
        t.ctx b = { s.ctx b with regs := (t.ctx b).regs } ∧ ∀ x : Reg, ((t.ctx b).regs[x]).toNat = if x = r then leNat bytes else ((s.ctx b).regs[x]).toNat) ∧
      (bytes.length = 8 → fits → ∃ t, exec (.hostWrite port (place + 464) bytes) s = .next t ∧ OthersStand b s t ∧ t.mem = s.mem ∧
        t.ctx b = { s.ctx b with pts := max (s.ctx b).pts (leNat bytes) })) ∧
    ((haltedQuads s).Pairwise (· < ·) ∧ ∀ d, d ∈ haltedQuads s ↔ ∃ e ∈ s.netqs, e.2.halted = true ∧ e.1 % 2 ^ 18 = d)

/-- R285, R287, R290, R295, R310, R324 to R326: every command that R287 refuses is answered with the status of the first check that it fails, in the
    order STALE, BADREC for a code, NOTOWNER, DENIED, BADREC for its fields, is journalled, and changes nothing; so is a packet of a code that R325
    does not assign. That a packet over a span link which has not been verified is DENIED before its epoch is looked at is the model's reading (log
    entry 63). -/
def Obligations.RefusedCommandsChangeNothing : Prop :=
  ∀ (q : Nat) (late : List Nat) (p : Packet) (s u : State), takePacket q s = some (p, u) →
    let peer := match p.src with | .peer sp => some sp | .host _ => none
    let verified := ∀ sp, peer = some sp → Tbl.get? u.span sp ≠ none
    let stale := p.epoch ≠ u.owner.epoch.toNat
    let anyHost := p.code = 0x10 ∨ p.code = 0x12 ∨ p.code = 0x31 ∨ p.code = 0x32
    let entitled := anyHost ∨ (∃ h, p.src = .host h ∧ u.owner.st ≠ .vacant ∧ u.owner.port = h) ∨ (peer ≠ none ∧ (p.code = 1 ∨ p.code = 2))
    let allowed := ∀ sp, peer = some sp → peerAllowed u sp q p.code = true
    ((∃ e ∈ commandOf q late, p.code = e.1) → u.power = .on →
      (¬verified → refusal u q p = some 3) ∧ (verified → stale → refusal u q p = some 1) ∧ (verified → ¬stale → ¬entitled → refusal u q p = some 2) ∧
      (verified → ¬stale → entitled → ¬allowed → refusal u q p = some 3) ∧ (verified → ¬stale → entitled → allowed → fieldsZero p = false → refusal u q p = some 4) ∧
      (verified → ¬stale → entitled → allowed → fieldsZero p = true → refusal u q p = none)) ∧
    (∀ e ∈ commandOf q late, p.code = e.1 → ∀ st, refusal u q p = some st → RefusedWith st q p u (exec e.2 s)) ∧
    (∀ e ∈ commandOf q late, p.code ≠ e.1 → exec e.2 s = .next s) ∧
    ((∀ e ∈ commandOf q late, p.code ≠ e.1) →
      (u.power = .on → (¬verified → refusal u q p = some 3) ∧ (verified → stale → refusal u q p = some 1) ∧ (verified → ¬stale → refusal u q p = some 4)) ∧
      ∀ st, refusal u q p = some st → Answered q p st p.net (namedNo u p) 7 u (refuseHead q s) ∧ Unmoved u (refuseHead q s))

/-- R233, R257, R307, R308, R326: LAUNCH queues its record under a free id, or is refused BADREC, NOTPRIV, NOROOM or BUSY; that it takes the LOWEST free
    id is the model's choice, R233 naming none (log entry 94). ABORT voids a bound net, drops a launch that waits, and changes no net that is VOIDING;
    that it moves a QUIET mint to VOIDED is the model's reading (log entry 107); HALT, RESUME, WATCHDOG and ARM set what they name on the quad or the
    net. That the quad is named in the net's coordinates is the model's reading (log entry 58), and so is which states an entry of the journal holds
    (log entry 64). -/
def Obligations.CommandsOnNets : Prop :=
  ∀ (q : Nat) (p : Packet) (s u : State), takePacket q s = some (p, u) → refusal u q p = none →
    let n := p.net
    let x := u.netRec n
    let aimed := fun (v d : Nat) => x.st ≠ .free ∧ v < 2 ^ 18 ∧ x.ofForm u v = some d
    let sets := fun (d : Nat) (y : NetQuad) (t : State) => t.netq n d = y ∧ (∀ j, j ≠ 2 ^ 18 * n + d → Tbl.get? t.netqs j = Tbl.get? u.netqs j) ∧ t.nets = u.nets ∧ t.mints = u.mints
    (p.code = 0x01 → let o := exec (.launch q) s
      (parseLaunch p.body = none → RefusedWith 4 q p u o) ∧
      (∀ r, parseLaunch p.body = some r →
        let denied := r.priv = true ∧ isOwner u p.src = false
        let idle := fun (k : Nat) => k < 4096 ∧ (u.netRec k).st = .free ∧ (∀ l ∈ u.launches, l.net ≠ k) ∧ (u.mint k).waiters = [] ∧ (u.mint k).due = []
        (denied → RefusedWith 6 q p u o) ∧ (¬denied → noRoomEver u r = true → RefusedWith 5 q p u o) ∧
        (¬denied → noRoomEver u r = false → (∀ k, ¬idle k) → RefusedWith 9 q p u o) ∧
        (∀ k, ¬denied → noRoomEver u r = false → idle k → (∀ j, j < k → ¬idle j) → ∃ t l, o = .next t ∧ Answered q p 0 k 0 1 u t ∧ t.launches = u.launches ++ [l] ∧
          l.net = k ∧ l.record = p.body ∧ l.src = p.src ∧ l.tagg = p.tagg ∧ l.reply = p.addr ∧ t.nets = u.nets ∧ t.berths = u.berths))) ∧
    (p.code = 0x02 → let o := exec (.abort q) s
      let mine := fun (m : Nat) => (∃ h, p.src = .host h) ∨ masterNo u p.src = some m
      (u.launches = [] → x.st = .free → RefusedWith 4 q p u o) ∧ (u.launches = [] → x.st ≠ .free → ¬mine x.master → RefusedWith 3 q p u o) ∧
      (u.launches = [] → mine x.master → x.st = .voiding → AcceptedWith q p u o (fun t => Unmoved u t)) ∧
      (u.launches = [] → mine x.master → x.st = .bound ∨ x.st = .parked → ∃ t, o = .next t ∧ Answered q p 0 n (netStateNo x.st) 4 u t ∧ Voids n 2 u t) ∧
      (∀ l, u.launches = [l] → l.net = n → mine l.master → ∃ t r1 r2, o = .next t ∧ t.launches = [] ∧ t.nets = u.nets ∧ t.replies = u.replies ++ [r1, r2] ∧ r1.status = 0 ∧
        r1.tagg = p.tagg ∧ r2.status = 7 ∧ r2.src = l.src ∧ r2.tagg = l.tagg ∧ r2.net = n)) ∧
    (p.code = 0x03 → ((∀ d, ¬aimed p.arg d) → RefusedWith 4 q p u (exec (.halt q) s)) ∧
      ∀ d, aimed p.arg d → AcceptedWith q p u (exec (.halt q) s) (sets d { u.netq n d with halted := true })) ∧
    (p.code = 0x04 → ((∀ d, ¬aimed p.arg d) → RefusedWith 4 q p u (exec (.resume q) s)) ∧
      ∀ d, aimed p.arg d → (u.suspense = [] → AcceptedWith q p u (exec (.resume q) s) (sets d { u.netq n d with halted := false })) ∧
        ∀ j r src', let m : Msg := { src := src', dst := d, body := .redex r none }
          u.suspense = [(j, m)] → suspenseBad u (j, m) = false → r.net = n → u.netStateAt n d = .bound → (u.deque d).length < 256 →
          AcceptedWith q p u (exec (.resume q) s) (fun t => sets d { u.netq n d with halted := false } t ∧ t.suspense = [] ∧ t.deque d = u.deque d ++ [r] ∧ t.msgs = u.msgs)) ∧
    (p.code = 0x05 → (x.st = .free → RefusedWith 4 q p u (exec (.watchdog q) s)) ∧
      (x.st ≠ .free → AcceptedWith q p u (exec (.watchdog q) s) (fun t => t.netRec n = { x with watch := p.arg } ∧ t.netqs = u.netqs ∧
        ∀ k, k ≠ n → Tbl.get? t.nets k = Tbl.get? u.nets k))) ∧
    (p.code = 0x06 → ((∀ d, ¬aimed (p.arg % 2 ^ 63) d) → RefusedWith 4 q p u (exec (.arm q) s)) ∧
      ∀ d, aimed (p.arg % 2 ^ 63) d → AcceptedWith q p u (exec (.arm q) s) (sets d { u.netq n d with armed := decide (2 ^ 63 ≤ p.arg) }))

/-- R286, R288, R289: CLAIM takes a vacant module; HANDOVER names the other port as successor, or cancels; ACCEPT makes the successor owner; RELEASE
    leaves the module vacant; each such change raises the epoch by one. HEARTBEAT does nothing else. -/
def Obligations.OwnershipChangesHands : Prop :=
  ∀ (q : Nat) (p : Packet) (s u : State), takePacket q s = some (p, u) → refusal u q p = none →
    let w := u.owner
    let from' := match p.src with | .host h => h | .peer _ => 0
    let other := fun (t : State) => t.nets = u.nets ∧ t.mints = u.mints ∧ t.berths = u.berths ∧ t.acl = u.acl ∧ t.launches = u.launches
    let owns := fun (o : Owner) (t : State) => other t ∧ t.owner = o
    let named := p.arg = 0 ∨ p.arg = 1
    (p.code = 0x10 → (w.st ≠ .vacant → RefusedWith 2 q p u (exec (.claim q) s)) ∧
      (w.st = .vacant → AcceptedWith q p u (exec (.claim q) s) (owns { w with st := .owned, port := from', succ := 0, epoch := w.epoch + 1, lastPacket := u.wall }))) ∧
    (p.code = 0x11 → let o := exec (.handover q) s
      (¬(p.arg = 4 ∨ (named ∧ p.arg ≠ w.port)) → RefusedWith 4 q p u o) ∧
      (named → p.arg ≠ w.port → AcceptedWith q p u o (owns { w with st := .handover, succ := p.arg, epoch := w.epoch + 1, handoverAt := u.wall })) ∧
      (p.arg = 4 → w.st = .handover → AcceptedWith q p u o (owns { w with st := .owned, succ := 0, epoch := w.epoch + 1 })) ∧
      (p.arg = 4 → w.st ≠ .handover → AcceptedWith q p u o (owns w))) ∧
    (p.code = 0x12 → (¬(w.st = .handover ∧ from' = w.succ) → RefusedWith 2 q p u (exec (.accept q) s)) ∧
      (w.st = .handover → from' = w.succ → AcceptedWith q p u (exec (.accept q) s) (owns { w with st := .owned, port := from', succ := 0, epoch := w.epoch + 1, lastPacket := u.wall }))) ∧
    (p.code = 0x13 → AcceptedWith q p u (exec (.release q) s) (owns { w with st := .vacant, port := 0, succ := 0, epoch := w.epoch + 1 })) ∧
    (p.code = 0x14 → AcceptedWith q p u (exec (.heartbeat q) s) (owns w))

/-- R148, R149, R291, R296, R321, R322, R325, R328 to R331: the commands that set tables, roles, islands, the cap, windows and firmware set what they
    name, or are refused BADREC with nothing set; ATTEST answers with a report and two signatures over it, the number of the last accepted command
    among it; SNAPSHOT copies every counter. The layout of WINDOW's argument, and that bits 62:32 of a peer's entry are refused, are the model's (log
    entry 13), and so is that only the low 12 bits of an entry of SLICEMAP's table count (log entry 55), of which R149 and R325 do not speak. -/
def Obligations.CommandsSetWhatTheyName : Prop :=
  ∀ (q : Nat) (late : List Nat) (p : Packet) (s u : State), takePacket q s = some (p, u) → refusal u q p = none →
    let a := p.arg
    let body := fun (i : Nat) => dbl p.body (8 * i)
    let bad := fun (i : Instr) => RefusedWith 4 q p u (exec i s)
    let good := fun (i : Instr) (k : State → Prop) => AcceptedWith q p u (exec i s) (fun t => k t ∧ t.owner = u.owner ∧ t.nets = u.nets ∧ t.berths = u.berths)
    (p.code = 0x20 →
      let clean := fld (body 0) 58 16 = 0 ∧ fld (body 2) 63 52 = 0 ∧ fld (body 2) 25 0 = 0 ∧ fld (body 3) 63 20 = 0
      let twice := fld (body 0) 63 63 = 1 ∧ ∃ e ∈ u.acl, e.1 ≠ a ∧ fld e.2.w0.toNat 63 63 = 1 ∧ fld e.2.w0.toNat 15 0 = fld (body 0) 15 0
      (256 ≤ a ∨ ¬clean ∨ twice → bad (.acl q)) ∧
      (a < 256 → clean → ¬twice → good (.acl q) (fun t => (∃ e, Tbl.get? t.acl a = some e ∧ e.w0.toNat = body 0 ∧ e.w1.toNat = body 1 ∧ e.w2.toNat = body 2 ∧ e.w3.toNat = body 3) ∧
        ∀ k, k ≠ a → Tbl.get? t.acl k = Tbl.get? u.acl k))) ∧
    (p.code = 0x21 → (hbmTop < a + 8192 → bad (.slicemap q late)) ∧
      (a + 8192 ≤ hbmTop → good (.slicemap q late) (fun t => t.mapGen = u.mapGen + 1 ∧ t.stalePorts = late ∧ t.oldMap = u.sliceMap ∧
        ∀ h, h < 4096 → mapEntry t h = leNat (memRead u.mem (a + 2 * h) 2) % 4096))) ∧
    (p.code = 0x22 →
      let slice := 256 * fld a 63 60 + fld a 59 52
      let legal := fld a 51 0 = 0 ∧ ∀ b, b < 32 → fld (body 0) (2 * b + 1) (2 * b) ≠ 3
      (¬legal → bad (.bankrole q)) ∧
      (legal → good (.bankrole q) (fun t => Tbl.get? t.roleChg slice = (if Tbl.getD u.roles slice 0 = body 0 then none else some (body 0)) ∧ t.roles = u.roles))) ∧
    (p.code = 0x23 → (64 ≤ a → bad (.island q)) ∧ (a < 64 → good (.island q) (fun t => Tbl.getD t.points (a % 16) 0 = a / 16 ∧
      ∀ k, k ≠ a % 16 → Tbl.get? t.points k = Tbl.get? u.points k))) ∧
    (p.code = 0x24 → (a < 4000 ∨ 7500 < a → bad (.powercap q)) ∧ (4000 ≤ a → a ≤ 7500 → good (.powercap q) (fun t => t.powerCap = a ∧ t.points = u.points))) ∧
    (p.code = 0x25 →
      (fld a 63 63 = 1 → (fld a 62 4 ≠ 0 ∨ fld (body 0) 62 32 ≠ 0 → bad (.window q)) ∧
        (fld a 62 4 = 0 → fld (body 0) 62 32 = 0 → good (.window q) (fun t => Tbl.get? t.peers (fld a 3 0) = some (BitVec.ofNat 64 (body 0)) ∧ t.bar2 = u.bar2))) ∧
      (fld a 63 63 = 0 → (fld a 35 1 ≠ 0 ∨ hbmTop ≤ fld a 63 36 * 2 ^ 36 → bad (.window q)) ∧
        (fld a 35 1 = 0 → fld a 63 36 * 2 ^ 36 < hbmTop → good (.window q) (fun t => Tbl.get? t.bar2 (a % 2) = some (fld a 63 36 * 2 ^ 36) ∧ t.peers = u.peers)))) ∧
    (p.code = 0x30 →
      let ok := a < hbmTop ∧ Config.imageVerifies u.mem a = true ∧ u.rollback ≤ Config.imageVersion u.mem a
      (¬ok → bad (.fwload q)) ∧ (ok → good (.fwload q) (fun t => t.fwInactive = some (Config.imageDigest u.mem a, Config.imageVersion u.mem a) ∧ t.fwPending = true ∧
        t.fwActive = u.fwActive ∧ t.rollback = u.rollback))) ∧
    (p.code = 0x31 → ∃ t r rep, exec (.attest q) s = .next t ∧ Answered q p 0 0 0 0 u t ∧ Unmoved u t ∧ t.replies = u.replies ++ [r] ∧
      r.data = rep ++ Config.ecdsaSign rep ++ Config.lmsSign rep ∧ (p.bytes.length = 256 → rep.length = 216 ∧ rep.take 48 = p.body.take 48 ∧ dbl rep 192 = ownerWord u.owner % 2 ^ 64 ∧ dbl rep 208 = u.lastCmd % 2 ^ 64 ∧
        (rep.drop 48).take 48 = leBytes 48 u.fwActive.toNat)) ∧
    (p.code = 0x32 → good (.snapshot q) (fun t => t.perf = u.perf ∧ t.perfSnap = u.perf))

/-! ### The module (16 R289, 17 R309 R311, 18 R327 to R330) -/

/-- R258, R286, R289, R309, R311, R321, R322, R327 to R331: what no command causes. A handover not accepted within 1 s, and one whose successor's link
    is down, return to the owner; the owner is lost with its link or after 1 s of silence; each raises the epoch by one. Errors are counted and poison
    what they touch, a register of a resident context or of a gang's member berth too; a coin of which a copy survives becomes a fault redex or, in
    voiding, a return, no grains at all borrowing first (R251; log entry 54), and one that is lost closes its mint by force; a
    hot die runs at point 3 until it has cooled, and a trip stops the module; a warm reset closes every net by force and restarts the clocks; a newly
    loaded image runs from then on; a cold one boots the active flash copy or the second one, of a version that the rollback counter allows, or
    exposes BAR0 alone. That a cold reset keeps HBM with the journal (log entry 14), which copy verifies (log entry 3), what a warm reset keeps
    besides what R311 names (log entry 66) and when the governor holds a slot (log entry 15) are the model's. -/
def Obligations.TheModuleMeetsItsOutsideEvents : Prop :=
  ∀ (port die span line q b core : Nat) (r : Reg) (cxl : Bool) (peer : BitVec 16) (s : State),
    let w := s.owner
    let still := fun (t : State) => t.nets = s.nets ∧ t.berths = s.berths ∧ t.mints = s.mints ∧ t.deques = s.deques
    let owned := fun (i : Instr) (o : Owner) => ∃ t, exec i s = .next t ∧ still t ∧ t.owner = o ∧ t.jseq = s.jseq + 1
    let back := { w with st := .owned, succ := 0, epoch := w.epoch + 1 }
    let lost := { w with st := .vacant, port := 0, succ := 0, epoch := w.epoch + 1 }
    (w.st = .handover → w.handoverAt + 1000000000 ≤ s.wall → owned .handoverTimeout back) ∧
    (¬(w.st = .handover ∧ w.handoverAt + 1000000000 ≤ s.wall) → exec .handoverTimeout s = .next s) ∧
    (w.st = .handover → owned .successorLinkDown back) ∧ (w.st ≠ .handover → exec .successorLinkDown s = .next s) ∧
    (w.st ≠ .vacant → owned .ownerLinkDown lost) ∧ (w.st = .vacant → exec .ownerLinkDown s = .next s) ∧
    (w.st ≠ .vacant → w.lastPacket + 1000000000 ≤ s.wall → owned .ownerTimeout lost) ∧ (¬(w.st ≠ .vacant ∧ w.lastPacket + 1000000000 ≤ s.wall) → exec .ownerTimeout s = .next s) ∧
    (∃ t, exec (.hostPortTraining port cxl) s = .next t ∧ still t ∧ Tbl.get? t.hostMode port = some (if cxl = true then .cxl else .pcie)) ∧
    (s.power = .on → ∃ t, exec (.spanLinkAttestation span peer) s = .next t ∧ still t ∧ Tbl.get? t.span span = some peer) ∧
    (s.power ≠ .on → exec (.spanLinkAttestation span peer) s = .next s) ∧
    (let counted := fun (k d : Nat) (t : State) => Tbl.getD t.perf (16 * d + k) 0 = (Tbl.getD s.perf (16 * d + k) 0 + 1) % 2 ^ 64
     let errs := fun (x : ErrSite) (d : Nat) (k : State → Prop) => ∃ t, exec (.uncorrectableError x) s = .next t ∧ counted 13 d t ∧ t.mem = s.mem ∧ k t
     (∃ t, exec (.correctedError die) s = .next t ∧ still t ∧ counted 12 die t ∧ t.mem = s.mem) ∧
     (∀ k, isPurse k = true → errs (.granule k) (dieOf (keyQuad k)) (fun t => still t ∧ ∀ g, g ∈ t.poison ↔ g = k / 16 ∨ g ∈ s.poison)) ∧
     (∀ k, isPurse k = false → errs (.granule k) (homeOf s k / 256) (fun t => still t ∧ ∀ g, g ∈ t.poison ↔ g = k / 32 * 2 ∨ g = k / 32 * 2 + 1 ∨ g ∈ s.poison)) ∧
     errs (.copy q line) (dieOf q) (fun t => still t ∧ ∀ c, c ∈ t.copies ↔ c ∈ s.copies ∧ ¬(c.line = line ∧ c.guest = false ∧ c.holder = q)) ∧
     errs (.tlb q) (dieOf q) (fun t => still t ∧ ∀ e, e ∈ t.tlb ↔ e ∈ s.tlb ∧ ¬(e.cluster = false ∧ e.holder = q)) ∧
     errs (.icache q) (dieOf q) (fun t => still t ∧ ∀ e ∈ t.icache, e.1 / 2 ^ 52 ≠ q) ∧
     errs (.guest q line) (q / 256) (fun t => still t ∧ ∀ c, c ∈ t.copies ↔ c ∈ s.copies ∧ ¬(c.line = line ∧ c.guest = true ∧ c.holder = q)) ∧
     errs (.ctlb q) (q / 256) (fun t => still t ∧ ∀ e, e ∈ t.tlb ↔ e ∈ s.tlb ∧ ¬(e.cluster = true ∧ e.holder = q)) ∧
     (let more := fun (l : List Nat) (x : Nat) => l.filter (fun y => y ≠ x) ++ [x]
      (s.held b = true → errs (.xreg b r.val) (dieOf (quadOf b)) (fun t => OthersStand b s t ∧ t.ctx b = { s.ctx b with regErr := more (s.ctx b).regErr r.val })) ∧
     (s.held b = true → errs (.vreg b (r.val % 8)) (dieOf (quadOf b)) (fun t => OthersStand b s t ∧ t.ctx b = { s.ctx b with regErr := more (s.ctx b).regErr (16 + r.val % 8) })) ∧
     (let alone := s.held b = false ∧ ∀ g ∈ s.vgangs, ∀ m ∈ g.2.members, m.2.1 ≠ b
      ∀ c, alone → Tbl.get? s.residents b = some c → errs (.xreg b r.val) (dieOf (quadOf b)) (fun t => still t ∧ Tbl.get? t.residents b = some { c with regErr := more c.regErr r.val } ∧
        ∀ o, o ≠ b → Tbl.get? t.residents o = Tbl.get? s.residents o)) ∧
     (∀ l g, s.vgangs = [(l, g)] → s.held b = false → (∃ m ∈ g.members, m.2.1 = b) → errs (.vreg b (r.val % 8)) (dieOf (quadOf b)) (fun t => OthersStand l s t ∧
       t.ctx l = { s.ctx l with regErr := more (s.ctx l).regErr (48 + r.val % 8) }))) ∧
     exec (.uncorrectableError .bursar) s = exec .warmReset (journal { kind := 2 } s) ∧
     (let c := s.ctx b
      let own := quadOf b
      let all := c.coin + 2 ^ 32 * c.lent
      let erred := fun (x : ErrSite) (d : Nat) (k : State → Prop) => ∃ t, exec (.uncorrectableError x) s = .next t ∧ counted 13 d t ∧ k t
      let forced := fun (n : Nat) (t : State) => (t.mint n).st = .voided ∧ (t.mint n).reason = 3 ∧ (t.mint n).issued = (s.mint n).issued ∧ (t.mint n).returned = (s.mint n).issued
      (s.held b = true → erred (.coin b false) (dieOf own) (fun t => OthersStand b s t ∧ t.ctx b = { c with coin := 0, lent := 0 } ∧ forced c.net t)) ∧
      (s.held b = true → s.stores = [] → (s.netRec c.net).st = .voiding → all ≠ 0 → erred (.coin b true) (dieOf own) (fun t => OthersStand b s t ∧ Tbl.get? t.berths b = none ∧
        t.msgs = s.msgs ++ [{ src := own, dst := 0, body := .ret c.net all c.pts }])) ∧
      (s.held b = true → s.stores = [] → s.netStateAt c.net own = .bound → (hasHandler c.net own s).1 = true → (s.netq c.net own).waiting = [] → (s.netq c.net own).eng = [] →
        (∃ i, i < 4 ∧ i ∉ (s.netq c.net own).blocks) → (s.deque own).length < 256 → (s.mint c.net).st = .opened → erred (.coin b true) (dieOf own) (fun t => OthersStand b s t ∧
          Tbl.get? t.berths b = none ∧ (t.mint c.net).issued = (s.mint c.net).issued + (if all = 0 then 2 ^ 32 else 0) ∧
          ∃ x, t.deque own = s.deque own ++ [x] ∧ x.net = c.net ∧ x.coin = (if all = 0 then 2 ^ 32 else all) ∧ x.cls = c.cls ∧ x.typ = 2 ∧ x.a = (s.netRec c.net).handler)) ∧
      (∀ i x, (s.deque q)[i]? = some x → erred (.recCoin q i false) (dieOf q) (fun t => t.deque q = (s.deque q).eraseIdx i ∧ t.berths = s.berths ∧ forced x.net t)))) ∧
    (die ∉ s.throttled → ∃ t, exec (.thermalThrottle die) s = .next t ∧ still t ∧ t.throttled = die :: s.throttled ∧ pointOf t die = 3 ∧ t.jseq = s.jseq + 1) ∧
    (die ∈ s.throttled → ∃ t, exec (.throttleEnd die) s = .next t ∧ still t ∧ die ∉ t.throttled ∧ pointOf t die = max (Tbl.getD s.points die 0) (Tbl.getD s.capped die 0) ∧ t.jseq = s.jseq + 1) ∧
    (∃ t, exec (.thermalTrip die) s = .next t ∧ still t ∧ t.power = .off ∧ t.jseq = s.jseq + 1) ∧
    (pointOf s die < 3 → die ∉ s.throttled → ∃ t, exec (.islandPointLowering die) s = .next t ∧ still t ∧ pointOf t die = pointOf s die + 1) ∧
    (let cyc := cycleOf s (dieOf (core / 4))
     ∀ x, Tbl.getD s.served core 0 ≠ cyc + 1 → chosen s (16 * core + cyc % 8) (16 * core + cyc % 8 + 8) = some x →
       (7 ≤ (s.berth x).g → exec (.governorBubble core) s = .next s) ∧
       ((s.berth x).g < 7 → ∃ t, exec (.governorBubble core) s = .next t ∧ t.mem = s.mem ∧ t.ctx x = s.ctx x ∧ (t.berth x).g = (s.berth x).g + 1 ∧ (t.berth x).p = (s.berth x).p ∧
         Tbl.getD t.bubbles core 0 = (Tbl.getD s.bubbles core 0 + 1) % 2 ^ 64 ∧ Tbl.getD t.served core 0 = cyc + 1)) ∧
    (∃ t, exec .warmReset s = .next t ∧ t.berths = [] ∧ t.deques = [] ∧ t.msgs = [] ∧ t.cmdqs = [] ∧ t.chans = [] ∧ t.stores = [] ∧ t.copies = [] ∧ t.tlb = [] ∧ t.launches = [] ∧
      t.counters = [] ∧ t.icache = [] ∧ t.residents = [] ∧ t.evicted = [] ∧ t.arrivals = [] ∧ t.suspense = [] ∧
      t.clock = 0 ∧ t.wall = s.wall ∧ t.owner = s.owner ∧ t.acl = s.acl ∧ t.sliceMap = s.sliceMap ∧ t.fused = s.fused ∧ t.resBase = s.resBase ∧
      (s.fwPending = false ∨ s.power ≠ .on → t.fwActive = s.fwActive ∧ t.fwInactive = s.fwInactive ∧ t.rollback = s.rollback) ∧
      (∀ d v, s.fwPending = true → s.power = .on → s.fwInactive = some (d, v) → t.fwActive = d ∧ t.fwVersion = v ∧ t.rollback = max s.rollback v ∧ t.fwInactive = some (s.fwActive, s.fwVersion) ∧
        t.fwPending = false) ∧
      ∀ e ∈ s.nets, (s.nets.map (·.1)).Nodup → e.2.st ≠ .free → (t.netRec e.1).st = .voiding ∧ (t.mint e.1).st = .voided ∧ (t.mint e.1).reason = 3 ∧
        (t.mint e.1).returned = (t.mint e.1).issued) ∧
    (∃ t, exec .coldReset s = .next t ∧ t.owner = {} ∧ t.nets = [] ∧ t.berths = [] ∧ t.acl = [] ∧ t.roles = [] ∧ t.sliceMap = [] ∧ t.bar2 = [] ∧ t.points = [] ∧ t.clock = 0 ∧
      t.wall = s.wall ∧ t.fused = s.fused ∧ t.journal = s.journal ∧ t.jseq = s.jseq ∧ t.lastCmd = s.lastCmd ∧ (t.power = .on ∨ t.power = .noFirmware) ∧ s.rollback ≤ t.rollback ∧
      (t.power = .on → t.rollback ≤ t.fwVersion ∧ ((t.fwActive = s.fwActive ∧ t.fwVersion = s.fwVersion ∧ t.fwInactive = s.fwInactive) ∨
        (s.fwInactive = some (t.fwActive, t.fwVersion) ∧ t.fwInactive = some (s.fwActive, s.fwVersion)))) ∧
      (∀ k, isPurse k = true → memGet t.mem k = 0) ∧ (∀ k, vaultBase ≤ k → memGet t.mem k = 0) ∧ ∀ k, k < hbmTop → memGet t.mem k = memGet s.mem k)

/-! ### The machine as a whole (03 R51 to R60, 18 R327) -/

/-- R51, R59, R60, R156, R247, R257, R289, R300, R309, R331: a step whose slot chooses a berth runs what the bytes at that berth's pc decode to,
    counted, in a state where only the turn's counters have moved; a word of no instruction runs ILLEGAL or MISLANDED, a fetch that misses keeps the
    thread out of rotation with its word fetched, a fetch that faults is taken as a fault, a voiding net's thread is discarded instead, and a register
    found broken faults POISON, of several one at an issue, all of them zero (log entry 109). A limit of the ownership register that has been met is the next step, and an event on the agenda runs as itself;
    without power nothing does but a cold reset. A fetch of a line with stores that have not settled finds the old word or the new one, as the machine
    chooses (log entry 3), and a pc past 2^56 wraps (log entry 85). Which of them comes next is the model's agenda (log entry 2). -/
def Obligations.StepRunsTheDecodedInstruction : Prop :=
  let late := fun (s : State) => s.owner.st = .handover ∧ s.owner.handoverAt + 1000000000 ≤ s.wall
  let silent := fun (s : State) => s.owner.st ≠ .vacant ∧ s.owner.lastPacket + 1000000000 ≤ s.wall
  (∀ (s v u : State) (core b : Nat), s.power ≠ .off → ¬late s → ¬silent s →
    (∃ rest, s.agenda = .slot core :: rest ∧ v = { s with agenda := rest }) ∨ (s.agenda = [] ∧ core = s.turn ∧ v = tick 1 s) → slotOf v core false = (some b, u) →
    let q := quadOf b
    let n := (u.ctx b).net
    let two := fun (w : Nat) => w / 2 ^ 28 % 16 ≠ 15 ∧ w / 2 ^ 25 % 2 = 1 ∧ takesExt w = true
    let misses := fun (x : State) (va : Nat) => tlbFind x false q n va = none ∨ ∃ e, tlbFind x false q n va = some e ∧ Tbl.get? x.icache (icKey q (e.pa + va % 2 ^ e.bits)) = none
    let runs := fun (i : Instr) (x : State) => ∃ y k, step s = exec i y ∧ k = 16 * dieOf q ∧ y = { x with perf := y.perf } ∧ Tbl.getD y.perf k 0 = (Tbl.getD x.perf k 0 + 1) % 2 ^ 64 ∧
      ∀ j, j ≠ k → Tbl.get? y.perf j = Tbl.get? x.perf j
    let faults := fun (c : Cause) (va : Nat) (x : State) => step s = .next (takeFault { cause := c, addr := if c = .poison then 0 else BitVec.ofNat 64 va } x)
    let fetched := fun (w va : Nat) (x : State) => ∃ t, step s = .next t ∧ t = { x with berths := t.berths } ∧ t.ctx b = { u.ctx b with wait := .fetch, waited := 0 } ∧
      (∀ o, o ≠ b → BerthStands u t o) ∧ fetchWord t b va = .ok (w, t) ∧ ¬misses t va
    let pc := (u.ctx b).pc.toNat
    let nx := (pc + 4) % 2 ^ 56
    u.cur = b ∧ u.mem = v.mem ∧ (∀ x, u.ctx x = v.ctx x) ∧ isReady v b = true ∧ b / 16 = core ∧
    (takesVoid u = true → step s = .next (discard b u)) ∧
    (takesVoid u = false →
      (∀ r l, (u.ctx b).regErr = r :: l → ∃ c : Ctx, step s = .next (takeFault { cause := .poison, reg := true, info := BitVec.ofNat 32 (r % 32) } (u.setTh c)) ∧
        c = { u.ctx b with regs := c.regs, vecs := c.vecs, regErr := l } ∧ (∀ x : Reg, c.regs[x] = if x.val ∈ r :: l then 0 else (u.ctx b).regs[x]) ∧
        ∀ x : VIdx, c.vecs[x] = if 16 + x.val ∈ r :: l then { data := 0, tag := .raw, side := 0 } else (u.ctx b).vecs[x]) ∧
      ((u.ctx b).regErr = [] →
        (∀ c x, fetchWord u b pc = .error (c, x) → faults c pc x) ∧
        ∀ w x, fetchWord u b pc = .ok (w, x) → (misses u pc → fetched w pc x) ∧
          (¬misses u pc → x = u ∧
            (¬two w → (∀ i, decode w 0 = .ok (i, 1) → runs i u) ∧
              ((∀ i m, decode w 0 ≠ .ok (i, m)) → runs (if w / 2 ^ 28 % 16 = 15 then .mislanded else .illegalInstruction) u)) ∧
            (two w → (∀ c y, fetchWord u b nx = .error (c, y) → faults c nx y) ∧
              ∀ e y, fetchWord u b nx = .ok (e, y) → (misses u nx → fetched e nx y) ∧
                (¬misses u nx → (∀ i, decode w e = .ok (i, 2) → runs i u) ∧ ((∀ i m, decode w e ≠ .ok (i, m)) → runs .illegalInstruction u))))))) ∧
  (∀ (s v u : State) (core : Nat), s.power ≠ .off → ¬late s → ¬silent s →
    (∃ rest, s.agenda = .slot core :: rest ∧ v = { s with agenda := rest }) ∨ (s.agenda = [] ∧ core = s.turn ∧ v = tick 1 s) → slotOf v core false = (none, u) → step s = .next u) ∧
  (∀ (s : State) (b va : Nat) (e : TlbEnt), translation s (quadOf b) (s.ctx b).net va = .ok (e, s) → e.x = true →
    let pa := e.pa + va % 2 ^ e.bits
    Tbl.get? s.icache (icKey (quadOf b) pa) = none → pa + 4 ≤ hbmTop → (s.netRec (s.ctx b).net).priv = true → poisoned s pa 4 = false →
    ∃ t, fetchWord s b va = .ok (leNat (memRead t.mem pa 4), t) ∧ (t.mem = s.mem ∨ t.mem = (settleLine s (pa / 256)).mem) ∧ ∀ o, BerthStands s t o) ∧
  (∀ (s : State) (i : Instr) (rest : List Move), s.power ≠ .off → ¬late s → ¬silent s → s.agenda = .event i :: rest → isEvent i = true → step s = exec i { s with agenda := rest }) ∧
  (∀ s : State, s.power ≠ .off → (late s → step s = exec .handoverTimeout s) ∧ (¬late s → silent s → step s = exec .ownerTimeout s)) ∧
  ∀ s : State, s.power = .off → ((∀ rest, s.agenda ≠ .event .coldReset :: rest) → step s = .fault .shutDown) ∧
    ∀ rest, s.agenda = .event .coldReset :: rest → step s = exec .coldReset { s with agenda := rest }

/-- R52 to R58: words that the spec prints, family by family, and what each stands for. -/
def Obligations.PrintedWordsDecodeToTheirInstructions : Prop :=
  ∀ x ∈ ([(0x00624000, 0, .add 3 1 2, 1), (0x288D2000, 0, .cmp .lt 3 4 2, 1), (0x16C05678, 0xF000091A, .moviExt 6 0x12345678, 2), (0x3C8B8010, 0, .ld 4 5 .d false 16, 1),
      (0x5DFFFFFD, 0, .b (-3), 1), (0x60000010, 0, .bl 16, 1), (0x640A0000, 0, .jr 0 5, 1), (0x65EA0000, 0, .jr 15 5, 1), (0x64000100, 0, .ret, 1), (0x640C0900, 0, .migr 6, 1),
      (0x640AC400, 0, .redex 0 5 6 false, 1), (0x64EAC400, 0, .redex 7 5 6 false, 1), (0x640AC401, 0, .redex 0 5 6 true, 1), (0x6406_0600, 0, .spawn 3 0, 1),
      (0x6407_2600, 0, .spawn 3 9, 1), (0x64920800, 0, .rsplit 4 9, 1), (0x64800700, 0, .rnext 4, 1), (0x640A0A00, 0, .bar 5, 1), (0x648ACB00, 0, .red 4 5 6, 1),
      (0x64800C01, 0, .qwait 4, 1), (0x64920C00, 0, .qwaitNet 4 9, 1), (0x50840000, 0, .gang 4 2, 1), (0x50000200, 0, .disband, 1), (0x50000300, 0, .tzero, 1),
      (0x50134507, 0, .tstore 9 10 .rne .bf16, 1), (0x500F0800, 0, .mma 7 8, 1), (0x540F0200, 0, .mmas 7 8 false, 1), (0x4C000000, 0, .fence .quad .acq, 1),
      (0x4C0000B0, 0, .fence .module .sc, 1), (0x58860001, 0, .cpy 4 3 1, 1), (0x58060100, 0, .gath 3, 1), (0x58060200, 0, .scat 3, 1), (0x58000311, 0, .qfence 0x11, 1),
      (0x58080501, 0, .waitm 4 1, 1), (0x580A0602, 0, .expect 5 2, 1), (0x58C00702, 0, .waite 6 2, 1), (0x680E0300, 0, .save 7, 1)] : List (Nat × Nat × Instr × Nat)),
    decode x.1 x.2.1 = .ok (x.2.2.1, x.2.2.2)

/-- R48, R77, R79, R144, R148, R149, R161, R212, R213, R286, R321, R327, R329: what a cold reset leaves, and that it meets the model's invariant: no
    thread, every purse zero and full, every bank in CACHE, each hash its own slice, marks and counters zero with identifiers from 1, a vacant module
    of epoch 0 at point 0. That HBM reads zero, and what the fields for which the spec states no value and the opaque constants hold, are the model's
    choices (log entries 1, 7 and 8). -/
def Obligations.ResetLeavesWhatTheSpecGives : Prop :=
  let s := State.reset
  s.Inv ∧ s.berths = [] ∧ s.deques = [] ∧ s.msgs = [] ∧ s.nets = [] ∧ s.empties = [] ∧ s.poison = [] ∧ s.owner.st = .vacant ∧ s.owner.epoch = 0 ∧ s.power = .on ∧ s.T = 0 ∧
    (∀ k, memGet s.mem k = 0) ∧ (∀ slice bank, bank < 32 → bankRole s slice bank = 0) ∧ (∀ h, mapEntry s h = h) ∧
    (∀ q ch, s.chan q ch = { queue := [], next := 1, mark := 0, time := 0 }) ∧ (∀ q k, s.counter q k = { count := 0, under := false, time := 0 }) ∧
    (∀ d, pointOf s d = 0) ∧ (∀ p, Tbl.getD s.bar2 p 0 = 0) ∧ (∀ i, Tbl.get? s.acl i = none) ∧
    (∀ b, s.held b = false ∧ (s.ctx b).coin = 0 ∧ (s.ctx b).fflags = 0 ∧ (∀ r : Reg, (s.ctx b).regs[r] = 0) ∧ ∀ v : VIdx, (s.ctx b).vecs[v] = { data := 0, tag := .raw, side := 0 })

/-- R52 to R60: the decoder and the encoder agree on every pair of words: a word decodes to exactly the well-formed instruction that encodes as it,
    with every operand at every value, and nothing else decodes; and an instruction's bytes decode to it whatever follows them. -/
def Obligations.DecodeAndEncodeAgree : Prop :=
  (∀ (w e n : Nat) (i : Instr), w < 2 ^ 32 → e < 2 ^ 32 →
    (decode w e = .ok (i, n) ↔ wellFormed i = true ∧ ((n = 1 ∧ encode i = some [w]) ∨ (n = 2 ∧ encode i = some [w, e])))) ∧
  ∀ (i : Instr) (ws : List Nat) (rest : List Byte), wellFormed i = true → encode i = some ws → decodeBytes (ws.flatMap (leBytes 4) ++ rest) = .ok (i, rest)

/-- R48, R108: every step of the module keeps the model's invariant, from every state that meets it: memory stays in its one form, register 0 of every
    thread, running, resident or evicted, stays zero, and a vector gang's members stay those of its size but the leader. -/
def Obligations.EveryStepKeepsTheInvariant : Prop :=
  ∀ s t : State, s.Inv → step s = .next t → t.Inv
end

