-- ==== Sys2Proof/Laws/State.lean ====
section
/-!
SUPPORT. What each update of the state leaves alone: one lemma per field and update, each by unfolding. Written by a script from the fields of `State`.
-/

namespace Sys2Proof.Machine

variable (s : State)

/-! ### setBerth -/

@[simp] theorem State.setBerth_agenda (b : Nat) (x : Berth) : (s.setBerth b x).agenda = s.agenda := rfl
@[simp] theorem State.setBerth_turn (b : Nat) (x : Berth) : (s.setBerth b x).turn = s.turn := rfl
@[simp] theorem State.setBerth_cur (b : Nat) (x : Berth) : (s.setBerth b x).cur = s.cur := rfl
@[simp] theorem State.setBerth_tape (b : Nat) (x : Berth) : (s.setBerth b x).tape = s.tape := rfl
@[simp] theorem State.setBerth_nfree (b : Nat) (x : Berth) : (s.setBerth b x).nfree = s.nfree := rfl
@[simp] theorem State.setBerth_nextTid (b : Nat) (x : Berth) : (s.setBerth b x).nextTid = s.nextTid := rfl
@[simp] theorem State.setBerth_nextArr (b : Nat) (x : Berth) : (s.setBerth b x).nextArr = s.nextArr := rfl
@[simp] theorem State.setBerth_linkBudget (b : Nat) (x : Berth) : (s.setBerth b x).linkBudget = s.linkBudget := rfl
@[simp] theorem State.setBerth_clock (b : Nat) (x : Berth) : (s.setBerth b x).clock = s.clock := rfl
@[simp] theorem State.setBerth_wallBase (b : Nat) (x : Berth) : (s.setBerth b x).wallBase = s.wallBase := rfl
@[simp] theorem State.setBerth_dieLost (b : Nat) (x : Berth) : (s.setBerth b x).dieLost = s.dieLost := rfl
@[simp] theorem State.setBerth_served (b : Nat) (x : Berth) : (s.setBerth b x).served = s.served := rfl
@[simp] theorem State.setBerth_lastIssue (b : Nat) (x : Berth) : (s.setBerth b x).lastIssue = s.lastIssue := rfl
@[simp] theorem State.setBerth_mem (b : Nat) (x : Berth) : (s.setBerth b x).mem = s.mem := rfl
@[simp] theorem State.setBerth_empties (b : Nat) (x : Berth) : (s.setBerth b x).empties = s.empties := rfl
@[simp] theorem State.setBerth_poison (b : Nat) (x : Berth) : (s.setBerth b x).poison = s.poison := rfl
@[simp] theorem State.setBerth_stores (b : Nat) (x : Berth) : (s.setBerth b x).stores = s.stores := rfl
@[simp] theorem State.setBerth_lines (b : Nat) (x : Berth) : (s.setBerth b x).lines = s.lines := rfl
@[simp] theorem State.setBerth_copies (b : Nat) (x : Berth) : (s.setBerth b x).copies = s.copies := rfl
@[simp] theorem State.setBerth_tlb (b : Nat) (x : Berth) : (s.setBerth b x).tlb = s.tlb := rfl
@[simp] theorem State.setBerth_icache (b : Nat) (x : Berth) : (s.setBerth b x).icache = s.icache := rfl
@[simp] theorem State.setBerth_waits (b : Nat) (x : Berth) : (s.setBerth b x).waits = s.waits := rfl
@[simp] theorem State.setBerth_roles (b : Nat) (x : Berth) : (s.setBerth b x).roles = s.roles := rfl
@[simp] theorem State.setBerth_roleChg (b : Nat) (x : Berth) : (s.setBerth b x).roleChg = s.roleChg := rfl
@[simp] theorem State.setBerth_sliceMap (b : Nat) (x : Berth) : (s.setBerth b x).sliceMap = s.sliceMap := rfl
@[simp] theorem State.setBerth_oldMap (b : Nat) (x : Berth) : (s.setBerth b x).oldMap = s.oldMap := rfl
@[simp] theorem State.setBerth_mapGen (b : Nat) (x : Berth) : (s.setBerth b x).mapGen = s.mapGen := rfl
@[simp] theorem State.setBerth_stalePorts (b : Nat) (x : Berth) : (s.setBerth b x).stalePorts = s.stalePorts := rfl
@[simp] theorem State.setBerth_floors (b : Nat) (x : Berth) : (s.setBerth b x).floors = s.floors := rfl
@[simp] theorem State.setBerth_deques (b : Nat) (x : Berth) : (s.setBerth b x).deques = s.deques := rfl
@[simp] theorem State.setBerth_spills (b : Nat) (x : Berth) : (s.setBerth b x).spills = s.spills := rfl
@[simp] theorem State.setBerth_rr (b : Nat) (x : Berth) : (s.setBerth b x).rr = s.rr := rfl
@[simp] theorem State.setBerth_stealTurn (b : Nat) (x : Berth) : (s.setBerth b x).stealTurn = s.stealTurn := rfl
@[simp] theorem State.setBerth_stealRuns (b : Nat) (x : Berth) : (s.setBerth b x).stealRuns = s.stealRuns := rfl
@[simp] theorem State.setBerth_arrivals (b : Nat) (x : Berth) : (s.setBerth b x).arrivals = s.arrivals := rfl
@[simp] theorem State.setBerth_arrSpill (b : Nat) (x : Berth) : (s.setBerth b x).arrSpill = s.arrSpill := rfl
@[simp] theorem State.setBerth_parkedRec (b : Nat) (x : Berth) : (s.setBerth b x).parkedRec = s.parkedRec := rfl
@[simp] theorem State.setBerth_residents (b : Nat) (x : Berth) : (s.setBerth b x).residents = s.residents := rfl
@[simp] theorem State.setBerth_evicted (b : Nat) (x : Berth) : (s.setBerth b x).evicted = s.evicted := rfl
@[simp] theorem State.setBerth_bubbles (b : Nat) (x : Berth) : (s.setBerth b x).bubbles = s.bubbles := rfl
@[simp] theorem State.setBerth_chans (b : Nat) (x : Berth) : (s.setBerth b x).chans = s.chans := rfl
@[simp] theorem State.setBerth_counters (b : Nat) (x : Berth) : (s.setBerth b x).counters = s.counters := rfl
@[simp] theorem State.setBerth_nextCmd (b : Nat) (x : Berth) : (s.setBerth b x).nextCmd = s.nextCmd := rfl
@[simp] theorem State.setBerth_bars (b : Nat) (x : Berth) : (s.setBerth b x).bars = s.bars := rfl
@[simp] theorem State.setBerth_mgangs (b : Nat) (x : Berth) : (s.setBerth b x).mgangs = s.mgangs := rfl
@[simp] theorem State.setBerth_vgangs (b : Nat) (x : Berth) : (s.setBerth b x).vgangs = s.vgangs := rfl
@[simp] theorem State.setBerth_assays (b : Nat) (x : Berth) : (s.setBerth b x).assays = s.assays := rfl
@[simp] theorem State.setBerth_nets (b : Nat) (x : Berth) : (s.setBerth b x).nets = s.nets := rfl
@[simp] theorem State.setBerth_netqs (b : Nat) (x : Berth) : (s.setBerth b x).netqs = s.netqs := rfl
@[simp] theorem State.setBerth_mints (b : Nat) (x : Berth) : (s.setBerth b x).mints = s.mints := rfl
@[simp] theorem State.setBerth_launches (b : Nat) (x : Berth) : (s.setBerth b x).launches = s.launches := rfl
@[simp] theorem State.setBerth_msgs (b : Nat) (x : Berth) : (s.setBerth b x).msgs = s.msgs := rfl
@[simp] theorem State.setBerth_poolDry (b : Nat) (x : Berth) : (s.setBerth b x).poolDry = s.poolDry := rfl
@[simp] theorem State.setBerth_suspense (b : Nat) (x : Berth) : (s.setBerth b x).suspense = s.suspense := rfl
@[simp] theorem State.setBerth_owner (b : Nat) (x : Berth) : (s.setBerth b x).owner = s.owner := rfl
@[simp] theorem State.setBerth_acl (b : Nat) (x : Berth) : (s.setBerth b x).acl = s.acl := rfl
@[simp] theorem State.setBerth_resBase (b : Nat) (x : Berth) : (s.setBerth b x).resBase = s.resBase := rfl
@[simp] theorem State.setBerth_resSize (b : Nat) (x : Berth) : (s.setBerth b x).resSize = s.resSize := rfl
@[simp] theorem State.setBerth_bar2 (b : Nat) (x : Berth) : (s.setBerth b x).bar2 = s.bar2 := rfl
@[simp] theorem State.setBerth_peers (b : Nat) (x : Berth) : (s.setBerth b x).peers = s.peers := rfl
@[simp] theorem State.setBerth_fused (b : Nat) (x : Berth) : (s.setBerth b x).fused = s.fused := rfl
@[simp] theorem State.setBerth_purseHeld (b : Nat) (x : Berth) : (s.setBerth b x).purseHeld = s.purseHeld := rfl
@[simp] theorem State.setBerth_cmdqs (b : Nat) (x : Berth) : (s.setBerth b x).cmdqs = s.cmdqs := rfl
@[simp] theorem State.setBerth_polled (b : Nat) (x : Berth) : (s.setBerth b x).polled = s.polled := rfl
@[simp] theorem State.setBerth_journal (b : Nat) (x : Berth) : (s.setBerth b x).journal = s.journal := rfl
@[simp] theorem State.setBerth_jseq (b : Nat) (x : Berth) : (s.setBerth b x).jseq = s.jseq := rfl
@[simp] theorem State.setBerth_lastCmd (b : Nat) (x : Berth) : (s.setBerth b x).lastCmd = s.lastCmd := rfl
@[simp] theorem State.setBerth_replies (b : Nat) (x : Berth) : (s.setBerth b x).replies = s.replies := rfl
@[simp] theorem State.setBerth_hostMode (b : Nat) (x : Berth) : (s.setBerth b x).hostMode = s.hostMode := rfl
@[simp] theorem State.setBerth_span (b : Nat) (x : Berth) : (s.setBerth b x).span = s.span := rfl
@[simp] theorem State.setBerth_refusedW (b : Nat) (x : Berth) : (s.setBerth b x).refusedW = s.refusedW := rfl
@[simp] theorem State.setBerth_points (b : Nat) (x : Berth) : (s.setBerth b x).points = s.points := rfl
@[simp] theorem State.setBerth_throttled (b : Nat) (x : Berth) : (s.setBerth b x).throttled = s.throttled := rfl
@[simp] theorem State.setBerth_capped (b : Nat) (x : Berth) : (s.setBerth b x).capped = s.capped := rfl
@[simp] theorem State.setBerth_powerCap (b : Nat) (x : Berth) : (s.setBerth b x).powerCap = s.powerCap := rfl
@[simp] theorem State.setBerth_power (b : Nat) (x : Berth) : (s.setBerth b x).power = s.power := rfl
@[simp] theorem State.setBerth_fwActive (b : Nat) (x : Berth) : (s.setBerth b x).fwActive = s.fwActive := rfl
@[simp] theorem State.setBerth_fwInactive (b : Nat) (x : Berth) : (s.setBerth b x).fwInactive = s.fwInactive := rfl
@[simp] theorem State.setBerth_fwPending (b : Nat) (x : Berth) : (s.setBerth b x).fwPending = s.fwPending := rfl
@[simp] theorem State.setBerth_fwVersion (b : Nat) (x : Berth) : (s.setBerth b x).fwVersion = s.fwVersion := rfl
@[simp] theorem State.setBerth_rollback (b : Nat) (x : Berth) : (s.setBerth b x).rollback = s.rollback := rfl
@[simp] theorem State.setBerth_perf (b : Nat) (x : Berth) : (s.setBerth b x).perf = s.perf := rfl
@[simp] theorem State.setBerth_perfSnap (b : Nat) (x : Berth) : (s.setBerth b x).perfSnap = s.perfSnap := rfl

/-! ### setCtx -/

@[simp] theorem State.setCtx_agenda (b : Nat) (c : Ctx) : (s.setCtx b c).agenda = s.agenda := rfl
@[simp] theorem State.setCtx_turn (b : Nat) (c : Ctx) : (s.setCtx b c).turn = s.turn := rfl
@[simp] theorem State.setCtx_cur (b : Nat) (c : Ctx) : (s.setCtx b c).cur = s.cur := rfl
@[simp] theorem State.setCtx_tape (b : Nat) (c : Ctx) : (s.setCtx b c).tape = s.tape := rfl
@[simp] theorem State.setCtx_nfree (b : Nat) (c : Ctx) : (s.setCtx b c).nfree = s.nfree := rfl
@[simp] theorem State.setCtx_nextTid (b : Nat) (c : Ctx) : (s.setCtx b c).nextTid = s.nextTid := rfl
@[simp] theorem State.setCtx_nextArr (b : Nat) (c : Ctx) : (s.setCtx b c).nextArr = s.nextArr := rfl
@[simp] theorem State.setCtx_linkBudget (b : Nat) (c : Ctx) : (s.setCtx b c).linkBudget = s.linkBudget := rfl
@[simp] theorem State.setCtx_clock (b : Nat) (c : Ctx) : (s.setCtx b c).clock = s.clock := rfl
@[simp] theorem State.setCtx_wallBase (b : Nat) (c : Ctx) : (s.setCtx b c).wallBase = s.wallBase := rfl
@[simp] theorem State.setCtx_dieLost (b : Nat) (c : Ctx) : (s.setCtx b c).dieLost = s.dieLost := rfl
@[simp] theorem State.setCtx_served (b : Nat) (c : Ctx) : (s.setCtx b c).served = s.served := rfl
@[simp] theorem State.setCtx_lastIssue (b : Nat) (c : Ctx) : (s.setCtx b c).lastIssue = s.lastIssue := rfl
@[simp] theorem State.setCtx_mem (b : Nat) (c : Ctx) : (s.setCtx b c).mem = s.mem := rfl
@[simp] theorem State.setCtx_empties (b : Nat) (c : Ctx) : (s.setCtx b c).empties = s.empties := rfl
@[simp] theorem State.setCtx_poison (b : Nat) (c : Ctx) : (s.setCtx b c).poison = s.poison := rfl
@[simp] theorem State.setCtx_stores (b : Nat) (c : Ctx) : (s.setCtx b c).stores = s.stores := rfl
@[simp] theorem State.setCtx_lines (b : Nat) (c : Ctx) : (s.setCtx b c).lines = s.lines := rfl
@[simp] theorem State.setCtx_copies (b : Nat) (c : Ctx) : (s.setCtx b c).copies = s.copies := rfl
@[simp] theorem State.setCtx_tlb (b : Nat) (c : Ctx) : (s.setCtx b c).tlb = s.tlb := rfl
@[simp] theorem State.setCtx_icache (b : Nat) (c : Ctx) : (s.setCtx b c).icache = s.icache := rfl
@[simp] theorem State.setCtx_waits (b : Nat) (c : Ctx) : (s.setCtx b c).waits = s.waits := rfl
@[simp] theorem State.setCtx_roles (b : Nat) (c : Ctx) : (s.setCtx b c).roles = s.roles := rfl
@[simp] theorem State.setCtx_roleChg (b : Nat) (c : Ctx) : (s.setCtx b c).roleChg = s.roleChg := rfl
@[simp] theorem State.setCtx_sliceMap (b : Nat) (c : Ctx) : (s.setCtx b c).sliceMap = s.sliceMap := rfl
@[simp] theorem State.setCtx_oldMap (b : Nat) (c : Ctx) : (s.setCtx b c).oldMap = s.oldMap := rfl
@[simp] theorem State.setCtx_mapGen (b : Nat) (c : Ctx) : (s.setCtx b c).mapGen = s.mapGen := rfl
@[simp] theorem State.setCtx_stalePorts (b : Nat) (c : Ctx) : (s.setCtx b c).stalePorts = s.stalePorts := rfl
@[simp] theorem State.setCtx_floors (b : Nat) (c : Ctx) : (s.setCtx b c).floors = s.floors := rfl
@[simp] theorem State.setCtx_deques (b : Nat) (c : Ctx) : (s.setCtx b c).deques = s.deques := rfl
@[simp] theorem State.setCtx_spills (b : Nat) (c : Ctx) : (s.setCtx b c).spills = s.spills := rfl
@[simp] theorem State.setCtx_rr (b : Nat) (c : Ctx) : (s.setCtx b c).rr = s.rr := rfl
@[simp] theorem State.setCtx_stealTurn (b : Nat) (c : Ctx) : (s.setCtx b c).stealTurn = s.stealTurn := rfl
@[simp] theorem State.setCtx_stealRuns (b : Nat) (c : Ctx) : (s.setCtx b c).stealRuns = s.stealRuns := rfl
@[simp] theorem State.setCtx_arrivals (b : Nat) (c : Ctx) : (s.setCtx b c).arrivals = s.arrivals := rfl
@[simp] theorem State.setCtx_arrSpill (b : Nat) (c : Ctx) : (s.setCtx b c).arrSpill = s.arrSpill := rfl
@[simp] theorem State.setCtx_parkedRec (b : Nat) (c : Ctx) : (s.setCtx b c).parkedRec = s.parkedRec := rfl
@[simp] theorem State.setCtx_residents (b : Nat) (c : Ctx) : (s.setCtx b c).residents = s.residents := rfl
@[simp] theorem State.setCtx_evicted (b : Nat) (c : Ctx) : (s.setCtx b c).evicted = s.evicted := rfl
@[simp] theorem State.setCtx_bubbles (b : Nat) (c : Ctx) : (s.setCtx b c).bubbles = s.bubbles := rfl
@[simp] theorem State.setCtx_chans (b : Nat) (c : Ctx) : (s.setCtx b c).chans = s.chans := rfl
@[simp] theorem State.setCtx_counters (b : Nat) (c : Ctx) : (s.setCtx b c).counters = s.counters := rfl
@[simp] theorem State.setCtx_nextCmd (b : Nat) (c : Ctx) : (s.setCtx b c).nextCmd = s.nextCmd := rfl
@[simp] theorem State.setCtx_bars (b : Nat) (c : Ctx) : (s.setCtx b c).bars = s.bars := rfl
@[simp] theorem State.setCtx_mgangs (b : Nat) (c : Ctx) : (s.setCtx b c).mgangs = s.mgangs := rfl
@[simp] theorem State.setCtx_vgangs (b : Nat) (c : Ctx) : (s.setCtx b c).vgangs = s.vgangs := rfl
@[simp] theorem State.setCtx_assays (b : Nat) (c : Ctx) : (s.setCtx b c).assays = s.assays := rfl
@[simp] theorem State.setCtx_nets (b : Nat) (c : Ctx) : (s.setCtx b c).nets = s.nets := rfl
@[simp] theorem State.setCtx_netqs (b : Nat) (c : Ctx) : (s.setCtx b c).netqs = s.netqs := rfl
@[simp] theorem State.setCtx_mints (b : Nat) (c : Ctx) : (s.setCtx b c).mints = s.mints := rfl
@[simp] theorem State.setCtx_launches (b : Nat) (c : Ctx) : (s.setCtx b c).launches = s.launches := rfl
@[simp] theorem State.setCtx_msgs (b : Nat) (c : Ctx) : (s.setCtx b c).msgs = s.msgs := rfl
@[simp] theorem State.setCtx_poolDry (b : Nat) (c : Ctx) : (s.setCtx b c).poolDry = s.poolDry := rfl
@[simp] theorem State.setCtx_suspense (b : Nat) (c : Ctx) : (s.setCtx b c).suspense = s.suspense := rfl
@[simp] theorem State.setCtx_owner (b : Nat) (c : Ctx) : (s.setCtx b c).owner = s.owner := rfl
@[simp] theorem State.setCtx_acl (b : Nat) (c : Ctx) : (s.setCtx b c).acl = s.acl := rfl
@[simp] theorem State.setCtx_resBase (b : Nat) (c : Ctx) : (s.setCtx b c).resBase = s.resBase := rfl
@[simp] theorem State.setCtx_resSize (b : Nat) (c : Ctx) : (s.setCtx b c).resSize = s.resSize := rfl
@[simp] theorem State.setCtx_bar2 (b : Nat) (c : Ctx) : (s.setCtx b c).bar2 = s.bar2 := rfl
@[simp] theorem State.setCtx_peers (b : Nat) (c : Ctx) : (s.setCtx b c).peers = s.peers := rfl
@[simp] theorem State.setCtx_fused (b : Nat) (c : Ctx) : (s.setCtx b c).fused = s.fused := rfl
@[simp] theorem State.setCtx_purseHeld (b : Nat) (c : Ctx) : (s.setCtx b c).purseHeld = s.purseHeld := rfl
@[simp] theorem State.setCtx_cmdqs (b : Nat) (c : Ctx) : (s.setCtx b c).cmdqs = s.cmdqs := rfl
@[simp] theorem State.setCtx_polled (b : Nat) (c : Ctx) : (s.setCtx b c).polled = s.polled := rfl
@[simp] theorem State.setCtx_journal (b : Nat) (c : Ctx) : (s.setCtx b c).journal = s.journal := rfl
@[simp] theorem State.setCtx_jseq (b : Nat) (c : Ctx) : (s.setCtx b c).jseq = s.jseq := rfl
@[simp] theorem State.setCtx_lastCmd (b : Nat) (c : Ctx) : (s.setCtx b c).lastCmd = s.lastCmd := rfl
@[simp] theorem State.setCtx_replies (b : Nat) (c : Ctx) : (s.setCtx b c).replies = s.replies := rfl
@[simp] theorem State.setCtx_hostMode (b : Nat) (c : Ctx) : (s.setCtx b c).hostMode = s.hostMode := rfl
@[simp] theorem State.setCtx_span (b : Nat) (c : Ctx) : (s.setCtx b c).span = s.span := rfl
@[simp] theorem State.setCtx_refusedW (b : Nat) (c : Ctx) : (s.setCtx b c).refusedW = s.refusedW := rfl
@[simp] theorem State.setCtx_points (b : Nat) (c : Ctx) : (s.setCtx b c).points = s.points := rfl
@[simp] theorem State.setCtx_throttled (b : Nat) (c : Ctx) : (s.setCtx b c).throttled = s.throttled := rfl
@[simp] theorem State.setCtx_capped (b : Nat) (c : Ctx) : (s.setCtx b c).capped = s.capped := rfl
@[simp] theorem State.setCtx_powerCap (b : Nat) (c : Ctx) : (s.setCtx b c).powerCap = s.powerCap := rfl
@[simp] theorem State.setCtx_power (b : Nat) (c : Ctx) : (s.setCtx b c).power = s.power := rfl
@[simp] theorem State.setCtx_fwActive (b : Nat) (c : Ctx) : (s.setCtx b c).fwActive = s.fwActive := rfl
@[simp] theorem State.setCtx_fwInactive (b : Nat) (c : Ctx) : (s.setCtx b c).fwInactive = s.fwInactive := rfl
@[simp] theorem State.setCtx_fwPending (b : Nat) (c : Ctx) : (s.setCtx b c).fwPending = s.fwPending := rfl
@[simp] theorem State.setCtx_fwVersion (b : Nat) (c : Ctx) : (s.setCtx b c).fwVersion = s.fwVersion := rfl
@[simp] theorem State.setCtx_rollback (b : Nat) (c : Ctx) : (s.setCtx b c).rollback = s.rollback := rfl
@[simp] theorem State.setCtx_perf (b : Nat) (c : Ctx) : (s.setCtx b c).perf = s.perf := rfl
@[simp] theorem State.setCtx_perfSnap (b : Nat) (c : Ctx) : (s.setCtx b c).perfSnap = s.perfSnap := rfl

/-! ### setTh -/

@[simp] theorem State.setTh_agenda (c : Ctx) : (s.setTh c).agenda = s.agenda := rfl
@[simp] theorem State.setTh_turn (c : Ctx) : (s.setTh c).turn = s.turn := rfl
@[simp] theorem State.setTh_cur (c : Ctx) : (s.setTh c).cur = s.cur := rfl
@[simp] theorem State.setTh_tape (c : Ctx) : (s.setTh c).tape = s.tape := rfl
@[simp] theorem State.setTh_nfree (c : Ctx) : (s.setTh c).nfree = s.nfree := rfl
@[simp] theorem State.setTh_nextTid (c : Ctx) : (s.setTh c).nextTid = s.nextTid := rfl
@[simp] theorem State.setTh_nextArr (c : Ctx) : (s.setTh c).nextArr = s.nextArr := rfl
@[simp] theorem State.setTh_linkBudget (c : Ctx) : (s.setTh c).linkBudget = s.linkBudget := rfl
@[simp] theorem State.setTh_clock (c : Ctx) : (s.setTh c).clock = s.clock := rfl
@[simp] theorem State.setTh_wallBase (c : Ctx) : (s.setTh c).wallBase = s.wallBase := rfl
@[simp] theorem State.setTh_dieLost (c : Ctx) : (s.setTh c).dieLost = s.dieLost := rfl
@[simp] theorem State.setTh_served (c : Ctx) : (s.setTh c).served = s.served := rfl
@[simp] theorem State.setTh_lastIssue (c : Ctx) : (s.setTh c).lastIssue = s.lastIssue := rfl
@[simp] theorem State.setTh_mem (c : Ctx) : (s.setTh c).mem = s.mem := rfl
@[simp] theorem State.setTh_empties (c : Ctx) : (s.setTh c).empties = s.empties := rfl
@[simp] theorem State.setTh_poison (c : Ctx) : (s.setTh c).poison = s.poison := rfl
@[simp] theorem State.setTh_stores (c : Ctx) : (s.setTh c).stores = s.stores := rfl
@[simp] theorem State.setTh_lines (c : Ctx) : (s.setTh c).lines = s.lines := rfl
@[simp] theorem State.setTh_copies (c : Ctx) : (s.setTh c).copies = s.copies := rfl
@[simp] theorem State.setTh_tlb (c : Ctx) : (s.setTh c).tlb = s.tlb := rfl
@[simp] theorem State.setTh_icache (c : Ctx) : (s.setTh c).icache = s.icache := rfl
@[simp] theorem State.setTh_waits (c : Ctx) : (s.setTh c).waits = s.waits := rfl
@[simp] theorem State.setTh_roles (c : Ctx) : (s.setTh c).roles = s.roles := rfl
@[simp] theorem State.setTh_roleChg (c : Ctx) : (s.setTh c).roleChg = s.roleChg := rfl
@[simp] theorem State.setTh_sliceMap (c : Ctx) : (s.setTh c).sliceMap = s.sliceMap := rfl
@[simp] theorem State.setTh_oldMap (c : Ctx) : (s.setTh c).oldMap = s.oldMap := rfl
@[simp] theorem State.setTh_mapGen (c : Ctx) : (s.setTh c).mapGen = s.mapGen := rfl
@[simp] theorem State.setTh_stalePorts (c : Ctx) : (s.setTh c).stalePorts = s.stalePorts := rfl
@[simp] theorem State.setTh_floors (c : Ctx) : (s.setTh c).floors = s.floors := rfl
@[simp] theorem State.setTh_deques (c : Ctx) : (s.setTh c).deques = s.deques := rfl
@[simp] theorem State.setTh_spills (c : Ctx) : (s.setTh c).spills = s.spills := rfl
@[simp] theorem State.setTh_rr (c : Ctx) : (s.setTh c).rr = s.rr := rfl
@[simp] theorem State.setTh_stealTurn (c : Ctx) : (s.setTh c).stealTurn = s.stealTurn := rfl
@[simp] theorem State.setTh_stealRuns (c : Ctx) : (s.setTh c).stealRuns = s.stealRuns := rfl
@[simp] theorem State.setTh_arrivals (c : Ctx) : (s.setTh c).arrivals = s.arrivals := rfl
@[simp] theorem State.setTh_arrSpill (c : Ctx) : (s.setTh c).arrSpill = s.arrSpill := rfl
@[simp] theorem State.setTh_parkedRec (c : Ctx) : (s.setTh c).parkedRec = s.parkedRec := rfl
@[simp] theorem State.setTh_residents (c : Ctx) : (s.setTh c).residents = s.residents := rfl
@[simp] theorem State.setTh_evicted (c : Ctx) : (s.setTh c).evicted = s.evicted := rfl
@[simp] theorem State.setTh_bubbles (c : Ctx) : (s.setTh c).bubbles = s.bubbles := rfl
@[simp] theorem State.setTh_chans (c : Ctx) : (s.setTh c).chans = s.chans := rfl
@[simp] theorem State.setTh_counters (c : Ctx) : (s.setTh c).counters = s.counters := rfl
@[simp] theorem State.setTh_nextCmd (c : Ctx) : (s.setTh c).nextCmd = s.nextCmd := rfl
@[simp] theorem State.setTh_bars (c : Ctx) : (s.setTh c).bars = s.bars := rfl
@[simp] theorem State.setTh_mgangs (c : Ctx) : (s.setTh c).mgangs = s.mgangs := rfl
@[simp] theorem State.setTh_vgangs (c : Ctx) : (s.setTh c).vgangs = s.vgangs := rfl
@[simp] theorem State.setTh_assays (c : Ctx) : (s.setTh c).assays = s.assays := rfl
@[simp] theorem State.setTh_nets (c : Ctx) : (s.setTh c).nets = s.nets := rfl
@[simp] theorem State.setTh_netqs (c : Ctx) : (s.setTh c).netqs = s.netqs := rfl
@[simp] theorem State.setTh_mints (c : Ctx) : (s.setTh c).mints = s.mints := rfl
@[simp] theorem State.setTh_launches (c : Ctx) : (s.setTh c).launches = s.launches := rfl
@[simp] theorem State.setTh_msgs (c : Ctx) : (s.setTh c).msgs = s.msgs := rfl
@[simp] theorem State.setTh_poolDry (c : Ctx) : (s.setTh c).poolDry = s.poolDry := rfl
@[simp] theorem State.setTh_suspense (c : Ctx) : (s.setTh c).suspense = s.suspense := rfl
@[simp] theorem State.setTh_owner (c : Ctx) : (s.setTh c).owner = s.owner := rfl
@[simp] theorem State.setTh_acl (c : Ctx) : (s.setTh c).acl = s.acl := rfl
@[simp] theorem State.setTh_resBase (c : Ctx) : (s.setTh c).resBase = s.resBase := rfl
@[simp] theorem State.setTh_resSize (c : Ctx) : (s.setTh c).resSize = s.resSize := rfl
@[simp] theorem State.setTh_bar2 (c : Ctx) : (s.setTh c).bar2 = s.bar2 := rfl
@[simp] theorem State.setTh_peers (c : Ctx) : (s.setTh c).peers = s.peers := rfl
@[simp] theorem State.setTh_fused (c : Ctx) : (s.setTh c).fused = s.fused := rfl
@[simp] theorem State.setTh_purseHeld (c : Ctx) : (s.setTh c).purseHeld = s.purseHeld := rfl
@[simp] theorem State.setTh_cmdqs (c : Ctx) : (s.setTh c).cmdqs = s.cmdqs := rfl
@[simp] theorem State.setTh_polled (c : Ctx) : (s.setTh c).polled = s.polled := rfl
@[simp] theorem State.setTh_journal (c : Ctx) : (s.setTh c).journal = s.journal := rfl
@[simp] theorem State.setTh_jseq (c : Ctx) : (s.setTh c).jseq = s.jseq := rfl
@[simp] theorem State.setTh_lastCmd (c : Ctx) : (s.setTh c).lastCmd = s.lastCmd := rfl
@[simp] theorem State.setTh_replies (c : Ctx) : (s.setTh c).replies = s.replies := rfl
@[simp] theorem State.setTh_hostMode (c : Ctx) : (s.setTh c).hostMode = s.hostMode := rfl
@[simp] theorem State.setTh_span (c : Ctx) : (s.setTh c).span = s.span := rfl
@[simp] theorem State.setTh_refusedW (c : Ctx) : (s.setTh c).refusedW = s.refusedW := rfl
@[simp] theorem State.setTh_points (c : Ctx) : (s.setTh c).points = s.points := rfl
@[simp] theorem State.setTh_throttled (c : Ctx) : (s.setTh c).throttled = s.throttled := rfl
@[simp] theorem State.setTh_capped (c : Ctx) : (s.setTh c).capped = s.capped := rfl
@[simp] theorem State.setTh_powerCap (c : Ctx) : (s.setTh c).powerCap = s.powerCap := rfl
@[simp] theorem State.setTh_power (c : Ctx) : (s.setTh c).power = s.power := rfl
@[simp] theorem State.setTh_fwActive (c : Ctx) : (s.setTh c).fwActive = s.fwActive := rfl
@[simp] theorem State.setTh_fwInactive (c : Ctx) : (s.setTh c).fwInactive = s.fwInactive := rfl
@[simp] theorem State.setTh_fwPending (c : Ctx) : (s.setTh c).fwPending = s.fwPending := rfl
@[simp] theorem State.setTh_fwVersion (c : Ctx) : (s.setTh c).fwVersion = s.fwVersion := rfl
@[simp] theorem State.setTh_rollback (c : Ctx) : (s.setTh c).rollback = s.rollback := rfl
@[simp] theorem State.setTh_perf (c : Ctx) : (s.setTh c).perf = s.perf := rfl
@[simp] theorem State.setTh_perfSnap (c : Ctx) : (s.setTh c).perfSnap = s.perfSnap := rfl

/-! ### xw -/

@[simp] theorem State.xw_agenda (d : Reg) (v : Word) : (s.xw d v).agenda = s.agenda := rfl
@[simp] theorem State.xw_turn (d : Reg) (v : Word) : (s.xw d v).turn = s.turn := rfl
@[simp] theorem State.xw_cur (d : Reg) (v : Word) : (s.xw d v).cur = s.cur := rfl
@[simp] theorem State.xw_tape (d : Reg) (v : Word) : (s.xw d v).tape = s.tape := rfl
@[simp] theorem State.xw_nfree (d : Reg) (v : Word) : (s.xw d v).nfree = s.nfree := rfl
@[simp] theorem State.xw_nextTid (d : Reg) (v : Word) : (s.xw d v).nextTid = s.nextTid := rfl
@[simp] theorem State.xw_nextArr (d : Reg) (v : Word) : (s.xw d v).nextArr = s.nextArr := rfl
@[simp] theorem State.xw_linkBudget (d : Reg) (v : Word) : (s.xw d v).linkBudget = s.linkBudget := rfl
@[simp] theorem State.xw_clock (d : Reg) (v : Word) : (s.xw d v).clock = s.clock := rfl
@[simp] theorem State.xw_wallBase (d : Reg) (v : Word) : (s.xw d v).wallBase = s.wallBase := rfl
@[simp] theorem State.xw_dieLost (d : Reg) (v : Word) : (s.xw d v).dieLost = s.dieLost := rfl
@[simp] theorem State.xw_served (d : Reg) (v : Word) : (s.xw d v).served = s.served := rfl
@[simp] theorem State.xw_lastIssue (d : Reg) (v : Word) : (s.xw d v).lastIssue = s.lastIssue := rfl
@[simp] theorem State.xw_mem (d : Reg) (v : Word) : (s.xw d v).mem = s.mem := rfl
@[simp] theorem State.xw_empties (d : Reg) (v : Word) : (s.xw d v).empties = s.empties := rfl
@[simp] theorem State.xw_poison (d : Reg) (v : Word) : (s.xw d v).poison = s.poison := rfl
@[simp] theorem State.xw_stores (d : Reg) (v : Word) : (s.xw d v).stores = s.stores := rfl
@[simp] theorem State.xw_lines (d : Reg) (v : Word) : (s.xw d v).lines = s.lines := rfl
@[simp] theorem State.xw_copies (d : Reg) (v : Word) : (s.xw d v).copies = s.copies := rfl
@[simp] theorem State.xw_tlb (d : Reg) (v : Word) : (s.xw d v).tlb = s.tlb := rfl
@[simp] theorem State.xw_icache (d : Reg) (v : Word) : (s.xw d v).icache = s.icache := rfl
@[simp] theorem State.xw_waits (d : Reg) (v : Word) : (s.xw d v).waits = s.waits := rfl
@[simp] theorem State.xw_roles (d : Reg) (v : Word) : (s.xw d v).roles = s.roles := rfl
@[simp] theorem State.xw_roleChg (d : Reg) (v : Word) : (s.xw d v).roleChg = s.roleChg := rfl
@[simp] theorem State.xw_sliceMap (d : Reg) (v : Word) : (s.xw d v).sliceMap = s.sliceMap := rfl
@[simp] theorem State.xw_oldMap (d : Reg) (v : Word) : (s.xw d v).oldMap = s.oldMap := rfl
@[simp] theorem State.xw_mapGen (d : Reg) (v : Word) : (s.xw d v).mapGen = s.mapGen := rfl
@[simp] theorem State.xw_stalePorts (d : Reg) (v : Word) : (s.xw d v).stalePorts = s.stalePorts := rfl
@[simp] theorem State.xw_floors (d : Reg) (v : Word) : (s.xw d v).floors = s.floors := rfl
@[simp] theorem State.xw_deques (d : Reg) (v : Word) : (s.xw d v).deques = s.deques := rfl
@[simp] theorem State.xw_spills (d : Reg) (v : Word) : (s.xw d v).spills = s.spills := rfl
@[simp] theorem State.xw_rr (d : Reg) (v : Word) : (s.xw d v).rr = s.rr := rfl
@[simp] theorem State.xw_stealTurn (d : Reg) (v : Word) : (s.xw d v).stealTurn = s.stealTurn := rfl
@[simp] theorem State.xw_stealRuns (d : Reg) (v : Word) : (s.xw d v).stealRuns = s.stealRuns := rfl
@[simp] theorem State.xw_arrivals (d : Reg) (v : Word) : (s.xw d v).arrivals = s.arrivals := rfl
@[simp] theorem State.xw_arrSpill (d : Reg) (v : Word) : (s.xw d v).arrSpill = s.arrSpill := rfl
@[simp] theorem State.xw_parkedRec (d : Reg) (v : Word) : (s.xw d v).parkedRec = s.parkedRec := rfl
@[simp] theorem State.xw_residents (d : Reg) (v : Word) : (s.xw d v).residents = s.residents := rfl
@[simp] theorem State.xw_evicted (d : Reg) (v : Word) : (s.xw d v).evicted = s.evicted := rfl
@[simp] theorem State.xw_bubbles (d : Reg) (v : Word) : (s.xw d v).bubbles = s.bubbles := rfl
@[simp] theorem State.xw_chans (d : Reg) (v : Word) : (s.xw d v).chans = s.chans := rfl
@[simp] theorem State.xw_counters (d : Reg) (v : Word) : (s.xw d v).counters = s.counters := rfl
@[simp] theorem State.xw_nextCmd (d : Reg) (v : Word) : (s.xw d v).nextCmd = s.nextCmd := rfl
@[simp] theorem State.xw_bars (d : Reg) (v : Word) : (s.xw d v).bars = s.bars := rfl
@[simp] theorem State.xw_mgangs (d : Reg) (v : Word) : (s.xw d v).mgangs = s.mgangs := rfl
@[simp] theorem State.xw_vgangs (d : Reg) (v : Word) : (s.xw d v).vgangs = s.vgangs := rfl
@[simp] theorem State.xw_assays (d : Reg) (v : Word) : (s.xw d v).assays = s.assays := rfl
@[simp] theorem State.xw_nets (d : Reg) (v : Word) : (s.xw d v).nets = s.nets := rfl
@[simp] theorem State.xw_netqs (d : Reg) (v : Word) : (s.xw d v).netqs = s.netqs := rfl
@[simp] theorem State.xw_mints (d : Reg) (v : Word) : (s.xw d v).mints = s.mints := rfl
@[simp] theorem State.xw_launches (d : Reg) (v : Word) : (s.xw d v).launches = s.launches := rfl
@[simp] theorem State.xw_msgs (d : Reg) (v : Word) : (s.xw d v).msgs = s.msgs := rfl
@[simp] theorem State.xw_poolDry (d : Reg) (v : Word) : (s.xw d v).poolDry = s.poolDry := rfl
@[simp] theorem State.xw_suspense (d : Reg) (v : Word) : (s.xw d v).suspense = s.suspense := rfl
@[simp] theorem State.xw_owner (d : Reg) (v : Word) : (s.xw d v).owner = s.owner := rfl
@[simp] theorem State.xw_acl (d : Reg) (v : Word) : (s.xw d v).acl = s.acl := rfl
@[simp] theorem State.xw_resBase (d : Reg) (v : Word) : (s.xw d v).resBase = s.resBase := rfl
@[simp] theorem State.xw_resSize (d : Reg) (v : Word) : (s.xw d v).resSize = s.resSize := rfl
@[simp] theorem State.xw_bar2 (d : Reg) (v : Word) : (s.xw d v).bar2 = s.bar2 := rfl
@[simp] theorem State.xw_peers (d : Reg) (v : Word) : (s.xw d v).peers = s.peers := rfl
@[simp] theorem State.xw_fused (d : Reg) (v : Word) : (s.xw d v).fused = s.fused := rfl
@[simp] theorem State.xw_purseHeld (d : Reg) (v : Word) : (s.xw d v).purseHeld = s.purseHeld := rfl
@[simp] theorem State.xw_cmdqs (d : Reg) (v : Word) : (s.xw d v).cmdqs = s.cmdqs := rfl
@[simp] theorem State.xw_polled (d : Reg) (v : Word) : (s.xw d v).polled = s.polled := rfl
@[simp] theorem State.xw_journal (d : Reg) (v : Word) : (s.xw d v).journal = s.journal := rfl
@[simp] theorem State.xw_jseq (d : Reg) (v : Word) : (s.xw d v).jseq = s.jseq := rfl
@[simp] theorem State.xw_lastCmd (d : Reg) (v : Word) : (s.xw d v).lastCmd = s.lastCmd := rfl
@[simp] theorem State.xw_replies (d : Reg) (v : Word) : (s.xw d v).replies = s.replies := rfl
@[simp] theorem State.xw_hostMode (d : Reg) (v : Word) : (s.xw d v).hostMode = s.hostMode := rfl
@[simp] theorem State.xw_span (d : Reg) (v : Word) : (s.xw d v).span = s.span := rfl
@[simp] theorem State.xw_refusedW (d : Reg) (v : Word) : (s.xw d v).refusedW = s.refusedW := rfl
@[simp] theorem State.xw_points (d : Reg) (v : Word) : (s.xw d v).points = s.points := rfl
@[simp] theorem State.xw_throttled (d : Reg) (v : Word) : (s.xw d v).throttled = s.throttled := rfl
@[simp] theorem State.xw_capped (d : Reg) (v : Word) : (s.xw d v).capped = s.capped := rfl
@[simp] theorem State.xw_powerCap (d : Reg) (v : Word) : (s.xw d v).powerCap = s.powerCap := rfl
@[simp] theorem State.xw_power (d : Reg) (v : Word) : (s.xw d v).power = s.power := rfl
@[simp] theorem State.xw_fwActive (d : Reg) (v : Word) : (s.xw d v).fwActive = s.fwActive := rfl
@[simp] theorem State.xw_fwInactive (d : Reg) (v : Word) : (s.xw d v).fwInactive = s.fwInactive := rfl
@[simp] theorem State.xw_fwPending (d : Reg) (v : Word) : (s.xw d v).fwPending = s.fwPending := rfl
@[simp] theorem State.xw_fwVersion (d : Reg) (v : Word) : (s.xw d v).fwVersion = s.fwVersion := rfl
@[simp] theorem State.xw_rollback (d : Reg) (v : Word) : (s.xw d v).rollback = s.rollback := rfl
@[simp] theorem State.xw_perf (d : Reg) (v : Word) : (s.xw d v).perf = s.perf := rfl
@[simp] theorem State.xw_perfSnap (d : Reg) (v : Word) : (s.xw d v).perfSnap = s.perfSnap := rfl

/-! ### pass -/

@[simp] theorem State.pass_agenda (n : Nat) : (s.pass n).agenda = s.agenda := rfl
@[simp] theorem State.pass_turn (n : Nat) : (s.pass n).turn = s.turn := rfl
@[simp] theorem State.pass_cur (n : Nat) : (s.pass n).cur = s.cur := rfl
@[simp] theorem State.pass_tape (n : Nat) : (s.pass n).tape = s.tape := rfl
@[simp] theorem State.pass_nfree (n : Nat) : (s.pass n).nfree = s.nfree := rfl
@[simp] theorem State.pass_nextTid (n : Nat) : (s.pass n).nextTid = s.nextTid := rfl
@[simp] theorem State.pass_nextArr (n : Nat) : (s.pass n).nextArr = s.nextArr := rfl
@[simp] theorem State.pass_linkBudget (n : Nat) : (s.pass n).linkBudget = s.linkBudget := rfl
@[simp] theorem State.pass_clock (n : Nat) : (s.pass n).clock = s.clock := rfl
@[simp] theorem State.pass_wallBase (n : Nat) : (s.pass n).wallBase = s.wallBase := rfl
@[simp] theorem State.pass_dieLost (n : Nat) : (s.pass n).dieLost = s.dieLost := rfl
@[simp] theorem State.pass_served (n : Nat) : (s.pass n).served = s.served := rfl
@[simp] theorem State.pass_lastIssue (n : Nat) : (s.pass n).lastIssue = s.lastIssue := rfl
@[simp] theorem State.pass_mem (n : Nat) : (s.pass n).mem = s.mem := rfl
@[simp] theorem State.pass_empties (n : Nat) : (s.pass n).empties = s.empties := rfl
@[simp] theorem State.pass_poison (n : Nat) : (s.pass n).poison = s.poison := rfl
@[simp] theorem State.pass_stores (n : Nat) : (s.pass n).stores = s.stores := rfl
@[simp] theorem State.pass_lines (n : Nat) : (s.pass n).lines = s.lines := rfl
@[simp] theorem State.pass_copies (n : Nat) : (s.pass n).copies = s.copies := rfl
@[simp] theorem State.pass_tlb (n : Nat) : (s.pass n).tlb = s.tlb := rfl
@[simp] theorem State.pass_icache (n : Nat) : (s.pass n).icache = s.icache := rfl
@[simp] theorem State.pass_waits (n : Nat) : (s.pass n).waits = s.waits := rfl
@[simp] theorem State.pass_roles (n : Nat) : (s.pass n).roles = s.roles := rfl
@[simp] theorem State.pass_roleChg (n : Nat) : (s.pass n).roleChg = s.roleChg := rfl
@[simp] theorem State.pass_sliceMap (n : Nat) : (s.pass n).sliceMap = s.sliceMap := rfl
@[simp] theorem State.pass_oldMap (n : Nat) : (s.pass n).oldMap = s.oldMap := rfl
@[simp] theorem State.pass_mapGen (n : Nat) : (s.pass n).mapGen = s.mapGen := rfl
@[simp] theorem State.pass_stalePorts (n : Nat) : (s.pass n).stalePorts = s.stalePorts := rfl
@[simp] theorem State.pass_floors (n : Nat) : (s.pass n).floors = s.floors := rfl
@[simp] theorem State.pass_deques (n : Nat) : (s.pass n).deques = s.deques := rfl
@[simp] theorem State.pass_spills (n : Nat) : (s.pass n).spills = s.spills := rfl
@[simp] theorem State.pass_rr (n : Nat) : (s.pass n).rr = s.rr := rfl
@[simp] theorem State.pass_stealTurn (n : Nat) : (s.pass n).stealTurn = s.stealTurn := rfl
@[simp] theorem State.pass_stealRuns (n : Nat) : (s.pass n).stealRuns = s.stealRuns := rfl
@[simp] theorem State.pass_arrivals (n : Nat) : (s.pass n).arrivals = s.arrivals := rfl
@[simp] theorem State.pass_arrSpill (n : Nat) : (s.pass n).arrSpill = s.arrSpill := rfl
@[simp] theorem State.pass_parkedRec (n : Nat) : (s.pass n).parkedRec = s.parkedRec := rfl
@[simp] theorem State.pass_residents (n : Nat) : (s.pass n).residents = s.residents := rfl
@[simp] theorem State.pass_evicted (n : Nat) : (s.pass n).evicted = s.evicted := rfl
@[simp] theorem State.pass_bubbles (n : Nat) : (s.pass n).bubbles = s.bubbles := rfl
@[simp] theorem State.pass_chans (n : Nat) : (s.pass n).chans = s.chans := rfl
@[simp] theorem State.pass_counters (n : Nat) : (s.pass n).counters = s.counters := rfl
@[simp] theorem State.pass_nextCmd (n : Nat) : (s.pass n).nextCmd = s.nextCmd := rfl
@[simp] theorem State.pass_bars (n : Nat) : (s.pass n).bars = s.bars := rfl
@[simp] theorem State.pass_mgangs (n : Nat) : (s.pass n).mgangs = s.mgangs := rfl
@[simp] theorem State.pass_vgangs (n : Nat) : (s.pass n).vgangs = s.vgangs := rfl
@[simp] theorem State.pass_assays (n : Nat) : (s.pass n).assays = s.assays := rfl
@[simp] theorem State.pass_nets (n : Nat) : (s.pass n).nets = s.nets := rfl
@[simp] theorem State.pass_netqs (n : Nat) : (s.pass n).netqs = s.netqs := rfl
@[simp] theorem State.pass_mints (n : Nat) : (s.pass n).mints = s.mints := rfl
@[simp] theorem State.pass_launches (n : Nat) : (s.pass n).launches = s.launches := rfl
@[simp] theorem State.pass_msgs (n : Nat) : (s.pass n).msgs = s.msgs := rfl
@[simp] theorem State.pass_poolDry (n : Nat) : (s.pass n).poolDry = s.poolDry := rfl
@[simp] theorem State.pass_suspense (n : Nat) : (s.pass n).suspense = s.suspense := rfl
@[simp] theorem State.pass_owner (n : Nat) : (s.pass n).owner = s.owner := rfl
@[simp] theorem State.pass_acl (n : Nat) : (s.pass n).acl = s.acl := rfl
@[simp] theorem State.pass_resBase (n : Nat) : (s.pass n).resBase = s.resBase := rfl
@[simp] theorem State.pass_resSize (n : Nat) : (s.pass n).resSize = s.resSize := rfl
@[simp] theorem State.pass_bar2 (n : Nat) : (s.pass n).bar2 = s.bar2 := rfl
@[simp] theorem State.pass_peers (n : Nat) : (s.pass n).peers = s.peers := rfl
@[simp] theorem State.pass_fused (n : Nat) : (s.pass n).fused = s.fused := rfl
@[simp] theorem State.pass_purseHeld (n : Nat) : (s.pass n).purseHeld = s.purseHeld := rfl
@[simp] theorem State.pass_cmdqs (n : Nat) : (s.pass n).cmdqs = s.cmdqs := rfl
@[simp] theorem State.pass_polled (n : Nat) : (s.pass n).polled = s.polled := rfl
@[simp] theorem State.pass_journal (n : Nat) : (s.pass n).journal = s.journal := rfl
@[simp] theorem State.pass_jseq (n : Nat) : (s.pass n).jseq = s.jseq := rfl
@[simp] theorem State.pass_lastCmd (n : Nat) : (s.pass n).lastCmd = s.lastCmd := rfl
@[simp] theorem State.pass_replies (n : Nat) : (s.pass n).replies = s.replies := rfl
@[simp] theorem State.pass_hostMode (n : Nat) : (s.pass n).hostMode = s.hostMode := rfl
@[simp] theorem State.pass_span (n : Nat) : (s.pass n).span = s.span := rfl
@[simp] theorem State.pass_refusedW (n : Nat) : (s.pass n).refusedW = s.refusedW := rfl
@[simp] theorem State.pass_points (n : Nat) : (s.pass n).points = s.points := rfl
@[simp] theorem State.pass_throttled (n : Nat) : (s.pass n).throttled = s.throttled := rfl
@[simp] theorem State.pass_capped (n : Nat) : (s.pass n).capped = s.capped := rfl
@[simp] theorem State.pass_powerCap (n : Nat) : (s.pass n).powerCap = s.powerCap := rfl
@[simp] theorem State.pass_power (n : Nat) : (s.pass n).power = s.power := rfl
@[simp] theorem State.pass_fwActive (n : Nat) : (s.pass n).fwActive = s.fwActive := rfl
@[simp] theorem State.pass_fwInactive (n : Nat) : (s.pass n).fwInactive = s.fwInactive := rfl
@[simp] theorem State.pass_fwPending (n : Nat) : (s.pass n).fwPending = s.fwPending := rfl
@[simp] theorem State.pass_fwVersion (n : Nat) : (s.pass n).fwVersion = s.fwVersion := rfl
@[simp] theorem State.pass_rollback (n : Nat) : (s.pass n).rollback = s.rollback := rfl
@[simp] theorem State.pass_perf (n : Nat) : (s.pass n).perf = s.perf := rfl
@[simp] theorem State.pass_perfSnap (n : Nat) : (s.pass n).perfSnap = s.perfSnap := rfl

/-! ### vw -/

@[simp] theorem State.vw_agenda (d : VIdx) (x : VReg) : (s.vw d x).agenda = s.agenda := rfl
@[simp] theorem State.vw_turn (d : VIdx) (x : VReg) : (s.vw d x).turn = s.turn := rfl
@[simp] theorem State.vw_cur (d : VIdx) (x : VReg) : (s.vw d x).cur = s.cur := rfl
@[simp] theorem State.vw_tape (d : VIdx) (x : VReg) : (s.vw d x).tape = s.tape := rfl
@[simp] theorem State.vw_nfree (d : VIdx) (x : VReg) : (s.vw d x).nfree = s.nfree := rfl
@[simp] theorem State.vw_nextTid (d : VIdx) (x : VReg) : (s.vw d x).nextTid = s.nextTid := rfl
@[simp] theorem State.vw_nextArr (d : VIdx) (x : VReg) : (s.vw d x).nextArr = s.nextArr := rfl
@[simp] theorem State.vw_linkBudget (d : VIdx) (x : VReg) : (s.vw d x).linkBudget = s.linkBudget := rfl
@[simp] theorem State.vw_clock (d : VIdx) (x : VReg) : (s.vw d x).clock = s.clock := rfl
@[simp] theorem State.vw_wallBase (d : VIdx) (x : VReg) : (s.vw d x).wallBase = s.wallBase := rfl
@[simp] theorem State.vw_dieLost (d : VIdx) (x : VReg) : (s.vw d x).dieLost = s.dieLost := rfl
@[simp] theorem State.vw_served (d : VIdx) (x : VReg) : (s.vw d x).served = s.served := rfl
@[simp] theorem State.vw_lastIssue (d : VIdx) (x : VReg) : (s.vw d x).lastIssue = s.lastIssue := rfl
@[simp] theorem State.vw_mem (d : VIdx) (x : VReg) : (s.vw d x).mem = s.mem := rfl
@[simp] theorem State.vw_empties (d : VIdx) (x : VReg) : (s.vw d x).empties = s.empties := rfl
@[simp] theorem State.vw_poison (d : VIdx) (x : VReg) : (s.vw d x).poison = s.poison := rfl
@[simp] theorem State.vw_stores (d : VIdx) (x : VReg) : (s.vw d x).stores = s.stores := rfl
@[simp] theorem State.vw_lines (d : VIdx) (x : VReg) : (s.vw d x).lines = s.lines := rfl
@[simp] theorem State.vw_copies (d : VIdx) (x : VReg) : (s.vw d x).copies = s.copies := rfl
@[simp] theorem State.vw_tlb (d : VIdx) (x : VReg) : (s.vw d x).tlb = s.tlb := rfl
@[simp] theorem State.vw_icache (d : VIdx) (x : VReg) : (s.vw d x).icache = s.icache := rfl
@[simp] theorem State.vw_waits (d : VIdx) (x : VReg) : (s.vw d x).waits = s.waits := rfl
@[simp] theorem State.vw_roles (d : VIdx) (x : VReg) : (s.vw d x).roles = s.roles := rfl
@[simp] theorem State.vw_roleChg (d : VIdx) (x : VReg) : (s.vw d x).roleChg = s.roleChg := rfl
@[simp] theorem State.vw_sliceMap (d : VIdx) (x : VReg) : (s.vw d x).sliceMap = s.sliceMap := rfl
@[simp] theorem State.vw_oldMap (d : VIdx) (x : VReg) : (s.vw d x).oldMap = s.oldMap := rfl
@[simp] theorem State.vw_mapGen (d : VIdx) (x : VReg) : (s.vw d x).mapGen = s.mapGen := rfl
@[simp] theorem State.vw_stalePorts (d : VIdx) (x : VReg) : (s.vw d x).stalePorts = s.stalePorts := rfl
@[simp] theorem State.vw_floors (d : VIdx) (x : VReg) : (s.vw d x).floors = s.floors := rfl
@[simp] theorem State.vw_deques (d : VIdx) (x : VReg) : (s.vw d x).deques = s.deques := rfl
@[simp] theorem State.vw_spills (d : VIdx) (x : VReg) : (s.vw d x).spills = s.spills := rfl
@[simp] theorem State.vw_rr (d : VIdx) (x : VReg) : (s.vw d x).rr = s.rr := rfl
@[simp] theorem State.vw_stealTurn (d : VIdx) (x : VReg) : (s.vw d x).stealTurn = s.stealTurn := rfl
@[simp] theorem State.vw_stealRuns (d : VIdx) (x : VReg) : (s.vw d x).stealRuns = s.stealRuns := rfl
@[simp] theorem State.vw_arrivals (d : VIdx) (x : VReg) : (s.vw d x).arrivals = s.arrivals := rfl
@[simp] theorem State.vw_arrSpill (d : VIdx) (x : VReg) : (s.vw d x).arrSpill = s.arrSpill := rfl
@[simp] theorem State.vw_parkedRec (d : VIdx) (x : VReg) : (s.vw d x).parkedRec = s.parkedRec := rfl
@[simp] theorem State.vw_residents (d : VIdx) (x : VReg) : (s.vw d x).residents = s.residents := rfl
@[simp] theorem State.vw_evicted (d : VIdx) (x : VReg) : (s.vw d x).evicted = s.evicted := rfl
@[simp] theorem State.vw_bubbles (d : VIdx) (x : VReg) : (s.vw d x).bubbles = s.bubbles := rfl
@[simp] theorem State.vw_chans (d : VIdx) (x : VReg) : (s.vw d x).chans = s.chans := rfl
@[simp] theorem State.vw_counters (d : VIdx) (x : VReg) : (s.vw d x).counters = s.counters := rfl
@[simp] theorem State.vw_nextCmd (d : VIdx) (x : VReg) : (s.vw d x).nextCmd = s.nextCmd := rfl
@[simp] theorem State.vw_bars (d : VIdx) (x : VReg) : (s.vw d x).bars = s.bars := rfl
@[simp] theorem State.vw_mgangs (d : VIdx) (x : VReg) : (s.vw d x).mgangs = s.mgangs := rfl
@[simp] theorem State.vw_vgangs (d : VIdx) (x : VReg) : (s.vw d x).vgangs = s.vgangs := rfl
@[simp] theorem State.vw_assays (d : VIdx) (x : VReg) : (s.vw d x).assays = s.assays := rfl
@[simp] theorem State.vw_nets (d : VIdx) (x : VReg) : (s.vw d x).nets = s.nets := rfl
@[simp] theorem State.vw_netqs (d : VIdx) (x : VReg) : (s.vw d x).netqs = s.netqs := rfl
@[simp] theorem State.vw_mints (d : VIdx) (x : VReg) : (s.vw d x).mints = s.mints := rfl
@[simp] theorem State.vw_launches (d : VIdx) (x : VReg) : (s.vw d x).launches = s.launches := rfl
@[simp] theorem State.vw_msgs (d : VIdx) (x : VReg) : (s.vw d x).msgs = s.msgs := rfl
@[simp] theorem State.vw_poolDry (d : VIdx) (x : VReg) : (s.vw d x).poolDry = s.poolDry := rfl
@[simp] theorem State.vw_suspense (d : VIdx) (x : VReg) : (s.vw d x).suspense = s.suspense := rfl
@[simp] theorem State.vw_owner (d : VIdx) (x : VReg) : (s.vw d x).owner = s.owner := rfl
@[simp] theorem State.vw_acl (d : VIdx) (x : VReg) : (s.vw d x).acl = s.acl := rfl
@[simp] theorem State.vw_resBase (d : VIdx) (x : VReg) : (s.vw d x).resBase = s.resBase := rfl
@[simp] theorem State.vw_resSize (d : VIdx) (x : VReg) : (s.vw d x).resSize = s.resSize := rfl
@[simp] theorem State.vw_bar2 (d : VIdx) (x : VReg) : (s.vw d x).bar2 = s.bar2 := rfl
@[simp] theorem State.vw_peers (d : VIdx) (x : VReg) : (s.vw d x).peers = s.peers := rfl
@[simp] theorem State.vw_fused (d : VIdx) (x : VReg) : (s.vw d x).fused = s.fused := rfl
@[simp] theorem State.vw_purseHeld (d : VIdx) (x : VReg) : (s.vw d x).purseHeld = s.purseHeld := rfl
@[simp] theorem State.vw_cmdqs (d : VIdx) (x : VReg) : (s.vw d x).cmdqs = s.cmdqs := rfl
@[simp] theorem State.vw_polled (d : VIdx) (x : VReg) : (s.vw d x).polled = s.polled := rfl
@[simp] theorem State.vw_journal (d : VIdx) (x : VReg) : (s.vw d x).journal = s.journal := rfl
@[simp] theorem State.vw_jseq (d : VIdx) (x : VReg) : (s.vw d x).jseq = s.jseq := rfl
@[simp] theorem State.vw_lastCmd (d : VIdx) (x : VReg) : (s.vw d x).lastCmd = s.lastCmd := rfl
@[simp] theorem State.vw_replies (d : VIdx) (x : VReg) : (s.vw d x).replies = s.replies := rfl
@[simp] theorem State.vw_hostMode (d : VIdx) (x : VReg) : (s.vw d x).hostMode = s.hostMode := rfl
@[simp] theorem State.vw_span (d : VIdx) (x : VReg) : (s.vw d x).span = s.span := rfl
@[simp] theorem State.vw_refusedW (d : VIdx) (x : VReg) : (s.vw d x).refusedW = s.refusedW := rfl
@[simp] theorem State.vw_points (d : VIdx) (x : VReg) : (s.vw d x).points = s.points := rfl
@[simp] theorem State.vw_throttled (d : VIdx) (x : VReg) : (s.vw d x).throttled = s.throttled := rfl
@[simp] theorem State.vw_capped (d : VIdx) (x : VReg) : (s.vw d x).capped = s.capped := rfl
@[simp] theorem State.vw_powerCap (d : VIdx) (x : VReg) : (s.vw d x).powerCap = s.powerCap := rfl
@[simp] theorem State.vw_power (d : VIdx) (x : VReg) : (s.vw d x).power = s.power := rfl
@[simp] theorem State.vw_fwActive (d : VIdx) (x : VReg) : (s.vw d x).fwActive = s.fwActive := rfl
@[simp] theorem State.vw_fwInactive (d : VIdx) (x : VReg) : (s.vw d x).fwInactive = s.fwInactive := rfl
@[simp] theorem State.vw_fwPending (d : VIdx) (x : VReg) : (s.vw d x).fwPending = s.fwPending := rfl
@[simp] theorem State.vw_fwVersion (d : VIdx) (x : VReg) : (s.vw d x).fwVersion = s.fwVersion := rfl
@[simp] theorem State.vw_rollback (d : VIdx) (x : VReg) : (s.vw d x).rollback = s.rollback := rfl
@[simp] theorem State.vw_perf (d : VIdx) (x : VReg) : (s.vw d x).perf = s.perf := rfl
@[simp] theorem State.vw_perfSnap (d : VIdx) (x : VReg) : (s.vw d x).perfSnap = s.perfSnap := rfl

/-! ### flag -/

@[simp] theorem State.flag_agenda (f : BitVec 5) : (s.flag f).agenda = s.agenda := rfl
@[simp] theorem State.flag_turn (f : BitVec 5) : (s.flag f).turn = s.turn := rfl
@[simp] theorem State.flag_cur (f : BitVec 5) : (s.flag f).cur = s.cur := rfl
@[simp] theorem State.flag_tape (f : BitVec 5) : (s.flag f).tape = s.tape := rfl
@[simp] theorem State.flag_nfree (f : BitVec 5) : (s.flag f).nfree = s.nfree := rfl
@[simp] theorem State.flag_nextTid (f : BitVec 5) : (s.flag f).nextTid = s.nextTid := rfl
@[simp] theorem State.flag_nextArr (f : BitVec 5) : (s.flag f).nextArr = s.nextArr := rfl
@[simp] theorem State.flag_linkBudget (f : BitVec 5) : (s.flag f).linkBudget = s.linkBudget := rfl
@[simp] theorem State.flag_clock (f : BitVec 5) : (s.flag f).clock = s.clock := rfl
@[simp] theorem State.flag_wallBase (f : BitVec 5) : (s.flag f).wallBase = s.wallBase := rfl
@[simp] theorem State.flag_dieLost (f : BitVec 5) : (s.flag f).dieLost = s.dieLost := rfl
@[simp] theorem State.flag_served (f : BitVec 5) : (s.flag f).served = s.served := rfl
@[simp] theorem State.flag_lastIssue (f : BitVec 5) : (s.flag f).lastIssue = s.lastIssue := rfl
@[simp] theorem State.flag_mem (f : BitVec 5) : (s.flag f).mem = s.mem := rfl
@[simp] theorem State.flag_empties (f : BitVec 5) : (s.flag f).empties = s.empties := rfl
@[simp] theorem State.flag_poison (f : BitVec 5) : (s.flag f).poison = s.poison := rfl
@[simp] theorem State.flag_stores (f : BitVec 5) : (s.flag f).stores = s.stores := rfl
@[simp] theorem State.flag_lines (f : BitVec 5) : (s.flag f).lines = s.lines := rfl
@[simp] theorem State.flag_copies (f : BitVec 5) : (s.flag f).copies = s.copies := rfl
@[simp] theorem State.flag_tlb (f : BitVec 5) : (s.flag f).tlb = s.tlb := rfl
@[simp] theorem State.flag_icache (f : BitVec 5) : (s.flag f).icache = s.icache := rfl
@[simp] theorem State.flag_waits (f : BitVec 5) : (s.flag f).waits = s.waits := rfl
@[simp] theorem State.flag_roles (f : BitVec 5) : (s.flag f).roles = s.roles := rfl
@[simp] theorem State.flag_roleChg (f : BitVec 5) : (s.flag f).roleChg = s.roleChg := rfl
@[simp] theorem State.flag_sliceMap (f : BitVec 5) : (s.flag f).sliceMap = s.sliceMap := rfl
@[simp] theorem State.flag_oldMap (f : BitVec 5) : (s.flag f).oldMap = s.oldMap := rfl
@[simp] theorem State.flag_mapGen (f : BitVec 5) : (s.flag f).mapGen = s.mapGen := rfl
@[simp] theorem State.flag_stalePorts (f : BitVec 5) : (s.flag f).stalePorts = s.stalePorts := rfl
@[simp] theorem State.flag_floors (f : BitVec 5) : (s.flag f).floors = s.floors := rfl
@[simp] theorem State.flag_deques (f : BitVec 5) : (s.flag f).deques = s.deques := rfl
@[simp] theorem State.flag_spills (f : BitVec 5) : (s.flag f).spills = s.spills := rfl
@[simp] theorem State.flag_rr (f : BitVec 5) : (s.flag f).rr = s.rr := rfl
@[simp] theorem State.flag_stealTurn (f : BitVec 5) : (s.flag f).stealTurn = s.stealTurn := rfl
@[simp] theorem State.flag_stealRuns (f : BitVec 5) : (s.flag f).stealRuns = s.stealRuns := rfl
@[simp] theorem State.flag_arrivals (f : BitVec 5) : (s.flag f).arrivals = s.arrivals := rfl
@[simp] theorem State.flag_arrSpill (f : BitVec 5) : (s.flag f).arrSpill = s.arrSpill := rfl
@[simp] theorem State.flag_parkedRec (f : BitVec 5) : (s.flag f).parkedRec = s.parkedRec := rfl
@[simp] theorem State.flag_residents (f : BitVec 5) : (s.flag f).residents = s.residents := rfl
@[simp] theorem State.flag_evicted (f : BitVec 5) : (s.flag f).evicted = s.evicted := rfl
@[simp] theorem State.flag_bubbles (f : BitVec 5) : (s.flag f).bubbles = s.bubbles := rfl
@[simp] theorem State.flag_chans (f : BitVec 5) : (s.flag f).chans = s.chans := rfl
@[simp] theorem State.flag_counters (f : BitVec 5) : (s.flag f).counters = s.counters := rfl
@[simp] theorem State.flag_nextCmd (f : BitVec 5) : (s.flag f).nextCmd = s.nextCmd := rfl
@[simp] theorem State.flag_bars (f : BitVec 5) : (s.flag f).bars = s.bars := rfl
@[simp] theorem State.flag_mgangs (f : BitVec 5) : (s.flag f).mgangs = s.mgangs := rfl
@[simp] theorem State.flag_vgangs (f : BitVec 5) : (s.flag f).vgangs = s.vgangs := rfl
@[simp] theorem State.flag_assays (f : BitVec 5) : (s.flag f).assays = s.assays := rfl
@[simp] theorem State.flag_nets (f : BitVec 5) : (s.flag f).nets = s.nets := rfl
@[simp] theorem State.flag_netqs (f : BitVec 5) : (s.flag f).netqs = s.netqs := rfl
@[simp] theorem State.flag_mints (f : BitVec 5) : (s.flag f).mints = s.mints := rfl
@[simp] theorem State.flag_launches (f : BitVec 5) : (s.flag f).launches = s.launches := rfl
@[simp] theorem State.flag_msgs (f : BitVec 5) : (s.flag f).msgs = s.msgs := rfl
@[simp] theorem State.flag_poolDry (f : BitVec 5) : (s.flag f).poolDry = s.poolDry := rfl
@[simp] theorem State.flag_suspense (f : BitVec 5) : (s.flag f).suspense = s.suspense := rfl
@[simp] theorem State.flag_owner (f : BitVec 5) : (s.flag f).owner = s.owner := rfl
@[simp] theorem State.flag_acl (f : BitVec 5) : (s.flag f).acl = s.acl := rfl
@[simp] theorem State.flag_resBase (f : BitVec 5) : (s.flag f).resBase = s.resBase := rfl
@[simp] theorem State.flag_resSize (f : BitVec 5) : (s.flag f).resSize = s.resSize := rfl
@[simp] theorem State.flag_bar2 (f : BitVec 5) : (s.flag f).bar2 = s.bar2 := rfl
@[simp] theorem State.flag_peers (f : BitVec 5) : (s.flag f).peers = s.peers := rfl
@[simp] theorem State.flag_fused (f : BitVec 5) : (s.flag f).fused = s.fused := rfl
@[simp] theorem State.flag_purseHeld (f : BitVec 5) : (s.flag f).purseHeld = s.purseHeld := rfl
@[simp] theorem State.flag_cmdqs (f : BitVec 5) : (s.flag f).cmdqs = s.cmdqs := rfl
@[simp] theorem State.flag_polled (f : BitVec 5) : (s.flag f).polled = s.polled := rfl
@[simp] theorem State.flag_journal (f : BitVec 5) : (s.flag f).journal = s.journal := rfl
@[simp] theorem State.flag_jseq (f : BitVec 5) : (s.flag f).jseq = s.jseq := rfl
@[simp] theorem State.flag_lastCmd (f : BitVec 5) : (s.flag f).lastCmd = s.lastCmd := rfl
@[simp] theorem State.flag_replies (f : BitVec 5) : (s.flag f).replies = s.replies := rfl
@[simp] theorem State.flag_hostMode (f : BitVec 5) : (s.flag f).hostMode = s.hostMode := rfl
@[simp] theorem State.flag_span (f : BitVec 5) : (s.flag f).span = s.span := rfl
@[simp] theorem State.flag_refusedW (f : BitVec 5) : (s.flag f).refusedW = s.refusedW := rfl
@[simp] theorem State.flag_points (f : BitVec 5) : (s.flag f).points = s.points := rfl
@[simp] theorem State.flag_throttled (f : BitVec 5) : (s.flag f).throttled = s.throttled := rfl
@[simp] theorem State.flag_capped (f : BitVec 5) : (s.flag f).capped = s.capped := rfl
@[simp] theorem State.flag_powerCap (f : BitVec 5) : (s.flag f).powerCap = s.powerCap := rfl
@[simp] theorem State.flag_power (f : BitVec 5) : (s.flag f).power = s.power := rfl
@[simp] theorem State.flag_fwActive (f : BitVec 5) : (s.flag f).fwActive = s.fwActive := rfl
@[simp] theorem State.flag_fwInactive (f : BitVec 5) : (s.flag f).fwInactive = s.fwInactive := rfl
@[simp] theorem State.flag_fwPending (f : BitVec 5) : (s.flag f).fwPending = s.fwPending := rfl
@[simp] theorem State.flag_fwVersion (f : BitVec 5) : (s.flag f).fwVersion = s.fwVersion := rfl
@[simp] theorem State.flag_rollback (f : BitVec 5) : (s.flag f).rollback = s.rollback := rfl
@[simp] theorem State.flag_perf (f : BitVec 5) : (s.flag f).perf = s.perf := rfl
@[simp] theorem State.flag_perfSnap (f : BitVec 5) : (s.flag f).perfSnap = s.perfSnap := rfl

/-! ### leave -/

@[simp] theorem State.leave_agenda (b : Nat) (w : Wait) : (s.leave b w).agenda = s.agenda := rfl
@[simp] theorem State.leave_turn (b : Nat) (w : Wait) : (s.leave b w).turn = s.turn := rfl
@[simp] theorem State.leave_cur (b : Nat) (w : Wait) : (s.leave b w).cur = s.cur := rfl
@[simp] theorem State.leave_tape (b : Nat) (w : Wait) : (s.leave b w).tape = s.tape := rfl
@[simp] theorem State.leave_nfree (b : Nat) (w : Wait) : (s.leave b w).nfree = s.nfree := rfl
@[simp] theorem State.leave_nextTid (b : Nat) (w : Wait) : (s.leave b w).nextTid = s.nextTid := rfl
@[simp] theorem State.leave_nextArr (b : Nat) (w : Wait) : (s.leave b w).nextArr = s.nextArr := rfl
@[simp] theorem State.leave_linkBudget (b : Nat) (w : Wait) : (s.leave b w).linkBudget = s.linkBudget := rfl
@[simp] theorem State.leave_clock (b : Nat) (w : Wait) : (s.leave b w).clock = s.clock := rfl
@[simp] theorem State.leave_wallBase (b : Nat) (w : Wait) : (s.leave b w).wallBase = s.wallBase := rfl
@[simp] theorem State.leave_dieLost (b : Nat) (w : Wait) : (s.leave b w).dieLost = s.dieLost := rfl
@[simp] theorem State.leave_served (b : Nat) (w : Wait) : (s.leave b w).served = s.served := rfl
@[simp] theorem State.leave_lastIssue (b : Nat) (w : Wait) : (s.leave b w).lastIssue = s.lastIssue := rfl
@[simp] theorem State.leave_mem (b : Nat) (w : Wait) : (s.leave b w).mem = s.mem := rfl
@[simp] theorem State.leave_empties (b : Nat) (w : Wait) : (s.leave b w).empties = s.empties := rfl
@[simp] theorem State.leave_poison (b : Nat) (w : Wait) : (s.leave b w).poison = s.poison := rfl
@[simp] theorem State.leave_stores (b : Nat) (w : Wait) : (s.leave b w).stores = s.stores := rfl
@[simp] theorem State.leave_lines (b : Nat) (w : Wait) : (s.leave b w).lines = s.lines := rfl
@[simp] theorem State.leave_copies (b : Nat) (w : Wait) : (s.leave b w).copies = s.copies := rfl
@[simp] theorem State.leave_tlb (b : Nat) (w : Wait) : (s.leave b w).tlb = s.tlb := rfl
@[simp] theorem State.leave_icache (b : Nat) (w : Wait) : (s.leave b w).icache = s.icache := rfl
@[simp] theorem State.leave_waits (b : Nat) (w : Wait) : (s.leave b w).waits = s.waits := rfl
@[simp] theorem State.leave_roles (b : Nat) (w : Wait) : (s.leave b w).roles = s.roles := rfl
@[simp] theorem State.leave_roleChg (b : Nat) (w : Wait) : (s.leave b w).roleChg = s.roleChg := rfl
@[simp] theorem State.leave_sliceMap (b : Nat) (w : Wait) : (s.leave b w).sliceMap = s.sliceMap := rfl
@[simp] theorem State.leave_oldMap (b : Nat) (w : Wait) : (s.leave b w).oldMap = s.oldMap := rfl
@[simp] theorem State.leave_mapGen (b : Nat) (w : Wait) : (s.leave b w).mapGen = s.mapGen := rfl
@[simp] theorem State.leave_stalePorts (b : Nat) (w : Wait) : (s.leave b w).stalePorts = s.stalePorts := rfl
@[simp] theorem State.leave_floors (b : Nat) (w : Wait) : (s.leave b w).floors = s.floors := rfl
@[simp] theorem State.leave_deques (b : Nat) (w : Wait) : (s.leave b w).deques = s.deques := rfl
@[simp] theorem State.leave_spills (b : Nat) (w : Wait) : (s.leave b w).spills = s.spills := rfl
@[simp] theorem State.leave_rr (b : Nat) (w : Wait) : (s.leave b w).rr = s.rr := rfl
@[simp] theorem State.leave_stealTurn (b : Nat) (w : Wait) : (s.leave b w).stealTurn = s.stealTurn := rfl
@[simp] theorem State.leave_stealRuns (b : Nat) (w : Wait) : (s.leave b w).stealRuns = s.stealRuns := rfl
@[simp] theorem State.leave_arrivals (b : Nat) (w : Wait) : (s.leave b w).arrivals = s.arrivals := rfl
@[simp] theorem State.leave_arrSpill (b : Nat) (w : Wait) : (s.leave b w).arrSpill = s.arrSpill := rfl
@[simp] theorem State.leave_parkedRec (b : Nat) (w : Wait) : (s.leave b w).parkedRec = s.parkedRec := rfl
@[simp] theorem State.leave_residents (b : Nat) (w : Wait) : (s.leave b w).residents = s.residents := rfl
@[simp] theorem State.leave_evicted (b : Nat) (w : Wait) : (s.leave b w).evicted = s.evicted := rfl
@[simp] theorem State.leave_bubbles (b : Nat) (w : Wait) : (s.leave b w).bubbles = s.bubbles := rfl
@[simp] theorem State.leave_chans (b : Nat) (w : Wait) : (s.leave b w).chans = s.chans := rfl
@[simp] theorem State.leave_counters (b : Nat) (w : Wait) : (s.leave b w).counters = s.counters := rfl
@[simp] theorem State.leave_nextCmd (b : Nat) (w : Wait) : (s.leave b w).nextCmd = s.nextCmd := rfl
@[simp] theorem State.leave_bars (b : Nat) (w : Wait) : (s.leave b w).bars = s.bars := rfl
@[simp] theorem State.leave_mgangs (b : Nat) (w : Wait) : (s.leave b w).mgangs = s.mgangs := rfl
@[simp] theorem State.leave_vgangs (b : Nat) (w : Wait) : (s.leave b w).vgangs = s.vgangs := rfl
@[simp] theorem State.leave_assays (b : Nat) (w : Wait) : (s.leave b w).assays = s.assays := rfl
@[simp] theorem State.leave_nets (b : Nat) (w : Wait) : (s.leave b w).nets = s.nets := rfl
@[simp] theorem State.leave_netqs (b : Nat) (w : Wait) : (s.leave b w).netqs = s.netqs := rfl
@[simp] theorem State.leave_mints (b : Nat) (w : Wait) : (s.leave b w).mints = s.mints := rfl
@[simp] theorem State.leave_launches (b : Nat) (w : Wait) : (s.leave b w).launches = s.launches := rfl
@[simp] theorem State.leave_msgs (b : Nat) (w : Wait) : (s.leave b w).msgs = s.msgs := rfl
@[simp] theorem State.leave_poolDry (b : Nat) (w : Wait) : (s.leave b w).poolDry = s.poolDry := rfl
@[simp] theorem State.leave_suspense (b : Nat) (w : Wait) : (s.leave b w).suspense = s.suspense := rfl
@[simp] theorem State.leave_owner (b : Nat) (w : Wait) : (s.leave b w).owner = s.owner := rfl
@[simp] theorem State.leave_acl (b : Nat) (w : Wait) : (s.leave b w).acl = s.acl := rfl
@[simp] theorem State.leave_resBase (b : Nat) (w : Wait) : (s.leave b w).resBase = s.resBase := rfl
@[simp] theorem State.leave_resSize (b : Nat) (w : Wait) : (s.leave b w).resSize = s.resSize := rfl
@[simp] theorem State.leave_bar2 (b : Nat) (w : Wait) : (s.leave b w).bar2 = s.bar2 := rfl
@[simp] theorem State.leave_peers (b : Nat) (w : Wait) : (s.leave b w).peers = s.peers := rfl
@[simp] theorem State.leave_fused (b : Nat) (w : Wait) : (s.leave b w).fused = s.fused := rfl
@[simp] theorem State.leave_purseHeld (b : Nat) (w : Wait) : (s.leave b w).purseHeld = s.purseHeld := rfl
@[simp] theorem State.leave_cmdqs (b : Nat) (w : Wait) : (s.leave b w).cmdqs = s.cmdqs := rfl
@[simp] theorem State.leave_polled (b : Nat) (w : Wait) : (s.leave b w).polled = s.polled := rfl
@[simp] theorem State.leave_journal (b : Nat) (w : Wait) : (s.leave b w).journal = s.journal := rfl
@[simp] theorem State.leave_jseq (b : Nat) (w : Wait) : (s.leave b w).jseq = s.jseq := rfl
@[simp] theorem State.leave_lastCmd (b : Nat) (w : Wait) : (s.leave b w).lastCmd = s.lastCmd := rfl
@[simp] theorem State.leave_replies (b : Nat) (w : Wait) : (s.leave b w).replies = s.replies := rfl
@[simp] theorem State.leave_hostMode (b : Nat) (w : Wait) : (s.leave b w).hostMode = s.hostMode := rfl
@[simp] theorem State.leave_span (b : Nat) (w : Wait) : (s.leave b w).span = s.span := rfl
@[simp] theorem State.leave_refusedW (b : Nat) (w : Wait) : (s.leave b w).refusedW = s.refusedW := rfl
@[simp] theorem State.leave_points (b : Nat) (w : Wait) : (s.leave b w).points = s.points := rfl
@[simp] theorem State.leave_throttled (b : Nat) (w : Wait) : (s.leave b w).throttled = s.throttled := rfl
@[simp] theorem State.leave_capped (b : Nat) (w : Wait) : (s.leave b w).capped = s.capped := rfl
@[simp] theorem State.leave_powerCap (b : Nat) (w : Wait) : (s.leave b w).powerCap = s.powerCap := rfl
@[simp] theorem State.leave_power (b : Nat) (w : Wait) : (s.leave b w).power = s.power := rfl
@[simp] theorem State.leave_fwActive (b : Nat) (w : Wait) : (s.leave b w).fwActive = s.fwActive := rfl
@[simp] theorem State.leave_fwInactive (b : Nat) (w : Wait) : (s.leave b w).fwInactive = s.fwInactive := rfl
@[simp] theorem State.leave_fwPending (b : Nat) (w : Wait) : (s.leave b w).fwPending = s.fwPending := rfl
@[simp] theorem State.leave_fwVersion (b : Nat) (w : Wait) : (s.leave b w).fwVersion = s.fwVersion := rfl
@[simp] theorem State.leave_rollback (b : Nat) (w : Wait) : (s.leave b w).rollback = s.rollback := rfl
@[simp] theorem State.leave_perf (b : Nat) (w : Wait) : (s.leave b w).perf = s.perf := rfl
@[simp] theorem State.leave_perfSnap (b : Nat) (w : Wait) : (s.leave b w).perfSnap = s.perfSnap := rfl

/-! ### away -/

@[simp] theorem State.away_agenda : (s.away).agenda = s.agenda := rfl
@[simp] theorem State.away_turn : (s.away).turn = s.turn := rfl
@[simp] theorem State.away_cur : (s.away).cur = s.cur := rfl
@[simp] theorem State.away_tape : (s.away).tape = s.tape := rfl
@[simp] theorem State.away_nfree : (s.away).nfree = s.nfree := rfl
@[simp] theorem State.away_nextTid : (s.away).nextTid = s.nextTid := rfl
@[simp] theorem State.away_nextArr : (s.away).nextArr = s.nextArr := rfl
@[simp] theorem State.away_linkBudget : (s.away).linkBudget = s.linkBudget := rfl
@[simp] theorem State.away_clock : (s.away).clock = s.clock := rfl
@[simp] theorem State.away_wallBase : (s.away).wallBase = s.wallBase := rfl
@[simp] theorem State.away_dieLost : (s.away).dieLost = s.dieLost := rfl
@[simp] theorem State.away_served : (s.away).served = s.served := rfl
@[simp] theorem State.away_lastIssue : (s.away).lastIssue = s.lastIssue := rfl
@[simp] theorem State.away_mem : (s.away).mem = s.mem := rfl
@[simp] theorem State.away_empties : (s.away).empties = s.empties := rfl
@[simp] theorem State.away_poison : (s.away).poison = s.poison := rfl
@[simp] theorem State.away_stores : (s.away).stores = s.stores := rfl
@[simp] theorem State.away_lines : (s.away).lines = s.lines := rfl
@[simp] theorem State.away_copies : (s.away).copies = s.copies := rfl
@[simp] theorem State.away_tlb : (s.away).tlb = s.tlb := rfl
@[simp] theorem State.away_icache : (s.away).icache = s.icache := rfl
@[simp] theorem State.away_waits : (s.away).waits = s.waits := rfl
@[simp] theorem State.away_roles : (s.away).roles = s.roles := rfl
@[simp] theorem State.away_roleChg : (s.away).roleChg = s.roleChg := rfl
@[simp] theorem State.away_sliceMap : (s.away).sliceMap = s.sliceMap := rfl
@[simp] theorem State.away_oldMap : (s.away).oldMap = s.oldMap := rfl
@[simp] theorem State.away_mapGen : (s.away).mapGen = s.mapGen := rfl
@[simp] theorem State.away_stalePorts : (s.away).stalePorts = s.stalePorts := rfl
@[simp] theorem State.away_floors : (s.away).floors = s.floors := rfl
@[simp] theorem State.away_deques : (s.away).deques = s.deques := rfl
@[simp] theorem State.away_spills : (s.away).spills = s.spills := rfl
@[simp] theorem State.away_rr : (s.away).rr = s.rr := rfl
@[simp] theorem State.away_stealTurn : (s.away).stealTurn = s.stealTurn := rfl
@[simp] theorem State.away_stealRuns : (s.away).stealRuns = s.stealRuns := rfl
@[simp] theorem State.away_arrivals : (s.away).arrivals = s.arrivals := rfl
@[simp] theorem State.away_arrSpill : (s.away).arrSpill = s.arrSpill := rfl
@[simp] theorem State.away_parkedRec : (s.away).parkedRec = s.parkedRec := rfl
@[simp] theorem State.away_residents : (s.away).residents = s.residents := rfl
@[simp] theorem State.away_evicted : (s.away).evicted = s.evicted := rfl
@[simp] theorem State.away_bubbles : (s.away).bubbles = s.bubbles := rfl
@[simp] theorem State.away_chans : (s.away).chans = s.chans := rfl
@[simp] theorem State.away_counters : (s.away).counters = s.counters := rfl
@[simp] theorem State.away_nextCmd : (s.away).nextCmd = s.nextCmd := rfl
@[simp] theorem State.away_bars : (s.away).bars = s.bars := rfl
@[simp] theorem State.away_mgangs : (s.away).mgangs = s.mgangs := rfl
@[simp] theorem State.away_vgangs : (s.away).vgangs = s.vgangs := rfl
@[simp] theorem State.away_assays : (s.away).assays = s.assays := rfl
@[simp] theorem State.away_nets : (s.away).nets = s.nets := rfl
@[simp] theorem State.away_netqs : (s.away).netqs = s.netqs := rfl
@[simp] theorem State.away_mints : (s.away).mints = s.mints := rfl
@[simp] theorem State.away_launches : (s.away).launches = s.launches := rfl
@[simp] theorem State.away_msgs : (s.away).msgs = s.msgs := rfl
@[simp] theorem State.away_poolDry : (s.away).poolDry = s.poolDry := rfl
@[simp] theorem State.away_suspense : (s.away).suspense = s.suspense := rfl
@[simp] theorem State.away_owner : (s.away).owner = s.owner := rfl
@[simp] theorem State.away_acl : (s.away).acl = s.acl := rfl
@[simp] theorem State.away_resBase : (s.away).resBase = s.resBase := rfl
@[simp] theorem State.away_resSize : (s.away).resSize = s.resSize := rfl
@[simp] theorem State.away_bar2 : (s.away).bar2 = s.bar2 := rfl
@[simp] theorem State.away_peers : (s.away).peers = s.peers := rfl
@[simp] theorem State.away_fused : (s.away).fused = s.fused := rfl
@[simp] theorem State.away_purseHeld : (s.away).purseHeld = s.purseHeld := rfl
@[simp] theorem State.away_cmdqs : (s.away).cmdqs = s.cmdqs := rfl
@[simp] theorem State.away_polled : (s.away).polled = s.polled := rfl
@[simp] theorem State.away_journal : (s.away).journal = s.journal := rfl
@[simp] theorem State.away_jseq : (s.away).jseq = s.jseq := rfl
@[simp] theorem State.away_lastCmd : (s.away).lastCmd = s.lastCmd := rfl
@[simp] theorem State.away_replies : (s.away).replies = s.replies := rfl
@[simp] theorem State.away_hostMode : (s.away).hostMode = s.hostMode := rfl
@[simp] theorem State.away_span : (s.away).span = s.span := rfl
@[simp] theorem State.away_refusedW : (s.away).refusedW = s.refusedW := rfl
@[simp] theorem State.away_points : (s.away).points = s.points := rfl
@[simp] theorem State.away_throttled : (s.away).throttled = s.throttled := rfl
@[simp] theorem State.away_capped : (s.away).capped = s.capped := rfl
@[simp] theorem State.away_powerCap : (s.away).powerCap = s.powerCap := rfl
@[simp] theorem State.away_power : (s.away).power = s.power := rfl
@[simp] theorem State.away_fwActive : (s.away).fwActive = s.fwActive := rfl
@[simp] theorem State.away_fwInactive : (s.away).fwInactive = s.fwInactive := rfl
@[simp] theorem State.away_fwPending : (s.away).fwPending = s.fwPending := rfl
@[simp] theorem State.away_fwVersion : (s.away).fwVersion = s.fwVersion := rfl
@[simp] theorem State.away_rollback : (s.away).rollback = s.rollback := rfl
@[simp] theorem State.away_perf : (s.away).perf = s.perf := rfl
@[simp] theorem State.away_perfSnap : (s.away).perfSnap = s.perfSnap := rfl

/-! ### raise -/

@[simp] theorem State.raise_agenda (b p : Nat) : (s.raise b p).agenda = s.agenda := rfl
@[simp] theorem State.raise_turn (b p : Nat) : (s.raise b p).turn = s.turn := rfl
@[simp] theorem State.raise_cur (b p : Nat) : (s.raise b p).cur = s.cur := rfl
@[simp] theorem State.raise_tape (b p : Nat) : (s.raise b p).tape = s.tape := rfl
@[simp] theorem State.raise_nfree (b p : Nat) : (s.raise b p).nfree = s.nfree := rfl
@[simp] theorem State.raise_nextTid (b p : Nat) : (s.raise b p).nextTid = s.nextTid := rfl
@[simp] theorem State.raise_nextArr (b p : Nat) : (s.raise b p).nextArr = s.nextArr := rfl
@[simp] theorem State.raise_linkBudget (b p : Nat) : (s.raise b p).linkBudget = s.linkBudget := rfl
@[simp] theorem State.raise_clock (b p : Nat) : (s.raise b p).clock = s.clock := rfl
@[simp] theorem State.raise_wallBase (b p : Nat) : (s.raise b p).wallBase = s.wallBase := rfl
@[simp] theorem State.raise_dieLost (b p : Nat) : (s.raise b p).dieLost = s.dieLost := rfl
@[simp] theorem State.raise_served (b p : Nat) : (s.raise b p).served = s.served := rfl
@[simp] theorem State.raise_lastIssue (b p : Nat) : (s.raise b p).lastIssue = s.lastIssue := rfl
@[simp] theorem State.raise_mem (b p : Nat) : (s.raise b p).mem = s.mem := rfl
@[simp] theorem State.raise_empties (b p : Nat) : (s.raise b p).empties = s.empties := rfl
@[simp] theorem State.raise_poison (b p : Nat) : (s.raise b p).poison = s.poison := rfl
@[simp] theorem State.raise_stores (b p : Nat) : (s.raise b p).stores = s.stores := rfl
@[simp] theorem State.raise_lines (b p : Nat) : (s.raise b p).lines = s.lines := rfl
@[simp] theorem State.raise_copies (b p : Nat) : (s.raise b p).copies = s.copies := rfl
@[simp] theorem State.raise_tlb (b p : Nat) : (s.raise b p).tlb = s.tlb := rfl
@[simp] theorem State.raise_icache (b p : Nat) : (s.raise b p).icache = s.icache := rfl
@[simp] theorem State.raise_waits (b p : Nat) : (s.raise b p).waits = s.waits := rfl
@[simp] theorem State.raise_roles (b p : Nat) : (s.raise b p).roles = s.roles := rfl
@[simp] theorem State.raise_roleChg (b p : Nat) : (s.raise b p).roleChg = s.roleChg := rfl
@[simp] theorem State.raise_sliceMap (b p : Nat) : (s.raise b p).sliceMap = s.sliceMap := rfl
@[simp] theorem State.raise_oldMap (b p : Nat) : (s.raise b p).oldMap = s.oldMap := rfl
@[simp] theorem State.raise_mapGen (b p : Nat) : (s.raise b p).mapGen = s.mapGen := rfl
@[simp] theorem State.raise_stalePorts (b p : Nat) : (s.raise b p).stalePorts = s.stalePorts := rfl
@[simp] theorem State.raise_deques (b p : Nat) : (s.raise b p).deques = s.deques := rfl
@[simp] theorem State.raise_spills (b p : Nat) : (s.raise b p).spills = s.spills := rfl
@[simp] theorem State.raise_rr (b p : Nat) : (s.raise b p).rr = s.rr := rfl
@[simp] theorem State.raise_stealTurn (b p : Nat) : (s.raise b p).stealTurn = s.stealTurn := rfl
@[simp] theorem State.raise_stealRuns (b p : Nat) : (s.raise b p).stealRuns = s.stealRuns := rfl
@[simp] theorem State.raise_arrivals (b p : Nat) : (s.raise b p).arrivals = s.arrivals := rfl
@[simp] theorem State.raise_arrSpill (b p : Nat) : (s.raise b p).arrSpill = s.arrSpill := rfl
@[simp] theorem State.raise_parkedRec (b p : Nat) : (s.raise b p).parkedRec = s.parkedRec := rfl
@[simp] theorem State.raise_residents (b p : Nat) : (s.raise b p).residents = s.residents := rfl
@[simp] theorem State.raise_evicted (b p : Nat) : (s.raise b p).evicted = s.evicted := rfl
@[simp] theorem State.raise_bubbles (b p : Nat) : (s.raise b p).bubbles = s.bubbles := rfl
@[simp] theorem State.raise_chans (b p : Nat) : (s.raise b p).chans = s.chans := rfl
@[simp] theorem State.raise_counters (b p : Nat) : (s.raise b p).counters = s.counters := rfl
@[simp] theorem State.raise_nextCmd (b p : Nat) : (s.raise b p).nextCmd = s.nextCmd := rfl
@[simp] theorem State.raise_bars (b p : Nat) : (s.raise b p).bars = s.bars := rfl
@[simp] theorem State.raise_mgangs (b p : Nat) : (s.raise b p).mgangs = s.mgangs := rfl
@[simp] theorem State.raise_vgangs (b p : Nat) : (s.raise b p).vgangs = s.vgangs := rfl
@[simp] theorem State.raise_assays (b p : Nat) : (s.raise b p).assays = s.assays := rfl
@[simp] theorem State.raise_nets (b p : Nat) : (s.raise b p).nets = s.nets := rfl
@[simp] theorem State.raise_netqs (b p : Nat) : (s.raise b p).netqs = s.netqs := rfl
@[simp] theorem State.raise_mints (b p : Nat) : (s.raise b p).mints = s.mints := rfl
@[simp] theorem State.raise_launches (b p : Nat) : (s.raise b p).launches = s.launches := rfl
@[simp] theorem State.raise_msgs (b p : Nat) : (s.raise b p).msgs = s.msgs := rfl
@[simp] theorem State.raise_poolDry (b p : Nat) : (s.raise b p).poolDry = s.poolDry := rfl
@[simp] theorem State.raise_suspense (b p : Nat) : (s.raise b p).suspense = s.suspense := rfl
@[simp] theorem State.raise_owner (b p : Nat) : (s.raise b p).owner = s.owner := rfl
@[simp] theorem State.raise_acl (b p : Nat) : (s.raise b p).acl = s.acl := rfl
@[simp] theorem State.raise_resBase (b p : Nat) : (s.raise b p).resBase = s.resBase := rfl
@[simp] theorem State.raise_resSize (b p : Nat) : (s.raise b p).resSize = s.resSize := rfl
@[simp] theorem State.raise_bar2 (b p : Nat) : (s.raise b p).bar2 = s.bar2 := rfl
@[simp] theorem State.raise_peers (b p : Nat) : (s.raise b p).peers = s.peers := rfl
@[simp] theorem State.raise_fused (b p : Nat) : (s.raise b p).fused = s.fused := rfl
@[simp] theorem State.raise_purseHeld (b p : Nat) : (s.raise b p).purseHeld = s.purseHeld := rfl
@[simp] theorem State.raise_cmdqs (b p : Nat) : (s.raise b p).cmdqs = s.cmdqs := rfl
@[simp] theorem State.raise_polled (b p : Nat) : (s.raise b p).polled = s.polled := rfl
@[simp] theorem State.raise_journal (b p : Nat) : (s.raise b p).journal = s.journal := rfl
@[simp] theorem State.raise_jseq (b p : Nat) : (s.raise b p).jseq = s.jseq := rfl
@[simp] theorem State.raise_lastCmd (b p : Nat) : (s.raise b p).lastCmd = s.lastCmd := rfl
@[simp] theorem State.raise_replies (b p : Nat) : (s.raise b p).replies = s.replies := rfl
@[simp] theorem State.raise_hostMode (b p : Nat) : (s.raise b p).hostMode = s.hostMode := rfl
@[simp] theorem State.raise_span (b p : Nat) : (s.raise b p).span = s.span := rfl
@[simp] theorem State.raise_refusedW (b p : Nat) : (s.raise b p).refusedW = s.refusedW := rfl
@[simp] theorem State.raise_points (b p : Nat) : (s.raise b p).points = s.points := rfl
@[simp] theorem State.raise_throttled (b p : Nat) : (s.raise b p).throttled = s.throttled := rfl
@[simp] theorem State.raise_capped (b p : Nat) : (s.raise b p).capped = s.capped := rfl
@[simp] theorem State.raise_powerCap (b p : Nat) : (s.raise b p).powerCap = s.powerCap := rfl
@[simp] theorem State.raise_power (b p : Nat) : (s.raise b p).power = s.power := rfl
@[simp] theorem State.raise_fwActive (b p : Nat) : (s.raise b p).fwActive = s.fwActive := rfl
@[simp] theorem State.raise_fwInactive (b p : Nat) : (s.raise b p).fwInactive = s.fwInactive := rfl
@[simp] theorem State.raise_fwPending (b p : Nat) : (s.raise b p).fwPending = s.fwPending := rfl
@[simp] theorem State.raise_fwVersion (b p : Nat) : (s.raise b p).fwVersion = s.fwVersion := rfl
@[simp] theorem State.raise_rollback (b p : Nat) : (s.raise b p).rollback = s.rollback := rfl
@[simp] theorem State.raise_perf (b p : Nat) : (s.raise b p).perf = s.perf := rfl
@[simp] theorem State.raise_perfSnap (b p : Nat) : (s.raise b p).perfSnap = s.perfSnap := rfl

/-! ### setNetq -/

@[simp] theorem State.setNetq_agenda (n q : Nat) (x : NetQuad) : (s.setNetq n q x).agenda = s.agenda := rfl
@[simp] theorem State.setNetq_turn (n q : Nat) (x : NetQuad) : (s.setNetq n q x).turn = s.turn := rfl
@[simp] theorem State.setNetq_cur (n q : Nat) (x : NetQuad) : (s.setNetq n q x).cur = s.cur := rfl
@[simp] theorem State.setNetq_tape (n q : Nat) (x : NetQuad) : (s.setNetq n q x).tape = s.tape := rfl
@[simp] theorem State.setNetq_nfree (n q : Nat) (x : NetQuad) : (s.setNetq n q x).nfree = s.nfree := rfl
@[simp] theorem State.setNetq_nextTid (n q : Nat) (x : NetQuad) : (s.setNetq n q x).nextTid = s.nextTid := rfl
@[simp] theorem State.setNetq_nextArr (n q : Nat) (x : NetQuad) : (s.setNetq n q x).nextArr = s.nextArr := rfl
@[simp] theorem State.setNetq_linkBudget (n q : Nat) (x : NetQuad) : (s.setNetq n q x).linkBudget = s.linkBudget := rfl
@[simp] theorem State.setNetq_clock (n q : Nat) (x : NetQuad) : (s.setNetq n q x).clock = s.clock := rfl
@[simp] theorem State.setNetq_wallBase (n q : Nat) (x : NetQuad) : (s.setNetq n q x).wallBase = s.wallBase := rfl
@[simp] theorem State.setNetq_dieLost (n q : Nat) (x : NetQuad) : (s.setNetq n q x).dieLost = s.dieLost := rfl
@[simp] theorem State.setNetq_served (n q : Nat) (x : NetQuad) : (s.setNetq n q x).served = s.served := rfl
@[simp] theorem State.setNetq_lastIssue (n q : Nat) (x : NetQuad) : (s.setNetq n q x).lastIssue = s.lastIssue := rfl
@[simp] theorem State.setNetq_mem (n q : Nat) (x : NetQuad) : (s.setNetq n q x).mem = s.mem := rfl
@[simp] theorem State.setNetq_empties (n q : Nat) (x : NetQuad) : (s.setNetq n q x).empties = s.empties := rfl
@[simp] theorem State.setNetq_poison (n q : Nat) (x : NetQuad) : (s.setNetq n q x).poison = s.poison := rfl
@[simp] theorem State.setNetq_stores (n q : Nat) (x : NetQuad) : (s.setNetq n q x).stores = s.stores := rfl
@[simp] theorem State.setNetq_lines (n q : Nat) (x : NetQuad) : (s.setNetq n q x).lines = s.lines := rfl
@[simp] theorem State.setNetq_copies (n q : Nat) (x : NetQuad) : (s.setNetq n q x).copies = s.copies := rfl
@[simp] theorem State.setNetq_tlb (n q : Nat) (x : NetQuad) : (s.setNetq n q x).tlb = s.tlb := rfl
@[simp] theorem State.setNetq_icache (n q : Nat) (x : NetQuad) : (s.setNetq n q x).icache = s.icache := rfl
@[simp] theorem State.setNetq_waits (n q : Nat) (x : NetQuad) : (s.setNetq n q x).waits = s.waits := rfl
@[simp] theorem State.setNetq_roles (n q : Nat) (x : NetQuad) : (s.setNetq n q x).roles = s.roles := rfl
@[simp] theorem State.setNetq_roleChg (n q : Nat) (x : NetQuad) : (s.setNetq n q x).roleChg = s.roleChg := rfl
@[simp] theorem State.setNetq_sliceMap (n q : Nat) (x : NetQuad) : (s.setNetq n q x).sliceMap = s.sliceMap := rfl
@[simp] theorem State.setNetq_oldMap (n q : Nat) (x : NetQuad) : (s.setNetq n q x).oldMap = s.oldMap := rfl
@[simp] theorem State.setNetq_mapGen (n q : Nat) (x : NetQuad) : (s.setNetq n q x).mapGen = s.mapGen := rfl
@[simp] theorem State.setNetq_stalePorts (n q : Nat) (x : NetQuad) : (s.setNetq n q x).stalePorts = s.stalePorts := rfl
@[simp] theorem State.setNetq_floors (n q : Nat) (x : NetQuad) : (s.setNetq n q x).floors = s.floors := rfl
@[simp] theorem State.setNetq_deques (n q : Nat) (x : NetQuad) : (s.setNetq n q x).deques = s.deques := rfl
@[simp] theorem State.setNetq_spills (n q : Nat) (x : NetQuad) : (s.setNetq n q x).spills = s.spills := rfl
@[simp] theorem State.setNetq_rr (n q : Nat) (x : NetQuad) : (s.setNetq n q x).rr = s.rr := rfl
@[simp] theorem State.setNetq_stealTurn (n q : Nat) (x : NetQuad) : (s.setNetq n q x).stealTurn = s.stealTurn := rfl
@[simp] theorem State.setNetq_stealRuns (n q : Nat) (x : NetQuad) : (s.setNetq n q x).stealRuns = s.stealRuns := rfl
@[simp] theorem State.setNetq_arrivals (n q : Nat) (x : NetQuad) : (s.setNetq n q x).arrivals = s.arrivals := rfl
@[simp] theorem State.setNetq_arrSpill (n q : Nat) (x : NetQuad) : (s.setNetq n q x).arrSpill = s.arrSpill := rfl
@[simp] theorem State.setNetq_parkedRec (n q : Nat) (x : NetQuad) : (s.setNetq n q x).parkedRec = s.parkedRec := rfl
@[simp] theorem State.setNetq_berths (n q : Nat) (x : NetQuad) : (s.setNetq n q x).berths = s.berths := rfl
@[simp] theorem State.setNetq_residents (n q : Nat) (x : NetQuad) : (s.setNetq n q x).residents = s.residents := rfl
@[simp] theorem State.setNetq_evicted (n q : Nat) (x : NetQuad) : (s.setNetq n q x).evicted = s.evicted := rfl
@[simp] theorem State.setNetq_bubbles (n q : Nat) (x : NetQuad) : (s.setNetq n q x).bubbles = s.bubbles := rfl
@[simp] theorem State.setNetq_chans (n q : Nat) (x : NetQuad) : (s.setNetq n q x).chans = s.chans := rfl
@[simp] theorem State.setNetq_counters (n q : Nat) (x : NetQuad) : (s.setNetq n q x).counters = s.counters := rfl
@[simp] theorem State.setNetq_nextCmd (n q : Nat) (x : NetQuad) : (s.setNetq n q x).nextCmd = s.nextCmd := rfl
@[simp] theorem State.setNetq_bars (n q : Nat) (x : NetQuad) : (s.setNetq n q x).bars = s.bars := rfl
@[simp] theorem State.setNetq_mgangs (n q : Nat) (x : NetQuad) : (s.setNetq n q x).mgangs = s.mgangs := rfl
@[simp] theorem State.setNetq_vgangs (n q : Nat) (x : NetQuad) : (s.setNetq n q x).vgangs = s.vgangs := rfl
@[simp] theorem State.setNetq_assays (n q : Nat) (x : NetQuad) : (s.setNetq n q x).assays = s.assays := rfl
@[simp] theorem State.setNetq_nets (n q : Nat) (x : NetQuad) : (s.setNetq n q x).nets = s.nets := rfl
@[simp] theorem State.setNetq_mints (n q : Nat) (x : NetQuad) : (s.setNetq n q x).mints = s.mints := rfl
@[simp] theorem State.setNetq_launches (n q : Nat) (x : NetQuad) : (s.setNetq n q x).launches = s.launches := rfl
@[simp] theorem State.setNetq_msgs (n q : Nat) (x : NetQuad) : (s.setNetq n q x).msgs = s.msgs := rfl
@[simp] theorem State.setNetq_poolDry (n q : Nat) (x : NetQuad) : (s.setNetq n q x).poolDry = s.poolDry := rfl
@[simp] theorem State.setNetq_suspense (n q : Nat) (x : NetQuad) : (s.setNetq n q x).suspense = s.suspense := rfl
@[simp] theorem State.setNetq_owner (n q : Nat) (x : NetQuad) : (s.setNetq n q x).owner = s.owner := rfl
@[simp] theorem State.setNetq_acl (n q : Nat) (x : NetQuad) : (s.setNetq n q x).acl = s.acl := rfl
@[simp] theorem State.setNetq_resBase (n q : Nat) (x : NetQuad) : (s.setNetq n q x).resBase = s.resBase := rfl
@[simp] theorem State.setNetq_resSize (n q : Nat) (x : NetQuad) : (s.setNetq n q x).resSize = s.resSize := rfl
@[simp] theorem State.setNetq_bar2 (n q : Nat) (x : NetQuad) : (s.setNetq n q x).bar2 = s.bar2 := rfl
@[simp] theorem State.setNetq_peers (n q : Nat) (x : NetQuad) : (s.setNetq n q x).peers = s.peers := rfl
@[simp] theorem State.setNetq_fused (n q : Nat) (x : NetQuad) : (s.setNetq n q x).fused = s.fused := rfl
@[simp] theorem State.setNetq_purseHeld (n q : Nat) (x : NetQuad) : (s.setNetq n q x).purseHeld = s.purseHeld := rfl
@[simp] theorem State.setNetq_cmdqs (n q : Nat) (x : NetQuad) : (s.setNetq n q x).cmdqs = s.cmdqs := rfl
@[simp] theorem State.setNetq_polled (n q : Nat) (x : NetQuad) : (s.setNetq n q x).polled = s.polled := rfl
@[simp] theorem State.setNetq_journal (n q : Nat) (x : NetQuad) : (s.setNetq n q x).journal = s.journal := rfl
@[simp] theorem State.setNetq_jseq (n q : Nat) (x : NetQuad) : (s.setNetq n q x).jseq = s.jseq := rfl
@[simp] theorem State.setNetq_lastCmd (n q : Nat) (x : NetQuad) : (s.setNetq n q x).lastCmd = s.lastCmd := rfl
@[simp] theorem State.setNetq_replies (n q : Nat) (x : NetQuad) : (s.setNetq n q x).replies = s.replies := rfl
@[simp] theorem State.setNetq_hostMode (n q : Nat) (x : NetQuad) : (s.setNetq n q x).hostMode = s.hostMode := rfl
@[simp] theorem State.setNetq_span (n q : Nat) (x : NetQuad) : (s.setNetq n q x).span = s.span := rfl
@[simp] theorem State.setNetq_refusedW (n q : Nat) (x : NetQuad) : (s.setNetq n q x).refusedW = s.refusedW := rfl
@[simp] theorem State.setNetq_points (n q : Nat) (x : NetQuad) : (s.setNetq n q x).points = s.points := rfl
@[simp] theorem State.setNetq_throttled (n q : Nat) (x : NetQuad) : (s.setNetq n q x).throttled = s.throttled := rfl
@[simp] theorem State.setNetq_capped (n q : Nat) (x : NetQuad) : (s.setNetq n q x).capped = s.capped := rfl
@[simp] theorem State.setNetq_powerCap (n q : Nat) (x : NetQuad) : (s.setNetq n q x).powerCap = s.powerCap := rfl
@[simp] theorem State.setNetq_power (n q : Nat) (x : NetQuad) : (s.setNetq n q x).power = s.power := rfl
@[simp] theorem State.setNetq_fwActive (n q : Nat) (x : NetQuad) : (s.setNetq n q x).fwActive = s.fwActive := rfl
@[simp] theorem State.setNetq_fwInactive (n q : Nat) (x : NetQuad) : (s.setNetq n q x).fwInactive = s.fwInactive := rfl
@[simp] theorem State.setNetq_fwPending (n q : Nat) (x : NetQuad) : (s.setNetq n q x).fwPending = s.fwPending := rfl
@[simp] theorem State.setNetq_fwVersion (n q : Nat) (x : NetQuad) : (s.setNetq n q x).fwVersion = s.fwVersion := rfl
@[simp] theorem State.setNetq_rollback (n q : Nat) (x : NetQuad) : (s.setNetq n q x).rollback = s.rollback := rfl
@[simp] theorem State.setNetq_perf (n q : Nat) (x : NetQuad) : (s.setNetq n q x).perf = s.perf := rfl
@[simp] theorem State.setNetq_perfSnap (n q : Nat) (x : NetQuad) : (s.setNetq n q x).perfSnap = s.perfSnap := rfl

/-! ### setDeque -/

@[simp] theorem State.setDeque_agenda (q : Nat) (l : List Rec) : (s.setDeque q l).agenda = s.agenda := rfl
@[simp] theorem State.setDeque_turn (q : Nat) (l : List Rec) : (s.setDeque q l).turn = s.turn := rfl
@[simp] theorem State.setDeque_cur (q : Nat) (l : List Rec) : (s.setDeque q l).cur = s.cur := rfl
@[simp] theorem State.setDeque_tape (q : Nat) (l : List Rec) : (s.setDeque q l).tape = s.tape := rfl
@[simp] theorem State.setDeque_nfree (q : Nat) (l : List Rec) : (s.setDeque q l).nfree = s.nfree := rfl
@[simp] theorem State.setDeque_nextTid (q : Nat) (l : List Rec) : (s.setDeque q l).nextTid = s.nextTid := rfl
@[simp] theorem State.setDeque_nextArr (q : Nat) (l : List Rec) : (s.setDeque q l).nextArr = s.nextArr := rfl
@[simp] theorem State.setDeque_linkBudget (q : Nat) (l : List Rec) : (s.setDeque q l).linkBudget = s.linkBudget := rfl
@[simp] theorem State.setDeque_clock (q : Nat) (l : List Rec) : (s.setDeque q l).clock = s.clock := rfl
@[simp] theorem State.setDeque_wallBase (q : Nat) (l : List Rec) : (s.setDeque q l).wallBase = s.wallBase := rfl
@[simp] theorem State.setDeque_dieLost (q : Nat) (l : List Rec) : (s.setDeque q l).dieLost = s.dieLost := rfl
@[simp] theorem State.setDeque_served (q : Nat) (l : List Rec) : (s.setDeque q l).served = s.served := rfl
@[simp] theorem State.setDeque_lastIssue (q : Nat) (l : List Rec) : (s.setDeque q l).lastIssue = s.lastIssue := rfl
@[simp] theorem State.setDeque_mem (q : Nat) (l : List Rec) : (s.setDeque q l).mem = s.mem := rfl
@[simp] theorem State.setDeque_empties (q : Nat) (l : List Rec) : (s.setDeque q l).empties = s.empties := rfl
@[simp] theorem State.setDeque_poison (q : Nat) (l : List Rec) : (s.setDeque q l).poison = s.poison := rfl
@[simp] theorem State.setDeque_stores (q : Nat) (l : List Rec) : (s.setDeque q l).stores = s.stores := rfl
@[simp] theorem State.setDeque_lines (q : Nat) (l : List Rec) : (s.setDeque q l).lines = s.lines := rfl
@[simp] theorem State.setDeque_copies (q : Nat) (l : List Rec) : (s.setDeque q l).copies = s.copies := rfl
@[simp] theorem State.setDeque_tlb (q : Nat) (l : List Rec) : (s.setDeque q l).tlb = s.tlb := rfl
@[simp] theorem State.setDeque_icache (q : Nat) (l : List Rec) : (s.setDeque q l).icache = s.icache := rfl
@[simp] theorem State.setDeque_waits (q : Nat) (l : List Rec) : (s.setDeque q l).waits = s.waits := rfl
@[simp] theorem State.setDeque_roles (q : Nat) (l : List Rec) : (s.setDeque q l).roles = s.roles := rfl
@[simp] theorem State.setDeque_roleChg (q : Nat) (l : List Rec) : (s.setDeque q l).roleChg = s.roleChg := rfl
@[simp] theorem State.setDeque_sliceMap (q : Nat) (l : List Rec) : (s.setDeque q l).sliceMap = s.sliceMap := rfl
@[simp] theorem State.setDeque_oldMap (q : Nat) (l : List Rec) : (s.setDeque q l).oldMap = s.oldMap := rfl
@[simp] theorem State.setDeque_mapGen (q : Nat) (l : List Rec) : (s.setDeque q l).mapGen = s.mapGen := rfl
@[simp] theorem State.setDeque_stalePorts (q : Nat) (l : List Rec) : (s.setDeque q l).stalePorts = s.stalePorts := rfl
@[simp] theorem State.setDeque_floors (q : Nat) (l : List Rec) : (s.setDeque q l).floors = s.floors := rfl
@[simp] theorem State.setDeque_spills (q : Nat) (l : List Rec) : (s.setDeque q l).spills = s.spills := rfl
@[simp] theorem State.setDeque_rr (q : Nat) (l : List Rec) : (s.setDeque q l).rr = s.rr := rfl
@[simp] theorem State.setDeque_stealTurn (q : Nat) (l : List Rec) : (s.setDeque q l).stealTurn = s.stealTurn := rfl
@[simp] theorem State.setDeque_stealRuns (q : Nat) (l : List Rec) : (s.setDeque q l).stealRuns = s.stealRuns := rfl
@[simp] theorem State.setDeque_arrivals (q : Nat) (l : List Rec) : (s.setDeque q l).arrivals = s.arrivals := rfl
@[simp] theorem State.setDeque_arrSpill (q : Nat) (l : List Rec) : (s.setDeque q l).arrSpill = s.arrSpill := rfl
@[simp] theorem State.setDeque_parkedRec (q : Nat) (l : List Rec) : (s.setDeque q l).parkedRec = s.parkedRec := rfl
@[simp] theorem State.setDeque_berths (q : Nat) (l : List Rec) : (s.setDeque q l).berths = s.berths := rfl
@[simp] theorem State.setDeque_residents (q : Nat) (l : List Rec) : (s.setDeque q l).residents = s.residents := rfl
@[simp] theorem State.setDeque_evicted (q : Nat) (l : List Rec) : (s.setDeque q l).evicted = s.evicted := rfl
@[simp] theorem State.setDeque_bubbles (q : Nat) (l : List Rec) : (s.setDeque q l).bubbles = s.bubbles := rfl
@[simp] theorem State.setDeque_chans (q : Nat) (l : List Rec) : (s.setDeque q l).chans = s.chans := rfl
@[simp] theorem State.setDeque_counters (q : Nat) (l : List Rec) : (s.setDeque q l).counters = s.counters := rfl
@[simp] theorem State.setDeque_nextCmd (q : Nat) (l : List Rec) : (s.setDeque q l).nextCmd = s.nextCmd := rfl
@[simp] theorem State.setDeque_bars (q : Nat) (l : List Rec) : (s.setDeque q l).bars = s.bars := rfl
@[simp] theorem State.setDeque_mgangs (q : Nat) (l : List Rec) : (s.setDeque q l).mgangs = s.mgangs := rfl
@[simp] theorem State.setDeque_vgangs (q : Nat) (l : List Rec) : (s.setDeque q l).vgangs = s.vgangs := rfl
@[simp] theorem State.setDeque_assays (q : Nat) (l : List Rec) : (s.setDeque q l).assays = s.assays := rfl
@[simp] theorem State.setDeque_nets (q : Nat) (l : List Rec) : (s.setDeque q l).nets = s.nets := rfl
@[simp] theorem State.setDeque_netqs (q : Nat) (l : List Rec) : (s.setDeque q l).netqs = s.netqs := rfl
@[simp] theorem State.setDeque_mints (q : Nat) (l : List Rec) : (s.setDeque q l).mints = s.mints := rfl
@[simp] theorem State.setDeque_launches (q : Nat) (l : List Rec) : (s.setDeque q l).launches = s.launches := rfl
@[simp] theorem State.setDeque_msgs (q : Nat) (l : List Rec) : (s.setDeque q l).msgs = s.msgs := rfl
@[simp] theorem State.setDeque_poolDry (q : Nat) (l : List Rec) : (s.setDeque q l).poolDry = s.poolDry := rfl
@[simp] theorem State.setDeque_suspense (q : Nat) (l : List Rec) : (s.setDeque q l).suspense = s.suspense := rfl
@[simp] theorem State.setDeque_owner (q : Nat) (l : List Rec) : (s.setDeque q l).owner = s.owner := rfl
@[simp] theorem State.setDeque_acl (q : Nat) (l : List Rec) : (s.setDeque q l).acl = s.acl := rfl
@[simp] theorem State.setDeque_resBase (q : Nat) (l : List Rec) : (s.setDeque q l).resBase = s.resBase := rfl
@[simp] theorem State.setDeque_resSize (q : Nat) (l : List Rec) : (s.setDeque q l).resSize = s.resSize := rfl
@[simp] theorem State.setDeque_bar2 (q : Nat) (l : List Rec) : (s.setDeque q l).bar2 = s.bar2 := rfl
@[simp] theorem State.setDeque_peers (q : Nat) (l : List Rec) : (s.setDeque q l).peers = s.peers := rfl
@[simp] theorem State.setDeque_fused (q : Nat) (l : List Rec) : (s.setDeque q l).fused = s.fused := rfl
@[simp] theorem State.setDeque_purseHeld (q : Nat) (l : List Rec) : (s.setDeque q l).purseHeld = s.purseHeld := rfl
@[simp] theorem State.setDeque_cmdqs (q : Nat) (l : List Rec) : (s.setDeque q l).cmdqs = s.cmdqs := rfl
@[simp] theorem State.setDeque_polled (q : Nat) (l : List Rec) : (s.setDeque q l).polled = s.polled := rfl
@[simp] theorem State.setDeque_journal (q : Nat) (l : List Rec) : (s.setDeque q l).journal = s.journal := rfl
@[simp] theorem State.setDeque_jseq (q : Nat) (l : List Rec) : (s.setDeque q l).jseq = s.jseq := rfl
@[simp] theorem State.setDeque_lastCmd (q : Nat) (l : List Rec) : (s.setDeque q l).lastCmd = s.lastCmd := rfl
@[simp] theorem State.setDeque_replies (q : Nat) (l : List Rec) : (s.setDeque q l).replies = s.replies := rfl
@[simp] theorem State.setDeque_hostMode (q : Nat) (l : List Rec) : (s.setDeque q l).hostMode = s.hostMode := rfl
@[simp] theorem State.setDeque_span (q : Nat) (l : List Rec) : (s.setDeque q l).span = s.span := rfl
@[simp] theorem State.setDeque_refusedW (q : Nat) (l : List Rec) : (s.setDeque q l).refusedW = s.refusedW := rfl
@[simp] theorem State.setDeque_points (q : Nat) (l : List Rec) : (s.setDeque q l).points = s.points := rfl
@[simp] theorem State.setDeque_throttled (q : Nat) (l : List Rec) : (s.setDeque q l).throttled = s.throttled := rfl
@[simp] theorem State.setDeque_capped (q : Nat) (l : List Rec) : (s.setDeque q l).capped = s.capped := rfl
@[simp] theorem State.setDeque_powerCap (q : Nat) (l : List Rec) : (s.setDeque q l).powerCap = s.powerCap := rfl
@[simp] theorem State.setDeque_power (q : Nat) (l : List Rec) : (s.setDeque q l).power = s.power := rfl
@[simp] theorem State.setDeque_fwActive (q : Nat) (l : List Rec) : (s.setDeque q l).fwActive = s.fwActive := rfl
@[simp] theorem State.setDeque_fwInactive (q : Nat) (l : List Rec) : (s.setDeque q l).fwInactive = s.fwInactive := rfl
@[simp] theorem State.setDeque_fwPending (q : Nat) (l : List Rec) : (s.setDeque q l).fwPending = s.fwPending := rfl
@[simp] theorem State.setDeque_fwVersion (q : Nat) (l : List Rec) : (s.setDeque q l).fwVersion = s.fwVersion := rfl
@[simp] theorem State.setDeque_rollback (q : Nat) (l : List Rec) : (s.setDeque q l).rollback = s.rollback := rfl
@[simp] theorem State.setDeque_perf (q : Nat) (l : List Rec) : (s.setDeque q l).perf = s.perf := rfl
@[simp] theorem State.setDeque_perfSnap (q : Nat) (l : List Rec) : (s.setDeque q l).perfSnap = s.perfSnap := rfl

/-! ### setSpill -/

@[simp] theorem State.setSpill_agenda (q : Nat) (l : List (Nat × List Rec)) : (s.setSpill q l).agenda = s.agenda := rfl
@[simp] theorem State.setSpill_turn (q : Nat) (l : List (Nat × List Rec)) : (s.setSpill q l).turn = s.turn := rfl
@[simp] theorem State.setSpill_cur (q : Nat) (l : List (Nat × List Rec)) : (s.setSpill q l).cur = s.cur := rfl
@[simp] theorem State.setSpill_tape (q : Nat) (l : List (Nat × List Rec)) : (s.setSpill q l).tape = s.tape := rfl
@[simp] theorem State.setSpill_nfree (q : Nat) (l : List (Nat × List Rec)) : (s.setSpill q l).nfree = s.nfree := rfl
@[simp] theorem State.setSpill_nextTid (q : Nat) (l : List (Nat × List Rec)) : (s.setSpill q l).nextTid = s.nextTid := rfl
@[simp] theorem State.setSpill_nextArr (q : Nat) (l : List (Nat × List Rec)) : (s.setSpill q l).nextArr = s.nextArr := rfl
@[simp] theorem State.setSpill_linkBudget (q : Nat) (l : List (Nat × List Rec)) : (s.setSpill q l).linkBudget = s.linkBudget := rfl
@[simp] theorem State.setSpill_clock (q : Nat) (l : List (Nat × List Rec)) : (s.setSpill q l).clock = s.clock := rfl
@[simp] theorem State.setSpill_wallBase (q : Nat) (l : List (Nat × List Rec)) : (s.setSpill q l).wallBase = s.wallBase := rfl
@[simp] theorem State.setSpill_dieLost (q : Nat) (l : List (Nat × List Rec)) : (s.setSpill q l).dieLost = s.dieLost := rfl
@[simp] theorem State.setSpill_served (q : Nat) (l : List (Nat × List Rec)) : (s.setSpill q l).served = s.served := rfl
@[simp] theorem State.setSpill_lastIssue (q : Nat) (l : List (Nat × List Rec)) : (s.setSpill q l).lastIssue = s.lastIssue := rfl
@[simp] theorem State.setSpill_mem (q : Nat) (l : List (Nat × List Rec)) : (s.setSpill q l).mem = s.mem := rfl
@[simp] theorem State.setSpill_empties (q : Nat) (l : List (Nat × List Rec)) : (s.setSpill q l).empties = s.empties := rfl
@[simp] theorem State.setSpill_poison (q : Nat) (l : List (Nat × List Rec)) : (s.setSpill q l).poison = s.poison := rfl
@[simp] theorem State.setSpill_stores (q : Nat) (l : List (Nat × List Rec)) : (s.setSpill q l).stores = s.stores := rfl
@[simp] theorem State.setSpill_lines (q : Nat) (l : List (Nat × List Rec)) : (s.setSpill q l).lines = s.lines := rfl
@[simp] theorem State.setSpill_copies (q : Nat) (l : List (Nat × List Rec)) : (s.setSpill q l).copies = s.copies := rfl
@[simp] theorem State.setSpill_tlb (q : Nat) (l : List (Nat × List Rec)) : (s.setSpill q l).tlb = s.tlb := rfl
@[simp] theorem State.setSpill_icache (q : Nat) (l : List (Nat × List Rec)) : (s.setSpill q l).icache = s.icache := rfl
@[simp] theorem State.setSpill_waits (q : Nat) (l : List (Nat × List Rec)) : (s.setSpill q l).waits = s.waits := rfl
@[simp] theorem State.setSpill_roles (q : Nat) (l : List (Nat × List Rec)) : (s.setSpill q l).roles = s.roles := rfl
@[simp] theorem State.setSpill_roleChg (q : Nat) (l : List (Nat × List Rec)) : (s.setSpill q l).roleChg = s.roleChg := rfl
@[simp] theorem State.setSpill_sliceMap (q : Nat) (l : List (Nat × List Rec)) : (s.setSpill q l).sliceMap = s.sliceMap := rfl
@[simp] theorem State.setSpill_oldMap (q : Nat) (l : List (Nat × List Rec)) : (s.setSpill q l).oldMap = s.oldMap := rfl
@[simp] theorem State.setSpill_mapGen (q : Nat) (l : List (Nat × List Rec)) : (s.setSpill q l).mapGen = s.mapGen := rfl
@[simp] theorem State.setSpill_stalePorts (q : Nat) (l : List (Nat × List Rec)) : (s.setSpill q l).stalePorts = s.stalePorts := rfl
@[simp] theorem State.setSpill_floors (q : Nat) (l : List (Nat × List Rec)) : (s.setSpill q l).floors = s.floors := rfl
@[simp] theorem State.setSpill_deques (q : Nat) (l : List (Nat × List Rec)) : (s.setSpill q l).deques = s.deques := rfl
@[simp] theorem State.setSpill_rr (q : Nat) (l : List (Nat × List Rec)) : (s.setSpill q l).rr = s.rr := rfl
@[simp] theorem State.setSpill_stealTurn (q : Nat) (l : List (Nat × List Rec)) : (s.setSpill q l).stealTurn = s.stealTurn := rfl
@[simp] theorem State.setSpill_stealRuns (q : Nat) (l : List (Nat × List Rec)) : (s.setSpill q l).stealRuns = s.stealRuns := rfl
@[simp] theorem State.setSpill_arrivals (q : Nat) (l : List (Nat × List Rec)) : (s.setSpill q l).arrivals = s.arrivals := rfl
@[simp] theorem State.setSpill_arrSpill (q : Nat) (l : List (Nat × List Rec)) : (s.setSpill q l).arrSpill = s.arrSpill := rfl
@[simp] theorem State.setSpill_parkedRec (q : Nat) (l : List (Nat × List Rec)) : (s.setSpill q l).parkedRec = s.parkedRec := rfl
@[simp] theorem State.setSpill_berths (q : Nat) (l : List (Nat × List Rec)) : (s.setSpill q l).berths = s.berths := rfl
@[simp] theorem State.setSpill_residents (q : Nat) (l : List (Nat × List Rec)) : (s.setSpill q l).residents = s.residents := rfl
@[simp] theorem State.setSpill_evicted (q : Nat) (l : List (Nat × List Rec)) : (s.setSpill q l).evicted = s.evicted := rfl
@[simp] theorem State.setSpill_bubbles (q : Nat) (l : List (Nat × List Rec)) : (s.setSpill q l).bubbles = s.bubbles := rfl
@[simp] theorem State.setSpill_chans (q : Nat) (l : List (Nat × List Rec)) : (s.setSpill q l).chans = s.chans := rfl
@[simp] theorem State.setSpill_counters (q : Nat) (l : List (Nat × List Rec)) : (s.setSpill q l).counters = s.counters := rfl
@[simp] theorem State.setSpill_nextCmd (q : Nat) (l : List (Nat × List Rec)) : (s.setSpill q l).nextCmd = s.nextCmd := rfl
@[simp] theorem State.setSpill_bars (q : Nat) (l : List (Nat × List Rec)) : (s.setSpill q l).bars = s.bars := rfl
@[simp] theorem State.setSpill_mgangs (q : Nat) (l : List (Nat × List Rec)) : (s.setSpill q l).mgangs = s.mgangs := rfl
@[simp] theorem State.setSpill_vgangs (q : Nat) (l : List (Nat × List Rec)) : (s.setSpill q l).vgangs = s.vgangs := rfl
@[simp] theorem State.setSpill_assays (q : Nat) (l : List (Nat × List Rec)) : (s.setSpill q l).assays = s.assays := rfl
@[simp] theorem State.setSpill_nets (q : Nat) (l : List (Nat × List Rec)) : (s.setSpill q l).nets = s.nets := rfl
@[simp] theorem State.setSpill_netqs (q : Nat) (l : List (Nat × List Rec)) : (s.setSpill q l).netqs = s.netqs := rfl
@[simp] theorem State.setSpill_mints (q : Nat) (l : List (Nat × List Rec)) : (s.setSpill q l).mints = s.mints := rfl
@[simp] theorem State.setSpill_launches (q : Nat) (l : List (Nat × List Rec)) : (s.setSpill q l).launches = s.launches := rfl
@[simp] theorem State.setSpill_msgs (q : Nat) (l : List (Nat × List Rec)) : (s.setSpill q l).msgs = s.msgs := rfl
@[simp] theorem State.setSpill_poolDry (q : Nat) (l : List (Nat × List Rec)) : (s.setSpill q l).poolDry = s.poolDry := rfl
@[simp] theorem State.setSpill_suspense (q : Nat) (l : List (Nat × List Rec)) : (s.setSpill q l).suspense = s.suspense := rfl
@[simp] theorem State.setSpill_owner (q : Nat) (l : List (Nat × List Rec)) : (s.setSpill q l).owner = s.owner := rfl
@[simp] theorem State.setSpill_acl (q : Nat) (l : List (Nat × List Rec)) : (s.setSpill q l).acl = s.acl := rfl
@[simp] theorem State.setSpill_resBase (q : Nat) (l : List (Nat × List Rec)) : (s.setSpill q l).resBase = s.resBase := rfl
@[simp] theorem State.setSpill_resSize (q : Nat) (l : List (Nat × List Rec)) : (s.setSpill q l).resSize = s.resSize := rfl
@[simp] theorem State.setSpill_bar2 (q : Nat) (l : List (Nat × List Rec)) : (s.setSpill q l).bar2 = s.bar2 := rfl
@[simp] theorem State.setSpill_peers (q : Nat) (l : List (Nat × List Rec)) : (s.setSpill q l).peers = s.peers := rfl
@[simp] theorem State.setSpill_fused (q : Nat) (l : List (Nat × List Rec)) : (s.setSpill q l).fused = s.fused := rfl
@[simp] theorem State.setSpill_purseHeld (q : Nat) (l : List (Nat × List Rec)) : (s.setSpill q l).purseHeld = s.purseHeld := rfl
@[simp] theorem State.setSpill_cmdqs (q : Nat) (l : List (Nat × List Rec)) : (s.setSpill q l).cmdqs = s.cmdqs := rfl
@[simp] theorem State.setSpill_polled (q : Nat) (l : List (Nat × List Rec)) : (s.setSpill q l).polled = s.polled := rfl
@[simp] theorem State.setSpill_journal (q : Nat) (l : List (Nat × List Rec)) : (s.setSpill q l).journal = s.journal := rfl
@[simp] theorem State.setSpill_jseq (q : Nat) (l : List (Nat × List Rec)) : (s.setSpill q l).jseq = s.jseq := rfl
@[simp] theorem State.setSpill_lastCmd (q : Nat) (l : List (Nat × List Rec)) : (s.setSpill q l).lastCmd = s.lastCmd := rfl
@[simp] theorem State.setSpill_replies (q : Nat) (l : List (Nat × List Rec)) : (s.setSpill q l).replies = s.replies := rfl
@[simp] theorem State.setSpill_hostMode (q : Nat) (l : List (Nat × List Rec)) : (s.setSpill q l).hostMode = s.hostMode := rfl
@[simp] theorem State.setSpill_span (q : Nat) (l : List (Nat × List Rec)) : (s.setSpill q l).span = s.span := rfl
@[simp] theorem State.setSpill_refusedW (q : Nat) (l : List (Nat × List Rec)) : (s.setSpill q l).refusedW = s.refusedW := rfl
@[simp] theorem State.setSpill_points (q : Nat) (l : List (Nat × List Rec)) : (s.setSpill q l).points = s.points := rfl
@[simp] theorem State.setSpill_throttled (q : Nat) (l : List (Nat × List Rec)) : (s.setSpill q l).throttled = s.throttled := rfl
@[simp] theorem State.setSpill_capped (q : Nat) (l : List (Nat × List Rec)) : (s.setSpill q l).capped = s.capped := rfl
@[simp] theorem State.setSpill_powerCap (q : Nat) (l : List (Nat × List Rec)) : (s.setSpill q l).powerCap = s.powerCap := rfl
@[simp] theorem State.setSpill_power (q : Nat) (l : List (Nat × List Rec)) : (s.setSpill q l).power = s.power := rfl
@[simp] theorem State.setSpill_fwActive (q : Nat) (l : List (Nat × List Rec)) : (s.setSpill q l).fwActive = s.fwActive := rfl
@[simp] theorem State.setSpill_fwInactive (q : Nat) (l : List (Nat × List Rec)) : (s.setSpill q l).fwInactive = s.fwInactive := rfl
@[simp] theorem State.setSpill_fwPending (q : Nat) (l : List (Nat × List Rec)) : (s.setSpill q l).fwPending = s.fwPending := rfl
@[simp] theorem State.setSpill_fwVersion (q : Nat) (l : List (Nat × List Rec)) : (s.setSpill q l).fwVersion = s.fwVersion := rfl
@[simp] theorem State.setSpill_rollback (q : Nat) (l : List (Nat × List Rec)) : (s.setSpill q l).rollback = s.rollback := rfl
@[simp] theorem State.setSpill_perf (q : Nat) (l : List (Nat × List Rec)) : (s.setSpill q l).perf = s.perf := rfl
@[simp] theorem State.setSpill_perfSnap (q : Nat) (l : List (Nat × List Rec)) : (s.setSpill q l).perfSnap = s.perfSnap := rfl

end Sys2Proof.Machine
end

