-- ==== Sys2Proof/Laws/Tables.lean ====
section
/-!
SUPPORT. Laws of sparse tables and of byte memory: what a read finds after a write, and that every operation keeps the canonical form.
-/

namespace Sys2Proof.Machine

/-! ### Tables -/

@[simp] theorem Tbl.get?_set_same {α : Type} (t : Tbl α) (k : Nat) (v : α) : Tbl.get? (Tbl.set t k v) k = some v := by
  induction t with
  | nil => simp [Tbl.set, Tbl.get?]
  | cons e r ih =>
    obtain ⟨j, w⟩ := e
    by_cases h : k = j
    · simp [Tbl.set, Tbl.get?, h]
    · by_cases hl : k < j <;> simp [Tbl.set, Tbl.get?, h, hl, ih]

theorem Tbl.get?_set_ne {α : Type} (t : Tbl α) {k j : Nat} (v : α) (h : j ≠ k) : Tbl.get? (Tbl.set t k v) j = Tbl.get? t j := by
  induction t with
  | nil => simp [Tbl.set, Tbl.get?, h]
  | cons e r ih =>
    obtain ⟨i, w⟩ := e
    by_cases hk : k = i
    · subst hk
      simp [Tbl.set, Tbl.get?, h]
    · by_cases hl : k < i
      · simp [Tbl.set, Tbl.get?, hk, hl, h]
      · simp [Tbl.set, Tbl.get?, hk, hl, ih]

theorem Tbl.get?_set {α : Type} (t : Tbl α) (k j : Nat) (v : α) :
    Tbl.get? (Tbl.set t k v) j = if j = k then some v else Tbl.get? t j := by
  by_cases h : j = k
  · subst h; simp
  · simp [h, Tbl.get?_set_ne t v h]

theorem Tbl.get?_del {α : Type} (t : Tbl α) (k j : Nat) : Tbl.get? (Tbl.del t k) j = if j = k then none else Tbl.get? t j := by
  induction t with
  | nil => simp [Tbl.del, Tbl.get?]
  | cons e r ih =>
    obtain ⟨i, w⟩ := e
    simp only [Tbl.del] at ih
    by_cases hi : i = k
    · subst hi
      by_cases hj : j = i
      · subst hj; simpa [Tbl.del] using ih
      · simp [Tbl.del, Tbl.get?, ih, hj]
    · by_cases hj : j = k
      · subst hj
        have : ¬ j = i := fun h => hi h.symm
        simp [Tbl.del, Tbl.get?, hi, ih, this]
      · simp [Tbl.del, Tbl.get?, hi, ih, hj]

@[simp] theorem Tbl.getD_set_same {α : Type} (t : Tbl α) (k : Nat) (v d : α) : Tbl.getD (Tbl.set t k v) k d = v := by
  simp [Tbl.getD]

theorem Tbl.getD_set_ne {α : Type} (t : Tbl α) {k j : Nat} (v d : α) (h : j ≠ k) : Tbl.getD (Tbl.set t k v) j d = Tbl.getD t j d := by
  simp [Tbl.getD, Tbl.get?_set_ne t v h]

/-! ### Byte memory -/

theorem memGet_memErase (m : List Host.Cell) (a x : Nat) : memGet (memErase m a) x = if x = a then 0 else memGet m x := by
  induction m with
  | nil => simp [memErase, memGet]
  | cons c r ih =>
    obtain ⟨k, b⟩ := c
    simp only [memErase] at ih
    by_cases hk : k = a
    · subst hk
      by_cases hx : x = k
      · subst hx; simpa [memErase] using ih
      · simp [memErase, memGet, ih, hx]
    · by_cases hx : x = a
      · subst hx
        have : ¬ x = k := fun h => hk h.symm
        simp [memErase, memGet, hk, ih, this]
      · simp [memErase, memGet, hk, ih, hx]

theorem memGet_memInsert (m : List Host.Cell) (a x : Nat) (b : Byte) (h : ∀ c ∈ m, c.1 ≠ a) :
    memGet (memInsert m a b) x = if x = a then b else memGet m x := by
  induction m with
  | nil => simp [memInsert, memGet]
  | cons c r ih =>
    obtain ⟨k, v⟩ := c
    have hk : k ≠ a := h (k, v) (by simp)
    by_cases hl : a < k
    · simp [memInsert, hl, memGet]
    · have := ih (fun c hc => h c (by simp [hc]))
      by_cases hx : x = k
      · subst hx; simp [memInsert, hl, memGet, hk]
      · simp [memInsert, hl, memGet, hx, this]

/-- Writing one byte changes that byte alone. -/
theorem memGet_memSet (m : List Host.Cell) (a x : Nat) (b : Byte) : memGet (memSet m a b) x = if x = a then b else memGet m x := by
  unfold memSet
  split
  · rename_i h; simp [memGet_memErase, h]
  · rw [memGet_memInsert]
    · by_cases hx : x = a <;> simp [hx, memGet_memErase]
    · intro c hc; simp [memErase] at hc; exact hc.2

/-- Writing a byte string changes its own bytes alone. -/
theorem memGet_memWrite (bs : List Byte) (m : List Host.Cell) (a x : Nat) :
    memGet (memWrite m a bs) x = if a ≤ x ∧ x < a + bs.length then bs.getD (x - a) 0 else memGet m x := by
  induction bs generalizing m a with
  | nil => simp [memWrite]
  | cons b r ih =>
    rw [memWrite, ih, memGet_memSet]
    by_cases hx : x = a
    · subst hx; simp
    · by_cases h1 : a + 1 ≤ x ∧ x < a + 1 + r.length
      · have h2 : a ≤ x ∧ x < a + (b :: r).length := by simp; omega
        have h3 : x - a = (x - (a + 1)) + 1 := by omega
        rw [if_pos h1, if_pos h2, h3, List.getD_cons_succ]
      · have h2 : ¬(a ≤ x ∧ x < a + (b :: r).length) := by simp; omega
        rw [if_neg h1, if_neg h2, if_neg hx]

@[simp] theorem memRead_length (m : List Host.Cell) (n a : Nat) : (memRead m a n).length = n := by
  induction n generalizing a with
  | zero => rfl
  | succ n ih => simp [memRead, ih]

theorem memRead_getD (m : List Host.Cell) (n a i : Nat) (h : i < n) : (memRead m a n).getD i 0 = memGet m (a + i) := by
  induction n generalizing a i with
  | zero => omega
  | succ n ih =>
    cases i with
    | zero => simp [memRead]
    | succ i =>
      have := ih (a + 1) i (by omega)
      simp only [memRead, List.getD_cons_succ, this]
      congr 1; omega

/-- A read after a write of the same place gives the bytes written. -/
theorem memRead_memWrite_same (bs : List Byte) (m : List Host.Cell) (a : Nat) : memRead (memWrite m a bs) a bs.length = bs := by
  apply List.ext_getElem
  · simp
  · intro i h1 h2
    have h3 := memRead_getD (memWrite m a bs) bs.length a i h2
    rw [memGet_memWrite, if_pos (by omega)] at h3
    simpa [List.getD_eq_getElem?_getD, h1, h2] using h3

theorem memGet_memClear (m : List Host.Cell) (lo hi x : Nat) :
    memGet (memClear m lo hi) x = if lo ≤ x ∧ x < hi then 0 else memGet m x := by
  induction m with
  | nil => simp [memClear, memGet]
  | cons c r ih =>
    obtain ⟨k, v⟩ := c
    simp only [memClear] at ih
    by_cases hk : k < lo ∨ hi ≤ k
    · by_cases hx : x = k
      · subst hx
        have : ¬(lo ≤ x ∧ x < hi) := by omega
        simp [memClear, hk, memGet, this]
      · simp [memClear, hk, memGet, hx, ih]
    · have hk' : ¬(k < lo) ∧ ¬(hi ≤ k) := not_or.mp hk
      by_cases hx : x = k
      · subst hx
        have : lo ≤ x ∧ x < hi := by omega
        simp [memClear, hk'.1, hk'.2, ih, this]
      · simp [memClear, hk'.1, hk'.2, memGet, hx, ih]

/-! ### The canonical form -/

theorem Memory.wf_iff (m : List Host.Cell) :
    Memory.wf m = true ↔ m.Pairwise (fun c d => c.1 < d.1) ∧ ∀ c ∈ m, c.2 ≠ 0 := by
  induction m with
  | nil => simp [Memory.wf]
  | cons c r ih => simp [Memory.wf, ih]; tauto

theorem Memory.wf_filter (p : Host.Cell → Bool) (m : List Host.Cell) (h : Memory.wf m = true) : Memory.wf (m.filter p) = true := by
  rw [Memory.wf_iff] at *
  exact ⟨h.1.filter p, fun c hc => h.2 c (List.mem_filter.mp hc).1⟩

theorem memErase_wf {m : List Host.Cell} (a : Nat) (h : Memory.wf m = true) : Memory.wf (memErase m a) = true := Memory.wf_filter _ m h

theorem memClear_wf {m : List Host.Cell} (lo hi : Nat) (h : Memory.wf m = true) : Memory.wf (memClear m lo hi) = true := Memory.wf_filter _ m h

theorem mem_memInsert (m : List Host.Cell) (a : Nat) (b : Byte) (c : Host.Cell) : c ∈ memInsert m a b ↔ c = (a, b) ∨ c ∈ m := by
  induction m with
  | nil => simp [memInsert]
  | cons d r ih =>
    by_cases h : a < d.1
    · simp [memInsert, h]
    · simp [memInsert, h, ih]; tauto

theorem memInsert_wf {m : List Host.Cell} (a : Nat) (b : Byte) (hb : b ≠ 0) (ha : ∀ c ∈ m, c.1 ≠ a) (h : Memory.wf m = true) :
    Memory.wf (memInsert m a b) = true := by
  rw [Memory.wf_iff] at *
  refine ⟨?_, fun c hc => ?_⟩
  · induction m with
    | nil => simp [memInsert]
    | cons d r ih =>
      have hd := ha d (by simp)
      have hp := List.pairwise_cons.mp h.1
      by_cases hl : a < d.1
      · simp only [memInsert, hl, if_true]
        refine List.pairwise_cons.mpr ⟨fun e he => ?_, h.1⟩
        rcases List.mem_cons.mp he with rfl | he
        · exact hl
        · exact lt_trans hl (hp.1 e he)
      · simp only [memInsert, hl, if_false]
        refine List.pairwise_cons.mpr ⟨fun e he => ?_, ih (fun c hc => ha c (by simp [hc])) ⟨hp.2, fun c hc => h.2 c (by simp [hc])⟩⟩
        rcases (mem_memInsert r a b e).mp he with rfl | he
        · exact lt_of_le_of_ne (Nat.le_of_not_lt hl) hd
        · exact hp.1 e he
  · rcases (mem_memInsert m a b c).mp hc with rfl | hc
    · exact hb
    · exact h.2 c hc

theorem memSet_wf {m : List Host.Cell} (a : Nat) (b : Byte) (h : Memory.wf m = true) : Memory.wf (memSet m a b) = true := by
  unfold memSet
  split
  · exact memErase_wf a h
  · rename_i hb
    refine memInsert_wf a b hb (fun c hc => ?_) (memErase_wf a h)
    simp [memErase] at hc
    exact hc.2

theorem memWrite_wf (bs : List Byte) {m : List Host.Cell} (a : Nat) (h : Memory.wf m = true) : Memory.wf (memWrite m a bs) = true := by
  induction bs generalizing m a with
  | nil => exact h
  | cons b r ih => exact ih (a + 1) (memSet_wf a b h)

/-- An address below every listed one reads zero. -/
theorem memGet_of_lt {m : List Host.Cell} {x : Nat} (h : ∀ c ∈ m, x < c.1) : memGet m x = 0 := by
  induction m with
  | nil => rfl
  | cons c r ih =>
    obtain ⟨k, v⟩ := c
    have : x ≠ k := Nat.ne_of_lt (h (k, v) (by simp))
    simp [memGet, this, ih (fun c hc => h c (by simp [hc]))]

end Sys2Proof.Machine
end

