-- ==== Sys2Proof/Laws/Thread.lean ====
section
/-!
SUPPORT. What a thread's registers, pc and berth read as after each update of the shared operations.
-/

namespace Sys2Proof.Machine

variable (s : State)

/-! ### Berths and threads -/

@[simp] theorem State.berth_setBerth_same (b : Nat) (x : Berth) : (s.setBerth b x).berth b = x := by
  simp [State.berth, State.setBerth]

theorem State.berth_setBerth_ne {b c : Nat} (x : Berth) (h : c ≠ b) : (s.setBerth b x).berth c = s.berth c := by
  simp [State.berth, State.setBerth, Tbl.getD_set_ne _ _ _ h]

@[simp] theorem State.ctx_setBerth_same (b : Nat) (x : Berth) : (s.setBerth b x).ctx b = x.ctx := by simp [State.ctx]

theorem State.ctx_setBerth_ne {b c : Nat} (x : Berth) (h : c ≠ b) : (s.setBerth b x).ctx c = s.ctx c := by
  simp [State.ctx, State.berth_setBerth_ne s x h]

@[simp] theorem State.ctx_setCtx_same (b : Nat) (c : Ctx) : (s.setCtx b c).ctx b = c := by simp [State.setCtx]

theorem State.ctx_setCtx_ne {b d : Nat} (c : Ctx) (h : d ≠ b) : (s.setCtx b c).ctx d = s.ctx d := State.ctx_setBerth_ne s _ h

theorem State.ctx_setCtx (b d : Nat) (c : Ctx) : (s.setCtx b c).ctx d = if d = b then c else s.ctx d := by
  by_cases h : d = b
  · subst h; simp
  · simp [h, State.ctx_setCtx_ne s c h]

@[simp] theorem State.th_setTh (c : Ctx) : (s.setTh c).th = c := by
  show (s.setCtx s.cur c).ctx s.cur = c
  simp

theorem State.ctx_setTh_ne {b : Nat} (c : Ctx) (h : b ≠ s.cur) : (s.setTh c).ctx b = s.ctx b := State.ctx_setCtx_ne s c h

/-! ### Registers -/

theorem setReg_get (r : Vector Word 16) (d n : Reg) (v : Word) : (setReg r d v)[n] = if d = n ∧ d ≠ 0 then v else r[n] := by
  unfold setReg
  by_cases h : d = 0
  · simp [h]
  · by_cases hn : d = n
    · subst hn; simp [h]
    · have : d.val ≠ n.val := fun e => hn (Fin.ext e)
      simp [h, hn, this]

@[simp] theorem State.x_zero : s.x 0 = 0 := by simp [State.x]

/-- A write reads back, but for register 0; every other register keeps its value. -/
theorem State.x_xw (d n : Reg) (v : Word) : (s.xw d v).x n = if d = n ∧ d ≠ 0 then v else s.x n := by
  unfold State.x State.xw
  by_cases hn : n = 0
  · subst hn; by_cases h : d = 0 <;> simp [h]
  · simpa [hn] using setReg_get s.th.regs d n v

@[simp] theorem State.pc_xw (d : Reg) (v : Word) : (s.xw d v).th.pc = s.th.pc := by simp [State.xw]

@[simp] theorem State.x_pass (n : Nat) (r : Reg) : (s.pass n).x r = s.x r := by simp [State.x, State.pass]

@[simp] theorem State.pc_pass (n : Nat) : (s.pass n).th.pc = s.th.pc + BitVec.ofNat 56 n := by simp [State.pass]

@[simp] theorem State.vecs_xw (d : Reg) (v : Word) : (s.xw d v).th.vecs = s.th.vecs := by simp [State.xw]
@[simp] theorem State.vecs_pass (n : Nat) : (s.pass n).th.vecs = s.th.vecs := by simp [State.pass]

/-- An instruction that writes one register changes that register and the pc of the issuing thread, and nothing else. -/
theorem State.th_xw_pass (d : Reg) (v : Word) (n : Nat) :
    ((s.xw d v).pass n).th = { s.th with regs := setReg s.th.regs d v, pc := s.th.pc + BitVec.ofNat 56 n } := by
  simp [State.xw, State.pass]

theorem State.ctx_xw_pass_ne (d : Reg) (v : Word) (n : Nat) {b : Nat} (h : b ≠ s.cur) : ((s.xw d v).pass n).ctx b = s.ctx b := by
  have h2 : b ≠ (s.xw d v).cur := h
  simp only [State.pass]
  rw [State.ctx_setTh_ne _ _ h2]
  simp only [State.xw]
  rw [State.ctx_setTh_ne _ _ h]

theorem setVec_get (r : Vector VReg 8) (d n : VIdx) (v : VReg) : (setVec r d v)[n] = if d = n then v else r[n] := by
  unfold setVec
  by_cases hn : d = n
  · subst hn; simp
  · have : d.val ≠ n.val := fun e => hn (Fin.ext e)
    simp [hn, this]

end Sys2Proof.Machine
end

