-- ==== Sys2Proof/Laws/Memory.lean ====
section
/-!
SUPPORT. Every operation of a thread, an engine, a host and the hardware on memory keeps its canonical form; and what the stores of each leave of memory.
-/

namespace Sys2Proof.Machine

/-- Memory right after reset has the canonical form. -/
theorem reset_wf : Memory.wf State.reset.mem = true := rfl

/-! ### What leaves memory alone -/

@[simp] theorem count_mem (d i n : Nat) (s : State) : (count d i n s).mem = s.mem := rfl
@[simp] theorem setPurseTime_mem (s : State) (k n t : Nat) : (setPurseTime s k n t).mem = s.mem := rfl
@[simp] theorem setPurseTime_cur (s : State) (k n t : Nat) : (setPurseTime s k n t).cur = s.cur := rfl
@[simp] theorem setEmpty_mem (s : State) (g : Nat) : (setEmpty s g).mem = s.mem := rfl
@[simp] theorem writeTime_mem (s : State) (l p : Nat) : (writeTime s l p).2.mem = s.mem := rfl
@[simp] theorem acquireAt_mem (b : Nat) (s : State) : (acquireAt b s).mem = s.mem := rfl
@[simp] theorem acquire_mem (s : State) : (acquire s).mem = s.mem := rfl

@[simp] theorem clearPoison_mem (s : State) (k n : Nat) : (clearPoison s k n).mem = s.mem := by
  unfold clearPoison; split <;> rfl

@[simp] theorem choice_mem (s : State) (n : Nat) : (choice s n).2.mem = s.mem := by
  unfold choice; split <;> rfl

@[simp] theorem installCopy_mem (s : State) (q l e : Nat) (g : Bool) : (installCopy s q l e g).mem = s.mem := rfl

@[simp] theorem findCopy_mem (s : State) (q l p : Nat) : (findCopy s q l p).2.mem = s.mem := by
  unfold findCopy; split <;> simp

@[simp] theorem tlbFill_mem (s : State) (c : Bool) (h : Nat) (t : TlbEnt) : (tlbFill s c h t).mem = s.mem := rfl

@[simp] theorem serve_mem (s : State) (r : ParkReq) : (serve s r).mem = s.mem := by
  unfold serve
  split
  · simp
  · cases r.clear <;> simp

@[simp] theorem serveList_mem (l : List ParkReq) (s : State) (g : Nat) : (serveList s g l).2.mem = s.mem := by
  induction l generalizing s with
  | nil => rfl
  | cons r l ih =>
    unfold serveList
    split
    · simp [ih]
    · split
      · simp
      · simp [ih]

@[simp] theorem fillGranule_mem (s : State) (g : Nat) : (fillGranule s g).mem = s.mem := by
  unfold fillGranule
  simp only
  split <;> simp

@[simp] theorem fillGranules_mem (l : List Nat) (s : State) : (fillGranules s l).mem = s.mem := by
  unfold fillGranules
  induction l generalizing s with
  | nil => rfl
  | cons g l ih => simp [ih]

/-! ### What a read at its home, and the counting of page walks, leave alone -/

/-- A read ends the meetings of `aadd`s on its way, in their berths, and changes nothing else. -/
theorem parted_rest (k n : Nat) (s : State) : parted k n s = { s with berths := (parted k n s).berths } := by
  unfold parted
  split <;> rfl

@[simp] theorem parted_mem (k n : Nat) (s : State) : (parted k n s).mem = s.mem := by rw [parted_rest]
@[simp] theorem parted_stores (k n : Nat) (s : State) : (parted k n s).stores = s.stores := by rw [parted_rest]
@[simp] theorem parted_tape (k n : Nat) (s : State) : (parted k n s).tape = s.tape := by rw [parted_rest]

/-- A page walk is counted, in the counters of its die, and changes nothing else. -/
theorem walked_rest (q : Nat) (s : State) : walked q s = { s with perf := (walked q s).perf } := rfl

@[simp] theorem walked_mem (q : Nat) (s : State) : (walked q s).mem = s.mem := rfl

/-! ### The canonical form kept -/

theorem applyStores_wf (l : List Store) {m : List Host.Cell} (h : Memory.wf m = true) : Memory.wf (applyStores m l) = true := by
  induction l generalizing m with
  | nil => exact h
  | cons st r ih => exact ih (memWrite_wf _ _ h)

theorem settleWhere_wf {s : State} (p : Nat → Bool) (h : Memory.wf s.mem = true) : Memory.wf (settleWhere s p).mem = true := by
  unfold settleWhere
  split
  · exact h
  · exact applyStores_wf _ h

theorem settleLine_wf {s : State} (l : Nat) (h : Memory.wf s.mem = true) : Memory.wf (settleLine s l).mem = true := settleWhere_wf _ h

theorem publishWhere_wf {s : State} (t : Nat) (p : Nat → Bool) (h : Memory.wf s.mem = true) : Memory.wf (publishWhere s t p).mem = true := settleWhere_wf _ h

theorem publish_wf {s : State} (sc : Scope) (h : Memory.wf s.mem = true) : Memory.wf (publish sc s).mem = true := by
  unfold publish
  simp only [State.setTh_mem]
  exact publishWhere_wf _ _ h

theorem grant_wf {s : State} (q l p : Nat) (k : Bool) (h : Memory.wf s.mem = true) : Memory.wf (grant s q l p k).mem = true := by
  have hc : Memory.wf (choice (parted (256 * l) 256 s) 64).2.mem = true := by simpa using h
  unfold grant
  generalize choice (parted (256 * l) 256 s) 64 = c at hc ⊢
  cases k <;> simp only [Bool.false_and, Bool.true_and, Bool.false_eq_true, if_false]
  · exact hc
  · by_cases hs : c.1 / 32 = 1
    · simpa [hs] using settleLine_wf l hc
    · simpa [hs] using hc

theorem cacheLoad_wf {s : State} (q p : Nat) (t : Option Nat) (k n : Nat) (h : Memory.wf s.mem = true) :
    Memory.wf (cacheLoad q p t k n s).2.2.mem = true := by
  have hc : Memory.wf (findCopy s q (k / 256) p).2.mem = true := by simpa using h
  unfold cacheLoad
  dsimp only
  split <;> rename_i e
  · rw [e] at hc; exact hc
  · rw [e] at hc
    apply grant_wf
    split
    · exact settleLine_wf _ hc
    · exact hc

theorem clrLoad_wf {s : State} (k n : Nat) (h : Memory.wf s.mem = true) : Memory.wf (clrLoad k n s).2.mem = true := by
  unfold clrLoad
  split
  · exact h
  · simpa using cacheLoad_wf _ _ _ _ _ h

theorem clrStore_wf {s : State} (k : Nat) (bs : List Byte) (h : Memory.wf s.mem = true) : Memory.wf (clrStore k bs s).mem = true := by
  unfold clrStore
  split
  · simp only [State.raise_mem, clearPoison_mem]
    exact memWrite_wf _ _ h
  · simp only [State.raise_mem]
    split
    · simp only [clearPoison_mem]
      exact settleLine_wf _ h
    · exact h

theorem clrStores_wf (ks : List (Nat × Nat)) {s : State} (bs : List Byte) (h : Memory.wf s.mem = true) : Memory.wf (clrStores s ks bs).mem = true := by
  induction ks generalizing s bs with
  | nil => exact h
  | cons k r ih => exact ih _ (clrStore_wf _ _ h)

theorem clrRmw_wf {s : State} (k n : Nat) (f : List Byte → Option (List Byte)) (h : Memory.wf s.mem = true) : Memory.wf (clrRmw k n f s).2.mem = true := by
  unfold clrRmw
  cases isPurse k <;> simp only [Bool.false_eq_true, if_false, if_true, State.raise_mem]
  · split
    · exact memWrite_wf _ _ (settleLine_wf _ h)
    · exact settleLine_wf _ h
  · split
    · exact memWrite_wf _ _ h
    · exact h

theorem bankTime_wf {s : State} (p k n : Nat) (h : Memory.wf s.mem = true) : Memory.wf (bankTime p s k n).2.mem = true := by
  unfold bankTime
  split
  · exact h
  · exact settleLine_wf _ h

theorem bankStore_wf {s : State} (p k : Nat) (bs : List Byte) (h : Memory.wf s.mem = true) : Memory.wf (bankStore p s k bs).2.mem = true := by
  unfold bankStore
  simp only [clearPoison_mem]
  exact memWrite_wf _ _ (bankTime_wf _ _ _ h)

theorem arrStore_wf {s : State} (k : Nat) (bs : List Byte) (h : Memory.wf s.mem = true) : Memory.wf (arrStore s k bs).mem = true := bankStore_wf 0 k bs h

theorem arrWrite_wf {s : State} (k : Nat) (bs : List Byte) (h : Memory.wf s.mem = true) : Memory.wf (arrWrite s k bs).mem = true := by
  unfold arrWrite
  split
  · simpa using arrStore_wf k bs h
  · exact arrStore_wf k bs h

theorem arrWrites_wf (n : Nat) {s : State} (k : Nat) (bs : List Byte) (h : Memory.wf s.mem = true) : Memory.wf (arrWrites s k bs n).mem = true := by
  induction n generalizing s k bs with
  | zero => exact h
  | succ n ih =>
    unfold arrWrites
    split
    · exact h
    · exact ih _ _ (arrWrite_wf _ _ h)

theorem hwWrite_wf {s : State} (k : Nat) (bs : List Byte) (h : Memory.wf s.mem = true) : Memory.wf (hwWrite s k bs).mem = true := arrStore_wf k bs h

/-! ### What a store to a purse leaves -/

/-- A plain store to a purse changes its own bytes alone. -/
theorem clrStore_purse_get {k : Nat} (bs : List Byte) (s : State) (hk : isPurse k = true) (x : Nat) :
    memGet (clrStore k bs s).mem x = if k ≤ x ∧ x < k + bs.length then bs.getD (x - k) 0 else memGet s.mem x := by
  unfold clrStore
  simp only [hk, if_true, State.raise_mem, clearPoison_mem, setPurseTime_mem]
  exact memGet_memWrite bs s.mem k x

/-- A load from a purse leaves memory alone. -/
theorem clrLoad_purse_mem {k : Nat} (n : Nat) (s : State) (hk : isPurse k = true) : (clrLoad k n s).2.mem = s.mem := by
  unfold clrLoad
  simp [hk]

/-- A plain store to a global line leaves the banks as they are: it settles later (09 R168), unless the sector is poisoned (17 R309). -/
theorem clrStore_glob_mem {k : Nat} (bs : List Byte) (s : State) (hk : isPurse k = false) (hp : s.poison = []) : (clrStore k bs s).mem = s.mem := by
  unfold clrStore
  simp only [hk, Bool.false_eq_true, if_false, State.raise_mem]
  split
  · rename_i h
    have : (writeTime s (k / 256) s.now).2.poison = [] := hp
    simp [poisoned, hk, writeTime, hp] at h
  · rfl

/-! ### The shared ends of an instruction -/

/-! What an access before a stop has left stands: the last state left is the one a stop is taken in. -/

@[simp] theorem Stop.state_fault (s : State) (f : FaultInfo) (u : Option State) : Stop.state s (.fault f u) = u.getD s := rfl
@[simp] theorem Stop.state_wait (s : State) (w : Wait) (u : Option State) : Stop.state s (.wait w u) = u.getD s := rfl
@[simp] theorem Stop.state_after (s t : State) (e : Stop) : Stop.state s (e.after t) = Stop.state t e := by cases e <;> rfl
@[simp] theorem Stop.state_leaving (s t : State) (e : Stop) : Stop.state s (e.leaving t) = t := by cases e <;> rfl
@[simp] theorem stopWith_fault (f : FaultInfo) (u : Option State) (s : State) : stopWith (.fault f u) s = takeFault f s := rfl
@[simp] theorem stopWith_after (e : Stop) (s t : State) : stopWith (e.after t) s = stopWith e s := by cases e <;> rfl

@[simp] theorem stopsAt_ok {α : Type} (t : State) (x : α) : stopsAt t (.ok x) = .ok x := rfl
@[simp] theorem stopsAt_error {α : Type} (t : State) (e : Stop) : stopsAt t (.error e : Run α) = .error (e.after t) := rfl
@[simp] theorem reading_ok {α β : Type} (x : α) (t : State) (k : α → State → Run β) : reading (.ok (x, t)) k = stopsAt t (k x t) := rfl
@[simp] theorem reading_error {α β : Type} (e : Stop) (k : α → State → Run β) : reading (.error e) k = .error e := rfl

/-- Whether an access or what follows it ends in an effect does not depend on where a stop would be taken. -/
theorem stopsAt_ok_iff {α : Type} (t : State) (r : Run α) (x : α) : stopsAt t r = .ok x ↔ r = .ok x := by
  cases r <;> simp [stopsAt]

/-- `finish` always answers a next state: the effect, the state after taking the fault, or the thread out of rotation. -/
theorem finish_next (s : State) (r : Run State) : ∃ t, finish s r = .next t := by
  unfold finish
  split <;> exact ⟨_, rfl⟩

@[simp] theorem finish_ok (s t : State) : finish s (.ok t) = .next t := rfl
@[simp] theorem finish_fault (s : State) (f : FaultInfo) (u : Option State) : finish s (.error (.fault f u)) = .next (takeFault f (u.getD s)) := rfl
/-- An instruction that goes on after accesses that led to t ends as one that began in t would. -/
@[simp] theorem finish_stopsAt (s t : State) (r : Run State) : finish s (stopsAt t r) = finish t r := by
  cases r <;> simp [finish]

/-- Everything CoinSplit does (14 R251): with two grains or more the thread keeps the ceiling; with fewer it takes a borrow that it has been granted
    first, or leaves to borrow. -/
theorem coinSplit_cases (s : State) :
    (2 ≤ s.th.coin ∧ coinSplit s = .ok (s.th.coin / 2, s.setTh { s.th with coin := s.th.coin - s.th.coin / 2 })) ∨
    (s.th.coin < 2 ∧ s.th.lent = 0 ∧ coinSplit s = .error (.wait .borrow)) ∨
    (s.th.coin < 2 ∧ 0 < s.th.lent ∧ coinSplit s = .ok ((s.th.coin + 2 ^ 32) / 2,
      s.setTh { s.th with coin := s.th.coin + 2 ^ 32 - (s.th.coin + 2 ^ 32) / 2, lent := s.th.lent - 1 })) := by
  unfold coinSplit
  by_cases h : s.th.coin < 2
  · by_cases hl : s.th.lent = 0
    · exact .inr (.inl ⟨h, hl, by simp [h, hl, waitOn]⟩)
    · refine .inr (.inr ⟨h, Nat.pos_of_ne_zero hl, ?_⟩)
      simp only [h, hl, ne_eq, not_false_eq_true, and_self, if_true]
      rw [if_neg (by omega)]
  · exact .inl ⟨Nat.le_of_not_lt h, by simp [h]⟩

/-- CoinSplit conserves grains: what the child takes the thread gives, and neither is left with none. -/
theorem coinSplit_conserves {s t : State} {c : Nat} (h : coinSplit s = .ok (c, t)) :
    c + t.th.grains = s.th.grains ∧ 0 < c ∧ 0 < t.th.coin := by
  obtain ⟨h2, e⟩ | ⟨-, -, e⟩ | ⟨h1, h2, e⟩ := coinSplit_cases s
  · rw [e] at h; cases h; simp [Ctx.grains]; omega
  · rw [e] at h; cases h
  · rw [e] at h; cases h; simp [Ctx.grains]; omega

end Sys2Proof.Machine
end

