-- ==== Sys2Proof/Laws/Vector.lean ====
section
/-!
SUPPORT. Laws of vector elements: taking a register apart and putting it together, and what a vector instruction does once its tags are checked.
-/

namespace Sys2Proof.Machine

@[simp] theorem elems_length (w : Nat) (d : VData) : (elems w d).length = 256 / w := by simp [elems]

theorem elems_getD (w j : Nat) (d : VData) (h : j < 256 / w) : (elems w d).getD j 0 = d.toNat / 2 ^ (w * j) % 2 ^ w := by
  simp [elems, h]

/-- The number that packed elements make. -/
def packed (w : Nat) (l : List Nat) : Nat := l.foldr (fun e acc => e % 2 ^ w + 2 ^ w * acc) 0

theorem packed_lt (w : Nat) (l : List Nat) : packed w l < 2 ^ (w * l.length) := by
  induction l with
  | nil => simp [packed]
  | cons e r ih =>
    have h1 : e % 2 ^ w < 2 ^ w := Nat.mod_lt _ (by positivity)
    have h2 : packed w (e :: r) = e % 2 ^ w + 2 ^ w * packed w r := rfl
    rw [h2, List.length_cons, Nat.mul_add, Nat.mul_one, Nat.pow_add, Nat.mul_comm (2 ^ (w * r.length))]
    nlinarith

theorem packed_lane (w j : Nat) (l : List Nat) : packed w l / 2 ^ (w * j) % 2 ^ w = l.getD j 0 % 2 ^ w := by
  induction l generalizing j with
  | nil => simp [packed]
  | cons e r ih =>
    have h1 : e % 2 ^ w < 2 ^ w := Nat.mod_lt _ (by positivity)
    have h2 : packed w (e :: r) = e % 2 ^ w + 2 ^ w * packed w r := rfl
    cases j with
    | zero => simp [h2, Nat.add_mul_mod_self_left]
    | succ j =>
      have h3 : packed w (e :: r) / 2 ^ w = packed w r := by
        rw [h2, Nat.add_mul_div_left _ _ (by positivity), Nat.div_eq_of_lt h1, Nat.zero_add]
      rw [Nat.mul_add, Nat.mul_one, Nat.add_comm, Nat.pow_add, ← Nat.div_div_eq_div_mul, h3, ih]
      simp

/-- Each lane of packed elements is its element. -/
theorem packElems_lane (w j : Nat) (l : List Nat) (hl : w * l.length ≤ 256) :
    (packElems w l).toNat / 2 ^ (w * j) % 2 ^ w = l.getD j 0 % 2 ^ w := by
  have h : (packElems w l).toNat = packed w l := by
    have := packed_lt w l
    have h2 : 2 ^ (w * l.length) ≤ 2 ^ 256 := Nat.pow_le_pow_right (by decide) hl
    simp only [packElems, BitVec.toNat_ofNat]
    exact Nat.mod_eq_of_lt (lt_of_lt_of_le this h2)
  rw [h, packed_lane]

/-- A vector instruction whose tags are in order, in the thread and in its gang's members, writes the registers and ORs the flags. -/
theorem vecOp_ok {f : Vector VReg 8 → VRun} {s : State} {v fl ms fm} (hb : (s.th.broken && s.th.brokenVec) = false)
    (h : f s.th.vecs = some (v, fl)) (hm : runMembers f (gangMembers s) = some (ms, fm)) :
    vecOp f s = .next (((s.setVecs v ms).flag (fl ||| fm)).pass 4) := by
  simp [vecOp, vecRun, notBrokenVec, need, hb, h, hm, finish]

/-- With a tag out of order it faults FORMAT and writes nothing. -/
theorem vecOp_format {f : Vector VReg 8 → VRun} {s : State} (hb : (s.th.broken && s.th.brokenVec) = false)
    (h : f s.th.vecs = none ∨ runMembers f (gangMembers s) = none) : vecOp f s = .next (takeFault { cause := .format } s) := by
  unfold vecOp vecRun notBrokenVec need
  simp only [hb, Bool.not_false, if_true]
  rcases h with h | h
  · simp [h, finish, fail, failAt, stopWith, Stop.state]
  · cases hf : f s.th.vecs <;> simp [h, finish, fail, failAt, stopWith, Stop.state]

end Sys2Proof.Machine
end

