-- ==== Sys2Proof/Tests/Slice0.lean ====
section
/-!
SUPPORT. The model's own tests: a refusal for each check of well-formedness, words that the spec prints, single steps, and for every statement
of Certificates/Slice0/Obligations.lean the states and operands that meet its hypotheses, clause by clause (test_meets_…).
-/

namespace Sys2Proof.Tests
open Sys2Proof Sys2Proof.Machine Sys2Proof.Say

-- One theorem at a time: theorems that wait for the kernel side by side would each hold a thread's stack.
set_option Elab.async false

/-! ### Small states -/

def regs (l : List (Nat × Word)) : Vector Word 16 := Vector.ofFn (fun i => Tbl.getD l i.val 0)

/-- Bytes placed in empty memory. -/
def bytesAt (l : List (Nat × List Byte)) : List Host.Cell := l.foldl (fun m e => memWrite m e.1 e.2) []

/-- Net 1: the first cluster; a node pool at 0x1000 of each purse and a cell area at 0x3000. -/
def net1 : NetRec := { st := .bound, counters := 0xF, spawnLim := 64, cellKib := 1, poolOff := 0x1000, poolSize := 0x1000, cellOff := 0x3000, watch := 100,
                       ruleBase := 0, codeBase := 0x80000 }

/-- A page of quad 0 that holds everything below 1 GiB. -/
def page (n : Nat) : TlbEnt := { cluster := false, holder := 0, net := n, bits := 30, va := 0, pa := 0, r := true, w := true, x := true, n := false }

/-- Thread 5 of net 1 with given registers. -/
def thr (l : List (Nat × Word)) : Ctx := { tid := 5, net := 1, coin := 1024, pc := 0x100, regs := regs l }

/-- One thread, in berth 0 of quad 0. -/
def one (c : Ctx) : State :=
  { nets := [(1, net1)], mints := [(1, { issued := 4096 })], berths := [(0, { ctx := c })], tlb := [page 1], nextTid := 9, tape := [0, 0, 0, 0] }

/-- An address in the own purse (08 R140). -/
def own (off : Nat) : Word := BitVec.ofNat 64 (2 * 2 ^ 56 + off)
/-- A global address (08 R140). -/
def glo (va : Nat) : Word := BitVec.ofNat 64 (2 ^ 59 + va)

theorem meets {ε α β : Type} {x : Except ε (α × β)} (h : (match x with | .ok _ => true | .error _ => false) = true) : ∃ a b, x = .ok (a, b) := by
  cases x with
  | ok p => exact ⟨p.1, p.2, rfl⟩
  | error e => simp at h

/-- The same, with a property of the first part, and of both. -/
theorem meetsIf {ε α β : Type} {x : Except ε (α × β)} (p : α → Bool) (h : (match x with | .ok q => p q.1 | .error _ => false) = true) : ∃ a b, x = .ok (a, b) ∧ p a = true := by
  cases x with
  | ok q => exact ⟨q.1, q.2, rfl, h⟩
  | error e => simp at h

/-- Why an instruction ends without its effect. -/
def why {α : Type} : Run α → Option Stop
  | .ok _ => none
  | .error e => some e
theorem stops {α : Type} {x : Run α} {e : Stop} (h : why x = some e) : x = .error e := by
  cases x with
  | ok a => simp [why] at h
  | error d => simp only [why, Option.some.injEq] at h; rw [h]

/-- The state after a run that goes on. -/
def after {α : Type} (s : State) : Run (α × State) → State
  | .ok q => q.2
  | .error _ => s
theorem goesOn {α : Type} {s : State} {x : Run (α × State)} (p : α → Bool) (h : (match x with | .ok q => p q.1 | .error _ => false) = true) : ∃ a, x = .ok (a, after s x) ∧ p a = true := by
  cases x with
  | ok q => exact ⟨q.1, rfl, h⟩
  | error e => simp at h

/-- A run ends well with something of a property; it is stopped so. -/
def okP {ε α : Type} (x : Except ε α) (p : α → Bool) : Bool := match x with | .ok q => p q | .error _ => false
def errP {ε α : Type} (x : Except ε α) (p : ε → Bool) : Bool := match x with | .ok _ => false | .error e => p e
/-- The cause of a fault that ends a run. -/
def faultIs {α : Type} (x : Run α) (c : Cause) : Bool := errP x (fun e => match e with | .fault f _ => f.cause == c | _ => false)

def nexts (o : Result) (p : State → Bool) : Bool := match o with | .next t => p t | _ => false

/-! ### Well-formedness: a term that each check refuses -/

theorem test_refuses_ill_formed : ∀ i ∈ ([.vld2 1 0 0 0, .vld2Ext 3 0 0 0, .ld 1 1 .d true 0, .ldExt 1 1 .d true 0, .ldc 1 1 .d true 0, .ldcExt 1 1 .d true 0, .ldf 1 1 .d true 0,
    .ldfExt 1 1 .d true 0, .grab 3 1 3, .astat 1 6, .qfence 0, .trap 1 11, .trap 1 14, .eret 1 1 3, .tlbi 1 2 3 false, .tlbiAll 1 false, .srd 1 0x011, .swr 1 0x010] : List Instr),
    wellFormed i = false := by decide +kernel

theorem test_refuses_events_outside : ∀ i ∈ ([.dispatch berthCount, .admission berthCount, .governorBubble coreCount, .barrierRelease 0 0 8, .refill quadCount, .stealProbe 0 0 4096,
    .pageWalk 0 0 (2 ^ 56), .engineCompletion 0 5, .netCompletion 4096, .park 0 quadCount, .bankRoleChange sliceCount, .bind 0 64 0 0 0, .hostWrite 2 0 [], .hostRead 0 (2 ^ 52) 1,
    .peerMemoryAccess 16 true 0 0 [], .commandPacket (.host 2) 0 [], .launch 64, .slicemap 0 [sliceCount], .spanLinkAttestation 16 0, .thermalTrip 16, .hostPortTraining 2 true,
    .uncorrectableError (.xreg 0 16), .uncorrectableError (.vreg 0 8), .uncorrectableError (.coin berthCount 0), .uncorrectableError (.tlb quadCount)] : List Instr),
    wellFormed i = false := by decide +kernel

/-! ### Decoding: words printed in spec/03, 05, 06, 12 and 15, and words of no instruction -/

theorem test_decodes_integer_words : decode 0x1C828020 0 = .ok (.bfx 4 1 32 4, 1) ∧ decode 0x214A2020 0 = .ok (.bfxs 10 5 8 4, 1) ∧ decode 0x2432F020 0 = .ok (.bfi 1 9 60 4, 1) ∧
    decode 0x00EE0D83 0 = .ok (.shlImm 7 7 3, 1) ∧ decode 0x013B6D00 0 = .ok (.shl 9 13 11, 1) ∧ decode 0x2D641064 0 = .ok (.cmpi .hs 9 1 100, 1) := by decide +kernel
theorem test_decodes_vector_and_tile_words : decode 0x351005C9 0 = .ok (.vcvt 4 2 false 0 .rne 9, 1) ∧ decode 0x50060600 0 = .ok (.tshape 3, 1) ∧
    decode 0x500AC700 0 = .ok (.tside 5 6, 1) ∧ decode 0x540F0201 0 = .ok (.mmas 7 8 true, 1) := by decide +kernel
theorem test_decodes_memory_words : decode 0x4464A080 0 = .ok (.aadd 3 2 5 false, 1) ∧ decode 0x4464A4A0 0 = .ok (.amin 3 2 5 false true, 1) ∧
    decode 0x4464A780 0 = .ok (.acas 3 2 5 false, 1) ∧ decode 0x44CEA0C0 0 = .ok (.aadd 6 7 5 true, 1) ∧ decode 0x4C000100 0 = .ok (.fenceb, 1) := by decide +kernel
theorem test_decodes_control_words : decode 0x65000C01 0 = .ok (.qwait 8, 1) ∧ decode 0x58800400 0 = .ok (.stage 4, 1) ∧ decode 0x64000500 0 = .ok (.done, 1) ∧
    decode 0x64800800 0 = .ok (.rsplit 4 0, 1) ∧ decode 0x64000D02 0 = .ok (.cls 2, 1) ∧ decode 0x64120D04 0 = .ok (.clsReg 9, 1) := by decide +kernel
theorem test_decodes_system_words : decode 0x6806000D 0 = .ok (.trap 3 13, 1) ∧ decode 0x68840101 0 = .ok (.eret 4 2 1, 1) ∧ decode 0x680E0400 0 = .ok (.rest 7, 1) ∧
    decode 0x68000501 0 = .ok (.dbrk 1, 1) := by decide +kernel
theorem test_refuses_words : ∀ w ∈ [0xF000091A, 0x00624001, 0x02624000, 0x298D0000], (match decode w 0 with | .ok _ => false | .error _ => true) = true := by decide +kernel

/-! ### Single steps -/

theorem test_add_wraps : nexts (exec (.add 3 1 2) (one (thr [(1, -1), (2, 2)]))) (fun t => t.x 3 == 1 && t.th.pc == 0x104) = true := by decide +kernel
theorem test_x0_discards : nexts (exec (.add 0 1 2) (one (thr [(1, 1), (2, 2)]))) (fun t => t.x 0 == 0 && t.th.pc == 0x104) = true := by decide +kernel
theorem test_div_min : nexts (exec (.div 3 1 2) (one (thr [(1, 1 <<< 63), (2, -1)]))) (fun t => t.x 3 == 1 <<< 63) = true := by decide +kernel
theorem test_rem_zero : nexts (exec (.rem 3 1 2) (one (thr [(1, 7), (2, 0)]))) (fun t => t.x 3 == 7) = true := by decide +kernel
theorem test_mulh_signs : nexts (exec (.mulh 3 1 2) (one (thr [(1, -1), (2, 1)]))) (fun t => t.x 3 == -1) = true := by decide +kernel
theorem test_shl_64 : nexts (exec (.shl 3 1 2) (one (thr [(1, 1), (2, 64)]))) (fun t => t.x 3 == 0) = true := by decide +kernel
theorem test_sha_64 : nexts (exec (.shaImm 3 1 64) (one (thr [(1, -5)]))) (fun t => t.x 3 == -1) = true := by decide +kernel
/-- The worked rows of 05 R87. -/
theorem test_bfxs_row : nexts (exec (.bfxs 10 5 8 4) (one (thr [(5, 2910)]))) (fun t => t.x 10 == -5) = true := by decide +kernel
theorem test_bfx_row : nexts (exec (.bfx 11 1 64 4) (one (thr [(1, 0x62D780100), (11, 9)]))) (fun t => t.x 11 == 0) = true := by decide +kernel
theorem test_bfi_row : nexts (exec (.bfi 1 9 60 4) (one (thr [(1, 0x62D780100), (9, 1)]))) (fun t => t.x 1 == 0x100000062D780100) = true := by decide +kernel
/-- The rows of 11 R199: the word at x2 holds 0xFFFF_FFF0 and x5 = 0x20. -/
def atomState : State := { one (thr [(2, own 0x40), (5, 0x20), (3, 0xFFFFFFF0)]) with mem := bytesAt [(purseKey 0 0x40, [0xF0, 0xFF, 0xFF, 0xFF])] }
theorem test_aadd_row : nexts (exec (.aadd 3 2 5 false) atomState) (fun t => memRead t.mem (purseKey 0 0x40) 4 == [0x10, 0, 0, 0] && t.x 3 == 0xFFFFFFFFFFFFFFF0) = true := by decide +kernel
theorem test_amin_row : nexts (exec (.amin 3 2 5 false false) atomState) (fun t => memRead t.mem (purseKey 0 0x40) 4 == [0xF0, 0xFF, 0xFF, 0xFF] && t.x 3 == 0xFFFFFFFFFFFFFFF0) = true := by
  decide +kernel
theorem test_amin_z_row : nexts (exec (.amin 3 2 5 false true) atomState) (fun t => memRead t.mem (purseKey 0 0x40) 4 == [0x20, 0, 0, 0] && t.x 3 == 0xFFFFFFF0) = true := by decide +kernel
theorem test_acas_row : nexts (exec (.acas 3 2 5 false) atomState) (fun t => memRead t.mem (purseKey 0 0x40) 4 == [0x20, 0, 0, 0] && t.x 3 == 0xFFFFFFFFFFFFFFF0) = true := by decide +kernel
/-- The rows of 04 R75. -/
theorem test_enc_rows : enc e4m3 (.fin false 460 1) .rne = (0x7E, fNX) ∧ enc e4m3 (.fin false 470 1) .rne = (0x7E, fOF ||| fNX) ∧
    enc fp16 (.fin false 70000 1) .rne = (0x7C00, fOF ||| fNX) ∧ enc fp16 (.fin false 70000 1) .rz = (0x7BFF, fOF ||| fNX) ∧
    enc fp4 (.fin false 5 1) .rne = (6, fNX) ∧ enc fp4 (.fin false 5 1) .ru = (7, fNX) ∧ enc fp4 (.fin false 3 4) .rne = (2, fUF ||| fNX) ∧
    enc e4m3 (.inf true) .rne = (0xFE, fOF ||| fNX) ∧ enc e3m5 (.fin true 3 2) .rne = (0, fNV) := by decide +kernel
/-- The rows of 04 R70. -/
theorem test_dec_rows : (enc fp32 (.fin false 1 10) .rne).1 = 0x3DCCCCCD ∧ (enc bf16 (.fin false 1 10) .rne).1 = 0x3DCD ∧ (enc e4m3 (.fin true 5 2) .rne).1 = 0xC2 ∧
    (enc e5m2 (.fin false 1 10) .rne).1 = 0x2E := by decide +kernel
theorem test_step_runs_what_stands : nexts (step (State.reset.withFetchWord 32 0x16C05678)) (fun t => t.th.pc == 4) = false ∧
    nexts (step (State.reset.withFetchWord 64 0xF000091A16C05678)) (fun t => t.x 6 == 0x12345678 && t.th.pc == 8) = true := by decide +kernel

/-! ### What meets the hypotheses: integers and vectors -/

theorem test_meets_BitFieldsAreCutAndComparesMoveThePcAlone :
    nexts (exec (.cmp .lt 1 2 2) (one (thr [(1, 3), (2, 3)]))) (fun t => t.th.pc == 0x104) = true ∧
    nexts (exec (.cmp .lt 1 2 2) (one (thr [(1, 2), (2, 3)]))) (fun t => t.th.pc == 0x10C) = true := by decide +kernel

theorem test_meets_NumbersAreExactUntilRounded : (0 : Nat) < 1 ∧ ((Val.nan true).isNan || (Val.fin false 0 1).isNan) = true ∧
    (∀ f ∈ [fp32, fp16, bf16, e4m3, e5m2, fp4, e3m5], 2 ^ f.width - 1 < 2 ^ f.width) ∧
    (∀ v ∈ [Val.fin true 3 2, Val.fin false 1 8], (match v with | .fin _ _ d => decide (0 < d) | _ => false) = true) := by decide +kernel

/-- A thread that leads a vector gang of two, all registers of both members tagged t. -/
def vst (t : Tag) : State :=
  let v : Vector VReg 8 := Vector.replicate 8 { data := 0x3C003C00, tag := t, side := 7 }
  { one { thr [(1, 5)] with vecs := v } with vgangs := [(0, { size := 2, index := 0, members := [(1, 16, v)] })] }
/-- One with no gang. -/
def vst1 (t : Tag) : State := { vst t with vgangs := [] }

theorem test_meets_VectorArithmeticAndShiftsRunInEveryMember :
    (∀ t ∈ [Tag.i8, .i16, .i32, .fp16, .bf16, .fp32], AllMembers (tagsEqual classA false [0, 1]) (vst t) ∧ AllMembers (tagsEqual classA false [0, 1, 2]) (vst1 t) ∧
      AllMembers (tagsEqual classA false [1, 1]) (vst t) ∧ AllMembers (tagsEqual classA false [3]) (vst t)) ∧
    (proper (.fin true 0 1) ∧ proper (.fin false 0 1) ∧ proper (.inf true) ∧ proper (.nan true) ∧ below (.fin true 0 1) (.fin false 0 1) ∧ below (.inf true) (.fin false 0 1)) ∧
    AllMembers (tagsEqual classA true [0, 1]) (vst .i32) ∧ AllMembers (fun v => (resultTag v[0].tag v[1].tag).isSome) (vst .f4b) ∧
    AllMembers (fun v => (resultTag v[0].tag v[1].tag).isSome) (vst1 .raw) ∧ AllMembers (tagsEqual isIntTag false [0, 1]) (vst .i8) := by
  refine ⟨?_, ⟨by simp [proper], by simp [proper], trivial, trivial, .inr ⟨1, 1, rfl, rfl⟩, .inl (by simp [lessVal])⟩, ?_⟩ <;> (unfold AllMembers; decide +kernel)

theorem test_meets_VectorComparesAndMovesRunInEveryMember :
    (∀ t ∈ [Tag.i8, .fp16, .e4m3, .e5m2], AllMembers (fun v => tagsEqual (fun t => classA t || t == .e4m3 || t == .e5m2) (Cond.lt == .lo || Cond.lt == .hs) [0, 1] v) (vst t)) ∧
    AllMembers (fun v => tagsEqual (fun t => classA t || t == .e4m3 || t == .e5m2) (Cond.hs == .lo || Cond.hs == .hs) [0, 1] v) (vst .i32) ∧
    AllMembers (fun v => v[0].tag != .f4b) (vst .raw) ∧ ((vst .f4b).th.broken && (vst .f4b).th.brokenVec) = false ∧ tagOfCode (0 : BitVec 4).toNat = some .raw ∧
    tagOfCode (8 : BitVec 4).toNat = some .fp32 ∧ Tag.fp32 ≠ .f4b ∧ tagOfCode (9 : BitVec 4).toNat = some .f4b ∧ AllMembers (fun v => v[0].tag == .f4b) (vst .f4b) := by
  unfold AllMembers; decide +kernel

theorem test_meets_VectorSumsFollowTheFixedOrder :
    (∀ t ∈ [Tag.i8, .i16, .i32, .fp16, .bf16, .fp32], AllMembers (tagsEqual classA false [0]) (vst t)) ∧ AllMembers (tagsEqual classA true [0]) (vst1 .i16) ∧
    (let v : Vector VReg 8 := #v[{ tag := .fp32 }, { tag := .f4b }, { tag := .f4b }, { tag := .i8 }, { tag := .i8 }, { tag := .i32 }, {}, {}]
     AllMembers (dotTags 0 1 2) (one { thr [] with vecs := v }) ∧ AllMembers (dotTags 5 3 4) (one { thr [] with vecs := v })) := by
  unfold AllMembers; decide +kernel

theorem test_meets_ConversionsAndSpecialFunctions :
    tagOfCode (8 : BitVec 4).toNat = some .fp32 ∧ AllMembers (cvtTags 0 2 0 .fp32) (vst .fp16) ∧
    AllMembers (cvtTags 1 2 4 .e4m3) (vst .fp32) ∧ AllMembers (cvtTags 1 2 0 .i32) (vst .fp32) ∧ AllMembers (cvtTags 0 1 0 .fp32) (vst .f4b) ∧
    (∀ t ∈ [Tag.fp16, .bf16, .fp32], AllMembers (tagsEqual classF false [0]) (vst t)) ∧ specialInput .rcp (.inf true) = some (.fin true 0 1, 0) ∧
    specialInput .log2 (.fin true 1 1) = some (.nan false, fNV) ∧ (1 : Nat) ≠ 0 ∧ (-150 : Int) ≤ -150 ∧ (-150 : Int) ≤ 150 ∧ 63 < 64 ∧
    tagFmt .fp16 = some fp16 ∧ isIntTag .i16 = true ∧ 0 < 2 ∧ (List.replicate 8 (Val.fin true 5 2)).length = 8 ∧ Val.inf true ∈ Val.inf true :: List.replicate 7 (.fin false 1 1) := by
  unfold AllMembers; decide +kernel

theorem test_meets_WrongTagsFaultFormat : ((vst .raw).th.broken && (vst .raw).th.brokenVec) = false ∧
    (let fails := fun (ok : Vector VReg 8 → Bool) (s : State) => (ok s.th.vecs && (gangMembers s).all (fun m => ok m.2.2)) = false
     fails (tagsEqual classA false [0, 1]) (vst .raw) ∧ fails (tagsEqual classA true [0, 1]) (vst .fp32) ∧ fails (tagsEqual isIntTag false [0, 1]) (vst .fp32) ∧
     fails (fun v => v[0].tag != .f4b) (vst .f4b) ∧ fails (fun _ => (tagOfCode (10 : BitVec 4).toNat).isSome && (10 : BitVec 4) != 9) (vst .raw) ∧ fails (fun _ => (tagOfCode (9 : BitVec 4).toNat).isSome && (9 : BitVec 4) != 9) (vst .raw) ∧
     fails (fun _ => (tagOfCode (10 : BitVec 4).toNat).isSome) (vst .raw) ∧ fails (cvtTags 0 1 0 .fp32) (vst .raw) ∧
     fails (dotTags 0 1 2) (vst .i8) ∧ fails (tagsEqual classF false [0]) (vst .i32) ∧ fails (fun v => v[0].tag == .f4b) (vst .i8) ∧
     (let v : Vector VReg 8 := #v[{ tag := .i8 }, { tag := .i16 }, {}, {}, {}, {}, {}, {}]
      fails (fun v => (resultTag v[(0 : VIdx)].tag v[(1 : VIdx)].tag).isSome) (one { thr [] with vecs := v }))) := by decide +kernel

/-! ### What meets the hypotheses: memory -/

theorem test_meets_PurseAddressesNameTheirBytes :
    let s := one (thr [])
    let p := { s with poison := [purseKey 0 0x2FFF0 / 16] }
    0x2FFF8 < 2 ^ 18 ∧ 0 < 2 ^ 18 ∧ 63 < 64 ∧ 8 ∈ [1, 2, 4, 8, 16, 32] ∧ 0x2FFF9 % 8 ≠ 0 ∧ 0x30000 % 8 = 0 ∧ 0x30000 < 0x30000 + 8 ∧ 0x2FFF8 % 8 = 0 ∧ 0x2FFF8 + 8 ≤ 0x30000 ∧
    heldTile s (purseKey 0 0x2FFF8) 8 = false ∧ poisoned s (purseKey 0 0x2FFF8) 8 = false ∧ heldTile p (purseKey 0 0x2FFF8) 8 = false ∧ poisoned p (purseKey 0 0x2FFF8) 8 = true ∧
    s.net.ofForm s 0 = some 0 ∧ s.net.ofForm s 0x3FFFF = none ∧
    s.net.toPhys s (8 * ((s.net.place s s.quad).1 / 8) + 63 % 8) (8 * ((s.net.place s s.quad).2 / 8) + 63 / 8) = some (quadAt 7 7) := by decide +kernel

/-- A thread of quad 0 with an own and a global address, and a global line whose map entry has changed at its port. -/
def mst : State := one (thr [(1, own 0x40), (2, glo 0x20000), (3, own 0x41), (4, own 0xB000)])
def mstPoison : State := { mst with poison := [purseKey 0 0x40 / 16, 0x20000 / 16] }
def mstStale : State := { mst with stalePorts := [0], oldMap := [(homeHash 0x20000, 77)] }
/-- The accumulator of core 0 is held by a gang of another thread. -/
def mstHeld : State := { mst with mgangs := [(1, { x0 := 0, y0 := 0, w := 1, h := 1, op := some {} })] }

theorem test_meets_SizedLoadsAndStoresCompleteOrFault :
    (∃ k u, access1 mst (BitVec.ofInt 64 ((mst.x 1).toInt + (8 : BitVec 12).toInt)) 8 8 false needR = .ok (k, u) ∧ isPurse k = true) ∧
    (∃ k u, access1 mst (BitVec.ofInt 64 ((mst.x 2).toInt + (8 : BitVec 40).toInt)) 8 8 false needR = .ok (k, u) ∧ (!isPurse k) = true) ∧
    (∃ k u, access1 mst (mst.x 1) 4 4 false needW = .ok (k, u) ∧ isPurse k = true) ∧
    (∃ k u, access1 mst (mst.x 2) 1 1 false needW = .ok (k, u) ∧ (!isPurse k && !poisoned mst k 1) = true) ∧
    (∃ k u, access1 { mstPoison with poison := [0x20000 / 16 + 1] } (mst.x 2 + 32) 1 1 false needW = .ok (k, u) ∧ (!isPurse k && !poisoned mst k 1) = true) ∧
    access1 mst (mst.x 3) 8 8 false needR = .error (.fault { cause := .align, addr := own 0x41 }) ∧
    access1 mstPoison (mst.x 1) 8 8 false needR = .error (.fault { cause := .poison, addr := own 0x40 } (some mstPoison)) ∧
    errP (access1 mstStale (mst.x 2) 8 8 false needW) (fun e => match e with | .wait w _ => w == .rehomed 0x20000 | _ => false) = true ∧
    errP (access1 mstHeld (mst.x 4) 4 4 false needW) (fun e => match e with | .wait w _ => w == .held | _ => false) = true := by
  and_intros <;> first | decide +kernel | exact meets (by decide +kernel) | exact meetsIf _ (by decide +kernel)

/-- The leader of `vst` with addresses. -/
def vmem : State :=
  let s := vst .i8
  s.setTh { s.th with regs := regs [(1, own 0x40), (2, glo 0x20000)] }
def vmem1 : State := { vmem with vgangs := [] }

/-- The caches after both members' accesses. -/
def vat1 (r : Reg) (nd : Need) (o : Bool) : State := after vmem (access vmem (vmem.x r + BitVec.ofNat 64 (32 * 0)) 32 32 false nd o 64)
def vat (r : Reg) (nd : Need) (o : Bool) : State := after vmem (access (vat1 r nd o) (vmem.x r + BitVec.ofNat 64 (32 * 1)) 32 32 false nd o 64)

theorem givesOne {s : State} {x : Run (List (Nat × Nat) × State)} {k n : Nat} (h : okP x (fun q => q.1 == [(k, n)]) = true) : x = .ok ([(k, n)], after s x) := by
  cases x with
  | ok q => simp only [okP, beq_iff_eq] at h; simp [after, ← h]
  | error e => simp [okP] at h

theorem test_meets_VectorLoadsAndStoresComplete :
    (vmem.th.broken && vmem.th.brokenVec) = false ∧
    (Tbl.get? vmem.vgangs vmem.cur).any (fun g => g.members.map (·.1) == (List.range g.size).filter (· != g.index)) = true ∧
    memberList vmem = [(0, none), (1, some 1)] ∧ memberList vmem1 = [(0, none)] ∧ vmem.poison = [] ∧
    MembersAt (vmem.x 1) needR false [(0, none), (1, some 1)] vmem [(none, purseKey 0 0x40), (some 1, purseKey 0 0x60)] (vat 1 needR false) ∧
    MembersAt (vmem.x 2) needW true [(0, none), (1, some 1)] vmem [(none, 0x20000), (some 1, 0x20020)] (vat 2 needW true) ∧
    (∃ u, MembersAt (vmem1.x 1) needR false [(0, none)] vmem1 [(none, purseKey 0 0x40)] u) ∧
    (2 : VIdx).val % 2 = 0 ∧ (∃ ks u, access vmem1 (vmem1.x 1) 64 32 false needR false 32 = .ok (ks, u) ∧ (ks.all (fun k => isPurse k.1)) = true) := by
  refine ⟨by decide +kernel, by decide +kernel, by decide +kernel, by decide +kernel, by decide +kernel, ?_, ?_, ?_, by decide +kernel, meetsIf _ (by decide +kernel)⟩
  · exact ⟨purseKey 0 0x40, 32, vat1 1 needR false, _, givesOne (by decide +kernel), rfl, purseKey 0 0x60, 32, vat 1 needR false, [], givesOne (by decide +kernel), rfl, rfl, rfl⟩
  · exact ⟨0x20000, 32, vat1 2 needW true, _, givesOne (by decide +kernel), rfl, 0x20020, 32, vat 2 needW true, [], givesOne (by decide +kernel), rfl, rfl, rfl⟩
  · exact ⟨_, purseKey 0 0x40, 32, _, [], givesOne (s := vmem1) (by decide +kernel), rfl, rfl, rfl⟩

/-- A request of berth 17 for the granule at 0x40 of quad 0's purse. -/
def req1 : ParkReq := { berth := 17, tid := 8, key := purseKey 0 0x40, n := 8, zext := false, rd := 3, clear := true, len := 4 }
def mstWaits (n : Nat) : State := { mst with empties := [purseKey 0 0x40 / 16], waits := [(0, List.replicate n req1)] }

theorem test_meets_FullEmptyFormsComplete :
    (∃ k u, access1 mst (mst.x 3) 1 1 true needR = .ok (k, u)) ∧ (∃ k u, access1 mst (mst.x 1) 1 1 true needW = .ok (k, u)) ∧
    (∃ k u, access1 mst (mst.x 1) 8 8 true needW = .ok (k, u)) ∧ Tbl.getD mst.waits 0 [] = [] ∧
    (∃ k u, access1 (mstWaits 1) (mst.x 1) 8 8 true needW = .ok (k, u) ∧ (k == purseKey 0 0x40) = true) ∧ Tbl.getD (mstWaits 1).waits (keyQuad (purseKey 0 0x40)) [] = req1 :: [] ∧
    req1.key / 16 = purseKey 0 0x40 / 16 ∧ req1.clear = true ∧ req1.berth ≠ (mstWaits 1).cur ∧ req1.rd ≠ 0 ∧
    (∃ k u, access1 mst (mst.x 1) 8 8 true needRW = .ok (k, u) ∧ (!mst.empties.contains (k / 16)) = true) ∧
    (∃ k u, access1 (mstWaits 127) (mst.x 1) 8 8 true needRW = .ok (k, u) ∧ ((mstWaits 127).empties.contains (k / 16)) = true) ∧
    (Tbl.getD (mstWaits 127).waits (keyQuad (purseKey 0 0x40)) []).length < 128 ∧
    (∃ k u, access1 (mstWaits 128) (mst.x 1) 8 8 true needRW = .ok (k, u)) ∧ ¬(Tbl.getD (mstWaits 128).waits (keyQuad (purseKey 0 0x40)) []).length < 128 := by
  and_intros <;> first | decide +kernel | exact meets (by decide +kernel) | exact meetsIf _ (by decide +kernel)

theorem test_meets_AtomicsReadModifyWrite : (∃ k u, access1 mst (mst.x 1) 8 8 false needRW = .ok (k, u) ∧ isPurse k = true) ∧ hasStores mst = false ∧
    (∃ k u, access1 mst (mst.x 2) 4 4 false needRW = .ok (k, u) ∧ (!isPurse k) = true) ∧
    hasStores { mst with stores := [{ tid := 5, addr := 0x20000, bytes := [1], wts := 0 }] } = true := by
  and_intros <;> first | decide +kernel | exact meets (by decide +kernel) | exact meetsIf _ (by decide +kernel)

theorem test_meets_PrefetchesAndFencesComplete :
    mst.th.wait = .ready ∧
    -- a line that is named, no line that is
    (formOf (mst.ea 2 (0 : BitVec 12)) = some (.glob 0x20000) ∧ okP (globAccess mst mst.quad mst.th.net 0x20000 1 needR) (fun q => q.1 == 0x20000) = true) ∧ formOf (mst.ea 1 (0 : BitVec 12)) = some (.own 0x40) ∧
    nexts (exec (.pref 2 false 0) mst) (fun t => t.mem == mst.mem && t.copies.length == 1 && t.th == { mst.th with pc := 0x104 }) = true ∧
    nexts (exec (.prefExt 2 true 0) mst) (fun t => t == mst.setTh { mst.th with pc := 0x108 }) = true ∧
    nexts (exec (.pref 1 false 0) mst) (fun t => t == mst.setTh { mst.th with pc := 0x104 }) = true ∧
    -- two threads' stores in one line, and a third in another
    (let st (tid a : Nat) (v : Byte) : Store := { tid := tid, addr := a, bytes := [v], wts := 0 }
     let s := { mst with stores := [st 5 0x20000 7, st 6 0x20010 8, st 6 0x20100 9] }
     (st 5 0x20000 7).tid = s.th.tid ∧
     nexts (exec (.fence .module .rel) s) (fun t => t == { s with mem := t.mem, stores := [st 6 0x20100 9], berths := t.berths, floors := t.floors } && memGet t.mem 0x20000 == 7 &&
       memGet t.mem 0x20010 == 8 && memGet t.mem 0x20100 == 0) = true ∧
     nexts (exec (.fence .quad .acq) s) (fun t => t.mem == s.mem && t.stores == s.stores) = true) ∧
    nexts (exec (.fence .quad .acq) { mst with copies := [{ guest := false, holder := 0, line := 9, data := [], wts := 0, lend := 12, gtick := 0 }] }) (fun t => t.th.pts == 12) = true := by
  decide +kernel
/-! ### What meets the hypotheses: link and grab -/

/-- The port words of a slot and of a node in the own quad's purse. -/
def aux (off : Nat) : Word := BitVec.ofNat 64 (2 ^ 60 + off)
def prin (off : Nat) : Word := BitVec.ofNat 64 (2 * 2 ^ 60 + off)
/-- The IMM word of kind 0x21. -/
def imm : Word := BitVec.ofNat 64 (5 * 2 ^ 60 + 0x21 * 2 ^ 51)
/-- Purse bytes of quad 0: words at offsets. -/
def purse (l : List (Nat × Word)) : List Host.Cell := bytesAt (l.map (fun e => (purseKey 0 e.1, wordBytes e.2)))
/-- A thread whose x1 names an end and x2 another, with the words that stand in its quad's purse. -/
def lst (a b : Word) (l : List (Nat × Word)) : State := { one (thr [(1, a), (2, b)]) with mem := purse l }

theorem test_meets_GrabReadsTheFarPort :
    ((3 : Reg) = 4 → (3 : Reg) = 0) ∧ ((0 : Reg) = 0 → (0 : Reg) = 0) ∧
    (let s := lst (aux 0x1010) 0 [(0x1010, imm)]
     endOk true (s.x 1) = true ∧ (∃ k u, access1 s (addrOf (s.x 1)) 8 1 false needR = .ok (k, u) ∧
       (isPurse k && kindOk (immKind (bytesWord (clrLoad k 8 s).1)) && tagOf (bytesWord (clrLoad k 8 s).1) == 5) = true)) ∧
    (let s := lst (aux 0x1010) 0 [(0x1010, prin 0x1100), (0x1100, 0x2100000000000000)]
     endOk true (s.x 1) = true ∧ (∃ k u, access1 s (addrOf (s.x 1)) 8 1 false needR = .ok (k, u) ∧ (bytesWord (clrLoad k 8 s).1 == prin 0x1100) = true) ∧
       portOk (prin 0x1100) = true ∧ tagOf (prin 0x1100) = 2 ∧
       (∃ k u, access1 s (addrOf (prin 0x1100)) 8 1 false needR = .ok (k, u) ∧ headerOk (bytesWord (clrLoad k 8 s).1) = true)) := by
  and_intros <;> first | decide +kernel | exact meets (by decide +kernel) | exact meetsIf _ (by decide +kernel)

theorem test_grab_reads_header : nexts (exec (.grab 3 1 4) (lst (aux 0x1010) 0 [(0x1010, prin 0x1100), (0x1100, 0x2100000000000000)]))
    (fun t => t.x 3 == prin 0x1100 && t.x 4 == 0x2100000000000000) = true := by decide +kernel

/-- The REDIR word of a cell of the own purse. -/
def redir (off : Nat) : Word := BitVec.ofNat 64 (3 * 2 ^ 60 + off)
/-- The header of a node of kind 0x21 and arity 0. -/
def head21 : Word := 0x2100000000000000
/-- Two new ends: a node's principal port and a slot; a principal port, whose header is given, and an IMM word, in either order. -/
def linkNew1 : State := lst (prin 0x1100) (aux 0x1210) [(0x1108, holdWord), (0x1210, holdWord)]
def linkNew2 (h : Word) : State := lst (prin 0x1100) imm [(0x1108, holdWord), (0x1100, h)]
def linkNew3 : State := lst imm (prin 0x1100) [(0x1108, holdWord)]
/-- An old and a new end, the far port a slot or a node; two old ends of two wires; two old ends of one wire. -/
def linkOld1 : State := lst (aux 0x1010) (prin 0x1200) [(0x1010, aux 0x1020), (0x1020, aux 0x1010), (0x1208, holdWord)]
def linkOldP : State := lst (aux 0x1010) (prin 0x1200) [(0x1010, prin 0x1040), (0x1048, aux 0x1010), (0x1208, holdWord), (0x1200, head21), (0x1040, head21)]
def linkOld2 : State := lst (aux 0x1010) (aux 0x1018) [(0x1010, aux 0x1020), (0x1018, imm), (0x1020, aux 0x1010)]
def linkLoop : State := lst (aux 0x1010) (aux 0x1018) [(0x1010, aux 0x1018), (0x1018, aux 0x1010)]

/-- Whether the slot of a port lies at a key. -/
def slotIs (s : State) (w : Word) (k : Nat) : Bool := isPurse k && okP (slotKey s w) (fun q => q.1 == some k)
/-- Whether the double of an old end's slot lies at a key. -/
def endIs (s : State) (w : Word) (k : Nat) : Bool := isPurse k && okP (access1 s (addrOf w) 8 1 false needRW) (fun q => q.1 == k)

/-- The checks of an old and a new end: keys, the cell, and the far port and its slot's word after the publish. -/
def oneOld (s : State) (a b : Reg) (oldFirst : Bool) (k kb kp : Nat) (far : Word) : Bool :=
  okP (linkChecks (s.x a) (s.x b) oldFirst (!oldFirst) s) (fun q =>
    let m := (publish .module q.2.2.2).mem
    q.1 == some (if oldFirst then k else kb) && q.2.1 == some (if oldFirst then kb else k) && q.2.2.1 == [0x3000] && wordAt m k == far &&
      wordAt m kp == (if oldFirst then s.x a else s.x b) && slotIs q.2.2.2 far kp)

/-- What rangeSide finds of both ends once two new ends are written. -/
def newSides (s : State) : Run (Bool × Bool) :=
  match linkChecks (s.x 1) (s.x 2) false false s with
  | .error e => .error e
  | .ok (ka, kb, _, u) =>
    let w := publish .module u
    let w := match ka with | some k => writeSlot k (s.x 2) w | none => w
    let w := match kb with | some k => writeSlot k (s.x 1) w | none => w
    (match rangeSide (s.x 1) w with
     | .error e => .error e
     | .ok (x, v) => match rangeSide (s.x 2) v with
       | .error e => .error e
       | .ok (y, _) => .ok (x, y))

/-- Whether a side's header lies at a key of the purse and is well formed. -/
def headIs (s : State) (w : Word) (k : Nat) : Bool :=
  tagOf w == 2 && isPurse k && headerOk (wordAt s.mem k) && okP (access1 s (addrOf w) 8 1 false needR) (fun q => q.1 == k)

theorem unfaced (w a b : Word) (l : List (Nat × Word)) : Unfaced (lst a b l) w := by
  intro e he p h
  have he : e ∈ [(0, ({ ctx := thr [(1, a), (2, b)] } : Berth))] := he
  rw [List.mem_singleton] at he
  exact absurd (by rw [he]; rfl) h

theorem test_meets_LinksJoinTheirEnds :
    (okP (linkChecks (linkNew1.x 1) (linkNew1.x 2) false false linkNew1) (fun q => q.1 == some (purseKey 0 0x1108) && q.2.1 == some (purseKey 0 0x1210) && q.2.2.1 == []) = true ∧
      ¬Redex (linkNew1.x 1) (linkNew1.x 2)) ∧
    (let s := linkNew2 head21
     okP (linkChecks (s.x 1) (s.x 2) false false s) (fun q => q.1 == some (purseKey 0 0x1108) && q.2.1 == none && q.2.2.1 == []) = true ∧
      Redex (s.x 1) (s.x 2) ∧ RoomToPush s ∧ okP (newSides s) (fun q => q == (false, false)) = true ∧ headIs s (s.x 1) (purseKey 0 0x1100) = true ∧ tagOf imm ≠ 2) ∧
    (faultIs (newSides (linkNew2 0)) .linkCorrupt = true ∧ Redex (linkNew3.x 1) (linkNew3.x 2) ∧ faultIs (newSides linkNew3) .linkCorrupt = true ∧ headerOk 0 = false) ∧
    (okP (linkChecks (linkLoop.x 1) (linkLoop.x 2) true true linkLoop) (fun q => q.1 == some (purseKey 0 0x1010) && q.2.1 == some (purseKey 0 0x1018) && q.2.2.1 == [0x3000, 0x3010] &&
      wordAt (publish .module q.2.2.2).mem (purseKey 0 0x1010) == linkLoop.x 2 && wordAt (publish .module q.2.2.2).mem (purseKey 0 0x1018) == linkLoop.x 1) = true ∧
      linkLoop.linkBudget = none ∧ Apart (purseKey 0 0x1010) 8 (purseKey 0 0x1018) 8) ∧
    (oneOld linkOld1 1 2 true (purseKey 0 0x1010) (purseKey 0 0x1208) (purseKey 0 0x1020) (aux 0x1020) = true ∧ Port (aux 0x1020) ∧ ¬Redex (linkOld1.x 2) (aux 0x1020) ∧
      oneOld linkOldP 1 2 true (purseKey 0 0x1010) (purseKey 0 0x1208) (purseKey 0 0x1048) (prin 0x1040) = true ∧ Port (prin 0x1040) ∧ Redex (linkOldP.x 2) (prin 0x1040) ∧ RoomToPush linkOldP ∧
      oneOld linkOld1 2 1 false (purseKey 0 0x1208) (purseKey 0 0x1010) 0 0 = false ∧
      oneOld { linkOld1 with berths := [(0, { ctx := thr [(2, aux 0x1010), (1, prin 0x1200)] })] } 1 2 false (purseKey 0 0x1010) (purseKey 0 0x1208) (purseKey 0 0x1020) (aux 0x1020) = true ∧
      0x3000 + 16 ≤ 0x30000 ∧ Apart (purseKey 0 0x1010) 8 (purseKey 0 0x1208) 8 ∧ Apart (purseKey 0 0x1010) 8 (purseKey 0 0x1020) 8 ∧ Apart (purseKey 0 0x1208) 8 (purseKey 0 0x1020) 8 ∧
      Apart (purseKey 0 0x1010) 8 (purseKey 0 0x3000) 16 ∧ Apart (purseKey 0 0x1208) 8 (purseKey 0 0x3000) 16 ∧ Apart (purseKey 0 0x1020) 8 (purseKey 0 0x3000) 16 ∧
      headIs linkOldP (prin 0x1200) (purseKey 0 0x1200) = true ∧ headIs linkOldP (prin 0x1040) (purseKey 0 0x1040) = true ∧
      [0x1200, 0x1040].all (fun h => [(0x1010, 8), (0x1208, 8), (0x1048, 8), (0x3000, 16)].all (fun w => decide (h + 8 ≤ w.1 ∨ w.1 + w.2 ≤ h))) = true) ∧
    Unfaced linkOld1 (aux 0x1010) ∧ Unfaced linkOldP (aux 0x1010) ∧
    -- the acts: two old ends to be claimed, a claim of no port, one and two old ends to be redirected
    (let o1 : OldEnd := { slot := aux 0x1010, cell := 0x3000 }
     let o2 : OldEnd := { slot := aux 0x1018, cell := 0x3010 }
     let c1 : OldEnd := { o1 with claimed := true, far := aux 0x1020 }
     let c2 : OldEnd := { o2 with claimed := true, far := imm }
     okP (linkChecks (linkOld2.x 1) (linkOld2.x 2) true true linkOld2) (fun q => q.2.2.1 == [0x3000, 0x3010]) = true ∧
     [o1, o2].find? (fun x => !x.claimed) = some o1 ∧ endIs linkOld2 o1.slot (purseKey 0 0x1010) = true ∧ Port (wordAt linkOld2.mem (purseKey 0 0x1010)) ∧
     (let s := lst (aux 0x1010) (prin 0x1200) [(0x1010, holdWord), (0x1208, holdWord)]
      endIs s o1.slot (purseKey 0 0x1010) = true ∧ ¬Port (wordAt s.mem (purseKey 0 0x1010))) ∧
     ({ rd := 3, olds := [c1, c2] } : LinkProg).resolved = false ∧ ¬(c1.far = c2.slot ∧ c2.far = c1.slot) ∧ [c1, c2].find? (fun x => !x.redirected) = some c1 ∧ [c1].find? (fun x => !x.redirected) = some c1 ∧
     c1.cell + 16 ≤ 0x30000 ∧ c1.slot ≠ c2.slot ∧ Apart (purseKey 0 0x1010) 8 (purseKey linkOld2.quad c1.cell) 16 ∧
     (let s := { linkOld2 with linkBudget := some 0 }
      let p : LinkProg := { rd := 3, olds := [o1, o2] }
      s.linkBudget = some 0 ∧ p.over = false ∧ (match linkAct { p with onHold := false } s with | .going q _ => !q.over | _ => false) = true)) := by
  unfold Redex RoomToPush Port Apart
  and_intros <;> first | exact unfaced _ _ _ _ | decide +kernel

theorem test_link_pushes : nexts (exec (.link 3 1 2 false false) (linkNew2 head21)) (fun t => t.x 3 == 1 && (t.deque 0).length == 1 && t.th.coin == 512) = true := by decide +kernel
theorem test_link_closes_wire : nexts (exec (.link 3 1 2 true true) linkLoop) (fun t => bankWord t (purseKey 0 0x1010) == 0 && bankWord t (purseKey 0 0x1018) == 0 && t.deque 0 == []) = true := by
  decide +kernel

/-- A `link` of one old end whose slot carries REDIR; its far port's slot holds w. The other party's cell names the port at 0x1240. -/
def half (slot far : Nat) (w : Word) : State :=
  lst 0 0 [(slot, redir 0x3000), (far, w), (0x1208, holdWord), (0x1248, holdWord), (0x3000, prin 0x1200), (0x3008, holdWord), (0x3010, prin 0x1240), (0x3018, holdWord)]
def halfEnd (slot far : Nat) : OldEnd := { slot := aux slot, cell := 0x3000, far := aux far, claimed := true, redirected := true }
/-- Its sides: the far port's, and the new end's, or two others. -/
def sideL (slot far : Nat) : WireSide := farSide 0 (halfEnd slot far)
def sideR : WireSide := { port := prin 0x1200, exp := holdWord }
def halfOf (slot far : Nat) (l r : WireSide) : LinkProg := { rd := 3, olds := [halfEnd slot far], new := prin 0x1200, sides := [l, r] }
def halfProg (slot far : Nat) : LinkProg := halfOf slot far (sideL slot far) sideR

theorem joining (slot far : Nat) (l r : WireSide) : Joining (halfOf slot far l r) l r :=
  ⟨by intro o ho; rw [show o = halfEnd slot far from List.mem_singleton.mp ho]; exact ⟨rfl, rfl⟩,
   by intro x y h; exact absurd (congrArg List.length h) (show ¬(1 = 2) by decide), rfl, rfl, rfl⟩

/-- A second old end whose far port is given, and a `link` of both; their slots and far ports hold four words. -/
def endOf (slot cell : Nat) (far : Word) : OldEnd := { slot := aux slot, cell := cell, far := far, claimed := true, redirected := true }
def twoOf (o : OldEnd) (l r : WireSide) : LinkProg := { rd := 3, olds := [halfEnd 0x1010 0x1020, o], sides := [l, r] }
def two (y x fx fy : Word) : State := lst 0 0 [(0x1018, y), (0x1010, x), (0x1020, fx), (0x1028, fy)]

theorem joining2 (far : Word) (l r : WireSide) : Joining (twoOf (endOf 0x1018 0x3010 far) l r) l r := by
  refine ⟨?_, ?_, rfl, rfl, rfl⟩
  · intro o ho
    rcases List.mem_cons.mp ho with h | h
    · rw [h]; exact ⟨rfl, rfl⟩
    · rw [List.mem_singleton.mp h]; exact ⟨rfl, rfl⟩
  · intro x y h hf
    have hx : x = halfEnd 0x1010 0x1020 := (List.cons.inj h).1.symm
    have hy : y = endOf 0x1018 0x3010 far := (List.cons.inj (List.cons.inj h).2).1.symm
    subst hx hy
    exact absurd hf.1 (show aux 0x1020 ≠ aux 0x1018 by decide)

theorem oneOldEnd (x y : OldEnd) : (halfProg 0x1010 0x1020).olds ≠ [x, y] := fun h => absurd (congrArg List.length h) (show ¬(1 = 2) by decide)

theorem test_meets_HalfJoinsCompareAndSwap :
    (∀ slot far l r, Joining (halfOf slot far l r) l r) ∧ (sideL 0x1010 0x1020).face ≠ some sideR.port ∧ sideR.face ≠ some (sideL 0x1010 0x1020).port ∧
    Open (sideL 0x1010 0x1020) ∧ Open sideR ∧ sideR.face = none ∧
    -- the first half-join finds the expected word, or the own slot EMPTY or broken
    (let s := half 0x1010 0x1020 (aux 0x1010)
     otherLinks s = [] ∧ slotIs s (aux 0x1010) (purseKey 0 0x1010) = true ∧ wordAt s.mem (purseKey 0 0x1010) ≠ 0 ∧ portOk (wordAt s.mem (purseKey 0 0x1010)) = true ∧
       slotIs s (aux 0x1020) (purseKey 0 0x1020) = true ∧ wordAt s.mem (purseKey 0 0x1020) = (sideL 0x1010 0x1020).exp) ∧
    (let s := lst 0 0 [(0x1020, aux 0x1010)]
     wordAt s.mem (purseKey 0 0x1010) = 0 ∧ slotIs s (aux 0x1010) (purseKey 0 0x1010) = true) ∧
    (let s := lst 0 0 [(0x1010, redir 0x3011)]
     wordAt s.mem (purseKey 0 0x1010) ≠ 0 ∧ portOk (wordAt s.mem (purseKey 0 0x1010)) = false ∧ slotIs s (aux 0x1010) (purseKey 0 0x1010) = true) ∧
    -- the second half-join, the first made: its slot holds HOLD as expected, or EMPTY
    (let l : WireSide := { sideL 0x1010 0x1020 with exp := prin 0x1200, face := none, cell := none, made := true }
     ¬Open l ∧ l.made = true ∧ slotIs (half 0x1010 0x1020 (prin 0x1200)) sideR.port (purseKey 0 0x1208) = true ∧
       wordAt (half 0x1010 0x1020 (prin 0x1200)).mem (purseKey 0 0x1208) = sideR.exp ∧ ¬Redex sideR.port l.port ∧ Redex sideR.port (prin 0x1240)) ∧
    -- HOLD, where a port is expected and where none is, and other words, with one old end
    (let s := half 0x1010 0x1020 holdWord
     wordAt s.mem (purseKey 0 0x1020) = BitVec.ofNat 64 (4 * 2 ^ 60) ∧ tagOf (sideL 0x1010 0x1020).exp = 1 ∧ tagOf imm ≠ 1 ∧ imm ≠ BitVec.ofNat 64 (4 * 2 ^ 60)) ∧
    (∀ x y, (halfProg 0x1010 0x1020).olds ≠ [x, y]) ∧
    [aux 0x1028, redir 0x3011, 0].all (fun w =>
      let x := wordAt (half 0x1010 0x1020 w).mem (purseKey 0 0x1020)
      x != aux 0x1010 && x != holdWord && !(tagOf x == 3 && portOk x)) = true ∧ sideR.made = false ∧ (sideL 0x1010 0x1020).alt = 0 ∧
    -- a port word that is not the expected one, with two old ends: the other's slot reads EMPTY or not, before its half-join and after it
    (∀ far l r, Joining (twoOf (endOf 0x1018 0x3010 far) l r) l r) ∧
    [0, redir 0x3010].all (fun w =>
      let s := two w (redir 0x3000) (aux 0x1050) 0
      let l := sideL 0x1010 0x1020
      let r : WireSide := { port := imm, exp := aux 0x1018, face := some (aux 0x1018), cell := some (purseKey 0 0x3010) }
      otherLinks s == [] && wordAt s.mem (purseKey 0 0x1010) == redir 0x3000 && slotIs s (aux 0x1010) (purseKey 0 0x1010) && slotIs s l.port (purseKey 0 0x1020) &&
        wordAt s.mem (purseKey 0 0x1020) == aux 0x1050 && l.exp != aux 0x1050 && l.alt == 0 && slotIs s (aux 0x1018) (purseKey 0 0x1018) && wordAt s.mem (purseKey 0 0x1018) == w &&
        (match linkAct (twoOf (endOf 0x1018 0x3010 imm) l r) s with | .going q _ => w == 0 && q.resolved && q.sides == [] | .fault f _ => w != 0 && f.cause == .linkCorrupt | _ => false)) = true ∧
    [0, redir 0x3000].all (fun w =>
      let s := two (redir 0x3010) w 0 (aux 0x1050)
      let l : WireSide := { sideL 0x1010 0x1020 with exp := aux 0x1028, face := none, cell := none, made := true }
      let r := farSide 0 (endOf 0x1018 0x3010 (aux 0x1028))
      otherLinks s == [] && r.face == some (aux 0x1018) && wordAt s.mem (purseKey 0 0x1018) == redir 0x3010 && slotIs s (aux 0x1018) (purseKey 0 0x1018) &&
        slotIs s r.port (purseKey 0 0x1028) && wordAt s.mem (purseKey 0 0x1028) == aux 0x1050 && r.exp != aux 0x1050 && r.alt == 0 && slotIs s (aux 0x1010) (purseKey 0 0x1010) &&
        wordAt s.mem (purseKey 0 0x1010) == w &&
        (match linkAct (twoOf (endOf 0x1018 0x3010 (aux 0x1028)) l r) s with | .going q _ => w == 0 && q.resolved && q.sides == [] | .fault f _ => w != 0 && f.cause == .linkCorrupt | _ => false)) = true ∧
    (redir 0x3000 ≠ 0 ∧ redir 0x3010 ≠ 0 ∧ portOk (redir 0x3000) = true ∧ portOk (aux 0x1050) = true ∧ tagOf (aux 0x1050) ≠ 3 ∧ aux 0x1050 ≠ holdWord ∧ aux 0x1018 ≠ aux 0x1010) ∧
    -- a meeting, from the lower slot and from the higher one
    [(0x1010, 0x1020), (0x1020, 0x1010)].all (fun e =>
      let s := half e.1 e.2 (redir 0x3010)
      let found := wordAt s.mem (purseKey 0 e.2)
      otherLinks s == [] && tagOf found == 3 && portOk found && okP (access1 s (addrOf found) 16 1 false needRW) (fun q => q.1 == purseKey 0 0x3010) &&
        wordAt s.mem (purseKey 0 0x3018) == holdWord && wordAt s.mem (purseKey 0 0x3010) == prin 0x1240 && slotIs s (aux e.1) (purseKey 0 e.1) && slotIs s (aux e.2) (purseKey 0 e.2)) = true ∧
    Port (prin 0x1240) ∧ tagOf sideR.port ∈ [1, 2] ∧ (aux 0x1010).toNat % 2 ^ 60 ≤ (aux 0x1020).toNat % 2 ^ 60 ∧
    (let s := half 0x1020 0x1010 (redir 0x3010)
     slotIs s sideR.port (purseKey 0 0x1208) = true ∧ wordAt s.mem (purseKey 0 0x1208) = sideR.exp) ∧
    -- two `link`s in progress that meet, from the lower slot and from the higher one
    [(0x1010, 0x1020), (0x1020, 0x1010)].all (fun e =>
      let s := { half e.1 e.2 (redir 0x3010) with berths := [(0, { ctx := thr [] }), (1, { ctx := { thr [] with tid := 6, wait := .link (halfProg e.2 e.1) } })] }
      otherLinks s == [(1, halfProg e.2 e.1)] && (sideL e.1 e.2).face == some (aux e.1) && (sideL e.2 e.1).port == aux e.1 && (sideL e.2 e.1).face == some (sideL e.1 e.2).port &&
        slotIs s (aux e.1) (purseKey 0 e.1) && wordAt s.mem (purseKey 0 e.1) == redir 0x3000 && slotIs s (aux e.2) (purseKey 0 e.2) && wordAt s.mem (purseKey 0 e.2) == redir 0x3010 &&
        okP (access1 s (addrOf (redir 0x3010)) 16 1 false needRW) (fun q => q.1 == purseKey 0 0x3010)) = true ∧ portOk (redir 0x3000) = true ∧ portOk (redir 0x3010) = true ∧
    (let r : WireSide := { port := imm, exp := 0 }
     ¬Open r ∧ tagOf (prin 0x1240) ∈ [1, 2]) ∧
    -- the party that another one has met
    (let p : LinkProg := { halfProg 0x1010 0x1020 with sides := [], gone := some (aux 0x1010) }
     p.resolved = false ∧ p.gone = some (aux 0x1010) ∧ tagOf (aux 0x1010) = 1 ∧ otherLinks (half 0x1010 0x1020 0) = [] ∧
       wordAt (half 0x1010 0x1020 0).mem (purseKey 0 0x1010) ≠ 0 ∧ portOk (wordAt (lst 0 0 [(0x1010, redir 0x3011)]).mem (purseKey 0 0x1010)) = false ∧ wordAt (lst 0 0 []).mem (purseKey 0 0x1010) = 0 ∧ slotIs (lst 0 0 []) (aux 0x1010) (purseKey 0 0x1010) = true) := by
  unfold Port Redex Open
  and_intros <;> first | with_reducible exact joining | with_reducible exact joining2 | with_reducible exact oneOldEnd | decide +kernel

/-- Two parties that meet (02 R41): the lower slot completes, writes EMPTY into the other's slot and goes on with its target's half-join. -/
theorem test_meeting_joins_targets : (match linkAct (halfProg 0x1010 0x1020) (half 0x1010 0x1020 (redir 0x3010)) with
    | .going p t => p.status == 4 && p.sides.map (·.port) == [prin 0x1200, prin 0x1240] && wordAt t.mem (purseKey 0 0x1020) == 0 &&
      (match linkAct p t with | .going _ u => wordAt u.mem (purseKey 0 0x1208) == prin 0x1240 | _ => false)
    | _ => false) = true := by decide +kernel

/-! ### What meets the hypotheses: gangs, tiles and the assayer -/

def gang1 : MGang := { x0 := 0, y0 := 0, w := 1, h := 1 }
/-- A thread in a berth of its own choosing. -/
def oneAt (b : Nat) (c : Ctx) : State := { one c with cur := b, berths := [(b, { ctx := c })] }

theorem test_meets_GangsFormAndDisband :
    (let s := { one (thr [(1, 0)]) with mgangs := [(0, gang1)] }
     Tbl.get? s.mgangs s.cur ≠ none ∨ Tbl.get? s.vgangs s.cur ≠ none) ∧
    (let s := oneAt 16 (thr [(1, 0xF)])
     (Tbl.get? s.mgangs s.cur = none ∧ Tbl.get? s.vgangs s.cur = none) ∧ ¬(coreX (coreId s.cur) % 16 + ((s.x 1).toNat % 16 + 1) ≤ 16)) ∧
    (let s := one (thr [(1, 0xFF)])
     coreX (coreId s.cur) % 16 + 16 ≤ 16 ∧ coreY (coreId s.cur) % 16 + 16 ≤ 16 ∧ (∀ x, x < 16 → ∀ y, y < 16 → s.net.inRegion s (coreAt x y / 4) = true) ∧
       ¬(∃ e ∈ s.mgangs, e.2.has 0 = true)) ∧
    (let s := { one (thr [(1, 3)]) with fused := [quadAt 1 0] }
     ¬(∀ x, x < 4 → ∀ y, y < 1 → s.net.inRegion s (coreAt x y / 4) = true)) ∧
    (let s := { one (thr [(1, 0), (2, 2)]) with mgangs := [(5, gang1)] }
     ∃ e ∈ s.mgangs, e.2.has (coreAt 0 0) = true) ∧
    (let s := one (thr [(2, 2), (3, 8), (4, 4), (5, 5)])
     (s.x 2).toNat % 16 = 2 ∧ (s.x 3).toNat % 16 = 8 ∧ (s.x 5).toNat % 16 = 5 ∧ (∀ m, m < 8 → s.net.inRegion s (groupCore 0 8 m / 4) = true) ∧
       (∀ m, m < 8 → m ≠ groupIndex 0 8 → Tbl.get? s.berths (16 * groupCore 0 8 m) = none ∧ s.vgangs = [] ∧ Tbl.get? s.residents (16 * groupCore 0 8 m) = none)) ∧
    (let s := { one (thr [(3, 8)]) with fused := [quadAt 1 0] }
     ¬(∀ m, m < 8 → s.net.inRegion s (groupCore 0 8 m / 4) = true)) ∧
    (let s := { one (thr [(2, 2)]) with berths := [(0, { ctx := thr [(2, 2)] }), (16, {})] }
     ∃ m, m < 2 ∧ m ≠ groupIndex 0 2 ∧ Tbl.get? s.berths (16 * groupCore 0 2 m) ≠ none) := by decide +kernel

theorem test_gangv_forms : nexts (exec (.gangv 3 2) (one (thr [(2, 8)]))) (fun t => t.x 3 == 0 && (Tbl.getD t.vgangs 0 { size := 0, index := 0, members := [] }).members.map (·.2.1) ==
    [16, 32, 48, 64, 80, 96, 112]) = true := by decide +kernel

/-- A leader with a tile's address, a pitch, and a bad address. -/
def tst : State := { one (thr [(1, glo 0x20000), (2, 128), (3, glo 0x20010), (4, glo 0x30000), (5, glo 0x30040), (6, own 0), (7, glo 0x3FFFFF80), (8, glo 0x50000000), (9, glo 0x30008)]) with
  tape := List.replicate 9 0, mgangs := [(0, gang1)], mem := bytesAt [(0x30000, leBytes 8 2 ++ leBytes 8 0 ++ leBytes 4 4 ++ leBytes 4 0x1C0004), (0x30040, leBytes 8 33)] }

theorem test_meets_TilesAreZeroedLoadedAndStored :
    (Tbl.get? tst.mgangs tst.cur = some gang1 ∧ tst.th.broken = false) ∧ tst.waits = [] ∧ tst.poison = [] ∧ (tst.x 1).toNat % 32 = 0 ∧ (tst.x 2).toNat % 32 = 0 ∧
    32 * gang1.w * 4 ≤ (tst.x 2).toNat ∧ (tileSectors gang1 4 (tst.x 1).toNat (tst.x 2).toNat).length = 128 ∧
    (checkSectors needR (tileSectors gang1 4 (tst.x 1).toNat (tst.x 2).toNat) tst).2.1 = none ∧ (checkSectors needW (tileSectors gang1 2 (tst.x 1).toNat (tst.x 2).toNat) tst).2.1 = none ∧
    (∀ nd ∈ [needR, needW], let r := checkSectors nd (tileSectors gang1 4 (tst.x 7).toNat (tst.x 2).toNat) tst
      r.1.length = 4 ∧ (match r.2.1 with | some (.fault f _) => f.cause == .page | _ => false) = true) ∧
    poisoned { tst with poison := [elemKey gang1 31 31 / 16] } (elemKey gang1 31 31) 4 = true ∧ (31 < 32 * gang1.h ∧ 31 < 32 * gang1.w ∧ gang1.shape = none) ∧
    ¬((tst.x 3).toNat % 32 = 0) ∧ 7 < 32 / 4 ∧ 15 < 32 / 2 ∧ isPurse (purseKey 0 0x100) = true ∧ isPurse 0x100 = false := by
  decide +kernel

theorem test_tload_widens : nexts (exec (.tload 1 2 .bf16) { tst with mem := bytesAt [(0x20000, [0x80, 0x3F])], mgangs := [(0, { gang1 with shape := some [(0, 1)] })] }) (fun t => memRead t.mem (purseKey 0 0xB000) 4 == [0, 0, 0x80, 0x3F]) = true := by
  decide +kernel

theorem test_meets_ShapesAndStreamsBind :
    tst.x 0 = 0 ∧ tst.x 4 ≠ 0 ∧ errP (access1 tst (tst.x 9) 16 16 false needR) (fun e => match e with | .fault f _ => f.cause == .align | _ => false) = true ∧
    okP (access1 tst (tst.x 4) 16 16 false needR) (fun q =>
      let first := min 144 (256 - q.1 % 256)
      let r := clrLoad q.1 first q.2
      q.1 == 0x30000 && dbl r.1 0 == 2 && okP (access r.2 (tst.x 4) 24 16 false needR false 16) (fun a =>
        let l := r.1.take 24 ++ (clrLoads (a.1.filter (fun p => p.1 < q.1 || q.1 + first ≤ p.1)) a.2).1
        dbl l 8 == 0 && decide (leNat ((l.drop 16).take 4) / 2 ^ 16 + leNat ((l.drop 16).take 4) % 2 ^ 16 ≤ leNat ((l.drop 20).take 4) / 2 ^ 16 ∧
          leNat ((l.drop 20).take 4) / 2 ^ 16 + leNat ((l.drop 20).take 4) % 2 ^ 16 ≤ 32 * gang1.h))) = true ∧
    okP (access1 tst (tst.x 5) 16 16 false needR) (fun q => decide (32 < dbl (clrLoad q.1 144 q.2).1 0) && okP (access (clrLoad q.1 144 q.2).2 (tst.x 5) 16 16 false needR false 16) (fun _ => true)) = true ∧
    -- a pending assay owes the record's first granule, its last, or none of it
    tst.assays = [] ∧ (∀ k ∈ [0x30000, 0x30010],
      let x : AssayOp := { berth := 16, cluster := 0, src := {}, n := 32, tmax := 1, bound := 0, record := [(k, 16)] }
      x.cluster = clusterOf ({ tst with assays := [x] } : State).quad ∧ x ∈ ({ tst with assays := [x] } : State).assays ∧ 0x30010 / 16 ∈ pieceGranules [(0x30000, 24)] ∧
        nexts (exec (.tshape 4) { tst with assays := [x] }) (fun t => t.th.wait == .held && t.th.pc == 0x100) = true) ∧
    -- a record whose end lies where no access reaches
    (let u := { tst with mem := bytesAt [(0x30000, leBytes 8 8)], poison := [0x30020 / 16] }
     okP (access1 u (u.x 4) 16 16 false needR) (fun q =>
      dbl (clrLoad q.1 144 q.2).1 0 == 8 && errP (access (clrLoad q.1 144 q.2).2 (u.x 4) 48 16 false needR false 16) (fun e => match e with | .fault f _ => f.cause == .poison | _ => false)) = true) ∧
    ((tst.x 1).toNat / 2 ^ 56 = 8 ∧ (tst.x 1).toNat % 32 = 0) ∧ ¬(tst.x 6 = 0 ∨ (tst.x 6).toNat / 2 ^ 56 = 8) ∧ (tst.x 3).toNat / 2 ^ 56 = 8 ∧ (tst.x 3).toNat % 32 ≠ 0 := by
  decide +kernel

/-- An operand record: elements of a tag at virtual address va, K = 64, rows so many bytes apart. -/
def operRecOf (tag va stride : Nat) : List Byte := leBytes 8 (2 ^ 60 * tag + va) ++ leBytes 8 64 ++ leBytes 8 stride ++ leBytes 8 0
/-- One of I8 elements, rows 64 bytes apart. -/
def operRec (va : Nat) : List Byte := operRecOf 1 va 64
def oper (va : Nat) : Operand := { tag := 1, base := va, k := 64, stride := 64 }
/-- A leader whose virtual addresses from 2^30 on lie in its cluster's OPERAND banks, with records of both operands, of an assayed one and of an assay. -/
def mat : State := { one (thr [(1, glo 0x20000), (2, glo 0x20020), (3, glo 0x40004000), (4, glo 0x20040), (5, glo 0x20008), (6, glo 0x50000000), (7, glo 0x20060),
                                (8, glo 0x20080), (9, glo 0x200A0)]) with
  mgangs := [(0, gang1)], roles := [(0, 0xAAAAAAAAAAAAAAAA)]
  tlb := [page 1, { cluster := false, holder := 0, net := 1, bits := 23, va := 0x40000000, pa := vaultBase, r := true, w := true, x := false, n := false }]
  mem := bytesAt [(0x20000, operRec 0x40000000 ++ operRec 0x40001000 ++ (leBytes 8 0x20000 ++ leBytes 8 (32 * 2 ^ 16 + 2 ^ 8) ++ leBytes 8 0x40008000 ++ leBytes 8 0) ++
                     operRecOf 4 0x40000000 64 ++ operRecOf 1 0x40000000 32 ++ operRec 0x50000000),
                  (vaultBase + 0x4000, leBytes 8 (2 ^ 60 + 0x40000000) ++ leBytes 8 (32 * 2 ^ 16 + 64) ++ leBytes 8 64 ++ leBytes 8 0)] }
def mat1 : State := after mat (readOperand (mat.x 1) mat)
def mat2 : State := after mat (readOperand (mat.x 2) mat1)
def mat3 : State := after mat (denseRows (oper 0x40000000) gang1.liveRows (publish .module mat2))
def matS1 : State := after mat (readOperand (mat.x 3) mat)
def matS2 : State := after mat (readOperand (mat.x 2) matS1)
def matS3 : State := after mat (denseRows (oper 0x40001000) (List.range 32) (publish .module matS2))
def head1 : AssayHead := { src := oper 0x40000000, n := 32 }

theorem test_meets_MatrixOperationsStart :
    (Tbl.get? mat.mgangs mat.cur = some gang1 ∧ mat.th.broken = false) ∧ ({ mat with mgangs := [] } : State).mgangs = [] ∧
    (mat.x 5).toNat % 32 ≠ 0 ∧ (mat.x 1).toNat % 32 = 0 ∧ (mat.x 2).toNat % 32 = 0 ∧ faultIs (readOperand (mat.x 6) mat) .page = true ∧ faultIs (readOperand (mat.x 6) mat1) .page = true ∧
    (∃ la, readOperand (mat.x 1) mat = .ok (la, mat1) ∧ (la == operRec 0x40000000) = true) ∧ (∃ lb, readOperand (mat.x 2) mat1 = .ok (lb, mat2) ∧ (lb == operRec 0x40001000) = true) ∧
    -- what the form, the pairing and the strides refuse
    (okP (readOperand (mat.x 4) mat) (fun q => dbl q.1 0 / 2 ^ 60 % 16 == 0) = true ∧ (∀ l o, dbl l 0 / 2 ^ 60 % 16 = 0 → ¬GoodOperand l o)) ∧
    (okP (readOperand (mat.x 7) mat1) (fun q => q.1 == operRecOf 4 0x40000000 64) = true ∧ GoodOperand (operRecOf 4 0x40000000 64) { oper 0x40000000 with tag := 4 } ∧
      ¬Paired (oper 0x40000000) { oper 0x40000000 with tag := 4 }) ∧
    (okP (readOperand (mat.x 8) mat1) (fun q => q.1 == operRecOf 1 0x40000000 32) = true ∧ GoodOperand (operRecOf 1 0x40000000 32) { oper 0x40000000 with stride := 32 } ∧
      Paired (oper 0x40000000) { oper 0x40000000 with stride := 32 } ∧ ¬GoodStride { oper 0x40000000 with stride := 32 }) ∧
    GoodOperand (operRec 0x40000000) (oper 0x40000000) ∧ GoodOperand (operRec 0x40001000) (oper 0x40001000) ∧
    Paired (oper 0x40000000) (oper 0x40001000) ∧ GoodStride (oper 0x40000000) ∧ GoodStride (oper 0x40001000) ∧
    -- the rows of either operand lie nowhere
    (okP (readOperand (mat.x 9) mat) (fun q => faultIs (denseRows (oper 0x50000000) gang1.liveRows (publish .module q.2)) .page) = true ∧ faultIs (denseRows (oper 0x50000000) (List.range 32) mat3) .page = true) ∧
    (∃ ra, denseRows (oper 0x40000000) gang1.liveRows (publish .module mat2) = .ok (ra, mat3) ∧ (ra.length == 32) = true) ∧
    (∃ rb u, denseRows (oper 0x40001000) (List.range (32 * gang1.w)) mat3 = .ok (rb, u) ∧ (rb.length == 32) = true) ∧ (oper 0x40000000).tag ≠ 9 ∧ gang1.sideA = 0 ∧ mat.assays = [] ∧
    -- an assayed operand
    (mat.x 3).toNat % 256 = 0 ∧ (∃ la, readOperand (mat.x 3) mat = .ok (la, matS1) ∧ (parseHead la (32 * gang1.h) == some head1) = true) ∧
    okP (readOperand (mat.x 3) mat) (fun q => dbl q.1 0 == 2 ^ 60 + 0x40000000 && dbl q.1 8 == 32 * 2 ^ 16 + 64 && dbl q.1 16 == 64 && dbl q.1 24 == 0) = true ∧
    GoodHead (leBytes 8 (2 ^ 60 + 0x40000000) ++ leBytes 8 (32 * 2 ^ 16 + 64) ++ leBytes 8 64 ++ leBytes 8 0) (32 * gang1.h) head1 ∧
    (∃ lb, readOperand (mat.x 2) matS1 = .ok (lb, matS2) ∧ (lb == operRec 0x40001000) = true) ∧
    (∃ ro, denseRows (oper 0x40001000) (List.range 32) (publish .module matS2) = .ok (ro, matS3) ∧ (ro.length == 32) = true) ∧
    okP (assayedRows head1 (mat.x 3) gang1.liveRows matS3) (fun q => q.1.1.length == 32) = true ∧ faultIs (assayedRows head1 (mat.x 6) gang1.liveRows matS3) .page = true ∧
    okP (assayedRows head1 (mat.x 3) (List.range (32 * gang1.w)) (after mat (denseRows (oper 0x40001000) gang1.liveRows (publish .module matS2)))) (fun q => q.1.1.length == 32) = true := by
  refine ⟨by decide +kernel, by decide +kernel, by decide +kernel, by decide +kernel, by decide +kernel, by decide +kernel, by decide +kernel, goesOn _ (by decide +kernel),
    goesOn _ (by decide +kernel), ⟨by decide +kernel, ?_⟩, ?_⟩
  · rintro l o h ⟨rfl, ht, _⟩
    have ht : dbl l 0 / 2 ^ 60 % 16 ∈ [1, 4, 5, 6, 7, 9] := ht
    rw [h] at ht
    exact absurd ht (by decide)
  · unfold GoodOperand Paired GoodStride GoodHead
    and_intros <;> first | decide +kernel | exact goesOn _ (by decide +kernel) | exact meetsIf _ (by decide +kernel)

theorem test_meets_ByteProductsAreExactSums :
    (let d : SideData := { tag := 1, k := 4, rows := [(0, [(0, 255), (1, 128), (2, 1), (3, 0)])], tiles := [] }
     d.tag = 1 ∧ d.k % 4 = 0 ∧ 2 ^ 32 - 1 < 2 ^ 32 ∧ (∀ k, k < d.k → (d.row 0)[k]? = some (k, ((d.row 0).getD k (0, 0)).2) ∧ ((d.row 0).getD k (0, 0)).2 < 256) ∧ (d.row 0).length = d.k ∧
     (cellProduct d d false 0 0 (2 ^ 32 - 1)).1 = 16385) ∧
    -- a block of two finite products, and one that meets both infinities before a NaN
    (BlockValues 6 6 0 2 false [(0, 0x3C00), (1, 0x4000)] [(0, 0x3C00), (1, 0xBC00)]).map (fun p => (match p.1, p.2 with | .fin _ _ d, .fin _ _ e => decide (0 < d ∧ 0 < e) | _, _ => false)) = [true, true] ∧
    (let ps := BlockValues 5 5 0 4 false [(0, 0x7C), (1, 0xFC), (2, 0x7F), (3, 0)] [(0, 0x3C), (1, 0x3C), (2, 0x3C), (3, 0x3C)]
     (ps.map (fun p => (mulVal p.1 p.2).1)).take 3 = [.inf false, .inf true, .nan false]) := by decide +kernel

/-- A gang whose operation has not consumed its operands, has, and has found poison; an assay that has not, and one that has. -/
def opState (o : MatOp) : State := { mat with mgangs := [(0, { gang1 with shape := some [], op := some o })], berths := [(0, { ctx := { thr [] with wait := .gangop } })] }
def assayOp1 : AssayOp := { berth := 0, cluster := 0, src := oper 0x40000000, n := 32, tmax := 1, bound := 0, record := [(vaultBase + 0x8000, 32)] }
def assayState (x : AssayOp) : State := { mat with mgangs := [], assays := [x], berths := [(0, { ctx := { thr [] with wait := .assay 3 } })] }

theorem test_meets_MatrixOperationsConsumeAndComplete :
    Tbl.get? (opState {}).mgangs 0 = some { gang1 with shape := some [], op := some {} } ∧ ({} : MatOp).consumed = false ∧
    (let o : MatOp := { consumed := true, result := (List.range 32).map (fun j => (elemKey gang1 0 j, 7)) }
     Tbl.get? { opState o with mgangs := [(0, { gang1 with shape := some [(0, 1)], op := some o })] }.mgangs 0 = some { gang1 with shape := some [(0, 1)], op := some o } ∧ (0 < 32 * gang1.h ∧ 0 < 32 * gang1.w ∧ ∃ e ∈ [(0, 1)], e.1 ≤ 0 ∧ 0 < e.1 + e.2) ∧
       o.result.map (·.1) = [0].flatMap (fun i => (List.range (32 * gang1.w)).map (elemKey gang1 i)) ∧ (∀ e ∈ o.result, isPurse e.1 = true) ∧ (opState o).waits = []) ∧
    ({ consumed := true, poisoned := true } : MatOp).poisoned = true ∧
    Tbl.get? (assayState assayOp1).mgangs 0 = none ∧ servedAssay (assayState assayOp1) 0 = some assayOp1 ∧ assayOp1.berth = 0 ∧ assayOp1.consumed = false ∧
    poisonedAny (assayState assayOp1) assayOp1.pieces = false ∧
    (let x := { assayOp1 with rows := [(0, [[(0x100, 32)]])] }
     poisonedAny { assayState x with poison := [0x10, 0x11] } x.pieces = true) := by decide +kernel

theorem test_mma_completion : nexts (exec (.mmaCompletion 0) (opState { consumed := true, result := [(purseKey 0 0xB000, 7)] }))
    (fun t => memRead t.mem (purseKey 0 0xB000) 4 == [7, 0, 0, 0] && (t.ctx 0).pc == 0x104 && (t.ctx 0).wait == .ready) = true := by decide +kernel

def asy1 : State := after mat (readRecord (mat.x 4) 32 32 mat)
def asy2 : State := after mat (readRecord (globWord 0x20000) 32 32 asy1)
def asy3 : State := after mat (denseRows (oper 0x40000000) (List.range 32) (publish .module asy2))
def blockBytes1 : List Byte := leBytes 8 0x20000 ++ leBytes 8 (32 * 2 ^ 16 + 2 ^ 8) ++ leBytes 8 0x40008000 ++ leBytes 8 0

theorem test_meets_AssaysDropTheLargestPrefixAndReport :
    0 < 1 ∧ (∀ e ∈ [({ row := 0, pos := 0, bits := 1, num := 1, den := 8 } : Entry)], 0 < e.den) ∧
    (mat.x 4).toNat % 32 = 0 ∧ (∃ l, readRecord (mat.x 4) 32 32 mat = .ok (l, asy1) ∧ (l == blockBytes1) = true) ∧
    (parseBlock blockBytes1).any (fun c => decide (0x20000 < 2 ^ 56) && c.src % 32 == 0 && c.record % 256 == 0 && c.stream % 32 == 0 && c.n == 32 && c.tmax == 1 && c.src == 0x20000 && c.record == 0x40008000 &&
      c.stream == 0 && decide (c.n * (oper 0x40000000).k ≤ 2 ^ 18)) = true ∧
    (∃ lo, readRecord (globWord 0x20000) 32 32 asy1 = .ok (lo, asy2) ∧ (lo == operRec 0x40000000) = true) ∧ GoodOperand (operRec 0x40000000) (oper 0x40000000) ∧ GoodStride (oper 0x40000000) ∧
    ((oper 0x40000000).tag = 9 ↔ (0 : Nat) ≠ 0) ∧ (∃ rows, denseRows (oper 0x40000000) (List.range 32) (publish .module asy2) = .ok (rows, asy3) ∧ (rows.length == 32) = true) ∧
    (∃ r u, operBytes engW 0x40008000 (maxRecord (oper 0x40000000) 32 1) asy3 = .ok (r, u) ∧ (r.length == 153) = true) ∧
    (let x := { assayOp1 with consumed := true, bytes := zeros 32 }
     servedAssay (assayState x) 0 = some x ∧ x.consumed = true ∧ x.poisoned = false ∧ ((assayState x).ctx 0).wait = .assay 3 ∧
     (∀ k ∈ pieceGranules x.record, inFootprint (assayState x) k = false) ∧ (∀ p ∈ x.record, isPurse p.1 = false) ∧ (3 : Reg) ≠ 0) ∧ (5 : BitVec 3).toNat < 6 ∧ 6 ≤ (6 : BitVec 3).toNat := by
  unfold GoodOperand GoodStride
  and_intros <;> first | decide +kernel | exact goesOn _ (by decide +kernel) | exact meetsIf _ (by decide +kernel)

theorem test_astat_reads : nexts (exec (.astat 3 5) (one { thr [] with report := #v[0, 0, 0, 0, 0, 9] })) (fun t => t.x 3 == 9) = true := by decide +kernel

/-! ### What meets the hypotheses: the teller and the collector -/

/-- Descriptor bytes: eight or twelve doubles. -/
def descOf (l : List Nat) : List Byte := l.flatMap (leBytes 8)
/-- A copy of 32 bytes from 0x100 to 0x200 of the own purse; the fourth double is the control word. -/
def copyDesc (dst ctl side dep : Nat) : List Byte := descOf [(own 0x100).toNat, dst, 32, ctl, side, side, dep, 0]
def gathDesc : List Byte := descOf [2 ^ 59 + 0x20000, (own 0x400).toNat, 100 * 2 ^ 32 + 2 * 2 ^ 12 + 1, 0, 0, 0, 0, 0, (own 0x300).toNat, (own 0x500).toNat, 64 * 2 ^ 32 + 64, 0]
/-- A thread with a descriptor at 0x2000 of its purse. -/
def est (l : List Byte) : State := { one (thr [(1, own 0x2000), (2, own 0x2010), (3, own 0x30000)]) with mem := bytesAt [(purseKey 0 0x2000, l)] }
/-- One that has read it already. -/
def kept (i : Nat) (l : List Byte) (s : State) : State := s.setTh { s.th with desc := some (i, l) }
/-- One with fewer than two grains. -/
def poor (s : State) : State := s.setTh { s.th with coin := 1 }
def good : List Byte := copyDesc (own 0x200).toNat (1 * 2 ^ 63 + 3 * 2 ^ 60 + 2 ^ 59 + 2 ^ 57 + 2 ^ 55) imm.toNat 5
def cmd1 : Cmd := { kind := .copy, coin := 8, net := 1, cls := 0, seq := 0, tid := 5, quad := 0 }
def fullQueue (k : Nat) (s : State) : State := { s with chans := [(k, { queue := List.replicate 16 cmd1 })] }

/-- A word that names no bytes of the net. -/
theorem noWord {s : State} {w : Word} {n : Nat} {f : Form} (hf : formOf w = some f) (hg : ∀ va, f ≠ .glob va) (hn : n ≠ 0) (h : purseAccess s s.net s.quad f n = none) : ¬GoodWord s w n := by
  rintro ⟨g, hg', h'⟩
  cases hf.symm.trans hg'
  rcases h' with ⟨va, h'⟩ | ⟨h', _⟩ | ⟨_, h'⟩
  · exact hg va h'
  · exact hn h'
  · exact h' h

theorem test_meets_EngineCommandsEnterTheirQueues :
    (est good).th.desc = none ∧ ((est good).x 1).toNat % 32 = 0 ∧ ((est good).x 2).toNat % 32 ≠ 0 ∧ faultIs (readDesc ((est good).x 3) false (est good)) .access = true ∧
    (kept 0 good (est good)).th.desc = some (0, good) ∧ okP (access (est good) ((est good).x 1) 64 32 false needR false 32) (fun q => q.1.all (fun k => isPurse k.1)) = true ∧
    (∃ l r, readDesc ((est good).x 1) false (est good) = .ok (l, r) ∧ (l == good) = true) ∧ DescFields false good (parseDesc good false) ∧
    GoodForm false good (parseDesc good false) (dbl good 56 = 0) ∧ GoodAlign false (parseDesc good false) ∧ GoodWords false (est good) (parseDesc good false) ∧
    GoodCounter (est good) (parseDesc good false) ∧ GoodSides (parseDesc good false) ∧
    hasRoom (est good) 0 1 .copy (parseDesc good false) 1 = true ∧ hasRoom (fullQueue 1 (est good)) 0 1 .copy (parseDesc good false) 1 = false ∧ 2 ≤ coinNow (est good) ∧
    coinNow (poor (est good)) < 2 ∧
    (∃ l r, readDesc ((est gathDesc).x 1) true (est gathDesc) = .ok (l, r) ∧ (l == gathDesc) = true) ∧ DescFields true gathDesc (parseDesc gathDesc true) ∧
    GoodForm true gathDesc (parseDesc gathDesc true) (dbl gathDesc 56 = 0) ∧ GoodAlign true (parseDesc gathDesc true) ∧ GoodWords true (est gathDesc) (parseDesc gathDesc true) ∧
    hasRoom (est gathDesc) 0 4 .gather (parseDesc gathDesc true) 1 = true ∧
    -- a word over no bytes, at an offset past the end
    GoodWord (est good) (own 0x30000) 0 ∧
    -- what each check refuses
    (let l := copyDesc (own 0x200).toNat 1 0 0
     ¬GoodForm false l (parseDesc l false) (dbl l 56 = 0)) ∧
    (let l := copyDesc (own 0x208).toNat 0 0 0
     GoodForm false l (parseDesc l false) (dbl l 56 = 0) ∧ ¬GoodAlign false (parseDesc l false)) ∧
    (let l := copyDesc (own 0x2FFF0).toNat 0 0 0
     GoodForm false l (parseDesc l false) (dbl l 56 = 0) ∧ GoodAlign false (parseDesc l false) ∧ ¬GoodWords false (est l) (parseDesc l false)) ∧
    (let l := copyDesc (own 0x200).toNat (2 ^ 63 + 4 * 2 ^ 60) 0 0
     ¬GoodCounter (est l) (parseDesc l false)) ∧
    (let l := copyDesc (own 0x200).toNat (2 ^ 59) holdWord.toNat 0
     GoodCounter (est l) (parseDesc l false) ∧ ¬GoodSides (parseDesc l false)) := by
  refine ⟨by decide +kernel, by decide +kernel, by decide +kernel, by decide +kernel, by decide +kernel, by decide +kernel, meetsIf _ (by decide +kernel), ?_, ?_, ?_,
    ⟨⟨.own 0x100, by decide +kernel, .inr (.inr ⟨by decide +kernel, by decide +kernel⟩)⟩, ⟨.own 0x200, by decide +kernel, .inr (.inr ⟨by decide +kernel, by decide +kernel⟩)⟩⟩, ?_, ?_,
    by decide +kernel, by decide +kernel, by decide +kernel, by decide +kernel, meetsIf _ (by decide +kernel), ?_, ?_, ?_,
    ⟨⟨.glob 0x20000, by decide +kernel, .inl ⟨_, rfl⟩⟩, ⟨.own 0x400, by decide +kernel, .inr (.inr ⟨by decide +kernel, by decide +kernel⟩)⟩,
      ⟨.own 0x300, by decide +kernel, .inr (.inr ⟨by decide +kernel, by decide +kernel⟩)⟩, fun _ => ⟨.own 0x500, by decide +kernel, .inr (.inr ⟨by decide +kernel, by decide +kernel⟩)⟩⟩,
    by decide +kernel, ⟨.own 0x30000, by decide +kernel, .inr (.inl ⟨rfl, by decide +kernel⟩)⟩, ?_, ?_,
    ⟨?_, ?_, fun h => noWord (f := .own 0x2FFF0) (by decide +kernel) (fun _ h => nomatch h) (by decide +kernel) (by decide +kernel) h.2⟩, ?_, ?_⟩
  all_goals
    repeat (first | unfold GoodForm | unfold GoodAlign | unfold GoodCounter | unfold GoodSides | unfold DescFields)
    decide +kernel

theorem test_cpy_enters : nexts (exec (.cpy 3 1 1) (est good)) (fun t => t.x 3 == 1 && (t.chan 0 1).next == 2 && ((t.chan 0 1).queue.map (·.coin)) == [512]) = true := by decide +kernel

theorem test_meets_QueueFencesEnterEveryNamedQueue :
    (1 : BitVec 5) ≠ 0 ∧ (0x11 : BitVec 5) ≠ 0 ∧ ((0x11 : BitVec 5).getLsbD 4 = true ∧ 16 ≤ ((fullQueue 4 (est good)).chan (fullQueue 4 (est good)).quad 4).queue.length) ∧
    (∀ ch, ch < 5 → (0x11 : BitVec 5).getLsbD ch = true → ((est good).chan (est good).quad ch).queue.length < 16) ∧ 2 ≤ coinNow (est good) ∧ coinNow (poor (est good)) < 2 ∧
    coinNow (kept 0 [] ((est good).setTh { (est good).th with coin := 1, lent := 1 })) = 2 ^ 32 + 1 := by
  decide +kernel

/-- A net whose schedule has one entry, for quad 0 and channel 2; and none for it. -/
def sst (w : Nat) : State := { est [] with nets := [(1, { net1 with schedBase := 0x50000, schedCount := 1 })],
                                           mem := bytesAt [(0x50000, descOf [(own 0x100).toNat, (own 0x200).toNat, 32, 0, 0, 0, 0, w])] }

theorem test_meets_StageEntersTheNextScheduleEntry :
    (est []).th.desc = none ∧ okP (stageEntry (est [])) (fun q => q.1 == none) = true ∧ net1.schedCount ≤ ((est []).netq 1 0).cursor ∧
    okP (stageEntry (sst 1)) (fun q => q.1 == none) = true ∧ ¬((sst 1).net.schedCount ≤ ((sst 1).netq 1 0).cursor) ∧
    faultIs (stageEntry { sst 1 with nets := [(1, { net1 with schedBase := 0x50000000, schedCount := 1 })] }) .page = true ∧
    (kept 3 good (sst 1)).th.desc = some (3, good) ∧ ((sst 1).netq 1 0).cursor ≤ 3 ∧
    (let l := descOf [(own 0x100).toNat, (own 0x200).toNat, 32, 0, 0, 0, 0, 2 * 2 ^ 48]
     let s := sst (2 * 2 ^ 48)
     okP (stageEntry s) (fun q => q.1 == some (0, l)) = true ∧ GoodForm false l (parseDesc l false) (fld (dbl l 56) 63 50 = 0 ∧ fld (dbl l 56) 47 18 = 0) ∧
       GoodAlign false (parseDesc l false) ∧ GoodWords false s (parseDesc l false) ∧ GoodCounter s (parseDesc l false) ∧ GoodSides (parseDesc l false) ∧
       hasRoom s 0 2 .copy (parseDesc l false) 1 = true ∧ hasRoom (fullQueue 2 s) 0 2 .copy (parseDesc l false) 1 = false ∧ 2 ≤ coinNow s ∧ coinNow (poor s) < 2) ∧
    (let l := descOf [(own 0x100).toNat, (own 0x200).toNat, 32, 0, 0, 0, 0, 2 ^ 50]
     okP (stageEntry (sst (2 ^ 50))) (fun q => q.1 == some (0, l)) = true ∧ ¬GoodForm false l (parseDesc l false) (fld (dbl l 56) 63 50 = 0 ∧ fld (dbl l 56) 47 18 = 0)) := by
  refine ⟨by decide +kernel, by decide +kernel, by decide +kernel, by decide +kernel, by decide +kernel, by decide +kernel, by decide +kernel, by decide +kernel,
    ⟨by decide +kernel, ?_, ?_,
      ⟨⟨.own 0x100, by decide +kernel, .inr (.inr ⟨by decide +kernel, by decide +kernel⟩)⟩, ⟨.own 0x200, by decide +kernel, .inr (.inr ⟨by decide +kernel, by decide +kernel⟩)⟩⟩, ?_, ?_,
      by decide +kernel, by decide +kernel, by decide +kernel, by decide +kernel⟩, by decide +kernel, ?_⟩
  all_goals
    repeat (first | unfold GoodForm | unfold GoodAlign | unfold GoodCounter | unfold GoodSides | unfold DescFields)
    decide +kernel

theorem test_stage_enters : nexts (exec (.stage 4) (sst (2 * 2 ^ 48))) (fun t => t.x 4 == 1 && (t.netq 1 0).cursor == 1 && (t.chan 0 2).queue.length == 1) = true := by decide +kernel

theorem test_meets_MarksAndCountersArePassedOrAwaited :
    let s := { one (thr [(1, 9), (2, 2 ^ 24 - 1), (3, 2 ^ 24)]) with chans := [(1, { next := 8, mark := 7 }), (2, { next := 8, mark := 6 })], counters := [(2, { count := 1 })] }
    min (s.x 1).toNat ((s.chan s.quad 1).next - 1) ≤ (s.chan s.quad 1).mark ∧ (s.chan s.quad 2).mark < min (s.x 1).toNat ((s.chan s.quad 2).next - 1) ∧
    s.net.counters.getLsbD 4 = false ∧ s.net.counters.getLsbD 2 = true ∧ 2 ^ 24 ≤ (s.x 3).toNat ∧ (s.x 2).toNat < 2 ^ 24 ∧ 2 ^ 24 - 1 < (s.counter s.quad 2).count + (s.x 2).toNat ∧
    (s.counter s.quad 3).count + (s.x 2).toNat ≤ 2 ^ 24 - 1 ∧ (s.counter s.quad 3).count = 0 ∧ (s.counter s.quad 2).count ≠ 0 := by decide +kernel

/-! ### What meets the hypotheses: control, rule and net instructions -/

theorem test_meets_BranchesClassesAndTurns :
    let s := one (thr [(1, 0xFF00000000000204), (2, 2), (15, 0x300)])
    (s.x 1).toNat % 4 = 0 ∧ (s.x 2).toNat % 4 ≠ 0 ∧ (s.x 15).toNat % 4 = 0 ∧ ((one (thr [(15, 1)])).x 15).toNat % 4 ≠ 0 ∧
    nexts (exec (.jr 15 15) s) (fun t => t.th.pc == 0x300 && t.x 15 == 0x104) = true ∧ nexts (exec (.jr 0 1) s) (fun t => t.th.pc == 0x204) = true ∧
    nexts (exec (.b (-65)) s) (fun t => t.th.pc == BitVec.ofInt 56 (-4)) = true ∧ nexts (exec (.blExt 2) s) (fun t => t.th.pc == 0x108 && t.x 15 == 0x108) = true := by decide +kernel

/-- A header of kind 0x21, arity 2 and no payload; one of the reserved kind 0. -/
def hdr1 : Word := BitVec.ofNat 64 (0x21 * 2 ^ 56 + 2 * 2 ^ 52)
/-- A thread that names a header, the node at 0x1100, one whose slot holds HOLD, one that is freed, the handler cell, and no node. -/
def cst : State := { one (thr [(1, hdr1), (2, 0), (3, prin 0x1100), (4, prin 0x1140), (5, prin 0x1180), (6, prin 0x2000), (7, prin 0x1110), (8, aux 0x1100)]) with
  mem := purse [(0x1100, hdr1), (0x1140, hdr1), (0x1150, holdWord)], netqs := [(2 ^ 18 * 1, { nodes := [(0x1100, 32), (0x1140, 32)], freed := [0x1180] })] }

theorem test_meets_NodeCellsAreTakenAndReturned :
    headerOk (cst.x 2) = false ∧ hdrKind (BitVec.ofNat 64 (0xFF * 2 ^ 56)) = 0xFF ∧ headerOk (cst.x 1) = true ∧ hdrKind (cst.x 1) ≠ 0xFF ∧
    (allocNode 1 0 (nodeSize (cst.x 1)) { cst with nets := [(1, { net1 with poolSize := 16 })] }).isNone = true ∧
    (allocNode 1 0 (nodeSize (cst.x 1)) cst).any (fun p => p.1 == 0x1000 && decide (p.1 + 32 ≤ 2 ^ 18)) = true ∧
    (∀ r ∈ ([3, 4, 5, 6, 7] : List Reg), tagOf (cst.x r) = 2 ∧ portOk (cst.x r) = true) ∧
    (∃ k u, access1 cst (addrOf (cst.x 3)) 8 1 true needRW = .ok (k, u) ∧ (k == purseKey 0 0x1100) = true) ∧ purseKey 0 0x2000 = handlerKey cst 1 ∧
    okP (access1 cst (addrOf (cst.x 3)) (16 + 8 * min (hdrArity (bankWord cst (purseKey 0 0x1100))) 6) 1 true needRW) (fun q => q.1 == purseKey 0 0x1100) = true ∧
    faultIs (access1 { cst with poison := [purseKey 0 0x1110 / 16] } (addrOf (cst.x 3)) (16 + 8 * min (hdrArity (bankWord cst (purseKey 0 0x1100))) 6) 1 true needRW) .poison = true ∧
    faultIs (access1 { cst with poison := [purseKey 0 0x1100 / 16] } (addrOf (cst.x 3)) 8 1 true needRW) .poison = true ∧
    (∃ k u, access1 cst (addrOf (cst.x 6)) 8 1 true needRW = .ok (k, u) ∧ (k == handlerKey cst 1) = true) ∧ keyOff (purseKey 0 0x1110) ∉ (cst.netq 1 0).freed ∧
    (∀ c ∈ (cst.netq 1 0).nodes, c.1 ≠ keyOff (purseKey 0 0x1110)) ∧ keyOff (purseKey 0 0x1180) ∈ (cst.netq 1 0).freed ∧
    (∃ c ∈ (cst.netq 1 0).nodes, c.1 = keyOff (purseKey 0 0x1140)) ∧ bankWord cst (purseKey 0 0x1140 + 16 + 8 * 0) = holdWord ∧
    (∀ i, i ≤ min (hdrArity (bankWord cst (purseKey 0 0x1100))) 6 → portOk (bankWord cst (purseKey 0 0x1100 + 8 + 8 * i)) = true ∧
      (i ≠ 0 → bankWord cst (purseKey 0 0x1100 + 8 + 8 * i) ≠ holdWord)) ∧ hdrKind (bankWord cst (purseKey 0 0x1100)) ≠ 0 ∧
    (tagOf (BitVec.ofNat 64 (2 ^ 61 + 8)) ≠ 0 ∧ portOk (BitVec.ofNat 64 (2 ^ 61 + 8)) = false) ∧
    (tagOf (BitVec.ofNat 64 (2 ^ 60 + 8)) ≠ 0 ∧ tagOf (BitVec.ofNat 64 (2 ^ 60 + 8)) ≠ 2 ∧ portOk (BitVec.ofNat 64 (2 ^ 60 + 8)) = true) := by
  and_intros <;> first | decide +kernel | exact meetsIf _ (by decide +kernel)

theorem test_nalloc_then_nfree : nexts (exec (.nalloc 9 1) cst) (fun t => t.x 9 == prin 0x1000 && bankWord t (purseKey 0 0x1000) == hdr1 && bankWord t (purseKey 0 0x1018) == holdWord) = true ∧
    nexts (exec (.nfree 3) cst) (fun t => bankWord t (purseKey 0 0x1100) == 0 && (t.netq 1 0).freed == [0x1100, 0x1180]) = true := by decide +kernel

def recX : Rec := { a := imm, b := imm, coin := 1, net := 1, cls := 0, typ := 0 }
/-- Threads that make work: on their own quad, on another, and where there is none. -/
def wst : State := one (thr [(1, imm), (2, prin 0x1100), (3, 1), (4, 0x3FFFF), (5, 0x200), (6, 0x201), (7, 2 ^ 18 + 1)])

/-- A module whose spill pool is exhausted. -/
def dry (s : State) : State := { s with spills := [(1, (List.range poolBlocks).map (fun i => (i, ([] : List Rec))))] }
theorem dryBlocks (n : Nat) : (List.flatMap (fun e : Nat × List (Nat × List Rec) => e.2.map (fun x : Nat × List Rec => x.1))
    [(1, (List.range n).map (fun i => (i, [])))] ++ [] ++ [] ++ []).dedup.length = n := by
  have h : ((fun x : Nat × List Rec => x.1) ∘ fun i => (i, [])) = id := rfl
  simp [h, List.Nodup.dedup List.nodup_range]
theorem dryFull (s : State) : poolFull (dry { s with parkedRec := [], arrSpill := [], evicted := [] }) = true := by
  simp only [poolFull, poolInUse, dry, List.map_nil, List.flatMap_nil, dryBlocks, Nat.le_refl, decide_true]
theorem noSlot (s : State) : poolSlot (dry { s with parkedRec := [], arrSpill := [], evicted := [] }) [] 64 96 = none := by
  simp only [poolSlot, dryFull, if_true, List.map_nil, List.dedup_nil, List.flatMap_nil, List.find?_nil]

theorem test_meets_WorkIsMadeWithHalfTheCoin :
    poolFull (dry { wst with parkedRec := [], arrSpill := [], evicted := [] }) = true ∧ poolSlot (dry { wst with parkedRec := [], arrSpill := [], evicted := [] }) [] 64 96 = none ∧
    (sideOk (wst.x 1) = true ∧ sideOk (wst.x 2) = true) ∧ sideOk (wst.x 3) = false ∧ (4 : Reg) ≠ 0 ∧ NamesNone wst (wst.x 4) 18 ∧ Names wst (wst.x 3) 18 (quadAt 1 0) ∧
    coinNow (one { thr [] with coin := 1 }) < 2 ∧ 2 ≤ coinNow wst ∧ wst.netStateAt 1 0 ≠ .parked ∧ (wst.deque 0).length < 256 ∧ poolFull wst = false ∧
    256 ≤ ({ wst with deques := [(0, List.replicate 256 recX)] }.deque 0).length ∧
    NamesNone wst (wst.x 4) 20 ∧ (Names wst (wst.x 7) 20 (quadAt 1 0) ∧ 1 = (wst.x 7).toNat / 2 ^ 18 % 4) ∧ (wst.x 6).toNat % 4 ≠ 0 ∧ (wst.x 5).toNat % 4 = 0 ∧
    4 * quadAt 1 0 + 1 ≠ wst.cur / 16 ∧ 4 * 0 + wst.cur / 16 % 4 = wst.cur / 16 ∧ wst.netStateAt 1 (wst.cur / 64) = .bound ∧ (wst.arrQ (wst.cur / 16)).length < 64 ∧ wst.arrS (wst.cur / 16) = [] ∧
    (let full := { wst with arrivals := [(0, List.replicate 64 { net := 1, cls := 0, pts := 0, x := [], pc := 0, coin := 0, quad := 0, core := 0 })] }
     64 ≤ (full.arrQ 0).length ∧ poolSlot full ((full.arrS 0).map (·.slot)) 64 96 = some (poolPa full 0)) := by
  refine ⟨dryFull _, noSlot _, ?_⟩
  unfold Names NamesNone; decide +kernel

/-- Threads that hold a range of n iterations from 10 on, and a body node of arity 0. -/
def rst (n coin : Nat) : State :=
  { one { thr [(1, own 0x40), (2, own 0x30000), (3, 0x3FFFF), (4, 2 ^ 60)] with range := some (prin 0x1100, prin 0x1040), coin := coin } with
    mem := purse [(0x1040, 0xFE04000000000010), (0x1050, 10), (0x1058, BitVec.ofNat 64 (10 + n)), (0x1100, 0x2100000000000000)] }

theorem test_meets_ThreadsEndAndMigrate :
    wst.th.range = none ∧ (rst 4 8).th.range = some (prin 0x1100, prin 0x1040) ∧ faultIs (rangeGranule { rst 4 8 with poison := [purseKey 0 0x1050 / 16] } (prin 0x1040)) .poison = true ∧
    okP (rangeGranule (rst 0 8) (prin 0x1040)) (fun q => decide (dbl (clrLoad q.1 16 q.2).1 8 ≤ dbl (clrLoad q.1 16 q.2).1 0)) = true ∧
    okP (rangeGranule (rst 1 8) (prin 0x1040)) (fun q => decide (dbl (clrLoad q.1 16 q.2).1 0 < dbl (clrLoad q.1 16 q.2).1 8)) = true ∧ 2 ≤ coinNow (rst 1 8) ∧ coinNow (rst 1 1) < 2 ∧
    ((rst 1 8).deque (rst 1 8).quad).length < 256 ∧ (rst 1 8).netStateAt 1 0 ≠ .parked ∧ formOf ((rst 1 8).x 1) = some (.own 0x40) ∧
    purseAccess (rst 1 8) (rst 1 8).net 0 (.own 0x40) 1 = some (purseKey 0 0x40) ∧ formOf ((rst 1 8).x 2) = some (.own 0x30000) ∧ purseAccess (rst 1 8) (rst 1 8).net 0 (.own 0x30000) 1 = none ∧
    formOf ((rst 1 8).x 4) = none := by decide +kernel

/-- What `rsplit` reads of a range of n iterations. -/
def splits (n : Nat) (p : List Byte → Option (Word × List Byte) → State → Bool) : Bool :=
  okP (rangeGranule (rst n 8) (prin 0x1040)) (fun q => okP (readBody 1 0 q.2.now (prin 0x1100) q.2) (fun r => let u := r.2.raise 0 r.1.2; p (latest u q.1 16) r.1.1 u))

theorem test_meets_RangesAreDrawnAndSplit :
    wst.th.range = none ∧ okP (rangeGranule (rst 4 8) (prin 0x1040)) (fun q => q.1 == purseKey 0 0x1050) = true ∧
    splits 4 (fun g i u => dbl g 0 == 10 && dbl g 8 == 14 && bodyArity i == 0 && (splitNodes 1 0 u.now (prin 0x1100) i 12 14 u).isSome &&
      okP (countKey 1 0 (match i with | some (h, _) => h | none => 0) u) (fun c => (splitNodes 1 0 c.2.now (prin 0x1100) i 12 14 c.2).isSome)) = true ∧
    faultIs (readBody 1 0 0 (prin 0x1100) { rst 4 8 with poison := [purseKey 0 0x1100 / 16] }) .poison = true ∧ isLocal (rst 4 8) (purseKey 0 0x1050) = true ∧
    okP (access1 (rst 4 8) (addrOf (prin 0x1100)) 8 1 true needR) (fun q => isLocal (rst 4 8) q.1) = true ∧ hdrS 0x2100000000000000 = false ∧
    faultIs (countKey 1 0 (BitVec.ofNat 64 (0x21 * 2 ^ 56 + 2 ^ 51 + 2 ^ 46)) (rst 4 8)) .page = true ∧
    splits 2 (fun g _ _ => decide (2 ≤ dbl g 8 - dbl g 0)) = true ∧ splits 1 (fun g _ _ => decide (dbl g 8 - dbl g 0 < 2)) = true ∧
    splitNodes 1 0 0 (prin 0x1100) (some (0x2100000000000000, [])) 12 14 { rst 4 8 with nets := [(1, { net1 with poolSize := 16 })] } = none ∧
    2 ≤ coinNow (rst 4 8) ∧ coinNow (rst 4 1) < 2 ∧ (rst 4 8).th.wait = .ready ∧ (3 : Reg) ≠ 0 ∧ NamesNone (rst 4 8) ((rst 4 8).x 3) 18 := by
  unfold NamesNone; decide +kernel

/-- The rows of 15 R268: `rsplit` of [12, 14) answers 1 and leaves [12, 13). -/
theorem test_rsplit_row : nexts (exec (.rsplit 4 0) (rst 4 8)) (fun t => t.x 4 == 2 && bankWord t (purseKey 0 0x1058) == 12 && (t.deque 0).map (·.coin) == [4]) = true ∧
    nexts (exec (.rnext 4) (rst 4 8)) (fun t => t.x 4 == 10 && bankWord t (purseKey 0 0x1050) == 11) = true := by decide +kernel

/-- A core that has no arrival, and one whose `bar` has arrived, for rectangle words of one core. -/
def bst (old : BarCtx) : State := { one (thr [(1, 0), (2, 2 ^ 43), (3, 16), (4, 7 * 2 ^ 44), (5, 2 ^ 44)]) with bars := [((4096 * 0 + 1) * 8 + 0, old)] }

theorem test_meets_BarriersArriveOnceForTheirCore :
    let s := bst {}
    (fld (s.x 1).toNat 63 47 = 0 ∧ fld (s.x 1).toNat 43 43 = 0 ∧ fld (s.x 1).toNat 46 44 = 0) ∧ ¬(fld (s.x 2).toNat 43 43 = 0) ∧ ¬(fld (s.x 4).toNat 46 44 ≠ 7) ∧ fld (s.x 5).toNat 46 44 ≠ 7 ∧
    (0 ≤ fld (s.x 1).toNat 9 0 ∧ fld (s.x 1).toNat 9 0 + fld (s.x 1).toNat 29 20 + 1 ≤ 0 + 16 * s.net.wc) ∧ ¬(fld (s.x 3).toNat 9 0 + fld (s.x 3).toNat 29 20 + 1 ≤ 0 + 16 * s.net.wc) ∧
    (fld (s.x 1).toNat 9 0 ≤ (s.net.corePlace s 0).1 ∧ (s.net.corePlace s 0).1 ≤ fld (s.x 1).toNat 9 0 + fld (s.x 1).toNat 29 20) ∧ (s.bar 0 1 0).arrived = false ∧
    s.net.toPhys s (fld (s.x 1).toNat 9 0 / 2) (fld (s.x 1).toNat 19 10 / 2) = some 0 ∧
    (let t := bst { arrived := true, rect := 0 }
     (t.bar 0 1 0).arrived = true ∧ (t.bar 0 1 0).rect = t.x 1 ∧ (t.bar 0 1 0).isRed = false) ∧ ((bst { arrived := true, rect := 5 }).bar 0 1 0).rect ≠ s.x 1 := by decide +kernel

/-- Mints in each state, and 64 waiters. -/
def qst (m : Mint) : State := { one (thr [(1, 1), (2, 7)]) with mints := [(1, m)] }

theorem test_meets_QuietIsReportedAndMintsCount :
    ((qst {}).x 1).toNat % 2 ^ 12 = (qst {}).th.net ∧ ¬(((qst {}).x 2).toNat % 2 ^ 12 = (qst {}).th.net ∨ ((qst {}).net.priv = true ∧ Tbl.get? (qst {}).mints 7 ≠ none)) ∧
    (let s := { qst {} with nets := [(1, { net1 with priv := true })], mints := [(7, { st := .quiet })] }
     (s.x 2).toNat % 2 ^ 12 ≠ s.th.net ∧ (s.net.priv = true ∧ Tbl.get? s.mints 7 ≠ none)) ∧
    (let u := mintReturn 1 1024 0 { qst { issued := 1024 } with berths := [] }
     (u.mint 1).st = .quiet) ∧
    ((qst { issued := 4096 }).mint 1).st = .opened ∧ waitersAt (qst {}) (homeOf (qst {}) (mintPa (qst {}) 1)) < 64 ∧
    64 ≤ waitersAt (qst { waiters := List.range 64 }) (homeOf (qst {}) (mintPa (qst {}) 1)) ∧ ((qst { st := .voided }).mint 1).st = .voided ∧ ((qst { st := .voiding }).mint 1).st = .voiding ∧
    ((qst { borrows := 2 ^ 64 - 2 }).mint 1).borrows < 2 ^ 64 - 1 ∧ ((qst { st := .quiet }).mint 1).st = .quiet ∧ (qst {}).th.coin + 2 ^ 32 * (qst {}).th.lent ≠ 0 := by decide +kernel

/-! ### What meets the hypotheses: faults and system instructions -/

def handled : List Host.Cell := bytesAt [(purseKey 0 0x2000, wordBytes 0x3000000000000000), (0xC3FC, leBytes 4 (2 ^ 31 + 7))]
/-- A thread whose net has a handler, on a quad with the given blocks held and threads waiting for one. -/
def fst (st : NetState) (mem : List Host.Cell) (y : NetQuad) : State := { one (thr []) with nets := [(1, { net1 with st := st })], mem := mem, netqs := [(2 ^ 18 * 1, y)] }

theorem test_meets_FaultsParkTheThreadAndTellItsHandler :
    let s := fst .bound handled { blocks := [0] }
    s.held s.cur = true ∧ s.net.st ≠ .voiding ∧ (hasHandler 1 0 s).1 = true ∧ (s.netq 1 0).waiting = [] ∧ freeBlock s 1 0 = some 1 ∧ 2 ≤ s.th.coin ∧ (s.deque 0).length < 256 ∧
    s.netStateAt 1 0 ≠ .parked ∧ s.net.form s 0 < 2 ^ 18 ∧ (∀ st ∈ [NetState.bound, .voiding], (fst st handled { blocks := [0] }).held 0 = true) ∧
    (let t := fst .bound handled { blocks := [3, 1, 2, 0] }
     (hasHandler 1 0 t).1 = true ∧ (t.netq 1 0).waiting = [] ∧ freeBlock t 1 0 = none) ∧
    ((hasHandler 1 0 (fst .bound [] {})).1 = false ∧ (hasHandler 1 0 (fst .parked [] {})).1 = false ∧ (fst .parked [] {}).net.st = .parked ∧ (fst .bound [] {}).net.st = .bound ∧ ((fst .bound [] {}).mint 1).st = .opened) ∧ (fst .voiding [] {}).net.st = .voiding ∧
    (fst .voiding [] {}).th.coin ≠ 0 ∧ faultCode .format = (2 : BitVec 4).toNat ∧ faultCode .debug = (13 : BitVec 4).toNat ∧ (11 : BitVec 4).toNat = 11 ∧ 14 ≤ (14 : BitVec 4).toNat ∧
    ((fst .bound [] {}).netq 1 0).armed = false ∧ ((fst .bound [] { armed := true }).netq 1 0).armed = true := by decide +kernel

theorem test_trap_takes_a_block : nexts (exec (.trap 0 2) (fst .bound handled { blocks := [0] }))
    (fun t => (t.deque 0).map (·.typ) == [2] && (t.netq 1 0).blocks == [1, 0] && t.th.pc == 0x100 && t.th.coin == 512 && bankWord t (purseKey 0 (0x2040 + 704)) == 0xFF04000000000018) = true := by
  decide +kernel
theorem test_dbrk_halts : nexts (exec (.dbrk 1) (fst .bound [] { armed := true })) (fun t => (t.netq 1 0).halted && t.th.pc == 0x104) = true := by decide +kernel

/-- Thread 5 in berth 0 returns for the thread in berth 1, which waits on block 0; the node's third word and more bytes of the block are given. -/
def ret (w : Nat) (more : List (Nat × Word)) (c : Ctx) : State :=
  { one (thr [(1, prin 0x2040), (2, prin 0x2340)]) with
    mem := purse ([(0x2040, 0xFF04000000000018), (0x2050, BitVec.ofNat 64 (w + 2 ^ 20)), (0x2058, 0x500)] ++ more), netqs := [(2 ^ 18 * 1, { blocks := [0] })]
    berths := [(0, { ctx := thr [(1, prin 0x2040), (2, prin 0x2300)] }), (1, { ctx := { c with tid := 6, wait := .fault (purseKey 0 0x2040) } })] }

theorem test_meets_FaultsAreReturnedFrom :
    let k := purseKey 0 0x2040
    let s := ret 0 [] (thr [])
    (0 : BitVec 2) ≠ 3 ∧ (match blockOf (s.x 1) s with | .ok p => p == (k, 0) | _ => false) = true ∧ (match blockOf (s.x 2) s with | .ok p => bankWord s p.1 != 0xFF04000000000018 | _ => false) = true ∧
    poisoned s k 32 = false ∧ poisoned { s with poison := [k / 16 + 1] } k 32 = true ∧ (0xFF04000000000018 : Word) ≠ bankWord (one (thr [])) k ∧
    bankWord s k = 0xFF04000000000018 ∧ (s.netq s.th.net (keyQuad k)).eng = [] ∧ findSeat s (64 * 0 + 0 * 16 + 1) k = some (.berth 1) ∧ 1 ≠ s.cur ∧
    (let w := (bankWord s (k + 16)).toNat
     64 * keyQuad k + fld w 19 18 * 16 + fld w 23 20 = 1 ∧ fld w 58 58 = 0 ∧ fld w 57 57 = 0 ∧ fld w 56 56 = 0) ∧
    fld (bankWord (ret (2 ^ 58) [] (thr [])) (k + 16)).toNat 58 58 = 1 ∧ findSeat { s with berths := s.berths.take 1 } 1 k = none ∧
    (fld (bankWord (ret (2 ^ 57) [] (thr [])) (k + 16)).toNat 57 57 = 1 ∧ fld (bankWord (ret (2 ^ 57) [] (thr [])) (k + 16)).toNat 58 58 = 0) ∧
    (fld (bankWord (ret (2 ^ 56) [] (thr [])) (k + 16)).toNat 56 56 = 1 ∧ fld (bankWord (ret (2 ^ 56) [] (thr [])) (k + 16)).toNat 57 57 = 0) ∧
    nexts (exec (.eret 3 1 0) s) (fun t => t.th.pc == s.th.pc + 4 && t.th.wait == .reply && (List.finRange 16).all (fun r => t.x r == if r = 3 then 0 else s.x r)) = true ∧
    poisoned { s with poison := [(k + 64) / 16] } k 32 = false ∧ poisoned s (k + 64) 640 = false ∧ poisoned { s with poison := [(k + 64) / 16] } (k + 64) 640 = true ∧
    (∀ v : VIdx, fld (dbl (memRead s.mem (k + 64) 640) 472) (4 * v.val + 3) (4 * v.val) < 10) ∧
    (∃ v : VIdx, 10 ≤ fld (dbl (memRead (ret 0 [(0x2040 + 64 + 472, 10)] (thr [])).mem (k + 64) 640) 472) (4 * v.val + 3) (4 * v.val)) ∧ (s.ctx 1).range = none ∧ (s.ctx 1).coin ≠ 0 := by
  decide +kernel

theorem test_eret_modes : nexts (exec (.eret 3 1 0) (ret 0 [] (thr [(9, 4)]))) (fun t => t.x 3 == 0 && (t.ctx 1).pc == 0x500 && (t.ctx 1).wait == .ready && (t.ctx 1).regs[9] == 4) = true ∧
    nexts (exec (.eret 3 1 1) (ret 0 [(0x2080 + 72, 5)] (thr [(9, 4)]))) (fun t => t.x 3 == 1 && (t.ctx 1).regs[9] == 5 && (t.netq 1 0).blocks == []) = true := by decide +kernel

/-- A snapshot record of net 1 at 0x400 of the purse, with a pc and further words. -/
def snap (net pc : Nat) (more : List (Nat × Word)) : State :=
  { one (thr [(1, own 0x400), (2, own 0x408)]) with mem := purse ([(0x400 + 448, BitVec.ofNat 64 pc), (0x400 + 472, BitVec.ofNat 64 (net * 2 ^ 52))] ++ more) }

theorem test_meets_TranslationsAreDroppedAndRecordsMoved :
    let s := snap 1 0x600 []
    (let t := one (thr [(1, 2), (2, 1)])
     (t.x 2).toNat % 2 ^ 12 = t.th.net ∧ ¬((t.x 1).toNat % 2 ^ 12 = t.th.net ∨ t.net.priv = true) ∧ { t with nets := [(1, { net1 with priv := true })] }.net.priv = true) ∧
    (s.x 2).toNat % 64 ≠ 0 ∧ (s.x 1).toNat % 64 = 0 ∧
    (∃ ks u, access s (s.x 1) 640 64 false needW false 16 = .ok (ks, u) ∧ (ks.all (fun k => isPurse k.1 && isLocal s k.1) && decide (0 < ks.length)) = true) ∧
    (∃ ks u, access s (s.x 1) 640 64 false needR false 16 = .ok (ks, u) ∧ (let l := (clrLoads ks s).1; fld (dbl l 472) 63 52 == s.th.net && dbl l 448 % 4 == 0 &&
      decide (∀ i : VIdx, fld (dbl l 472) (4 * i.val + 3) (4 * i.val) < 10)) = true) ∧
    (let t := snap 2 0x600 []
     ∃ ks u, access t (t.x 1) 640 64 false needR false 16 = .ok (ks, u) ∧ (fld (dbl (clrLoads ks t).1 472) 63 52 != t.th.net) = true) ∧
    (let t := snap 1 0x602 []
     ∃ ks u, access t (t.x 1) 640 64 false needR false 16 = .ok (ks, u) ∧ (fld (dbl (clrLoads ks t).1 472) 63 52 == t.th.net && dbl (clrLoads ks t).1 448 % 4 != 0) = true) ∧
    (let t := snap 1 0x600 [(0x400 + 472, BitVec.ofNat 64 (1 * 2 ^ 52 + 0xF))]
     ∃ ks u, access t (t.x 1) 640 64 false needR false 16 = .ok (ks, u) ∧ (fld (dbl (clrLoads ks t).1 472) 63 52 == t.th.net && fld (dbl (clrLoads ks t).1 472) 3 0 == 15) = true) := by
  and_intros <;> first | decide +kernel | exact meetsIf _ (by decide +kernel)

theorem test_rest_goes_to_its_pc : nexts (exec (.rest 1) (snap 1 0x600 [(0x400 + 24, 9)])) (fun t => t.th.pc == 0x600 && t.x 3 == 9 && t.x 1 == 0) = true := by decide +kernel
theorem test_tlbi_drops : nexts (exec (.tlbi 0 1 2 false) (one (thr [(1, 0x3FFFFFFF), (2, 1)]))) (fun t => t.tlb == []) = true ∧
    nexts (exec (.tlbi 0 1 2 false) (one (thr [(1, 0x40000000), (2, 1)]))) (fun t => t.tlb == [page 1]) = true := by decide +kernel

/-- A thread with received flits, and a header that names a berth or no quad in vector register 1. -/
def flitSt (mq : List (VData × Nat)) (h : Nat) : State := one { thr [(1, 0x15)] with mq := mq, vecs := (Vector.replicate 8 {}).set 1 { data := BitVec.ofNat 256 h } }

theorem test_meets_SpecialAndMessageRegisters :
    (flitSt [] 0).net.priv = false ∧ { flitSt [] 0 with nets := [(1, { net1 with priv := true })] }.net.priv = true ∧ (1 : BitVec 12).toNat = 1 ∧ (0x23 : BitVec 12).toNat = 0x20 + 3 ∧
    (0xE : BitVec 12).toNat ∉ [0, 1, 2, 3, 4, 5, 6, 7, 8, 9, 0xA, 0xB, 0xC, 0xD, 0x20, 0x21, 0x22, 0x23] ∧ (0xB : BitVec 12).toNat = 0xB ∧ (0x24 : BitVec 12).toNat ≠ 0xB ∧
    (flitSt [] 0).th.mq = [] ∧ (flitSt [(7, 3)] 0).th.mq = (7, 3) :: [] ∧
    (let s := flitSt [] (2 ^ 18 - 1)
     s.net.ofForm s ((s.th.vecs[(1 : VIdx)]).data.toNat % 2 ^ 18) = none) ∧
    (let s := flitSt [] 1
     s.net.ofForm s ((s.th.vecs[(1 : VIdx)]).data.toNat % 2 ^ 18) = some (quadAt 1 0)) := by decide +kernel

theorem test_swr_fflags : nexts (exec (.swr 1 0xB) (flitSt [] 0)) (fun t => t.th.fflags == 0x15) = true := by decide +kernel

/-! ### What meets the hypotheses: placement -/

/-- A free berth 0, and records in quad 0's deque. -/
def dst (l : List Rec) (mem : List Host.Cell) : State := { one (thr []) with berths := [], deques := [(0, l)], mem := mem }
def nodes2 : List Host.Cell := purse [(0x1100, 0x2100000000000000), (0x1140, 0x2200000000000000), (0x1180, 0xFE04000000000010), (0x11C0, 0x2108000000000000)]
/-- The nodes, and the rule of a kind pair with its entry. -/
def withRule (key e : Nat) : List Host.Cell := memWrite nodes2 (4 * key) (leBytes 4 e)
def rec2 (a b : Word) (typ : Nat) : Rec := { a := a, b := b, coin := 8, net := 1, cls := 1, typ := typ }

/-- Both sides of a record and its rule read, with what they are. -/
def opens (s : State) (r : Rec) (x y : Option (Nat × Word)) : Bool :=
  okP (openSide 1 0 0 r.a s) (fun a => a.1 == x && okP (openSide 1 0 0 r.b a.2) (fun b => b.1 == y))
def opensTo (s : State) (r : Rec) (key : Nat) (e : Option (Nat × Bool)) : Bool :=
  okP (openSide 1 0 0 r.a s) (fun a => okP (openSide 1 0 0 r.b a.2) (fun b => okP (ruleEntry 1 0 0 key b.2) (fun x => x.1 == e)))
/-- A vault bank that is changing its role, which global address 0x800 names. -/
def changing (s : State) : State := { s with tlb := [{ page 1 with pa := 2 ^ 48 }], roles := [], roleChg := [(0, 1)] }
/-- A side that names a global node. -/
def far : Word := BitVec.ofNat 64 (2 * 2 ^ 60 + 2 ^ 59 + 0x800)

theorem test_meets_DispatchStartsTheRulesThread :
    let r := rec2 (prin 0x1140) (prin 0x1100) 0
    let s := dst [r] (withRule 0x2122 (2 ^ 31 + 7))
    let u := s.setDeque 0 []
    let from_ := fun (x : Rec) (mem : List Host.Cell) => (dst [x] mem).setDeque 0 []
    offered s 0 = some (.record 0) ∧ (s.deque (quadOf 0))[0]? = some r ∧ s.netStateAt 1 0 = .bound ∧ Tbl.get? s.residents 0 = none ∧ sideOk r.a = true ∧ sideOk r.b = true ∧
    max (max (s.clock / 512) r.time) (Tbl.getD s.floors 0 0) = 0 ∧ opens u r (some (0x22, 0x2200000000000000)) (some (0x21, 0x2100000000000000)) = true ∧
    opensTo u r 0x2122 (some (7, false)) = true ∧ opensTo (from_ r nodes2) r 0x2122 none = true ∧ sideOk 0 = false ∧ opens u (rec2 (prin 0x1200) (prin 0x1100) 0) none (some (0x21, 0x2100000000000000)) = true ∧
    opens u (rec2 (prin 0x1180) (prin 0x1100) 0) (some (0xFE, 0xFE04000000000010)) (some (0x21, 0x2100000000000000)) = true ∧
    (let f := rec2 far imm 0
     sideOk f.a = true ∧ offered (changing (dst [f] [])) 0 = some (.record 0) ∧ errP (openSide 1 0 0 f.a (changing (from_ f []))) (fun _ => true) = true ∧
     okP (openSide 1 0 0 imm (changing (from_ f []))) (fun a => errP (openSide 1 0 0 far a.2) (fun _ => true)) = true ∧
     errP (hwRead 1 0 0 (BitVec.ofNat 64 (far.toNat % 2 ^ 60)) 8 { from_ f [] with tlb := [] }) (fun e => match e with | .fault .. => true | _ => false) = true ∧
     okP (hwRead 1 0 0 (BitVec.ofNat 64 (far.toNat % 2 ^ 60)) 8 (from_ f [])) (fun _ => true) = true) ∧
    okP (hwRead 1 0 0 (BitVec.ofNat 64 (2 ^ 59 + 4 * 0x2122)) 4 u) (fun q => decide (leNat q.1.2 / 2 ^ 31 % 2 = 1 ∧ leNat q.1.2 / 2 ^ 28 % 4 = 0)) = true ∧
    errP (hwRead 1 0 0 (BitVec.ofNat 64 (2 ^ 59 + 4 * 0x2122)) 4 { u with tlb := [] }) (fun e => match e with | .fault .. => true | _ => false) = true ∧
    offered (dst [rec2 0 0 0] nodes2) 0 = some (.record 0) ∧ offered (dst [rec2 (prin 0x1180) (prin 0x1100) 0] nodes2) 0 = some (.record 0) ∧
    offered (dst [rec2 0 0 3] nodes2) 0 = some (.record 0) ∧ (let t := { dst [r] nodes2 with nets := [(1, { net1 with st := .voiding })] }
      offered t 0 = some (.record 0) ∧ t.netStateAt 1 0 = .voiding ∧ t.netStateAt 1 0 ≠ .free) ∧
    (let t := { dst [r] nodes2 with nets := [] }
     offered t 0 = some (.record 0) ∧ t.netStateAt 1 0 = .free) ∧
    (let x := rec2 (prin 0x11C0) (prin 0x11C0) 0
     let sealed := 0x2108000000000000
     let t := from_ x (withRule 0x2121 (2 ^ 31 + 2 ^ 30 + 7))
     opens t x (some (0x21, sealed)) (some (0x21, sealed)) = true ∧ opensTo t x 0x2121 (some (7, true)) = true ∧ hdrS sealed = true ∧
       okP (hwRead 1 0 0 (BitVec.ofNat 64 (2 ^ 59 + sealed.toNat % 2 ^ 48 * 256)) 8 t) (fun _ => true) = true ∧
       errP (hwRead 1 0 0 (BitVec.ofNat 64 (2 ^ 59 + sealed.toNat % 2 ^ 48 * 256)) 8 { t with poison := [0] }) (fun e => match e with | .fault .. => true | _ => false) = true) := by decide +kernel

theorem test_dispatch_orders_its_sides : nexts (exec (.dispatch 0) (dst [rec2 (prin 0x1140) (prin 0x1100) 0] (withRule 0x2122 (2 ^ 31 + 7))))
    (fun t => (t.ctx 0).regs[1] == 0x1100 && (t.ctx 0).regs[2] == 0x1140 && (t.ctx 0).pc == 0x8001C && (t.ctx 0).coin == 8) = true := by decide +kernel

def conX : Context := { net := 1, cls := 0, pts := 3, x := [1, 2, 3, 4, 5, 6, 7], pc := 0x40, coin := 9, quad := 0, core := 1 }
def msgTo (b : MsgBody) : Msg := { src := 1, dst := 0, body := b }
/-- A message for quad 0, halted or not for net 1. -/
def ast (b : MsgBody) (halted : Bool) : State := { dst [] [] with msgs := [msgTo b], netqs := [(2 ^ 18 * 1, { halted := halted })] }

/-- Quad 0 holds all the threads that its net may have there. -/
def busy (l : List Rec) (mem : List Host.Cell) : State := { dst l mem with berths := [(0, { ctx := thr [] })], nets := [(1, { net1 with spawnLim := 1 })] }
/-- A range record of quad 0 over a body at 0x1100 and a RANGE node of [10, 16). -/
def rangeRec : Rec := rec2 (prin 0x1100) (prin 0x1180) 1
def rangeSt : State := busy [rangeRec] (memWrite nodes2 (purseKey 0 0x1190) (leBytes 8 10 ++ leBytes 8 16))

theorem test_meets_ArrivalsEnterAndStealsTakeHalf :
    let r := rec2 imm imm 0
    let s := ast (.redex r (some 5)) false
    Taken 0 (msgTo (.redex r (some 5))) s ∧ haltedAt s 1 0 = false ∧ haltedAt (ast (.redex r none) true) 1 0 = true ∧ s.netStateAt 1 0 = .bound ∧ r.coin ≠ 0 ∧
    { s with nets := [(1, { net1 with st := .voiding })] }.netStateAt 1 0 = .voiding ∧ (s.deque 0).length < 256 ∧
    Taken 0 (msgTo (.context conX none)) (ast (.context conX none) false) ∧ conX.core < 4 ∧ conX.coin ≠ 0 ∧ ((ast (.context conX none) false).arrQ (4 * 0 + 1)).length < 64 ∧
    (ast (.context conX none) false).arrS (4 * 0 + 1) = [] ∧
    (let t := { ast (.context conX none) false with arrivals := [(1, List.replicate 64 conX)] }
     64 ≤ (t.arrQ 1).length ∧ t.netStateAt 1 0 = .bound ∧ poolSlot t ((t.arrS 1).map (·.slot)) 64 96 = some (poolPa t 0)) ∧
    { ast (.context conX none) false with arrSpill := [(1, [conX])] }.arrS 1 ≠ [] ∧ { s with nets := [(1, { net1 with st := .parked })] }.netStateAt 1 0 = .parked ∧
    Taken 0 (msgTo (.steal [r])) (ast (.steal [r]) false) ∧ (∀ x ∈ [r], (ast (.steal [r]) false).netStateAt x.net 0 = .bound ∧ haltedAt (ast (.steal [r]) false) x.net 0 = false) ∧
    (let t := { dst [] [] with arrivals := [(1, [conX])] }
     offered t 16 = some (.context 0) ∧ (t.arrQ (coreId 16))[0]? = some conX ∧ t.netStateAt 1 (quadOf 16) = .bound ∧ Tbl.get? t.residents 16 = none ∧ conX.x.length = 7) ∧
    (let t := { dst [] [] with evicted := [(1, [{ thr [] with slot := 0x8000 }])] }
     offered t 16 = some (.evicted 0) ∧ (Tbl.getD t.evicted (coreId 16) [])[0]? = some { thr [] with slot := 0x8000 } ∧ t.netStateAt 1 (quadOf 16) = .bound ∧
       poisoned t 0x8000 1024 = false ∧ Tbl.get? t.residents 16 = none) ∧
    (let t := { dst [] [] with arrivals := [(1, List.replicate 48 conX)], arrSpill := [(1, [conX])] }
     (t.arrQ 1).length ≤ 48 ∧ (t.arrS 1).Nodup ∧ (∀ c ∈ t.arrS 1, t.netStateAt c.net (1 / 4) ≠ .parked) ∧ t.poison = []) ∧
    (let t := { dst [] [] with spills := [(0, [(0, [r])])] }
     (t.deque 0).length ≤ 32 ∧ t.parkedRec = [] ∧ t.spill 0 = (0, [r]) :: [] ∧ t.poison = [] ∧ ∀ x ∈ [r], t.netStateAt x.net 0 ≠ .parked) ∧
    (let t := busy [r, r] []
     let found := removeRecs (t.deque 0) (takenNow 0 (coreOrder t 0) t)
     ((t.netRec 1).spawnLim = 1 ∧ ((dst [r, r] []).netRec 1).spawnLim ≠ 1 ∧ (nextVictim (dst [r, r] []) 1 1 0).isSome = true) ∧
     nextStealNet t 1 = some 1 ∧ nextStealNet t 1 ≠ some 2 ∧ (nextVictim t 1 1 0).isSome = true ∧ haltedAt t 1 0 = false ∧ t.netStateAt 1 0 = .bound ∧
       found.find? (fun x => x.net == 1 && x.typ != 2) = some r ∧ r.typ ≠ 1) ∧
    (nextStealNet rangeSt 1 = some 1 ∧ (removeRecs (rangeSt.deque 0) (takenNow 0 (coreOrder rangeSt 0) rangeSt)).find? (fun x => x.net == 1 && x.typ != 2) = some rangeRec ∧ 2 ≤ rangeRec.coin ∧
     (nextVictim rangeSt 1 1 0).any (fun u => okP (orderSides 1 0 0 rangeRec.a rangeRec.b (count (dieOf 1) 3 1 { u with stealTurn := Tbl.set u.stealTurn 1 2 })) (fun o =>
       o.1 == some ((prin 0x1100, 0x21, 0x2100000000000000), (prin 0x1180, 0xFE, 0xFE04000000000010)) &&
       okP (nodeGranule 1 0 (prin 0x1180) o.2) (fun g => dbl (memRead g.2.mem g.1 16) 0 == 10 && dbl (memRead g.2.mem g.1 16) 8 == 16 &&
         okP (readBody 1 0 0 (prin 0x1100) g.2) (fun y => bodyArity y.1.1 == 0 && (splitNodes 1 1 0 (prin 0x1100) y.1.1 13 16 y.2).isSome &&
           okP (countKey 1 0 (match y.1.1 with | some (h, _) => h | none => 0) y.2) (fun c => (splitNodes 1 1 0 (prin 0x1100) y.1.1 13 16 c.2).isSome))))) = true) ∧
    (splitNodes 1 1 0 (prin 0x1100) (some (0x2104000000000008, List.replicate 8 7)) 13 16 rangeSt).isSome = true := by
  unfold Taken
  and_intros <;> decide +kernel

theorem test_no_room_for_an_arrival (s : State) : let t := dry { s with parkedRec := [], arrSpill := [], evicted := [] }
    poolSlot t ((t.arrS 1).map (·.slot)) 64 96 = none := noSlot s

theorem test_steal_takes_half : nexts (exec (.stealProbe 1 0 1) (busy [rec2 imm imm 0, rec2 imm imm 0, rec2 imm imm 0] []))
    (fun t => (t.deque 0).length == 1 && t.msgs.map (fun m => match m.body with | .steal l => l.length | _ => 0) == [2]) = true := by decide +kernel
theorem test_admission_starts : nexts (exec (.admission 16) { dst [] [] with arrivals := [(1, [conX])] }) (fun t => (t.ctx 16).pc == 0x40 && (t.ctx 16).regs[7] == 7 && (t.ctx 16).coin == 9) = true := by
  decide +kernel

/-! ### What meets the hypotheses: steps of the memory system, of barriers and of engines -/

/-- Berth 0 waits; on its quad's purse the granule at 0x400 is full or empty. -/
def wst2 (w : Wait) (empties : List Nat) (k : Nat) : State :=
  let r : ParkReq := { berth := 0, tid := 5, key := purseKey 0 0x400, n := 8, zext := false, rd := 3, clear := true, len := 4 }
  { one { thr [] with wait := w } with empties := empties, waits := [(0, List.replicate k r)] }
def reqP : ParkReq := { berth := 0, tid := 5, key := purseKey 0 0x400, n := 8, zext := false, rd := 3, clear := true, len := 4 }
/-- A page table at 0x80000 that maps the first 64 KiB to itself, and no cached translation. -/
def wk : State :=
  { one (thr []) with tlb := [], nets := [(1, { net1 with ptRoot := 0x80000 })],
                      mem := bytesAt [(0x80000, leBytes 8 (0x82000 + 1)), (0x82000, leBytes 8 (0x84000 + 1)), (0x84000, leBytes 8 (0x86000 + 1)), (0x86000, leBytes 8 0x1F)] }

theorem test_meets_MemoryStepsSettleReplyAndFill :
    let key := purseKey 0 0x400
    (let s := { one (thr []) with stores := [{ tid := 5, addr := 256, bytes := [1, 2], wts := 0 }, { tid := 5, addr := 257, bytes := [3], wts := 0 }] }
     ∃ l st r, s.stores = l ++ st :: r ∧ (st.addr / 256 = 1 ∧ st.addr ≤ 256 ∧ 256 < st.addr + st.bytes.length) ∧ ∀ y ∈ r, ¬(y.addr / 256 = 1 ∧ y.addr ≤ 256 ∧ 256 < y.addr + y.bytes.length)) ∧
    ((wst2 (.cells 1) [] 0).held 0 = true ∧ ((wst2 (.cells 64) [] 0).ctx 0).wait = .cells 64 ∧ 64 ≤ freeCells (wst2 (.cells 64) [] 0) 1 (quadOf 0)) ∧
    ((wst2 (.rehomed 5) [] 0).ctx 0).wait = .rehomed 5 ∧
    (let s := wst2 (.rehomedAdd 0x20000 8 5 3 none) [] 0
     (s.ctx 0).wait = .rehomedAdd 0x20000 8 5 3 none ∧ isPurse 0x20000 = false ∧ 0x20000 % 256 + 8 ≤ 256 ∧ poisoned s 0x20000 8 = false ∧
       s.berths.all (fun e => match e.2.ctx.wait with | .rehomedAdd _ _ _ _ r => r != some 0 | _ => true) = true ∧
       nexts (exec (.rehome 0) { s with mem := bytesAt [(0x20000, leBytes 8 9)] }) (fun t => memRead t.mem 0x20000 8 == leBytes 8 14 && (t.ctx 0).regs[3] == 9 && (t.ctx 0).pc == 0x104) = true) ∧ ((wst2 (.refused reqP) [] 0).ctx 0).wait = .refused reqP ∧ reqP.berth = 0 ∧ reqP.key / 16 ∉ (wst2 (.refused reqP) [] 0).empties ∧
    (reqP.key / 16 ∈ (wst2 (.refused reqP) [key / 16] 127).empties ∧ (Tbl.getD (wst2 (.refused reqP) [key / 16] 127).waits (keyQuad reqP.key) []).length < 128) ∧
    128 ≤ (Tbl.getD (wst2 (.refused reqP) [key / 16] 128).waits (keyQuad reqP.key) []).length ∧
    (let s := wst2 (.refused reqP) [] 0
     heldTile { s with cur := 0 } reqP.key reqP.n = false ∧ poisoned s reqP.key reqP.n = false ∧ poisoned { s with poison := [key / 16] } reqP.key reqP.n = true) ∧
    (let r := { reqP with key := purseKey 0 0xB000 }
     let s := { wst2 (.refused r) [] 0 with mgangs := [(16, { gang1 with op := some {} })] }
     r.berth = 0 ∧ (s.ctx 0).wait = .refused r ∧ heldTile { s with cur := 0 } r.key r.n = true) ∧
    ([Wait.reply, .fetch, .room, .spill, .held, .added key 8 3].all (fun w => ((wst2 w [] 0).ctx 0).wait == w && (wst2 w [] 0).held 0)) = true ∧
    (let p : LinkProg := { rd := 3, rehome := some 0x1000 }
     (wst2 (.link p) [] 0).held 0 = true ∧ ((wst2 (.link p) [] 0).ctx 0).wait = .link p ∧ p.rehome = some 0x1000) ∧ 1 ∈ wk.bindSet 0 ∧
    (∃ e u, translation wk 0 1 0x1234 = .ok (e, u) ∧ (e.pa == 0 && e.bits == 16) = true) ∧ tlbFind wk false 0 1 0x1234 = none := by
  intro key
  refine ⟨⟨[], _, _, rfl, by decide, by decide⟩, ?_⟩
  and_intros <;> first | decide +kernel | exact meetsIf _ (by decide +kernel)

theorem test_reissue_serves : nexts (exec (.waitTableReissue 0) { wst2 (.refused reqP) [] 0 with mem := purse [(0x400, 9)] })
    (fun t => (t.ctx 0).regs[3] == 9 && (t.ctx 0).pc == 0x104 && t.empties == [purseKey 0 0x400 / 16]) = true := by decide +kernel

/-- A reduction of one core whose arrival has come with the value v; berth 0 waits at it. -/
def rel (w : Wait) (isRed : Bool) : State :=
  { one { thr [] with wait := w } with bars := [((4096 * 0 + 1) * 8 + 0, { arrived := true, rect := BitVec.ofNat 64 (2 ^ 44), isRed := isRed, got := [(0, 9)] })] }
/-- Berth 1 sends a flit to berth 0, which holds l. -/
def flits (l : List (VData × Nat)) : State :=
  { one (thr []) with msgs := [{ src := 0, dst := 0, body := .flit 7 0 1 1 4 }],
                      berths := [(0, { ctx := { thr [] with mq := l, wait := .flit 2 } }), (1, { ctx := { thr [] with tid := 6, wait := .send 7 0 } })] }

theorem otherGen : ¬({ thr [] with wait := .red 0 true 3 } : Ctx).net = 1 ∨ ¬(({ thr [] with wait := .red 0 true 3 } : Ctx).wait = .bar 0 false ∨ ∃ d, ({ thr [] with wait := .red 0 true 3 } : Ctx).wait = .red 0 false d) :=
  .inr (fun h => h.elim (fun h => by simp at h) (fun ⟨_, h⟩ => by simp at h))
theorem test_meets_BarriersReleaseAndFlitsEnter :
    (let m : Msg := msgTo (.sweep 1 0 0 9 0 3)
     Taken 0 m { one (thr []) with msgs := [m] } ∧ m.body = .sweep 1 0 0 9 0 3 ∧ ((one (thr [])).netRec 1).st = .bound ∧ ({ one (thr []) with nets := [] }.netRec 1).st = .free ∧
       ({ one (thr []) with nets := [(1, { net1 with st := .voiding })] }.netRec 1).st = .voiding ∧ ({ one (thr []) with nets := [(1, { net1 with st := .parked })] }.netRec 1).st = .parked) ∧
    (let s := rel (.red 0 false 3) true
     let nw := s.bar 0 1 0
     (s.netRec 1).st = .bound ∧ nw.arrived = true ∧ (rectRows (s.netRec 1) s nw.rect).flatten = [0] ∧ nw.isRed = true ∧ (∃ e ∈ nw.got, e.1 = 0) ∧
       (rectRows (s.netRec 1) s nw.rect).flatten.head? = some 0 ∧ (rectRows (s.netRec 1) s nw.rect).flatten.Nodup ∧ fld nw.rect.toNat 46 44 < 6 ∧
       ¬(coreId 20 ∈ [0]) ∧ ¬AtBar { thr [] with wait := .red 0 true 3 } 1 0 nw.gen ∧ Tbl.get? s.berths 0 = some { ctx := { thr [] with wait := .red 0 false 3 } } ∧ coreId 0 ∈ [0] ∧ AtBar { thr [] with wait := .red 0 false 3 } 1 0 nw.gen) ∧
    (let s := rel (.bar 0 false) false
     (s.bar 0 1 0).isRed = false ∧ (rectRows (s.netRec 1) s (s.bar 0 1 0).rect).flatten = [0] ∧ AtBar { thr [] with wait := .bar 0 false } 1 0 (s.bar 0 1 0).gen) ∧
    (let s := flits [(1, 1)]
     Taken 0 { src := 0, dst := 0, body := .flit 7 0 1 1 4 } s ∧ haltedAt s 1 0 = false ∧ (s.netRec 1).form s (quadOf 1) < 2 ^ 18 ∧ s.held 0 = true ∧ (s.ctx 0).net = 1 ∧ (s.ctx 0).mq.length < 8 ∧
       (s.ctx 1).wait = .send 7 0 ∧ s.held 1 = true ∧ (s.ctx 1).net = 1 ∧ haltedAt { s with netqs := [(2 ^ 18 * 1, { halted := true })] } 1 0 = true ∧ (s.netRec 1).st ≠ .voiding) ∧ 8 ≤ ((flits (List.replicate 8 (1, 1))).ctx 0).mq.length ∧
    (let s := { flits [] with berths := (flits []).berths.drop 1 }
     s.held 0 = false ∧ Tbl.get? s.residents 0 = none ∧ Taken 0 { src := 0, dst := 0, body := .flit 7 0 1 1 4 } s) ∧
    (({ flits [] with msgs := [] } : State).ctx 1).wait = .send 7 0 ∧ ∀ w ∈ ({ flits [] with msgs := [] } : State).msgs, ∀ p q' n' t', w.body ≠ .flit p q' 1 n' t' := by
  unfold Taken AtBar
  and_intros <;> first | decide +kernel | exact .inr ⟨_, rfl⟩ | exact fun h => otherGen.elim (fun g => g h.1) (fun g => g h.2) | exact fun _ h => absurd h List.not_mem_nil

theorem test_release_gives_the_sum : nexts (exec (.barrierRelease 0 1 0) (rel (.red 0 false 3) true)) (fun t => (t.ctx 0).regs[3] == 9 && (t.ctx 0).pc == 0x104 && (t.bar 0 1 0).gen) = true := by
  decide +kernel
theorem test_flit_names_its_sender : nexts (exec (.flitArrival 0) (flits [])) (fun t => (t.ctx 0).mq == [(BitVec.ofNat 256 (2 ^ 20), 4)] && (t.ctx 1).pc == 0x104) = true := by decide +kernel

def desc1 : Desc := { aw := own 0x100, bw := own 0x200, len := 32 }
/-- A command at the head of a channel's queue. -/
def run1 (ch : Nat) (c : Cmd) : State := { one (thr []) with chans := [(ch, { queue := [c], next := 2 })] }
def descG : Desc := { aw := own 0x400, bw := own 0x500, idx := own 0x300, n := 1, row := 32, tlen := 2, pitch := 32, stride := 32 }
/-- A row whose index is x and whose pitch is p. -/
def runG (kind : CmdKind) (x p : Nat) : State × Cmd :=
  let c : Cmd := { cmd1 with kind := kind, desc := { descG with pitch := p }, started := true }
  ({ run1 4 c with mem := purse [(0x300, BitVec.ofNat 64 x), (0x420, 7)] }, c)

theorem test_meets_EngineCommandsBeginAndMove :
    let c : Cmd := { cmd1 with desc := { desc1 with dep := 1, dch := 2, depVal := 1 } }
    ((run1 1 c).chan 0 1).queue.head? = some c ∧ ¬(c.desc.depVal ≤ ((run1 1 c).chan c.quad c.desc.dch).mark) ∧
    (let s := { run1 1 c with chans := [(1, { queue := [c] }), (2, { mark := 1 })] }
     (s.chan 0 1).queue.head? = some c ∧ c.started = false ∧ c.voided = false ∧ c.desc.depVal ≤ (s.chan c.quad c.desc.dch).mark ∧ quadHalted s 0 = false ∧ c.kind = .copy ∧
       ¬(c.desc.aw.toNat < c.desc.bw.toNat + c.desc.len ∧ c.desc.bw.toNat < c.desc.aw.toNat + c.desc.len)) ∧
    (let f : Cmd := { cmd1 with kind := .fence 0x11 }
     let a := { one (thr []) with chans := [(0, { queue := [f] }), (4, { queue := [f] })] }
     let b := { one (thr []) with chans := [(0, { queue := [f] }), (4, { queue := [{ cmd1 with seq := 9 }, f] })] }
     f.kind = .fence 0x11 ∧ ((List.range 5).all (fun h => match (a.chan 0 h).queue with | [] => true | x :: r => x.seq == f.seq || r.all (fun y => y.seq != f.seq)) = true) ∧
       (match (b.chan 0 4).queue with | x :: r => x.seq != f.seq && r.any (fun y => y.seq == f.seq) | [] => false) = true) ∧
    (let p : Cmd := { cmd1 with stopped := some 0x10000 }
     ((run1 1 p).chan 0 1).queue.head? = some p ∧ p.stopped = some 0x10000 ∧ p.statRow = none ∧ p.desc.cnt = false) ∧
    (let p : Cmd := { cmd1 with kind := .gather, desc := descG, stopped := some 0x10000, statRow := some 0 }
     ((run1 4 p).chan 0 4).queue.head? = some p ∧ p.stopped = some 0x10000 ∧ p.statRow = some 0) ∧
    quadHalted { run1 1 c with netqs := [(2 ^ 18 * 1, { halted := true })] } 0 = true ∧
    (let m : Cmd := { cmd1 with desc := desc1, started := true }
     let s := run1 1 m
     let bad := { s with poison := [purseKey 0 0x100 / 16] }
     Runs s 0 1 m ∧ m.kind = .copy ∧ 0 < m.desc.len / 16 ∧ m.snap = none ∧ isPurse (purseKey 0 0x100) = true ∧ purseKey 0 0x200 % 16 = 0 ∧
       cmdAccess s m (m.desc.aw + BitVec.ofNat 64 (16 * 0)) 16 false = .go (purseKey 0 0x100) s ∧ cmdAccess s m (m.desc.bw + BitVec.ofNat 64 (16 * 0)) 16 true = .go (purseKey 0 0x200) s ∧
       poisoned s (purseKey 0 0x100) 16 = false ∧ poisoned bad (purseKey 0 0x100) 16 = true ∧ Runs bad 0 1 m ∧
       cmdAccess bad m (m.desc.aw + BitVec.ofNat 64 (16 * 0)) 16 false = .go (purseKey 0 0x100) bad ∧ cmdAccess bad m (m.desc.bw + BitVec.ofNat 64 (16 * 0)) 16 true = .go (purseKey 0 0x200) bad) ∧
    (∀ kind ∈ [CmdKind.gather, .scatter], ∀ e ∈ [(1, 32), (2, 32), (1, 16)],
      let s := (runG kind e.1 e.2).1
      let c := (runG kind e.1 e.2).2
      let d := c.desc
      let row := d.bw + BitVec.ofNat 64 (0 * d.stride)
      Runs s 0 4 c ∧ 0 < d.n ∧ 0 ∉ c.moved ∧ c.rows = [] ∧ 0 < c.idxs.length + 64 ∧ c.idxs.length = 0 ∧ d.stat = 0 ∧ s.poison = [] ∧ isPurse (purseKey 0 0x300) = true ∧
        cmdAccess s c (d.idx + BitVec.ofNat 64 (4 * 0)) 4 false = .go (purseKey 0 0x300) s ∧ leNat (memRead s.mem (purseKey 0 0x300) 4) = e.1 ∧
        (kind = .gather → RowKeys s c row true (purseKey 0 0x500)) ∧
        (e = (1, 32) → e.1 < d.tlen ∧ (d.aw + BitVec.ofNat 64 (e.1 * d.pitch)).toNat % 32 = 0 ∧ rowFits d e.1 = true ∧
          RowKeys s c (if kind = .gather then d.aw + BitVec.ofNat 64 (e.1 * d.pitch) else row) false (if kind = .gather then purseKey 0 0x420 else purseKey 0 0x500) ∧
          RowKeys s c (if kind = .gather then row else d.aw + BitVec.ofNat 64 (e.1 * d.pitch)) true (if kind = .gather then purseKey 0 0x500 else purseKey 0 0x420)) ∧
        (e.1 = 2 → d.tlen ≤ e.1) ∧ (e.2 = 16 → (d.aw + BitVec.ofNat 64 (e.1 * d.pitch)).toNat % 32 ≠ 0)) ∧
    (let s := (runG .gather 1 32).1
     let c : Cmd := { (runG .gather 1 32).2 with idxs := [1], rows := [{ row := 0, idx := 1, moved := [0], bad := false }] }
     Runs (run1 4 c) 0 4 c ∧ (c.rows.find? (fun r => r.row == 0)).isSome = true ∧ (∀ j, c.idxs.length ≤ j → ¬j ≤ 0) ∧ 0 ∉ c.moved ∧ s.poison = [] ∧
       (purseKey 0 0x420 + c.desc.row / 16 * 16 ≤ purseKey 0 0x500)) ∧
    (let c : Cmd := { cmd1 with kind := .gather, desc := { descG with stat := own 0x700 } }
     c.desc.stat ≠ 0 ∧ cmdAccess (run1 4 c) c (c.desc.stat + BitVec.ofNat 64 3) 1 true = .go (purseKey 0 0x703) (run1 4 c) ∧ isPurse (purseKey 0 0x703) = true) := by
  unfold Runs RowKeys
  and_intros <;> decide +kernel

theorem test_gather_moves_a_row : nexts (exec (.gatherRow 0 0) (runG .gather 1 32).1) (fun t => bankWord t (purseKey 0 0x500) == 7) = true := by decide +kernel

theorem test_meets_EngineCommandsComplete :
    let c : Cmd := { cmd1 with desc := { desc1 with cnt := true, ctr := 2 }, started := true, moved := [0, 1] }
    let s := run1 1 c
    (s.chan 0 1).queue.head? = some c ∧ c.kind = .copy ∧ c.desc.stat = 0 ∧ c.moved.length = c.desc.len / 16 ∧ (s.netRec c.net).st ≠ .voiding ∧ c.desc.cont = false ∧ c.coin ≠ 0 ∧
    s.berths.all (fun e => match e.2.ctx.wait with | .counter .. => false | _ => true) = true ∧ (s.berths.map (·.1)).Nodup ∧
    (let t := { one { thr [] with wait := .mark 1 1 } with chans := [(1, { queue := [c] })] }
     t.held 0 = true ∧ quadOf 0 = 0 ∧ (t.ctx 0).wait = .mark 1 1 ∧ 1 ≤ (t.chan 0 1).mark + 1) ∧
    s.netStateAt c.net 0 = .bound ∧ (s.deque 0).length < 256 ∧
    (let v : Cmd := { c with voided := true, moved := [], started := false }
     ((run1 1 v).chan 0 1).queue.head? = some v ∧ v.voided = true ∧ v.started = false) ∧
    (let f : Cmd := { c with failed := some .access, moved := [] }
     let t := { run1 1 f with mem := handled }
     (t.chan 0 1).queue.head? = some f ∧ (hasHandler 1 0 t).1 = true ∧ (t.netq 1 0).waiting = [] ∧ (t.netq 1 0).eng = [] ∧ freeBlock t 1 0 = some 0 ∧ (t.netRec 1).form t 0 < 2 ^ 18) ∧
    (let f : Cmd := { c with desc := {}, kind := .fence 0x3 }
     let t := { one (thr []) with chans := [(0, { queue := [f] }), (1, { queue := [f] })] }
     (t.chan 0 1).queue.head? = some f ∧ f.desc.stat = 0 ∧ f.started = true ∧ f.failed = none ∧ f.stopped = none ∧ (∃ y ∈ (t.chan 0 0).queue, y.seq = f.seq) ∧
       ∀ h < 5, h ≠ 1 → ∀ y ∈ ((run1 1 f).chan 0 h).queue, y.seq ≠ f.seq) ∧
    [CmdKind.gather, .scatter].all (fun k =>
      let g : Cmd := { cmd1 with kind := k, desc := descG, started := true, moved := [0] }
      ((run1 4 g).chan 0 4).queue.head? == some g && g.desc.stat == 0 && g.moved.length == g.desc.n && !g.desc.cont && g.failed == none && g.stopped == none && !g.voided) = true ∧
    (let k : Cmd := { c with desc := { c.desc with cont := true } }
     ((run1 1 k).chan 0 1).queue.head? = some k ∧ k.desc.cont = true ∧ k.moved.length = k.desc.len / 16) ∧
    (let t := { s with nets := [(1, { net1 with st := .voiding })] }
     (t.netRec c.net).st = .voiding ∧ (t.chan 0 1).queue.head? = some c) := by decide +kernel

theorem test_completion_raises_the_mark : nexts (exec (.engineCompletion 0 1) (run1 1 { cmd1 with desc := desc1, started := true, moved := [0, 1] }))
    (fun t => (t.chan 0 1).mark == 1 && (t.chan 0 1).queue == [] && t.msgs == [{ src := 0, dst := 0, body := .ret 1 8 0 }]) = true := by decide +kernel

/-! ### What meets the hypotheses: mints, nets and banks -/

def dead (net : NetRec) (m : Mint) (ls : List Launch) : State := { one (thr []) with nets := [(1, net)], mints := [(1, m)], launches := ls, wallBase := 5 }
/-- A launch record of class c with a time limit: one cluster, a pool of 4 KiB, 64 grains. -/
def launchBytes (c dl : Nat) : List Byte :=
  descOf [2 * 2 ^ 56 + c * 2 ^ 54 + 4 * 2 ^ 26 + 1, dl, 64, 0, 0, 0, 0x30 * 2 ^ 56, imm.toNat, imm.toNat, 0, 0, 0, 0, 0, 0, 0]
def launch1 (c dl : Nat) : Launch := { net := 1, record := launchBytes c dl, src := .host 0, master := 0, queue := 3, tagg := 4, reply := 0 }
def waiting1 (w : Wait) (m : Mint) (st : NetState) : State := { one { thr [] with wait := w } with nets := [(1, { net1 with st := st })], mints := [(1, m)] }

theorem test_meets_MintsTimeLimitsAndVoiding :
    ({ one (thr []) with msgs := [msgTo (.ret 1 8 2)] } : State).msgs[0]? = some { src := 1, dst := 0, body := .ret 1 8 2 } ∧
    (∀ st ∈ [MintState.opened, .quiet, .voiding, .voided], let s := waiting1 .borrow { st := st } .bound
      s.held 0 = true ∧ (s.ctx 0).wait = .borrow ∧ (s.mint (s.ctx 0).net).st = st) ∧
    (let p : LinkProg := { rd := 3, push := some (imm, imm) }
     let s := { waiting1 (.link p) {} .bound with berths := [(0, { ctx := { thr [] with coin := 1, wait := .link p } }), (7, { ctx := { thr [] with tid := 6, wait := .borrow } })] }
     s.held 0 = true ∧ (s.ctx 0).wait = .link p ∧ p.push.isSome = true ∧ (s.ctx 0).coin < 2 ∧ (s.ctx 0).lent = 0 ∧ (s.mint (s.ctx 0).net).st = .opened ∧ otherBorrower 0 s = some 7) ∧
    otherBorrower 0 (waiting1 .borrow {} .bound) = none ∧
    (∀ st ∈ [MintState.opened, .quiet], let s := dead { net1 with deadline := 5 } { st := st } []
      (s.netRec 1).st = .bound ∧ (s.netRec 1).deadline ≠ 0 ∧ (s.netRec 1).deadline ≤ s.wall ∧ s.launches = [] ∧ (s.mint 1).st = st) ∧
    (let l := launch1 1 5
     let s := dead { net1 with st := .free } {} [l]
     s.launches = [l] ∧ dbl l.record 8 ≠ 0 ∧ dbl l.record 8 ≤ s.wall) ∧
    (let s := waiting1 (.qwait 1 3) { st := .quiet, due := [{ tid := 5, report := 7, time := 2, voided := false }] } .bound
     ((s.mint 1).due.map (·.tid)).Nodup ∧ (s.mint 1).due ≠ [] ∧ (Tbl.get? s.berths 0).any (fun x => x.ctx.tid == 5 && x.ctx.wait == .qwait 1 3) = true) ∧
    (let s := waiting1 (.qretry 1 3) {} .bound
     s.held 0 = true ∧ (s.ctx 0).wait = .qretry 1 3 ∧ (s.mint 1).st = .opened ∧ waitersAt s (homeOf s (mintPa s 1)) < 64) ∧
    (let s := waiting1 .ready { st := .voiding } .voiding
     s.held 0 = true ∧ (s.netRec 1).st = .voiding ∧ (s.ctx 0).woken = false ∧ (s.ctx 0).wait = .ready ∧ Tbl.get? s.residents 0 = none) ∧
    (let s := { waiting1 (.faultPending {}) {} .bound with netqs := [(2 ^ 18 * 1, { waiting := [5], blocks := [0, 2, 3] })] }
     (s.ctx 0).wait = .faultPending {} ∧ firstWaiting s 1 0 = some 5 ∧ (s.netq 1 0).waiting = [5] ∧ freeBlock s 1 0 = some 1 ∧ 2 ≤ (s.ctx 0).coin ∧ (s.deque 0).length < 256 ∧
       s.netStateAt 1 0 = .bound) ∧
    (let s := { waiting1 (.mark 1 1) {} .bound with berths := [(0, { ctx := { thr [] with wait := .mark 1 1, waited := 800 } })] }
     s.held 0 = true ∧ (s.netRec 1).watch ≠ 0 ∧ 8 * (s.netRec 1).watch ≤ (s.ctx 0).waited ∧ (s.netRec 1).st = .bound ∧ haltedAnywhere s 1 = false) ∧
    (let p : LinkProg := { rd := 3, onHold := true }
     let s := { waiting1 (.link p) {} .bound with berths := [(0, { ctx := { thr [] with wait := .link p, waited := 800 } })] }
     (s.ctx 0).wait = .link p ∧ p.onHold = true ∧ 8 * (s.netRec 1).watch ≤ (s.ctx 0).waited) ∧
    (let p : LinkProg := { rd := 3 }
     let s := { waiting1 (.link p) {} .bound with berths := [(0, { ctx := { thr [] with wait := .link p, waited := 800 } })] }
     (s.ctx 0).wait = .link p ∧ p.onHold = false) := by decide +kernel

theorem test_qwait_wakes : nexts (exec (.qwaitWake 1) (waiting1 (.qwait 1 3) { st := .quiet, due := [{ tid := 5, report := 7, time := 2, voided := false }] } .bound))
    (fun t => (t.ctx 0).regs[3] == 7 && (t.ctx 0).pc == 0x104) = true := by decide +kernel

/-- A free id, and a launch that waits for it. -/
def bindable1 : State := { one (thr []) with berths := [], nets := [], mints := [], tlb := [], launches := [launch1 1 0] }
/-- A bound net of class 0 with a thread and a record, and a launch of class 1. -/
def park1 : State := { one (thr [(3, 9)]) with deques := [(0, [recX])], launches := [{ launch1 1 0 with net := 2 }] }
def parked1 : State := { one (thr []) with berths := [], residents := [(0, thr [(3, 9)])], netqs := [(2 ^ 18 * 1, { parked := true })] }
/-- The same with a record and a context set aside. -/
def parked2 : State := { parked1 with parkedRec := [{ quad := 0, no := 0, recs := [recX] }], arrSpill := [(0, [{ net := 1, cls := 0, pts := 0, x := [], pc := 0, coin := 4, quad := 0, core := 0, slot := poolPa parked1 1 }])] }

theorem test_meets_NetsAreBoundParkedReboundAndEnded :
    (bindable1.launches = [launch1 1 0] ∧ (parseLaunch (launch1 1 0).record).any (fun r => bindable bindable1 (launch1 1 0) r 0 0 0x1000 0x400 &&
      decide ((bindable1.deque ((boundRec (launch1 1 0) r 0 0 0x1000 0x400 0).launchQuad bindable1)).length < 256)) = true) ∧
    (∀ st ∈ [MintState.quiet, .voided], let s := { qst { st := st } with berths := [] }
      (s.netRec 1).st ≠ .free ∧ (s.mint 1).st = st ∧ hasThreads s 1 = false) ∧ hasThreads (qst { st := .quiet }) 1 = true ∧
    park1.netStateAt 1 0 = .bound ∧ (park1.berths.map (·.1)).Nodup ∧ (poolInUse park1).length + (park1.deque 0).length + ((coresOf 0).map (fun k => (park1.arrQ k).length)).sum ≤ poolBlocks ∧
    (park1.launches.any (fun l => (parseLaunch l.record).any (fun r => decide ((park1.netRec 1).cls.toNat < r.cls)))) = true ∧ mustFinish (park1.ctx 0).wait = false ∧ recX ∈ park1.deque 0 ∧
    (parked1.netRec 1).st = .bound ∧ ((parked1.netRec 1).quads parked1).filter (fun p => (parked1.netq 1 p).parked) = [0] ∧ Tbl.get? parked1.residents 0 = some (thr [(3, 9)]) ∧
    (poolInUse parked1).length + ((parked1.parkedRec.map (fun b => b.recs.length)).sum + ((coresOf 0).map (fun k => (parked1.arrQ k).length + (parked1.arrS k).length)).sum) ≤ poolBlocks ∧
    (∀ b ∈ parked2.parkedRec, (readBlock b.no b.recs parked2).2 = []) ∧ (∀ k ∈ coresOf 0, ∀ c ∈ parked2.arrS k, poisoned parked2 c.slot 96 = false) := by decide +kernel

theorem test_bind_then_first_redex : nexts (exec (.bind 0 0 0 0x1000 0x400) bindable1) (fun t => (t.deque 0).map (·.coin) == [64] && bankWord t (purseKey 0 0x2000) == 0x3000000000000000) = true := by
  decide +kernel
theorem test_park_and_rebind : nexts (exec (.park 1 0) park1) (fun t => t.berths == [] && (Tbl.get? t.residents 0).any (fun c => c.regs[3] == 9) && t.deque 0 == []) = true ∧
    nexts (exec (.rebind 1) parked1) (fun t => (t.ctx 0).regs[3] == 9) = true := by decide +kernel

/-- A slice whose bank 1 is to go from CACHE to scratch, and bank 2 from there to CACHE. -/
def banks : State := { one (thr []) with roles := [(3, 2 * 4 ^ 2)], roleChg := [(3, 2 * 4)] }

/-- A bank's lines in a quad's cache and a slice's, a store in them that is not settled, and guest lines of slice 3. -/
def bankLines (v : Nat) : State :=
  let c : Copy := { guest := false, holder := 0, line := (2 ^ 48 + 3 * 2 ^ 23 + 2 ^ 18) / 256, data := [], wts := 0, lend := 0, gtick := 0 }
  { banks with roleChg := [(3, v)], copies := [c, { c with guest := true, holder := 3, line := 5 }], stores := [{ tid := 5, addr := 2 ^ 48 + 3 * 2 ^ 23 + 2 ^ 18, bytes := [1], wts := 0 }] }

theorem test_meets_BankRolesChange :
    Tbl.get? banks.roleChg 3 = some (2 * 4) ∧ 2 * 4 < 4 ^ 32 ∧ Tbl.getD banks.roles 3 0 < 4 ^ 32 ∧ (∀ k, k < 32 → bankNamed banks 3 k = false) ∧ banks.stores = [] ∧
    (Tbl.getD banks.roles 3 0 / 4 ^ 1 % 4 = 0 ∧ 2 * 4 / 4 ^ 1 % 4 = 2) ∧ (Tbl.getD banks.roles 3 0 / 4 ^ 2 % 4 = 2 ∧ 2 * 4 / 4 ^ 2 % 4 = 0) ∧
    Tbl.getD banks.roles 3 0 / 4 ^ 31 % 4 = 2 * 4 / 4 ^ 31 % 4 ∧
    (let s := bankLines ((4 ^ 32 - 1) / 3)
     Tbl.get? s.roleChg 3 = some ((4 ^ 32 - 1) / 3) ∧ (4 ^ 32 - 1) / 3 < 4 ^ 32 ∧ (∀ st ∈ s.stores, st.addr % 256 + st.bytes.length ≤ 256) ∧ (4 ^ 32 - 1) / 3 / 4 ^ 1 % 4 = 1 ∧
       s.copies.any (fun c => c.guest && c.holder == 3) = true ∧ hasCache { s with roles := [(3, (4 ^ 32 - 1) / 3)] } 3 = false) := by decide +kernel

theorem test_bank_change_drops_lines : nexts (exec (.bankRoleChange 3) (bankLines ((4 ^ 32 - 1) / 3)))
    (fun t => t.copies == [] && t.stores == [] && t.roleChg == []) = true := by decide +kernel
/-! ### What meets the hypotheses: hosts, peers and commands -/

/-- The module with port 0 as owner in epoch 1; span port 2 leads to peer 7, which may launch, write and read the 64 MiB from 0. -/
def host1 : State :=
  { one (thr []) with owner := { epoch := 1, st := .owned }, span := [(2, 7)],
                      acl := [(0, { w0 := BitVec.ofNat 64 (2 ^ 63 + 2 ^ 62 + 2 ^ 60 + 2 ^ 59 + 7), w1 := 1, w2 := 0, w3 := 1 })] }

/-- The owner has halted the quad for net 1. -/
def debugged : State := { host1 with netqs := [(2 ^ 18 * 1, { halted := true })] }

theorem test_meets_HostsAndPeersReachWhatTheyMay :
    (zeros 256).length = 256 ∧ (host1.cmdq 0).length < 64 ∧ 64 ≤ ({ host1 with cmdqs := [(0, List.replicate 64 { src := .host 0, bytes := [] })] }.cmdq 0).length ∧ (zeros 255).length ≠ 256 ∧
    (2 ^ 48 * 15 + 0x2001000) % 4096 = 0 ∧ (2 ^ 48 * 15 + 0x203F008) % 4096 ≠ 0 ∧ host1.owner.st ≠ .vacant ∧ host1.owner.port = 0 ∧ ¬(host1.owner.st ≠ .vacant ∧ host1.owner.port = 1) ∧
    host1.power = .on ∧ Tbl.getD host1.bar2 0 0 ≤ 0x100 ∧ 0x100 + 8 ≤ Tbl.getD host1.bar2 0 0 + 2 ^ 36 ∧ 0x100 + 8 ≤ hbmTop ∧ host1.stores = [] ∧
    (Tbl.get? host1.span 2 = some 7 ∧ (aclOf host1 7).any (fun e => fld e.w0.toNat 60 60 == 1 && fld e.w0.toNat 59 59 == 1 && fld e.w2.toNat 51 26 * 2 ^ 26 ≤ 0x100 &&
      0x100 + 8 ≤ fld e.w2.toNat 51 26 * 2 ^ 26 + fld e.w3.toNat 19 0 * 2 ^ 26) = true ∧ 0x100 + 8 ≤ host1.resBase) ∧ Tbl.get? host1.span 3 = none ∧
    (host1.resBase + 2 ^ 26 + 8 ≤ host1.resBase + 2 ^ 26 + 2 ^ 26 ∧ host1.resBase + 2 ^ 26 + 8 ≤ hbmTop ∧ ({ host1 with power := .noFirmware } : State).power ≠ .on) ∧
    (0x100 + (zeros 8).length ≤ hbmTop ∧ (zeros 8).length ≤ 512 ∧ bankBusy host1 0x100 8 = false ∧ 0x100 < hbmTop) ∧
    (let s := { host1 with acl := [(0, { w0 := BitVec.ofNat 64 (2 ^ 63 + 2 ^ 62 + 2 ^ 60 + 2 ^ 59 + 7), w1 := 1, w2 := BitVec.ofNat 64 (15 * 2 ^ 48), w3 := 1 })] }
     (aclOf s 7).any (fun e => fld e.w0.toNat 60 60 == 1 && fld e.w0.toNat 59 59 == 1 && fld e.w2.toNat 51 26 * 2 ^ 26 ≤ 2 ^ 48 * 15 + 0x1000 &&
       2 ^ 48 * 15 + 0x1000 + 8 ≤ fld e.w2.toNat 51 26 * 2 ^ 26 + fld e.w3.toNat 19 0 * 2 ^ 26) = true ∧ s.resBase + s.resSize ≤ 2 ^ 48 * 15 + 0x1000) ∧
    (Tbl.get? host1.span 2 ≠ none ∧ 2 ^ 48 * 15 + 0x1000 + 8 ≤ 2 ^ 48 * 15 + 2 ^ 26 ∧ 2 ^ 48 * 15 + 0x1000 < 2 ^ 48 * 16) ∧
    (let s := changing { host1 with acl := [(0, { w0 := BitVec.ofNat 64 (2 ^ 63 + 2 ^ 62 + 2 ^ 60 + 2 ^ 59 + 7), w1 := 1, w2 := BitVec.ofNat 64 (2 ^ 48), w3 := 1 })] }
     bankBusy s (2 ^ 48) 8 = true ∧ 2 ^ 48 + 8 ≤ 2 ^ 48 + 2 ^ 35 ∧ Tbl.get? s.span 2 = some 7 ∧ (aclOf s 7).any (fun e => fld e.w0.toNat 59 59 == 1 && fld e.w2.toNat 51 26 * 2 ^ 26 ≤ 2 ^ 48 &&
       2 ^ 48 + 8 ≤ fld e.w2.toNat 51 26 * 2 ^ 26 + fld e.w3.toNat 19 0 * 2 ^ 26) = true ∧ s.resBase + s.resSize ≤ 2 ^ 48) ∧
    (HaltedQuad debugged 0 (quadOf 0) ∧ (debugged.ctx 0).pc.toNat % 4 = 0 ∧ (debugged.ctx 0).net < 4096 ∧ (debugged.ctx 0).pts < 2 ^ 64 ∧ (debugged.ctx 0).touched = .slices [] ∧
      (debugged.ctx 0).brokenVec = false ∧ (debugged.ctx 0).regs[0] = 0 ∧ (zeros 8).length = 8) ∧
    (debugged.owner.st ≠ .vacant ∧ debugged.owner.port = 0 ∧ debugged.held 0 = true ∧ (debugged.netq (debugged.ctx 0).net (quadOf 0)).halted = true ∧ 632 + 8 ≤ 640 ∧ (3 : Reg) ≠ 0) := by
  unfold HaltedQuad
  decide +kernel

theorem test_touched : touchedOk (.slices []) ∧ touchedOk (.dies 0) := ⟨⟨by decide, by decide⟩, trivial⟩

theorem test_debug_window : nexts (exec (.hostWrite 0 (2 ^ 48 * 15 + 0x3000000 + 24) (leBytes 8 9)) debugged) (fun t => (t.ctx 0).regs[3] == 9 && (t.ctx 0).coin == 1024 && (t.ctx 0).pc == 0x100) = true ∧
    nexts (exec (.hostRead 0 (2 ^ 48 * 15 + 0x3000000 + 448) 8) debugged) (fun t => t.replies.map (·.data) == [leBytes 8 0x100]) = true := by decide +kernel

/-- A packet of command code with its net, argument and body, and the state with it at the head of queue 0. -/
def pkt (code epoch net arg : Nat) (body : List Byte) : List Byte :=
  descOf [code * 2 ^ 56 + 5 * 2 ^ 32 + epoch, 0x9000, net, arg] ++ zeros 96 ++ (body ++ zeros (128 - body.length))
def sends (src : Source) (l : List Byte) (s : State) : State := { s with cmdqs := [(0, [{ src := src, bytes := l }])] }
/-- The packet is taken and passes, or is refused with a status. -/
def taken (src : Source) (l : List Byte) (s : State) (st : Option Nat) : Bool :=
  (takePacket 0 (sends src l s)).any (fun x => refusal x.2 0 x.1 == st && (commandOf 0 []).any (fun e => e.1 == x.1.code))
/-- The queued command's answer. -/
def answers (i : Instr) (src : Source) (l : List Byte) (s : State) (p : State → Bool) : Bool := nexts (exec i (sends src l s)) p

theorem test_meets_RefusedCommandsChangeNothing :
    taken (.peer 3) (pkt 1 1 0 0 (launchBytes 0 0)) host1 (some 3) = true ∧ taken (.host 0) (pkt 0x14 0 0 0 []) host1 (some 1) = true ∧ taken (.host 1) (pkt 0x14 1 0 0 []) host1 (some 2) = true ∧
    taken (.peer 2) (pkt 2 1 1 0 []) host1 (some 3) = true ∧ taken (.host 0) (pkt 0x14 1 0 7 []) host1 (some 4) = true ∧ taken (.host 0) (pkt 0x14 1 0 0 []) host1 none = true ∧
    (let strange := fun (src : Source) (epoch st : Nat) => (takePacket 0 (sends src (pkt 0x77 epoch 0 0 []) host1)).any (fun x =>
       refusal x.2 0 x.1 == some st && (commandOf 0 []).all (fun e => x.1.code != e.1))
     strange (.peer 3) 1 3 = true ∧ strange (.host 0) 0 1 = true ∧ strange (.host 0) 1 4 = true) ∧
    taken (.host 1) (pkt 0x32 1 0 0 []) host1 none = true ∧ taken (.peer 2) (pkt 1 1 0 0 (launchBytes 0 0)) host1 none = true ∧ host1.power = .on := by decide +kernel

theorem test_stale_is_answered : answers (.heartbeat 0) (.host 0) (pkt 0x14 0 0 0 []) host1 (fun t => t.replies.map (fun r => (r.status, r.tagg, r.addr)) == [(1, 5, 0x9000)] && t.jseq == 1) = true := by
  decide +kernel

/-- A launch record whose first word has more bits. -/
def launchWith (x : Nat) : List Byte := leBytes 8 (2 * 2 ^ 56 + 4 * 2 ^ 26 + 1 + x) ++ (launchBytes 0 0).drop 8
def netOf (st : NetState) (m : Nat) : State := { host1 with nets := [(1, { net1 with st := st, master := m })] }

theorem test_meets_CommandsOnNets :
    (∀ b ∈ [launchBytes 0 0, zeros 128, launchWith (2 ^ 53), launchWith (63 * 2 ^ 34)], taken (.host 0) (pkt 1 1 0 0 b) host1 none = true) ∧
    taken (.peer 2) (pkt 1 1 0 0 (launchWith (2 ^ 53))) host1 none = true ∧ parseLaunch (zeros 128) = none ∧
    (parseLaunch (launchWith (2 ^ 53))).any (fun r => r.priv && !isOwner host1 (.peer 2)) = true ∧ (parseLaunch (launchWith (63 * 2 ^ 34))).any (fun r => noRoomEver host1 r && !r.priv) = true ∧
    (parseLaunch (launchBytes 0 0)).any (fun r => !noRoomEver host1 r && !r.priv) = true ∧
    (0 < 4096 ∧ (host1.netRec 0).st = .free ∧ (∀ l ∈ host1.launches, l.net ≠ 0) ∧ (host1.mint 0).waiters = [] ∧ (host1.mint 0).due = []) ∧
    (∀ c ∈ [2, 5], taken (.host 0) (pkt c 1 1 0 []) host1 none = true) ∧ (host1.launches = [] ∧ (netOf .free 0).netRec 1 = { net1 with st := .free }) ∧
    (let e : AclEntry := { w0 := BitVec.ofNat 64 (2 ^ 63 + 2 ^ 61 + 7), w1 := 1 }
     let s := { netOf .bound 0 with acl := [(0, e)] }
     taken (.peer 2) (pkt 2 1 1 0 []) s none = true ∧ (s.netRec 1).st = .bound ∧ masterNo s (.peer 2) = some 9 ∧ (s.netRec 1).master ≠ 9) ∧
    (taken (.host 0) (pkt 2 1 1 0 []) (netOf .voiding 0) none = true ∧ ((netOf .voiding 0).netRec 1).st = .voiding ∧ ((netOf .bound 0).netRec 1).st = .bound) ∧
    (taken (.host 0) (pkt 2 1 1 0 []) (netOf .parked 0) none = true ∧ ((netOf .parked 0).netRec 1).st = .parked) ∧
    taken (.host 0) (pkt 2 1 1 0 []) { netOf .free 0 with launches := [launch1 0 0] } none = true ∧
    (∀ c ∈ [3, 4, 6], ∀ a ∈ [0, 1, 2 ^ 18 - 1], taken (.host 0) (pkt c 1 1 a []) host1 none = true) ∧ taken (.host 0) (pkt 6 1 1 (2 ^ 63 + 1) []) host1 none = true ∧
    (host1.netRec 1).ofForm host1 1 = some (quadAt 1 0) ∧ (host1.netRec 1).ofForm host1 (2 ^ 18 - 1) = none ∧ host1.suspense = [] ∧
    (let s := { host1 with suspense := [(0, { src := 1, dst := 0, body := .redex recX none })] }
     (s.netRec 1).ofForm s 0 = some 0 ∧ recX.net = 1 ∧ suspenseBad s (0, { src := 1, dst := 0, body := .redex recX none }) = false ∧ s.netStateAt 1 0 = .bound ∧ (s.deque 0).length < 256) := by decide +kernel

/-- No id is free: LAUNCH answers BUSY. -/
theorem test_meets_busy : ∀ k, k < 4096 → ¬(({ host1 with launches := (List.range 4096).map (fun i => { launch1 0 0 with net := i }) } : State).launches.all (fun l => l.net != k) = true) := by
  intro k hk h
  simp only [List.all_map, List.all_eq_true, List.mem_range, Function.comp_def, bne_iff_ne] at h
  exact h k hk rfl

theorem test_launch_queues : answers (.launch 0) (.host 0) (pkt 1 1 0 0 (launchBytes 0 0)) host1 (fun t => t.launches.map (fun l => (l.net, l.tagg)) == [(0, 5)] && t.replies.map (·.status) == [0]) = true := by
  decide +kernel
theorem test_halt_and_resume : answers (.halt 0) (.host 0) (pkt 3 1 1 1 []) host1 (fun t => (t.netq 1 (quadAt 1 0)).halted) = true ∧
    answers (.resume 0) (.host 0) (pkt 4 1 1 0 []) { host1 with suspense := [(0, { src := 1, dst := 0, body := .redex recX none })] } (fun t => t.deque 0 == [recX] && t.suspense == []) = true := by decide +kernel

def ownerIs (st : OwnState) (port succ : Nat) : State := { host1 with owner := { epoch := 1, st := st, port := port, succ := succ } }

theorem test_meets_OwnershipChangesHands :
    (∀ st ∈ [OwnState.vacant, .owned, .handover], taken (.host 0) (pkt 0x10 1 0 0 []) (ownerIs st 0 1) none = true) ∧
    (∀ a ∈ [0, 1, 2, 4], taken (.host 0) (pkt 0x11 1 0 a []) (ownerIs .owned 0 0) none = true) ∧ taken (.host 0) (pkt 0x11 1 0 4 []) (ownerIs .handover 0 1) none = true ∧
    (∀ h ∈ [0, 1], taken (.host h) (pkt 0x12 1 0 0 []) (ownerIs .handover 0 1) none = true) ∧ taken (.host 0) (pkt 0x13 1 0 0 []) host1 none = true ∧
    taken (.host 0) (pkt 0x14 1 0 0 []) host1 none = true := by decide +kernel

theorem test_accept_takes_over : answers (.accept 0) (.host 1) (pkt 0x12 1 0 0 []) (ownerIs .handover 0 1) (fun t => t.owner.st == .owned && t.owner.port == 1 && t.owner.epoch == 2) = true := by
  decide +kernel

theorem test_meets_CommandsSetWhatTheyName :
    (∀ x ∈ [(0x20, 1, leBytes 8 (2 ^ 63 + 8)), (0x20, 256, []), (0x20, 1, leBytes 8 (2 ^ 16)), (0x20, 1, leBytes 8 (2 ^ 63 + 7)), (0x21, hbmTop - 8192, []), (0x21, hbmTop - 8191, []),
       (0x22, 3 * 2 ^ 60 + 255 * 2 ^ 52, leBytes 8 (2 * 4 ^ 31)), (0x22, 1, []), (0x22, 0, leBytes 8 3), (0x23, 63, []), (0x23, 64, []), (0x24, 3999, []), (0x24, 4000, []), (0x24, 7500, []), (0x24, 7501, []),
       (0x25, 2 ^ 63 + 5, leBytes 8 (2 ^ 63 + 7)), (0x25, 2 ^ 63 + 5, leBytes 8 (2 ^ 63 + 2 ^ 32)), (0x25, 2 ^ 63 + 16, []), (0x25, 2 ^ 36 + 1, []), (0x25, 2, []), (0x30, 0x1000, []), (0x30, hbmTop, []), (0x31, 0, zeros 48), (0x32, 0, [])],
      taken (.host 0) (pkt x.1 1 0 x.2.1 x.2.2) host1 none = true) ∧ fld (2 ^ 63 + 8) 58 16 = 0 ∧ fld (2 ^ 16) 58 16 ≠ 0 ∧
    (fld (2 ^ 63 + 7) 63 63 = 1 ∧ ∃ e ∈ host1.acl, e.1 ≠ 1 ∧ fld e.2.w0.toNat 63 63 = 1 ∧ fld e.2.w0.toNat 15 0 = fld (2 ^ 63 + 7) 15 0) ∧
    (∀ b, b < 32 → fld (2 * 4 ^ 31) (2 * b + 1) (2 * b) ≠ 3) ∧ fld (3 * 2 ^ 60 + 255 * 2 ^ 52) 51 0 = 0 ∧ fld 3 1 0 = 3 ∧ (fld (2 ^ 36 + 1) 35 1 = 0 ∧ fld (2 ^ 36 + 1) 63 36 * 2 ^ 36 < hbmTop) ∧
    fld (2 ^ 63 + 7) 62 32 = 0 ∧ fld (2 ^ 63 + 2 ^ 32) 62 32 ≠ 0 ∧ fld 2 35 1 ≠ 0 ∧ fld (2 ^ 63 + 16) 62 4 ≠ 0 ∧ (pkt 0x31 1 0 0 (zeros 48)).length = 256 := by decide +kernel

theorem test_bankrole_names_its_slice : answers (.bankrole 0) (.host 0) (pkt 0x22 1 0 (3 * 2 ^ 60 + 255 * 2 ^ 52) (leBytes 8 (2 * 4 ^ 31))) host1 (fun t => t.roleChg == [(1023, 2 * 4 ^ 31)]) = true := by
  decide +kernel
theorem test_window_sets_bar2 : answers (.window 0) (.host 0) (pkt 0x25 1 0 (2 ^ 36 + 1) []) host1 (fun t => t.bar2 == [(1, 2 ^ 36)]) = true := by decide +kernel

/-! ### What meets the hypotheses: the module and its steps -/

theorem test_meets_TheModuleMeetsItsOutsideEvents :
    (let s := { ownerIs .handover 0 1 with wallBase := 1000000000 }
     s.owner.st = .handover ∧ s.owner.handoverAt + 1000000000 ≤ s.wall ∧ s.owner.lastPacket + 1000000000 ≤ s.wall) ∧
    (ownerIs .handover 0 1).wall < (ownerIs .handover 0 1).owner.handoverAt + 1000000000 ∧ (ownerIs .vacant 0 0).owner.st = .vacant ∧ isPurse (purseKey 0 0) = true ∧ isPurse 0 = false ∧
    (parked1.held 0 = false ∧ parked1.vgangs = [] ∧ Tbl.get? parked1.residents 0 = some (thr [(3, 9)])) ∧
    (host1.held 16 = false ∧ (∃ m ∈ ({ size := 2, index := 0, members := [(1, 16, Vector.replicate 8 {})] } : VGang).members, m.2.1 = 16)) ∧
    host1.held 0 = true ∧ 1 ∉ host1.throttled ∧ 1 ∈ ({ host1 with throttled := [1] } : State).throttled ∧ pointOf host1 1 < 3 ∧
    (Tbl.getD host1.served 0 0 ≠ cycleOf host1 (dieOf (0 / 4)) + 1 ∧ chosen host1 (16 * 0 + cycleOf host1 (dieOf (0 / 4)) % 8) (16 * 0 + cycleOf host1 (dieOf (0 / 4)) % 8 + 8) = some 0 ∧
      (host1.berth 0).g < 7) ∧ 7 ≤ ({ host1 with berths := [(0, { ctx := thr [], g := 7 })] }.berth 0).g ∧ host1.fwInactive = none ∧
    (let s : State := { host1 with fwInactive := some (5, 1), fwPending := true }
     s.fwPending = true ∧ s.power = .on ∧ s.fwInactive = some (5, 1)) ∧ ({ host1 with power := .noFirmware } : State).power ≠ .on ∧ host1.fwPending = false ∧
    (host1.stores = [] ∧ (netOf .voiding 0).stores = [] ∧ (netOf .voiding 0).held 0 = true ∧ ((netOf .voiding 0).netRec ((netOf .voiding 0).ctx 0).net).st = .voiding ∧
      ((netOf .voiding 0).ctx 0).coin + 2 ^ 32 * ((netOf .voiding 0).ctx 0).lent ≠ 0) ∧
    (let s := fst .bound handled {}
     s.held 0 = true ∧ s.stores = [] ∧ s.netStateAt (s.ctx 0).net 0 = .bound ∧ (hasHandler 1 0 s).1 = true ∧ (s.netq 1 0).waiting = [] ∧ (s.netq 1 0).eng = [] ∧
       (∃ i < 4, i ∉ (s.netq 1 0).blocks) ∧ (s.deque 0).length < 256 ∧ (s.mint 1).st = .opened) ∧ (({ host1 with deques := [(0, [recX])] } : State).deque 0)[0]? = some recX ∧ (1, net1) ∈ host1.nets ∧ (host1.nets.map (·.1)).Nodup ∧ net1.st ≠ .free := by decide +kernel

theorem test_throttle_and_trip : nexts (exec (.thermalThrottle 1) host1) (fun t => pointOf t 1 == 3) = true ∧ nexts (exec (.thermalTrip 1) host1) (fun t => t.power == .off) = true ∧
    (match step { host1 with power := .off } with | .fault .shutDown => true | _ => false) = true := by decide +kernel

/-- The slot of core 0 comes next; berth 0 runs what stands at its pc, which its quad has fetched or not. -/
def coldState (c : Ctx) (words : List Nat) : State := { one c with agenda := [.slot 0], mem := bytesAt [(0x100, words.flatMap (leBytes 4))] }
def stepState (c : Ctx) (words : List Nat) : State := { coldState c words with icache := words.zipIdx.map (fun e => (icKey 0 (0x100 + 4 * e.2), e.1)) }
def slotState (c : Ctx) (words : List Nat) : State := (slotOf { stepState c words with agenda := [] } 0 false).2

/-- What the fetch and the decoder find for berth 0: the first word asks for an extension, and the instruction. -/
def finds (c : Ctx) (words : List Nat) (ext : Bool) (i : Option Instr) : Bool :=
  match fetchWord (slotState c words) 0 0x100 with
  | .error _ => false
  | .ok (w, v) =>
    let asks := w / 2 ^ 28 % 16 != 15 && w / 2 ^ 25 % 2 == 1 && takesExt w
    !fetchMiss (slotState c words) 0 0x100 && if ext then asks && !fetchMiss (slotState c words) 0 0x104 && (match fetchWord v 0 0x104 with | .ok (e, _) => (match decode w e with | .ok (j, n) => some j == i && n == 2 | .error _ => i == none) | .error _ => false)
    else !asks && (match decode w 0 with | .ok (j, n) => some j == i && n == 1 | .error _ => i == none)

theorem test_meets_StepRunsTheDecodedInstruction :
    let s := stepState (thr []) [0x00624000]
    let cold := coldState (thr []) [0x00624000]
    let coldSlot := (slotOf { cold with agenda := [] } 0 false).2
    let half := (slotOf { coldState (thr []) [0x16C05678, 0xF000091A] with agenda := [], icache := [(icKey 0 0x100, 0x16C05678)] } 0 false).2
    (s.owner.st ≠ .handover ∧ s.owner.st = .vacant) ∧
    (let l := { ownerIs .handover 0 1 with wallBase := 1000000000 }
     l.power ≠ .off ∧ l.owner.st = .handover ∧ l.owner.handoverAt + 1000000000 ≤ l.wall) ∧
    (let l := { ownerIs .owned 0 0 with wallBase := 1000000000 }
     l.power ≠ .off ∧ l.owner.st ≠ .handover ∧ l.owner.st ≠ .vacant ∧ l.owner.lastPacket + 1000000000 ≤ l.wall) ∧
    (fetchMiss coldSlot 0 0x100 = true ∧ okP (fetchWord coldSlot 0 0x100) (fun q => q.1 == 0x00624000) = true ∧ tlbFind coldSlot false 0 1 0x100 = some (page 1) ∧
      Tbl.get? coldSlot.icache (icKey 0 (0 + 0x100 % 2 ^ 30)) = none ∧ tlbFind { coldSlot with tlb := [] } false 0 1 0x100 = none) ∧
    (fetchMiss half 0 0x100 = false ∧ fetchMiss half 0 0x104 = true ∧ okP (fetchWord half 0 0x104) (fun q => q.1 == 0xF000091A) = true) ∧
    errP (fetchWord { half with poison := [0x104 / 16] } 0 0x104) (·.1 == .poison) = true ∧
    s.power ≠ .off ∧ s.agenda = .slot 0 :: [] ∧ slotOf { s with agenda := [] } 0 false = (some 0, slotState (thr []) [0x00624000]) ∧ takesVoid (slotState (thr []) [0x00624000]) = false ∧
    (slotState (thr []) [0x00624000]).th.regErr = [] ∧ (slotState { thr [] with regErr := [3, 4] } []).th.regErr = 3 :: [4] ∧ finds (thr []) [0x00624000] false (some (.add 3 1 2)) = true ∧
    finds (thr []) [0xF0000000] false none = true ∧ finds (thr []) [0x16C05678, 0xF000091A] true (some (.moviExt 6 0x12345678)) = true ∧ finds (thr []) [0x16C05678, 0] true none = true ∧
    (match fetchWord { slotState (thr []) [] with tlb := [], nets := [(1, { net1 with ptRoot := 0x80000 })] } 0 0x100 with | .error c => c.1 == .page | _ => false) = true ∧
    takesVoid (slotOf { stepState (thr []) [] with agenda := [], nets := [(1, { net1 with st := .voiding })] } 0 false).2 = true ∧
    translation s (quadOf 0) (s.ctx 0).net 0x100 = .ok (page 1, s) ∧ (page 1).x = true ∧ Tbl.get? cold.icache (icKey (quadOf 0) (0 + 0x100 % 2 ^ 30)) = none ∧ poisoned s 0x100 4 = false ∧ 0x100 + 4 ≤ hbmTop ∧ translation cold 0 1 0x100 = .ok (page 1, cold) ∧
    ({ s with nets := [(1, { net1 with priv := true })] }.netRec 1).priv = true ∧ isEvent .warmReset = true := by
  and_intros <;> first | decide +kernel

theorem test_step_adds : nexts (step (stepState (thr [(1, 2), (2, 3)]) [0x00624000])) (fun t => (t.ctx 0).regs[3] == 5 && (t.ctx 0).pc == 0x104) = true := by decide +kernel
theorem test_step_fetches_first : nexts (step (coldState (thr []) [0x00624000])) (fun t => (t.ctx 0).wait == .fetch && (t.ctx 0).pc == 0x100 && t.icache == [(icKey 0 0x100, 0x00624000)]) = true := by
  decide +kernel
theorem test_step_mislanded : nexts (step (stepState (thr []) [0xF0000000])) (fun t => (t.ctx 0).pc == 0x100 && (t.netRec 1).st == .voiding) = true := by decide +kernel

theorem test_meets_DecodeAndEncodeAgree :
    wellFormed (.add 3 1 2) = true ∧ encode (.add 3 1 2) = some [0x00624000] ∧ 0x00624000 < 2 ^ 32 ∧ wellFormed (.moviExt 6 0x12345678) = true ∧
    encode (.moviExt 6 0x12345678) = some [0x16C05678, 0xF000091A] ∧ (decode 0x16C05678 0xF000091A = .ok (.moviExt 6 0x12345678, 2)) := by decide +kernel

theorem answersNext {o : Result} (h : nexts o (fun _ => true) = true) : ∃ t, o = .next t := by
  cases o with
  | next t => exact ⟨t, rfl⟩
  | fault f => simp [nexts] at h
  | refused r => simp [nexts] at h

theorem test_meets_EveryStepKeepsTheInvariant :
    State.reset.Inv ∧ (∃ t, step State.reset = .next t) ∧ (stepState (thr [(1, 2), (2, 3)]) [0x00624000]).Inv ∧ ∃ t, step (stepState (thr [(1, 2), (2, 3)]) [0x00624000]) = .next t := by
  refine ⟨⟨?_, ?_, ?_, ?_, ?_⟩, answersNext (by decide +kernel), ⟨?_, ?_, ?_, ?_, ?_⟩, answersNext (by decide +kernel)⟩ <;> decide +kernel

/-! ### The host's entry points -/

theorem test_reset_fetch : (match decodeTableWord 32 0x00624000 with | some (.add 3 1 2) => true | _ => false) = true := by decide +kernel
theorem test_step_from_reset : nexts (step (State.reset.withFetchWord 32 0x00624000)) (fun t => t.th.pc == 4) = true := by decide +kernel

end Sys2Proof.Tests
end

section
/-!
PROOFS. Settling, replies, REHOME, reissue and page walks: what each step of the memory system does to memory, to its thread and to every other berth
(03 R11, 08 R150 R155 R156, 09 R169, 11 R189 R195).
-/

namespace Sys2Proof.Machine
open Sys2Proof Sys2Proof.Say

/-! ### Bytes and loaded values -/

theorem leNat_lt (l : List Byte) : leNat l < 2 ^ (8 * l.length) := by
  induction l with
  | nil => simp [leNat]
  | cons b r ih =>
    have hb := b.isLt
    have hpow : 2 ^ (8 * (b :: r).length) = 256 * 2 ^ (8 * r.length) := by
      rw [List.length_cons, Nat.mul_add, Nat.pow_add, Nat.mul_comm]
    rw [hpow, leNat]
    omega

@[simp] theorem leBytes_length (n v : Nat) : (leBytes n v).length = n := by
  induction n generalizing v with
  | zero => rfl
  | succ n ih => simp [leBytes, ih]

theorem leBytes_getD (n v i : Nat) (h : i < n) : (leBytes n v).getD i 0 = BitVec.ofNat 8 (v / 256 ^ i) := by
  induction n generalizing v i with
  | zero => omega
  | succ n ih =>
    cases i with
    | zero => simp [leBytes]
    | succ i => rw [leBytes, List.getD_cons_succ, ih _ _ (by omega), Nat.div_div_eq_div_mul, Nat.pow_succ']

/-- The model's extension of a loaded value is the one that 11 R191 states. -/
theorem extend_eq_loaded (z : Bool) (l : List Byte) : extend z l = loaded z l := by
  unfold extend loaded
  cases z with
  | true => simp
  | false =>
    have hlt := leNat_lt l
    simp only [Bool.false_eq_true, if_false, false_or, BitVec.signExtend, BitVec.toInt_eq_toNat_cond, BitVec.toNat_ofNat, Nat.mod_eq_of_lt hlt]
    cases l with
    | nil => simp [leNat]
    | cons b r =>
      have hpow : 2 ^ (8 * (b :: r).length) = 2 * 2 ^ (8 * (b :: r).length - 1) := by
        rw [← Nat.pow_succ']; congr 1
      have hiff : 2 * leNat (b :: r) < 2 ^ (8 * (b :: r).length) ↔ leNat (b :: r) < 2 ^ (8 * (b :: r).length - 1) := by omega
      simp only [hiff]
      split <;> simp

/-! ### Tables -/

theorem Tbl.mem_set {α : Type} {t : Tbl α} {k : Nat} {v : α} {e : Nat × α} (h : e ∈ Tbl.set t k v) : e = (k, v) ∨ e ∈ t := by
  induction t with
  | nil => simpa [Tbl.set] using h
  | cons d r ih =>
    obtain ⟨j, w⟩ := d
    by_cases hk : k = j
    · rw [Tbl.set, if_pos hk] at h
      exact (List.mem_cons.mp h).imp_right (List.mem_cons_of_mem _)
    · by_cases hl : k < j
      · rw [Tbl.set, if_neg hk, if_pos hl] at h
        exact List.mem_cons.mp h
      · rw [Tbl.set, if_neg hk, if_neg hl] at h
        rcases List.mem_cons.mp h with rfl | h
        · exact .inr (by simp)
        · exact (ih h).imp_right (List.mem_cons_of_mem _)

theorem Tbl.get?_map {α : Type} (f : α → α) (t : Tbl α) (k : Nat) :
    Tbl.get? (t.map (fun e => (e.1, f e.2))) k = (Tbl.get? t k).map f := by
  induction t with
  | nil => rfl
  | cons e r ih =>
    by_cases h : k = e.1 <;> simp [Tbl.get?, h, ih]

/-! ### Berths after an update of one thread -/

theorem State.get?_setBerth_ne (s : State) {b o : Nat} (x : Berth) (h : o ≠ b) : Tbl.get? (s.setBerth b x).berths o = Tbl.get? s.berths o :=
  Tbl.get?_set_ne _ _ h

theorem State.get?_setCtx_ne (s : State) {b o : Nat} (c : Ctx) (h : o ≠ b) : Tbl.get? (s.setCtx b c).berths o = Tbl.get? s.berths o :=
  s.get?_setBerth_ne _ h

theorem State.get?_setTh_ne (s : State) {o : Nat} (c : Ctx) (h : o ≠ s.cur) : Tbl.get? (s.setTh c).berths o = Tbl.get? s.berths o :=
  s.get?_setCtx_ne _ h

theorem State.get?_raise_ne (s : State) {b o : Nat} (p : Nat) (h : o ≠ b) : Tbl.get? (s.raise b p).berths o = Tbl.get? s.berths o :=
  s.get?_setCtx_ne _ h

theorem State.get?_leave_ne (s : State) {b o : Nat} (w : Wait) (h : o ≠ b) : Tbl.get? (s.leave b w).berths o = Tbl.get? s.berths o :=
  s.get?_setBerth_ne _ h

theorem State.get?_xw_pass_ne (s : State) (d : Reg) (v : Word) (n : Nat) {o : Nat} (h : o ≠ s.cur) :
    Tbl.get? ((s.xw d v).pass n).berths o = Tbl.get? s.berths o :=
  (State.get?_setTh_ne (s.xw d v) _ h).trans (s.get?_setTh_ne _ h)

theorem State.ctx_xw_pass (s : State) {b : Nat} (d : Reg) (v : Word) (n : Nat) (h : s.cur = b) :
    ((s.xw d v).pass n).ctx b = { s.ctx b with regs := setReg (s.ctx b).regs d v, pc := (s.ctx b).pc + BitVec.ofNat 56 n } := by
  subst h
  exact s.th_xw_pass d v n

theorem State.as_mem (s : State) (b : Nat) (f : State → State) : (s.as b f).mem = (f { s with cur := b }).mem := rfl

theorem State.as_stalePorts (s : State) (b : Nat) (f : State → State) : (s.as b f).stalePorts = (f { s with cur := b }).stalePorts := rfl

theorem State.as_berths (s : State) (b : Nat) (f : State → State) : (s.as b f).berths = (f { s with cur := b }).berths := rfl

theorem State.ctx_as (s : State) (b c : Nat) (f : State → State) : (s.as b f).ctx c = (f { s with cur := b }).ctx c := rfl

@[simp] theorem State.ctx_raise_same (s : State) (b p : Nat) : (s.raise b p).ctx b = { s.ctx b with pts := max (s.ctx b).pts p } :=
  s.ctx_setCtx_same b _

@[simp] theorem State.ctx_leave_same (s : State) (b : Nat) (w : Wait) : (s.leave b w).ctx b = { s.ctx b with wait := w, waited := 0 } :=
  s.ctx_setBerth_same b _

/-- The thread that a performed access raises, which takes a value, goes past its instruction and leaves rotation. -/
theorem State.ctx_raise_xw_pass_leave (s : State) {b : Nat} (p : Nat) (d : Reg) (v : Word) (n : Nat) (w : Wait) (h : s.cur = b) :
    ((((s.raise b p).xw d v).pass n).leave b w).ctx b =
      { s.ctx b with regs := setReg (s.ctx b).regs d v, pts := max (s.ctx b).pts p, pc := (s.ctx b).pc + BitVec.ofNat 56 n, wait := w, waited := 0 } := by
  rw [State.ctx_leave_same, State.ctx_xw_pass (s.raise b p) d v n h, State.ctx_raise_same]

/-- A new context for a thread changes its berth alone. -/
theorem threadAlone_setCtx (s : State) (b : Nat) (c : Ctx) : ThreadAlone b c s (s.setCtx b c) :=
  ⟨rfl, fun _ h => s.get?_setCtx_ne c h, s.ctx_setCtx_same b c⟩

/-! ### Settling (09 R169) -/

/-- A store writes the byte at an address. -/
abbrev Store.covers (st : Store) (x : Nat) : Prop := st.addr ≤ x ∧ x < st.addr + st.bytes.length

theorem applyStores_append (l r : List Store) (m : List Host.Cell) : applyStores m (l ++ r) = applyStores (applyStores m l) r := by
  induction l generalizing m with
  | nil => rfl
  | cons st l ih => exact ih _

theorem memGet_applyStores_of_uncovered {l : List Store} {x : Nat} (m : List Host.Cell) (h : ∀ st ∈ l, ¬st.covers x) :
    memGet (applyStores m l) x = memGet m x := by
  induction l generalizing m with
  | nil => rfl
  | cons st l ih =>
    obtain ⟨hst, hl⟩ := List.forall_mem_cons.mp h
    rw [applyStores, ih _ hl, memGet_memWrite, if_neg hst]

/-- The last store over a byte gives its value. -/
theorem memGet_applyStores_of_last {st : Store} {r : List Store} {x : Nat} (l : List Store) (m : List Host.Cell) (hst : st.covers x)
    (hr : ∀ y ∈ r, ¬y.covers x) : memGet (applyStores m (l ++ st :: r)) x = st.bytes.getD (x - st.addr) 0 := by
  rw [applyStores_append, applyStores, memGet_applyStores_of_uncovered _ hr, memGet_memWrite, if_pos hst]

/-- Settling a line performs its cleared stores in clearing order and takes them off the list. -/
theorem settleLine_eq (s : State) (line : Nat) :
    settleLine s line = { s with mem := applyStores s.mem (s.stores.filter (fun st => st.addr / 256 == line)),
                                 stores := s.stores.filter (fun st => st.addr / 256 ≠ line) } := by
  unfold settleLine settleWhere
  split
  · rename_i h
    simp only [h, List.filter_nil, applyStores]
    rw [← h]
  · simp only [← bne_iff_ne, Bool.decide_eq_true]
    rfl

theorem settleLine_mem (s : State) (line : Nat) :
    (settleLine s line).mem = applyStores s.mem (s.stores.filter (fun st => st.addr / 256 == line)) := by rw [settleLine_eq]

theorem memGet_settleLine_of_uncovered {s : State} {line x : Nat} (h : ∀ st ∈ s.stores, ¬(st.addr / 256 = line ∧ st.covers x)) :
    memGet (settleLine s line).mem x = memGet s.mem x := by
  rw [settleLine_mem]
  refine memGet_applyStores_of_uncovered _ fun st hst hc => ?_
  obtain ⟨hmem, hline⟩ := List.mem_filter.mp hst
  exact h st hmem ⟨beq_iff_eq.mp hline, hc⟩

theorem memGet_settleLine_of_last {s : State} {line x : Nat} {l r : List Store} {st : Store} (hs : s.stores = l ++ st :: r)
    (hline : st.addr / 256 = line) (hst : st.covers x) (hr : ∀ y ∈ r, ¬(y.addr / 256 = line ∧ y.covers x)) :
    memGet (settleLine s line).mem x = st.bytes.getD (x - st.addr) 0 := by
  have hkeep : (st.addr / 256 == line) = true := beq_iff_eq.mpr hline
  rw [settleLine_mem, hs, List.filter_append, List.filter_cons, if_pos hkeep]
  refine memGet_applyStores_of_last _ _ hst fun y hy hc => ?_
  obtain ⟨hmem, hyl⟩ := List.mem_filter.mp hy
  exact hr y hmem ⟨beq_iff_eq.mp hyl, hc⟩

/-- What a home settles depends on memory and on the cleared stores alone. -/
theorem settleLine_mem_congr {s t : State} (hm : t.mem = s.mem) (hs : t.stores = s.stores) (line : Nat) :
    (settleLine t line).mem = (settleLine s line).mem := by
  simp only [settleLine_eq, hm, hs]

theorem settle_settles (line : Nat) (s : State) : exec (.settle line) s = .next (settleLine s line) := rfl

/-! ### Replies (03 R11 R51) -/

/-- The waits that a reply, a fetched word or room ends. -/
def EndsByReply (s : State) (b : Nat) : Prop :=
  (s.ctx b).wait ∈ [Wait.reply, .fetch, .room, .spill, .held] ∨ (∃ k m t, (s.ctx b).wait = .added k m t) ∨
    ∃ k, (s.ctx b).wait = .cells k ∧ k ≤ freeCells s (s.ctx b).net (quadOf b)

theorem replyTo_of_endsByReply {s : State} {b : Nat} (h : EndsByReply s b) : replyTo b s = s.setCtx b { s.ctx b with wait := .ready } := by
  rcases h with hw | ⟨k, m, t, hw⟩ | ⟨k, hw, hk⟩
  · simp only [List.mem_cons, List.not_mem_nil, or_false] at hw
    rcases hw with hw | hw | hw | hw | hw <;> simp [replyTo, hw]
  · simp [replyTo, hw]
  · simp [replyTo, hw, hk]

theorem memoryReply_readies {s : State} {b : Nat} (hb : s.held b = true) (h : EndsByReply s b) :
    exec (.memoryReply b) s = .next (s.setCtx b { s.ctx b with wait := .ready }) := by
  show execMemoryReply b s = _
  rw [execMemoryReply, if_pos hb, replyTo_of_endsByReply h]

/-! ### REHOME (08 R150) -/

theorem not_mem_rehash_stalePorts (cluster pa : Nat) (s : State) : cluster ∉ (rehash cluster pa s).stalePorts := by
  simp [rehash, count]

/-- A thread whose request is hashed again, with a new wait. -/
def rehomedTo (b pa : Nat) (w : Wait) (s : State) : State :=
  (rehash (clusterOf (quadOf b)) pa s).setCtx b { s.ctx b with wait := w }

theorem not_mem_rehomedTo_stalePorts (b pa : Nat) (w : Wait) (s : State) : clusterOf (quadOf b) ∉ (rehomedTo b pa w s).stalePorts :=
  not_mem_rehash_stalePorts _ pa s

@[simp] theorem rehomedTo_mem (b pa : Nat) (w : Wait) (s : State) : (rehomedTo b pa w s).mem = s.mem := rfl
@[simp] theorem rehomedTo_stores (b pa : Nat) (w : Wait) (s : State) : (rehomedTo b pa w s).stores = s.stores := rfl
@[simp] theorem rehomedTo_poisoned (b pa : Nat) (w : Wait) (s : State) (k n : Nat) : poisoned (rehomedTo b pa w s) k n = poisoned s k n := rfl

@[simp] theorem rehomedTo_ctx (b pa : Nat) (w : Wait) (s : State) : (rehomedTo b pa w s).ctx b = { s.ctx b with wait := w } :=
  State.ctx_setCtx_same _ b _

theorem rehomedTo_ctx_of_wait {b : Nat} {w : Wait} {s : State} (pa : Nat) (hw : (s.ctx b).wait = w) : (rehomedTo b pa w s).ctx b = s.ctx b := by
  rw [rehomedTo_ctx, ← hw]

theorem rehomedTo_stalePorts_subset (b pa : Nat) (w : Wait) (s : State) : (rehomedTo b pa w s).stalePorts ⊆ s.stalePorts :=
  fun _ h => (List.mem_filter.mp h).1

theorem rehomedTo_othersStand (b pa : Nat) (w : Wait) (s : State) : OthersStand b s (rehomedTo b pa w s) :=
  fun _ h => State.get?_setCtx_ne (rehash _ pa s) _ h

theorem mem_rehomedTo_berths {b pa : Nat} {w : Wait} {s : State} {e : Nat × Berth} (h : e ∈ (rehomedTo b pa w s).berths) :
    e.2.ctx.wait = w ∨ e ∈ s.berths := by
  rcases Tbl.mem_set h with rfl | h
  · exact .inl rfl
  · exact .inr h

theorem rehome_of_rehomed {s : State} {b pa : Nat} (hw : (s.ctx b).wait = .rehomed pa) :
    exec (.rehome b) s = .next (rehomedTo b pa .ready s) := by
  show execRehome b s = _
  simp only [execRehome, hw]
  rfl

theorem rehome_of_link {s : State} {b pa : Nat} {p : LinkProg} (hw : (s.ctx b).wait = .link p) (hp : p.rehome = some pa) :
    exec (.rehome b) s = .next (rehomedTo b pa (.link { p with rehome := none }) s) := by
  show execRehome b s = _
  simp only [execRehome, hw, hp]
  rfl

/-- The `aadd` that stands first in its request is reissued with those that it had combined with. -/
theorem rehome_of_rehomedAdd {s : State} {b pa n amt : Nat} {d : Reg} (hw : (s.ctx b).wait = .rehomedAdd pa n amt d none) :
    exec (.rehome b) s = .next (reissueAdds b pa n (rehomedTo b pa (.rehomedAdd pa n amt d none) s)) := by
  show execRehome b s = _
  simp only [execRehome, hw, leadOf]
  rfl

/-! ### An `aadd` performed at its home (09 R165 R176) -/

/-- A read-modify-write of a global line settles the line, reads, writes what it makes of the bytes read, and raises its thread. -/
theorem clrRmw_of_glob {s : State} {k n : Nat} {f : List Byte → Option (List Byte)} {bs : List Byte} (hk : isPurse k = false)
    (hf : f (memRead (settleLine s (k / 256)).mem k n) = some bs) :
    ∃ stores lines p, clrRmw k n f s = (memRead (settleLine s (k / 256)).mem k n,
      { s with mem := memWrite (settleLine s (k / 256)).mem k bs, stores := stores, lines := lines }.raise s.cur p) := by
  simp only [clrRmw, hk, Bool.false_eq_true, if_false, hf]
  rw [settleLine_eq]
  exact ⟨_, _, _, rfl⟩

/-- The bytes that an `aadd` finds at its home. -/
def addFinds (s : State) (pa n : Nat) : List Byte := memRead (settleLine s (pa / 256)).mem pa n

/-- The sum that it leaves there. -/
def addLeaves (s : State) (pa n amt : Nat) : List Byte := leBytes n ((leNat (addFinds s pa n) + amt) % 2 ^ (8 * n))

theorem addFinds_congr {s t : State} (hm : t.mem = s.mem) (hs : t.stores = s.stores) (pa n : Nat) : addFinds t pa n = addFinds s pa n := by
  rw [addFinds, settleLine_mem_congr hm hs, addFinds]

/-- The `aadd` of berth b is performed at its home, and its reply, which carries a clearing time, is on its way: its line has settled, the sum stands there,
    its thread has the old value, and every other berth stands. -/
structure AddPerformed (b pa n amt : Nat) (d : Reg) (time : Nat) (s t : State) : Prop where
  mem : t.mem = memWrite (settleLine s (pa / 256)).mem pa (addLeaves s pa n amt)
  stalePorts : t.stalePorts ⊆ s.stalePorts
  others : OthersStand b s t
  ctx : ∃ p, time ≤ p ∧ t.ctx b = { s.ctx b with regs := setReg (s.ctx b).regs d (extend false (addFinds s pa n)), pts := p, pc := (s.ctx b).pc + 4,
                                                  wait := .added pa n time, waited := 0 }

section Aadd
variable {s t : State} {b pa n amt : Nat} {d : Reg} {lead : Option Nat}

/-- An `aadd` runs as its own thread: its read-modify-write, the old value into its register, the pc past it, and its reply on the way. -/
theorem performAdd_eq (hw : (s.ctx b).wait = .rehomedAdd pa n amt d lead) (hp : isPurse pa = false) :
    ∃ stores lines p, performAdd s b = s.as b (fun v =>
      ((({ v with mem := memWrite (settleLine s (pa / 256)).mem pa (addLeaves s pa n amt), stores := stores, lines := lines }.raise b p).xw d
        (extend false (addFinds s pa n))).pass 4).leave b (.added pa n 0)) := by
  have hfinds : memRead (settleLine { s with cur := b } (pa / 256)).mem pa n = addFinds s pa n :=
    addFinds_congr (s := s) (t := { s with cur := b }) rfl rfl pa n
  have hmem := settleLine_mem_congr (s := s) (t := { s with cur := b }) rfl rfl (pa / 256)
  obtain ⟨stores, lines, p, hrmw⟩ := clrRmw_of_glob (s := { s with cur := b }) (n := n) (f := addTo n amt) hp rfl
  rw [hfinds, hmem] at hrmw
  refine ⟨stores, lines, p, ?_⟩
  simp only [performAdd, hw, State.as, hrmw]
  rfl

theorem performAdd_performs (hw : (s.ctx b).wait = .rehomedAdd pa n amt d lead) (hp : isPurse pa = false) :
    AddPerformed b pa n amt d 0 s (performAdd s b) := by
  obtain ⟨stores, lines, p, heq⟩ := performAdd_eq hw hp
  rw [heq]
  refine ⟨?_, ?_, fun o ho => ?_, max (s.ctx b).pts p, Nat.zero_le _, ?_⟩
  · rw [State.as_mem, State.leave_mem, State.pass_mem, State.xw_mem, State.raise_mem]
  · rw [State.as_stalePorts, State.leave_stalePorts, State.pass_stalePorts, State.xw_stalePorts, State.raise_stalePorts]
    exact List.Subset.refl _
  · rw [State.as_berths, State.get?_leave_ne _ _ ho, State.get?_xw_pass_ne _ _ _ _ ho, State.get?_raise_ne _ _ ho]
  · rw [State.ctx_as, State.ctx_raise_xw_pass_leave _ _ _ _ _ _ rfl]
    rfl

/-- An `aadd` performed from a state that agrees on memory, on cleared stores and on the berths. -/
theorem AddPerformed.of_agrees {u : State} {time : Nat} (h : AddPerformed b pa n amt d time u t) (hm : u.mem = s.mem) (hs : u.stores = s.stores)
    (hp : u.stalePorts ⊆ s.stalePorts) (ho : OthersStand b s u) (hc : u.ctx b = s.ctx b) : AddPerformed b pa n amt d time s t := by
  have hfinds := addFinds_congr hm hs pa n
  refine ⟨?_, List.Subset.trans h.stalePorts hp, fun o hob => (h.others o hob).trans (ho o hob), ?_⟩
  · rw [h.mem, settleLine_mem_congr hm hs, addLeaves, hfinds, addLeaves]
  · rw [← hc, ← hfinds]
    exact h.ctx

theorem combineAdd_mem (k n time : Nat) (s : State) (b : Nat) : (combineAdd k n time s b).mem = s.mem := by simp [combineAdd]
theorem combineAdd_stalePorts (k n time : Nat) (s : State) (b : Nat) : (combineAdd k n time s b).stalePorts = s.stalePorts := by
  simp [combineAdd]

/-- The clearing time that a reply carries raises its thread (09 R176). -/
theorem combineAdd_performs {time : Nat} (time' : Nat) (h : AddPerformed b pa n amt d time s t) :
    AddPerformed b pa n amt d time' s (combineAdd pa n time' t b) := by
  obtain ⟨p, -, hctx⟩ := h.ctx
  refine ⟨?_, ?_, fun o ho => ?_, max p time', le_max_right _ _, ?_⟩
  · rw [combineAdd_mem, h.mem]
  · rw [combineAdd_stalePorts]
    exact h.stalePorts
  · exact (State.get?_setCtx_ne _ _ ho).trans ((State.get?_raise_ne _ _ ho).trans (h.others o ho))
  · simp only [combineAdd, State.ctx_setCtx_same, State.ctx_raise_same, hctx]

/-- With no other `aadd` combined into its request, one berth's alone is reissued. -/
theorem combined_eq_singleton (h : ∀ e ∈ s.berths, ∀ k j x r, e.2.ctx.wait ≠ .rehomedAdd k j x r (some b)) (pa n : Nat) :
    combined s b pa n = [b] := by
  rw [combined, List.cons_eq_cons, List.map_eq_nil_iff, List.filter_eq_nil_iff]
  refine ⟨rfl, fun e he => ?_⟩
  split
  · rename_i k m x r l hw
    have hl : l ≠ b := fun hl => h e he k m x r (hl ▸ hw)
    simp [hl]
  · exact Bool.false_ne_true

/-- An `aadd` answered REHOME that had met no other is performed at its new home, once. -/
theorem reissueAdds_performs (hw : (s.ctx b).wait = .rehomedAdd pa n amt d lead) (hp : isPurse pa = false) (hpo : poisoned s pa n = false)
    (h : ∀ e ∈ s.berths, ∀ k j x r, e.2.ctx.wait ≠ .rehomedAdd k j x r (some b)) :
    ∃ time, AddPerformed b pa n amt d time s (reissueAdds b pa n s) := by
  have heq : reissueAdds b pa n s = combineAdd pa n (lineTime (performAdd s b) (pa / 256)).wts (performAdd s b) b := by
    simp only [reissueAdds, combined_eq_singleton h, hpo, Bool.false_eq_true, if_false, List.foldl_cons, List.foldl_nil]
  rw [heq]
  exact ⟨_, combineAdd_performs _ (performAdd_performs hw hp)⟩

end Aadd

/-! ### Reissue at a full wait table (06 R107, 11 R189 R195) -/

section Reissue
variable {s : State} {b : Nat} {r : ParkReq}

/-- A request refused by a full wait table, by what it finds when it comes to the purse again. -/
theorem reissue_of_refused (hw : (s.ctx b).wait = .refused r) :
    reissue b s =
      if heldTile { s with cur := b } r.key r.n then s
      else if isFull s (granule r.key) || poisoned s r.key r.n then serve s r
      else if (Tbl.getD s.waits (keyQuad r.key) []).length < 128 then
        { s with waits := Tbl.set s.waits (keyQuad r.key) (Tbl.getD s.waits (keyQuad r.key) [] ++ [r]) }.setCtx b { s.ctx b with wait := .parked r }
      else s := by
  simp only [reissue, hw]
  rfl

theorem reissue_of_heldTile (hw : (s.ctx b).wait = .refused r) (h : heldTile { s with cur := b } r.key r.n = true) : reissue b s = s := by
  rw [reissue_of_refused hw, if_pos h]

theorem reissue_serves (hw : (s.ctx b).wait = .refused r) (hfree : heldTile { s with cur := b } r.key r.n = false)
    (h : r.key / 16 ∉ s.empties ∨ poisoned s r.key r.n = true) : reissue b s = serve s r := by
  have hserve : (isFull s (granule r.key) || poisoned s r.key r.n) = true := by
    simpa [isFull, granule] using h
  rw [reissue_of_refused hw, if_neg (by simp [hfree]), if_pos hserve]

section Empty
variable (hw : (s.ctx b).wait = .refused r) (hfree : heldTile { s with cur := b } r.key r.n = false) (hpo : poisoned s r.key r.n = false)
  (he : r.key / 16 ∈ s.empties)
include hw hfree hpo he

theorem reissue_of_empty : reissue b s =
    if (Tbl.getD s.waits (keyQuad r.key) []).length < 128 then
      { s with waits := Tbl.set s.waits (keyQuad r.key) (Tbl.getD s.waits (keyQuad r.key) [] ++ [r]) }.setCtx b { s.ctx b with wait := .parked r }
    else s := by
  have hwaits : ¬((isFull s (granule r.key) || poisoned s r.key r.n) = true) := by
    simpa [isFull, granule, hpo] using he
  rw [reissue_of_refused hw, if_neg (by simp [hfree]), if_neg hwaits]

theorem reissue_enters (hlen : (Tbl.getD s.waits (keyQuad r.key) []).length < 128) : reissue b s =
    { s with waits := Tbl.set s.waits (keyQuad r.key) (Tbl.getD s.waits (keyQuad r.key) [] ++ [r]) }.setCtx b { s.ctx b with wait := .parked r } := by
  rw [reissue_of_empty hw hfree hpo he, if_pos hlen]

theorem reissue_of_full_table (hlen : 128 ≤ (Tbl.getD s.waits (keyQuad r.key) []).length) : reissue b s = s := by
  rw [reissue_of_empty hw hfree hpo he, if_neg (Nat.not_lt.mpr hlen)]

end Empty

theorem waitTableReissue_reissues (b : Nat) (s : State) : exec (.waitTableReissue b) s = .next (reissue b s) := rfl

theorem serve_of_poisoned (h : poisoned s r.key r.n = true) : serve s r = s.setCtx r.berth { s.ctx r.berth with wait := .ready } := by
  rw [serve, if_pos h]

/-- A request is served in its thread's berth: the thread has the value v, is raised, and goes past the instruction. -/
structure Served (r : ParkReq) (v : Word) (s t : State) : Prop where
  others : OthersStand r.berth s t
  ctx : ∃ p, t.ctx r.berth = { s.ctx r.berth with regs := setReg (s.ctx r.berth).regs r.rd v, pts := p, pc := (s.ctx r.berth).pc + BitVec.ofNat 56 r.len,
                                                  wait := .ready }
  waits : t.waits = s.waits
  empties : t.empties = if r.clear then granule r.key :: s.empties.filter (· != granule r.key) else s.empties

/-- The end of a service: past the instruction with the value, and for an `ldc` the granule empty. -/
def serveEnd (r : ParkReq) (v : Word) (s : State) : State :=
  let c := s.ctx r.berth
  let s := s.setCtx r.berth { c with regs := setReg c.regs r.rd v, pc := c.pc + BitVec.ofNat 56 r.len, wait := .ready }
  if r.clear then setEmpty s (granule r.key) else s

theorem serve_eq (h : poisoned s r.key r.n = false) : ∃ lines p p',
    serve s r = serveEnd r (extend r.zext (memRead s.mem r.key r.n)) (({ s with lines := lines }.raise r.berth p).raise r.berth p') := by
  rw [serve, if_neg (by simp [h])]
  exact ⟨_, _, _, rfl⟩

theorem serveEnd_othersStand (r : ParkReq) (v : Word) (s : State) : OthersStand r.berth s (serveEnd r v s) := by
  intro o ho
  unfold serveEnd
  split <;> exact s.get?_setCtx_ne _ ho

theorem serveEnd_ctx (r : ParkReq) (v : Word) (s : State) : (serveEnd r v s).ctx r.berth =
    { s.ctx r.berth with regs := setReg (s.ctx r.berth).regs r.rd v, pc := (s.ctx r.berth).pc + BitVec.ofNat 56 r.len, wait := .ready } := by
  unfold serveEnd
  split <;> exact s.ctx_setCtx_same _ _

theorem serveEnd_waits (r : ParkReq) (v : Word) (s : State) : (serveEnd r v s).waits = s.waits := by
  unfold serveEnd
  split <;> rfl

theorem serveEnd_empties (r : ParkReq) (v : Word) (s : State) :
    (serveEnd r v s).empties = if r.clear then granule r.key :: s.empties.filter (· != granule r.key) else s.empties := by
  unfold serveEnd
  split <;> rfl

theorem serve_served (h : poisoned s r.key r.n = false) : Served r (extend r.zext (memRead s.mem r.key r.n)) s (serve s r) := by
  obtain ⟨lines, p, p', heq⟩ := serve_eq h
  rw [heq]
  refine ⟨fun o ho => ?_, ⟨max (max (s.ctx r.berth).pts p) p', ?_⟩, ?_, ?_⟩
  · exact (serveEnd_othersStand _ _ _ o ho).trans ((State.get?_raise_ne _ _ ho).trans (State.get?_raise_ne _ _ ho))
  · rw [serveEnd_ctx, State.ctx_raise_same, State.ctx_raise_same]
    rfl
  · rw [serveEnd_waits, State.raise_waits, State.raise_waits]
  · rw [serveEnd_empties, State.raise_empties, State.raise_empties]

end Reissue

/-! ### Page walks (08 R155 R156) -/

/-- The walk of an address gives an entry that covers it. -/
theorem walk_covers {s : State} {n va : Nat} {e : TlbEnt} (h : walk s n va = .ok e) : e.covers n va = true := by
  unfold walk at h
  split at h
  · cases h
  · cases h
    simp [TlbEnt.covers]

theorem tlbFind_covers {s : State} {c : Bool} {q n va : Nat} {e : TlbEnt} (h : tlbFind s c q n va = some e) : e.covers n va = true := by
  have hpred := List.find?_some h
  simp only [Bool.and_eq_true] at hpred
  exact hpred.2

/-- A filled cache finds its new entry. -/
theorem tlbFind_tlbFill_same {n va : Nat} {e : TlbEnt} (s : State) (c : Bool) (q : Nat) (h : e.covers n va = true) :
    tlbFind (tlbFill s c q e) c q n va = some { e with cluster := c, holder := q } := by
  have h' : ({ e with cluster := c, holder := q } : TlbEnt).covers n va = true := h
  simp [tlbFind, tlbFill, h']

/-- The filling of one cache leaves what every other finds. -/
theorem tlbFind_tlbFill_ne (s : State) {c c' : Bool} (q q' n va : Nat) (e : TlbEnt) (h : c ≠ c') :
    tlbFind (tlbFill s c q e) c' q' n va = tlbFind s c' q' n va := by
  have hmine : ∀ k, ((s.tlb.filter (fun t => t.cluster == c && t.holder == q)).take k).find?
      (fun t => t.cluster == c' && t.holder == q' && t.covers n va) = none := by
    intro k
    rw [List.find?_eq_none]
    intro t ht
    have hown := (List.mem_filter.mp (List.mem_of_mem_take ht)).2
    simp only [Bool.and_eq_true, beq_iff_eq] at hown
    simp [hown.1, h]
  have hrest : (s.tlb.filter (fun t => !(t.cluster == c && t.holder == q))).find? (fun t => t.cluster == c' && t.holder == q' && t.covers n va) =
      s.tlb.find? (fun t => t.cluster == c' && t.holder == q' && t.covers n va) := by
    rw [List.find?_filter]
    congr 1
    funext t
    rw [Bool.eq_iff_iff]
    by_cases ht : t.cluster = c'
    · simp [ht, h.symm]
    · simp [ht]
  have hhead : (c == c') = false := beq_false_of_ne h
  simp only [tlbFind, tlbFill, List.find?_cons, List.find?_append, hmine, hrest, hhead, Bool.false_and, Option.none_or]

theorem tlbFill_berths (s : State) (c : Bool) (q : Nat) (e : TlbEnt) : (tlbFill s c q e).berths = s.berths := rfl
theorem walked_berths (q : Nat) (s : State) : (walked q s).berths = s.berths := rfl

/-- Where a translation comes from: the quad's cache, the cluster's, or a walk, and the caches that it fills. -/
theorem translation_cases {s u : State} {q n va : Nat} {e : TlbEnt} (h : translation s q n va = .ok (e, u)) :
    (tlbFind s false q n va = some e ∧ u = s) ∨
    (tlbFind s false q n va = none ∧ tlbFind s true (clusterOf q) n va = some e ∧ u = tlbFill s false q e) ∨
    (tlbFind s false q n va = none ∧ walk s n va = .ok e ∧
      ∃ l : List Nat, u = tlbFill (tlbFill (walked q (l.foldl (fun s a => parted a 8 s) s)) true (clusterOf q) e) false q e) := by
  unfold translation at h
  split at h
  · rename_i hq
    cases h
    exact .inl ⟨hq, rfl⟩
  · rename_i hq
    split at h
    · rename_i hc
      cases h
      exact .inr (.inl ⟨hq, hc, rfl⟩)
    · dsimp only at h
      split at h
      · cases h
      · rename_i hw
        cases h
        exact .inr (.inr ⟨hq, hw, _, rfl⟩)

/-! ### Reads at the home leave the berths but for meetings of `aadd`s (09 R176) -/

theorem berthStands_trans {s t u : State} {b : Nat} (h : BerthStands s t b) (h' : BerthStands t u b) : BerthStands s u b := by
  rcases h with h | ⟨x, k, n, w, hs, hw, ht⟩
  · unfold BerthStands at h' ⊢
    rwa [h] at h'
  · rcases h' with h' | ⟨y, k', n', w', ht', hw', -⟩
    · exact .inr ⟨x, k, n, w, hs, hw, h'.trans ht⟩
    · cases ht.symm.trans ht'
      cases hw'

theorem Wait.eq_added_of_addsOn {w : Wait} {k n : Nat} (h : w.addsOn k n = true) : ∃ k' n' t, w = .added k' n' t := by
  unfold Wait.addsOn at h
  split at h
  · exact ⟨_, _, _, rfl⟩
  · cases h

/-- A berth after a read of n bytes at their home. -/
def partedBerth (key n : Nat) (x : Berth) : Berth := if x.ctx.wait.addsOn key n then { x with ctx := { x.ctx with wait := .reply } } else x

theorem parted_berthStands (k n : Nat) (s : State) (b : Nat) : BerthStands s (parted k n s) b := by
  unfold parted
  split
  · have hget : Tbl.get? (s.berths.map (fun e => (e.1, partedBerth k n e.2))) b = (Tbl.get? s.berths b).map (partedBerth k n) := Tbl.get?_map _ _ b
    unfold BerthStands
    cases hx : Tbl.get? s.berths b with
    | none => exact .inl (by rw [hx] at hget; exact hget)
    | some x =>
      rw [hx, Option.map_some] at hget
      by_cases hadd : x.ctx.wait.addsOn k n = true
      · obtain ⟨k', n', w, hw⟩ := Wait.eq_added_of_addsOn hadd
        rw [partedBerth, if_pos hadd] at hget
        exact .inr ⟨x, k', n', w, rfl, hw, hget⟩
      · rw [partedBerth, if_neg hadd] at hget
        exact .inl hget
  · exact .inl rfl

theorem foldl_parted_berthStands (l : List Nat) (n : Nat) (s : State) (b : Nat) : BerthStands s (l.foldl (fun s a => parted a n s) s) b := by
  induction l generalizing s with
  | nil => exact .inl rfl
  | cons a l ih => exact berthStands_trans (parted_berthStands a n s b) (ih _)

theorem foldl_parted_mem (l : List Nat) (n : Nat) (s : State) : (l.foldl (fun s a => parted a n s) s).mem = s.mem := by
  induction l generalizing s with
  | nil => rfl
  | cons a l ih => exact (ih _).trans (parted_mem a n s)

/-- A page walk changes no memory, ends at most meetings of `aadd`s, and leaves the entry in the quad's cache. -/
theorem translation_fills {s u : State} {q n va : Nat} {e : TlbEnt} (h : translation s q n va = .ok (e, u)) :
    u.mem = s.mem ∧ (∀ b, BerthStands s u b) ∧
      ∃ x, tlbFind u false q n va = some x ∧ x.pa = e.pa ∧ x.bits = e.bits ∧ x.r = e.r ∧ x.w = e.w ∧ x.x = e.x ∧ x.n = e.n := by
  rcases translation_cases h with ⟨hq, rfl⟩ | ⟨-, hc, rfl⟩ | ⟨-, hw, l, rfl⟩
  · exact ⟨rfl, fun _ => .inl rfl, e, hq, rfl, rfl, rfl, rfl, rfl, rfl⟩
  · exact ⟨rfl, fun _ => .inl rfl, _, tlbFind_tlbFill_same s false q (tlbFind_covers hc), rfl, rfl, rfl, rfl, rfl, rfl⟩
  · refine ⟨?_, fun b => ?_, _, tlbFind_tlbFill_same _ false q (walk_covers hw), rfl, rfl, rfl, rfl, rfl, rfl⟩
    · rw [tlbFill_mem, tlbFill_mem, walked_mem, foldl_parted_mem]
    · unfold BerthStands
      rw [tlbFill_berths, tlbFill_berths, walked_berths]
      exact foldl_parted_berthStands l 8 s b

/-- A translation that the quad's cache misses leaves the entry in the cluster's. -/
theorem translation_fills_cluster {s u : State} {q n va : Nat} {e : TlbEnt} (h : translation s q n va = .ok (e, u))
    (hmiss : tlbFind s false q n va = none) : ∃ x, tlbFind u true (clusterOf q) n va = some x ∧ x.pa = e.pa ∧ x.bits = e.bits := by
  rcases translation_cases h with ⟨hq, -⟩ | ⟨-, hc, rfl⟩ | ⟨-, hw, l, rfl⟩
  · cases hmiss.symm.trans hq
  · exact ⟨e, (tlbFind_tlbFill_ne s q _ n va e Bool.false_ne_true).trans hc, rfl, rfl⟩
  · exact ⟨_, (tlbFind_tlbFill_ne _ q _ n va e Bool.false_ne_true).trans (tlbFind_tlbFill_same _ true _ (walk_covers hw)), rfl, rfl⟩

theorem pageWalk_walks {s u : State} {q n va : Nat} {e : TlbEnt} (hn : n ∈ s.bindSet q) (h : translation s q n va = .ok (e, u)) :
    exec (.pageWalk q n va) s = .next u := by
  show execPageWalk q n va s = _
  simp only [execPageWalk, List.contains_iff_mem, hn, if_true, h]

/-! ### The clauses of O43 -/

/-- The sum that an `aadd` writes, byte by byte. -/
theorem memGet_memWrite_addLeaves (m : List Host.Cell) (s : State) (pa n amt x : Nat) : memGet (memWrite m pa (addLeaves s pa n amt)) x =
    if pa ≤ x ∧ x < pa + n then BitVec.ofNat 8 ((leNat (addFinds s pa n) + amt) % 2 ^ (8 * n) / 256 ^ (x - pa)) else memGet m x := by
  rw [memGet_memWrite, addLeaves, leBytes_length]
  by_cases hx : pa ≤ x ∧ x < pa + n
  · rw [if_pos hx, if_pos hx, leBytes_getD _ _ _ (by omega)]
  · rw [if_neg hx, if_neg hx]

/-- The register that a load names, and no other, takes its value (03 R48). -/
theorem setReg_loaded (regs : Vector Word 16) (d r : Reg) (z : Bool) (bs : List Byte) :
    (setReg regs d (extend z bs))[r] = if r = d ∧ r ≠ 0 then loaded z bs else regs[r] := by
  rw [setReg_get, extend_eq_loaded]
  have hiff : (d = r ∧ d ≠ 0) ↔ (r = d ∧ r ≠ 0) := ⟨fun ⟨h, h0⟩ => ⟨h.symm, h ▸ h0⟩, fun ⟨h, h0⟩ => ⟨h.symm, h ▸ h0⟩⟩
  simp only [hiff]

theorem rehomedAdd_performs {s : State} {b pa n amt : Nat} {d : Reg} (hw : (s.ctx b).wait = .rehomedAdd pa n amt d none) (hp : isPurse pa = false)
    (hpo : poisoned s pa n = false) (h : ∀ e ∈ s.berths, ∀ k j x r, e.2.ctx.wait ≠ .rehomedAdd k j x r (some b)) :
    ∃ t time, exec (.rehome b) s = .next t ∧ clusterOf (quadOf b) ∉ t.stalePorts ∧ AddPerformed b pa n amt d time s t := by
  have hctx := rehomedTo_ctx_of_wait pa hw
  have hnone : ∀ e ∈ (rehomedTo b pa (.rehomedAdd pa n amt d none) s).berths, ∀ k j x r, e.2.ctx.wait ≠ .rehomedAdd k j x r (some b) := by
    intro e he k j x r hr
    rcases mem_rehomedTo_berths he with hwait | hold
    · cases hwait.symm.trans hr
    · exact h e hold k j x r hr
  obtain ⟨time, hadd⟩ := reissueAdds_performs ((congrArg Ctx.wait hctx).trans hw) hp ((rehomedTo_poisoned b pa _ s pa n).trans hpo) hnone
  exact ⟨_, time, rehome_of_rehomedAdd hw, fun hc => not_mem_rehomedTo_stalePorts b pa _ s (hadd.stalePorts hc),
    hadd.of_agrees (rehomedTo_mem b pa _ s) (rehomedTo_stores b pa _ s) (rehomedTo_stalePorts_subset b pa _ s) (rehomedTo_othersStand b pa _ s) hctx⟩

/-- After a service the granule is empty only where an `ldc` took it. -/
theorem Served.mem_empties_iff {r : ParkReq} {v : Word} {s t : State} (h : Served r v s t) (hfull : r.key / 16 ∉ s.empties) :
    r.key / 16 ∈ t.empties ↔ r.clear = true := by
  rw [h.empties]
  by_cases hc : r.clear = true <;> simp [hc, granule, hfull]

/-- Settles O43: each clause by the lemma on its step. -/
theorem memoryStepsSettleReplyAndFill : Obligations.MemoryStepsSettleReplyAndFill := by
  unfold Obligations.MemoryStepsSettleReplyAndFill
  intro line b q n va s hit
  refine ⟨?settle, ?reply, ?rehomed, ?link, ?aadd, ?reissue, ?walk⟩
  case settle =>
    refine ⟨_, settle_settles line s, ?_, fun x h => memGet_settleLine_of_uncovered h,
      fun l st r x hs hst hr => memGet_settleLine_of_last hs hst.1 hst.2 hr⟩
    rw [settleLine_eq]
  case reply => exact fun hb h => ⟨_, memoryReply_readies hb h, threadAlone_setCtx s b _⟩
  case rehomed =>
    exact fun pa _ hw => ⟨_, rehome_of_rehomed hw, rehomedTo_ctx b pa _ s, rehomedTo_othersStand b pa _ s, rfl, not_mem_rehomedTo_stalePorts b pa _ s⟩
  case link =>
    exact fun pa p _ hw hp => ⟨_, rehome_of_link hw hp, rehomedTo_ctx b pa _ s, rehomedTo_othersStand b pa _ s, rfl, not_mem_rehomedTo_stalePorts b pa _ s⟩
  case aadd =>
    intro pa m amt d hw hp _ hpo hlead
    obtain ⟨t, time, hexec, hports, hadd⟩ := rehomedAdd_performs hw hp hpo hlead
    obtain ⟨p, hle, hctx⟩ := hadd.ctx
    refine ⟨t, time, hexec, hports, ?_, ?_, fun r => ?_, fun o ho => .inl (hadd.others o ho), fun x => ?_⟩
    · rw [hctx]
    · rw [hctx]
      exact hle
    · rw [hctx]
      exact setReg_loaded _ _ _ _ _
    · rw [hadd.mem]
      exact memGet_memWrite_addLeaves _ _ _ _ _ _
  case reissue =>
    intro r _ hw hb l free
    subst hb
    rw [waitTableReissue_reissues]
    refine ⟨fun hheld => ?_, fun hfree hpo => ?_, fun hfree hpo hfull => ?_, fun hfree hpo he hlen => ?_, fun hfree hpo he hlen => ?_⟩
    · rw [reissue_of_heldTile hw (Bool.eq_true_of_not_eq_false hheld)]
    · exact ⟨_, rfl, by rw [reissue_serves hw hfree (.inr hpo), serve_of_poisoned hpo]; exact threadAlone_setCtx s _ _⟩
    · rw [reissue_serves hw hfree (.inl hfull)]
      have hserved := serve_served hpo
      obtain ⟨p, hctx⟩ := hserved.ctx
      refine ⟨_, rfl, hserved.others, serve_mem s r, hserved.waits, ?_, fun x => ?_, hserved.mem_empties_iff hfull⟩
      · rw [hctx]
      · rw [hctx]
        exact setReg_loaded _ _ _ _ _
    · rw [reissue_enters hw hfree hpo he hlen]
      exact ⟨_, rfl, fun o ho => State.get?_setCtx_ne _ _ ho, rfl, rfl, State.ctx_setCtx_same _ _ _, Tbl.getD_set_same _ _ _ _⟩
    · rw [reissue_of_full_table hw hfree hpo he hlen]
  case walk =>
    intro e u hn h
    obtain ⟨hmem, hstand, hfind⟩ := translation_fills h
    exact ⟨u, pageWalk_walks hn h, hmem, hstand, hfind, translation_fills_cluster h⟩

end Sys2Proof.Machine
end

section
/-!
PROOFS. Where a `link` of two old ends gives its cells back (02 R41 R45, 11 R202).
-/

namespace Sys2Proof.Machine
open Sys2Proof Sys2Proof.Say

/-! ### A cell area that lies past the purse

The clause of `LinksJoinTheirEnds` on a wire that closes on itself puts no bound on the offsets of the two cells. In a state whose net has its cell area at
offset 2^18, past the 192 KiB of a purse, the key of a cell names a byte of the next quad, and `reclaim` gives the cell back there. -/

/-- The net: bound to one cluster, with a cell area of 1 KiB at an offset that no purse has. -/
def pastPurseNet : NetRec := { st := .bound, cellKib := 1, cellOff := 2 ^ 18 }

/-- Its thread holds in x1 and x2 the two auxiliary ports of one wire, whose slots name each other. -/
def pastPurse : State :=
  let port := fun (off : Nat) => BitVec.ofNat 64 (2 ^ 60 + off)
  { nets := [(1, pastPurseNet)]
    mem := memWrite (memWrite [] (purseKey 0 0x1010) (wordBytes (port 0x1018))) (purseKey 0 0x1018) (wordBytes (port 0x1010))
    berths := [(0, { ctx := { tid := 5, net := 1, coin := 1024, regs := setReg (setReg (Vector.replicate 16 0) 1 (port 0x1010)) 2 (port 0x1018) } })] }

/-- The state once the `link` has passed its checks: both cells are taken. -/
def pastPurseTaken : State := { pastPurse with netqs := [(2 ^ 18, { cells := [2 ^ 18, 2 ^ 18 + 16] })] }

theorem linkChecks_pastPurse : linkChecks (pastPurse.x 1) (pastPurse.x 2) true true pastPurse =
    .ok (some (purseKey 0 0x1010), some (purseKey 0 0x1018), [2 ^ 18, 2 ^ 18 + 16], pastPurseTaken) := by decide +kernel

/-- The cells that a net has in use on a quad after a step. -/
def cellsAfter (n q : Nat) : Result → List Nat
  | .next t => (t.netq n q).cells
  | _ => []

/-- The `link` ends with both cells still in use on its quad, where it began with none. -/
theorem cellsAfter_link_pastPurse : cellsAfter 1 0 (exec (.link 3 1 2 true true) pastPurse) = [2 ^ 18, 2 ^ 18 + 16] := by decide +kernel

/-- Refutes O17: the clause on a wire that closes on itself fails in `pastPurse`, where the cells of the `link` do not go back to its quad. The other
    clause that has cells go back asks that their offset lie in the purse; this one does not. -/
theorem not_linksJoinTheirEnds : ¬ Obligations.LinksJoinTheirEnds := by
  unfold Obligations.LinksJoinTheirEnds
  rintro ⟨hlinks, -⟩
  obtain ⟨-, -, hcloses, -⟩ := hlinks 3 1 2 pastPurse pastPurseTaken
  obtain ⟨t, hexec, -, -, -, -, -, hcells⟩ := hcloses _ _ _ _ linkChecks_pastPurse (by decide) (by decide) (.inl (by decide))
    (fun _ hk => nomatch hk) (by decide +kernel) (by decide +kernel)
  have hkept := cellsAfter_link_pastPurse
  rw [hexec, cellsAfter] at hkept
  exact absurd (hkept.symm.trans hcells) (by decide +kernel)

end Sys2Proof.Machine
end

section
/-!
PROOFS. What reads leave: those of a quad's hardware and the checks of a thread's access, in the state that they answer and in the one that they stop in
(08 R150 R155, 09 R165 R176).
-/

namespace Sys2Proof.Machine
open Sys2Proof Sys2Proof.Say

/-! ### Reads in a state -/

/-- s with everything that reads may change taken from t: settled lines, copies, translations, times, counts, and the berths. -/
def State.readAs (s t : State) : State :=
  { s with mem := t.mem, stores := t.stores, lines := t.lines, copies := t.copies, stalePorts := t.stalePorts, tlb := t.tlb, perf := t.perf
           berths := t.berths, tape := t.tape, nfree := t.nfree }

/-- Only reads lie between s and t: lines may have settled, copies, translations, times and counts may have changed, and an `aadd` on its way may have
    lost its place; everything else stands. -/
structure OnlyReads (s t : State) : Prop where
  rest : t = s.readAs t
  berths : ∀ b, BerthStands s t b

theorem OnlyReads.of_berths {s t : State} (hrest : t = s.readAs t) (hb : t.berths = s.berths) : OnlyReads s t := ⟨hrest, fun _ => .inl (by rw [hb])⟩

theorem OnlyReads.refl (s : State) : OnlyReads s s := .of_berths rfl rfl

theorem OnlyReads.trans {s t u : State} (h : OnlyReads s t) (h' : OnlyReads t u) : OnlyReads s u := by
  refine ⟨h'.rest.trans ?_, fun b => berthStands_trans (h.berths b) (h'.berths b)⟩
  rw [h.rest]
  rfl

section Fields
variable {s t : State} (h : OnlyReads s t)
include h

theorem OnlyReads.cur : t.cur = s.cur := (congrArg State.cur h.rest).trans rfl
theorem OnlyReads.nets : t.nets = s.nets := (congrArg State.nets h.rest).trans rfl
theorem OnlyReads.residents : t.residents = s.residents := (congrArg State.residents h.rest).trans rfl
theorem OnlyReads.deques : t.deques = s.deques := (congrArg State.deques h.rest).trans rfl
theorem OnlyReads.nextTid : t.nextTid = s.nextTid := (congrArg State.nextTid h.rest).trans rfl
theorem OnlyReads.netRec (n : Nat) : t.netRec n = s.netRec n := by rw [State.netRec, State.netRec, h.nets]

end Fields

/-! ### Runs that only read -/

/-- A run makes only reads, whether it answers or stops, and does not wait for the spill pool. -/
structure ReadsOnly {α : Type} (s : State) (r : Run (α × State)) : Prop where
  ok : ∀ x t, r = .ok (x, t) → OnlyReads s t
  error : ∀ e, r = .error e → OnlyReads s (e.state s) ∧ ∀ u, e ≠ .wait .spill u

section Runs
variable {α β : Type} {s t : State} {r : Run (α × State)}

theorem readsOnly_ok (x : α) (h : OnlyReads s t) : ReadsOnly s (.ok (x, t)) :=
  ⟨fun _ _ e => by cases e; exact h, fun _ e => nomatch e⟩

theorem readsOnly_error {e : Stop} (h : OnlyReads s (e.state s)) (hspill : ∀ u, e ≠ .wait .spill u) : ReadsOnly s (.error e : Run (α × State)) :=
  ⟨fun _ _ e => (nomatch e), fun _ e => by cases e; exact ⟨h, hspill⟩⟩

theorem readsOnly_failAt (c : Cause) (a : Word) : ReadsOnly s (failAt c a : Run (α × State)) :=
  readsOnly_error (.refl s) fun _ h => nomatch h

theorem readsOnly_waitOn {w : Wait} (hw : w ≠ .spill) : ReadsOnly s (waitOn w : Run (α × State)) :=
  readsOnly_error (.refl s) fun _ h => hw (Stop.wait.inj h).1

theorem readsOnly_ite {c : Prop} [Decidable c] {r' : Run (α × State)} (h : ReadsOnly s r) (h' : ReadsOnly s r') : ReadsOnly s (if c then r else r') := by
  split
  · exact h
  · exact h'

theorem Stop.after_ne_spill {e : Stop} (h : ∀ u, e ≠ .wait .spill u) (t : State) : ∀ u, e.after t ≠ .wait .spill u := by
  intro u hu
  cases e with
  | fault f left => cases hu
  | wait w left => exact h left (by rw [(Stop.wait.inj hu).1])

/-- A run from a state that reads have led to. -/
theorem ReadsOnly.stopsAt (h : OnlyReads s t) (hr : ReadsOnly t r) : ReadsOnly s (stopsAt t r) := by
  cases r with
  | ok x => exact readsOnly_ok x.1 (h.trans (hr.ok _ _ rfl))
  | error e =>
    obtain ⟨hread, hspill⟩ := hr.error e rfl
    exact readsOnly_error (by rw [Stop.state_after]; exact h.trans hread) (Stop.after_ne_spill hspill t)

theorem ReadsOnly.reading {k : α → State → Run (β × State)} (hr : ReadsOnly s r) (hk : ∀ x t, r = .ok (x, t) → ReadsOnly t (k x t)) :
    ReadsOnly s (reading r k) := by
  cases r with
  | ok x => exact .stopsAt (hr.ok _ _ rfl) (hk _ _ rfl)
  | error e => exact readsOnly_error (hr.error e rfl).1 (hr.error e rfl).2

theorem ReadsOnly.map {f : α × State → β × State} (hr : ReadsOnly s r) (hf : ∀ x, (f x).2 = x.2) : ReadsOnly s (r.map f) := by
  cases r with
  | ok x => exact readsOnly_ok (f x).1 (hf x ▸ hr.ok x.1 x.2 rfl)
  | error e => exact readsOnly_error (hr.error e rfl).1 (hr.error e rfl).2

end Runs

/-! ### The pieces of a read -/

theorem onlyReads_parted (k n : Nat) (s : State) : OnlyReads s (parted k n s) := by
  refine ⟨?_, parted_berthStands k n s⟩
  rw [parted_rest]
  rfl

theorem onlyReads_foldl_parted (l : List Nat) (n : Nat) (s : State) : OnlyReads s (l.foldl (fun s a => parted a n s) s) := by
  induction l generalizing s with
  | nil => exact .refl s
  | cons a l ih => exact (onlyReads_parted a n s).trans (ih _)

theorem onlyReads_tlbFill (s : State) (c : Bool) (q : Nat) (e : TlbEnt) : OnlyReads s (tlbFill s c q e) := .of_berths rfl rfl

theorem onlyReads_count (d i n : Nat) (s : State) : OnlyReads s (count d i n s) := .of_berths rfl rfl

theorem onlyReads_hwRequest (q pa : Nat) (s : State) : OnlyReads s (hwRequest q pa s) := by
  unfold hwRequest
  split <;> exact .of_berths rfl rfl

theorem onlyReads_settleLine (s : State) (l : Nat) : OnlyReads s (settleLine s l) := by
  rw [settleLine_eq]
  exact .of_berths rfl rfl

theorem onlyReads_choice (s : State) (n : Nat) : OnlyReads s (choice s n).2 := by
  unfold choice
  split <;> exact .of_berths rfl rfl

theorem onlyReads_findCopy (s : State) (q l p : Nat) : OnlyReads s (findCopy s q l p).2 := by
  unfold findCopy
  split
  · exact .refl s
  · exact .refl s
  · exact onlyReads_choice s _

theorem onlyReads_setPurseTime (s : State) (k n t : Nat) : OnlyReads s (setPurseTime s k n t) := .of_berths rfl rfl

/-- A home grants a lease: it reads, and may settle the line first. -/
theorem onlyReads_grant (s : State) (q l p : Nat) (own : Bool) : OnlyReads s (grant s q l p own) := by
  have hchoice := (onlyReads_parted (256 * l) 256 s).trans (onlyReads_choice _ 64)
  unfold grant
  generalize choice (parted (256 * l) 256 s) 64 = c at hchoice
  have hsettle : OnlyReads s (if own && c.1 / 32 == 1 then settleLine c.2 l else c.2) := by
    split
    · exact hchoice.trans (onlyReads_settleLine _ l)
    · exact hchoice
  generalize hu : (if own && c.1 / 32 == 1 then settleLine c.2 l else c.2) = u at hsettle
  dsimp only
  rw [hu]
  refine hsettle.trans ?_
  split <;> exact .of_berths rfl rfl

theorem onlyReads_cacheLoad (q p : Nat) (tid : Option Nat) (k n : Nat) (s : State) : OnlyReads s (cacheLoad q p tid k n s).2.2 := by
  have hfind := onlyReads_findCopy s q (k / 256) p
  unfold cacheLoad
  dsimp only
  split
  · rename_i hc
    rw [hc] at hfind
    exact hfind
  · rename_i hc
    rw [hc] at hfind
    refine hfind.trans (.trans ?_ (onlyReads_grant _ q (k / 256) p _))
    split
    · exact onlyReads_settleLine _ _
    · exact .refl _

/-! ### Translations and global accesses (08 R153 R155) -/

theorem onlyReads_translation {s u : State} {q n va : Nat} {e : TlbEnt} (h : translation s q n va = .ok (e, u)) : OnlyReads s u := by
  rcases translation_cases h with ⟨-, rfl⟩ | ⟨-, -, rfl⟩ | ⟨-, -, l, rfl⟩
  · exact .refl _
  · exact onlyReads_tlbFill s false q e
  · exact (((onlyReads_foldl_parted l 8 s).trans (onlyReads_count _ 9 1 _)).trans (onlyReads_tlbFill _ true _ e)).trans (onlyReads_tlbFill _ false q e)

theorem onlyReads_of_translation_error {s u : State} {q n va : Nat} {c : Cause} (h : translation s q n va = .error (c, u)) : OnlyReads s u := by
  unfold translation at h
  split at h
  · cases h
  · split at h
    · cases h
    · dsimp only at h
      split at h
      · cases h
        exact (onlyReads_foldl_parted _ 8 s).trans (onlyReads_count _ 9 1 _)
      · cases h

theorem readsOnly_globAccess (s : State) (q n va k : Nat) (nd : Need) : ReadsOnly s (globAccess s q n va k nd) := by
  unfold globAccess
  dsimp only
  split
  · rename_i h
    exact .stopsAt (onlyReads_of_translation_error h) (readsOnly_failAt _ _)
  · rename_i h
    refine .stopsAt (onlyReads_translation h) ?_
    split
    · exact readsOnly_failAt _ _
    · split
      · exact readsOnly_waitOn (by decide)
      · split
        · exact readsOnly_failAt _ _
        · exact readsOnly_ok _ (.refl _)

/-! ### Reads by a quad's hardware (02 R23 R25) -/

theorem readsOnly_hwRead (n q p : Nat) (aw : Word) (len : Nat) (s : State) : ReadsOnly s (hwRead n q p aw len s) := by
  unfold hwRead
  split
  · exact readsOnly_failAt _ _
  · refine .reading (readsOnly_globAccess s q n _ len needR) fun pa t _ => ?_
    split
    · exact readsOnly_failAt _ _
    · refine readsOnly_ok _ (.trans ?_ (onlyReads_cacheLoad q p none pa len _))
      split
      · exact onlyReads_hwRequest q pa t
      · exact .refl t
  · split
    · exact readsOnly_failAt _ _
    · split
      · exact readsOnly_failAt _ _
      · exact readsOnly_ok _ (onlyReads_setPurseTime s _ _ _)

section HwTry
variable {n q p : Nat} {aw : Word} {len : Nat} {s t : State}

theorem hwTry_of_ok {x : Nat × List Byte} (h : hwRead n q p aw len s = .ok (x, t)) : hwTry n q p aw len s = .ok (some x.2, t) := by
  rw [hwTry, h]

theorem hwTry_of_fault {f : FaultInfo} {left : Option State} (h : hwRead n q p aw len s = .error (.fault f left)) :
    hwTry n q p aw len s = .ok (none, left.getD s) := by
  rw [hwTry, h]

end HwTry

theorem readsOnly_hwTry (n q p : Nat) (aw : Word) (len : Nat) (s : State) : ReadsOnly s (hwTry n q p aw len s) := by
  have hread := readsOnly_hwRead n q p aw len s
  unfold hwTry
  split
  · rename_i h
    exact readsOnly_ok _ (hread.ok _ _ h)
  · rename_i h
    exact readsOnly_ok _ (hread.error _ h).1
  · rename_i e _ h
    exact readsOnly_error (hread.error e h).1 (hread.error e h).2

theorem readsOnly_openSide (n q p : Nat) (w : Word) (s : State) : ReadsOnly s (openSide n q p w s) := by
  unfold openSide
  split
  · exact readsOnly_ok _ (.refl s)
  · exact (readsOnly_hwTry n q p _ 8 s).map fun _ => rfl

theorem readsOnly_ruleEntry (n q p key : Nat) (s : State) : ReadsOnly s (ruleEntry n q p key s) :=
  (readsOnly_hwTry n q p _ 4 s).map fun _ => rfl

theorem readsOnly_sealedCount (n q p : Nat) (acc : Bool) (h : Word) (s : State) : ReadsOnly s (sealedCount n q p acc h s) := by
  unfold sealedCount
  split
  · exact readsOnly_ok _ (.refl s)
  · exact (readsOnly_hwTry n q p _ 8 s).map fun _ => rfl

/-! ### Writes at a bank, and the journal (08 R147, 17 R310) -/

/-- s with everything that a write at a bank may change taken from t: memory, settled stores, times and poison. -/
def State.bankAs (s t : State) : State := { s with mem := t.mem, stores := t.stores, lines := t.lines, poison := t.poison }

theorem clearPoison_rest (s : State) (k n : Nat) : clearPoison s k n = { s with poison := (clearPoison s k n).poison } := by
  unfold clearPoison
  split <;> rfl

theorem bankTime_rest (p : Nat) (s : State) (k n : Nat) : (bankTime p s k n).2 = s.bankAs (bankTime p s k n).2 := by
  unfold bankTime
  split
  · rfl
  · rw [settleLine_eq]
    rfl

theorem bankStore_rest (p : Nat) (s : State) (k : Nat) (bs : List Byte) : (bankStore p s k bs).2 = s.bankAs (bankStore p s k bs).2 := by
  have htime := bankTime_rest p s k bs.length
  simp only [bankStore]
  rw [clearPoison_rest, htime]
  rfl

theorem hwWrite_rest (s : State) (k : Nat) (bs : List Byte) : hwWrite s k bs = s.bankAs (hwWrite s k bs) := bankStore_rest 0 s k bs

theorem hwWrite_berths (s : State) (k : Nat) (bs : List Byte) : (hwWrite s k bs).berths = s.berths := (congrArg State.berths (hwWrite_rest s k bs)).trans rfl
theorem hwWrite_deques (s : State) (k : Nat) (bs : List Byte) : (hwWrite s k bs).deques = s.deques := (congrArg State.deques (hwWrite_rest s k bs)).trans rfl
theorem hwWrite_msgs (s : State) (k : Nat) (bs : List Byte) : (hwWrite s k bs).msgs = s.msgs := (congrArg State.msgs (hwWrite_rest s k bs)).trans rfl

theorem journal_berths (e : Event) (s : State) : (journal e s).berths = s.berths := by simp only [journal, hwWrite_berths]
theorem journal_deques (e : Event) (s : State) : (journal e s).deques = s.deques := by simp only [journal, hwWrite_deques]
theorem journal_msgs (e : Event) (s : State) : (journal e s).msgs = s.msgs := by simp only [journal, hwWrite_msgs]

end Sys2Proof.Machine
end

section
/-!
PROOFS. Dispatch: the order of a record's sides, the rule's entry, and the thread that starts (02 R24 R25 R31 R32, 15 R265).
-/

namespace Sys2Proof.Machine
open Sys2Proof Sys2Proof.Say

/-! ### Words taken apart -/

theorem tagOf_eq (w : Word) : tagOf w = w.toNat / 2 ^ 60 := by
  have := w.isLt
  simp only [tagOf, bits]
  omega

theorem addrOf_eq (w : Word) : addrOf w = BitVec.ofNat 64 (w.toNat % 2 ^ 60) := by
  simp [addrOf, bits]

theorem hdrKind_eq (h : Word) : hdrKind h = h.toNat / 2 ^ 56 := by
  have := h.isLt
  simp only [hdrKind, bits]
  omega

theorem isImm_iff (w : Word) : isImm w = true ↔ w.toNat / 2 ^ 60 = 5 := by
  rw [isImm, beq_iff_eq, tagOf_eq]

theorem sideReg_eq (w : Word) : sideReg w = if w.toNat / 2 ^ 60 = 5 then w else BitVec.ofNat 64 (w.toNat % 2 ^ 60) := by
  unfold sideReg
  simp only [isImm_iff, addrOf_eq]

theorem countAddr_eq (h : Word) : countAddr h = h.toNat % 2 ^ 48 * 256 := by
  simp [countAddr, bits]

theorem nodeOf_eq (l : List Byte) :
    nodeOf l = if headerOk (bytesWord l) = true then some ((bytesWord l).toNat / 2 ^ 56, bytesWord l) else none := by
  rw [nodeOf, hdrKind_eq]

theorem ruleOf_eq (l : List Byte) : ruleOf l =
    if leNat l / 2 ^ 31 % 2 = 1 ∧ leNat l / 2 ^ 28 % 4 = 0 then some (leNat l % 2 ^ 28, decide (leNat l / 2 ^ 30 % 2 = 1)) else none := by
  simp [ruleOf, bits, beq_eq_decide]

/-! ### The reads of a dispatch -/

section Reads
variable {n q p : Nat} {s v : State}

theorem openSide_of_imm {w : Word} (h : w.toNat / 2 ^ 60 = 5) (s : State) : openSide n q p w s = .ok (some (w.toNat / 2 ^ 51 % 256, 0), s) := by
  rw [openSide, if_pos ((isImm_iff w).mpr h)]
  rfl

theorem openSide_of_node {w : Word} (h : w.toNat / 2 ^ 60 ≠ 5) (s : State) :
    openSide n q p w s = (hwTry n q p (BitVec.ofNat 64 (w.toNat % 2 ^ 60)) 8 s).map (fun r => (r.1.bind nodeOf, r.2)) := by
  rw [openSide, if_neg (fun himm => h ((isImm_iff w).mp himm)), addrOf_eq]

theorem openSide_of_read {w : Word} {k : Nat} {l : List Byte} (h : w.toNat / 2 ^ 60 ≠ 5)
    (hread : hwRead n q p (BitVec.ofNat 64 (w.toNat % 2 ^ 60)) 8 s = .ok ((k, l), v)) :
    openSide n q p w s = .ok (if headerOk (bytesWord l) = true then some ((bytesWord l).toNat / 2 ^ 56, bytesWord l) else none, v) := by
  rw [openSide_of_node h, hwTry_of_ok hread, ← nodeOf_eq]
  rfl

theorem openSide_of_fault {w : Word} {f : FaultInfo} {left : Option State} (h : w.toNat / 2 ^ 60 ≠ 5)
    (hread : hwRead n q p (BitVec.ofNat 64 (w.toNat % 2 ^ 60)) 8 s = .error (.fault f left)) : openSide n q p w s = .ok (none, left.getD s) := by
  rw [openSide_of_node h, hwTry_of_fault hread]
  rfl

theorem ruleEntry_of_read {key k : Nat} {l : List Byte}
    (hread : hwRead n q p (BitVec.ofNat 64 (2 ^ 59 + ((s.netRec n).ruleBase + 4 * key))) 4 s = .ok ((k, l), v)) : ruleEntry n q p key s =
    .ok (if leNat l / 2 ^ 31 % 2 = 1 ∧ leNat l / 2 ^ 28 % 4 = 0 then some (leNat l % 2 ^ 28, decide (leNat l / 2 ^ 30 % 2 = 1)) else none, v) := by
  rw [ruleEntry, globWord, hwTry_of_ok hread, ← ruleOf_eq]
  rfl

theorem ruleEntry_of_fault {key : Nat} {f : FaultInfo} {left : Option State}
    (hread : hwRead n q p (BitVec.ofNat 64 (2 ^ 59 + ((s.netRec n).ruleBase + 4 * key))) 4 s = .error (.fault f left)) :
    ruleEntry n q p key s = .ok (none, left.getD s) := by
  rw [ruleEntry, globWord, hwTry_of_fault hread]
  rfl

theorem sealedCount_of_unsealed {acc : Bool} {h : Word} (hs : ¬(acc = true ∧ hdrS h = true)) (s : State) :
    sealedCount n q p acc h s = .ok (some 0, s) := by
  have hplain : (acc && hdrS h) = false := Bool.eq_false_iff.mpr fun hboth => hs (Bool.and_eq_true_iff.mp hboth)
  rw [sealedCount, hplain]
  rfl

section Sealed
variable {acc : Bool} {h : Word} (hacc : acc = true) (hs : hdrS h = true)
include hacc hs

theorem sealedCount_of_sealed (s : State) : sealedCount n q p acc h s =
    (hwTry n q p (BitVec.ofNat 64 (2 ^ 59 + h.toNat % 2 ^ 48 * 256)) 8 s).map (fun r => (r.1.map bytesWord, r.2)) := by
  rw [sealedCount, if_neg (by simp [hacc, hs]), globWord, countAddr_eq]

theorem sealedCount_of_read {k : Nat} {l : List Byte}
    (hread : hwRead n q p (BitVec.ofNat 64 (2 ^ 59 + h.toNat % 2 ^ 48 * 256)) 8 s = .ok ((k, l), v)) :
    sealedCount n q p acc h s = .ok (some (bytesWord l), v) := by
  rw [sealedCount_of_sealed hacc hs, hwTry_of_ok hread]
  rfl

theorem sealedCount_of_fault {f : FaultInfo} {left : Option State}
    (hread : hwRead n q p (BitVec.ofNat 64 (2 ^ 59 + h.toNat % 2 ^ 48 * 256)) 8 s = .error (.fault f left)) :
    sealedCount n q p acc h s = .ok (none, left.getD s) := by
  rw [sealedCount_of_sealed hacc hs, hwTry_of_fault hread]
  rfl

end Sealed

/-! ### The order of the sides (02 R24) -/

/-- The sides of a record in their order: the lower kind first, then the lower word. -/
def ordered (a : Word) (x : Nat × Word) (b : Word) (y : Nat × Word) : Side × Side :=
  if y.1 < x.1 ∨ (y.1 = x.1 ∧ b.toNat < a.toNat) then ((b, y), (a, x)) else ((a, x), (b, y))

variable {a b : Word}

theorem orderSides_of_stop {e : Stop} (h : openSide n q p a s = .error e) : orderSides n q p a b s = .error e := by
  rw [orderSides, h, reading_error]

theorem orderSides_of_stop_second {x : Option (Nat × Word)} {e : Stop} (ha : openSide n q p a s = .ok (x, v)) (hb : openSide n q p b v = .error e) :
    orderSides n q p a b s = .error (e.after v) := by
  rw [orderSides, ha, reading_ok, hb]
  rfl

theorem orderSides_of_none {x y : Option (Nat × Word)} {v' : State} (ha : openSide n q p a s = .ok (x, v)) (hb : openSide n q p b v = .ok (y, v'))
    (h : x = none ∨ y = none) : orderSides n q p a b s = .ok (none, v') := by
  rw [orderSides, ha, reading_ok, hb, reading_ok]
  rcases h with rfl | rfl
  · rfl
  · cases x <;> rfl

theorem orderSides_of_some {x y : Nat × Word} {v' : State} (ha : openSide n q p a s = .ok (some x, v)) (hb : openSide n q p b v = .ok (some y, v')) :
    orderSides n q p a b s = .ok (some (ordered a x b y), v') := by
  rw [orderSides, ha, reading_ok, hb, reading_ok, ordered, apply_ite some]
  rfl

end Reads

/-! ### The thread that dispatch makes (02 R32, 17 R299) -/

/-- A thread of a record before its rule is found. -/
def recordThread (tid : Nat) (r : Rec) : Ctx := { tid := tid, net := r.net, coin := r.coin, cls := r.cls }

/-- A thread that faults where it would start, and its fault. -/
def faultsIn (c : Ctx) (x : Cause) (info pc : Nat) : Ctx × Option FaultInfo :=
  ({ c with pc := BitVec.ofNat 56 pc }, some { cause := x, info := BitVec.ofNat 32 info, pc := BitVec.ofNat 56 pc })

/-- A thread with both sides in x1 and x2. -/
def withSides (c : Ctx) (a b : Word) : Ctx := { c with regs := setReg (setReg c.regs 1 (sideReg a)) 2 (sideReg b) }

/-- A range record that is not of type 1, or one of type 1 that is no range record (02 R34). -/
def WrongType (r : Rec) (ka kb : Nat) : Prop := (r.typ = 1 ∧ kb ≠ 0xFE) ∨ (r.typ = 0 ∧ (ka = 0xFE ∨ kb = 0xFE))

/-- The sides of a record as dispatch reads them; none where one is no side. -/
def sidesOf (q p : Nat) (r : Rec) (s : State) : Run (Option (Side × Side) × State) :=
  if sideOk r.a && sideOk r.b then orderSides r.net q p r.a r.b s else .ok (none, s)

section DispatchCtx
variable {q p : Nat} {r : Rec} {s v : State}

theorem dispatchCtx_of_stop {e : Stop} (h : sidesOf q p r s = .error e) : dispatchCtx q p r s = .error e := by
  unfold sidesOf at h
  rw [dispatchCtx, h, reading_error]

theorem dispatchCtx_of_no_sides (h : sidesOf q p r s = .ok (none, v)) :
    dispatchCtx q p r s = .ok (faultsIn (recordThread s.nextTid r) .linkCorrupt 0x80000000 (s.netRec r.net).ruleBase, v) := by
  unfold sidesOf at h
  rw [dispatchCtx, h, reading_ok]
  rfl

variable {aw bw ha hb : Word} {ka kb : Nat} (hsides : sidesOf q p r s = .ok (some ((aw, ka, ha), (bw, kb, hb)), v))
include hsides

theorem dispatchCtx_of_wrongType (h : WrongType r ka kb) : dispatchCtx q p r s =
    .ok (faultsIn (recordThread s.nextTid r) .linkCorrupt (0x80010000 + (256 * ka + kb)) ((s.netRec r.net).ruleBase + 4 * (256 * ka + kb)), v) := by
  unfold sidesOf at hsides
  unfold WrongType at h
  rw [dispatchCtx, hsides, reading_ok]
  dsimp only
  rw [if_pos h]
  rfl

section Rule
variable (htype : ¬WrongType r ka kb) {v' : State}
include htype

theorem dispatchCtx_of_no_rule (hrule : ruleEntry r.net q p (256 * ka + kb) v = .ok (none, v')) : dispatchCtx q p r s =
    .ok (faultsIn (withSides (recordThread s.nextTid r) aw bw) .illegal (0x80010000 + (256 * ka + kb))
      ((s.netRec r.net).ruleBase + 4 * (256 * ka + kb)), v') := by
  unfold sidesOf at hsides
  unfold WrongType at htype
  rw [dispatchCtx, hsides, reading_ok]
  dsimp only
  rw [if_neg htype, hrule, reading_ok]
  rfl

variable {at_ : Nat} {acc : Bool} {v'' : State} (hrule : ruleEntry r.net q p (256 * ka + kb) v = .ok (some (at_, acc), v'))
include hrule

theorem dispatchCtx_of_no_count (hcount : sealedCount r.net q p acc ha v' = .ok (none, v'')) : dispatchCtx q p r s =
    .ok (faultsIn (withSides (recordThread s.nextTid r) aw bw) .linkCorrupt (0x80010000 + (256 * ka + kb))
      ((s.netRec r.net).ruleBase + 4 * (256 * ka + kb)), v'') := by
  unfold sidesOf at hsides
  unfold WrongType at htype
  rw [dispatchCtx, hsides, reading_ok]
  dsimp only
  rw [if_neg htype, hrule, reading_ok]
  dsimp only
  rw [hcount, reading_ok]
  rfl

theorem dispatchCtx_of_count {w : Word} (hcount : sealedCount r.net q p acc ha v' = .ok (some w, v'')) : dispatchCtx q p r s =
    .ok (({ withSides (recordThread s.nextTid r) aw bw with
            regs := setReg (withSides (recordThread s.nextTid r) aw bw).regs 3 w
            pc := BitVec.ofNat 56 ((s.netRec r.net).codeBase + 4 * at_)
            range := if r.typ = 1 then some (aw, bw) else none }, none), v'') := by
  unfold sidesOf at hsides
  unfold WrongType at htype
  rw [dispatchCtx, hsides, reading_ok]
  dsimp only
  rw [if_neg htype, hrule, reading_ok]
  dsimp only
  rw [hcount, reading_ok]
  rfl

end Rule
end DispatchCtx

/-! ### A record that a berth takes (02 R31, 13 R241) -/

/-- A new thread has taken a free berth at program time p. -/
def started (b p : Nat) (c : Ctx) (s : State) : State :=
  (count (dieOf (quadOf b)) 2 1 { s.setBerth b { ctx := c } with rr := Tbl.set s.rr (quadOf b) (coreOf b), nextTid := s.nextTid + 1 }).raise b p

theorem started_ctx (b p : Nat) (c : Ctx) (s : State) : (started b p c s).ctx b = { c with pts := max c.pts p } := by
  rw [started, State.ctx_raise_same]
  exact congrArg (fun x : Ctx => { x with pts := max x.pts p }) (s.ctx_setBerth_same b { ctx := c })

theorem started_ctx_of_new {c : Ctx} (hpts : c.pts = 0) (b p : Nat) (s : State) : (started b p c s).ctx b = { c with pts := p } := by
  rw [started_ctx, hpts, Nat.zero_max]

theorem started_stands (b p : Nat) (c : Ctx) (s : State) {x : Nat} (hx : x ≠ b) : BerthStands s (started b p c s) x :=
  .inl ((State.get?_raise_ne _ p hx).trans (s.get?_setBerth_ne _ hx))

/-- A thread that has started faults at once where its dispatch has found a fault. -/
def orFaults (b : Nat) : Option FaultInfo → State → State
  | none, s => s
  | some f, s => faultBerth b f s

theorem seat_of_no_resident {b : Nat} {s : State} (h : Tbl.get? s.residents b = none) (c : Ctx) :
    seat b c s = some { s.setBerth b { ctx := c } with rr := Tbl.set s.rr (quadOf b) (coreOf b) } := by
  rw [seat, evictBank, h]

/-- Dispatch of a record from program time p on: the thread that its reads make starts, and faults where they find a fault. -/
theorem dispatchInto_of_ctx {b : Nat} {r : Rec} {s v : State} {c : Ctx} {f : Option FaultInfo} (h : Tbl.get? v.residents b = none)
    (hctx : dispatchCtx (quadOf b) (startTime s (quadOf b) r.time) r s = .ok ((c, f), v)) : dispatchInto b r s =
      .ok (orFaults b f (started b (startTime s (quadOf b) r.time) c v)) := by
  rw [dispatchInto, hctx, reading_ok, seat_of_no_resident h]
  cases f <;> rfl

theorem dispatchInto_of_stop {b : Nat} {r : Rec} {s : State} {e : Stop}
    (hctx : dispatchCtx (quadOf b) (startTime s (quadOf b) r.time) r s = .error e) : dispatchInto b r s = .error e := by
  rw [dispatchInto, hctx, reading_error]

/-- The state in which a berth's record has left its deque. -/
def tookRecord (b i : Nat) (s : State) : State := s.setDeque (quadOf b) ((s.deque (quadOf b)).eraseIdx i)

section Take
variable {b i : Nat} {r : Rec} {s : State} (hoff : offered s b = some (.record i)) (hrec : (s.deque (quadOf b))[i]? = some r)
include hoff hrec

theorem dispatch_takes : exec (.dispatch b) s = .next
    (if s.netStateAt r.net (quadOf b) = .free then journal { kind := 3, net := r.net } (tookRecord b i s)
     else if r.typ = 3 ∨ s.netStateAt r.net (quadOf b) = .voiding then returnRecs (quadOf b) [r] (tookRecord b i s)
     else match dispatchInto b r (tookRecord b i s) with
       | .ok u => u
       | .error e => match e with
         | .wait .spill _ => noteDry { e.state (tookRecord b i s) with deques := s.deques }
         | _ => { e.state (tookRecord b i s) with deques := s.deques }) := by
  show execDispatch b s = _
  rw [execDispatch, hoff]
  dsimp only
  unfold takeRecord
  simp only [hrec]
  rfl

theorem dispatch_of_free (h : s.netStateAt r.net (quadOf b) = .free) :
    exec (.dispatch b) s = .next (journal { kind := 3, net := r.net } (tookRecord b i s)) := by
  rw [dispatch_takes hoff hrec, if_pos h]

theorem dispatch_of_returned (hfree : s.netStateAt r.net (quadOf b) ≠ .free) (h : r.typ = 3 ∨ s.netStateAt r.net (quadOf b) = .voiding) :
    exec (.dispatch b) s = .next (returnRecs (quadOf b) [r] (tookRecord b i s)) := by
  rw [dispatch_takes hoff hrec, if_neg hfree, if_pos h]

variable (hbound : s.netStateAt r.net (quadOf b) = .bound) (htyp : r.typ < 3)
include hbound htyp

theorem dispatch_of_bound : exec (.dispatch b) s = .next
    (match dispatchInto b r (tookRecord b i s) with
     | .ok u => u
     | .error e => match e with
       | .wait .spill _ => noteDry { e.state (tookRecord b i s) with deques := s.deques }
       | _ => { e.state (tookRecord b i s) with deques := s.deques }) := by
  have hkept : ¬(r.typ = 3 ∨ s.netStateAt r.net (quadOf b) = .voiding) := by
    rw [hbound]
    exact not_or.mpr ⟨Nat.ne_of_lt htyp, by decide⟩
  rw [dispatch_takes hoff hrec, if_neg (by rw [hbound]; decide), if_neg hkept]

theorem dispatch_of_stop {e : Stop} (hspill : ∀ u, e ≠ .wait .spill u)
    (hctx : dispatchCtx (quadOf b) (startTime (tookRecord b i s) (quadOf b) r.time) r (tookRecord b i s) = .error e) :
    exec (.dispatch b) s = .next { e.state (tookRecord b i s) with deques := s.deques } := by
  rw [dispatch_of_bound hoff hrec hbound htyp, dispatchInto_of_stop hctx]
  dsimp only
  split
  · exact absurd rfl (hspill _)
  · rfl

theorem dispatch_of_ctx {v : State} {c : Ctx} {f : Option FaultInfo} (h : Tbl.get? v.residents b = none)
    (hctx : dispatchCtx (quadOf b) (startTime (tookRecord b i s) (quadOf b) r.time) r (tookRecord b i s) = .ok ((c, f), v)) :
    exec (.dispatch b) s = .next (orFaults b f (started b (startTime (tookRecord b i s) (quadOf b) r.time) c v)) := by
  rw [dispatch_of_bound hoff hrec hbound htyp, dispatchInto_of_ctx h hctx]

variable {v : State} {c : Ctx} (hres : Tbl.get? s.residents b = none) (hreads : OnlyReads (tookRecord b i s) v) (hpts : c.pts = 0)
include hres hreads hpts

theorem dispatch_starts (hctx : dispatchCtx (quadOf b) (startTime (tookRecord b i s) (quadOf b) r.time) r (tookRecord b i s) = .ok ((c, none), v)) :
    ∃ t, exec (.dispatch b) s = .next t ∧ (∀ x, x ≠ b → BerthStands s t x) ∧ t.deques = (tookRecord b i s).deques ∧ t.nextTid = s.nextTid + 1 ∧
      t.ctx b = { c with pts := startTime (tookRecord b i s) (quadOf b) r.time } :=
  ⟨_, dispatch_of_ctx hoff hrec hbound htyp ((congrArg (Tbl.get? · b) hreads.residents).trans hres) hctx,
    fun x hx => berthStands_trans (hreads.berths x) (started_stands b _ c v hx), hreads.deques, congrArg (· + 1) hreads.nextTid,
    started_ctx_of_new hpts b _ v⟩

theorem dispatch_faults {x : Cause} {info pc : Nat}
    (hctx : dispatchCtx (quadOf b) (startTime (tookRecord b i s) (quadOf b) r.time) r (tookRecord b i s) = .ok (faultsIn c x info pc, v)) :
    ∃ w, w.ctx b = { c with pc := BitVec.ofNat 56 pc, pts := startTime (tookRecord b i s) (quadOf b) r.time } ∧
      exec (.dispatch b) s = .next (faultBerth b { cause := x, info := BitVec.ofNat 32 info, pc := BitVec.ofNat 56 pc } w) :=
  ⟨_, started_ctx_of_new (c := { c with pc := BitVec.ofNat 56 pc }) hpts b _ v,
    dispatch_of_ctx hoff hrec hbound htyp ((congrArg (Tbl.get? · b) hreads.residents).trans hres) hctx⟩

end Take

/-! ### The thread's registers and the order of the sides -/

/-- x1 and x2 hold the two sides, and every register but these and x3 is zero. -/
def HoldsSides (c : Ctx) (a b : Word) : Prop :=
  c.regs[(1 : Reg)] = sideReg a ∧ c.regs[(2 : Reg)] = sideReg b ∧ ∀ x : Reg, x ≠ 1 → x ≠ 2 → x ≠ 3 → c.regs[x] = 0

theorem holdsSides_withSides (tid : Nat) (r : Rec) (a b : Word) : HoldsSides (withSides (recordThread tid r) a b) a b := by
  unfold HoldsSides withSides
  refine ⟨?_, ?_, fun x h1 h2 _ => ?_⟩
  · rw [setReg_get, if_neg (by decide), setReg_get, if_pos (by decide)]
  · rw [setReg_get, if_pos (by decide)]
  · rw [setReg_get, if_neg fun h => h2 h.1.symm, setReg_get, if_neg fun h => h1 h.1.symm]
    exact Vector.getElem_replicate _

theorem HoldsSides.setReg_three {c d : Ctx} {a b w : Word} (h : HoldsSides c a b) (hd : d.regs = setReg c.regs 3 w) : HoldsSides d a b := by
  obtain ⟨h1, h2, h0⟩ := h
  refine ⟨?_, ?_, fun x hx1 hx2 hx3 => ?_⟩
  · rw [hd, setReg_get, if_neg (by decide), h1]
  · rw [hd, setReg_get, if_neg (by decide), h2]
  · rw [hd, setReg_get, if_neg fun h => hx3 h.1.symm, h0 x hx1 hx2 hx3]

theorem ordered_eq (a b : Word) (k1 k2 : Nat) (h1 h2 : Word) : ordered a (k1, h1) b (k2, h2) =
    ((if k2 < k1 ∨ (k2 = k1 ∧ b.toNat < a.toNat) then b else a, min k1 k2, if k2 < k1 ∨ (k2 = k1 ∧ b.toNat < a.toNat) then h2 else h1),
      (if k2 < k1 ∨ (k2 = k1 ∧ b.toNat < a.toNat) then a else b, max k1 k2, if k2 < k1 ∨ (k2 = k1 ∧ b.toNat < a.toNat) then h1 else h2)) := by
  unfold ordered
  split
  · rename_i hswap
    have hle : k2 ≤ k1 := by omega
    rw [min_eq_right hle, max_eq_left hle]
  · rename_i hkeep
    have hle : k1 ≤ k2 := by omega
    rw [min_eq_left hle, max_eq_right hle]

theorem wrongType_iff (r : Rec) (k1 k2 : Nat) :
    WrongType r (min k1 k2) (max k1 k2) ↔ (r.typ = 1 ∧ max k1 k2 ≠ 0xFE) ∨ (r.typ = 0 ∧ (k1 = 0xFE ∨ k2 = 0xFE)) := by
  have hiff : (min k1 k2 = 0xFE ∨ max k1 k2 = 0xFE) ↔ (k1 = 0xFE ∨ k2 = 0xFE) := by omega
  rw [WrongType, hiff]

theorem sidesOf_of_ok {q p : Nat} {r : Rec} (ha : sideOk r.a = true) (hb : sideOk r.b = true) (s : State) :
    sidesOf q p r s = orderSides r.net q p r.a r.b s := by
  rw [sidesOf, ha, hb]
  rfl

theorem sidesOf_of_not_ok {q p : Nat} {r : Rec} (h : ¬(sideOk r.a = true ∧ sideOk r.b = true)) (s : State) : sidesOf q p r s = .ok (none, s) := by
  rw [sidesOf, if_neg fun hboth => h (Bool.and_eq_true_iff.mp hboth)]

/-! ### The clauses of O41 -/

/-- Settles O41: each clause by the lemma on what the reads of the dispatch have found. -/
theorem dispatchStartsTheRulesThread : Obligations.DispatchStartsTheRulesThread := by
  unfold Obligations.DispatchStartsTheRulesThread
  intro b i r s hoff hrec q n nr u p base faultsAt corrupt
  refine ⟨fun hbound hres htyp => ?bound, ?returned, ?free, ?side, ?rule⟩
  case bound =>
    have hcorrupt : ∀ v, OnlyReads u v → sidesOf q p r u = .ok (none, v) → corrupt := fun v hreads hsides =>
      dispatch_faults (c := recordThread s.nextTid r) hoff hrec hbound htyp hres hreads rfl (dispatchCtx_of_no_sides hsides)
    refine ⟨fun hside => hcorrupt u (.refl u) (sidesOf_of_not_ok hside u), fun hsa hsb => ?_⟩
    have hsidesOf := sidesOf_of_ok (q := q) (p := p) hsa hsb u
    refine ⟨fun w hw => ?stopA, fun x v1 hx => ⟨fun w hw => ?stopB, fun y v2 hy => ⟨fun hnone => ?refused, ?sides⟩⟩⟩
    case stopA =>
      exact dispatch_of_stop hoff hrec hbound htyp ((readsOnly_openSide n q p r.a u).error w hw).2
        (dispatchCtx_of_stop (hsidesOf.trans (orderSides_of_stop hw)))
    case stopB =>
      have hstop := dispatch_of_stop hoff hrec hbound htyp (Stop.after_ne_spill ((readsOnly_openSide n q p r.b v1).error w hw).2 v1)
        (dispatchCtx_of_stop (hsidesOf.trans (orderSides_of_stop_second hx hw)))
      rwa [Stop.state_after] at hstop
    case refused =>
      have hread := ((readsOnly_openSide n q p r.a u).ok _ _ hx).trans ((readsOnly_openSide n q p r.b v1).ok _ _ hy)
      exact hcorrupt v2 hread (hsidesOf.trans (orderSides_of_none hx hy hnone))
    case sides =>
      rintro k1 k2 h1 h2 rfl rfl swap aw bw ha key arg place wrongType two bad
      have hread := ((readsOnly_openSide n q p r.a u).ok _ _ hx).trans ((readsOnly_openSide n q p r.b v1).ok _ _ hy)
      have hsides := hsidesOf.trans (orderSides_of_some hx hy)
      rw [ordered_eq] at hsides
      have htwo : ∀ c, HoldsSides c aw bw → two c := fun c h => by
        unfold HoldsSides at h
        rwa [sideReg_eq, sideReg_eq] at h
      have hholds := holdsSides_withSides s.nextTid r aw bw
      have hbad : ∀ x v, OnlyReads u v → dispatchCtx q p r u =
          .ok (faultsIn (withSides (recordThread s.nextTid r) aw bw) x (0x80010000 + key) (nr.ruleBase + 4 * key), v) → bad x := fun x v hv hctx =>
        ⟨{ withSides (recordThread s.nextTid r) aw bw with pc := place, pts := p }, htwo _ hholds, rfl,
          dispatch_faults hoff hrec hbound htyp hres hv rfl hctx⟩
      refine ⟨fun htype => ?wrong, fun htype e v3 he => ⟨fun hnone => ?norule, ?found⟩⟩
      case wrong =>
        exact dispatch_faults (c := recordThread s.nextTid r) hoff hrec hbound htyp hres hread rfl
          (dispatchCtx_of_wrongType hsides ((wrongType_iff r k1 k2).mpr htype))
      case norule =>
        subst hnone
        exact hbad _ v3 (hread.trans ((readsOnly_ruleEntry n q p key v2).ok _ _ he))
          (dispatchCtx_of_no_rule hsides (htype ∘ (wrongType_iff r k1 k2).mp) he)
      case found =>
        rintro at_ acc rfl read starts
        have hrule := hread.trans ((readsOnly_ruleEntry n q p key v2).ok _ _ he)
        have hcount := readsOnly_sealedCount n q p acc ha v3
        have hstarts : ∀ w v4, sealedCount n q p acc ha v3 = .ok (some w, v4) → starts w := fun w v4 hw => by
          obtain ⟨t, hexec, hothers, hdeques, htid, hctx⟩ := dispatch_starts hoff hrec hbound htyp hres (hrule.trans (hcount.ok _ _ hw)) rfl
            (dispatchCtx_of_count hsides (htype ∘ (wrongType_iff r k1 k2).mp) he hw)
          refine ⟨t, hexec, hothers, hdeques, htwo _ (hholds.setReg_three (congrArg Ctx.regs hctx)), ?_, htid, ?_⟩
          · rw [hctx]
            exact (setReg_get _ 3 3 w).trans (if_pos (by decide))
          · rw [hctx]
            rfl
        refine ⟨fun hplain => hstarts 0 v3 (sealedCount_of_unsealed hplain v3), fun hacc hs => ⟨fun k l v4 hl => ?_, fun f left hf => ?_⟩⟩
        · exact hstarts _ v4 (sealedCount_of_read hacc hs hl)
        · have hnone := sealedCount_of_fault hacc hs hf
          exact hbad _ _ (hrule.trans (hcount.ok _ _ hnone))
            (dispatchCtx_of_no_count hsides (htype ∘ (wrongType_iff r k1 k2).mp) he hnone)
  case returned =>
    intro h hfree hcoin
    refine ⟨_, dispatch_of_returned hoff hrec hfree h, ?_⟩
    simp only [returnRecs, List.foldl_cons, List.foldl_nil, sendReturn, if_neg hcoin]
    exact ⟨rfl, rfl, rfl⟩
  case free =>
    intro h
    exact ⟨_, dispatch_of_free hoff hrec h, journal_berths _ _, journal_deques _ _, journal_msgs _ _⟩
  case side =>
    intro w v
    exact ⟨fun h => openSide_of_imm h v, fun h k l v' hread => openSide_of_read h hread, fun h f left hread => openSide_of_fault h hread⟩
  case rule =>
    intro key v
    exact ⟨fun k l v' hread => ruleEntry_of_read hread, fun f left hread => ruleEntry_of_fault hread⟩

end Sys2Proof.Machine
end

section
/-!
PROOFS. The checks of a thread's access: the reads that they make, and that those of a purse access depend on few fields of the state
(08 R141 R142 R146, 11 R188 R189).
-/

namespace Sys2Proof.Machine
open Sys2Proof Sys2Proof.Say

/-! ### The checks only read -/

theorem readsOnly_placeOf (s : State) (aw : Word) (n : Nat) (nd : Need) : ReadsOnly s (placeOf s aw n nd) := by
  unfold placeOf
  split
  · exact readsOnly_failAt _ _
  · exact readsOnly_globAccess s _ _ _ n nd
  · split
    · exact readsOnly_ok _ (.refl s)
    · exact readsOnly_failAt _ _

theorem readsOnly_placesOf (nd : Need) (l : List (Word × Nat)) (s : State) : ReadsOnly s (placesOf nd l s) := by
  induction l generalizing s with
  | nil => exact readsOnly_ok _ (.refl s)
  | cons e l ih =>
    refine .reading (readsOnly_placeOf s e.1 e.2 nd) fun k t _ => ?_
    have hrest := ih t
    cases hl : placesOf nd l t with
    | error e => exact readsOnly_error (hrest.error e hl).1 (hrest.error e hl).2
    | ok x => exact readsOnly_ok _ (hrest.ok x.1 x.2 hl)

theorem readsOnly_access (s : State) (aw : Word) (n al : Nat) (po : Bool) (nd : Need) (ow : Bool) (unit : Nat) :
    ReadsOnly s (access s aw n al po nd ow unit) := by
  unfold access
  cases formOf aw with
  | none => exact readsOnly_failAt _ _
  | some f =>
    dsimp only
    refine readsOnly_ite (readsOnly_failAt _ _) (readsOnly_ite (readsOnly_failAt _ _) (.reading (readsOnly_placesOf nd _ s) fun ks t _ => ?_))
    refine readsOnly_ite (readsOnly_waitOn (by decide)) (readsOnly_ite (readsOnly_failAt _ _) ?_)
    split
    · exact readsOnly_waitOn (by simp)
    · exact readsOnly_ok _ (.refl t)

theorem readsOnly_access1 (s : State) (aw : Word) (n al : Nat) (po : Bool) (nd : Need) : ReadsOnly s (access1 s aw n al po nd) := by
  have haccess := readsOnly_access s aw n al po nd false 64
  unfold access1
  split
  · rename_i e he
    exact readsOnly_error (haccess.error e he).1 (haccess.error e he).2
  · rename_i he
    exact readsOnly_ok _ (haccess.ok _ _ he)

/-! ### An access of one part -/

/-- A purse form: any but a global one. -/
def Form.IsPurse (f : Form) : Prop := ∀ va, f ≠ .glob va

section OnePart
variable {s u : State} {aw : Word} {n al k : Nat} {po : Bool} {nd : Need}

theorem placesOf_single {r : Run (Nat × State)} (h : placeOf s aw n nd = r) :
    placesOf nd [(aw, n)] s = reading r fun k t => .ok ([(k, n)], t) := by
  rw [placesOf, h]
  rfl

/-- An access of one part, whose form may be used: its alignment, its place, and the checks of that place. -/
theorem access1_eq {f : Form} (hn : n ≤ 64) (hf : formOf aw = some f) (hpo : po = true → f.IsPurse) : access1 s aw n al po nd =
    if aw.toNat % al ≠ 0 then failAt .align (faultAddr aw)
    else reading (placeOf s aw n nd) fun k t =>
      if heldTile t k n then waitOn .held
      else if poisoned t k n then failAt .poison (faultAddr aw)
      else if answeredRehome t nd k then waitOn (.rehomed k)
      else .ok (k, t) := by
  have hparts : partsOf aw n 64 = [(aw, n)] := if_pos hn
  unfold access1 access
  rw [hf]
  dsimp only
  rw [if_neg ?bar, hparts, placesOf_single rfl]
  case bar =>
    intro h
    obtain ⟨h1, h2⟩ := Bool.and_eq_true_iff.mp h
    cases f with
    | glob va => exact hpo h1 va rfl
    | _ => cases h2
  by_cases hal : aw.toNat % al = 0
  · cases placeOf s aw n nd with
    | error e => simp [hal]
    | ok x =>
      obtain ⟨k, t⟩ := x
      simp only [hal, ne_eq, not_true_eq_false, if_false, reading_ok, stopsAt_ok]
      by_cases hheld : heldTile t k n = true
      · simp [hheld, waitOn]
      · by_cases hpoison : poisoned t k n = true
        · simp [hheld, hpoison, failAt]
        · by_cases hrehome : answeredRehome t nd k = true <;> simp [hheld, hpoison, hrehome, waitOn]
  · simp [hal, failAt]

/-- A word that no form reads names no place. -/
theorem access1_of_no_form (h : formOf aw = none) : access1 s aw n al po nd = failAt .access aw := by
  unfold access1 access
  rw [h]
  rfl

theorem access1_of_glob_refused {va : Nat} (h : formOf aw = some (.glob va)) : access1 s aw n al true nd = failAt .access (faultAddr aw) := by
  unfold access1 access
  rw [h]
  rfl

/-- What an access that passes its checks has passed. -/
structure Passes (s : State) (aw : Word) (n al : Nat) (po : Bool) (nd : Need) (k : Nat) (u : State) : Prop where
  form : ∃ f, formOf aw = some f ∧ (po = true → f.IsPurse)
  aligned : aw.toNat % al = 0
  place : placeOf s aw n nd = .ok (k, u)
  unheld : heldTile u k n = false
  sound : poisoned u k n = false
  home : answeredRehome u nd k = false

theorem access1_ok_iff (hn : n ≤ 64) : access1 s aw n al po nd = .ok (k, u) ↔ Passes s aw n al po nd k u := by
  constructor
  · intro h
    cases hf : formOf aw with
    | none => rw [access1_of_no_form hf] at h; cases h
    | some f =>
      have hpo : po = true → f.IsPurse := by
        rintro rfl va rfl
        rw [access1_of_glob_refused hf] at h
        cases h
      rw [access1_eq hn hf hpo] at h
      split at h
      · cases h
      · rename_i hal
        cases hp : placeOf s aw n nd with
        | error e => rw [hp] at h; cases h
        | ok x =>
          obtain ⟨j, t⟩ := x
          rw [hp, reading_ok, stopsAt_ok_iff] at h
          split at h
          · cases h
          · split at h
            · cases h
            · split at h
              · cases h
              · rename_i hheld hpoison hrehome
                cases h
                exact ⟨⟨f, hf, hpo⟩, not_not.mp hal, hp, by simpa using hheld, by simpa using hpoison, by simpa using hrehome⟩
  · rintro ⟨⟨f, hf, hpo⟩, hal, hplace, hheld, hpoison, hrehome⟩
    rw [access1_eq hn hf hpo, if_neg (not_not.mpr hal), hplace]
    simp [hheld, hpoison, hrehome]

end OnePart

/-! ### Purse keys and global keys -/

theorem isPurse_of_physThread {s : State} {nr : NetRec} {pa n : Nat} (h : physThread s nr pa n = .ok ()) : isPurse pa = false := by
  by_contra hp
  have hbig : 2 ^ 60 ≤ pa := by simpa [isPurse] using hp
  have hregion : regionOf pa = .none := by
    have hhbm : ¬pa < hbmTop := by unfold hbmTop; omega
    have hvault : ¬isVault pa = true := fun h => by
      have htop : pa < vaultBase + 2 ^ 35 := of_decide_eq_true (Bool.and_eq_true_iff.mp h).2
      unfold vaultBase at htop
      omega
    have hwindow : ¬pa < 2 ^ 52 := by omega
    rw [regionOf, if_neg hhbm, if_neg hvault, if_neg fun h => hwindow h.2, if_neg fun h => hwindow h.2, if_neg fun h => hwindow h.2]
  rw [physThread, hregion] at h
  cases h

theorem isPurse_of_globAccess {s u : State} {q n va k pa : Nat} {nd : Need} (h : globAccess s q n va k nd = .ok (pa, u)) : isPurse pa = false := by
  unfold globAccess at h
  dsimp only at h
  split at h
  · cases h
  · rw [stopsAt_ok_iff] at h
    split at h
    · cases h
    · split at h
      · cases h
      · split at h
        · cases h
        · rename_i hphys
          cases h
          exact isPurse_of_physThread hphys

/-- A purse place leaves the state as it is. -/
theorem placeOf_purse {s u : State} {aw : Word} {n k : Nat} {nd : Need} (h : placeOf s aw n nd = .ok (k, u)) (hk : isPurse k = true) :
    u = s ∧ ∃ f, formOf aw = some f ∧ f.IsPurse ∧ purseAccess s s.net s.quad f n = some k := by
  unfold placeOf at h
  split at h
  · cases h
  · rw [isPurse_of_globAccess h] at hk
    cases hk
  · rename_i f hglob hf
    split at h
    · rename_i hacc
      cases h
      exact ⟨rfl, f, hf, hglob, hacc⟩
    · cases h

theorem access1_purse {s u : State} {aw : Word} {n al k : Nat} {po : Bool} {nd : Need} (hn : n ≤ 64) (h : access1 s aw n al po nd = .ok (k, u))
    (hk : isPurse k = true) : u = s :=
  (placeOf_purse ((access1_ok_iff hn).mp h).place hk).1

theorem isPurse_of_isLocal {s : State} {k : Nat} (h : isLocal s k = true) : isPurse k = true := (Bool.and_eq_true_iff.mp h).1

end Sys2Proof.Machine
end

section
/-!
PROOFS. What a thread's accesses leave as it is: its reads, its read-modify-writes, and the writes that a quad's hardware makes at a bank for it
(09 R165 R172, 15 R268).
-/

namespace Sys2Proof.Machine
open Sys2Proof Sys2Proof.Say

/-! ### Accesses in a state -/

/-- s with everything that a thread's accesses may change taken from t: memory and its times, copies, translations, choices, counts, pools of cells, and
    the berths. -/
def State.accessAs (s t : State) : State :=
  { s with mem := t.mem, stores := t.stores, lines := t.lines, copies := t.copies, stalePorts := t.stalePorts, tlb := t.tlb, perf := t.perf
           poison := t.poison, berths := t.berths, floors := t.floors, netqs := t.netqs, tape := t.tape, nfree := t.nfree }

/-- Only accesses of the issuing thread, and of the hardware for it, lie between s and t. -/
structure Accesses (s t : State) : Prop where
  rest : t = s.accessAs t
  others : ∀ b, b ≠ s.cur → BerthStands s t b
  thread : t.th = { s.th with pts := t.th.pts, wait := t.th.wait, touched := t.th.touched }
  time : s.th.pts ≤ t.th.pts
  ready : s.th.wait = .ready → t.th.wait = .ready
  parked : ∀ n q, (t.netq n q).parked = (s.netq n q).parked

section Fields
variable {s t : State} (h : Accesses s t)
include h

theorem Accesses.cur : t.cur = s.cur := (congrArg State.cur h.rest).trans rfl
theorem Accesses.nets : t.nets = s.nets := (congrArg State.nets h.rest).trans rfl
theorem Accesses.fused : t.fused = s.fused := (congrArg State.fused h.rest).trans rfl
theorem Accesses.empties : t.empties = s.empties := (congrArg State.empties h.rest).trans rfl
theorem Accesses.waits : t.waits = s.waits := (congrArg State.waits h.rest).trans rfl
theorem Accesses.deques : t.deques = s.deques := (congrArg State.deques h.rest).trans rfl
theorem Accesses.spills : t.spills = s.spills := (congrArg State.spills h.rest).trans rfl
theorem Accesses.msgs : t.msgs = s.msgs := (congrArg State.msgs h.rest).trans rfl
theorem Accesses.poolInUse : poolInUse t = poolInUse s := (congrArg Machine.poolInUse h.rest).trans rfl
theorem Accesses.quad : t.quad = s.quad := by rw [State.quad, State.quad, h.cur]
theorem Accesses.netRec (n : Nat) : t.netRec n = s.netRec n := by rw [State.netRec, State.netRec, h.nets]
theorem Accesses.net_th : t.th.net = s.th.net := by rw [h.thread]
theorem Accesses.cls_th : t.th.cls = s.th.cls := by rw [h.thread]
theorem Accesses.tid_th : t.th.tid = s.th.tid := by rw [h.thread]
theorem Accesses.coin_th : t.th.coin = s.th.coin := by rw [h.thread]
theorem Accesses.lent_th : t.th.lent = s.th.lent := by rw [h.thread]
theorem Accesses.pc_th : t.th.pc = s.th.pc := by rw [h.thread]
theorem Accesses.range_th : t.th.range = s.th.range := by rw [h.thread]
theorem Accesses.regs_th : t.th.regs = s.th.regs := by rw [h.thread]
theorem Accesses.x (r : Reg) : t.x r = s.x r := by rw [State.x, State.x, h.regs_th]

end Fields

theorem Accesses.refl (s : State) : Accesses s s := ⟨rfl, fun _ _ => .inl rfl, rfl, le_rfl, id, fun _ _ => rfl⟩

theorem Accesses.trans {s t u : State} (h : Accesses s t) (h' : Accesses t u) : Accesses s u := by
  refine ⟨h'.rest.trans ?_, fun b hb => berthStands_trans (h.others b hb) (h'.others b (by rw [h.cur]; exact hb)), h'.thread.trans ?_,
    h.time.trans h'.time, h'.ready ∘ h.ready, fun n q => (h'.parked n q).trans (h.parked n q)⟩
  · rw [h.rest]
    rfl
  · rw [h.thread]

/-- Accesses that change no berth and no pool. -/
theorem Accesses.of_berths {s t : State} (hrest : t = s.accessAs t) (hb : t.berths = s.berths) (hn : t.netqs = s.netqs) : Accesses s t := by
  have hcur : t.cur = s.cur := (congrArg State.cur hrest).trans rfl
  have hth : t.th = s.th := by simp only [State.th, State.ctx, State.berth, hb, hcur]
  exact ⟨hrest, fun _ _ => .inl (by rw [hb]), by rw [hth], by rw [hth], by rw [hth]; exact id, fun _ _ => by rw [State.netq, State.netq, hn]⟩

/-- Accesses that change of the berths the issuing thread's alone, and no pool. -/
theorem Accesses.of_thread {s t : State} (hrest : t = s.accessAs t) (hothers : ∀ b, b ≠ s.cur → Tbl.get? t.berths b = Tbl.get? s.berths b)
    (hn : t.netqs = s.netqs) (hth : t.th = { s.th with pts := t.th.pts, touched := t.th.touched }) (htime : s.th.pts ≤ t.th.pts) : Accesses s t := by
  exact ⟨hrest, fun b hb => .inl (hothers b hb), by rw [hth], htime, by rw [hth]; exact id, fun _ _ => by rw [State.netq, State.netq, hn]⟩

theorem berthStands_ctx {s t : State} {b : Nat} (h : BerthStands s t b) :
    t.ctx b = s.ctx b ∨ (s.ctx b).wait ≠ .ready ∧ t.ctx b = { s.ctx b with wait := .reply } := by
  rcases h with h | ⟨x, k, n, w, hx, hw, ht⟩
  · left
    simp only [State.ctx, State.berth, Tbl.getD, h]
  · right
    simp only [State.ctx, State.berth, Tbl.getD, hx, ht, Option.getD_some]
    exact ⟨fun h => (by rw [h] at hw; cases hw), trivial⟩

theorem OnlyReads.accesses {s t : State} (h : OnlyReads s t) : Accesses s t := by
  have hrest : t = s.accessAs t := by
    have := h.rest
    rw [this]
    rfl
  have hnq : t.netqs = s.netqs := (congrArg State.netqs h.rest).trans rfl
  have hcur : t.th = t.ctx s.cur := by rw [State.th, h.cur]
  have hparked : ∀ n q, (t.netq n q).parked = (s.netq n q).parked := fun n q => by rw [State.netq, State.netq, hnq]
  rcases berthStands_ctx (h.berths s.cur) with hc | ⟨hw, hc⟩
  · have hth : t.th = s.th := hcur.trans hc
    exact ⟨hrest, fun b _ => h.berths b, by rw [hth], by rw [hth], by rw [hth]; exact id, hparked⟩
  · have hth : t.th = { s.th with wait := .reply } := hcur.trans hc
    exact ⟨hrest, fun b _ => h.berths b, by rw [hth], by rw [hth], fun hr => absurd hr hw, hparked⟩

/-! ### The steps of an access -/

theorem raise_th (s : State) (p : Nat) : (s.raise s.cur p).th = { s.th with pts := max s.th.pts p } := State.ctx_raise_same s s.cur p

theorem accesses_raise (s : State) (p : Nat) : Accesses s (s.raise s.cur p) := by
  refine .of_thread rfl (fun b hb => s.get?_raise_ne p hb) rfl ?_ ?_ <;> rw [raise_th]
  exact le_max_left _ _

/-- s once the stores of a global key's line have settled, where its home performs what follows. -/
def homed (s : State) (k : Nat) : State := if isPurse k then s else settleLine s (k / 256)

theorem homed_rest (s : State) (k : Nat) : homed s k = { s with mem := (homed s k).mem, stores := (homed s k).stores } := by
  unfold homed
  split
  · rfl
  · rw [settleLine_eq]

theorem homed_mem (s : State) (k : Nat) : (homed s k).mem = if isPurse k then s.mem else (settleLine s (k / 256)).mem := by
  unfold homed
  split <;> rfl

theorem accesses_homed (s : State) (k : Nat) : Accesses s (homed s k) := by
  have hrest := homed_rest s k
  refine .of_berths ?_ ?_ ?_ <;> rw [hrest]
  rfl

/-- What a read-modify-write leaves in memory. -/
def rmwMem (m : List Host.Cell) (k : Nat) : Option (List Byte) → List Host.Cell
  | some bs => memWrite m k bs
  | none => m

/-- s with its memory and times replaced. -/
def State.wrote (s : State) (m : List Host.Cell) (lines : Tbl LineTime) : State := { s with mem := m, lines := lines }

theorem accesses_wrote (s : State) (m : List Host.Cell) (lines : Tbl LineTime) : Accesses s (s.wrote m lines) := .of_berths rfl rfl rfl

/-- A read-modify-write of the issuing thread: what it answers, and what it leaves. -/
theorem clrRmw_eq (k n : Nat) (f : List Byte → Option (List Byte)) (s : State) : ∃ lines p, clrRmw k n f s =
    (memRead (homed s k).mem k n, ((homed s k).wrote (rmwMem (homed s k).mem k (f (memRead (homed s k).mem k n))) lines).raise (homed s k).cur p) := by
  unfold clrRmw homed
  by_cases hk : isPurse k = true
  · simp only [hk, if_true]
    cases f (memRead s.mem k n) <;> exact ⟨_, _, rfl⟩
  · simp only [hk, Bool.false_eq_true, if_false]
    cases f (memRead (settleLine s (k / 256)).mem k n) <;> exact ⟨_, _, rfl⟩

section Rmw
variable (k n : Nat) (f : List Byte → Option (List Byte)) (s : State)

theorem clrRmw_answer : (clrRmw k n f s).1 = memRead (homed s k).mem k n := by
  obtain ⟨lines, p, h⟩ := clrRmw_eq k n f s
  rw [h]

theorem clrRmw_mem : (clrRmw k n f s).2.mem = rmwMem (homed s k).mem k (f (memRead (homed s k).mem k n)) := by
  obtain ⟨lines, p, h⟩ := clrRmw_eq k n f s
  rw [h]
  rfl

theorem clrRmw_stores : (clrRmw k n f s).2.stores = (homed s k).stores := by
  obtain ⟨lines, p, h⟩ := clrRmw_eq k n f s
  rw [h]
  rfl

/-- The state that the thread's program time is raised in. -/
theorem clrRmw_raises : ∃ m lines p, (clrRmw k n f s).2 = ((homed s k).wrote m lines).raise ((homed s k).wrote m lines).cur p := by
  obtain ⟨lines, p, h⟩ := clrRmw_eq k n f s
  exact ⟨_, lines, p, by rw [h]; rfl⟩

theorem accesses_clrRmw : Accesses s (clrRmw k n f s).2 := by
  obtain ⟨m, lines, p, h⟩ := clrRmw_raises k n f s
  rw [h]
  exact ((accesses_homed s k).trans (accesses_wrote _ m lines)).trans (accesses_raise _ p)

theorem clrRmw_th : (clrRmw k n f s).2.th = { s.th with pts := (clrRmw k n f s).2.th.pts } := by
  obtain ⟨m, lines, p, h⟩ := clrRmw_raises k n f s
  have hth : ((homed s k).wrote m lines).th = s.th := by rw [homed_rest]; rfl
  rw [h, raise_th, hth]

theorem clrRmw_wait : (clrRmw k n f s).2.th.wait = s.th.wait := by rw [clrRmw_th]

end Rmw

/-! ### Publication (09 R171 R172) -/

theorem settleWhere_rest (s : State) (p : Nat → Bool) : settleWhere s p = { s with mem := (settleWhere s p).mem, stores := (settleWhere s p).stores } := by
  unfold settleWhere
  split <;> rfl

theorem mem_settleWhere_stores {s : State} {p : Nat → Bool} {st : Store} (h : st ∈ (settleWhere s p).stores) : st ∈ s.stores ∧ p (st.addr / 256) = false := by
  unfold settleWhere at h
  split at h
  · rename_i hnone
    rw [hnone] at h
    cases h
  · simpa using h

theorem publish_th (sc : Scope) (s : State) : (publish sc s).th = { s.th with touched := (publish sc s).th.touched } := by
  have hth : ∀ (t : Nat) (p : Nat → Bool), (publishWhere s t p).th = s.th := fun t p => by
    rw [publishWhere, settleWhere_rest]
    rfl
  simp only [publish, State.th_setTh]
  rw [hth]

theorem publish_wait (sc : Scope) (s : State) : (publish sc s).th.wait = s.th.wait := by rw [publish_th]

theorem accesses_publish (sc : Scope) (s : State) : Accesses s (publish sc s) := by
  have hothers : ∀ b, b ≠ s.cur → Tbl.get? (publish sc s).berths b = Tbl.get? s.berths b := fun b hb => by
    unfold publish
    dsimp only
    rw [publishWhere, settleWhere_rest]
    exact State.get?_setTh_ne _ _ hb
  refine .of_thread ?_ hothers ?_ ?_ ?_
  · unfold publish
    dsimp only
    rw [publishWhere, settleWhere_rest]
    rfl
  · unfold publish
    dsimp only
    rw [publishWhere, settleWhere_rest]
    rfl
  · rw [publish_th]
  · rw [publish_th]

/-- A publication to the whole module leaves no store of the thread. -/
theorem published_publish (s : State) : Published s (publish .module s) := by
  intro st hst htid
  obtain ⟨hmem, hline⟩ := mem_settleWhere_stores (s := s) hst
  have hlisted : st.addr / 256 ∈ (s.stores.filter (fun x => x.tid == s.th.tid && true)).map (fun x => x.addr / 256) :=
    List.mem_map.mpr ⟨st, List.mem_filter.mpr ⟨hmem, by simp [htid]⟩, rfl⟩
  rw [List.contains_iff_mem.mpr hlisted] at hline
  cases hline

theorem mem_homed_stores {s : State} {k : Nat} {st : Store} (h : st ∈ (homed s k).stores) : st ∈ s.stores := by
  unfold homed at h
  split at h
  · exact h
  · exact (mem_settleWhere_stores h).1

/-! ### Writes at a bank, and cells of a pool (15 R262) -/

theorem accesses_of_bank {s t : State} (h : t = s.bankAs t) : Accesses s t := by
  refine .of_berths ?_ ((congrArg State.berths h).trans rfl) ((congrArg State.netqs h).trans rfl)
  rw [h]
  rfl

theorem accesses_bankStore (p : Nat) (s : State) (k : Nat) (bs : List Byte) : Accesses s (bankStore p s k bs).2 := accesses_of_bank (bankStore_rest p s k bs)

theorem accesses_raiseCount (k p : Nat) (h : Word) (s : State) : Accesses s (raiseCount k p h s).2 := by
  unfold raiseCount
  split
  · exact .refl s
  · exact ((onlyReads_settleLine s _).accesses).trans (accesses_bankStore _ _ _ _)

theorem netq_setNetq (s : State) (n q n' q' : Nat) (x : NetQuad) :
    (s.setNetq n q x).netq n' q' = if 2 ^ 18 * n' + q' = 2 ^ 18 * n + q then x else s.netq n' q' := by
  unfold State.netq State.setNetq
  split
  · rename_i h
    rw [h, Tbl.getD_set_same]
  · rename_i h
    exact Tbl.getD_set_ne _ _ _ h

theorem accesses_allocNode {n q size off : Nat} {s t : State} (h : allocNode n q size s = some (off, t)) : Accesses s t := by
  unfold allocNode at h
  have hreads := onlyReads_choice s (2 ^ 32)
  have hchoice := hreads.accesses
  have hnq : (choice s (2 ^ 32)).2.netqs = s.netqs := (congrArg State.netqs hreads.rest).trans rfl
  revert h
  generalize choice s (2 ^ 32) = c at hchoice hnq
  obtain ⟨c, u⟩ := c
  have hkey : ∀ {n' q' : Nat}, 2 ^ 18 * n' + q' = 2 ^ 18 * n + q → (s.netq n q).parked = (u.netq n' q').parked := fun h => by
    rw [State.netq, State.netq, h, hnq]
  intro h
  dsimp only at h
  split at h
  · cases h
  · cases h
    refine hchoice.trans ⟨rfl, fun _ _ => .inl rfl, rfl, le_rfl, id, fun n' q' => ?_⟩
    rw [netq_setNetq]
    split
    · rename_i heq
      exact hkey heq
    · rfl

theorem accesses_splitNodes {n dst p : Nat} {body bw rw : Word} {info : Option (Word × List Byte)} {lo hi time : Nat} {s t : State}
    (h : splitNodes n dst p body info lo hi s = some (bw, rw, time, t)) : Accesses s t := by
  unfold splitNodes at h
  dsimp only at h
  split at h
  · cases h
  · rename_i ro u halloc
    have hrange : ∀ k bs, Accesses s (bankStore p u k bs).2 := fun k bs => (accesses_allocNode halloc).trans (accesses_bankStore p u k bs)
    split at h
    · cases h
      exact hrange _ _
    · split at h
      · cases h
      · rename_i halloc'
        cases h
        exact ((hrange _ _).trans (accesses_allocNode halloc')).trans (accesses_bankStore p _ _ _)

end Sys2Proof.Machine
end

section
/-!
PROOFS. Ranges: `rnext` draws the next iteration, and `rsplit` gives away the upper half (02 R35, 15 R266 R268).
-/

namespace Sys2Proof.Machine
open Sys2Proof Sys2Proof.Say

/-! ### The end of an instruction that writes one register -/

section Ends
variable (s : State) (d : Reg) (v : Word)

theorem x_xw_iff (r : Reg) : (s.xw d v).x r = if r = d ∧ r ≠ 0 then v else s.x r := by
  rw [State.x_xw]
  by_cases h : d = r
  · subst h
    rfl
  · rw [if_neg fun e => h e.1, if_neg fun e => h e.1.symm]

theorem awayUnless_rest (here : Bool) : s.awayUnless here = { s with berths := (s.awayUnless here).berths } := by
  cases here <;> rfl

theorem awayUnless_th (here : Bool) : (s.awayUnless here).th =
    { s.th with wait := if here then s.th.wait else .reply, waited := if here then s.th.waited else 0 } := by
  cases here
  · exact State.ctx_leave_same s s.cur .reply
  · rfl

theorem get?_awayUnless_ne (here : Bool) {b : Nat} (h : b ≠ s.cur) : Tbl.get? (s.awayUnless here).berths b = Tbl.get? s.berths b := by
  cases here
  · exact s.get?_leave_ne .reply h
  · rfl

theorem x_awayUnless (here : Bool) (r : Reg) : (s.awayUnless here).x r = s.x r := by
  rw [State.x, State.x, awayUnless_th]

/-- s once an instruction has written v into xd and passed, in rotation where `here` holds. -/
def State.answers (here : Bool) : State := ((s.xw d v).pass 4).awayUnless here

theorem answers_rest (here : Bool) : s.answers d v here = { s with berths := (s.answers d v here).berths } := by
  rw [State.answers, awayUnless_rest]
  rfl

theorem answers_mem (here : Bool) : (s.answers d v here).mem = s.mem := by rw [answers_rest]
theorem answers_stores (here : Bool) : (s.answers d v here).stores = s.stores := by rw [answers_rest]
theorem answers_empties (here : Bool) : (s.answers d v here).empties = s.empties := by rw [answers_rest]
theorem answers_waits (here : Bool) : (s.answers d v here).waits = s.waits := by rw [answers_rest]
theorem answers_deques (here : Bool) : (s.answers d v here).deques = s.deques := by rw [answers_rest]
theorem answers_msgs (here : Bool) : (s.answers d v here).msgs = s.msgs := by rw [answers_rest]

theorem answers_th (here : Bool) : (s.answers d v here).th =
    { s.th with regs := setReg s.th.regs d v, pc := s.th.pc + 4, wait := if here then s.th.wait else .reply, waited := if here then s.th.waited else 0 } := by
  rw [State.answers, awayUnless_th, State.th_xw_pass]
  rfl

theorem answers_x (here : Bool) (r : Reg) : (s.answers d v here).x r = if r = d ∧ r ≠ 0 then v else s.x r := by
  rw [State.answers, x_awayUnless, State.x_pass, x_xw_iff]

theorem get?_answers_ne (here : Bool) {b : Nat} (h : b ≠ s.cur) : Tbl.get? (s.answers d v here).berths b = Tbl.get? s.berths b :=
  (get?_awayUnless_ne ((s.xw d v).pass 4) here h).trans (s.get?_xw_pass_ne d v 4 h)

/-- An instruction that writes one register and passes. -/
theorem writesX_xw_pass : WritesX 4 d v s (.next ((s.xw d v).pass 4)) := by
  have hth := s.th_xw_pass d v 4
  refine ⟨_, rfl, ⟨rfl, ?_, fun b hb => s.get?_xw_pass_ne d v 4 hb, fun _ => rfl⟩, fun r => by rw [State.x_pass, x_xw_iff]⟩
  rw [hth]
  simp [State.pass, State.xw, State.setTh, State.setCtx, State.setBerth, State.berth, State.th, State.ctx, Tbl.getD]

end Ends

theorem Accesses.alone_answers {s t : State} (h : Accesses s t) (d : Reg) (v : Word) (here : Bool) : Alone s (t.answers d v here) := by
  refine ⟨fun b hb => ?_, by rw [answers_empties, h.empties], by rw [answers_waits, h.waits]⟩
  rw [BerthStands, get?_answers_ne t d v here (by rw [h.cur]; exact hb)]
  exact h.others b hb

section AccessesAnswer
variable {s t : State} (h : Accesses s t) (d : Reg) (v : Word) (here : Bool)
include h

theorem Accesses.coin_answers : (t.answers d v here).th.coin = s.th.coin := by rw [answers_th]; exact h.coin_th
theorem Accesses.pc_answers : (t.answers d v here).th.pc = s.th.pc + 4 := by rw [answers_th, ← h.pc_th]
theorem Accesses.range_answers : (t.answers d v here).th.range = s.th.range := by rw [answers_th]; exact h.range_th
theorem Accesses.x_answers (r : Reg) : (t.answers d v here).x r = if r = d ∧ r ≠ 0 then v else s.x r := by rw [answers_x, h.x]

end AccessesAnswer

/-! ### rnext (15 R266) -/

/-- What `rnext` writes over a RANGE granule: lo raised by one, unless the range is at its end. -/
def drawn (g : List Byte) : Option (List Byte) := if dbl g 0 < dbl g 8 then some (leBytes 8 (dbl g 0 + 1) ++ g.drop 8) else none

/-- What `rnext` answers of it. -/
def drawAnswer (g : List Byte) : Word := if dbl g 0 < dbl g 8 then BitVec.ofNat 64 (dbl g 0) else -1

section Next
variable {s u : State} {d : Reg} {body node : Word} {k : Nat}

theorem exec_rnext_of_no_range (h : s.th.range = none) : exec (.rnext d) s = .next ((s.xw d (-1)).pass 4) := by
  show finish s (rnextRun d s) = _
  rw [rnextRun, h]
  rfl

/-- The state in which `rnext` has drawn: its stores are published, and the granule is written. -/
def drew (k : Nat) (u : State) : State := (clrRmw k 16 drawn (publish .module u)).2

/-- The granule that it finds. -/
def drawnFrom (k : Nat) (u : State) : List Byte := memRead (homed (publish .module u) k).mem k 16

theorem exec_rnext_of_range (hr : s.th.range = some (body, node)) (hg : rangeGranule s node = .ok (k, u)) :
    exec (.rnext d) s = .next ((drew k u).answers d (drawAnswer (drawnFrom k u)) (isLocal s k && !hasStores s)) := by
  rw [drawnFrom, ← clrRmw_answer k 16 drawn (publish .module u)]
  show finish s (rnextRun d s) = _
  rw [rnextRun, hr]
  dsimp only
  rw [hg]
  rfl

end Next

/-- The bytes of memory once a draw has been written back. -/
theorem memGet_rmwMem_drawn (m : List Host.Cell) (k x : Nat) :
    let g := memRead m k 16
    memGet (rmwMem m k (drawn g)) x = if dbl g 0 < dbl g 8 ∧ k ≤ x ∧ x < k + 8 then BitVec.ofNat 8 ((dbl g 0 + 1) / 256 ^ (x - k)) else memGet m x := by
  intro g
  by_cases hlt : dbl g 0 < dbl g 8
  · rw [drawn, if_pos hlt, rmwMem, memGet_memWrite]
    have hlen : (leBytes 8 (dbl g 0 + 1) ++ g.drop 8).length = 16 := by simp [g]
    rw [hlen]
    by_cases hlow : k ≤ x ∧ x < k + 8
    · rw [if_pos (by omega), if_pos ⟨hlt, hlow⟩, List.getD_append _ _ _ _ (by simp; omega), leBytes_getD _ _ _ (by omega)]
    · rw [if_neg fun h : dbl g 0 < dbl g 8 ∧ k ≤ x ∧ x < k + 8 => hlow h.2]
      split
      · have hhigh : k + 8 ≤ x := by omega
        rw [List.getD_append_right _ _ _ _ (by simp; omega), leBytes_length, List.getD_eq_getElem?_getD, List.getElem?_drop,
          ← List.getD_eq_getElem?_getD, show 8 + (x - k - 8) = x - k by omega, memRead_getD _ _ _ _ (by omega)]
        congr 1
        omega
      · rfl
  · rw [drawn, if_neg hlt, rmwMem, if_neg fun h => hlt h.1]

theorem rangeGranule_onlyReads {s u : State} {node : Word} {k : Nat} (h : rangeGranule s node = .ok (k, u)) : OnlyReads s u :=
  (readsOnly_access1 s _ 16 16 false needRW).ok k u h

section Drew
variable {s u : State} {node : Word} {k : Nat} (hg : rangeGranule s node = .ok (k, u))

include hg in
theorem accesses_drew : Accesses s (drew k u) :=
  ((rangeGranule_onlyReads hg).accesses.trans (accesses_publish .module u)).trans (accesses_clrRmw k 16 drawn _)

include hg in
theorem published_drew : Published s (drew k u) := by
  intro st hst
  rw [drew, clrRmw_stores] at hst
  rw [← (rangeGranule_onlyReads hg).accesses.tid_th]
  exact published_publish u st (mem_homed_stores hst)

theorem drew_mem (k : Nat) (u : State) : (drew k u).mem = rmwMem (homed (publish .module u) k).mem k (drawn (drawnFrom k u)) := clrRmw_mem k 16 drawn _

theorem drew_wait (k : Nat) (u : State) : (drew k u).th.wait = u.th.wait := by
  rw [drew, clrRmw_wait, publish_wait]

include hg in
/-- A draw from the own purse leaves the thread in rotation, where it has no store to publish. -/
theorem drew_answers_wait (d : Reg) (v : Word) : ((drew k u).answers d v (isLocal s k && !hasStores s)).th.wait =
    if isLocal s k && !hasStores s then s.th.wait else .reply := by
  rw [answers_th]
  dsimp only
  rw [drew_wait]
  by_cases hlocal : isLocal s k = true
  · rw [access1_purse (by decide) hg (isPurse_of_isLocal hlocal)]
  · simp [hlocal]

end Drew

end Sys2Proof.Machine
end

section
/-!
PROOFS. The pieces of a split of work: its target, its coin, and where its record goes (13 R238 R239, 14 R251, 15 R264 R268).
-/

namespace Sys2Proof.Machine
open Sys2Proof Sys2Proof.Say

/-! ### The target and the coin -/

section TargetCoin
variable {s t : State} {v : Word} {q : Nat}

theorem bits_high_eq_zero_iff (v : Word) : bits v.toNat 63 18 = 0 ↔ v.toNat < 2 ^ 18 := by
  have := v.isLt
  simp only [bits]
  omega

theorem bits_form (v : Nat) : bits v 17 0 = v % 2 ^ 18 := by simp [bits]

theorem targetQuad_of_names (h : Names s v 18 q) : targetQuad s v 18 = .ok q := by
  rw [targetQuad, if_neg (not_not.mpr ((bits_high_eq_zero_iff v).mpr h.1)), bits_form, h.2]

theorem targetQuad_of_namesNone (h : NamesNone s v 18) : targetQuad s v 18 = fail .access := by
  unfold targetQuad
  split
  · rfl
  · rename_i hlow
    have hlt : v.toNat < 2 ^ 18 := (bits_high_eq_zero_iff v).mp (not_not.mp hlow)
    rw [bits_form, h.resolve_left (by omega)]

theorem coinSplit_of_poor (h : coinNow s < 2) : coinSplit s = .error (.wait .borrow) := by
  unfold coinNow at h
  unfold coinSplit
  by_cases hb : s.th.coin < 2 ∧ s.th.lent ≠ 0
  · rw [if_pos hb] at h
    omega
  · rw [if_neg hb] at h
    rw [if_neg hb]
    dsimp only
    rw [if_pos h]
    rfl

theorem coinSplit_of_rich (h : 2 ≤ coinNow s) :
    coinSplit s = .ok (coinNow s / 2, s.setTh { s.th with coin := coinLeft s, lent := lentNow s }) := by
  unfold coinLeft coinNow lentNow at *
  unfold coinSplit
  by_cases hb : s.th.coin < 2 ∧ s.th.lent ≠ 0
  · simp only [if_pos hb] at h ⊢
    rw [if_neg (by omega)]
  · simp only [if_neg hb] at h ⊢
    rw [if_neg (by omega)]

theorem coinNow_congr (hc : t.th.coin = s.th.coin) (hl : t.th.lent = s.th.lent) : coinNow t = coinNow s ∧ coinLeft t = coinLeft s ∧ lentNow t = lentNow s := by
  simp only [coinLeft, coinNow, lentNow, hc, hl, and_self]

end TargetCoin

/-! ### What decides where a record goes -/

/-- s and t hold the same records, messages and pool blocks, and the same nets stand on their quads; the same berth issues, of the same thread. -/
structure SameWork (s t : State) : Prop where
  cur : t.cur = s.cur
  tid : t.th.tid = s.th.tid
  deques : t.deques = s.deques
  spills : t.spills = s.spills
  msgs : t.msgs = s.msgs
  netState : ∀ n q, t.netStateAt n q = s.netStateAt n q
  full : poolFull t = poolFull s

theorem SameWork.trans {s t u : State} (h : SameWork s t) (h' : SameWork t u) : SameWork s u :=
  ⟨h'.cur.trans h.cur, h'.tid.trans h.tid, h'.deques.trans h.deques, h'.spills.trans h.spills, h'.msgs.trans h.msgs,
    fun n q => (h'.netState n q).trans (h.netState n q), h'.full.trans h.full⟩

theorem Accesses.sameWork {s t : State} (h : Accesses s t) : SameWork s t := by
  refine ⟨h.cur, h.tid_th, h.deques, h.spills, h.msgs, fun n q => ?_, by rw [poolFull, poolFull, h.poolInUse]⟩
  have hregion : (s.netRec n).inRegion t q = (s.netRec n).inRegion s q := by rw [NetRec.inRegion, NetRec.inRegion, h.fused]
  rw [State.netStateAt, State.netStateAt, h.netRec, hregion, h.parked]

theorem sameWork_setTh (s : State) {c : Ctx} (hc : c.tid = s.th.tid) : SameWork s (s.setTh c) :=
  ⟨rfl, by rw [State.th_setTh, hc], rfl, rfl, rfl, fun _ _ => rfl, rfl⟩

theorem sameWork_xw (s : State) (d : Reg) (v : Word) : SameWork s (s.xw d v) := sameWork_setTh s rfl

section Same
variable {s w t : State} (h : SameWork s w)
include h

theorem SameWork.quad : w.quad = s.quad := by rw [State.quad, State.quad, h.cur]
theorem SameWork.deque (q : Nat) : w.deque q = s.deque q := by rw [State.deque, State.deque, h.deques]
theorem SameWork.spill (q : Nat) : w.spill q = s.spill q := by rw [State.spill, State.spill, h.spills]

theorem SameWork.placed {q : Nat} {r : Rec} {wait : Wait} (hp : Placed q r wait w t) : Placed q r wait s t := by
  unfold Placed at *
  simpa only [h.quad, h.deque, h.spill, h.msgs, h.deques, h.spills, h.netState, h.tid] using hp

end Same

/-! ### A record enters a deque, or is sent (13 R238 R239) -/

section Place
variable {q : Nat} {r : Rec} {s : State}

theorem deque_setDeque (l : List Rec) (hl : l ≠ []) : (s.setDeque q l).deque q = l := by
  simp [State.deque, State.setDeque, hl]

theorem get?_setDeque_ne {p : Nat} (l : List Rec) (h : p ≠ q) : Tbl.get? (s.setDeque q l).deques p = Tbl.get? s.deques p := by
  unfold State.setDeque
  split
  · simp [Tbl.get?_del, h]
  · exact Tbl.get?_set_ne _ _ h

theorem pushRec_of_room (hnet : s.netStateAt r.net q ≠ .parked) (hroom : (s.deque q).length < 256) :
    pushRec q r s = some (s.setDeque q (s.deque q ++ [r])) := by
  rw [pushRec, if_neg hnet]
  dsimp only
  rw [if_pos hroom]

theorem pushRec_of_full (hnet : s.netStateAt r.net q ≠ .parked) (hroom : 256 ≤ (s.deque q).length) (hpool : poolFull s = false) :
    pushRec q r s = some ((pushBlock q ((s.deque q).take 128) s).setDeque q ((s.deque q).drop 128 ++ [r])) := by
  rw [pushRec, if_neg hnet]
  dsimp only
  rw [if_neg (by omega), if_neg (by simp [hpool])]

/-- s with everything that the writing of a block of the spill pool may change taken from t. -/
def State.blockAs (s t : State) : State := { s.bankAs t with poolDry := t.poolDry, perf := t.perf }

theorem count_blockAs {s w : State} (d : Nat) (h : w = ({ s with poolDry := false } : State).bankAs w) : count d 5 1 w = s.blockAs (count d 5 1 w) := by
  rw [h]
  rfl

theorem writeBlock_rest (q no : Nat) (l : List Rec) (s : State) : writeBlock q no l s = s.blockAs (writeBlock q no l s) :=
  count_blockAs (dieOf q) (hwWrite_rest _ _ _)

theorem setSpill_blockAs {s w : State} (q b : Nat) (l : List Rec) (h : w = s.blockAs w) :
    w.setSpill q ((b, l) :: w.spill q) = (s.blockAs w).setSpill q ((b, l) :: s.spill q) := by
  rw [← h]
  have hspill : w.spill q = s.spill q := by rw [h]; rfl
  rw [hspill]

theorem pushBlock_eq (q : Nat) (l : List Rec) (s : State) : ∃ u, pushBlock q l s = (s.blockAs u).setSpill q ((freeBlockNo s, l) :: s.spill q) :=
  ⟨_, setSpill_blockAs q (freeBlockNo s) l (writeBlock_rest q (freeBlockNo s) l s)⟩

/-- A record has entered: what of the rest a push leaves. -/
structure Pushed (q : Nat) (r : Rec) (s t : State) : Prop where
  cur : t.cur = s.cur
  berths : t.berths = s.berths
  msgs : t.msgs = s.msgs
  others : ∀ p, p ≠ q → Tbl.get? t.deques p = Tbl.get? s.deques p
  short : (s.deque q).length < 256 → t.deque q = s.deque q ++ [r] ∧ t.spills = s.spills ∧ t.mem = s.mem
  full : 256 ≤ (s.deque q).length → t.deque q = (s.deque q).drop 128 ++ [r] ∧ ∃ b, t.spill q = (b, (s.deque q).take 128) :: s.spill q

theorem pushRec_pushes (hnet : s.netStateAt r.net q ≠ .parked) (hroom : (s.deque q).length < 256 ∨ poolFull s = false) :
    ∃ t, pushRec q r s = some t ∧ Pushed q r s t := by
  by_cases hshort : (s.deque q).length < 256
  · exact ⟨_, pushRec_of_room hnet hshort, rfl, rfl, rfl, fun p hp => get?_setDeque_ne _ hp, fun _ => ⟨deque_setDeque _ (by simp), rfl, rfl⟩,
      fun h => absurd h (by omega)⟩
  · have hfull : 256 ≤ (s.deque q).length := by omega
    obtain ⟨u, hblock⟩ := pushBlock_eq q ((s.deque q).take 128) s
    refine ⟨_, pushRec_of_full hnet hfull (hroom.resolve_left hshort), ?_⟩
    rw [hblock]
    exact ⟨rfl, rfl, rfl, fun p hp => get?_setDeque_ne _ hp, fun h => absurd h hshort, fun _ => ⟨deque_setDeque _ (by simp), freeBlockNo s, by
      simp [State.spill, State.setSpill, State.setDeque]⟩⟩

/-- What a placement leaves of the thread that makes it, and of memory. -/
structure PlacedBy (q : Nat) (r : Rec) (s t : State) : Prop where
  thread : t.th = { s.th with pc := s.th.pc + 4, wait := t.th.wait, waited := t.th.waited }
  placed : Placed q r s.th.wait s t
  memory : q ≠ s.quad ∨ (s.deque q).length < 256 → t.mem = s.mem

theorem pass_th (s : State) (n : Nat) : (s.pass n).th = { s.th with pc := s.th.pc + BitVec.ofNat 56 n } := State.th_setTh s _

theorem sendRec_th (q : Nat) (r : Rec) (s : State) : (sendRec q r s).th = { s.th with pc := s.th.pc + 4, wait := .sent, waited := 0 } := by
  unfold sendRec
  generalize hv : ({ s with msgs := s.msgs ++ [({ src := s.quad, dst := q, body := .redex r (some s.th.tid) } : Msg)] } : State) = v
  have hth : v.th = s.th := by
    rw [← hv]
    rfl
  have hcur : s.cur = (v.pass 4).cur := by
    rw [← hv]
    rfl
  have hpass := pass_th v 4
  rw [hth] at hpass
  rw [hcur]
  refine (State.ctx_leave_same (v.pass 4) (v.pass 4).cur .sent).trans ?_
  show { (v.pass 4).th with wait := .sent, waited := 0 } = _
  rw [hpass]
  rfl

theorem placeRec_places (hroom : q = s.quad → s.netStateAt r.net q ≠ .parked ∧ ((s.deque q).length < 256 ∨ poolFull s = false)) :
    ∃ t, placeRec q r s = .ok t ∧ PlacedBy q r s t := by
  by_cases hq : q = s.quad
  · obtain ⟨hnet, hroom⟩ := hroom hq
    obtain ⟨t, ht, hp⟩ := pushRec_pushes hnet hroom
    have hth : t.th = s.th := by rw [State.th, State.th, State.ctx, State.ctx, State.berth, State.berth, hp.berths, hp.cur]
    have hpass := pass_th t 4
    rw [hth] at hpass
    refine ⟨t.pass 4, by rw [placeRec, if_pos hq, pushRun, ht], by rw [hpass]; rfl, ⟨fun _ => ?_, fun h => absurd hq h⟩, ?_⟩
    · exact ⟨hp.msgs, by rw [hpass], hnet, hp.others, fun h => ⟨(hp.short h).1, (hp.short h).2.1⟩, hp.full⟩
    · rintro (h | h)
      · exact absurd hq h
      · exact (hp.short h).2.2
  · have hth := sendRec_th q r s
    refine ⟨sendRec q r s, by rw [placeRec, if_neg hq], by rw [hth], ⟨fun h => absurd h hq, fun _ => ⟨rfl, rfl, rfl, by rw [hth]⟩⟩, fun _ => rfl⟩

end Place

end Sys2Proof.Machine
end

section
/-!
PROOFS. `rsplit`: its reads, its split, and its stops (15 R268).
-/

namespace Sys2Proof.Machine
open Sys2Proof Sys2Proof.Say

/-! ### Stops -/

theorem stops_finish (s : State) (e : Stop) : Stops s e (finish s (.error e)) := by
  cases e with
  | fault f left => rfl
  | wait w left => exact fun hw => by simp [finish, stopWith, hw]

/-- A stop that says what state it was met in is taken there, from wherever it is looked at. -/
theorem stops_finish_of_left {s t : State} {e : Stop} (h : e.state s = e.state t) : Stops t e (finish s (.error e)) := by
  have hfinish : finish s (.error e : Run State) = finish t (.error e) := by simp only [finish, h]
  rw [hfinish]
  exact stops_finish t e

/-- A stop met after accesses says what state they have left. -/
theorem state_of_stopsAt_error {α : Type} {t : State} {r : Run α} {e : Stop} (h : stopsAt t r = .error e) (v w : State) : e.state v = e.state w := by
  cases r with
  | ok x => cases h
  | error e' =>
    cases h
    rw [Stop.state_after, Stop.state_after]

section Count
variable {n q : Nat} {h : Word} {s : State}

theorem state_of_globAccess_error {va k : Nat} {nd : Need} {e : Stop} (he : globAccess s q n va k nd = .error e) (t u : State) : e.state t = e.state u := by
  unfold globAccess at he
  dsimp only at he
  split at he <;> exact state_of_stopsAt_error he t u

/-- The checks of a sealed count stop in the state that the access to it has left. -/
theorem state_of_countKey_error {e : Stop} (he : countKey n q h s = .error e) (t u : State) : e.state t = e.state u := by
  unfold countKey at he
  split at he
  · cases he
  · cases hg : globAccess s q n (countAddr h) 8 needRW with
    | error e' =>
      rw [hg] at he
      cases he
      exact state_of_globAccess_error hg t u
    | ok x =>
      rw [hg, reading_ok] at he
      exact state_of_stopsAt_error he t u

theorem readsOnly_countKey (n q : Nat) (h : Word) (s : State) : ReadsOnly s (countKey n q h s) := by
  unfold countKey
  split
  · exact readsOnly_ok _ (.refl s)
  · exact .reading (readsOnly_globAccess s q n _ 8 needRW) fun k t _ => readsOnly_ite (readsOnly_failAt _ _) (readsOnly_ok _ (onlyReads_hwRequest q k t))

end Count

theorem readsOnly_hwDoubles (n q p k : Nat) (a : Word) (s : State) : ReadsOnly s (hwDoubles n q p k a s) := by
  induction k generalizing a s with
  | zero => exact readsOnly_ok _ (.refl s)
  | succ k ih =>
    refine .reading (readsOnly_hwRead n q p a 8 s) fun x t _ => ?_
    have hrest := ih (a + 8) t
    cases hd : hwDoubles n q p k (a + 8) t with
    | error e => exact readsOnly_error (hrest.error e hd).1 (hrest.error e hd).2
    | ok y => exact readsOnly_ok _ (hrest.ok _ _ hd)

theorem readsOnly_readBody (n q p : Nat) (body : Word) (s : State) : ReadsOnly s (readBody n q p body s) := by
  unfold readBody
  refine readsOnly_ite (readsOnly_ok _ (.refl s)) (.reading (readsOnly_hwRead n q p _ 8 s) fun x t _ => ?_)
  exact .reading (readsOnly_hwDoubles n q p _ _ t) fun y u _ => readsOnly_ok _ (.refl u)

/-! ### The middle of the range, and what follows the reads -/

/-- Where a range is split: the granule's middle, rounded up. -/
def midOf (g : List Byte) : Nat := dbl g 0 + (dbl g 8 - dbl g 0 + 1) / 2

/-- The header of a body, as far as it has one. -/
def bodyHeader (info : Option (Word × List Byte)) : Word := match info with | some (h, _) => h | none => 0

/-- The nodes of a split of the granule g, allocated and written. -/
def nodesOf (dst : Nat) (n : Nat) (body : Word) (info : Option (Word × List Byte)) (g : List Byte) (s : State) : Option (Word × Word × Nat × State) :=
  splitNodes n dst s.now body info (midOf g) (dbl g 8) s

/-- The record and the writes of a split whose nodes stand in v. -/
def splitEnd (d : Reg) (dst k ck : Nat) (here : Bool) (g : List Byte) (bw rw h : Word) (v : State) : Run State := do
  let (coin, u) ← coinSplit v
  let u ← splitWrites d dst k ck coin (midOf g) (dbl g 8) bw rw h u
  .ok (if here && !hdrS h || u.th.wait != .ready then u else u.away)

/-- What `rsplit` does from the state t that its reads of the granule and of the body have led to. -/
def splitRead (d : Reg) (dst k : Nat) (here : Bool) (body : Word) (info : Option (Word × List Byte)) (t : State) : Run State :=
  let g := latest t k 16
  if dbl g 8 - dbl g 0 < 2 ∨ bodyArity info > 0 ∨ (nodesOf t.quad t.th.net body info g t).isNone then .ok (splitNone d k here t)
  else
    reading (countKey t.th.net t.quad (bodyHeader info) t) fun ck v =>
      match nodesOf v.quad v.th.net body info g v with
      | none => .ok (splitNone d k here v)
      | some (bw, rw, time, w) => splitEnd d dst k ck here g bw rw (bodyHeader info) (w.raise w.cur time)

section Runs
variable {d a : Reg} {s u u1 : State} {body node : Word} {k dst read : Nat} {info : Option (Word × List Byte)}

theorem exec_rsplit_of_no_range (h : s.th.range = none) : exec (.rsplit d a) s = .next ((s.xw d 0).pass 4) := by
  show finish s (rsplitRun d a s) = _
  rw [rsplitRun, h]
  rfl

theorem exec_rsplit_of_no_target (hr : s.th.range = some (body, node)) (ha : a ≠ 0) (h : NamesNone s (s.x a) 18) :
    exec (.rsplit d a) s = .next (takeFault { cause := .access } s) := by
  show finish s (rsplitRun d a s) = _
  rw [rsplitRun, hr]
  dsimp only
  rw [if_neg ha, targetQuad_of_namesNone h]
  rfl

/-- `rsplit` has a range and a target quad. -/
structure SplitsTo (d a : Reg) (s : State) (body node : Word) (dst : Nat) : Prop where
  range : s.th.range = some (body, node)
  own : a = 0 → dst = s.quad
  named : a ≠ 0 → Names s (s.x a) 18 dst

theorem exec_rsplit_of_target (h : SplitsTo d a s body node dst) : exec (.rsplit d a) s = finish s (reading (rangeGranule s node) fun k t =>
    reading (readBody t.th.net t.quad t.now body t) fun b t => splitRead d dst k (isLocal s k && bodyHere s body) body b.1 (t.raise t.cur b.2)) := by
  show finish s (rsplitRun d a s) = _
  rw [rsplitRun, h.range]
  dsimp only
  by_cases ha : a = 0
  · rw [if_pos ha, h.own ha]
    rfl
  · rw [if_neg ha, targetQuad_of_names (h.named ha)]
    rfl

theorem exec_rsplit_of_body_stop (h : SplitsTo d a s body node dst) (hg : rangeGranule s node = .ok (k, u)) {e : Stop}
    (hb : readBody u.th.net u.quad u.now body u = .error e) : exec (.rsplit d a) s = finish u (.error e) := by
  rw [exec_rsplit_of_target h, hg, reading_ok, finish_stopsAt, hb]
  rfl

theorem exec_rsplit_of_read (h : SplitsTo d a s body node dst) (hg : rangeGranule s node = .ok (k, u))
    (hb : readBody u.th.net u.quad u.now body u = .ok ((info, read), u1)) :
    exec (.rsplit d a) s = finish u1 (splitRead d dst k (isLocal s k && bodyHere s body) body info (u1.raise u1.cur read)) := by
  rw [exec_rsplit_of_target h, hg, reading_ok, finish_stopsAt, hb, reading_ok, finish_stopsAt]

end Runs

/-! ### What follows the reads, outcome by outcome -/

section Outcomes
variable {d : Reg} {dst k : Nat} {here : Bool} {body : Word} {info : Option (Word × List Byte)} {t u2 : State} {ck : Nat}

theorem splitRead_of_unsplit (h : dbl (latest t k 16) 8 - dbl (latest t k 16) 0 < 2 ∨ bodyArity info > 0 ∨
    nodesOf t.quad t.th.net body info (latest t k 16) t = none) : splitRead d dst k here body info t = .ok (splitNone d k here t) := by
  unfold splitRead
  dsimp only
  rw [if_pos (by simpa only [Option.isNone_iff_eq_none] using h)]

/-- The range has two iterations or more, and a body that can be duplicated, with cells for the nodes. -/
structure Splits (t : State) (k : Nat) (body : Word) (info : Option (Word × List Byte)) : Prop where
  two : 2 ≤ dbl (latest t k 16) 8 - dbl (latest t k 16) 0
  bare : bodyArity info = 0
  cells : nodesOf t.quad t.th.net body info (latest t k 16) t ≠ none

theorem splitRead_of_splits (h : Splits t k body info) : splitRead d dst k here body info t =
    reading (countKey t.th.net t.quad (bodyHeader info) t) fun ck v =>
      match nodesOf v.quad v.th.net body info (latest t k 16) v with
      | none => .ok (splitNone d k here v)
      | some (bw, rw, time, w) => splitEnd d dst k ck here (latest t k 16) bw rw (bodyHeader info) (w.raise w.cur time) := by
  have htwo := h.two
  have hbare := h.bare
  unfold splitRead
  dsimp only
  rw [if_neg]
  rintro (hlt | harity | hnone)
  · omega
  · omega
  · exact h.cells (Option.isNone_iff_eq_none.mp hnone)

theorem splitRead_of_count_stop (h : Splits t k body info) {e : Stop} (hc : countKey t.th.net t.quad (bodyHeader info) t = .error e) :
    splitRead d dst k here body info t = .error e := by
  rw [splitRead_of_splits h, hc]
  rfl

theorem splitRead_of_no_nodes (h : Splits t k body info) (hc : countKey t.th.net t.quad (bodyHeader info) t = .ok (ck, u2))
    (hn : nodesOf u2.quad u2.th.net body info (latest t k 16) u2 = none) : splitRead d dst k here body info t = .ok (splitNone d k here u2) := by
  rw [splitRead_of_splits h, hc, reading_ok, hn]
  rfl

theorem splitRead_of_nodes (h : Splits t k body info) (hc : countKey t.th.net t.quad (bodyHeader info) t = .ok (ck, u2)) {bw rw : Word} {made : Nat}
    {v : State} (hn : nodesOf u2.quad u2.th.net body info (latest t k 16) u2 = some (bw, rw, made, v)) : splitRead d dst k here body info t =
      stopsAt u2 (splitEnd d dst k ck here (latest t k 16) bw rw (bodyHeader info) (v.raise v.cur made)) := by
  rw [splitRead_of_splits h, hc, reading_ok, hn]

end Outcomes

/-! ### Nothing split -/

theorem splitNone_eq (d : Reg) (k : Nat) (here : Bool) (s : State) : splitNone d k here s = (clrRmw k 16 (fun _ => none) s).2.answers d 0 here := rfl

theorem clrRmw_none_mem (k n : Nat) (s : State) : (clrRmw k n (fun _ => none) s).2.mem = if isPurse k then s.mem else (settleLine s (k / 256)).mem :=
  (clrRmw_mem k n _ s).trans (homed_mem s k)

/-! ### The end of a split -/

/-- The state in which a split has raised the count and lowered hi. -/
def halved (k ck mid : Nat) (h : Word) (v : State) : State :=
  let r := raiseCount ck v.now h v
  (clrRmw k 16 (fun g => some (g.take 8 ++ leBytes 8 mid)) (r.2.raise r.2.cur r.1)).2

section Halved
variable (k ck mid : Nat) (h : Word) (v : State)

theorem accesses_halved : Accesses v (halved k ck mid h v) :=
  ((accesses_raiseCount ck v.now h v).trans (accesses_raise _ _)).trans (accesses_clrRmw k 16 _ _)

theorem halved_time : (raiseCount ck v.now h v).1 ≤ (halved k ck mid h v).th.pts := by
  refine le_trans ?_ (accesses_clrRmw k 16 (fun g => some (g.take 8 ++ leBytes 8 mid)) _).time
  rw [raise_th]
  exact le_max_right _ _

theorem halved_hi : memRead (halved k ck mid h v).mem (k + 8) 8 = leBytes 8 mid := by
  unfold halved
  dsimp only
  rw [clrRmw_mem]
  generalize homed _ k = w
  rw [rmwMem]
  apply List.ext_getElem (by simp)
  intro i h1 h2
  have hi : i < 8 := by simpa using h1
  have hread := memRead_getD (memWrite w.mem k ((memRead w.mem k 16).take 8 ++ leBytes 8 mid)) 8 (k + 8) i hi
  rw [memGet_memWrite, if_pos (by simp; omega), List.getD_append_right _ _ _ _ (by simp; omega)] at hread
  have hplace : k + 8 + i - k - ((memRead w.mem k 16).take 8).length = i := by simp; omega
  rw [hplace] at hread
  simpa [List.getD_eq_getElem?_getD, hi] using hread

end Halved

/-- The state in which a split places its record. -/
def splitting (d : Reg) (k ck mid hi : Nat) (h : Word) (v : State) : State := (halved k ck mid h v).xw d (BitVec.ofNat 64 (hi - mid))

theorem th_xw (s : State) (d : Reg) (v : Word) : (s.xw d v).th = { s.th with regs := setReg s.th.regs d v } := State.th_setTh s _

theorem splitWrites_eq (d : Reg) (dst k ck coin mid hi : Nat) (bw rw h : Word) (v : State) :
    splitWrites d dst k ck coin mid hi bw rw h v =
      placeRec dst { a := bw, b := rw, coin := coin, net := v.th.net, cls := v.th.cls, typ := 1, time := (halved k ck mid h v).th.pts }
        (splitting d k ck mid hi h v) := by
  have hall := accesses_halved k ck mid h v
  have hth := th_xw (halved k ck mid h v) d (BitVec.ofNat 64 (hi - mid))
  rw [← hall.net_th, ← hall.cls_th]
  show placeRec dst { a := bw, b := rw, coin := coin, net := (splitting d k ck mid hi h v).th.net, cls := (splitting d k ck mid hi h v).th.cls, typ := 1,
                      time := (splitting d k ck mid hi h v).th.pts } (splitting d k ck mid hi h v) = _
  rw [splitting, hth]

section SplitEnd
variable {d : Reg} {dst k ck : Nat} {here : Bool} {g : List Byte} {bw rw h : Word} {v : State}

theorem splitEnd_of_poor (hc : coinNow v < 2) : splitEnd d dst k ck here g bw rw h v = .error (.wait .borrow) := by
  rw [splitEnd, coinSplit_of_poor hc]
  rfl

/-- The thread's state once its coin is split. -/
def coined (v : State) : State := v.setTh { v.th with coin := coinLeft v, lent := lentNow v }

theorem coined_th (v : State) : (coined v).th = { v.th with coin := coinLeft v, lent := lentNow v } := State.th_setTh v _

theorem sameWork_coined (v : State) : SameWork v (coined v) := sameWork_setTh v rfl

theorem splitEnd_of_rich (hc : 2 ≤ coinNow v) : splitEnd d dst k ck here g bw rw h v =
    (placeRec dst { a := bw, b := rw, coin := coinNow v / 2, net := v.th.net, cls := v.th.cls, typ := 1, time := (halved k ck (midOf g) h (coined v)).th.pts }
      (splitting d k ck (midOf g) (dbl g 8) h (coined v))).bind fun u => .ok (if here && !hdrS h || u.th.wait != .ready then u else u.away) := by
  have hplace := splitWrites_eq d dst k ck (coinNow v / 2) (midOf g) (dbl g 8) bw rw h (coined v)
  have hcoined := coined_th v
  rw [hcoined] at hplace
  rw [← hplace, splitEnd, coinSplit_of_rich hc]
  rfl

theorem splitting_th (d : Reg) (k ck mid hi : Nat) (h : Word) (v : State) : (splitting d k ck mid hi h v).th =
    { v.th with regs := setReg v.th.regs d (BitVec.ofNat 64 (hi - mid)), pts := (halved k ck mid h v).th.pts, wait := (halved k ck mid h v).th.wait,
                touched := (halved k ck mid h v).th.touched } := by
  rw [splitting, th_xw, (accesses_halved k ck mid h v).regs_th]
  nth_rw 1 [(accesses_halved k ck mid h v).thread]

theorem sameWork_splitting (d : Reg) (k ck mid hi : Nat) (h : Word) (v : State) : SameWork v (splitting d k ck mid hi h v) :=
  (accesses_halved k ck mid h v).sameWork.trans (sameWork_xw _ _ _)

theorem placed_awayUnless {q : Nat} {r : Rec} {wait : Wait} {s t : State} (h : Placed q r wait s t) (hq : q = s.quad) (b : Bool) :
    Placed q r (if b then wait else .reply) s (t.awayUnless b) := by
  refine ⟨fun _ => ?_, fun hne => absurd hq hne⟩
  obtain ⟨hmsgs, hwait, hrest⟩ := h.1 hq
  refine ⟨?_, ?_, ?_⟩
  · rw [awayUnless_rest]
    exact hmsgs
  · rw [awayUnless_th, ← hwait]
  · rw [awayUnless_rest]
    exact hrest

/-- A split whose nodes stand ends with its record placed, the thread in rotation where `here` holds, no count rises and the record is not sent. -/
theorem splitEnd_places (hc : 2 ≤ coinNow v) (hready : v.th.wait = .ready)
    (hroom : dst = v.quad → ((v.deque dst).length < 256 ∨ poolFull v = false) ∧ v.netStateAt v.th.net dst ≠ .parked) :
    ∃ t, splitEnd d dst k ck here g bw rw h v = .ok t ∧
      t.th = { (splitting d k ck (midOf g) (dbl g 8) h (coined v)).th with pc := v.th.pc + 4, wait := t.th.wait, waited := t.th.waited } ∧
      (dst ≠ v.quad ∨ (v.deque dst).length < 256 → t.mem = (splitting d k ck (midOf g) (dbl g 8) h (coined v)).mem) ∧
      Placed dst { a := bw, b := rw, coin := coinNow v / 2, net := v.th.net, cls := v.th.cls, typ := 1, time := (halved k ck (midOf g) h (coined v)).th.pts }
        (if here && !hdrS h then .ready else .reply) v t := by
  have hsame : SameWork v (splitting d k ck (midOf g) (dbl g 8) h (coined v)) :=
    (sameWork_coined v).trans (sameWork_splitting d k ck (midOf g) (dbl g 8) h (coined v))
  have hth := splitting_th d k ck (midOf g) (dbl g 8) h (coined v)
  have hwait : (splitting d k ck (midOf g) (dbl g 8) h (coined v)).th.wait = .ready := by
    rw [hth]
    exact (accesses_halved k ck (midOf g) h (coined v)).ready (by rw [coined_th]; exact hready)
  have hpc : (splitting d k ck (midOf g) (dbl g 8) h (coined v)).th.pc = v.th.pc := by rw [hth, coined_th]
  rw [splitEnd_of_rich hc]
  generalize splitting d k ck (midOf g) (dbl g 8) h (coined v) = w at hsame hwait hpc
  generalize (halved k ck (midOf g) h (coined v)).th.pts = time
  obtain ⟨u, hplace, hu⟩ := placeRec_places (q := dst)
    (r := { a := bw, b := rw, coin := coinNow v / 2, net := v.th.net, cls := v.th.cls, typ := 1, time := time }) (s := w) fun hq => by
      obtain ⟨hlen, hnet⟩ := hroom (hq.trans hsame.quad)
      rw [hsame.deque, hsame.netState, hsame.full]
      exact ⟨hnet, hlen⟩
  have hmem : dst ≠ v.quad ∨ (v.deque dst).length < 256 → u.mem = w.mem := by
    rw [← hsame.quad, ← hsame.deque]
    exact hu.memory
  have hplaced := hsame.placed hu.placed
  have huth := hu.thread
  rw [hpc] at huth
  rw [hwait] at hplaced
  rw [hplace]
  by_cases hq : dst = v.quad
  · have huwait : u.th.wait = .ready := (hplaced.1 hq).2.1
    refine ⟨u.awayUnless (here && !hdrS h), ?_, ?_, fun hshort => ?_, placed_awayUnless hplaced hq _⟩
    · simp only [Except.bind, huwait, State.awayUnless]
      cases here && !hdrS h <;> rfl
    · rw [awayUnless_th, huth]
    · rw [awayUnless_rest]
      exact hmem hshort
  · have huwait : u.th.wait = .sent := (hplaced.2 hq).2.2.2
    refine ⟨u, ?_, huth, hmem, ⟨fun h => absurd h hq, hplaced.2⟩⟩
    simp [Except.bind, huwait]

/-- The same, field by field. -/
theorem splitEnd_ends (hc : 2 ≤ coinNow v) (hready : v.th.wait = .ready)
    (hroom : dst = v.quad → ((v.deque dst).length < 256 ∨ poolFull v = false) ∧ v.netStateAt v.th.net dst ≠ .parked) :
    ∃ t w, splitEnd d dst k ck here g bw rw h v = .ok t ∧ t.th.coin = coinLeft v ∧ t.th.lent = lentNow v ∧
      (raiseCount ck (coined v).now h (coined v)).1 ≤ t.th.pts ∧ (raiseCount ck (coined v).now h (coined v)).1 ≤ w ∧ t.th.pc = v.th.pc + 4 ∧
      t.th.range = v.th.range ∧ (∀ r, t.x r = if r = d ∧ r ≠ 0 then BitVec.ofNat 64 (dbl g 8 - midOf g) else v.x r) ∧
      (dst ≠ v.quad ∨ (v.deque dst).length < 256 → memRead t.mem (k + 8) 8 = leBytes 8 (midOf g)) ∧
      Placed dst { a := bw, b := rw, coin := coinNow v / 2, net := v.th.net, cls := v.th.cls, typ := 1, time := w } (if here && !hdrS h then .ready else .reply) v t := by
  obtain ⟨t, hexec, hth, hmem, hplaced⟩ := splitEnd_places (d := d) (k := k) (ck := ck) (here := here) (g := g) (bw := bw) (rw := rw) (h := h) hc hready hroom
  have htime := halved_time k ck (midOf g) h (coined v)
  rw [splitting_th, coined_th] at hth
  refine ⟨t, _, hexec, by rw [hth], by rw [hth], by rw [hth]; exact htime, htime, by rw [hth], by rw [hth], fun r => ?_, fun hs => ?_, hplaced⟩
  · have hx := x_xw_iff v d (BitVec.ofNat 64 (dbl g 8 - midOf g)) r
    rw [← hx, State.x, State.x, hth, th_xw]
  · rw [hmem hs, splitting, State.xw_mem]
    exact halved_hi k ck (midOf g) h (coined v)

end SplitEnd
end Sys2Proof.Machine
end

section
/-!
PROOFS. Ranges are drawn and split: the statement (02 R35, 15 R266 R268).
-/

namespace Sys2Proof.Machine
open Sys2Proof Sys2Proof.Say

/-! ### Nothing split -/

theorem bodyHere_iff (s : State) (body : Word) : bodyHere s body = true ↔
    tagOf body = 5 ∨ ∃ p v, access1 s (addrOf body) 8 1 true needR = .ok (p, v) ∧ isLocal s p = true := by
  rw [bodyHere, Bool.or_eq_true, isImm, beq_iff_eq]
  refine or_congr_right ?_
  cases access1 s (addrOf body) 8 1 true needR with
  | error e => simp
  | ok x => exact ⟨fun h => ⟨x.1, x.2, rfl, h⟩, fun ⟨p, v, hx, h⟩ => by cases hx; exact h⟩

theorem here_iff (s : State) (k : Nat) (body : Word) : (isLocal s k && bodyHere s body) = true ↔
    isLocal s k = true ∧ (tagOf body = 5 ∨ ∃ p v, access1 s (addrOf body) 8 1 true needR = .ok (p, v) ∧ isLocal s p = true) := by
  rw [Bool.and_eq_true, bodyHere_iff]

section Nothing
variable {s x : State} (hx : Accesses s x) (d : Reg) (k : Nat) (here : Bool)
include hx

theorem accesses_splitNone : Accesses s (clrRmw k 16 (fun _ => none) x).2 := hx.trans (accesses_clrRmw k 16 _ x)

theorem alone_splitNone : Alone s (splitNone d k here x) := (accesses_splitNone hx k).alone_answers d 0 here

theorem x_splitNone (r : Reg) : (splitNone d k here x).x r = if r = d then 0 else s.x r := by
  rw [splitNone_eq, (accesses_splitNone hx k).x_answers]
  by_cases hr : r = d
  · subst hr
    by_cases hzero : r = 0
    · subst hzero
      rw [if_neg fun h => h.2 rfl, if_pos rfl, State.x_zero]
    · rw [if_pos ⟨rfl, hzero⟩, if_pos rfl]
  · rw [if_neg fun h => hr h.1, if_neg hr]

omit hx in
theorem splitNone_mem : (splitNone d k here x).mem = if isPurse k then x.mem else (settleLine x (k / 256)).mem := by
  rw [splitNone_eq, answers_mem, clrRmw_none_mem]

theorem splitNone_deques : (splitNone d k here x).deques = s.deques := by
  rw [splitNone_eq, answers_deques, (accesses_splitNone hx k).deques]

theorem splitNone_msgs : (splitNone d k here x).msgs = s.msgs := by
  rw [splitNone_eq, answers_msgs, (accesses_splitNone hx k).msgs]

theorem splitNone_wait (hready : s.th.wait = .ready) : (splitNone d k here x).th.wait = if here then .ready else .reply := by
  rw [splitNone_eq, answers_th]
  dsimp only
  rw [(accesses_splitNone hx k).ready hready]

end Nothing

/-! ### The reads of a split -/

section Reads
variable {d a : Reg} {s u u1 u2 : State} {body node : Word} {k dst read ck : Nat} {info : Option (Word × List Byte)}

theorem accesses_of_reads (hg : rangeGranule s node = .ok (k, u)) (hb : readBody u.th.net u.quad u.now body u = .ok ((info, read), u1)) :
    Accesses s (u1.raise u1.cur read) :=
  ((rangeGranule_onlyReads hg).accesses.trans ((readsOnly_readBody _ _ _ _ u).ok _ _ hb).accesses).trans (accesses_raise u1 read)

theorem accesses_of_countKey {w : State} {h : Word} {n q : Nat} (hw : Accesses s w) (hc : countKey n q h w = .ok (ck, u2)) : Accesses s u2 :=
  hw.trans ((readsOnly_countKey n q h w).ok _ _ hc).accesses

/-- The nodes of a split, for the net and the quad of the issuing thread. -/
theorem nodesOf_eq {x : State} (hx : Accesses s x) (g : List Byte) : nodesOf x.quad x.th.net body info g x =
    splitNodes s.th.net s.quad x.now body info (dbl g 0 + (dbl g 8 - dbl g 0 + 1) / 2) (dbl g 8) x := by
  rw [nodesOf, hx.quad, hx.net_th, midOf]

end Reads

theorem coinNow_of_accesses {s x : State} (hx : Accesses s x) : coinNow x = coinNow s ∧ coinLeft x = coinLeft s ∧ lentNow x = lentNow s :=
  coinNow_congr hx.coin_th hx.lent_th

/-- What `rnext` does with the granule of its range (02 R35, 15 R266). -/
theorem rnext_draws {s u : State} {body node : Word} {k : Nat} (d : Reg) (hr : s.th.range = some (body, node)) (hg : rangeGranule s node = .ok (k, u)) :
    ∃ t, exec (.rnext d) s = .next t ∧ Alone s t ∧ Published s t ∧ t.th.coin = s.th.coin ∧ t.th.pc = s.th.pc + 4 ∧ t.th.range = s.th.range ∧
      t.th.wait = (if isLocal s k && !hasStores s then s.th.wait else .reply) ∧
      (∀ r, t.x r = if r = d ∧ r ≠ 0 then drawAnswer (drawnFrom k u) else s.x r) ∧
      t.mem = rmwMem (homed (publish .module u) k).mem k (drawn (drawnFrom k u)) := by
  have hdrew := accesses_drew hg
  refine ⟨_, exec_rnext_of_range hr hg, hdrew.alone_answers d _ _, fun st hst => ?_, hdrew.coin_answers d _ _, hdrew.pc_answers d _ _,
    hdrew.range_answers d _ _, drew_answers_wait hg d _, hdrew.x_answers d _ _, by rw [answers_mem, drew_mem]⟩
  rw [answers_stores] at hst
  exact published_drew hg st hst

/-- Settles O34: `rnext` publishes and reads and writes the granule in one access; `rsplit` is followed through its reads, which change nothing that an
    iteration depends on, to each of its ends. -/
theorem rangesAreDrawnAndSplit : Obligations.RangesAreDrawnAndSplit := by
  intro d a s
  refine ⟨fun hnone => ?_, fun body node k u hr hg => ?_, fun body node hr ha hnames => exec_rsplit_of_no_target hr ha hnames⟩
  · rw [exec_rnext_of_no_range hnone, exec_rsplit_of_no_range hnone]
    exact ⟨writesX_xw_pass s d (-1), writesX_xw_pass s d 0⟩
  · intro m lo hi
    have hread := (rangeGranule_onlyReads hg).accesses
    refine ⟨?_, fun dst hown hnamed hready => ?_⟩
    · have hm : m = (homed (publish .module u) k).mem := (homed_mem _ k).symm
      have hdrawn : drawnFrom k u = memRead m k 16 := by rw [hm, drawnFrom]
      obtain ⟨t, hexec, halone, hpub, hcoin, hpc, hrange, hwait, hx, hmem⟩ := rnext_draws d hr hg
      rw [hdrawn] at hx hmem
      rw [← hm] at hmem
      exact ⟨t, hexec, halone, hpub, hcoin, hpc, hrange, hwait, hx, fun x => by rw [hmem]; exact memGet_rmwMem_drawn m k x⟩
    · have hto : SplitsTo d a s body node dst := ⟨hr, hown, hnamed⟩
      rw [← hread.net_th, ← hread.quad]
      refine ⟨fun e hb => ?_, fun info read u1 hb => ?_⟩
      · rw [exec_rsplit_of_body_stop hto hg hb]
        exact stops_finish u e
      · have hw := accesses_of_reads hg hb
        have hu1 : u1.cur = s.cur := ((readsOnly_readBody _ _ _ _ u).ok _ _ hb).cur.trans hread.cur
        rw [hu1] at hw
        rw [exec_rsplit_of_read hto hg hb, hu1]
        rw [hread.net_th, hread.quad]
        intro w here g n mid h nodes nothing
        have hnodes : ∀ x, Accesses s x → nodesOf x.quad x.th.net body info g x = nodes x := fun x hx => nodesOf_eq hx g
        change Accesses s w at hw
        have hnothing : ∀ x, Accesses s x →
            splitRead d dst k (isLocal s k && bodyHere s body) body info w = .ok (splitNone d k (isLocal s k && bodyHere s body) x) → nothing x := by
          intro x hx hrun
          have hwait := splitNone_wait hx d k (isLocal s k && bodyHere s body) hready
          refine ⟨_, congrArg (finish u1) hrun, alone_splitNone hx d k _, (accesses_splitNone hx k).coin_answers d 0 _,
            (accesses_splitNone hx k).pc_answers d 0 _, splitNone_deques hx d k _, splitNone_msgs hx d k _, x_splitNone hx d k _, splitNone_mem d k _,
            fun hh => ?_, fun hh => ?_⟩
          · rw [hwait, if_pos ((here_iff s k body).mpr hh)]
          · rw [hwait, if_neg fun hb => hh ((here_iff s k body).mp hb)]
        refine ⟨fun hun => hnothing w hw (splitRead_of_unsplit ?_), fun htwo hbare hcells => ?_⟩
        · rw [hnodes w hw]
          exact hun
        · have hsplits : Splits w k body info := ⟨htwo, hbare, by rw [hnodes w hw]; exact hcells⟩
          have hcount : countKey w.th.net w.quad h w = countKey s.th.net s.quad h w := by rw [hw.net_th, hw.quad]
          rw [← hcount]
          refine ⟨fun e hc => ?_, fun ck u2 hc => ?_⟩
          · rw [splitRead_of_count_stop hsplits hc]
            exact stops_finish_of_left (state_of_countKey_error hc _ _)
          · have hu2 := accesses_of_countKey hw hc
            refine ⟨fun hnone => hnothing u2 hu2 (splitRead_of_no_nodes hsplits hc ?_), fun bw rw made v hn => ?_⟩
            · rw [hnodes u2 hu2]
              exact hnone
            · rw [← hnodes u2 hu2] at hn
              rw [splitRead_of_nodes hsplits hc hn, finish_stopsAt]
              have hv := (hu2.trans (accesses_splitNodes hn)).trans (accesses_raise v made)
              have hvcoin := coinNow_of_accesses hv
              obtain ⟨hnow, hleft, hlent⟩ := hvcoin
              refine ⟨fun hpoor => ?_, fun hrich => ?_⟩
              · rw [splitEnd_of_poor (by rw [hnow]; exact hpoor)]
                exact stops_finish u2 _
              · intro v1 v2 time hroom
                have hcoined : coined (v.raise v.cur made) = v2 := by
                  have hcur : v.cur = s.cur := hv.cur
                  rw [coined, hleft, hlent, hcur]
                obtain ⟨t, w, hexec, hcoin, hlent', htime, htime', hpc, hrange, hx, hmem, hplaced⟩ := splitEnd_ends (d := d) (dst := dst) (k := k) (ck := ck)
                  (here := isLocal s k && bodyHere s body) (g := g) (bw := bw) (rw := rw) (h := h) (v := v.raise v.cur made)
                  (by rw [hnow]; exact hrich) (hv.ready hready) fun hq => by
                    have hq' : dst = s.quad := hq.trans hv.quad
                    rw [hv.sameWork.deque, hv.sameWork.full, hv.sameWork.netState, hv.net_th, hq']
                    exact hroom hq'
                rw [hcoined] at htime htime'
                rw [hv.quad, hv.sameWork.deque] at hmem
                rw [hnow, hv.net_th, hv.cls_th] at hplaced
                refine ⟨t, w, _, congrArg (finish u2) hexec, hcoin.trans hleft, hlent'.trans hlent, htime, htime', by rw [hpc, hv.pc_th],
                  by rw [hrange, hv.range_th], fun r => by rw [hx, hv.x]; rfl, fun hs => hmem ?_, fun hh => ?_, fun hh => ?_, hv.sameWork.placed hplaced⟩
                · by_cases hq : dst = s.quad
                  · rw [hq]
                    exact hs.imp (absurd hq) id
                  · exact .inl hq
                · have hlocal := (here_iff s k body).mpr hh.1
                  rw [hlocal, hh.2]
                  rfl
                · rw [if_neg]
                  intro hb
                  rw [Bool.and_eq_true, Bool.not_eq_true'] at hb
                  exact hh ⟨(here_iff s k body).mp hb.1, hb.2⟩

end Sys2Proof.Machine
end

section
/-!
PROOFS. A `link`'s looks at slots of purses: what they read, and that they leave every slot where it is (02 R40, 11 R201).
-/

namespace Sys2Proof.Machine
open Sys2Proof Sys2Proof.Say

/-! ### The other links of the net -/

/-- The program of a berth's `link`, where it is another thread's of the net. -/
def linkOf (cur net : Nat) (e : Nat × Berth) : Option (Nat × LinkProg) :=
  match e.2.ctx.wait with
  | .link p => if e.1 = cur ∨ e.2.ctx.net ≠ net then none else some (e.1, p)
  | _ => none

theorem otherLinks_eq (s : State) : otherLinks s = s.berths.filterMap (linkOf s.cur s.th.net) := rfl

theorem linkOf_cur (cur net : Nat) (x : Berth) : linkOf cur net (cur, x) = none := by
  unfold linkOf
  split
  · exact if_pos (.inl rfl)
  · rfl

/-- A table read through a function that passes an entry's key over reads the same once that entry is set. -/
theorem filterMap_set {α β : Type} {f : Nat × α → Option β} {k : Nat} (hf : ∀ x, f (k, x) = none) (t : Tbl α) (v : α) :
    (Tbl.set t k v).filterMap f = t.filterMap f := by
  induction t with
  | nil => simp [Tbl.set, hf]
  | cons e r ih =>
    obtain ⟨j, w⟩ := e
    by_cases hk : k = j
    · subst hk
      simp [Tbl.set, hf]
    · by_cases hlt : k < j
      · simp [Tbl.set, hk, hlt, List.filterMap_cons, hf]
      · simp [Tbl.set, hk, hlt, List.filterMap_cons, ih]

theorem otherLinks_setTh (s : State) {c : Ctx} (hc : c.net = s.th.net) : otherLinks (s.setTh c) = otherLinks s := by
  rw [otherLinks_eq, otherLinks_eq, State.th_setTh, hc]
  exact filterMap_set (linkOf_cur s.cur s.th.net) s.berths _

/-! ### Looks -/

/-- s with the times and the berths of t. -/
def State.lookAs (s t : State) : State := { s with lines := t.lines, berths := t.berths, floors := t.floors }

/-- The issuing thread has looked at bytes of purses: only times have changed. -/
structure Looked (s t : State) : Prop where
  rest : t = s.lookAs t
  thread : t.th = { s.th with pts := t.th.pts }
  links : otherLinks t = otherLinks s

theorem Looked.refl (s : State) : Looked s s := ⟨rfl, rfl, rfl⟩

theorem Looked.trans {s t u : State} (h : Looked s t) (h' : Looked t u) : Looked s u := by
  refine ⟨h'.rest.trans ?_, h'.thread.trans ?_, h'.links.trans h.links⟩
  · rw [h.rest]
    rfl
  · rw [h.thread]

section Fields
variable {s t : State} (h : Looked s t)
include h

theorem Looked.mem : t.mem = s.mem := (congrArg State.mem h.rest).trans rfl
theorem Looked.nets : t.nets = s.nets := (congrArg State.nets h.rest).trans rfl
theorem Looked.cur : t.cur = s.cur := (congrArg State.cur h.rest).trans rfl
theorem Looked.net_th : t.th.net = s.th.net := by rw [h.thread]
theorem Looked.quad : t.quad = s.quad := by rw [State.quad, State.quad, h.cur]
theorem Looked.net : t.net = s.net := by rw [State.net, State.net, State.netRec, State.netRec, h.nets, h.net_th]
theorem Looked.purseAccess (nr : NetRec) (q : Nat) (f : Form) (n : Nat) : purseAccess t nr q f n = purseAccess s nr q f n :=
  (congrArg (fun x => Machine.purseAccess x nr q f n) h.rest).trans rfl
theorem Looked.heldTile (k n : Nat) : heldTile t k n = heldTile s k n := (congrArg (fun x => Machine.heldTile x k n) h.rest).trans rfl
theorem Looked.poisoned (k n : Nat) : poisoned t k n = poisoned s k n := (congrArg (fun x => Machine.poisoned x k n) h.rest).trans rfl
theorem Looked.netRec (n : Nat) : t.netRec n = s.netRec n := by rw [State.netRec, State.netRec, h.nets]
theorem Looked.toPhys (nr : NetRec) (x y : Nat) : nr.toPhys t x y = nr.toPhys s x y := (congrArg (fun v => nr.toPhys v x y) h.rest).trans rfl

theorem Looked.firstPhys (nr : NetRec) (l : List (Nat × Nat)) : firstPhys nr t l = firstPhys nr s l := by
  induction l with
  | nil => rfl
  | cons e l ih => rw [Machine.firstPhys, Machine.firstPhys, h.toPhys, ih]

theorem Looked.handlerKey (n : Nat) : handlerKey t n = handlerKey s n := by
  rw [Machine.handlerKey, Machine.handlerKey, h.netRec, NetRec.launchQuad, NetRec.launchQuad, h.firstPhys]
theorem Looked.inHandler (k : Nat) : inHandler t k = inHandler s k := by rw [Machine.inHandler, Machine.inHandler, h.net_th, h.handlerKey]

/-- A purse access that passes its checks passes them again after looks. -/
theorem Looked.access1 {aw : Word} {n al k : Nat} {po : Bool} {nd : Need} {u : State} (hn : n ≤ 64) (ha : access1 s aw n al po nd = .ok (k, u))
    (hk : isPurse k = true) : Machine.access1 t aw n al po nd = .ok (k, t) := by
  obtain ⟨hform, hal, hplace, hheld, hsound, -⟩ := (access1_ok_iff hn).mp ha
  obtain ⟨rfl, f, hf, hpurse, hacc⟩ := placeOf_purse hplace hk
  refine (access1_ok_iff hn).mpr ⟨hform, hal, ?_, by rw [h.heldTile, hheld], by rw [h.poisoned, hsound], by simp [answeredRehome, rehomed, hk]⟩
  rw [placeOf, hf]
  cases f with
  | glob va => exact absurd rfl (hpurse va)
  | _ =>
    dsimp only
    rw [h.purseAccess, h.net, h.quad, hacc]

end Fields

/-! ### Slots and cells in purses -/

theorem slotOfPort_of_aux {x : Word} (h : tagOf x = 1) : slotOfPort x = some (addrOf x) := by
  rw [slotOfPort, h]
  rfl

section Slots
variable {s t : State} {x : Word} {k : Nat}

theorem slotAt_iff : SlotAt s x k ↔ isPurse k = true ∧ inHandler s k = false ∧
    ∃ a, slotOfPort x = some a ∧ access1 s a 8 1 false needRW = .ok (k, s) := by
  refine and_congr_right fun hk => ⟨fun ⟨u, hu⟩ => ?_, fun ⟨hin, a, ha, hacc⟩ => ⟨s, by rw [slotKey, ha]; simp [hacc, hin]⟩⟩
  unfold slotKey at hu
  split at hu
  · cases hu
  · rename_i a ha
    cases hacc : access1 s a 8 1 false needRW with
    | error e => rw [hacc] at hu; cases hu
    | ok y =>
      obtain ⟨j, v⟩ := y
      rw [hacc, reading_ok, stopsAt_ok_iff] at hu
      split at hu
      · cases hu
      · rename_i hin
        cases hu
        have hus : u = s := access1_purse (by decide) hacc hk
        subst hus
        exact ⟨by simpa using hin, a, ha, hacc⟩

theorem Looked.slotAt (h : Looked s t) (hx : SlotAt s x k) : SlotAt t x k := by
  obtain ⟨hk, hin, a, ha, hacc⟩ := slotAt_iff.mp hx
  exact slotAt_iff.mpr ⟨hk, by rw [h.inHandler, hin], a, ha, h.access1 (by decide) hacc hk⟩

theorem slotKey_of_slotAt (hx : SlotAt s x k) : slotKey s x = .ok (some k, s) := by
  obtain ⟨hk, hin, a, ha, hacc⟩ := slotAt_iff.mp hx
  rw [slotKey, ha]
  simp [hacc, hin]

theorem access1_of_slotAt (hx : SlotAt s x k) (htag : tagOf x = 1) : access1 s (addrOf x) 8 1 false needRW = .ok (k, s) := by
  obtain ⟨-, -, a, ha, hacc⟩ := slotAt_iff.mp hx
  rw [slotOfPort_of_aux htag] at ha
  cases ha
  exact hacc

theorem Looked.cellAt (h : Looked s t) (hx : CellAt s x k) : CellAt t x k := ⟨hx.1, t, h.access1 (by decide) hx.2.choose_spec hx.1⟩

theorem access1_of_cellAt (hx : CellAt s x k) : access1 s (addrOf x) 16 1 false needRW = .ok (k, s) := (Looked.refl s).access1 (by decide) hx.2.choose_spec hx.1

end Slots

/-! ### Reads and writes of a slot -/

theorem looked_raise (s : State) (lines : Tbl LineTime) (p : Nat) : Looked s ((s.wrote s.mem lines).raise s.cur p) := by
  have hth : (s.wrote s.mem lines).th = s.th := rfl
  refine ⟨rfl, ?_, ?_⟩
  · have h := raise_th (s.wrote s.mem lines) p
    exact h.trans (by rw [hth]; exact congrArg (fun x => { s.th with pts := x }) (congrArg Ctx.pts h).symm)
  · exact otherLinks_setTh (s.wrote s.mem lines) (c := { (s.wrote s.mem lines).th with pts := max (s.wrote s.mem lines).th.pts p }) rfl

section Slot
variable {s : State} {k : Nat} (hk : isPurse k = true)
include hk

theorem homed_purse : homed s k = s := if_pos hk

/-- A read-modify-write at a purse that writes nothing. -/
theorem clrRmw_looks {n : Nat} {f : List Byte → Option (List Byte)} (hf : f (memRead s.mem k n) = none) :
    ∃ t, clrRmw k n f s = (memRead s.mem k n, t) ∧ Looked s t := by
  obtain ⟨lines, p, h⟩ := clrRmw_eq k n f s
  rw [homed_purse hk, hf] at h
  exact ⟨_, h, looked_raise s lines p⟩

theorem readSlot_looks : ∃ t, readSlot k s = (wordAt s.mem k, t) ∧ Looked s t := by
  obtain ⟨t, h, ht⟩ := clrRmw_looks (n := 8) (f := fun _ => none) hk rfl
  exact ⟨t, by rw [readSlot, h]; rfl, ht⟩

theorem clrLoad_looks (n : Nat) : ∃ t, clrLoad k n s = (memRead s.mem k n, t) ∧ Looked s t := by
  refine ⟨_, by rw [clrLoad, if_pos hk], ?_⟩
  exact looked_raise s _ _

/-- A read-modify-write at a purse that writes bytes. -/
theorem clrRmw_writes {n : Nat} {f : List Byte → Option (List Byte)} {bs : List Byte} (hf : f (memRead s.mem k n) = some bs) :
    ∃ t, clrRmw k n f s = (memRead s.mem k n, t) ∧ t.mem = memWrite s.mem k bs := by
  obtain ⟨lines, p, h⟩ := clrRmw_eq k n f s
  rw [homed_purse hk, hf] at h
  exact ⟨_, h, rfl⟩

end Slot

theorem leNat_leBytes (n v : Nat) : leNat (leBytes n v) = v % 256 ^ n := by
  induction n generalizing v with
  | zero => simp [leBytes, leNat, Nat.mod_one]
  | succ n ih =>
    rw [leBytes, leNat, ih, BitVec.toNat_ofNat, show 256 ^ (n + 1) = 256 * 256 ^ n from Nat.pow_succ']
    exact Nat.mod_mul.symm

theorem bytesWord_wordBytes (w : Word) : bytesWord (wordBytes w) = w := by
  have hlt : w.toNat < 256 ^ 8 := w.isLt
  rw [bytesWord, wordBytes, leNat_leBytes, Nat.mod_eq_of_lt hlt, BitVec.ofNat_toNat, BitVec.setWidth_eq]

/-- A word written at a key is the only change. -/
theorem writes_of_memWrite {m : List Host.Cell} {t : State} {k : Nat} {w : Word} (h : t.mem = memWrite m k (wordBytes w)) : Writes m t [(k, w)] := by
  have hlen : (wordBytes w).length = 8 := leBytes_length 8 _
  constructor
  · intro e he
    obtain rfl := List.mem_singleton.mp he
    have hread := memRead_memWrite_same (wordBytes w) m k
    rw [hlen] at hread
    rw [h, wordAt, hread, bytesWord_wordBytes]
  · intro a ha
    have hout := ha (k, w) (List.mem_singleton_self _)
    dsimp only at hout
    rw [h, memGet_memWrite, if_neg (by omega)]

theorem writeSlot_writes {k : Nat} (hk : isPurse k = true) (w : Word) (s : State) : Writes s.mem (writeSlot k w s) [(k, w)] := by
  obtain ⟨t, h, ht⟩ := clrRmw_writes (s := s) (n := 8) (f := fun _ => some (wordBytes w)) hk rfl
  refine writes_of_memWrite ?_
  rw [writeSlot, h]
  exact ht

/-! ### A meeting's cell (02 R39) -/

theorem memRead_append (m : List Host.Cell) (a i j : Nat) : memRead m a (i + j) = memRead m a i ++ memRead m (a + i) j := by
  induction i generalizing a with
  | zero => simp [memRead]
  | succ i ih =>
    rw [Nat.succ_add, memRead, memRead, ih, List.cons_append]
    congr 3
    omega

theorem cellOf_looks {s : State} {redir : Word} {c : Nat} (hc : CellAt s redir c) (hport : Port (wordAt s.mem c))
    (hexp : wordAt s.mem (c + 8) = holdWord ∨ portOk (wordAt s.mem (c + 8)) = true ∧ tagOf (wordAt s.mem (c + 8)) = 1) :
    ∃ t, cellOf redir s = .ok ((c, wordAt s.mem c, wordAt s.mem (c + 8)), t) ∧ Looked s t := by
  obtain ⟨t, hload, ht⟩ := clrLoad_looks (s := s) hc.1 16
  have hbytes := memRead_append s.mem c 8 8
  have hfar : farOk (wordAt s.mem c) = true := by
    obtain ⟨hok, htag⟩ := hport
    simp only [List.mem_cons, List.not_mem_nil, or_false] at htag
    simp [farOk, hok]
    omega
  refine ⟨t, ?_, ht⟩
  rw [cellOf, access1_of_cellAt hc, reading_ok, stopsAt_ok_iff, loading, hload]
  dsimp only
  rw [stopsAt_ok_iff, hbytes, List.take_left' (memRead_length _ _ _), List.drop_left' (memRead_length _ _ _)]
  exact if_pos (by
    show (farOk (wordAt s.mem c) && (wordAt s.mem (c + 8) == holdWord || portOk (wordAt s.mem (c + 8)) && tagOf (wordAt s.mem (c + 8)) == 1)) = true
    simpa [hfar] using hexp)

end Sys2Proof.Machine
end

section
/-!
PROOFS. Half-joins: the looks at a `link`'s own slots, the compare-and-swap, and what becomes of a word that it does not expect (02 R39 to R41).
-/

namespace Sys2Proof.Machine
open Sys2Proof Sys2Proof.Say

/-! ### Sides -/

theorem slotOfPort_isSome (w : Word) : (slotOfPort w).isSome = true ↔ tagOf w ∈ [1, 2] := by
  unfold slotOfPort
  split <;> simp_all

theorem open_iff (x : WireSide) : x.open = true ↔ Open x := by
  rw [WireSide.open, Bool.and_eq_true, slotOfPort_isSome, Bool.not_eq_true', Open]

theorem open_eq_false_iff (x : WireSide) : x.open = false ↔ ¬Open x := by rw [← open_iff, Bool.not_eq_true]

theorem isPrincipal_iff (w : Word) : isPrincipal w = true ↔ tagOf w ∈ [2, 5] := by simp [isPrincipal]

theorem redexOf_of_redex {a b : Word} (h : Redex a b) : redexOf a b = some (a, b) := by
  rw [redexOf, (isPrincipal_iff a).mpr h.1, (isPrincipal_iff b).mpr h.2]
  rfl

theorem redexOf_of_not_redex {a b : Word} (h : ¬Redex a b) : redexOf a b = none := by
  rw [redexOf, if_neg]
  rw [Bool.and_eq_true, isPrincipal_iff, isPrincipal_iff]
  exact h

theorem settle_of_open {p : LinkProg} {x : WireSide} (hx : x ∈ p.sides) (h : Open x) : p.settle = p :=
  if_pos (List.any_eq_true.mpr ⟨x, hx, (open_iff x).mpr h⟩)

theorem settle_of_shut {p : LinkProg} {l r : WireSide} (hp : p.sides = [l, r]) (hl : ¬Open l) (hr : ¬Open r) : p.settle =
    { p with sides := [], resolved := true, cells := p.cells ++ (l.cell.toList ++ r.cell.toList), push := redexOf r.port l.port } := by
  rw [LinkProg.settle, if_neg]
  · have hcells : [l, r].filterMap (·.cell) = l.cell.toList ++ r.cell.toList := by
      cases hlc : l.cell <;> cases hrc : r.cell <;> simp [hlc, hrc]
    rw [hp, hcells]
  · rw [hp]
    simp [(open_eq_false_iff l).mpr hl, (open_eq_false_iff r).mpr hr]

/-! ### The own slots (02 R41) -/

section Taken
variable {s : State} {x : WireSide} {a : Word} {k : Nat} {l : List WireSide}

theorem taken_of_no_face (h : x.face = none) : taken (x :: l) s = taken l s := by
  rw [taken, h]

theorem taken_of_face (h : x.face = some a) (htag : tagOf a = 1) (hk : SlotAt s a k) : ∃ t, Looked s t ∧ taken (x :: l) s =
    stopsAt s (if wordAt s.mem k = 0 then .ok (true, t) else stopsAt t (if portOk (wordAt s.mem k) then taken l t else fail .linkCorrupt)) := by
  obtain ⟨t, hread, ht⟩ := readSlot_looks (s := s) hk.1
  refine ⟨t, ht, ?_⟩
  rw [taken, h]
  dsimp only
  rw [access1_of_slotAt hk htag, reading_ok, hread]

theorem taken_of_empty (h : x.face = some a) (htag : tagOf a = 1) (hk : SlotAt s a k) (hw : wordAt s.mem k = 0) :
    ∃ t, Looked s t ∧ taken (x :: l) s = .ok (true, t) := by
  obtain ⟨t, ht, h⟩ := taken_of_face (l := l) h htag hk
  exact ⟨t, ht, by rw [h, if_pos hw, stopsAt_ok]⟩

theorem taken_of_broken (h : x.face = some a) (htag : tagOf a = 1) (hk : SlotAt s a k) (hw : wordAt s.mem k ≠ 0) (hok : portOk (wordAt s.mem k) = false) :
    ∃ t, Looked s t ∧ taken (x :: l) s = .error (.fault { cause := .linkCorrupt } (some t)) := by
  obtain ⟨t, ht, h⟩ := taken_of_face (l := l) h htag hk
  refine ⟨t, ht, ?_⟩
  rw [h, if_neg hw, hok]
  rfl

theorem Looked.ownSlotStands {t : State} (h : Looked s t) (hx : OwnSlotStands s x) : OwnSlotStands t x := by
  intro a ha
  obtain ⟨htag, k, hk, hw⟩ := hx a ha
  exact ⟨htag, k, h.slotAt hk, by rw [h.mem]; exact hw⟩

theorem taken_of_stands (h : ∀ x ∈ l, OwnSlotStands s x) : ∃ t, Looked s t ∧ taken l s = .ok (false, t) := by
  induction l generalizing s with
  | nil => exact ⟨s, .refl s, rfl⟩
  | cons x l ih =>
    have hrest : ∀ y ∈ l, OwnSlotStands s y := fun y hy => h y (List.mem_cons_of_mem x hy)
    cases hf : x.face with
    | none =>
      rw [taken_of_no_face hf]
      exact ih hrest
    | some a =>
      obtain ⟨htag, k, hk, hw, hok⟩ := h x List.mem_cons_self a hf
      obtain ⟨t, ht, htaken⟩ := taken_of_face (l := l) hf htag hk
      obtain ⟨u, hu, hdone⟩ := ih fun y hy => ht.ownSlotStands (hrest y hy)
      exact ⟨u, ht.trans hu, by rw [htaken, if_neg hw, if_pos hok, hdone]; rfl⟩

end Taken

/-! ### The next half-join of a `link` -/

/-- A `link` whose ends are all redirected is at the half-join on its side `me`: its first side, or its second where the first is done. -/
structure AtSide (p : LinkProg) (first : Bool) (me oth : WireSide) : Prop where
  ends : ∀ o ∈ p.olds, o.claimed = true ∧ o.redirected = true
  unclosed : ∀ x y, p.olds = [x, y] → ¬(x.far = y.slot ∧ y.far = x.slot)
  unresolved : p.resolved = false
  stays : p.gone = none
  sides : p.sides = if first then [me, oth] else [oth, me]
  due : Open me
  done : first = false → ¬Open oth

theorem linkAct_of_redirected {p : LinkProg} (hends : ∀ o ∈ p.olds, o.claimed = true ∧ o.redirected = true)
    (hopen : ∀ x y, p.olds = [x, y] → ¬(x.far = y.slot ∧ y.far = x.slot)) (hres : p.resolved = false) (s : State) : linkAct p s = resolve p s := by
  have hclaimed : p.olds.find? (fun o => !o.claimed) = none := List.find?_eq_none.mpr fun o ho => by simp [(hends o ho).1]
  have hredirected : p.olds.find? (fun o => !o.redirected) = none := List.find?_eq_none.mpr fun o ho => by simp [(hends o ho).2]
  have hclosed : closed p = false := by
    unfold closed
    split
    · rename_i x y hp
      have := hopen x y hp
      simpa [Bool.and_eq_false_iff, not_and_or] using this
    · rfl
  rw [linkAct, hclaimed]
  dsimp only
  rw [hres, hclosed, hredirected]
  rfl

section Resolve
variable {p : LinkProg} {first : Bool} {me oth : WireSide} {s t : State}

/-- The sides whose own slots are looked at: the half-join's own comes first. -/
theorem AtSide.opens (h : AtSide p first me oth) : p.sides.filter WireSide.open = me :: if oth.open then [oth] else [] := by
  have hme := (open_iff me).mpr h.due
  rw [h.sides]
  cases first with
  | true => cases ho : oth.open <;> simp [hme, ho]
  | false =>
    have ho := (open_eq_false_iff oth).mpr (h.done rfl)
    simp [hme, ho]

theorem AtSide.linkAct_eq (h : AtSide p first me oth) (s : State) : linkAct p s = resolve p s := linkAct_of_redirected h.ends h.unclosed h.unresolved s

section Looks
variable (h : AtSide p first me oth)
include h

theorem AtSide.linkAct_of_taken_stop {e : Stop} (ht : taken (me :: if oth.open then [oth] else []) s = .error e) : linkAct p s = linkStop p e s := by
  rw [h.linkAct_eq, resolve, h.opens, ht, h.stays, h.sides]
  cases first <;> rfl

theorem AtSide.linkAct_of_taken (ht : taken (me :: if oth.open then [oth] else []) s = .ok (true, t)) :
    linkAct p s = .going { p with status := p.status ||| 2, sides := [], resolved := true } t := by
  rw [h.linkAct_eq, resolve, h.opens, ht, h.stays, h.sides]
  cases first <;> rfl

variable (ht : taken (me :: if oth.open then [oth] else []) s = .ok (false, t))
  (hring : (if first then ring me oth t else ring oth me t) = false)
include ht hring

/-- A half-join that does not wait, or that finds HOLD, or that is the only one left, is the act. -/
theorem AtSide.linkAct_of_half (hwait : ∀ q u, halfJoin p first me oth t = .wait q u → q.onHold = true ∨ ¬Open oth) :
    linkAct p s = halfJoin p first me oth t := by
  have hme := (open_iff me).mpr h.due
  rw [h.linkAct_eq, resolve, h.opens, ht, h.stays, h.sides]
  cases first with
  | true =>
    have hno : ring me oth t = false := hring
    simp only [if_true, hno, hme, Bool.false_eq_true, if_false]
    cases hj : halfJoin p true me oth t with
    | going q u => rfl
    | fault f u => rfl
    | wait q u =>
      rcases hwait q u hj with hhold | hshut
      · simp [hhold]
      · simp [(open_eq_false_iff oth).mpr hshut]
  | false =>
    have hno : ring oth me t = false := hring
    have ho := (open_eq_false_iff oth).mpr (h.done rfl)
    simp only [Bool.false_eq_true, if_false, hno, ho, hme, if_true]

omit hring in
/-- Where the first side waits, so does the act, if the second does too. -/
theorem AtSide.linkAct_of_second_waits (hfirst : first = true) (hno : ring me oth t = false) {q q' : LinkProg} {u u' : State}
    (hj : halfJoin p true me oth t = .wait q u) (hj' : halfJoin q false oth me u = .wait q' u') : linkAct p s = .wait q u ∨ linkAct p s = .wait q' u' := by
  subst hfirst
  have hme := (open_iff me).mpr h.due
  rw [h.linkAct_eq, resolve, h.opens, ht, h.stays, h.sides]
  simp only [if_true, hno, hme, Bool.false_eq_true, if_false, hj]
  by_cases hc : (!q.onHold && q.rehome.isNone && oth.open) = true
  · rw [if_pos hc, hj']
    exact .inr rfl
  · rw [if_neg hc]
    exact .inl rfl

end Looks

end Resolve

/-! ### The compare-and-swap (02 R40) -/

/-- The words that a half-join on a side replaces. -/
def WireSide.hits (x : WireSide) (w : Word) : Bool := w == x.exp || (x.alt != 0 && w == x.alt)

theorem hits_iff (x : WireSide) (w : Word) : x.hits w = true ↔ w = x.exp ∨ (x.alt ≠ 0 ∧ w = x.alt) := by
  simp [WireSide.hits]

/-- The compare-and-swap of a half-join on side x, with v the other side's port: what it writes over the slot's bytes l, where its turn has come. -/
def swap (x : WireSide) (due : Bool) (v : Word) (l : List Byte) : Option (List Byte) := if due && x.hits (bytesWord l) then some (wordBytes v) else none

theorem swap_of_hit {x : WireSide} {v : Word} {l : List Byte} (h : x.hits (bytesWord l) = true) : swap x true v l = some (wordBytes v) := by
  rw [swap, h]
  rfl

theorem swap_of_undue (x : WireSide) (v : Word) (l : List Byte) : swap x false v l = none := rfl

theorem swap_of_miss {x : WireSide} {v : Word} {l : List Byte} (due : Bool) (h : x.hits (bytesWord l) = false) : swap x due v l = none := by
  rw [swap, h, Bool.and_false]
  rfl

/-- The side once its half-join is made. -/
def WireSide.joinedTo (x : WireSide) (y : Word) : WireSide := { x with exp := y, alt := 0, face := none, cell := none, made := true }

/-- The slot into which the completing party of a meeting writes EMPTY. -/
def partySlot (me : WireSide) (o : Option Party) : Word := match o with | some o => o.here.face.getD me.port | none => me.port

/-- What a half-join does with a word w that it does not expect. -/
def missed (p : LinkProg) (me oth : WireSide) (w : Word) (s : State) : LinkOut :=
  if w = holdWord ∧ tagOf me.exp = 1 then .wait { p with onHold := true } s
  else if tagOf w = 3 ∧ portOk w then
    let o := partyOf s me
    if o.isNone && claiming s me.port then .wait { p with onHold := true } s
    else if !completes me o then .wait p s
    else
      match slotKey s (partySlot me o) with
      | .error e => linkStop p e s
      | .ok (none, s) => linkFault .linkCorrupt s
      | .ok (some k, s) => completeMeeting p me oth k w o s
  else if portOk w = false ∨ w = holdWord then linkFault .linkCorrupt s
  else workDone p me oth s

section HalfJoin
variable {p : LinkProg} {first : Bool} {me oth : WireSide} {s : State} {k : Nat}

/-- No party faces the side that has still to make a half-join of its own there. -/
def Clear (s : State) (x : WireSide) : Prop := ∀ o, facing s x = some o → o.here.face ≠ none

variable (hclear : Clear s me) (hk : SlotAt s me.port k)
include hclear hk

theorem halfJoin_of_slot : halfJoin p first me oth s =
    let due := first || !oth.open
    let r := clrRmw k 8 (swap me due oth.port) s
    if me.hits (bytesWord r.1) && !due then .wait p r.2
    else if me.hits (bytesWord r.1) then
      .going ({ p with sides := if first then [me.joinedTo oth.port, oth] else [oth, me.joinedTo oth.port], cells := p.cells ++ me.cell.toList } : LinkProg).settle r.2
    else missed p me oth (bytesWord r.1) r.2 := by
  unfold halfJoin
  dsimp only
  refine (if_neg fun hblock => ?_).trans ?_
  · cases hf : facing s me with
    | none =>
      rw [hf] at hblock
      cases hblock
    | some o =>
      rw [hf] at hblock
      exact hclear o hf (Option.isNone_iff_eq_none.mp hblock)
  · rw [slotKey_of_slotAt hk]
    rfl

theorem halfJoin_of_hit (hdue : first = true ∨ ¬Open oth) (hhit : me.hits (wordAt s.mem k) = true) :
    ∃ t, Writes s.mem t [(k, oth.port)] ∧ halfJoin p first me oth s = .going ({ p with
      sides := if first then [me.joinedTo oth.port, oth] else [oth, me.joinedTo oth.port], cells := p.cells ++ me.cell.toList } : LinkProg).settle t := by
  have hd : (first || !oth.open) = true := by
    rw [Bool.or_eq_true, Bool.not_eq_true', open_eq_false_iff]
    exact hdue
  obtain ⟨t, hrmw, ht⟩ := clrRmw_writes (s := s) hk.1 (swap_of_hit (v := oth.port) hhit)
  have hw : bytesWord (memRead s.mem k 8) = wordAt s.mem k := rfl
  refine ⟨t, writes_of_memWrite ht, ?_⟩
  rw [halfJoin_of_slot hclear hk, hd]
  dsimp only
  rw [hrmw, hw, hhit]
  rfl

/-- A half-join on the second side only looks, while the first is open. -/
theorem halfJoin_of_undue (hfirst : first = false) (ho : Open oth) (hhit : me.hits (wordAt s.mem k) = true) :
    ∃ t, Looked s t ∧ halfJoin p first me oth s = .wait p t := by
  have hd : (first || !oth.open) = false := by simp [hfirst, (open_iff oth).mpr ho]
  obtain ⟨t, hrmw, ht⟩ := clrRmw_looks (s := s) hk.1 (swap_of_undue me oth.port (memRead s.mem k 8))
  have hw : bytesWord (memRead s.mem k 8) = wordAt s.mem k := rfl
  refine ⟨t, ht, ?_⟩
  rw [halfJoin_of_slot hclear hk, hd]
  dsimp only
  rw [hrmw, hw, hhit]
  rfl

theorem halfJoin_of_miss (hmiss : me.hits (wordAt s.mem k) = false) :
    ∃ t, Looked s t ∧ halfJoin p first me oth s = missed p me oth (wordAt s.mem k) t := by
  obtain ⟨t, hrmw, ht⟩ := clrRmw_looks (s := s) hk.1 (swap_of_miss (v := oth.port) (l := memRead s.mem k 8) (first || !oth.open) hmiss)
  have hw : bytesWord (memRead s.mem k 8) = wordAt s.mem k := rfl
  refine ⟨t, ht, ?_⟩
  rw [halfJoin_of_slot hclear hk]
  dsimp only
  rw [hrmw, hw, hmiss, Bool.false_and, if_neg Bool.false_ne_true, if_neg Bool.false_ne_true]

end HalfJoin
end Sys2Proof.Machine
end

section
/-!
PROOFS. What a half-join does with a word that it does not expect: it waits, meets another `link`, finds its work done, or faults (02 R40 R41).
-/

namespace Sys2Proof.Machine
open Sys2Proof Sys2Proof.Say

/-! ### Parties -/

section Parties
variable {s : State} {x : WireSide}

theorem partyWith_of_alone (h : otherLinks s = []) (f : WireSide → Bool) : partyWith f s = none := by rw [partyWith, h]; rfl

theorem facing_of_alone (h : otherLinks s = []) : facing s x = none := by
  rw [facing]
  cases x.face with
  | none => rfl
  | some a => exact partyWith_of_alone h _

theorem partyOf_of_alone (h : otherLinks s = []) : partyOf s x = none := by
  rw [partyOf, facing_of_alone h]
  exact partyWith_of_alone h _

theorem claiming_of_alone (h : otherLinks s = []) (a : Word) : claiming s a = false := by rw [claiming, h]; rfl

theorem clear_of_alone (h : otherLinks s = []) : Clear s x := fun o ho => by
  rw [facing_of_alone h] at ho
  cases ho

theorem ring_of_faces {l r : WireSide} (hl : l.face ≠ some r.port) (hr : r.face ≠ some l.port) : ring l r s = false := by
  simp [ring, hl, hr]

theorem ring_of_faced {l r : WireSide} {o : Party} (h : facing s l = some o) : ring l r s = false := by
  simp [ring, h]

theorem partyOf_of_facing {o : Party} (h : facing s x = some o) : partyOf s x = some o := by rw [partyOf, h]

/-- The only other `link` of the net faces a side, with its own first side at that side's face. -/
theorem facing_of_only {b : Nat} {o : LinkProg} {h z : WireSide} {a : Word} (hlinks : otherLinks s = [(b, o)]) (hsides : o.sides = [h, z])
    (hx : x.face = some a) (hport : h.port = a) (hface : h.face = some x.port) : facing s x = some ⟨b, o, h, z⟩ := by
  rw [facing, hx]
  show partyWith _ s = _
  rw [partyWith, hlinks]
  simp [hsides, hport, hface]

end Parties

/-! ### A word that is not expected -/

theorem tagOf_holdWord : tagOf holdWord = 4 := by decide

section Missed
variable {p : LinkProg} {me oth : WireSide} {w : Word} {s : State}

theorem missed_of_hold (hw : w = holdWord) (hexp : tagOf me.exp = 1) : missed p me oth w s = .wait { p with onHold := true } s :=
  if_pos ⟨hw, hexp⟩

theorem missed_of_hold_corrupt (hw : w = holdWord) (hexp : tagOf me.exp ≠ 1) : missed p me oth w s = linkFault .linkCorrupt s := by
  have htag : tagOf w = 4 := by rw [hw, tagOf_holdWord]
  rw [missed, if_neg fun h => hexp h.2, if_neg (by rw [htag]; simp), if_pos (.inr hw)]

theorem missed_of_broken (hw : portOk w = false) (hhold : w ≠ holdWord) : missed p me oth w s = linkFault .linkCorrupt s := by
  rw [missed, if_neg fun h => hhold h.1, if_neg (by rw [hw]; simp), if_pos (.inl hw)]

theorem missed_of_other (hok : portOk w = true) (hhold : w ≠ holdWord) (htag : tagOf w ≠ 3) : missed p me oth w s = workDone p me oth s := by
  rw [missed, if_neg fun h => hhold h.1, if_neg fun h => htag h.1, if_neg]
  rintro (h | h)
  · rw [hok] at h
    cases h
  · exact hhold h

theorem ne_holdWord_of_tag {w : Word} (h : tagOf w = 3) : w ≠ holdWord := by
  rintro rfl
  rw [tagOf_holdWord] at h
  cases h

section Redir
variable (htag : tagOf w = 3) (hok : portOk w = true) (hclaim : partyOf s me = none → claiming s me.port = false)

include hclaim in
theorem unclaimed : ((partyOf s me).isNone && claiming s me.port) = false := by
  cases ho : partyOf s me with
  | none => exact hclaim ho
  | some o => rfl

include htag hok hclaim

theorem missed_defers (hc : completes me (partyOf s me) = false) : missed p me oth w s = .wait p s := by
  rw [missed, if_neg fun h => ne_holdWord_of_tag htag h.1, if_pos ⟨htag, hok⟩]
  dsimp only
  rw [unclaimed hclaim, hc]
  rfl

theorem missed_completes {k : Nat} (hc : completes me (partyOf s me) = true) (hk : SlotAt s (partySlot me (partyOf s me)) k) :
    missed p me oth w s = completeMeeting p me oth k w (partyOf s me) s := by
  rw [missed, if_neg fun h => ne_holdWord_of_tag htag h.1, if_pos ⟨htag, hok⟩]
  dsimp only
  rw [unclaimed hclaim, hc, slotKey_of_slotAt hk]
  rfl

end Redir

/-! ### Work already done (02 R41) -/

theorem workDone_of_one_end (h : ∀ x y, p.olds ≠ [x, y]) : workDone p me oth s = linkFault .linkCorrupt s := by
  have hnone : otherEnd p me oth = none := by
    unfold otherEnd
    split
    · rename_i x y hp
      exact absurd hp (h x y)
    · rfl
  rw [workDone, hnone]

theorem otherEnd_eq {x y : OldEnd} (hp : p.olds = [x, y] ∨ p.olds = [y, x]) (hne : x.slot ≠ y.slot)
    (hface : oth.face = some x.slot ∨ (oth.face = none ∧ me.face = some y.slot)) : otherEnd p me oth = some x.slot := by
  rcases hp with hp | hp
  · rw [otherEnd, hp]
    dsimp only
    rcases hface with h | ⟨h, h'⟩
    · rw [if_pos (.inl h)]
    · rw [if_pos (.inr ⟨by simp [h], by simp [h', hne.symm]⟩)]
  · rw [otherEnd, hp]
    dsimp only
    rcases hface with h | ⟨h, h'⟩
    · rw [if_neg (by simp [h, hne])]
    · rw [if_neg (by simp [h, h'])]

theorem workDone_of_end {a : Word} {k : Nat} (ha : otherEnd p me oth = some a) (htag : tagOf a = 1) (hk : SlotAt s a k) :
    ∃ t, Looked s t ∧ workDone p me oth s =
      if wordAt s.mem k = 0 then .going { p with sides := [], resolved := true, cells := p.cells ++ me.cell.toList } t else linkFault .linkCorrupt t := by
  obtain ⟨t, hread, ht⟩ := readSlot_looks (s := s) hk.1
  refine ⟨t, ht, ?_⟩
  rw [workDone, ha]
  dsimp only
  rw [access1_of_slotAt hk htag]
  dsimp only
  rw [hread]

end Missed

/-! ### A meeting is completed (02 R41) -/

section Complete
variable {p : LinkProg} {me oth : WireSide} {w : Word} {s : State} {c k : Nat}

/-- The side that a cell names to a `link` that goes on alone, me its own side at the meeting. -/
def farOf (me : WireSide) (y e : Word) : WireSide :=
  { port := y, exp := e, alt := if tagOf e = 1 then me.face.getD 0 else 0, face := if tagOf e = 1 then some e else none }

/-- The side that the completing party of a meeting takes over from the other. -/
def restOf (o : Party) (y e : Word) : WireSide :=
  if o.prog.grown then o.rest else { o.rest with port := y, exp := e, alt := if tagOf e = 1 then o.here.port else 0 }

variable (hk : isPurse k = true) (hc : CellAt s w c) (hport : Port (wordAt s.mem c))
  (hexp : wordAt s.mem (c + 8) = holdWord ∨ portOk (wordAt s.mem (c + 8)) = true ∧ tagOf (wordAt s.mem (c + 8)) = 1)
include hk hc hport hexp

theorem completeMeeting_alone : ∃ t, Writes s.mem t [(k, 0)] ∧ completeMeeting p me oth k w none s = .going ({ p with
    sides := [{ oth with made := false }, farOf me (wordAt s.mem c) (wordAt s.mem (c + 8))], grown := true, status := p.status ||| 4
    cells := p.cells ++ me.cell.toList ++ [c] } : LinkProg).settle t := by
  obtain ⟨t, hcell, ht⟩ := cellOf_looks hc hport hexp
  refine ⟨writeSlot k 0 t, ht.mem ▸ writeSlot_writes hk 0 t, ?_⟩
  rw [completeMeeting, hcell]
  rfl

theorem completeMeeting_with (o : Party) : ∃ t, Writes s.mem t [(k, 0)] ∧
    (t.ctx o.berth).wait = .link { o.prog with sides := [], cells := [], gone := o.here.face, status := o.prog.status ||| 2 } ∧
    completeMeeting p me oth k w (some o) s = .going ({ p with
      sides := [{ oth with made := false }, { restOf o (wordAt s.mem c) (wordAt s.mem (c + 8)) with made := false }], grown := true, status := p.status ||| 4
      cells := p.cells ++ o.prog.cells ++ me.cell.toList ++ o.here.cell.toList } : LinkProg).settle t := by
  obtain ⟨t, hcell, ht⟩ := cellOf_looks hc hport hexp
  have hwrites : Writes s.mem (writeSlot k 0 t) [(k, 0)] := ht.mem ▸ writeSlot_writes hk 0 t
  refine ⟨(writeSlot k 0 t).setCtx o.berth { (writeSlot k 0 t).ctx o.berth with
    wait := .link { o.prog with sides := [], cells := [], gone := o.here.face, status := o.prog.status ||| 2 } }, hwrites, ?_, ?_⟩
  · rw [State.ctx_setCtx_same]
  · rw [completeMeeting, hcell]
    rfl

end Complete
end Sys2Proof.Machine
end

section
/-!
PROOFS. Half-joins compare and swap, and `link`s that meet join their targets: the statement (02 R39 to R41, 11 R202).
-/

namespace Sys2Proof.Machine
open Sys2Proof Sys2Proof.Say

/-! ### The act at a half-join -/

section Act
variable {p : LinkProg} {first : Bool} {me oth : WireSide} {s : State} {k : Nat}

theorem AtSide.looks (hown : OwnSlotStands s me) (hoth : Open oth → OwnSlotStands s oth) :
    ∃ t, Looked s t ∧ taken (me :: if oth.open then [oth] else []) s = .ok (false, t) := by
  refine taken_of_stands fun x hx => ?_
  rcases List.mem_cons.mp hx with rfl | hx
  · exact hown
  · cases ho : oth.open with
    | false => simp [ho] at hx
    | true =>
      have hxo : x = oth := by simpa [ho] using hx
      rw [hxo]
      exact hoth ((open_iff oth).mp ho)

/-- No look at the own slots of a side finds it taken, closed in a chain, or waited for by a party that has not joined the wire there. -/
structure Stands (s : State) (first : Bool) (me oth : WireSide) : Prop where
  own : OwnSlotStands s me
  other : Open oth → OwnSlotStands s oth
  chain : ∀ t, Looked s t → (if first then ring me oth t else ring oth me t) = false
  clear : ∀ t, Looked s t → Clear t me

variable (h : AtSide p first me oth) (hs : Stands s first me oth) (hk : SlotAt s me.port k)
include h hs hk

theorem AtSide.linkAct_of_hit (hhit : me.hits (wordAt s.mem k) = true) : ∃ t, Writes s.mem t [(k, oth.port)] ∧ linkAct p s = .going ({ p with
    sides := if first then [me.joinedTo oth.port, oth] else [oth, me.joinedTo oth.port], cells := p.cells ++ me.cell.toList } : LinkProg).settle t := by
  obtain ⟨u, hu, htaken⟩ := AtSide.looks hs.own hs.other
  have hdue : first = true ∨ ¬Open oth := by
    cases first with
    | true => exact .inl rfl
    | false => exact .inr (h.done rfl)
  rw [← hu.mem] at hhit
  obtain ⟨t, hwrites, hj⟩ := halfJoin_of_hit (p := p) (hs.clear u hu) (hu.slotAt hk) hdue hhit
  refine ⟨t, hu.mem ▸ hwrites, ?_⟩
  rw [h.linkAct_of_half htaken (hs.chain u hu) fun q v hq => (by rw [hj] at hq; cases hq), hj]

/-- A word that is not expected is the act's, where it does not wait, or finds HOLD, or has no other side to look at. -/
theorem AtSide.linkAct_of_miss (hmiss : me.hits (wordAt s.mem k) = false) : ∃ t, Looked s t ∧
    ((∀ q u, missed p me oth (wordAt s.mem k) t = .wait q u → q.onHold = true ∨ ¬Open oth) → linkAct p s = missed p me oth (wordAt s.mem k) t) := by
  obtain ⟨u, hu, htaken⟩ := AtSide.looks hs.own hs.other
  rw [← hu.mem] at hmiss
  obtain ⟨t, ht, hj⟩ := halfJoin_of_miss (p := p) (first := first) (oth := oth) (hs.clear u hu) (hu.slotAt hk) hmiss
  rw [hu.mem] at hj
  exact ⟨t, hu.trans ht, fun hwait => by rw [h.linkAct_of_half htaken (hs.chain u hu) (by rw [hj]; exact hwait), hj]⟩

/-- Where the first side defers to another party, and the second finds what it expects, nothing is written. -/
theorem AtSide.linkAct_of_deferred (hmiss : me.hits (wordAt s.mem k) = false) (hdefer : ∀ t, Looked s t → missed p me oth (wordAt s.mem k) t = .wait p t)
    (hclear : Open oth → ∀ t, Looked s t → Clear t oth) (hoth : Open oth → ∃ j, SlotAt s oth.port j ∧ wordAt s.mem j = oth.exp) :
    ∃ t, Looked s t ∧ linkAct p s = .wait p t := by
  by_cases ho : Open oth
  · obtain ⟨j, hj, hexp⟩ := hoth ho
    have hfirst : first = true := by
      cases first with
      | true => rfl
      | false => exact absurd ho (h.done rfl)
    subst hfirst
    obtain ⟨u, hu, htaken⟩ := AtSide.looks hs.own hs.other
    rw [← hu.mem] at hmiss
    obtain ⟨t, ht, hhalf⟩ := halfJoin_of_miss (p := p) (first := true) (oth := oth) (hs.clear u hu) (hu.slotAt hk) hmiss
    have hut := hu.trans ht
    rw [hu.mem, hdefer t hut] at hhalf
    have hhit : oth.hits (wordAt t.mem j) = true := (hits_iff oth _).mpr (.inl (by rw [hut.mem, hexp]))
    obtain ⟨v, hv, hhalf'⟩ := halfJoin_of_undue (p := p) (hclear ho t hut) (hut.slotAt hj) rfl h.due hhit
    rcases h.linkAct_of_second_waits htaken rfl (hs.chain u hu) hhalf hhalf' with hact | hact
    · exact ⟨t, hut, hact⟩
    · exact ⟨v, hut.trans hv, hact⟩
  · obtain ⟨t, ht, hact⟩ := h.linkAct_of_miss hs hk hmiss
    refine ⟨t, ht, ?_⟩
    rw [hact fun q u _ => .inr ho, hdefer t ht]

end Act

theorem atSide_of_joining {p : LinkProg} {l r : WireSide} (hj : Joining p l r) (first : Bool) (hopen : Open (if first then l else r))
    (hdone : first = false → ¬Open l) : AtSide p first (if first then l else r) (if first then r else l) := by
  obtain ⟨hends, hunclosed, hres, hstays, hsides⟩ := hj
  cases first with
  | true => exact ⟨hends, hunclosed, hres, hstays, hsides, hopen, fun h => nomatch h⟩
  | false => exact ⟨hends, hunclosed, hres, hstays, hsides, hopen, hdone⟩

theorem Looked.alone {s t : State} (h : Looked s t) (halone : otherLinks s = []) : otherLinks t = [] := h.links.trans halone

theorem slotNo_eq (w : Word) : slotNo w = w.toNat % 2 ^ 60 := by
  rw [slotNo, addrOf_eq, BitVec.toNat_ofNat, Nat.mod_eq_of_lt (lt_of_lt_of_le (Nat.mod_lt _ (by norm_num)) (by norm_num))]


/-! ### One `link` alone (02 R40) -/

/-- Memory reads as it did. -/
def SameBytes (s t : State) : Prop := ∀ a, memGet t.mem a = memGet s.mem a

theorem Looked.sameBytes {s t : State} (h : Looked s t) : SameBytes s t := fun a => by rw [h.mem]

/-- The act faults LINK_CORRUPT with LNK set, and has written nothing. -/
def Corrupts (p : LinkProg) (s : State) : Prop := ∃ t, linkAct p s = .fault { cause := .linkCorrupt, lnk := true } t ∧ SameBytes s t

/-- The act is tried again later, with the `link` where it was. -/
def Waits (p : LinkProg) (s : State) : Prop :=
  ∃ q t, linkAct p s = .wait q t ∧ SameBytes s t ∧ q.olds = p.olds ∧ q.sides = p.sides ∧ q.cells = p.cells ∧ q.status = p.status

section Alone
variable {p : LinkProg} {first : Bool} {me oth : WireSide} {s : State} {k : Nat}

theorem not_open_joinedTo (x : WireSide) (y : Word) : ¬Open (x.joinedTo y) := fun h => by cases h.1

/-- The `link` once its half-join on `me` is made. -/
theorem settle_joined_of_open (h : AtSide p first me oth) (ho : Open oth) (cells : List Nat) : (({ p with
    sides := if first then [me.joinedTo oth.port, oth] else [oth, me.joinedTo oth.port], cells := cells } : LinkProg).settle) =
      { p with sides := [me.joinedTo oth.port, oth], cells := cells } := by
  cases first with
  | true => exact settle_of_open (x := oth) (by simp) ho
  | false => exact absurd ho (h.done rfl)

theorem settle_joined_of_shut (ho : ¬Open oth) (cells : List Nat) : (({ p with
    sides := if first then [me.joinedTo oth.port, oth] else [oth, me.joinedTo oth.port], cells := cells } : LinkProg).settle) =
      { p with sides := [], resolved := true, cells := cells ++ oth.cell.toList
               push := if first then redexOf oth.port me.port else redexOf me.port oth.port } := by
  cases first with
  | true =>
    rw [settle_of_shut (l := me.joinedTo oth.port) (r := oth) rfl (not_open_joinedTo _ _) ho]
    rfl
  | false =>
    rw [settle_of_shut (l := oth) (r := me.joinedTo oth.port) rfl ho (not_open_joinedTo _ _)]
    simp [WireSide.joinedTo]

variable (h : AtSide p first me oth)
include h

theorem AtSide.ends_of_empty {a : Word} (hf : me.face = some a) (htag : tagOf a = 1) (ha : SlotAt s a k) (hw : wordAt s.mem k = 0) :
    ∃ t, linkAct p s = .going { p with status := p.status ||| 2, sides := [], resolved := true } t ∧ SameBytes s t := by
  obtain ⟨t, ht, htaken⟩ := taken_of_empty (l := if oth.open then [oth] else []) hf htag ha hw
  exact ⟨t, h.linkAct_of_taken htaken, ht.sameBytes⟩

theorem AtSide.corrupts_of_broken {a : Word} (hf : me.face = some a) (htag : tagOf a = 1) (ha : SlotAt s a k) (hw : wordAt s.mem k ≠ 0)
    (hok : portOk (wordAt s.mem k) = false) : Corrupts p s := by
  obtain ⟨t, ht, htaken⟩ := taken_of_broken (l := if oth.open then [oth] else []) hf htag ha hw hok
  exact ⟨t, h.linkAct_of_taken_stop htaken, ht.sameBytes⟩

variable (hs : Stands s first me oth) (hk : SlotAt s me.port k) (hmiss : me.hits (wordAt s.mem k) = false)
include hs hk hmiss

/-- An act that a missed word ends in going on or a fault. -/
theorem AtSide.acts_of_missed {out : State → LinkOut} (hout : ∀ t, Looked s t → missed p me oth (wordAt s.mem k) t = out t)
    (hgo : ∀ t q u, out t = .wait q u → q.onHold = true ∨ ¬Open oth) : ∃ t, Looked s t ∧ linkAct p s = out t := by
  obtain ⟨t, ht, hact⟩ := h.linkAct_of_miss hs hk hmiss
  rw [hout t ht] at hact
  exact ⟨t, ht, hact (hgo t)⟩

theorem AtSide.corrupts_of_missed (hout : ∀ t, Looked s t → missed p me oth (wordAt s.mem k) t = linkFault .linkCorrupt t) : Corrupts p s := by
  obtain ⟨t, ht, hact⟩ := h.acts_of_missed hs hk hmiss hout fun t q u he => nomatch he
  exact ⟨t, hact, ht.sameBytes⟩

theorem AtSide.waits_of_hold (hw : wordAt s.mem k = holdWord) (hexp : tagOf me.exp = 1) : Waits p s := by
  obtain ⟨t, ht, hact⟩ := h.acts_of_missed hs hk hmiss (fun t _ => missed_of_hold hw hexp) fun t q u he => by
    cases he
    exact .inl rfl
  exact ⟨_, t, hact, ht.sameBytes, rfl, rfl, rfl, rfl⟩

theorem AtSide.corrupts_of_hold (hw : wordAt s.mem k = holdWord) (hexp : tagOf me.exp ≠ 1) : Corrupts p s :=
  h.corrupts_of_missed hs hk hmiss fun _ _ => missed_of_hold_corrupt hw hexp

/-- A word that is no REDIR of good form, with one old end, or of a bad form. -/
theorem AtSide.corrupts_of_other (hhold : wordAt s.mem k ≠ holdWord) (hredir : ¬(tagOf (wordAt s.mem k) = 3 ∧ portOk (wordAt s.mem k) = true))
    (hone : portOk (wordAt s.mem k) = false ∨ ∀ x y, p.olds ≠ [x, y]) : Corrupts p s := by
  refine h.corrupts_of_missed hs hk hmiss fun t _ => ?_
  cases hok : portOk (wordAt s.mem k) with
  | false => exact missed_of_broken hok hhold
  | true =>
    rw [missed_of_other hok hhold fun htag => hredir ⟨htag, hok⟩]
    exact workDone_of_one_end (hone.resolve_left (by simp [hok]))

/-- With two old ends the other one's slot is looked at: where it reads EMPTY the work is done. -/
theorem AtSide.acts_of_workDone {a : Word} {j : Nat} (hhold : wordAt s.mem k ≠ holdWord) (hok : portOk (wordAt s.mem k) = true)
    (htag : tagOf (wordAt s.mem k) ≠ 3) (hend : otherEnd p me oth = some a) (haux : tagOf a = 1) (ha : SlotAt s a j) :
    ∃ t, Looked s t ∧ linkAct p s =
      if wordAt s.mem j = 0 then .going { p with sides := [], resolved := true, cells := p.cells ++ me.cell.toList } t else linkFault .linkCorrupt t := by
  obtain ⟨t, ht, hact⟩ := h.linkAct_of_miss hs hk hmiss
  rw [missed_of_other hok hhold htag] at hact
  obtain ⟨u, hu, hdone⟩ := workDone_of_end (p := p) (me := me) (oth := oth) hend haux (ht.slotAt ha)
  rw [hdone, ht.mem] at hact
  refine ⟨u, ht.trans hu, hact fun q v hq => ?_⟩
  split at hq <;> cases hq

section Redir
variable (halone : otherLinks s = []) (htag : tagOf (wordAt s.mem k) = 3) (hok : portOk (wordAt s.mem k) = true)
include halone htag hok

/-- A meeting with a `link` that has ended, by the party with the lower slot. -/
theorem AtSide.meets_alone {c : Nat} (hlow : ∀ a, me.face = some a → slotNo a ≤ slotNo me.port) (hc : CellAt s (wordAt s.mem k) c)
    (hport : Port (wordAt s.mem c)) (hexp : wordAt s.mem (c + 8) = holdWord ∨ portOk (wordAt s.mem (c + 8)) = true ∧ tagOf (wordAt s.mem (c + 8)) = 1)
    (hopen : tagOf oth.port ∈ [1, 2] ∨ tagOf (wordAt s.mem c) ∈ [1, 2]) : ∃ t, Writes s.mem t [(k, 0)] ∧ linkAct p s = .going { p with
      sides := [{ oth with made := false }, farOf me (wordAt s.mem c) (wordAt s.mem (c + 8))], grown := true, status := p.status ||| 4
      cells := p.cells ++ me.cell.toList ++ [c] } t := by
  have hcomp : completes me none = true := by
    unfold completes
    cases hf : me.face with
    | none => rfl
    | some a => exact decide_eq_true (hlow a hf)
  obtain ⟨t, ht, hact⟩ := h.linkAct_of_miss hs hk hmiss
  have hparty : partyOf t me = none := partyOf_of_alone (ht.alone halone)
  have hmissed := missed_completes (p := p) (oth := oth) (k := k) htag hok (fun _ => claiming_of_alone (ht.alone halone) me.port)
    (by rw [hparty]; exact hcomp) (by rw [hparty]; exact ht.slotAt hk)
  rw [hparty] at hmissed
  obtain ⟨u, hwrites, hdone⟩ := completeMeeting_alone (p := p) (me := me) (oth := oth) (s := t) hk.1 (ht.cellAt hc)
    (by rw [ht.mem]; exact hport) (by rw [ht.mem]; exact hexp)
  rw [hmissed, hdone, ht.mem] at hact
  refine ⟨u, ht.mem ▸ hwrites, (hact fun q v hq => nomatch hq).trans (congrArg (LinkOut.going · u) ?_)⟩
  rcases hopen with ho | ho
  · exact settle_of_open (x := { oth with made := false }) (by simp) ⟨rfl, ho⟩
  · exact settle_of_open (x := farOf me (wordAt s.mem c) (wordAt s.mem (c + 8))) (by simp) ⟨rfl, ho⟩

theorem AtSide.waits_alone {a : Word} (hf : me.face = some a) (hlow : slotNo me.port < slotNo a)
    (hoth : Open oth → ∃ j, SlotAt s oth.port j ∧ wordAt s.mem j = oth.exp) : Waits p s := by
  have hcomp : completes me none = false := by
    unfold completes
    rw [hf]
    exact decide_eq_false (not_le.mpr hlow)
  obtain ⟨t, ht, hact⟩ := h.linkAct_of_deferred hs hk hmiss (fun t ht => missed_defers htag hok (fun _ => claiming_of_alone (ht.alone halone) me.port)
    (by rw [partyOf_of_alone (ht.alone halone)]; exact hcomp)) (fun _ t ht => clear_of_alone (ht.alone halone)) hoth
  exact ⟨p, t, hact, ht.sameBytes, rfl, rfl, rfl, rfl⟩

end Redir
end Alone


/-! ### Two `link`s that meet (02 R41) -/

section Two
variable {p o : LinkProg} {l r h z : WireSide} {s : State} {b k : Nat} {a : Word}

/-- The side l of a `link`, reached through the slot a, and the side h of the only other one, o of berth b, face each other. -/
structure FaceToFace (s : State) (l : WireSide) (a : Word) (b : Nat) (o : LinkProg) (h z : WireSide) : Prop where
  links : otherLinks s = [(b, o)]
  sides : o.sides = [h, z]
  face : l.face = some a
  port : h.port = a
  back : h.face = some l.port

theorem FaceToFace.facing (hf : FaceToFace s l a b o h z) {t : State} (ht : Looked s t) : facing t l = some ⟨b, o, h, z⟩ :=
  facing_of_only (ht.links.trans hf.links) hf.sides hf.face hf.port hf.back

theorem FaceToFace.partyOf (hf : FaceToFace s l a b o h z) {t : State} (ht : Looked s t) : partyOf t l = some ⟨b, o, h, z⟩ :=
  partyOf_of_facing (hf.facing ht)

theorem FaceToFace.completes (hf : FaceToFace s l a b o h z) : completes l (some ⟨b, o, h, z⟩) = decide (slotNo a ≤ slotNo l.port) := by
  unfold Machine.completes
  rw [hf.face]
  dsimp only
  rw [hf.back]

theorem FaceToFace.stands (hf : FaceToFace s l a b o h z) (hown : OwnSlotStands s l) (hoth : Open r → OwnSlotStands s r) : Stands s true l r := by
  refine ⟨hown, hoth, fun t ht => ring_of_faced (hf.facing ht), fun t ht x hx => ?_⟩
  rw [hf.facing ht] at hx
  cases hx
  rw [hf.back]
  exact Option.some_ne_none _

variable (hf : FaceToFace s l a b o h z) (hat : AtSide p true l r) (hs : Stands s true l r) (hk : SlotAt s l.port k)
  (hmiss : l.hits (wordAt s.mem k) = false) (htag : tagOf (wordAt s.mem k) = 3) (hok : portOk (wordAt s.mem k) = true)
include hf hat hs hk hmiss htag hok

/-- The party with the lower slot completes the meeting, and takes over the other's other side. -/
theorem AtSide.meets_party {c : Nat} (hlow : slotNo a ≤ slotNo l.port) (hc : CellAt s (wordAt s.mem k) c) (hport : Port (wordAt s.mem c))
    (hexp : wordAt s.mem (c + 8) = holdWord ∨ portOk (wordAt s.mem (c + 8)) = true ∧ tagOf (wordAt s.mem (c + 8)) = 1)
    (hopen : tagOf r.port ∈ [1, 2] ∨ tagOf (restOf ⟨b, o, h, z⟩ (wordAt s.mem c) (wordAt s.mem (c + 8))).port ∈ [1, 2]) :
    ∃ t, Writes s.mem t [(k, 0)] ∧
      linkAct p s = .going { p with
        sides := [{ r with made := false }, { restOf ⟨b, o, h, z⟩ (wordAt s.mem c) (wordAt s.mem (c + 8)) with made := false }], grown := true
        status := p.status ||| 4, cells := p.cells ++ o.cells ++ l.cell.toList ++ h.cell.toList } t ∧
      (t.ctx b).wait = .link { o with sides := [], cells := [], gone := some l.port, status := o.status ||| 2 } := by
  obtain ⟨t, ht, hact⟩ := hat.linkAct_of_miss hs hk hmiss
  have hparty := hf.partyOf ht
  have hslot : partySlot l (some ⟨b, o, h, z⟩) = l.port := by
    rw [partySlot, hf.back]
    rfl
  have hmissed := missed_completes (p := p) (oth := r) (k := k) htag hok (fun hn => by rw [hparty] at hn; cases hn)
    (by rw [hparty, hf.completes]; exact decide_eq_true hlow) (by rw [hparty, hslot]; exact ht.slotAt hk)
  rw [hparty] at hmissed
  obtain ⟨u, hwrites, hwait, hdone⟩ := completeMeeting_with (p := p) (me := l) (oth := r) (s := t) hk.1 (ht.cellAt hc)
    (by rw [ht.mem]; exact hport) (by rw [ht.mem]; exact hexp) ⟨b, o, h, z⟩
  rw [hmissed, hdone, ht.mem] at hact
  refine ⟨u, ht.mem ▸ hwrites, (hact fun q v hq => nomatch hq).trans (congrArg (LinkOut.going · u) ?_), ?_⟩
  · rcases hopen with ho | ho
    · exact settle_of_open (x := { r with made := false }) (by simp) ⟨rfl, ho⟩
    · exact settle_of_open (x := { restOf ⟨b, o, h, z⟩ (wordAt s.mem c) (wordAt s.mem (c + 8)) with made := false }) (by simp) ⟨rfl, ho⟩
  · rw [← hf.back]
    exact hwait

/-- The other party waits. -/
theorem AtSide.waits_for_party (hlow : slotNo l.port < slotNo a) (hr : ¬Open r) : ∃ t, Looked s t ∧ linkAct p s = .wait p t := by
  refine hat.linkAct_of_deferred hs hk hmiss (fun t ht => ?_) (fun ho => absurd ho hr) fun ho => absurd ho hr
  have hparty := hf.partyOf ht
  exact missed_defers htag hok (fun hn => by rw [hparty] at hn; cases hn) (by rw [hparty, hf.completes]; exact decide_eq_false (not_le.mpr hlow))

end Two

/-! ### A `link` that has deferred (02 R41) -/

theorem linkAct_of_gone {p : LinkProg} {s : State} {a : Word} {k : Nat} (hends : ∀ o ∈ p.olds, o.claimed = true ∧ o.redirected = true)
    (hunclosed : ∀ x y, p.olds = [x, y] → ¬(x.far = y.slot ∧ y.far = x.slot)) (hres : p.resolved = false) (hgone : p.gone = some a)
    (halone : otherLinks s = []) (htag : tagOf a = 1) (hk : SlotAt s a k) : ∃ t, Looked s t ∧ linkAct p s =
      if portOk (wordAt s.mem k) = false then .fault { cause := .linkCorrupt, lnk := true } t
      else if wordAt s.mem k = 0 then .going { p with resolved := true } t else .wait p t := by
  obtain ⟨t, hread, ht⟩ := readSlot_looks (s := s) hk.1
  refine ⟨t, ht, ?_⟩
  rw [linkAct_of_redirected hends hunclosed hres, resolve, hgone]
  dsimp only
  rw [endDeferred, access1_of_slotAt hk htag]
  dsimp only
  rw [hread]
  dsimp only
  rw [ht.alone halone]
  simp only [List.all_nil, and_true, linkFault, hgone]


/-! ### The statement -/

/-- The one `link` of its net that is at a half-join finds no party there. -/
theorem stands_of_alone {s : State} {first : Bool} {l r : WireSide} (halone : otherLinks s = []) (hl : l.face ≠ some r.port) (hr : r.face ≠ some l.port)
    (hown : OwnSlotStands s (if first then l else r)) (hoth : Open (if first then r else l) → OwnSlotStands s (if first then r else l)) :
    Stands s first (if first then l else r) (if first then r else l) := by
  refine ⟨hown, hoth, fun t _ => ?_, fun t ht => clear_of_alone (ht.alone halone)⟩
  cases first <;> exact ring_of_faces hl hr

/-- Settles O18: the act of a `link` at a half-join is followed through its looks at its own slots and the compare-and-swap, to what the word found
    there asks for. -/
theorem halfJoinsCompareAndSwap : Obligations.HalfJoinsCompareAndSwap := by
  refine ⟨?_, ?_, ?_⟩
  · intro p l r s first hj halone hl hr me oth hold same number corrupt waits ends hopen hdone
    have hat := atSide_of_joining hj first hopen hdone
    change AtSide p first me oth at hat
    have hhold : hold = holdWord := rfl
    refine ⟨fun a k hf htag ha => ⟨fun hw => hat.ends_of_empty hf htag ha hw, fun hw hok => hat.corrupts_of_broken hf htag ha hw hok⟩,
      fun k hown hoth hk => ?_⟩
    have hs : Stands s first me oth := stands_of_alone halone hl hr hown hoth
    intro found expected joined
    have hmiss : ¬expected → me.hits found = false := fun h => by rw [← Bool.not_eq_true, hits_iff]; exact h
    refine ⟨fun hexp => ?_, fun hno hw htag => ?_, fun hno hw htag => ?_, fun hno hw hredir => ⟨fun hone => ?_, fun x y kx hok hp hne hface htag hx => ?_⟩,
      fun hno htag hok => ⟨fun hlow c hc hport => ?_, fun a hf hlow hoth' => ?_⟩⟩
    · obtain ⟨t, hwrites, hact⟩ := hat.linkAct_of_hit hs hk ((hits_iff me found).mpr hexp)
      refine ⟨t, hwrites, fun ho => ?_, fun ho => ⟨redexOf r.port l.port, ?_, redexOf_of_redex, redexOf_of_not_redex⟩⟩
      · rw [hact, settle_joined_of_open hat ho]
        rfl
      · rw [hact, settle_joined_of_shut ho]
        cases first <;> rfl
    · exact hat.waits_of_hold hs hk (hmiss hno) hw htag
    · exact hat.corrupts_of_hold hs hk (hmiss hno) hw htag
    · exact hat.corrupts_of_other hs hk (hmiss hno) hw hredir hone
    · obtain ⟨t, ht, hact⟩ := hat.acts_of_workDone hs hk (hmiss hno) hw hok (fun h => hredir ⟨h, hok⟩) (otherEnd_eq hp hne hface) htag hx
      exact ⟨fun hzero => ⟨t, by rw [hact, if_pos hzero], ht.sameBytes⟩, fun hset => ⟨t, by rw [hact, if_neg hset]; rfl, ht.sameBytes⟩⟩
    · intro e far he hnext
      exact hat.meets_alone hs hk (hmiss hno) halone htag hok (fun a hf => by rw [slotNo_eq, slotNo_eq]; exact hlow a hf) hc hport he hnext
    · refine hat.waits_alone hs hk (hmiss hno) halone htag hok hf (by rw [slotNo_eq, slotNo_eq]; exact hlow) fun ho => ?_
      exact hoth'.resolve_left (not_not.mpr ho)
  · intro p o l r h z s b k kp a hj hlopen hrown hlinks hb hsides hface hport hback haux htag hk hw hok hkp found hexp halt hredir hfok
    have hat : AtSide p true l r := atSide_of_joining hj true hlopen fun h => nomatch h
    have hf : FaceToFace s l a b o h z := ⟨hlinks, hsides, hface, hport, hback⟩
    have hs : Stands s true l r := hf.stands (fun x hx => by
      rw [hface] at hx
      cases hx
      exact ⟨haux, k, hk, hw, hok⟩) hrown
    have hmiss : l.hits found = false := by
      rw [← Bool.not_eq_true, hits_iff]
      rintro (h | ⟨h, h'⟩)
      · exact hexp h
      · exact halt.elim h fun hne => hne h'
    refine ⟨fun hlow c hc hcport => ?_, fun hlow hr => ?_⟩
    · intro e far he hnext
      have hfar : far = restOf ⟨b, o, h, z⟩ (wordAt s.mem c) (wordAt s.mem (c + 8)) := by
        subst hport
        rfl
      rw [hfar] at hnext ⊢
      exact hat.meets_party hf hs hkp hmiss hredir hfok (by rw [slotNo_eq, slotNo_eq]; exact hlow) hc hcport he hnext
    · obtain ⟨t, ht, hact⟩ := hat.waits_for_party hf hs hkp hmiss hredir hfok (by rw [slotNo_eq, slotNo_eq]; exact hlow) hr
      exact ⟨p, t, hact, ht.sameBytes, rfl, rfl⟩
  · intro p s a k hends hunclosed hres hgone halone htag hk
    obtain ⟨t, ht, hact⟩ := linkAct_of_gone hends hunclosed hres hgone halone htag hk
    exact ⟨t, ht.sameBytes, hact⟩

end Sys2Proof.Machine
end

section
/-!
PROOFS. Words as strings of fields: the formats of 03 R52, and how a word is put together of what is read of it.
-/

namespace Sys2Proof

/-! ### Bit strings put together -/

/-- Bits x above the k bits y. -/
def cat (k x y : Nat) : Nat := x * 2 ^ k + y

theorem field_lt (w lo n : Nat) : field w lo n < 2 ^ n := Nat.mod_lt _ (Nat.two_pow_pos n)

theorem field_cat_low {k x y lo n : Nat} (h : lo + n ≤ k) : field (cat k x y) lo n = field y lo n := by
  obtain ⟨j, rfl⟩ := Nat.exists_eq_add_of_le h
  rw [field, cat, show x * 2 ^ (lo + n + j) + y = y + 2 ^ lo * (2 ^ n * (x * 2 ^ j)) by ring, Nat.add_mul_div_left _ _ (Nat.two_pow_pos lo),
    Nat.add_mul_mod_self_left, field]

theorem field_cat_high {k x y lo n : Nat} (hy : y < 2 ^ k) (h : k ≤ lo) : field (cat k x y) lo n = field x (lo - k) n := by
  obtain ⟨j, rfl⟩ := Nat.exists_eq_add_of_le h
  have : (x * 2 ^ k + y) / 2 ^ (k + j) = x / 2 ^ j := by
    rw [Nat.pow_add, ← Nat.div_div_eq_div_mul, Nat.mul_comm x, Nat.mul_add_div (Nat.two_pow_pos k), Nat.div_eq_of_lt hy, Nat.add_zero]
  simp only [field, cat, this, Nat.add_sub_cancel_left]

theorem field_self {x n : Nat} (h : x < 2 ^ n) : field x 0 n = x := by
  simp [field, Nat.mod_eq_of_lt h]

theorem field_above {x lo n : Nat} (h : x < 2 ^ lo) : field x lo n = 0 := by
  simp [field, Nat.div_eq_of_lt h]

/-- A field is its high bits above its low ones. -/
theorem field_add (w lo a b : Nat) : field w lo (a + b) = 2 ^ a * field w (lo + a) b + field w lo a := by
  simp only [field]
  rw [Nat.pow_add, Nat.mod_mul, Nat.pow_add, Nat.div_div_eq_div_mul, Nat.add_comm]

theorem toNat_ofNat_field (w lo n : Nat) : (BitVec.ofNat n (field w lo n)).toNat = field w lo n := by
  rw [BitVec.toNat_ofNat, Nat.mod_eq_of_lt (field_lt w lo n)]

@[simp] theorem regAt_val (w lo : Nat) : (regAt w lo : Nat) = field w lo 4 := rfl
@[simp] theorem vregAt_val (w lo : Nat) : (vregAt w lo : Nat) = field w lo 3 := rfl

theorem regAt_eq {w lo : Nat} {r : Reg} (h : field w lo 4 = r) : regAt w lo = r := Fin.ext h
theorem vregAt_eq {w lo : Nat} {v : VIdx} (h : field w lo 3 = v) : vregAt w lo = v := Fin.ext h

/-! ### The formats of 03 R52 as bit strings -/

theorem wordA_cat (maj d a b fn m : Nat) : wordA maj d a b fn m = cat 8 (cat 5 (cat 4 (cat 4 (cat 4 (cat 1 maj 0) d) a) b) fn) m := by
  simp only [wordA, cat]; omega
theorem wordI_cat (maj e d a i : Nat) : wordI maj e d a i = cat 17 (cat 4 (cat 4 (cat 1 maj e) d) a) i := by
  simp only [wordI, cat]; omega
theorem wordC_cat (maj e c a b s i : Nat) : wordC maj e c a b s i = cat 12 (cat 2 (cat 4 (cat 4 (cat 3 (cat 1 maj e) c) a) b) s) i := by
  simp only [wordC, cat]; omega
theorem wordV_cat (fn d a b c r s : Nat) : wordV fn d a b c r s = cat 4 (cat 2 (cat 6 (cat 4 (cat 3 (cat 3 (cat 3 (cat 1 13 0) d) a) b) c) fn) r) s := by
  simp only [wordV, cat]; omega
theorem wordM_cat (maj e d a g op o : Nat) : wordM maj e d a g op o = cat 12 (cat 2 (cat 3 (cat 4 (cat 4 (cat 1 maj e) d) a) g) op) o := by
  simp only [wordM, cat]; omega
theorem wordJ_cat (maj e disp : Nat) : wordJ maj e disp = cat 25 (cat 1 maj e) disp := by
  simp only [wordJ, cat]; omega
theorem wordE_cat (x : Nat) : wordE x = cat 28 15 x := rfl

/-! ### A word is put together of its fields -/

section
variable {w : Nat} (hw : w < 2 ^ 32)
include hw

theorem wordA_fields (he : field w 25 1 = 0) : wordA (field w 26 6) (field w 21 4) (field w 17 4) (field w 13 4) (field w 8 5) (field w 0 8) = w := by
  simp only [field, wordA] at *; omega
theorem wordI_fields : wordI (field w 26 6) (field w 25 1) (field w 21 4) (field w 17 4) (field w 0 17) = w := by
  simp only [field, wordI] at *; omega
theorem wordC_fields : wordC (field w 26 6) (field w 25 1) (field w 22 3) (field w 18 4) (field w 14 4) (field w 12 2) (field w 0 12) = w := by
  simp only [field, wordC] at *; omega
theorem wordV_fields (hmaj : field w 26 6 = 13) (he : field w 25 1 = 0) :
    wordV (field w 6 6) (field w 22 3) (field w 19 3) (field w 16 3) (field w 12 4) (field w 4 2) (field w 0 4) = w := by
  simp only [field, wordV] at *; omega
theorem wordM_fields : wordM (field w 26 6) (field w 25 1) (field w 21 4) (field w 17 4) (field w 14 3) (field w 12 2) (field w 0 12) = w := by
  simp only [field, wordM] at *; omega
theorem wordJ_fields : wordJ (field w 26 6) (field w 25 1) (field w 0 25) = w := by
  simp only [field, wordJ] at *; omega
theorem wordE_fields (h : field w 28 4 = 15) : wordE (field w 0 28) = w := by
  simp only [field, wordE] at *; omega

end
end Sys2Proof
end

section
/-!
PROOFS. Soundness of the decoder (03 R52 to R60), first part: enumerated fields, majors 0 and 13.
-/

namespace Sys2Proof
/-! ### Codes of the enumerated fields, both ways -/

@[simp] theorem code_rndOf2_field (w lo : Nat) : (rndOf2 (field w lo 2)).code = field w lo 2 := by
  have h := field_lt w lo 2
  generalize field w lo 2 = n at h
  interval_cases n <;> rfl
@[simp] theorem code_sizeOf2_field (w lo : Nat) : (sizeOf2 (field w lo 2)).code = field w lo 2 := by
  have h := field_lt w lo 2
  generalize field w lo 2 = n at h
  interval_cases n <;> rfl
@[simp] theorem code_scopeOf2_field (w lo : Nat) : (scopeOf2 (field w lo 2)).code = field w lo 2 := by
  have h := field_lt w lo 2
  generalize field w lo 2 = n at h
  interval_cases n <;> rfl
@[simp] theorem code_orderOf2_field (w lo : Nat) : (orderOf2 (field w lo 2)).code = field w lo 2 := by
  have h := field_lt w lo 2
  generalize field w lo 2 = n at h
  interval_cases n <;> rfl
@[simp] theorem bit_field (w lo : Nat) : bit (field w lo 1 == 1) = field w lo 1 := by
  have h := field_lt w lo 1
  generalize field w lo 1 = n at h
  interval_cases n <;> rfl
theorem code_condOf3 {n : Nat} {c : Cond} (h : condOf3 n = some c) : c.code = n := by
  unfold condOf3 at h
  split at h <;> cases h <;> rfl
theorem code_redOf3 {n : Nat} {o : RedOp} (h : redOf3 n = some o) : o.code = n := by
  unfold redOf3 at h
  split at h <;> cases h <;> rfl
theorem code_tileFmtOf4 {n : Nat} {f : TileFmt} (h : tileFmtOf4 n = some f) : f.code = n := by
  unfold tileFmtOf4 at h
  split at h <;> cases h <;> rfl

theorem bit_false : bit false = 0 := rfl

@[simp] theorem rndOf2_code (r : Rnd) : rndOf2 r.code = r := by cases r <;> rfl
@[simp] theorem sizeOf2_code (z : Size) : sizeOf2 z.code = z := by cases z <;> rfl
@[simp] theorem scopeOf2_code (s : Scope) : scopeOf2 s.code = s := by cases s <;> rfl
@[simp] theorem orderOf2_code (o : Order) : orderOf2 o.code = o := by cases o <;> rfl
@[simp] theorem condOf3_code (c : Cond) : condOf3 c.code = some c := by cases c <;> rfl
@[simp] theorem redOf3_code (o : RedOp) : redOf3 o.code = some o := by cases o <;> rfl
@[simp] theorem tileFmtOf4_code (f : TileFmt) : tileFmtOf4 f.code = some f := by cases f <;> rfl
@[simp] theorem bit_beq_one (b : Bool) : (bit b == 1) = b := by cases b <;> rfl

theorem Rnd.code_lt (r : Rnd) : r.code < 4 := by cases r <;> decide
theorem Size.code_lt (z : Size) : z.code < 4 := by cases z <;> decide
theorem Scope.code_lt (s : Scope) : s.code < 4 := by cases s <;> decide
theorem Order.code_lt (o : Order) : o.code < 4 := by cases o <;> decide
theorem Cond.code_lt (c : Cond) : c.code < 8 := by cases c <;> decide
theorem RedOp.code_lt (o : RedOp) : o.code < 8 := by cases o <;> decide
theorem TileFmt.code_lt (f : TileFmt) : f.code < 16 := by cases f <;> decide
theorem bit_lt (b : Bool) : bit b < 2 := by cases b <;> decide

/-! ### What the decoder answers encodes as the word -/

/-- Whatever a decoder answers is well formed and encodes as the words ws. -/
def Assembles (o : Option Instr) (ws : List Nat) : Prop := ∀ i, o = some i → wellFormed i = true ∧ encode i = some ws

theorem assembles_none (ws : List Nat) : Assembles none ws := nofun

theorem assembles_some {i : Instr} {ws vs : List Nat} (henc : encode i = some vs) (hwf : wellFormed i = true) (h : vs = ws) : Assembles (some i) ws := by
  rintro _ ⟨⟩
  exact ⟨hwf, h ▸ henc⟩

theorem assembles_guardZero {z : Nat} {i : Instr} {ws vs : List Nat} (henc : encode i = some vs) (h : z = 0 → wellFormed i = true ∧ vs = ws) :
    Assembles (guardZero z i) ws := by
  unfold guardZero
  split
  · exact assembles_some henc (h ‹_›).1 (h ‹_›).2
  · exact assembles_none ws

section
variable {w : Nat} (hw : w < 2 ^ 32) (he : field w 25 1 = 0)
include hw he

theorem decMajor0_assembles (hmaj : field w 26 6 = 0) : Assembles (decMajor0 w) [w] := by
  have hword := wordA_fields hw he
  have hm := field_lt w 0 8
  simp only [decMajor0]
  generalize hfn : field w 8 5 = fn at *
  split
  next =>
    split
    next hz =>
      split
      case h_22 | h_23 | h_24 | h_25 => exact assembles_guardZero rfl fun hb => ⟨rfl, by simpa [hmaj, hz, hb] using hword⟩
      case h_26 => exact assembles_none _
      all_goals exact assembles_some rfl rfl (by simpa [hmaj, hz] using hword)
    next => exact assembles_none _
  next hk =>
    have himm : 128 + field w 0 8 % 128 = field w 0 8 := by omega
    split
    next hb =>
      split
      case h_5 => exact assembles_none _
      all_goals exact assembles_some rfl rfl (by simpa [hmaj, hb, himm] using hword)
    next => exact assembles_none _

theorem decMajor13_assembles (hmaj : field w 26 6 = 13) : Assembles (decMajor13 w) [w] := by
  have hword := wordV_fields hw hmaj he
  have hs : field w 0 4 = 8 * field w 3 1 + field w 0 3 := field_add w 0 3 1
  simp only [decMajor13, unaryV, binaryV]
  generalize hfn : field w 6 6 = fn at *
  split
  case h_4 | h_5 | h_17 =>
    have hc : field w 12 4 = 8 * field w 15 1 + field w 12 3 := field_add w 12 3 1
    exact assembles_guardZero rfl fun hz => ⟨rfl, by simp only [Nat.add_eq_zero_iff] at hz; simpa [hz, hc] using hword⟩
  case h_6 | h_7 =>
    have hs : field w 0 4 = 2 * field w 1 3 + field w 0 1 := field_add w 0 1 3
    exact assembles_guardZero rfl fun hz => ⟨rfl, by simp only [Nat.add_eq_zero_iff] at hz; simpa [hz, hs] using hword⟩
  case h_8 | h_9 | h_26 | h_27 | h_28 | h_29 | h_30 =>
    have hbc : field w 12 7 = 16 * field w 16 3 + field w 12 4 := field_add w 12 4 3
    exact assembles_guardZero rfl fun hz => ⟨rfl, by simp [hbc] at hz; simpa [hz] using hword⟩
  case h_16 =>
    split
    next k hc =>
      exact assembles_guardZero rfl fun hz => ⟨rfl, by simp only [Nat.add_eq_zero_iff] at hz; simpa [hz, hs, code_condOf3 hc] using hword⟩
    next => exact assembles_none _
  case h_20 | h_21 =>
    have hk : field w 0 5 = 16 * field w 4 1 + field w 0 4 := field_add w 0 4 1
    have hr : field w 4 2 = 2 * field w 5 1 + field w 4 1 := field_add w 4 1 1
    have hlt := field_lt w 0 4
    refine assembles_guardZero rfl fun hz => ⟨rfl, ?_⟩
    simp only [Nat.add_eq_zero_iff] at hz
    rw [toNat_ofNat_field, show field w 0 5 / 16 = field w 4 2 by omega, show field w 0 5 % 16 = field w 0 4 by omega]
    simpa [hz] using hword
  case h_22 | h_23 =>
    split
    next o ho =>
      exact assembles_guardZero rfl fun hz => ⟨rfl, by simpa [(Nat.add_eq_zero_iff.mp hz), hs, code_redOf3 ho] using hword⟩
    next => exact assembles_none _
  case h_24 =>
    have hb : field w 16 3 = 2 * field w 17 2 + field w 16 1 := field_add w 16 1 2
    have hc : field w 12 4 = 8 * field w 15 1 + field w 12 3 := field_add w 12 3 1
    exact assembles_guardZero rfl fun hz => ⟨rfl, by simp only [Nat.add_eq_zero_iff, toNat_ofNat_field] at hz ⊢; simpa [hz, hb, hc] using hword⟩
  case h_32 =>
    split
    case h_3 => exact assembles_none _
    all_goals
      next h0 =>
      exact assembles_guardZero rfl fun hz => ⟨rfl, by simp only [Nat.add_eq_zero_iff] at hz; simpa [hz, h0] using hword⟩
  case h_33 => exact assembles_none _
  all_goals exact assembles_guardZero rfl fun hz => ⟨rfl, by simp only [Nat.add_eq_zero_iff, toNat_ofNat_field] at hz ⊢; simpa [hz] using hword⟩

end
end Sys2Proof
end

section
/-!
PROOFS. Soundness of the decoder, second part: forms with an extension (03 R53), the other majors, and the decoder whole.
-/

namespace Sys2Proof

/-! ### Forms with an extension -/

/-- The words of a first word and the extension that follows it. -/
def withExt (w : Nat) : Option Nat → List Nat
  | none => [w]
  | some x => [w, wordE x]

/-- The first word w has its E bit set exactly where an extension of 28 bits follows. -/
def Extends (w : Nat) : Option Nat → Prop
  | none => field w 25 1 = 0
  | some x => field w 25 1 = 1 ∧ x < 2 ^ 28

theorem toNat_ofNat_ext {n k x y : Nat} (hn : n = 28 + k) (hx : x < 2 ^ 28) (hy : y < 2 ^ k) : (BitVec.ofNat n (x * 2 ^ k + y)).toNat = x * 2 ^ k + y := by
  subst hn
  rw [BitVec.toNat_ofNat, Nat.mod_eq_of_lt]
  calc x * 2 ^ k + y < (x + 1) * 2 ^ k := by rw [Nat.add_mul, Nat.one_mul]; omega
    _ ≤ 2 ^ 28 * 2 ^ k := Nat.mul_le_mul_right _ hx
    _ = 2 ^ (28 + k) := (Nat.pow_add ..).symm

theorem low_of_ext {k x y : Nat} (hy : y < 2 ^ k) : (x * 2 ^ k + y) % 2 ^ k = y := by
  rw [Nat.add_comm, Nat.add_mul_mod_self_right, Nat.mod_eq_of_lt hy]

theorem high_of_ext {k x y : Nat} (hy : y < 2 ^ k) : (x * 2 ^ k + y) / 2 ^ k = x := by
  rw [Nat.add_comm, Nat.add_mul_div_right _ _ (Nat.two_pow_pos k), Nat.div_eq_of_lt hy, Nat.zero_add]

theorem encI_field (maj : Nat) (d a : Reg) (w : Nat) : encI maj d a (BitVec.ofNat 17 (field w 0 17)) = [wordI maj 0 d a (field w 0 17)] := by
  rw [encI, toNat_ofNat_field]

theorem encIExt_field (maj : Nat) (d a : Reg) (w : Nat) {x : Nat} (hx : x < 2 ^ 28) :
    encIExt maj d a (BitVec.ofNat 45 (x * 2 ^ 17 + field w 0 17)) = [wordI maj 1 d a (field w 0 17), wordE x] := by
  have hy := field_lt w 0 17
  rw [encIExt, toNat_ofNat_ext rfl hx hy, low_of_ext hy, high_of_ext hy]

theorem encM_field (maj d a g op w : Nat) : encM maj d a g op (BitVec.ofNat 12 (field w 0 12)) = [wordM maj 0 d a g op (field w 0 12)] := by
  rw [encM, toNat_ofNat_field]

theorem encMExt_field (maj d a g op w : Nat) {x : Nat} (hx : x < 2 ^ 28) :
    encMExt maj d a g op (BitVec.ofNat 40 (x * 2 ^ 12 + field w 0 12)) = [wordM maj 1 d a g op (field w 0 12), wordE x] := by
  have hy := field_lt w 0 12
  rw [encMExt, toNat_ofNat_ext rfl hx hy, low_of_ext hy, high_of_ext hy]

theorem withExt_M {maj d a g op w : Nat} {ext : Option Nat} (he : Extends w ext) (hword : wordM maj (field w 25 1) d a g op (field w 0 12) = w) :
    (match ext with
      | none => encM maj d a g op (BitVec.ofNat 12 (field w 0 12))
      | some x => encMExt maj d a g op (BitVec.ofNat 40 (x * 2 ^ 12 + field w 0 12))) = withExt w ext := by
  cases ext with
  | none => rw [show field w 25 1 = 0 from he] at hword; simp only [encM_field, hword, withExt]
  | some x => rw [he.1] at hword; simp only [encMExt_field _ _ _ _ _ _ he.2, hword, withExt]

theorem withExt_I {maj w : Nat} {d a : Reg} {ext : Option Nat} (he : Extends w ext) (hword : wordI maj (field w 25 1) d a (field w 0 17) = w) :
    (match ext with
      | none => encI maj d a (BitVec.ofNat 17 (field w 0 17))
      | some x => encIExt maj d a (BitVec.ofNat 45 (x * 2 ^ 17 + field w 0 17))) = withExt w ext := by
  cases ext with
  | none => rw [show field w 25 1 = 0 from he] at hword; simp only [encI_field, hword, withExt]
  | some x => rw [he.1] at hword; simp only [encIExt_field _ _ _ _ he.2, hword, withExt]

theorem withExt_C {maj c a b s w : Nat} {ext : Option Nat} (he : Extends w ext) (hword : wordC maj (field w 25 1) c a b s (field w 0 12) = w) :
    (match ext with
      | none => [wordC maj 0 c a b s (BitVec.ofNat 12 (field w 0 12)).toNat]
      | some x => let i := BitVec.ofNat 40 (x * 2 ^ 12 + field w 0 12)
        [wordC maj 1 c a b s (i.toNat % 2 ^ 12), wordE (i.toNat / 2 ^ 12)]) = withExt w ext := by
  have hy := field_lt w 0 12
  cases ext with
  | none => rw [show field w 25 1 = 0 from he] at hword; simp only [toNat_ofNat_field, hword, withExt]
  | some x => rw [he.1] at hword; simp only [toNat_ofNat_ext rfl he.2 hy, low_of_ext hy, high_of_ext hy, hword, withExt]

theorem withExt_J {maj w : Nat} {ext : Option Nat} (he : Extends w ext) (hword : wordJ maj (field w 25 1) (field w 0 25) = w) :
    (match ext with
      | none => [wordJ maj 0 (BitVec.ofNat 25 (field w 0 25)).toNat]
      | some x => let i := BitVec.ofNat 53 (x * 2 ^ 25 + field w 0 25)
        [wordJ maj 1 (i.toNat % 2 ^ 25), wordE (i.toNat / 2 ^ 25)]) = withExt w ext := by
  have hy := field_lt w 0 25
  cases ext with
  | none => rw [show field w 25 1 = 0 from he] at hword; simp only [toNat_ofNat_field, hword, withExt]
  | some x => rw [he.1] at hword; simp only [toNat_ofNat_ext rfl he.2 hy, low_of_ext hy, high_of_ext hy, hword, withExt]

theorem ofNat_field_ne {w lo n : Nat} {c : BitVec n} (h : field w lo n ≠ c.toNat) : (BitVec.ofNat n (field w lo n) != c) = true :=
  bne_iff_ne.mpr fun he => h (by rw [← he, toNat_ofNat_field])

theorem wellFormed_grab {d a b : Reg} (h : ¬(d = b ∧ d ≠ 0)) : wellFormed (.grab d a b) = true := by
  change (!(d == b && d != 0)) = true
  simpa [or_iff_not_imp_left] using h

theorem wellFormed_trap {a : Reg} {c : BitVec 4} (h : ¬(c.toNat = 11 ∨ c.toNat = 12 ∨ c.toNat = 14 ∨ c.toNat = 15)) : wellFormed (.trap a c) = true := by
  change (!(c == 11 || c == 12 || c == 14 || c == 15)) = true
  simpa [BitVec.toNat_eq, and_assoc] using h

theorem not_takesExt {w : Nat} (h : field w 26 6 ∈ [0, 7, 8, 9, 10, 12, 13, 17, 18, 19, 20, 21, 22, 25, 26, 27, 28]) : takesExt w = false := by
  unfold takesExt
  generalize field w 26 6 = maj at h
  fin_cases h <;> rfl

section
variable {w : Nat} {ext : Option Nat} (hw : w < 2 ^ 32) (he : Extends w ext)
include hw he

theorem decMem_assembles (hmaj : 14 ≤ field w 26 6 ∧ field w 26 6 ≤ 16) : Assembles (decMem w ext) (withExt w ext) := by
  have hword := wordM_fields hw
  have hd : field w 21 4 = 8 * field w 24 1 + field w 21 3 := field_add w 21 3 1
  have hv : field w 21 3 = 2 * field w 22 2 + field w 21 1 := field_add w 21 1 2
  have hg : field w 14 3 = 2 * field w 15 2 + field w 14 1 := field_add w 14 1 2
  have hz : field w 15 2 = 2 * field w 16 1 + field w 15 1 := field_add w 15 1 1
  simp only [decMem]
  generalize hop : field w 12 2 = op at *
  generalize hm : field w 26 6 = maj at *
  split
  case h_1 => cases ext <;>
    exact assembles_guardZero rfl fun h0 => ⟨rfl, withExt_M he (by simp only [toNat_ofNat_field]; simpa [h0, hd] using hword)⟩
  case h_2 => cases ext <;>
    exact assembles_guardZero rfl fun h0 => ⟨rfl, withExt_M he (by simp only [Nat.add_eq_zero_iff] at h0; simpa [h0, hd] using hword)⟩
  case h_3 =>
    have hwf : field w 21 1 = 0 → ((vregAt w 21).val % 2 == 0) = true := fun h => by simp [hv, h]
    cases ext <;>
      exact assembles_guardZero rfl fun h0 =>
        ⟨hwf (Nat.add_eq_zero_iff.mp h0).2, withExt_M he (by simp only [toNat_ofNat_field]; simpa [Nat.add_eq_zero_iff.mp h0, hd] using hword)⟩
  case h_4 | h_5 | h_6 =>
    split
    next hsg => cases ext <;> exact assembles_some rfl hsg (withExt_M he (by simpa [hg] using hword))
    next => exact assembles_none _
  case h_7 => cases ext <;> exact assembles_guardZero rfl fun h0 => ⟨rfl, withExt_M he (by simpa [h0] using hword)⟩
  case h_8 | h_9 => cases ext <;> exact assembles_guardZero rfl fun h0 => ⟨rfl, withExt_M he (by simpa [h0, hg] using hword)⟩
  case h_10 => cases ext <;>
    exact assembles_guardZero rfl fun h0 => ⟨rfl, withExt_M he (by simpa [Nat.add_eq_zero_iff.mp h0] using hword)⟩
  case h_11 => cases ext <;>
    exact assembles_guardZero rfl fun h0 => ⟨rfl, withExt_M he (by simp only [Nat.add_eq_zero_iff] at h0; simpa [h0, hg, hz] using hword)⟩
  case h_12 => exact assembles_none _

theorem decImm_assembles (ht : ext ≠ none → takesExt w = true) (hmaj : 1 ≤ field w 26 6 ∧ field w 26 6 ≤ 12) :
    Assembles (decImm w ext) (withExt w ext) := by
  have hI := wordI_fields hw
  have hM := wordM_fields hw
  have hC := wordC_fields hw
  have alone : field w 26 6 ∈ [0, 7, 8, 9, 10, 12, 13, 17, 18, 19, 20, 21, 22, 25, 26, 27, 28] → ext = none := fun h =>
    by_contra fun hne => by simp [not_takesExt h] at ht; exact hne ht
  have h17 : field w 12 5 = 4 * field w 14 3 + field w 12 2 := field_add w 12 2 3
  have himm : field w 0 17 = 2 ^ 10 * field w 10 7 + (2 ^ 3 * field w 3 7 + field w 0 3) := by
    rw [← field_add w 0 3 7, ← field_add w 0 10 7]
  have hcond : field w 22 3 = 2 * field w 23 2 + field w 22 1 := field_add w 22 1 2
  have htst : field w 0 12 = 2 ^ 11 * field w 11 1 + (2 ^ 6 * field w 6 5 + field w 0 6) := by
    rw [← field_add w 0 6 5, ← field_add w 0 11 1]
  simp only [decImm]
  generalize hm : field w 26 6 = maj at *
  split
  case h_1 | h_2 | h_3 | h_4 => cases ext <;> exact assembles_some rfl rfl (withExt_I he (by simpa using hI))
  case h_5 => cases ext <;> exact assembles_guardZero rfl fun h0 => ⟨rfl, withExt_I he (by simpa [h0] using hI)⟩
  case h_6 =>
    cases ext <;> exact assembles_guardZero rfl fun h0 => ⟨rfl, withExt_M he (by simp [h17] at h0; simpa [h0] using hM)⟩
  case h_7 | h_8 | h_9 =>
    obtain rfl : ext = none := alone (by simp)
    rw [show field w 25 1 = 0 from he, himm] at hI
    exact assembles_guardZero rfl fun h0 => ⟨rfl, by rw [toNat_ofNat_field, toNat_ofNat_field]; simpa [h0, withExt, Nat.mul_comm] using hI⟩
  case h_10 =>
    obtain rfl : ext = none := alone (by simp)
    rw [show field w 25 1 = 0 from he] at hC
    split
    next c hc => exact assembles_guardZero rfl fun h0 => ⟨rfl, by rw [toNat_ofNat_field]; simpa [h0, withExt, code_condOf3 hc] using hC⟩
    next => exact assembles_none _
  case h_11 =>
    split
    next c hc =>
      cases ext <;> exact assembles_guardZero rfl fun h0 => ⟨rfl, withExt_C he (by rw [toNat_ofNat_field]; simpa [h0, code_condOf3 hc] using hC)⟩
    next => exact assembles_none _
  case h_12 =>
    obtain rfl : ext = none := alone (by simp)
    rw [show field w 25 1 = 0 from he] at hC
    split
    next => exact assembles_none _
    next hhi =>
      rw [not_not] at hhi
      split
      next => exact assembles_guardZero rfl fun h0 => ⟨rfl, by rw [toNat_ofNat_field]; simpa [h0, hhi, hcond, withExt] using hC⟩
      next hone =>
        have hone : field w 11 1 = 1 := by have := field_lt w 11 1; omega
        exact assembles_guardZero rfl fun h0 => ⟨rfl, by
          rw [toNat_ofNat_field, toNat_ofNat_field]; simpa [Nat.add_eq_zero_iff.mp h0, hone, htst, hhi, hcond, withExt] using hC⟩
  case h_13 => exact assembles_none _

theorem decRest_assembles (ht : ext ≠ none → takesExt w = true) : Assembles (decRest w ext) (withExt w ext) := by
  have hI := wordI_fields hw
  have hJ := wordJ_fields hw
  have alone : field w 26 6 ∈ [0, 7, 8, 9, 10, 12, 13, 17, 18, 19, 20, 21, 22, 25, 26, 27, 28] → ext = none := fun h =>
    by_contra fun hne => by simp [not_takesExt h] at ht; exact hne ht
  have h21 : field w 12 9 = 32 * field w 17 4 + field w 12 5 := field_add w 12 5 4
  have himm : field w 0 17 = 2 ^ 12 * field w 12 5 + field w 0 12 := field_add w 0 12 5
  have hv : field w 21 4 = 8 * field w 24 1 + field w 21 3 := field_add w 21 3 1
  simp only [decRest]
  generalize hm : field w 26 6 = maj at *
  split
  case h_1 | h_2 => cases ext <;> exact assembles_some rfl rfl (withExt_J he (by simpa using hJ))
  case h_3 | h_4 =>
    obtain rfl : ext = none := alone (by simp)
    rw [show field w 25 1 = 0 from he] at hI
    split
    next h0 =>
      obtain ⟨ha, h0⟩ : field w 17 4 = 0 ∧ field w 12 5 = 0 := by simpa [h21] using h0
      split
      next hmq =>
        split
        next hv1 => exact assembles_some rfl rfl (by simpa [ha, h0, himm, hmq, hv, hv1, withExt] using hI)
        next => exact assembles_none _
      next hmq =>
        exact assembles_some rfl (ofNat_field_ne hmq) (by rw [toNat_ofNat_field]; simpa [ha, h0, himm, withExt] using hI)
    next => exact assembles_none _
  case h_5 => exact assembles_none _

end

section
variable {w : Nat} (hw : w < 2 ^ 32) (he : field w 25 1 = 0)
include hw he

theorem decAtomic_assembles (hmaj : field w 26 6 = 17) : Assembles (decAtomic w) [w] := by
  have hword := wordA_fields hw he
  have hm : field w 0 8 = 2 ^ 7 * field w 7 1 + (2 ^ 6 * field w 6 1 + (2 ^ 5 * field w 5 1 + field w 0 5)) := by
    rw [← field_add w 0 5 1, ← field_add w 0 6 1, ← field_add w 0 7 1]
  rw [hmaj, hm] at hword
  simp only [decAtomic]
  generalize hfn : field w 8 5 = fn at *
  split
  next h =>
    split
    case h_5 | h_6 => exact assembles_some rfl rfl (by simpa [atomMod, h, Nat.add_assoc] using hword)
    case h_9 => exact assembles_none _
    all_goals exact assembles_guardZero rfl fun h0 => ⟨rfl, by simpa [atomMod, bit_false, h, h0, Nat.add_assoc] using hword⟩
  next => exact assembles_none _

theorem decUnits_assembles : Assembles (decUnits w) [w] := by
  have hword := wordA_fields hw he
  have h1 : field w 0 8 = 2 * field w 1 7 + field w 0 1 := field_add w 0 1 7
  have h2 : field w 0 8 = 4 * field w 2 6 + field w 0 2 := field_add w 0 2 6
  have h11 : field w 0 2 = 2 * field w 1 1 + field w 0 1 := field_add w 0 1 1
  have h3 : field w 0 8 = 8 * field w 3 5 + field w 0 3 := field_add w 0 3 5
  have h4 : field w 0 8 = 16 * field w 4 4 + field w 0 4 := field_add w 0 4 4
  have h5 : field w 0 8 = 32 * field w 5 3 + field w 0 5 := field_add w 0 5 3
  have h22 : field w 4 4 = 4 * field w 6 2 + field w 4 2 := field_add w 4 2 2
  simp only [decUnits]
  generalize hm : field w 26 6 = maj at *
  generalize hfn : field w 8 5 = fn at *
  split
  case h_1 =>
    exact assembles_guardZero rfl fun h0 => ⟨rfl, by simpa [h0, h2, h11, Nat.add_comm] using hword⟩
  case h_2 =>
    split
    next => exact assembles_none _
    next hne => exact assembles_guardZero rfl fun h0 => ⟨wellFormed_grab hne, by simpa [h0] using hword⟩
  case h_3 => exact assembles_guardZero rfl fun h0 => ⟨rfl, by
      simp only [Nat.add_eq_zero_iff] at h0; simpa [h0, h4, h22, Nat.mul_add, ← Nat.mul_assoc] using hword⟩
  case h_9 =>
    split
    next f hf => exact assembles_guardZero rfl fun h0 => ⟨rfl, by simp only [Nat.add_eq_zero_iff] at h0; simpa [h0, h4, code_tileFmtOf4 hf] using hword⟩
    next => exact assembles_none _
  case h_10 =>
    split
    next f hf => exact assembles_guardZero rfl fun h0 => ⟨rfl, by simp only [Nat.add_eq_zero_iff] at h0; simpa [h0, h4, h22, code_tileFmtOf4 hf] using hword⟩
    next => exact assembles_none _
  case h_15 =>
    split
    next hlt =>
      have hsel : (BitVec.ofNat 3 (field w 0 8)).toNat = field w 0 8 := by rw [BitVec.toNat_ofNat, Nat.mod_eq_of_lt (by omega)]
      exact assembles_guardZero rfl fun h0 => ⟨decide_eq_true (by rwa [hsel]), by rw [hsel]; simpa [Nat.add_eq_zero_iff.mp h0] using hword⟩
    next => exact assembles_none _
  case h_16 => exact assembles_guardZero rfl fun h0 => ⟨rfl, by simp only [Nat.add_eq_zero_iff] at h0; simpa [h0, h1] using hword⟩
  case h_17 | h_22 => exact assembles_guardZero rfl fun h0 => ⟨rfl, by simp only [Nat.add_eq_zero_iff, toNat_ofNat_field] at h0 ⊢; simpa [h0, h2] using hword⟩
  case h_20 =>
    split
    next => exact assembles_none _
    next hne => exact assembles_guardZero rfl fun h0 => ⟨ofNat_field_ne hne, by
        simp only [Nat.add_eq_zero_iff, toNat_ofNat_field] at h0 ⊢; simpa [h0, h5] using hword⟩
  case h_23 | h_24 => exact assembles_guardZero rfl fun h0 => ⟨rfl, by simp only [Nat.add_eq_zero_iff, toNat_ofNat_field] at h0 ⊢; simpa [h0, h3] using hword⟩
  case h_25 => exact assembles_none _
  all_goals exact assembles_guardZero rfl fun h0 => ⟨rfl, by simp only [Nat.add_eq_zero_iff] at h0; simpa [h0] using hword⟩

theorem decControl_assembles : Assembles (decControl w) [w] := by
  have hword := wordA_fields hw he
  have h1 : field w 0 8 = 2 * field w 1 7 + field w 0 1 := field_add w 0 1 7
  have h2 : field w 0 8 = 4 * field w 2 6 + field w 0 2 := field_add w 0 2 6
  have h11 : field w 0 2 = 2 * field w 1 1 + field w 0 1 := field_add w 0 1 1
  have h3 : field w 0 8 = 8 * field w 3 5 + field w 0 3 := field_add w 0 3 5
  have h21 : field w 0 3 = 4 * field w 2 1 + field w 0 2 := field_add w 0 2 1
  have h4 : field w 0 8 = 16 * field w 4 4 + field w 0 4 := field_add w 0 4 4
  have b0 := field_lt w 0 1
  have b2 := field_lt w 2 1
  simp only [decControl]
  generalize hm : field w 26 6 = maj at *
  generalize hfn : field w 8 5 = fn at *
  split
  case h_5 => exact assembles_guardZero rfl fun h0 => ⟨rfl, by simpa [h0, h1] using hword⟩
  case h_12 => exact assembles_guardZero rfl fun h0 => ⟨rfl, by simpa [h0] using hword⟩
  case h_13 =>
    split
    next hone => exact assembles_guardZero rfl fun h0 => ⟨rfl, by simpa [Nat.add_eq_zero_iff.mp h0, hone] using hword⟩
    next => exact assembles_guardZero rfl fun h0 => ⟨rfl, by simpa [Nat.add_eq_zero_iff.mp h0] using hword⟩
  case h_14 =>
    split
    next h0 =>
      exact assembles_guardZero rfl fun hz => ⟨rfl, by
        simp only [Nat.add_eq_zero_iff, toNat_ofNat_field] at hz ⊢; simpa [hz, h0, h3, h21] using hword⟩
    next h0 =>
      replace h0 : field w 2 1 = 1 := by omega
      exact assembles_guardZero rfl fun hz => ⟨rfl, by simp only [Nat.add_eq_zero_iff] at hz; simpa [hz, h0, h3, h21] using hword⟩
  case h_16 =>
    split
    next => exact assembles_none _
    next hc =>
      exact assembles_guardZero rfl fun h0 => by
        simp only [Nat.add_eq_zero_iff] at h0
        have hm : field w 0 8 = field w 0 4 := by simp [h4, h0]
        exact ⟨wellFormed_trap (by rwa [toNat_ofNat_field, ← hm]), by rw [toNat_ofNat_field, ← hm]; simpa [h0] using hword⟩
  case h_17 =>
    split
    next => exact assembles_none _
    next hne =>
      exact assembles_guardZero rfl fun h0 => by
        simp only [Nat.add_eq_zero_iff] at h0
        have hm : field w 0 8 = field w 0 2 := by simp [h2, h0]
        exact ⟨ofNat_field_ne (hm ▸ hne), by rw [toNat_ofNat_field, ← hm]; simpa [h0] using hword⟩
  case h_18 =>
    split
    next => exact assembles_none _
    next hn =>
      have hwf : ((field w 1 1 == 1) || regAt w 21 == 0) = true := by
        by_cases h : field w 1 1 = 1
        · simp [h]
        · simp [h, Fin.ext_iff] at hn ⊢; exact hn
      split
      next hz => exact assembles_guardZero rfl fun h0 => ⟨hwf, by simpa [h0, hz, h2, h11] using hword⟩
      next hz =>
        replace hz : field w 0 1 = 1 := by omega
        exact assembles_guardZero rfl fun h0 => ⟨hwf, by
          simp only [Nat.add_eq_zero_iff] at h0; simpa [h0, hz, h2, h11, Nat.add_comm] using hword⟩
  case h_21 => exact assembles_guardZero rfl fun h0 => ⟨rfl, by rw [toNat_ofNat_field]; simp only [Nat.add_eq_zero_iff] at h0; simpa [h0] using hword⟩
  case h_22 => exact assembles_none _
  all_goals exact assembles_guardZero rfl fun h0 => ⟨rfl, by simp only [Nat.add_eq_zero_iff] at h0; simpa [h0] using hword⟩

end

theorem decodeForm_assembles {w : Nat} {ext : Option Nat} (hw : w < 2 ^ 32) (he : Extends w ext) (ht : ext ≠ none → takesExt w = true) :
    Assembles (decodeForm w ext) (withExt w ext) := by
  have alone : field w 26 6 ∈ [0, 7, 8, 9, 10, 12, 13, 17, 18, 19, 20, 21, 22, 25, 26, 27, 28] → ext = none := fun h =>
    by_contra fun hne => by simp [not_takesExt h] at ht; exact hne ht
  simp only [decodeForm]
  split_ifs with h0 h12 h13 h16 h17 h22 h26
  · obtain rfl := alone (by simp [h0]); exact decMajor0_assembles hw he h0
  · exact decImm_assembles hw he ht ⟨by omega, h12⟩
  · obtain rfl := alone (by simp [h13]); exact decMajor13_assembles hw he h13
  · exact decMem_assembles hw he ⟨by omega, h16⟩
  · obtain rfl := alone (by simp [h17]); exact decAtomic_assembles hw he h17
  · obtain rfl := alone (by simp only [List.mem_cons]; omega); exact decUnits_assembles hw he
  · obtain rfl := alone (by simp only [List.mem_cons]; omega); exact decControl_assembles hw he
  · exact decRest_assembles hw he ht

/-- What a pair of words decodes to is well formed and encodes as its first word, or as both. -/
theorem encode_of_decode {w e n : Nat} {i : Instr} (hw : w < 2 ^ 32) (he : e < 2 ^ 32) (h : decode w e = .ok (i, n)) :
    wellFormed i = true ∧ ((n = 1 ∧ encode i = some [w]) ∨ (n = 2 ∧ encode i = some [w, e])) := by
  have one := field_lt w 25 1
  unfold decode at h
  split_ifs at h with h1 h2 hext ht hm
  · split at h
    next hd =>
      cases h
      obtain ⟨hwf, henc⟩ := decodeForm_assembles (ext := some _) hw ⟨hext, field_lt e 0 28⟩ (fun _ => by simpa using ht) _ hd
      rw [withExt, wordE_fields he (not_not.mp hm)] at henc
      exact ⟨hwf, .inr ⟨rfl, henc⟩⟩
    next => cases h
  · split at h
    next hd =>
      cases h
      obtain ⟨hwf, henc⟩ := decodeForm_assembles (ext := none) hw (show field w 25 1 = 0 by omega) (fun hne => absurd rfl hne) _ hd
      exact ⟨hwf, .inl ⟨rfl, henc⟩⟩
    next => cases h

end Sys2Proof
end

section
/-!
PROOFS. Completeness of the decoder: the one word that encodes a well-formed instruction decodes to it.
-/

namespace Sys2Proof

/-! ### What encodes as a word decodes from it -/

/-- A field that reaches from y into x. -/
theorem field_cat_across {k x y lo n : Nat} (hy : y < 2 ^ k) (hlo : lo < k) (hn : k < lo + n) :
    field (cat k x y) lo n = 2 ^ (k - lo) * field x 0 (lo + n - k) + field y lo (k - lo) := by
  have h := field_add (cat k x y) lo (k - lo) (lo + n - k)
  rwa [show k - lo + (lo + n - k) = n by omega, show lo + (k - lo) = k by omega, field_cat_high hy le_rfl, Nat.sub_self,
    field_cat_low (show lo + (k - lo) ≤ k by omega)] at h

theorem field_red_op (z : Bool) (o : RedOp) : field (8 * bit z + o.code) 0 3 = o.code := by cases z <;> cases o <;> rfl
theorem field_red_z (z : Bool) (o : RedOp) : field (8 * bit z + o.code) 3 1 = bit z := by cases z <;> cases o <;> rfl
theorem field_size (z : Size) (g : Bool) : field (2 * z.code + bit g) 1 2 = z.code := by cases z <;> cases g <;> rfl
theorem field_sign (z : Size) (g : Bool) : field (2 * z.code + bit g) 0 1 = bit g := by cases z <;> cases g <;> rfl
theorem field_store_size (z : Size) : field (2 * z.code) 1 2 = z.code := by cases z <;> rfl
theorem field_store_sign (z : Size) : field (2 * z.code) 0 1 = 0 := by cases z <;> rfl
theorem field_pref (v : Bool) : field (2 * bit v) 1 1 = bit v ∧ field (2 * bit v) 2 1 = 0 ∧ field (2 * bit v) 0 1 = 0 := by cases v <;> decide
theorem field_named (m : Bool) : field (2 * bit m) 0 1 = 0 ∧ field (2 * bit m) 1 1 = bit m ∧ field (2 * bit m) 2 6 = 0 := by cases m <;> decide
theorem field_named_all (m : Bool) : field (1 + 2 * bit m) 0 1 = 1 ∧ field (1 + 2 * bit m) 1 1 = bit m ∧ field (1 + 2 * bit m) 2 6 = 0 := by
  cases m <;> decide
theorem field_atomMod (w g : Bool) :
    field (atomMod w g) 7 1 = 1 ∧ field (atomMod w g) 6 1 = bit w ∧ field (atomMod w g) 5 1 = bit g ∧ field (atomMod w g) 0 5 = 0 := by
  cases w <;> cases g <;> decide
theorem atomMod_lt (w g : Bool) : atomMod w g < 256 := by cases w <;> cases g <;> decide
theorem field_link (a b : Bool) : field (bit a + 2 * bit b) 0 1 = bit a ∧ field (bit a + 2 * bit b) 1 1 = bit b ∧ field (bit a + 2 * bit b) 2 6 = 0 := by
  cases a <;> cases b <;> decide
theorem field_fence (s : Scope) (o : Order) : field (64 * s.code + 16 * o.code) 6 2 = s.code ∧ field (64 * s.code + 16 * o.code) 4 2 = o.code ∧
    field (64 * s.code + 16 * o.code) 0 4 = 0 := by cases s <;> cases o <;> decide
theorem field_tstore (r : Rnd) (f : TileFmt) :
    field (16 * r.code + f.code) 4 2 = r.code ∧ field (16 * r.code + f.code) 0 4 = f.code ∧ field (16 * r.code + f.code) 6 2 = 0 := by
  cases r <;> cases f <;> decide

/-- The word w decodes to i, whatever word follows it. -/
def Decodes (w : Nat) (i : Instr) : Prop := w < 2 ^ 32 ∧ ∀ e, decode w e = .ok (i, 1)

theorem decodes_of_form {w maj : Nat} {i : Instr} (hlt : w < 2 ^ 32) (hmaj : field w 26 6 = maj) (hext : field w 25 1 = 0) (hle : maj ≤ 28)
    (h : decodeForm w none = some i) : Decodes w i := by
  have hmark : field w 28 4 ≠ 15 := by simp only [field] at *; omega
  exact ⟨hlt, fun e => by simp [decode, hmark, hext, h, hmaj, Nat.not_lt.mpr hle]⟩

section
variable {maj : Nat} {i : Instr}

theorem decodes_wordA {d a b fn m : Nat}
    (hfit : maj ≤ 28 ∧ d < 16 ∧ a < 16 ∧ b < 16 ∧ fn < 32 ∧ m < 256)
    (h : decodeForm (wordA maj d a b fn m) none = some i) : Decodes (wordA maj d a b fn m) i := by
  refine decodes_of_form ?_ (maj := maj) ?_ ?_ hfit.1 h <;> simp only [wordA, field] <;> omega

theorem decodes_wordI {d a imm : Nat}
    (hfit : maj ≤ 28 ∧ d < 16 ∧ a < 16 ∧ imm < 2 ^ 17)
    (h : decodeForm (wordI maj 0 d a imm) none = some i) : Decodes (wordI maj 0 d a imm) i := by
  refine decodes_of_form ?_ (maj := maj) ?_ ?_ hfit.1 h <;> simp only [wordI, field] <;> omega

theorem decodes_wordC {c a b s imm : Nat}
    (hfit : maj ≤ 28 ∧ c < 8 ∧ a < 16 ∧ b < 16 ∧ s < 4 ∧ imm < 2 ^ 12)
    (h : decodeForm (wordC maj 0 c a b s imm) none = some i) : Decodes (wordC maj 0 c a b s imm) i := by
  refine decodes_of_form ?_ (maj := maj) ?_ ?_ hfit.1 h <;> simp only [wordC, field] <;> omega

theorem decodes_wordM {d a g op o : Nat}
    (hfit : maj ≤ 28 ∧ d < 16 ∧ a < 16 ∧ g < 8 ∧ op < 4 ∧ o < 2 ^ 12)
    (h : decodeForm (wordM maj 0 d a g op o) none = some i) : Decodes (wordM maj 0 d a g op o) i := by
  refine decodes_of_form ?_ (maj := maj) ?_ ?_ hfit.1 h <;> simp only [wordM, field] <;> omega

theorem decodes_wordJ {disp : Nat}
    (hfit : maj ≤ 28 ∧ disp < 2 ^ 25)
    (h : decodeForm (wordJ maj 0 disp) none = some i) : Decodes (wordJ maj 0 disp) i := by
  refine decodes_of_form ?_ (maj := maj) ?_ ?_ hfit.1 h <;> simp only [wordJ, field] <;> omega

end

theorem decodes_wordV {fn d a b c r s : Nat} {i : Instr}
    (hfit : fn < 64 ∧ d < 8 ∧ a < 8 ∧ b < 8 ∧ c < 16 ∧ r < 4 ∧ s < 16)
    (h : decodeForm (wordV fn d a b c r s) none = some i) : Decodes (wordV fn d a b c r s) i := by
  refine decodes_of_form ?_ (maj := 13) ?_ ?_ (by decide) h <;> simp only [wordV, field] <;> omega

theorem fields_wordA {maj fn m : Nat} {d a b : Reg} (hmaj : maj < 64) (hfn : fn < 32) (hm : m < 256) :
    field (wordA maj d a b fn m) 26 6 = maj ∧ field (wordA maj d a b fn m) 8 5 = fn ∧ regAt (wordA maj d a b fn m) 21 = d ∧
      regAt (wordA maj d a b fn m) 17 = a ∧ regAt (wordA maj d a b fn m) 13 = b ∧
      ∀ lo n, lo + n ≤ 8 → field (wordA maj d a b fn m) lo n = field m lo n := by
  refine ⟨?_, ?_, ?_, ?_, ?_, fun lo n h => by rw [wordA_cat, field_cat_low h]⟩ <;>
    simp (disch := omega) [wordA_cat, field_cat_low, field_cat_high, field_self, Fin.ext_iff]

/-- The parts of the decoder: majors 0 to 12, 13, 14 to 17, 18 to 22, and the rest; what has two words or none is apart. -/
inductive Part where
  | scalar | vector | memory | unit | control | apart

def part : Instr → Part
  | .add .. | .sub .. | .mul .. | .mulh .. | .mulhz .. | .div .. | .divz .. | .rem .. | .remz .. | .and .. | .or .. | .xor .. | .andn .. | .shl ..
  | .shr .. | .sha .. | .rot .. | .min .. | .max .. | .minz .. | .maxz .. | .clz .. | .ctz .. | .popc .. | .mov .. | .shlImm .. | .shrImm ..
  | .shaImm .. | .rotImm .. | .addi .. | .andi .. | .ori .. | .xori .. | .movi .. | .lea .. | .bfx .. | .bfxs .. | .bfi .. | .cmp .. | .cmpi ..
  | .tst .. | .tstBit .. => .scalar
  | .vadd .. | .vsub .. | .vmul .. | .vdot .. | .vfma .. | .vfms .. | .vabs .. | .vneg .. | .vrcp .. | .vrsq .. | .vexp2 .. | .vlog2 .. | .vtanh ..
  | .vmin .. | .vmax .. | .vcvt .. | .vand .. | .vor .. | .vxor .. | .vshl .. | .vshr .. | .vsha .. | .vsel .. | .vperm .. | .vbcast .. | .vtag ..
  | .vscaleWrite .. | .vscaleRead .. | .vcmp .. | .vins .. | .vext .. | .vred .. | .vscan .. => .vector
  | .ldv .. | .stv .. | .feq .. | .fez .. | .vld2 .. | .ld .. | .ldc .. | .ldf .. | .st .. | .stf .. | .pref .. | .aadd .. | .aand .. | .aor ..
  | .axor .. | .aswp .. | .acas .. | .amin .. | .amax .. => .memory
  | .link .. | .grab .. | .fence .. | .tload .. | .tstore .. | .astat .. | .qfence .. | .mmas .. | .fenceb .. | .gang .. | .gangv .. | .disband ..
  | .tzero .. | .tshape .. | .tside .. | .mma .. | .assay .. | .cpy .. | .gath .. | .scat .. | .stage .. | .waitm .. | .expect .. | .waite .. => .unit
  | .b .. | .bl .. | .jr .. | .ret .. | .nalloc .. | .nfree .. | .done .. | .spawn .. | .rnext .. | .rsplit .. | .migr .. | .bar .. | .red ..
  | .qwait .. | .qwaitNet .. | .cls .. | .yield .. | .save .. | .rest .. | .dbrk .. | .clsReg .. | .redex .. | .trap .. | .eret .. | .tlbi ..
  | .tlbiAll .. | .srd .. | .swr .. | .mqRcv .. | .mqSnd .. => .control
  | _ => .apart

theorem decodes_of_encode_scalar {i : Instr} {w : Nat} (hp : part i = .scalar) (hwf : wellFormed i = true) (h : encode i = some [w]) : Decodes w i := by
  cases i with
  | add d a b | sub d a b | mul d a b | mulh d a b | mulhz d a b | div d a b | divz d a b | rem d a b | remz d a b | and d a b | or d a b | xor d a b
  | andn d a b | shl d a b | shr d a b | sha d a b | rot d a b | min d a b | max d a b | minz d a b | maxz d a b | clz d a | ctz d a | popc d a
  | mov d a =>
    cases h
    refine decodes_wordA (by omega) ?_
    simp (disch := omega) [decodeForm, decMajor0, guardZero, wordA_cat, field_cat_low, field_cat_high, field_self, Fin.ext_iff]
  | shlImm d a n | shrImm d a n | shaImm d a n | rotImm d a n =>
    cases h
    have hn : BitVec.ofNat 7 (128 + n.toNat) = n := by bv_omega
    refine decodes_wordA (by omega) ?_
    simp (disch := omega) [decodeForm, decMajor0, wordA_cat, field_cat_low, field_cat_high, field_self, Fin.ext_iff, hn]
  | addi d a n | andi d a n | ori d a n | xori d a n | movi d n =>
    cases h
    refine decodes_wordI (by omega) ?_
    simp (disch := omega) [decodeForm, decImm, guardZero, wordI_cat, field_cat_low, field_cat_high, field_self, Fin.ext_iff]
  | lea d a o =>
    cases h
    refine decodes_wordM (by omega) ?_
    simp (disch := omega) [decodeForm, decImm, guardZero, wordM_cat, field_cat_low, field_cat_high, field_cat_across, field_self, field_above, Fin.ext_iff]
  | bfx d a off wid | bfxs d a off wid | bfi d a off wid =>
    cases h
    have hcat : off.toNat * 2 ^ 10 + wid.toNat * 2 ^ 3 = cat 3 (cat 7 off.toNat wid.toNat) 0 := by simp only [cat]; omega
    refine decodes_wordI (by omega) ?_
    have hlt : cat 3 (cat 7 off.toNat wid.toNat) 0 < 2 ^ 17 := by simp only [cat]; omega
    rw [hcat, wordI_cat]
    simp (disch := omega) [decodeForm, decImm, guardZero, field_cat_low, field_cat_high, field_self, Fin.ext_iff]
  | cmp k a b s | cmpi k a s n  =>
    cases h
    have hk := k.code_lt
    refine decodes_wordC (by omega) ?_
    simp (disch := omega) [decodeForm, decImm, guardZero, wordC_cat, field_cat_low, field_cat_high, field_self, Fin.ext_iff]
  | tst ne a b s =>
    cases h
    have hz := bit_lt ne
    refine decodes_wordC (by omega) ?_
    simp (disch := omega) [decodeForm, decImm, guardZero, wordC_cat, field_cat_low, field_cat_high, field_self, field_above, Fin.ext_iff]
  | tstBit ne a s n =>
    cases h
    have hz := bit_lt ne
    have hcat : 2 ^ 11 + n.toNat = cat 11 1 n.toNat := by simp only [cat, Nat.one_mul]
    refine decodes_wordC (by omega) ?_
    have hlt : cat 11 1 n.toNat < 2 ^ 12 := by simp only [cat]; omega
    rw [hcat, wordC_cat]
    simp (disch := omega) [decodeForm, decImm, guardZero, field_cat_low, field_cat_high, field_self, field_above, Fin.ext_iff]
  | _ => cases hp

theorem decodes_of_encode_vector {i : Instr} {w : Nat} (hp : part i = .vector) (hwf : wellFormed i = true) (h : encode i = some [w]) : Decodes w i := by
  cases i with
  | vadd d a b r | vsub d a b r | vmul d a b r | vdot d a b r | vfma d a b c r | vfms d a b c r | vabs d a r | vneg d a r | vrcp d a r | vrsq d a r
  | vexp2 d a r | vlog2 d a r | vtanh d a r =>
    cases h
    have hr := r.code_lt
    refine decodes_wordV (by omega) ?_
    simp (disch := omega) [decodeForm, decMajor13, unaryV, binaryV, guardZero, wordV_cat, field_cat_low, field_cat_high, field_cat_across, field_self,
      field_above, Fin.ext_iff]
  | vmin d a b r z | vmax d a b r z | vcvt d a z p r t =>
    cases h
    have hr := r.code_lt
    have hz := bit_lt z
    refine decodes_wordV (by omega) ?_
    simp (disch := omega) [decodeForm, decMajor13, guardZero, wordV_cat, field_cat_low, field_cat_high, field_self, field_above, Fin.ext_iff]
  | vand d a b | vor d a b | vxor d a b | vshl d a b | vshr d a b | vsha d a b | vsel d a b c | vperm d a b | vbcast d x t | vtag d a t
  | vscaleWrite d a x | vscaleRead a x =>
    cases h
    refine decodes_wordV (by omega) ?_
    simp (disch := omega) [decodeForm, decMajor13, guardZero, wordV_cat, field_cat_low, field_cat_high, field_self, field_above, Fin.ext_iff]
  | vcmp d a b k =>
    cases h
    have hk := k.code_lt
    refine decodes_wordV (by omega) ?_
    simp (disch := omega) [decodeForm, decMajor13, guardZero, wordV_cat, field_cat_low, field_cat_high, field_self, field_above, Fin.ext_iff]
  | vins d a x k | vext a x k =>
    cases h
    refine decodes_wordV (by omega) ?_
    simp (disch := omega) [decodeForm, decMajor13, guardZero, wordV_cat, field_cat_low, field_cat_high, field_cat_across, field_self, field_above, Fin.ext_iff,
      Nat.div_add_mod]
  | vred d a r z o | vscan d a r z o =>
    cases h
    have hr := r.code_lt
    have hs : 8 * bit z + o.code < 16 := by cases z <;> cases o <;> decide
    refine decodes_wordV (by omega) ?_
    simp (disch := omega) [decodeForm, decMajor13, guardZero, wordV_cat, field_cat_low, field_cat_high, field_self, Fin.ext_iff, field_red_op, field_red_z]
  | _ => cases hp

theorem decodes_of_encode_memory {i : Instr} {w : Nat} (hp : part i = .memory) (hwf : wellFormed i = true) (h : encode i = some [w]) : Decodes w i := by
  cases i with
  | ldv d a f o | stv d a o | feq d a o | fez a o =>
    cases h
    refine decodes_wordM (by omega) ?_
    simp (disch := omega) [decodeForm, decMem, guardZero, wordM_cat, field_cat_low, field_cat_high, field_self, Fin.ext_iff, field_above]
  | vld2 d a f o =>
    cases h
    have hd : field d 0 1 = 0 := by simpa [field] using (show (d.val % 2 == 0) = true from hwf)
    refine decodes_wordM (by omega) ?_
    simp (disch := omega) [decodeForm, decMem, guardZero, wordM_cat, field_cat_low, field_cat_high, field_self, Fin.ext_iff, field_above, hd]
  | ld d a z g o | ldc d a z g o | ldf d a z g o =>
    cases h
    have hsg : z.signOk g = true := hwf
    have hlt : 2 * z.code + bit g < 8 := by cases z <;> cases g <;> decide
    refine decodes_wordM (by omega) ?_
    simp (disch := omega) [decodeForm, decMem, wordM_cat, field_cat_low, field_cat_high, field_self, Fin.ext_iff, field_size, field_sign, hsg]
  | st d a z o | stf d a z o =>
    cases h
    have hlt := z.code_lt
    refine decodes_wordM (by omega) ?_
    simp (disch := omega) [decodeForm, decMem, guardZero, wordM_cat, field_cat_low, field_cat_high, field_self, Fin.ext_iff, field_store_size, field_store_sign]
  | pref a v o =>
    cases h
    have hlt := bit_lt v
    refine decodes_wordM (by omega) ?_
    simp (disch := omega) [decodeForm, decMem, guardZero, wordM_cat, field_cat_low, field_cat_high, field_self, Fin.ext_iff, field_pref]
  | aadd d a b w | aand d a b w | aor d a b w | axor d a b w | aswp d a b w | acas d a b w =>
    cases h
    have hlt := atomMod_lt w false
    refine decodes_wordA (by omega) ?_
    simp (disch := omega) [decodeForm, decAtomic, guardZero, wordA_cat, field_cat_low, field_cat_high, field_self, Fin.ext_iff, field_atomMod, bit_false]
  | amin d a b w g | amax d a b w g =>
    cases h
    have hlt := atomMod_lt w g
    refine decodes_wordA (by omega) ?_
    simp (disch := omega) [decodeForm, decAtomic, wordA_cat, field_cat_low, field_cat_high, field_self, Fin.ext_iff, field_atomMod]
  | _ => cases hp

theorem decodes_of_encode_unit {i : Instr} {w : Nat} (hp : part i = .unit) (hwf : wellFormed i = true) (h : encode i = some [w]) : Decodes w i := by
  cases i with
  | link d a b ao bo =>
    cases h
    have hlt : bit ao + 2 * bit bo < 4 := by cases ao <;> cases bo <;> decide
    refine decodes_wordA (by omega) ?_
    simp (disch := omega) [decodeForm, decUnits, guardZero, wordA_cat, field_cat_low, field_cat_high, field_self, Fin.ext_iff, field_link]
  | grab d a b =>
    cases h
    have hne : ¬(d = b ∧ d ≠ 0) := by simpa [or_iff_not_imp_left] using (show (!(d == b && d != 0)) = true from hwf)
    refine decodes_wordA (by omega) ?_
    obtain ⟨hmaj, hfn, hd, ha, hb, hm⟩ := fields_wordA (maj := 18) (fn := 1) (m := 0) (d := d) (a := a) (b := b) (by omega) (by omega) (by omega)
    simp [decodeForm, decUnits, guardZero, hmaj, hfn, hd, ha, hb, hm, hne, field_self]
  | fence s o =>
    cases h
    have hlt : 64 * s.code + 16 * o.code < 256 := by cases s <;> cases o <;> decide
    refine decodes_wordA (by omega) ?_
    simp (disch := omega) [decodeForm, decUnits, guardZero, wordA_cat, field_cat_low, field_cat_high, field_self, field_fence]
  | tload a b f =>
    cases h
    have hf := f.code_lt
    refine decodes_wordA (by omega) ?_
    simp (disch := omega) [decodeForm, decUnits, guardZero, wordA_cat, field_cat_low, field_cat_high, field_self, Fin.ext_iff, field_above]
  | tstore a b r f =>
    cases h
    have hlt : 16 * r.code + f.code < 256 := by cases r <;> cases f <;> decide
    refine decodes_wordA (by omega) ?_
    simp (disch := omega) [decodeForm, decUnits, guardZero, wordA_cat, field_cat_low, field_cat_high, field_self, Fin.ext_iff, field_tstore]
  | astat d n =>
    cases h
    have hn : n.toNat < 6 := of_decide_eq_true hwf
    refine decodes_wordA (by omega) ?_
    simp (disch := omega) [decodeForm, decUnits, guardZero, wordA_cat, field_cat_low, field_cat_high, field_self, Fin.ext_iff, hn]
  | qfence q =>
    cases h
    have hq : q.toNat ≠ 0 := fun h => bne_iff_ne.mp (show (q != 0) = true from hwf) (BitVec.eq_of_toNat_eq h)
    refine decodes_wordA (by omega) ?_
    simp (disch := omega) [decodeForm, decUnits, guardZero, wordA_cat, field_cat_low, field_cat_high, field_self, hq, field_above]
  | mmas a b z =>
    cases h
    have hz := bit_lt z
    refine decodes_wordA (by omega) ?_
    simp (disch := omega) [decodeForm, decUnits, guardZero, wordA_cat, field_cat_low, field_cat_high, field_self, Fin.ext_iff, field_above]
  | fenceb | gang d a | gangv d a | disband | tzero | tshape a | tside a b | mma a b | assay d a | cpy d a ch | gath a | scat a | stage d | waitm a ch
  | expect a k | waite d k =>
    cases h
    refine decodes_wordA (by omega) ?_
    simp (disch := omega) [decodeForm, decUnits, guardZero, wordA_cat, field_cat_low, field_cat_high, field_self, Fin.ext_iff, field_above]
  | _ => cases hp

theorem decodes_of_encode_control {i : Instr} {w : Nat} (hp : part i = .control) (hwf : wellFormed i = true) (h : encode i = some [w]) : Decodes w i := by
  cases i with
  | b x | bl x =>
    cases h
    refine decodes_wordJ (by omega) ?_
    simp (disch := omega) [decodeForm, decRest, wordJ_cat, field_cat_low, field_cat_high, field_self]
  | jr d a | ret | nalloc d a | nfree a | done | spawn a b | rnext d | rsplit d a | migr a | bar a | red d a b | qwait d | qwaitNet d a | cls n
  | yield | save a | rest a | dbrk n =>
    cases h
    refine decodes_wordA (by omega) ?_
    simp (disch := omega) [decodeForm, decControl, guardZero, wordA_cat, field_cat_low, field_cat_high, field_self, Fin.ext_iff, field_above]
  | clsReg a =>
    cases h
    have h4 : field 4 2 1 = 1 ∧ field 4 3 5 = 0 ∧ field 4 0 2 = 0 := by decide
    refine decodes_wordA (by omega) ?_
    simp (disch := omega) [decodeForm, decControl, guardZero, wordA_cat, field_cat_low, field_cat_high, field_self, Fin.ext_iff, field_above, h4]
  | redex q a b t =>
    cases h
    have ht := bit_lt t
    refine decodes_wordA (by omega) ?_
    simp (disch := omega) [decodeForm, decControl, guardZero, wordA_cat, field_cat_low, field_cat_high, field_self, Fin.ext_iff, field_above]
  | trap a c =>
    cases h
    have hc : ¬(c.toNat = 11 ∨ c.toNat = 12 ∨ c.toNat = 14 ∨ c.toNat = 15) := by
      simpa [BitVec.toNat_eq, and_assoc] using (show (!(c == 11 || c == 12 || c == 14 || c == 15)) = true from hwf)
    refine decodes_wordA (by omega) ?_
    simp (disch := omega) [decodeForm, decControl, guardZero, wordA_cat, field_cat_low, field_cat_high, field_self, Fin.ext_iff, field_above, hc]
  | eret d a m =>
    cases h
    have hm : m.toNat ≠ 3 := by simpa [BitVec.toNat_eq] using (show (m != 3) = true from hwf)
    refine decodes_wordA (by omega) ?_
    simp (disch := omega) [decodeForm, decControl, guardZero, wordA_cat, field_cat_low, field_cat_high, field_self, Fin.ext_iff, field_above, hm]
  | tlbi n a b m =>
    cases h
    have hn : m = false → n = 0 := by simpa [or_iff_not_imp_left] using (show (m || n == 0) = true from hwf)
    have hlt : 2 * bit m < 256 := by cases m <;> decide
    refine decodes_wordA (by omega) ?_
    obtain ⟨hmaj, hfn, hd, ha, hb, hm⟩ := fields_wordA (maj := 26) (fn := 2) (d := n) (a := a) (b := b) (by omega) (by omega) hlt
    have hd' := congrArg Fin.val hd
    simp only [regAt_val] at hd'
    simp [decodeForm, decControl, guardZero, hmaj, hfn, hd, ha, hb, hd', hm, field_named]
    intro h; simp [hn h]
  | tlbiAll n m =>
    cases h
    have hn : m = false → n = 0 := by simpa [or_iff_not_imp_left] using (show (m || n == 0) = true from hwf)
    have hlt : 1 + 2 * bit m < 256 := by cases m <;> decide
    refine decodes_wordA (by omega) ?_
    obtain ⟨hmaj, hfn, hd, ha, hb, hm⟩ := fields_wordA (maj := 26) (fn := 2) (d := n) (a := 0) (b := 0) (by omega) (by omega) hlt
    have hd' := congrArg Fin.val hd
    have ha' := congrArg Fin.val ha
    have hb' := congrArg Fin.val hb
    simp only [regAt_val] at hd' ha' hb'
    rw [show ((0 : Reg) : Nat) = 0 from rfl] at *
    simp [decodeForm, decControl, guardZero, hmaj, hfn, hd, ha', hb', hd', hm, field_named_all]
    intro h; simp [hn h]
  | srd d n =>
    cases h
    have hn : n.toNat ≠ 17 := by simpa [BitVec.toNat_eq] using (show (n != 0x011) = true from hwf)
    refine decodes_wordI (by omega) ?_
    have h12 : field n.toNat 12 5 = 0 := field_above n.isLt
    simp (disch := omega) [decodeForm, decRest, wordI_cat, field_cat_low, field_cat_high, field_cat_across, field_self, Fin.ext_iff, h12, hn]
  | swr d n =>
    cases h
    have hn : n.toNat ≠ 16 := by simpa [BitVec.toNat_eq] using (show (n != 0x010) = true from hwf)
    refine decodes_wordI (by omega) ?_
    have h12 : field n.toNat 12 5 = 0 := field_above n.isLt
    simp (disch := omega) [decodeForm, decRest, wordI_cat, field_cat_low, field_cat_high, field_cat_across, field_self, Fin.ext_iff, h12, hn]
  | mqRcv v | mqSnd v =>
    cases h
    have hv : field (8 + v) 3 1 = 1 ∧ field (8 + v) 0 3 = v := by simp only [field]; omega
    refine decodes_wordI (by omega) ?_
    simp (disch := omega) [decodeForm, decRest, wordI_cat, field_cat_low, field_cat_high, field_cat_across, field_self, field_above, Fin.ext_iff, hv]
  | _ => cases hp

theorem encode_apart {i : Instr} {w : Nat} (hp : part i = .apart) : encode i ≠ some [w] := by
  intro h
  cases i <;> cases h <;> cases hp

theorem decodes_of_encode {i : Instr} {w : Nat} (hwf : wellFormed i = true) (h : encode i = some [w]) : Decodes w i := by
  cases hp : part i
  case scalar => exact decodes_of_encode_scalar hp hwf h
  case vector => exact decodes_of_encode_vector hp hwf h
  case memory => exact decodes_of_encode_memory hp hwf h
  case unit => exact decodes_of_encode_unit hp hwf h
  case control => exact decodes_of_encode_control hp hwf h
  case apart => exact absurd h (encode_apart hp)

end Sys2Proof
end

section
/-!
PROOFS. Two-word forms (03 R53), the bytes of an instruction, and the agreement of decoder and encoder.
-/

namespace Sys2Proof

/-! ### Two-word forms, and the bytes of an instruction -/

/-- The words w and e decode to i together. -/
def DecodesExt (w e : Nat) (i : Instr) : Prop := w < 2 ^ 32 ∧ e < 2 ^ 32 ∧ decode w e = .ok (i, 2)

theorem decodesExt_of_form {w x maj : Nat} {i : Instr} (hlt : w < 2 ^ 32) (hmaj : field w 26 6 = maj) (hext : field w 25 1 = 1) (hle : maj ≤ 28)
    (hx : x < 2 ^ 28) (ht : takesExt w = true) (h : decodeForm w (some x) = some i) : DecodesExt w (wordE x) i := by
  have hmark : field w 28 4 ≠ 15 := by simp only [field] at *; omega
  have he : field (wordE x) 28 4 = 15 ∧ field (wordE x) 0 28 = x := by simp only [wordE, field]; omega
  exact ⟨hlt, by simp only [wordE]; omega, by simp [decode, hmark, hext, he, ht, h, hmaj, Nat.not_lt.mpr hle]⟩

section
variable {maj x : Nat} {i : Instr}

theorem decodesExt_wordI {d a imm : Nat}
    (hfit : maj ≤ 28 ∧ x < 2 ^ 28 ∧ d < 16 ∧ a < 16 ∧ imm < 2 ^ 17)
    (h : takesExt (wordI maj 1 d a imm) = true ∧ decodeForm (wordI maj 1 d a imm) (some x) = some i) : DecodesExt (wordI maj 1 d a imm) (wordE x) i := by
  refine decodesExt_of_form ?_ (maj := maj) ?_ ?_ hfit.1 hfit.2.1 h.1 h.2 <;> simp only [wordI, field] <;> omega

theorem decodesExt_wordC {c a b s imm : Nat}
    (hfit : maj ≤ 28 ∧ x < 2 ^ 28 ∧ c < 8 ∧ a < 16 ∧ b < 16 ∧ s < 4 ∧ imm < 2 ^ 12)
    (h : takesExt (wordC maj 1 c a b s imm) = true ∧ decodeForm (wordC maj 1 c a b s imm) (some x) = some i) :
    DecodesExt (wordC maj 1 c a b s imm) (wordE x) i := by
  refine decodesExt_of_form ?_ (maj := maj) ?_ ?_ hfit.1 hfit.2.1 h.1 h.2 <;> simp only [wordC, field] <;> omega

theorem decodesExt_wordM {d a g op o : Nat}
    (hfit : maj ≤ 28 ∧ x < 2 ^ 28 ∧ d < 16 ∧ a < 16 ∧ g < 8 ∧ op < 4 ∧ o < 2 ^ 12)
    (h : takesExt (wordM maj 1 d a g op o) = true ∧ decodeForm (wordM maj 1 d a g op o) (some x) = some i) :
    DecodesExt (wordM maj 1 d a g op o) (wordE x) i := by
  refine decodesExt_of_form ?_ (maj := maj) ?_ ?_ hfit.1 hfit.2.1 h.1 h.2 <;> simp only [wordM, field] <;> omega

theorem decodesExt_wordJ {disp : Nat}
    (hfit : maj ≤ 28 ∧ x < 2 ^ 28 ∧ disp < 2 ^ 25)
    (h : takesExt (wordJ maj 1 disp) = true ∧ decodeForm (wordJ maj 1 disp) (some x) = some i) : DecodesExt (wordJ maj 1 disp) (wordE x) i := by
  refine decodesExt_of_form ?_ (maj := maj) ?_ ?_ hfit.1 hfit.2.1 h.1 h.2 <;> simp only [wordJ, field] <;> omega

end

theorem ofNat_parts {n : Nat} (i : BitVec n) (k : Nat) : BitVec.ofNat n (i.toNat / 2 ^ k * 2 ^ k + i.toNat % 2 ^ k) = i := by
  rw [Nat.div_add_mod', BitVec.ofNat_toNat, BitVec.setWidth_eq]

theorem decodesExt_of_encode {i : Instr} {w e : Nat} (hwf : wellFormed i = true) (h : encode i = some [w, e]) : DecodesExt w e i := by
  cases i with
  | addiExt d a n | andiExt d a n | oriExt d a n | xoriExt d a n | moviExt d n =>
    cases h
    refine decodesExt_wordI (by omega) ?_
    simp (disch := omega) [takesExt, decodeForm, decImm, guardZero, wordI_cat, field_cat_low, field_cat_high, field_self, Fin.ext_iff]
    exact ofNat_parts n 17
  | leaExt d a o =>
    cases h
    refine decodesExt_wordM (by omega) ?_
    simp (disch := omega) [takesExt, decodeForm, decImm, guardZero, wordM_cat, field_cat_low, field_cat_high, field_cat_across, field_self, field_above,
      Fin.ext_iff]
    exact ofNat_parts o 12
  | cmpiExt k a s n =>
    cases h
    have hk := k.code_lt
    refine decodesExt_wordC (by omega) ?_
    simp (disch := omega) [takesExt, decodeForm, decImm, guardZero, wordC_cat, field_cat_low, field_cat_high, field_self, Fin.ext_iff]
    exact ofNat_parts n 12
  | ldvExt d a f o | stvExt d a o | feqExt d a o | fezExt a o =>
    cases h
    refine decodesExt_wordM (by omega) ?_
    simp (disch := omega) [takesExt, decodeForm, decMem, guardZero, wordM_cat, field_cat_low, field_cat_high, field_self, field_above, Fin.ext_iff]
    exact ofNat_parts o 12
  | vld2Ext d a f o =>
    cases h
    have hd : field d 0 1 = 0 := by simpa [field] using (show (d.val % 2 == 0) = true from hwf)
    refine decodesExt_wordM (by omega) ?_
    simp (disch := omega) [takesExt, decodeForm, decMem, guardZero, wordM_cat, field_cat_low, field_cat_high, field_self, field_above, Fin.ext_iff, hd]
    exact ofNat_parts o 12
  | ldExt d a z g o | ldcExt d a z g o | ldfExt d a z g o =>
    cases h
    have hsg : z.signOk g = true := hwf
    have hlt : 2 * z.code + bit g < 8 := by cases z <;> cases g <;> decide
    refine decodesExt_wordM (by omega) ?_
    simp (disch := omega) [takesExt, decodeForm, decMem, wordM_cat, field_cat_low, field_cat_high, field_self, Fin.ext_iff, field_size, field_sign, hsg]
    exact ofNat_parts o 12
  | stExt d a z o | stfExt d a z o =>
    cases h
    have hlt := z.code_lt
    refine decodesExt_wordM (by omega) ?_
    simp (disch := omega) [takesExt, decodeForm, decMem, guardZero, wordM_cat, field_cat_low, field_cat_high, field_self, Fin.ext_iff, field_store_size,
      field_store_sign]
    exact ofNat_parts o 12
  | prefExt a v o =>
    cases h
    have hlt := bit_lt v
    refine decodesExt_wordM (by omega) ?_
    simp (disch := omega) [takesExt, decodeForm, decMem, guardZero, wordM_cat, field_cat_low, field_cat_high, field_self, Fin.ext_iff, field_pref]
    exact ofNat_parts o 12
  | bExt x | blExt x =>
    cases h
    refine decodesExt_wordJ (by omega) ?_
    simp (disch := omega) [takesExt, decodeForm, decRest, wordJ_cat, field_cat_low, field_cat_high, field_self]
    exact ofNat_parts x 25
  | _ => cases h

/-- An instruction has one word or two. -/
theorem encode_words {i : Instr} {ws : List Nat} (h : encode i = some ws) : (∃ w, ws = [w]) ∨ ∃ w e, ws = [w, e] := by
  cases i <;> cases h <;> simp [encI, encIExt, encM, encMExt]

theorem leNat_word {w : Nat} (hw : w < 2 ^ 32) : Sys2Proof.leNat (leBytes 4 w) = w := by
  rw [Machine.leNat_leBytes]; omega

/-- The bytes of an instruction decode to it, whatever follows them. -/
theorem decodeBytes_encode {i : Instr} {ws : List Nat} (rest : List Byte) (hwf : wellFormed i = true) (h : encode i = some ws) :
    decodeBytes (ws.flatMap (leBytes 4) ++ rest) = .ok (i, rest) := by
  obtain ⟨w, rfl⟩ | ⟨w, e, rfl⟩ := encode_words h
  · obtain ⟨hlt, hd⟩ := decodes_of_encode hwf h
    rw [List.flatMap_singleton, decodeBytes, List.take_left' (Machine.leBytes_length 4 w), leNat_word hlt, hd]
    simp only [Nat.mul_one, List.drop_left' (Machine.leBytes_length 4 w)]
  · obtain ⟨hw, he, hd⟩ := decodesExt_of_encode hwf h
    rw [show [w, e].flatMap (leBytes 4) ++ rest = leBytes 4 w ++ (leBytes 4 e ++ rest) by simp, decodeBytes, List.take_left' (Machine.leBytes_length 4 w),
      List.drop_left' (Machine.leBytes_length 4 w), List.take_left' (Machine.leBytes_length 4 e), leNat_word hw, leNat_word he, hd]
    simp only [← List.append_assoc]
    rw [List.drop_left' (by simp)]

/-- Settles O59: each format of 03 R52 is a string of fields, so a word is put together of what the decoder reads of it, and the fields of an encoded
    word are its operands. -/
theorem decodeAndEncodeAgree : Obligations.DecodeAndEncodeAgree := by
  refine ⟨fun w e n i hw he => ⟨encode_of_decode hw he, ?_⟩, fun i ws rest hwf h => decodeBytes_encode rest hwf h⟩
  rintro ⟨hwf, ⟨rfl, h⟩ | ⟨rfl, h⟩⟩
  · exact (decodes_of_encode hwf h).2 e
  · exact (decodesExt_of_encode hwf h).2.2

end Sys2Proof
end

section
/-!
PROOFS. Printed words, and what a cold reset leaves (18 R327).
-/

namespace Sys2Proof.Machine
open Sys2Proof Sys2Proof.Say

/-- Settles O57: the decoder is run on each of the printed words. -/
theorem printedWordsDecodeToTheirInstructions : Obligations.PrintedWordsDecodeToTheirInstructions := by
  unfold Obligations.PrintedWordsDecodeToTheirInstructions
  decide +kernel

/-! ### What a cold reset leaves (18 R327) -/

/-- A module that no step has touched meets the invariant: it holds no thread, and no byte is written. -/
theorem State.inv_reset : State.reset.Inv where
  memory := rfl
  held _ he := absurd he List.not_mem_nil
  resident _ he := absurd he List.not_mem_nil
  evicted _ he := absurd he List.not_mem_nil
  gangs _ he := absurd he List.not_mem_nil

theorem bankRole_reset (slice bank : Nat) : bankRole State.reset slice bank = 0 := by
  simp [bankRole, State.reset, bits, Tbl.getD, Tbl.get?]

theorem ctx_reset (b : Nat) : State.reset.ctx b = {} := rfl

/-- Settles O58: every field of the state after a reset has its declared value, and every table is empty. -/
theorem resetLeavesWhatTheSpecGives : Obligations.ResetLeavesWhatTheSpecGives := by
  refine ⟨State.inv_reset, rfl, rfl, rfl, rfl, rfl, rfl, rfl, rfl, rfl, rfl, fun _ => rfl, fun slice bank _ => bankRole_reset slice bank, fun _ => rfl,
    fun _ _ => rfl, fun _ _ => rfl, fun _ => rfl, fun _ => rfl, fun _ => rfl, fun b => ⟨rfl, rfl, rfl, fun r => ?_, fun v => ?_⟩⟩
  · rw [ctx_reset]
    exact Vector.getElem_replicate r.isLt
  · rw [ctx_reset]
    exact Vector.getElem_replicate v.isLt

end Sys2Proof.Machine
end

section
/-!
PROOFS. The special registers (03 R50) and the message registers (15 R281 to R283): the statement.
-/

namespace Sys2Proof.Machine
open Sys2Proof Sys2Proof.Say

/-! ### What changes the issuing thread and its quad's floor alone -/

section

variable {s t u : State}

theorem onlyFlit_cur (h : OnlyFlit s t) : t.cur = s.cur := by
  obtain ⟨he, -⟩ := h
  rw [he]

theorem onlyFlit_trans (h : OnlyFlit s t) (k : OnlyFlit t u) : OnlyFlit s u := by
  refine ⟨k.1.trans ?_, fun b hb => (k.2 b ((onlyFlit_cur h).symm ▸ hb)).trans (h.2 b hb)⟩
  obtain ⟨he, -⟩ := h
  rw [he]

theorem onlyFlit_setTh (s : State) (c : Ctx) : OnlyFlit s (s.setTh c) := ⟨rfl, fun _ hb => s.get?_setTh_ne c hb⟩

theorem onlyFlit_raise (s : State) (p : Nat) : OnlyFlit s (s.raise s.cur p) := ⟨rfl, fun _ hb => s.get?_raise_ne p hb⟩

theorem onlyFlit_leave (s : State) (w : Wait) : OnlyFlit s (s.leave s.cur w) := ⟨rfl, fun _ hb => s.get?_leave_ne w hb⟩

end

/-! ### The special registers (03 R50, 17 R320) -/

theorem x_raise_cur (s : State) (p : Nat) (r : Reg) : (s.raise s.cur p).x r = s.x r := by
  rw [State.x, State.x, raise_th]

theorem onlyThread_setTh_pass (s : State) (c : Ctx) (n : Nat) : OnlyThread s ((s.setTh c).pass n) { c with pc := c.pc + BitVec.ofNat 56 n } := by
  refine ⟨rfl, ?_, fun b hb => ?_, fun _ => rfl⟩
  · simp [State.pass, State.setTh, State.setCtx, State.setBerth, State.berth, State.th, State.ctx, Tbl.getD]
  · exact (State.get?_setTh_ne (s.setTh c) _ hb).trans (s.get?_setTh_ne c hb)

theorem readEffect_of_plain {k : Nat} (h1 : k ≠ 1) (h2 : k < 0x20 ∨ 0x23 < k) (s : State) : readEffect k s = s := by
  rw [readEffect, if_neg h1, if_neg (by omega)]

theorem readEffect_of_mark {k : Nat} (h : k < 4) (s : State) : readEffect (0x20 + k) s = s.raise s.cur (s.chan s.quad k).time := by
  rw [readEffect, if_neg (by omega), if_pos (by omega), Nat.add_sub_cancel_left]

theorem specialReg_mark {k : Nat} (h : k < 4) (s : State) : specialReg (0x20 + k) s = some (s.chan s.quad k).mark := by
  match k, h with
  | 0, _ | 1, _ | 2, _ | 3, _ => rfl

theorem specialReg_of_other {k : Nat} (h : k ∉ [0, 1, 2, 3, 4, 5, 6, 7, 8, 9, 0xA, 0xB, 0xC, 0xD, 0x20, 0x21, 0x22, 0x23]) (s : State) :
    specialReg k s = none := by
  simp only [List.mem_cons, List.not_mem_nil, not_or, or_false] at h
  unfold specialReg
  split <;> simp_all

section
variable (d : Reg) (n : BitVec 12) (s : State)

theorem srd_faults (h : ∀ t, specialReg n.toNat t = none) : exec (.srd d n) s = .next (takeFault { cause := .illegal } s) := by
  show finish s (srdRun d n.toNat s) = _
  rw [srdRun, h]
  rfl

theorem srd_answers {v : Nat} (h : specialReg n.toNat (readEffect n.toNat s) = some v) :
    exec (.srd d n) s = .next (((readEffect n.toNat s).xw d (BitVec.ofNat 64 v)).pass 4) := by
  show finish s (srdRun d n.toNat s) = _
  rw [srdRun, h]
  rfl

/-- A register whose reading has no other effect. -/
theorem srd_writes {v : Nat} (heff : readEffect n.toNat s = s) (h : specialReg n.toNat s = some v) :
    WritesX 4 d (BitVec.ofNat 64 v) s (exec (.srd d n) s) := by
  rw [srd_answers d n s (heff.symm ▸ h), heff]
  exact writesX_xw_pass s d _

/-- A register whose reading raises the program time first. -/
theorem srd_raises {v p : Nat} (heff : readEffect n.toNat s = s.raise s.cur p) (h : specialReg n.toNat (s.raise s.cur p) = some v) :
    ∃ t, exec (.srd d n) s = .next t ∧ t.th = { s.th with regs := t.th.regs, pc := s.th.pc + 4, pts := max s.th.pts p } ∧
      (∀ r, t.x r = if r = d ∧ r ≠ 0 then BitVec.ofNat 64 v else s.x r) ∧ t = { s with berths := t.berths, floors := t.floors } := by
  refine ⟨_, srd_answers d n s (heff.symm ▸ h), ?_, fun r => ?_, ?_⟩
  · rw [heff, State.th_xw_pass, raise_th]
    rfl
  · rw [heff, State.x_pass, x_xw_iff, x_raise_cur]
  · rw [heff]
    exact (onlyFlit_trans (onlyFlit_raise s p) (onlyFlit_trans (onlyFlit_setTh _ _) (onlyFlit_setTh _ _))).1

theorem swr_faults (h : n.toNat ≠ 0xB) : exec (.swr d n) s = .next (takeFault { cause := .illegal } s) := by
  show finish s (swrRun d n.toNat s) = _
  rw [swrRun, if_neg h]
  rfl

theorem swr_sets (h : n.toNat = 0xB) : exec (.swr d n) s = .next ((s.setTh { s.th with fflags := BitVec.ofNat 5 (s.x d).toNat }).pass 4) := by
  show finish s (swrRun d n.toNat s) = _
  rw [swrRun, if_pos h, BitVec.ofNat_toNat]
  rfl

end

/-! ### The message registers (15 R281 to R283) -/

/-- A receive with a flit waiting. -/
theorem mqRcv_takes (v : VIdx) (s : State) {x : VData} {time : Nat} {rest : List (VData × Nat)} (h : s.th.mq = (x, time) :: rest) :
    exec (.mqRcv v) s =
      .next ((((s.setTh { s.th with mq := rest }).raise s.cur time).vw v { data := x, tag := .raw, side := 0 }).pass 4) := by
  show execMqRcv v s = _
  rw [execMqRcv, h]

theorem th_vw_pass (s : State) (v : VIdx) (x : VReg) (n : Nat) :
    ((s.vw v x).pass n).th = { s.th with vecs := setVec s.th.vecs v x, pc := s.th.pc + BitVec.ofNat 56 n } := by
  simp [State.pass, State.vw, State.th_setTh]

theorem flitDest_eq (s : State) (data : VData) : flitDest s data =
    (s.net.ofForm s (data.toNat % 2 ^ 18)).map (fun q => 64 * q + 16 * (data.toNat / 2 ^ 18 % 4) + data.toNat / 2 ^ 20 % 16) := by
  simp [flitDest, bits]

/-- A send leaves rotation, its flit on the way. -/
theorem mqSnd_sends (v : VIdx) (s : State) {b : Nat} (h : flitDest s s.th.vecs[v].data = some b) :
    exec (.mqSnd v) s = .next (State.leave { s with
      msgs := s.msgs ++ [{ src := s.quad, dst := quadOf b, body := .flit s.th.vecs[v].data b s.cur s.th.net s.now }] } s.cur
      (.send s.th.vecs[v].data b)) := by
  show finish s (mqSndRun v s) = _
  rw [mqSndRun]
  simp only [h]
  rfl

theorem mqSnd_faults (v : VIdx) (s : State) (h : flitDest s s.th.vecs[v].data = none) :
    exec (.mqSnd v) s = .next (takeFault { cause := .access } s) := by
  show finish s (mqSndRun v s) = _
  rw [mqSndRun]
  simp only [h]
  rfl

/-- Settles O40, register by register of the model's table, then the two message registers. -/
theorem specialAndMessageRegisters : Obligations.SpecialAndMessageRegisters := by
  unfold Obligations.SpecialAndMessageRegisters
  intro d v n s
  refine ⟨fun e he hn => ?_, fun hp hn => ?_, fun hp hn => ?_, fun hn => ?_, fun k hk hn => ?_, fun hn => ?_, fun hn => ?_, fun hn => ?_,
    fun hq => ?_, fun x time rest hq => ?_, ?_⟩
  case refine_1 =>
    have hplain : e.1 ≠ 1 ∧ e.1 < 0x20 ∧ specialReg e.1 s = some e.2 := by
      simp only [List.mem_cons, List.not_mem_nil, or_false] at he
      rcases he with rfl | rfl | rfl | rfl | rfl | rfl | rfl | rfl | rfl | rfl | rfl | rfl <;>
        exact ⟨Nat.ne_of_beq_eq_false rfl, Nat.le_of_ble_eq_true rfl, rfl⟩
    obtain ⟨hne, hlt, hval⟩ := hplain
    exact srd_writes d n s (hn ▸ readEffect_of_plain hne (.inl hlt) s) (hn ▸ hval)
  case refine_2 =>
    exact srd_writes d n s (hn ▸ readEffect_of_plain (by decide) (.inl (by decide)) s) (hn ▸ congrArg some (if_pos hp))
  case refine_3 =>
    exact srd_writes d n s (hn ▸ readEffect_of_plain (by decide) (.inl (by decide)) s) (hn ▸ congrArg some (if_neg (by simp [hp])))
  case refine_4 =>
    have hmax : max s.th.pts s.now = max s.th.pts (s.clock / 512) := by simp [State.now, State.T]
    have hread : specialReg n.toNat (s.raise s.cur s.now) = some (max s.th.pts (s.clock / 512)) := by
      rw [hn, ← hmax]
      exact congrArg (some ·.pts) (raise_th s s.now)
    obtain ⟨t, ht, hth, hx, hrest⟩ := srd_raises d n s (hn ▸ rfl) hread
    exact ⟨t, ht, hmax ▸ hth, hx, hrest⟩
  case refine_5 => exact srd_raises d n s (hn ▸ readEffect_of_mark hk s) (hn ▸ specialReg_mark hk _)
  case refine_6 => exact srd_faults d n s (fun t => specialReg_of_other hn t)
  case refine_7 => exact ⟨_, swr_sets d n s hn, onlyThread_setTh_pass s _ 4⟩
  case refine_8 => exact swr_faults d n s hn
  case refine_9 =>
    refine ⟨s.leave s.cur (.flit v), ?_, onlyFlit_leave s _, State.ctx_leave_same s s.cur _⟩
    show execMqRcv v s = _
    rw [execMqRcv, hq]
  case refine_10 =>
    refine ⟨_, mqRcv_takes v s hq, ?_, ?_, fun k => ?_⟩
    · exact onlyFlit_trans (onlyFlit_setTh s _) (onlyFlit_trans (onlyFlit_raise _ time) (onlyFlit_trans (onlyFlit_setTh _ _) (onlyFlit_setTh _ _)))
    · rw [th_vw_pass, show s.cur = (s.setTh { s.th with mq := rest }).cur from rfl, raise_th, State.th_setTh]
      rfl
    · rw [th_vw_pass, show s.cur = (s.setTh { s.th with mq := rest }).cur from rfl, raise_th, State.th_setTh, setVec_get]
      simp only [eq_comm]
  case refine_11 =>
    refine ⟨fun hto => mqSnd_faults v s (by rw [flitDest_eq, hto]; rfl), fun q hto => ?_⟩
    refine ⟨_, mqSnd_sends v s (by rw [flitDest_eq, hto]; rfl), fun b hb => State.get?_leave_ne _ _ hb, ?_, rfl⟩
    exact State.ctx_leave_same _ s.cur _

end Sys2Proof.Machine
end

section
/-!
PROOFS. What a slot takes (13 R247), what a fetch reads and misses (03 R51, 08 R156), and a register error (17 R309).
-/

namespace Sys2Proof.Machine
open Sys2Proof Sys2Proof.Say

/-! ### The slot (13 R247): which berth it takes, and the turn's counters -/

theorem chosen_cases {s : State} {lo hi b : Nat} (h : chosen s lo hi = some b) : isReady s b = true ∧ (b = lo ∨ b = hi) := by
  unfold chosen at h
  cases hl : isReady s lo <;> cases hh : isReady s hi <;> simp only [hl, hh, Bool.not_true, Bool.not_false, Bool.and_true,
    Bool.and_false, Bool.false_eq_true, if_true, if_false, reduceCtorEq, Option.some.injEq] at h
  · exact h ▸ ⟨hh, .inr rfl⟩
  · exact h ▸ ⟨hl, .inl rfl⟩
  · have hb : b = lo ∨ b = hi := by grind
    rcases hb with rfl | rfl
    · exact ⟨hl, .inl rfl⟩
    · exact ⟨hh, .inr rfl⟩

theorem loseTurn_rest (s : State) (b : Nat) (lone : Bool) : loseTurn s b lone = { s with berths := (loseTurn s b lone).berths } := by
  unfold loseTurn
  split <;> rfl

theorem loseTurn_ctx (s : State) (b : Nat) (lone : Bool) (x : Nat) : (loseTurn s b lone).ctx x = s.ctx x := by
  unfold loseTurn
  split
  · by_cases hx : x = b
    · rw [hx, State.ctx_setBerth_same]
      rfl
    · rw [State.ctx_setBerth_ne _ _ hx]
  · rfl

/-- What a slot that takes a berth does: the turn's counters move, and the berth issues. -/
theorem slotOf_takes {v u : State} {core b : Nat} (h : slotOf v core false = (some b, u)) :
    u.cur = b ∧ u.mem = v.mem ∧ (∀ x, u.ctx x = v.ctx x) ∧ isReady v b = true ∧ b / 16 = core := by
  unfold slotOf at h
  dsimp only at h
  split at h
  · cases h
  · split at h
    · cases h
    · rename_i c hc
      simp only [Bool.false_and, Bool.false_eq_true, if_false, Prod.mk.injEq, Option.some.injEq] at h
      obtain ⟨rfl, hu⟩ := h
      obtain ⟨hready, hplace⟩ := chosen_cases hc
      refine ⟨by rw [← hu], ?_, fun x => ?_, hready, by omega⟩
      · rw [← hu]
        exact (congrArg State.mem (loseTurn_rest _ _ _)).trans rfl
      · rw [← hu]
        by_cases hx : x = c
        · rw [hx]
          exact State.ctx_setBerth_same _ _ _
        · exact (State.ctx_setBerth_ne _ _ hx).trans (loseTurn_ctx _ _ _ _)

/-! ### What comes next (16 R289, 13 R247) -/

theorem reached_handoverEnd (s : State) : reached s (handoverEnd s) = true ↔ s.owner.st = .handover ∧ s.owner.handoverAt + 1000000000 ≤ s.wall := by
  unfold handoverEnd
  split
  · rename_i h
    exact decide_eq_true_iff.trans (and_iff_right h).symm
  · rename_i h
    exact iff_of_false Bool.false_ne_true fun hp => h hp.1

theorem reached_ownerEnd (s : State) : reached s (ownerEnd s) = true ↔ s.owner.st ≠ .vacant ∧ s.owner.lastPacket + 1000000000 ≤ s.wall := by
  unfold ownerEnd
  split
  · rename_i h
    exact iff_of_false Bool.false_ne_true fun hp => hp.1 h
  · rename_i h
    exact decide_eq_true_iff.trans (and_iff_right h).symm

/-- What an issue comes to. -/
def Issue.outcome : Issue → Result
  | .run i s => exec i s
  | .instead s => .next s

section
variable {s : State} (hon : s.power ≠ .off)
include hon

theorem step_powered : step s = (nextIssue refuseHead s).outcome := by
  rw [step, if_neg (by simp [hon])]
  rfl

theorem step_handover (hlate : reached s (handoverEnd s) = true) : step s = exec .handoverTimeout s := by
  rw [step_powered hon, nextIssue, dueLimit, if_neg hon, if_pos hlate, Issue.outcome]

theorem step_silent (hlate : ¬reached s (handoverEnd s) = true) (hsilent : reached s (ownerEnd s) = true) : step s = exec .ownerTimeout s := by
  rw [step_powered hon, nextIssue, dueLimit, if_neg hon, if_neg hlate, if_pos hsilent, Issue.outcome]

variable (hlate : ¬reached s (handoverEnd s) = true) (hsilent : ¬reached s (ownerEnd s) = true)
include hlate hsilent

theorem dueLimit_none : dueLimit s = none := by
  rw [dueLimit, if_neg hon, if_neg hlate, if_neg hsilent]

theorem step_event {i : Instr} {rest : List Move} (hag : s.agenda = .event i :: rest) (hi : isEvent i = true) : step s = exec i { s with agenda := rest } := by
  rw [step_powered hon, nextIssue, dueLimit_none hon hlate hsilent, hag]
  simp only [takeMove, hi, if_true, Issue.outcome]

/-- A slot of a core, on the agenda or in turn. -/
theorem step_slot {v : State} {core : Nat}
    (hslot : (∃ rest, s.agenda = .slot core :: rest ∧ v = { s with agenda := rest }) ∨ (s.agenda = [] ∧ core = s.turn ∧ v = tick 1 s)) :
    step s = (slotIssue v core).outcome := by
  rw [step_powered hon, nextIssue, dueLimit_none hon hlate hsilent]
  rcases hslot with ⟨rest, hag, rfl⟩ | ⟨hag, rfl, rfl⟩
  · rw [hag]
    rfl
  · rw [hag]

end

/-! ### Fetching (03 R51, 08 R156) -/

theorem regionOf_ne_vault {pa : Nat} (h : isVault pa = false) : regionOf pa ≠ .vault := by
  unfold regionOf
  simp only [h, Bool.false_eq_true, if_false]
  split_ifs <;> simp

/-- Outside purses' vaults, the physical checks look at the reserved region alone. -/
theorem physThread_congr {s t : State} (nr : NetRec) {pa : Nat} (n : Nat) (h : isVault pa = false) (hbase : t.resBase = s.resBase)
    (hsize : t.resSize = s.resSize) : physThread t nr pa n = physThread s nr pa n := by
  unfold physThread
  rw [hbase, hsize]
  split
  · rfl
  · rename_i hv
    exact absurd hv (regionOf_ne_vault h)
  · rfl

/-- The fetch of a net's address at a quad misses in the translation cache or in the instruction cache. -/
def Misses (s : State) (q n va : Nat) : Prop :=
  tlbFind s false q n va = none ∨ ∃ e, tlbFind s false q n va = some e ∧ Tbl.get? s.icache (icKey q (e.pa + va % 2 ^ e.bits)) = none

theorem fetchMiss_iff (s : State) (b va : Nat) : fetchMiss s b va = true ↔ Misses s (quadOf b) (s.ctx b).net va := by
  unfold fetchMiss Misses
  dsimp only
  split <;> simp_all

/-- A fetch that makes no request: its checks, and its word in the instruction cache. -/
theorem fetchWord_of_cached {s u : State} {b va w : Nat} {e : TlbEnt} (htr : translation s (quadOf b) (s.ctx b).net va = .ok (e, u))
    (hperm : permitted e needX = true) (hvault : isVault (e.pa + va % 2 ^ e.bits) = false)
    (hphys : physThread u (u.netRec (s.ctx b).net) (e.pa + va % 2 ^ e.bits) 4 = .ok ())
    (hw : Tbl.get? u.icache (icKey (quadOf b) (e.pa + va % 2 ^ e.bits)) = some w) : fetchWord s b va = .ok (w, u) := by
  rw [fetchWord]
  simp only [htr, hperm, hvault, hphys, hw]
  rfl

/-- The state in which the line of a fetch's request is read. -/
def requested (q pa : Nat) (s : State) : State := fetchSettles pa (parted pa 4 (hwRequest q pa s))

/-- The state that a fetch's request leaves, its word in the quad's instruction cache. -/
def filled (q pa : Nat) (s : State) : State := icFill (requested q pa s) q pa (leNat (memRead (requested q pa s).mem pa 4))

theorem fetchWord_of_request {s u : State} {b va : Nat} {e : TlbEnt} (htr : translation s (quadOf b) (s.ctx b).net va = .ok (e, u))
    (hperm : permitted e needX = true) (hvault : isVault (e.pa + va % 2 ^ e.bits) = false)
    (hphys : physThread u (u.netRec (s.ctx b).net) (e.pa + va % 2 ^ e.bits) 4 = .ok ())
    (hw : Tbl.get? u.icache (icKey (quadOf b) (e.pa + va % 2 ^ e.bits)) = none) (hpo : poisoned u (e.pa + va % 2 ^ e.bits) 4 = false) :
    fetchWord s b va = .ok (leNat (memRead (filled (quadOf b) (e.pa + va % 2 ^ e.bits) u).mem (e.pa + va % 2 ^ e.bits) 4),
      filled (quadOf b) (e.pa + va % 2 ^ e.bits) u) := by
  rw [fetchWord]
  simp only [htr, hperm, hvault, hphys, hw, hpo]
  rfl

/-- A fetch that brings a word has passed its checks. -/
theorem fetchWord_ok {s x : State} {b va w : Nat} (h : fetchWord s b va = .ok (w, x)) : ∃ e u, translation s (quadOf b) (s.ctx b).net va = .ok (e, u) ∧
    permitted e needX = true ∧ isVault (e.pa + va % 2 ^ e.bits) = false ∧ physThread u (u.netRec (s.ctx b).net) (e.pa + va % 2 ^ e.bits) 4 = .ok () ∧
    ((Tbl.get? u.icache (icKey (quadOf b) (e.pa + va % 2 ^ e.bits)) = some w ∧ x = u) ∨
      (Tbl.get? u.icache (icKey (quadOf b) (e.pa + va % 2 ^ e.bits)) = none ∧
        x = icFill (requested (quadOf b) (e.pa + va % 2 ^ e.bits) u) (quadOf b) (e.pa + va % 2 ^ e.bits) w)) := by
  unfold fetchWord at h
  dsimp only at h
  split at h
  · cases h
  · rename_i e u htr
    split at h
    · cases h
    · rename_i hok
      simp only [Bool.or_eq_true, not_or, Bool.not_eq_true] at hok
      split at h
      · cases h
      · rename_i hphys
        refine ⟨e, u, htr, by simpa using hok.1, by simpa using hok.2, hphys, ?_⟩
        split at h
        · rename_i hw
          cases h
          exact .inl ⟨hw, rfl⟩
        · rename_i hw
          split at h
          · cases h
          · cases h
            exact .inr ⟨hw, rfl⟩

theorem onlyReads_fetchSettles (pa : Nat) (s : State) : OnlyReads s (fetchSettles pa s) := by
  unfold fetchSettles
  split
  · dsimp only
    split
    · exact onlyReads_choice s 2
    · exact (onlyReads_choice s 2).trans (onlyReads_settleLine _ _)
  · exact .refl s

theorem onlyReads_requested (q pa : Nat) (s : State) : OnlyReads s (requested q pa s) :=
  ((onlyReads_hwRequest q pa s).trans (onlyReads_parted pa 4 _)).trans (onlyReads_fetchSettles pa _)

/-- A fetch that brings a word only reads, but for the word that it caches. -/
theorem fetchWord_reads {s x : State} {b va w : Nat} (h : fetchWord s b va = .ok (w, x)) : ∃ y c, OnlyReads s y ∧ x = { y with icache := c } := by
  obtain ⟨e, u, htr, -, -, -, ⟨-, rfl⟩ | ⟨-, rfl⟩⟩ := fetchWord_ok h
  · exact ⟨x, _, onlyReads_translation htr, rfl⟩
  · exact ⟨_, _, (onlyReads_translation htr).trans (onlyReads_requested _ _ u), rfl⟩

/-- A fetch that does not miss leaves the state as it is. -/
theorem fetchWord_hit {s x : State} {b va w : Nat} (h : fetchWord s b va = .ok (w, x)) (hm : ¬Misses s (quadOf b) (s.ctx b).net va) : x = s := by
  obtain ⟨e, u, htr, -, -, -, hx⟩ := fetchWord_ok h
  obtain ⟨hfind, hword⟩ := not_or.mp hm
  obtain ⟨e', he'⟩ := Option.ne_none_iff_exists'.mp hfind
  have hhit : translation s (quadOf b) (s.ctx b).net va = .ok (e', s) := by rw [translation, he']
  cases hhit.symm.trans htr
  rcases hx with ⟨-, rfl⟩ | ⟨hnone, -⟩
  · rfl
  · exact absurd ⟨e, he', hnone⟩ hword

theorem requested_tlb (q pa : Nat) (s : State) : (requested q pa s).tlb = s.tlb := by
  have hpart : (parted pa 4 (hwRequest q pa s)).tlb = s.tlb := by
    rw [parted_rest]
    unfold hwRequest
    split <;> rfl
  rw [requested, ← hpart]
  generalize parted pa 4 (hwRequest q pa s) = t
  unfold fetchSettles
  split
  · have hch : (choice t 2).2.tlb = t.tlb := by unfold choice; split <;> rfl
    dsimp only
    split
    · exact hch
    · rw [settleLine_eq]
      exact hch
  · rfl

/-- A word that has been fetched is found again, by a thread out of rotation too. -/
theorem fetchWord_again {s x : State} {b va w : Nat} (h : fetchWord s b va = .ok (w, x)) (hready : x.ctx b = s.ctx b) (wt : Wait) :
    fetchWord (x.leave b wt) b va = .ok (w, x.leave b wt) ∧ ¬Misses (x.leave b wt) (quadOf b) (s.ctx b).net va := by
  obtain ⟨e, u, htr, hperm, hvault, hphys, hx⟩ := fetchWord_ok h
  obtain ⟨-, -, f, hf, hpa, hbits, hr, hw, hxx, hn⟩ := translation_fills htr
  have hnet : ((x.leave b wt).ctx b).net = (s.ctx b).net := by rw [State.ctx_leave_same, hready]
  have hframe : x.tlb = u.tlb ∧ x.nets = u.nets ∧ x.resBase = u.resBase ∧ x.resSize = u.resSize ∧
      Tbl.get? x.icache (icKey (quadOf b) (e.pa + va % 2 ^ e.bits)) = some w := by
    rcases hx with ⟨hcached, rfl⟩ | ⟨-, rfl⟩
    · exact ⟨rfl, rfl, rfl, rfl, hcached⟩
    · have hrest := (onlyReads_requested (quadOf b) (e.pa + va % 2 ^ e.bits) u).rest
      exact ⟨requested_tlb _ _ u, (congrArg State.nets hrest).trans rfl, (congrArg State.resBase hrest).trans rfl, (congrArg State.resSize hrest).trans rfl,
        Tbl.get?_set_same _ _ _⟩
  obtain ⟨htlb, hnets, hbase, hsize, hword⟩ := hframe
  have hfind : tlbFind (x.leave b wt) false (quadOf b) ((x.leave b wt).ctx b).net va = some f := by
    rw [hnet, ← hf, tlbFind, tlbFind, ← htlb]
    rfl
  have htr' : translation (x.leave b wt) (quadOf b) ((x.leave b wt).ctx b).net va = .ok (f, x.leave b wt) := by rw [translation, hfind]
  have hplace : f.pa + va % 2 ^ f.bits = e.pa + va % 2 ^ e.bits := by rw [hpa, hbits]
  refine ⟨fetchWord_of_cached htr' ?_ (hplace ▸ hvault) ?_ (hplace ▸ hword), ?_⟩
  · rw [← hperm, permitted, permitted, hr, hw, hxx, hn]
  · have hrec : (x.leave b wt).netRec (s.ctx b).net = u.netRec (s.ctx b).net := by
      rw [State.netRec, State.netRec, ← hnets]
      rfl
    rw [hnet, hplace, hrec, ← hphys]
    exact physThread_congr _ 4 hvault hbase hsize
  · rw [hnet] at hfind
    rintro (hnone | ⟨e', he', hnone⟩)
    · rw [hfind] at hnone
      cases hnone
    · rw [hfind, Option.some.injEq] at he'
      rw [← he', hplace] at hnone
      exact absurd (hword.symm.trans hnone) (by simp)

/-! ### A register error (17 R309, log entry 109) -/

theorem zeroReg_rest (c : Ctx) (r : Nat) : zeroReg c r = { c with regs := (zeroReg c r).regs, vecs := (zeroReg c r).vecs } := by
  unfold zeroReg
  split_ifs <;> rfl

theorem foldl_zeroReg_rest (l : List Nat) (c : Ctx) : l.foldl zeroReg c = { c with regs := (l.foldl zeroReg c).regs, vecs := (l.foldl zeroReg c).vecs } := by
  induction l generalizing c with
  | nil => rfl
  | cons r l ih =>
    rw [List.foldl_cons, ih, zeroReg_rest]

theorem zeroReg_regs (c : Ctx) (r : Nat) (x : Reg) : (zeroReg c r).regs[x] = if x.val = r then 0 else c.regs[x] := by
  have hx := x.isLt
  by_cases h : r < 16
  · rw [zeroReg, if_pos h]
    simp [Vector.getElem_setIfInBounds, eq_comm]
  · rw [if_neg (by omega), zeroReg, if_neg h]
    split <;> rfl

theorem zeroReg_vecs (c : Ctx) (r : Nat) (x : VIdx) : (zeroReg c r).vecs[x] = if 16 + x.val = r then {} else c.vecs[x] := by
  have hx := x.isLt
  by_cases h : r < 16
  · rw [if_neg (by omega), zeroReg, if_pos h]
  · by_cases h' : r < 32
    · have hidx : r - 16 = x.val ↔ 16 + x.val = r := by omega
      rw [zeroReg, if_neg h, if_pos h']
      simp [Vector.getElem_setIfInBounds, hidx]
    · rw [if_neg (by omega), zeroReg, if_neg h, if_neg h']

theorem foldl_zeroReg_regs (l : List Nat) (c : Ctx) (x : Reg) : (l.foldl zeroReg c).regs[x] = if x.val ∈ l then 0 else c.regs[x] := by
  induction l generalizing c with
  | nil => rfl
  | cons r l ih =>
    rw [List.foldl_cons, ih, zeroReg_regs]
    split_ifs <;> simp_all

theorem foldl_zeroReg_vecs (l : List Nat) (c : Ctx) (x : VIdx) : (l.foldl zeroReg c).vecs[x] = if 16 + x.val ∈ l then {} else c.vecs[x] := by
  induction l generalizing c with
  | nil => rfl
  | cons r l ih =>
    rw [List.foldl_cons, ih, zeroReg_vecs]
    split_ifs <;> simp_all

end Sys2Proof.Machine
end

section
/-!
PROOFS. A step runs the instruction that is fetched (03 R51 R59 R60): the statement.
-/

namespace Sys2Proof.Machine
open Sys2Proof Sys2Proof.Say

/-! ### What an issue comes to, case by case (03 R51 R59 R60, 14 R257, 17 R309) -/

theorem regErr_reported (u : State) {b r : Nat} {l : List Nat} (hcur : u.cur = b) (hvoid : takesVoid u = false) (herr : (u.ctx b).regErr = r :: l) :
    ∃ c : Ctx, (issue u).outcome = .next (takeFault { cause := .poison, reg := true, info := BitVec.ofNat 32 (r % 32) } (u.setTh c)) ∧
      c = { u.ctx b with regs := c.regs, vecs := c.vecs, regErr := l } ∧ (∀ x : Reg, c.regs[x] = if x.val ∈ r :: l then 0 else (u.ctx b).regs[x]) ∧
      ∀ x : VIdx, c.vecs[x] = if 16 + x.val ∈ r :: l then { data := 0, tag := .raw, side := 0 } else (u.ctx b).vecs[x] := by
  have hth : u.th = u.ctx b := by rw [State.th, hcur]
  refine ⟨reportReg (u.ctx b), ?_, ?_, fun x => ?_, fun x => ?_⟩
  · rw [issue, if_neg (by simp [hvoid]), hth]
    simp only [herr]
    rfl
  · rw [reportReg, herr]
    exact congrArg (fun c : Ctx => { c with regErr := l }) (foldl_zeroReg_rest (r :: l) (u.ctx b))
  · exact (foldl_zeroReg_regs _ _ x).trans (by rw [herr])
  · exact (foldl_zeroReg_vecs _ _ x).trans (by rw [herr])

/-- What an issue does with what it fetched. -/
def Fetched.issued : Fetched → Issue
  | .fault c a s => .instead (takeFault { cause := c, addr := if c = .poison then 0 else BitVec.ofNat 64 a } s)
  | .miss s => .instead (s.leave s.cur .fetch)
  | .instr i _ s => .run i (count (dieOf s.quad) 0 1 s)

section
variable {u : State} {b : Nat} (hcur : u.cur = b) (hvoid : takesVoid u = false) (herr : (u.ctx b).regErr = [])
include hcur hvoid herr

theorem issue_fetches : issue u = (fetch u b).issued := by
  have hth : u.th.regErr = [] := by rw [State.th, hcur, herr]
  rw [issue, if_neg (by simp [hvoid])]
  simp only [hth, hcur]
  rfl

theorem issue_faults {c : Cause} {a : Nat} {s : State} (h : fetch u b = .fault c a s) :
    (issue u).outcome = .next (takeFault { cause := c, addr := if c = .poison then 0 else BitVec.ofNat 64 a } s) := by
  rw [issue_fetches hcur hvoid herr, h, Fetched.issued, Issue.outcome]

theorem issue_misses {s : State} (h : fetch u b = .miss s) : (issue u).outcome = .next (s.leave s.cur .fetch) := by
  rw [issue_fetches hcur hvoid herr, h, Fetched.issued, Issue.outcome]

/-- An instruction that is issued is counted (18 R331), and nothing else has changed. -/
theorem issue_runs {i : Instr} {n : Nat} (h : fetch u b = .instr i n u) : ∃ y k, (issue u).outcome = exec i y ∧ k = 16 * dieOf (quadOf b) ∧
    y = { u with perf := y.perf } ∧ Tbl.getD y.perf k 0 = (Tbl.getD u.perf k 0 + 1) % 2 ^ 64 ∧
      ∀ j, j ≠ k → Tbl.get? y.perf j = Tbl.get? u.perf j := by
  refine ⟨count (dieOf (quadOf b)) 0 1 u, 16 * dieOf (quadOf b), ?_, rfl, rfl, ?_, fun j hj => Tbl.get?_set_ne _ _ hj⟩
  · rw [issue_fetches hcur hvoid herr, h, Fetched.issued, Issue.outcome, State.quad, hcur]
  · simp [count, Tbl.getD]

/-- A fetch that misses keeps the thread out of rotation with its word fetched. -/
theorem miss_fetched {x : State} {va w : Nat} (h : fetchWord u b va = .ok (w, x)) (hm : fetch u b = .miss x) (hready : (u.ctx b).wait = .ready) :
    ∃ t, (issue u).outcome = .next t ∧ t = { x with berths := t.berths } ∧ t.ctx b = { u.ctx b with wait := .fetch, waited := 0 } ∧
      (∀ o, o ≠ b → BerthStands u t o) ∧ fetchWord t b va = .ok (w, t) ∧ ¬Misses t (quadOf b) (u.ctx b).net va := by
  obtain ⟨y, c, hreads, hx⟩ := fetchWord_reads h
  have hstands (o : Nat) : BerthStands u x o := by
    rw [hx]
    exact hreads.berths o
  have hxcur : x.cur = b := by
    rw [hx, ← hcur]
    exact hreads.cur
  have hctx : x.ctx b = u.ctx b := (berthStands_ctx (hstands b)).resolve_right fun hw => hw.1 hready
  refine ⟨x.leave b .fetch, ?_, rfl, ?_, fun o ho => ?_, fetchWord_again h hctx .fetch⟩
  · rw [issue_misses hcur hvoid herr hm, hxcur]
  · rw [State.ctx_leave_same, hctx]
  · exact berthStands_trans (hstands o) (.inl (State.get?_leave_ne x .fetch ho))

end

/-! ### The two words of a fetch (03 R59) -/

/-- Whether a first word takes an extension word. -/
def TwoWords (w : Nat) : Prop := w / 2 ^ 28 % 16 ≠ 15 ∧ w / 2 ^ 25 % 2 = 1 ∧ takesExt w = true

section
variable {s : State} {b : Nat}

theorem fetchMiss_eq_false {va : Nat} (h : ¬Misses s (quadOf b) (s.ctx b).net va) : fetchMiss s b va = false :=
  Bool.eq_false_iff.mpr (mt (fetchMiss_iff s b va).mp h)

theorem fetch_first_faults {c : Cause} {x : State} (h : fetchWord s b (s.ctx b).pc.toNat = .error (c, x)) : fetch s b = .fault c (s.ctx b).pc.toNat x := by
  simp only [fetch, h]

theorem fetch_first_misses {w : Nat} {x : State} (h : fetchWord s b (s.ctx b).pc.toNat = .ok (w, x))
    (hm : Misses s (quadOf b) (s.ctx b).net (s.ctx b).pc.toNat) :
    fetch s b = .miss x := by
  simp only [fetch, h, (fetchMiss_iff s b _).mpr hm, if_true]

theorem fetch_one {w : Nat} {x : State} (h : fetchWord s b (s.ctx b).pc.toNat = .ok (w, x)) (hm : ¬Misses s (quadOf b) (s.ctx b).net (s.ctx b).pc.toNat)
    (htwo : ¬TwoWords w) : fetch s b = decoded w 0 x := by
  have htwo' : ¬(field w 28 4 ≠ 15 ∧ field w 25 1 = 1 ∧ takesExt w = true) := htwo
  simp only [fetch, h, fetchMiss_eq_false hm, Bool.false_eq_true, if_false, if_neg htwo']

section
variable {w : Nat} (h : fetchWord s b (s.ctx b).pc.toNat = .ok (w, s)) (hm : ¬Misses s (quadOf b) (s.ctx b).net (s.ctx b).pc.toNat) (htwo : TwoWords w)
include h hm htwo

theorem fetch_second_faults {c : Cause} {u : State} (h' : fetchWord s b (((s.ctx b).pc.toNat + 4) % 2 ^ 56) = .error (c, u)) :
    fetch s b = .fault c (((s.ctx b).pc.toNat + 4) % 2 ^ 56) u := by
  have htwo' : field w 28 4 ≠ 15 ∧ field w 25 1 = 1 ∧ takesExt w = true := htwo
  simp only [fetch, h, fetchMiss_eq_false hm, Bool.false_eq_true, if_false, if_pos htwo', h']

theorem fetch_second_misses {e : Nat} {u : State} (h' : fetchWord s b (((s.ctx b).pc.toNat + 4) % 2 ^ 56) = .ok (e, u))
    (hm' : Misses s (quadOf b) (s.ctx b).net (((s.ctx b).pc.toNat + 4) % 2 ^ 56)) : fetch s b = .miss u := by
  have htwo' : field w 28 4 ≠ 15 ∧ field w 25 1 = 1 ∧ takesExt w = true := htwo
  simp only [fetch, h, fetchMiss_eq_false hm, Bool.false_eq_true, if_false, if_pos htwo', h', (fetchMiss_iff s b _).mpr hm', if_true]

theorem fetch_two {e : Nat} {u : State} (h' : fetchWord s b (((s.ctx b).pc.toNat + 4) % 2 ^ 56) = .ok (e, u))
    (hm' : ¬Misses s (quadOf b) (s.ctx b).net (((s.ctx b).pc.toNat + 4) % 2 ^ 56)) : fetch s b = decoded w e u := by
  have htwo' : field w 28 4 ≠ 15 ∧ field w 25 1 = 1 ∧ takesExt w = true := htwo
  simp only [fetch, h, fetchMiss_eq_false hm, Bool.false_eq_true, if_false, if_pos htwo', h', fetchMiss_eq_false hm']

end

theorem decoded_of_ok {w e n : Nat} {i : Instr} (h : decode w e = .ok (i, n)) : decoded w e s = .instr i n s := by
  rw [decoded, h]

/-- A word that decodes to nothing is met as the step of a word of no instruction. -/
theorem decoded_of_error {w e : Nat} (h : ∀ i n, decode w e ≠ .ok (i, n)) :
    decoded w e s = .instr (if w / 2 ^ 28 % 16 = 15 then .mislanded else .illegalInstruction) 1 s := by
  by_cases hmark : w / 2 ^ 28 % 16 = 15
  · have hdec : decode w e = .error .mislanded := by rw [decode, if_pos (show field w 28 4 = 15 from hmark)]
    rw [decoded, hdec, if_pos hmark]
  · have hdec : decode w e ≠ .error .mislanded := by
      unfold decode
      rw [if_neg (show ¬field w 28 4 = 15 from hmark)]
      split_ifs
      · simp
      · simp
      · simp
      · split <;> simp
      · split <;> simp
    rw [if_neg hmark]
    unfold decoded
    split
    · rename_i i n hok
      exact absurd hok (h i n)
    · rename_i herr
      exact absurd herr hdec
    · rfl

end

/-! ### A fetch from HBM (03 R51) -/

theorem hwRequest_rest (q pa : Nat) (s : State) :
    hwRequest q pa s = { s with stalePorts := (hwRequest q pa s).stalePorts, perf := (hwRequest q pa s).perf } := by
  unfold hwRequest
  split <;> rfl

theorem choice_rest (s : State) (n : Nat) : (choice s n).2 = { s with tape := (choice s n).2.tape, nfree := (choice s n).2.nfree } := by
  unfold choice
  split <;> rfl

theorem fetchSettles_mem (pa : Nat) (s : State) : (fetchSettles pa s).mem = s.mem ∨ (fetchSettles pa s).mem = (settleLine s (pa / 256)).mem := by
  have hch := choice_rest s 2
  unfold fetchSettles
  split
  · dsimp only
    split
    · exact .inl ((congrArg State.mem hch).trans rfl)
    · exact .inr (settleLine_mem_congr (s := s) ((congrArg State.mem hch).trans rfl) ((congrArg State.stores hch).trans rfl) _)
  · exact .inl rfl

/-- A fetch's request finds its line as it is, or settled. -/
theorem requested_mem (q pa : Nat) (s : State) : (requested q pa s).mem = s.mem ∨ (requested q pa s).mem = (settleLine s (pa / 256)).mem := by
  have hpart : (parted pa 4 (hwRequest q pa s)).mem = s.mem ∧ (parted pa 4 (hwRequest q pa s)).stores = s.stores := by
    rw [parted_rest, hwRequest_rest]
    exact ⟨rfl, rfl⟩
  obtain ⟨hmem, hstores⟩ := hpart
  rw [← hmem, ← settleLine_mem_congr hmem hstores]
  exact fetchSettles_mem pa _

/-- A privileged net's fetch of HBM that misses in the instruction cache. -/
theorem fetchWord_misses_hbm {s : State} {b va : Nat} {e : TlbEnt} (htr : translation s (quadOf b) (s.ctx b).net va = .ok (e, s)) (hx : e.x = true)
    (hic : Tbl.get? s.icache (icKey (quadOf b) (e.pa + va % 2 ^ e.bits)) = none) (htop : e.pa + va % 2 ^ e.bits + 4 ≤ hbmTop)
    (hpriv : (s.netRec (s.ctx b).net).priv = true) (hpo : poisoned s (e.pa + va % 2 ^ e.bits) 4 = false) :
    ∃ t, fetchWord s b va = .ok (leNat (memRead t.mem (e.pa + va % 2 ^ e.bits) 4), t) ∧
      (t.mem = s.mem ∨ t.mem = (settleLine s ((e.pa + va % 2 ^ e.bits) / 256)).mem) ∧ ∀ o, BerthStands s t o := by
  have hlt : e.pa + va % 2 ^ e.bits < hbmTop := by omega
  have hvault : isVault (e.pa + va % 2 ^ e.bits) = false := by
    rw [isVault, Bool.and_eq_false_iff]
    have hbelow : e.pa + va % 2 ^ e.bits < vaultBase := by
      unfold hbmTop at hlt
      unfold vaultBase
      omega
    exact .inl (decide_eq_false (by omega))
  have hphys : physThread s (s.netRec (s.ctx b).net) (e.pa + va % 2 ^ e.bits) 4 = .ok () := by
    rw [physThread, regionOf, if_pos hlt]
    exact if_pos ⟨htop, .inl hpriv⟩
  have hperm : permitted e needX = true := by simp [permitted, needX, hx]
  exact ⟨filled (quadOf b) (e.pa + va % 2 ^ e.bits) s, fetchWord_of_request htr hperm hvault hphys hic hpo, requested_mem _ _ s,
    (onlyReads_requested _ _ s).berths⟩

/-- Settles O56: what the slot takes, what its issue fetches, and the moves that are not issues. -/
theorem stepRunsTheDecodedInstruction : Obligations.StepRunsTheDecodedInstruction := by
  unfold Obligations.StepRunsTheDecodedInstruction
  intro late silent
  have hnolate (s : State) (h : ¬late s) : ¬reached s (handoverEnd s) = true := mt (reached_handoverEnd s).mp h
  have hnosilent (s : State) (h : ¬silent s) : ¬reached s (ownerEnd s) = true := mt (reached_ownerEnd s).mp h
  refine ⟨fun s v u core b hon hlate hsilent hslot htakes => ?_, fun s v u core hon hlate hsilent hslot hnone => ?_,
    fun s b va e htr hx hic htop hpriv hpo => fetchWord_misses_hbm htr hx hic htop hpriv hpo,
    fun s i rest hon hlate hsilent hag hi => step_event hon (hnolate s hlate) (hnosilent s hsilent) hag hi,
    fun s hon => ⟨fun hlate => step_handover hon ((reached_handoverEnd s).mpr hlate),
      fun hlate hsilent => step_silent hon (hnolate s hlate) ((reached_ownerEnd s).mpr hsilent)⟩, fun s hoff => ⟨fun hcold => ?_, fun rest hag => ?_⟩⟩
  case refine_1 =>
    obtain ⟨hcur, hmem, hctx, hready, hcore⟩ := slotOf_takes htakes
    have hstep : step s = (issue u).outcome := by rw [step_slot hon (hnolate s hlate) (hnosilent s hsilent) hslot, slotIssue, htakes]
    have hwait : (u.ctx b).wait = .ready := by
      simp only [isReady, Bool.and_eq_true, beq_iff_eq] at hready
      rw [hctx]
      exact hready.1.2
    rw [hstep]
    refine ⟨hcur, hmem, hctx, hready, hcore, fun hvoid => ?_, fun hvoid => ⟨fun r l herr => regErr_reported u hcur hvoid herr, fun herr => ⟨?_, ?_⟩⟩⟩
    · rw [issue, if_pos hvoid, hcur]
      rfl
    · exact fun c x h => issue_faults hcur hvoid herr (fetch_first_faults h)
    · refine fun w x h => ⟨fun hm => miss_fetched hcur hvoid herr h (fetch_first_misses h hm) hwait, fun hm => ?_⟩
      obtain rfl := fetchWord_hit h hm
      refine ⟨rfl, fun htwo => ⟨fun i hi => ?_, fun hi => ?_⟩, fun htwo => ⟨fun c y h' => ?_, fun e y h' => ⟨fun hm' => ?_, fun hm' => ?_⟩⟩⟩
      · exact issue_runs hcur hvoid herr ((fetch_one h hm htwo).trans (decoded_of_ok hi))
      · exact issue_runs hcur hvoid herr ((fetch_one h hm htwo).trans (decoded_of_error hi))
      · exact issue_faults hcur hvoid herr (fetch_second_faults h hm htwo h')
      · exact miss_fetched hcur hvoid herr h' (fetch_second_misses h hm htwo h' hm') hwait
      · obtain rfl := fetchWord_hit h' hm'
        refine ⟨fun i hi => ?_, fun hi => ?_⟩
        · exact issue_runs hcur hvoid herr ((fetch_two h hm htwo h' hm').trans (decoded_of_ok hi))
        · have hdec := (fetch_two h hm htwo h' hm').trans (decoded_of_error hi)
          rw [if_neg htwo.1] at hdec
          exact issue_runs hcur hvoid herr hdec
  case refine_2 => rw [step_slot hon (hnolate s hlate) (hnosilent s hsilent) hslot, slotIssue, hnone, Issue.outcome]
  case refine_3 =>
    have hnot : coldResetNext s = false := by
      unfold coldResetNext
      split
      · rename_i rest hag
        exact absurd hag (hcold rest)
      · rfl
    rw [step, if_pos (by simp [hoff, hnot])]
  case refine_4 =>
    have hcold : coldResetNext s = true := by rw [coldResetNext, hag]
    rw [step, if_neg (by simp [hcold]), nextIssue, dueLimit, if_pos hoff, hag]
    rfl

end Sys2Proof.Machine
end

section
/-!
PROOFS. The bytes of a snapshot record and of a FAULT node (17 R299 R300).
-/

namespace Sys2Proof.Machine
open Sys2Proof Sys2Proof.Say

/-! ### Bytes laid end to end -/

section
variable {a b l : List Byte} {off n w : Nat}

theorem drop_past (h : a.length = n) (off : Nat) : (a ++ b).drop (n + off) = b.drop off := by
  rw [List.drop_append, List.drop_eq_nil_of_le (by omega), List.nil_append, h, Nat.add_sub_cancel_left]

theorem slice_within (h : off + n ≤ a.length) : ((a ++ b).drop off).take n = (a.drop off).take n := by
  rw [List.drop_append_of_le_length (by omega), List.take_append_of_le_length (by rw [List.length_drop]; omega)]

theorem dbl_past (h : a.length = n) (off : Nat) : dbl (a ++ b) (n + off) = dbl b off := by rw [dbl, dbl, drop_past h]

theorem dbl_within (h : off + 8 ≤ a.length) : dbl (a ++ b) off = dbl a off := by rw [dbl, dbl, slice_within h]

/-- A double of a word's bytes. -/
theorem dbl_leBytes (v : Nat) : dbl (leBytes 8 v) 0 = v % 2 ^ 64 := by
  rw [dbl, List.drop_zero, List.take_of_length_le (by simp), leNat_leBytes, show 256 ^ 8 = 2 ^ 64 from rfl]

theorem dbl_leBytes_append (v : Nat) : dbl (leBytes 8 v ++ b) 0 = v % 2 ^ 64 := by rw [dbl_within (by simp), dbl_leBytes]

theorem dbl_wordBytes_append (v : Word) : dbl (wordBytes v ++ b) 0 = v.toNat := by
  rw [wordBytes, dbl_leBytes_append, Nat.mod_eq_of_lt v.isLt]

@[simp] theorem wordBytes_length (v : Word) : (wordBytes v).length = 8 := leBytes_length 8 _

@[simp] theorem zeros_length (k : Nat) : (zeros k).length = k := List.length_replicate

theorem leNat_zeros (k : Nat) : leNat (zeros k) = 0 := by
  induction k with
  | zero => rfl
  | succ k ih =>
    rw [zeros, List.replicate_succ, leNat]
    simpa [zeros] using ih

theorem dbl_zeros (k : Nat) : dbl (zeros k) off = 0 := by
  rw [dbl, zeros, List.drop_replicate, List.take_replicate]
  exact leNat_zeros _

/-- Pieces of one length, laid end to end. -/
theorem slice_flatMap {α : Type} {f : α → List Byte} (hf : ∀ x, (f x).length = w) (l : List α) (i : Nat) (h : i < l.length) :
    ((l.flatMap f).drop (w * i)).take w = f l[i] := by
  induction l generalizing i with
  | nil => exact absurd h (Nat.not_lt_zero i)
  | cons x l ih =>
    rw [List.flatMap_cons]
    cases i with
    | zero => rw [Nat.mul_zero, slice_within (by rw [hf]; omega), List.drop_zero, List.take_of_length_le (by rw [hf])]; rfl
    | succ i =>
      rw [Nat.mul_succ, Nat.add_comm, drop_past (hf x), ih i (Nat.lt_of_succ_lt_succ h)]
      rfl

theorem length_flatMap_of {α : Type} {f : α → List Byte} (hf : ∀ x, (f x).length = w) (l : List α) : (l.flatMap f).length = w * l.length := by
  induction l with
  | nil => rfl
  | cons x l ih => rw [List.flatMap_cons, List.length_append, hf, ih, List.length_cons, Nat.mul_succ, Nat.add_comm]

theorem dbl_flatMap_leBytes (l : List Nat) (i : Nat) (h : i < l.length) : dbl (l.flatMap (leBytes 8)) (8 * i) = l[i] % 2 ^ 64 := by
  rw [dbl, slice_flatMap (leBytes_length 8) l i h, leNat_leBytes, show 256 ^ 8 = 2 ^ 64 from rfl]

theorem dbl_flatMap_wordBytes (l : List Word) (i : Nat) (h : i < l.length) : dbl (l.flatMap wordBytes) (8 * i) = l[i].toNat := by
  rw [dbl, slice_flatMap wordBytes_length l i h, wordBytes, leNat_leBytes, Nat.mod_eq_of_lt (show _ < 256 ^ 8 from l[i].isLt)]

end

/-! ### A snapshot record (17 R300) -/

theorem tagCode_eq (t : Tag) : tagCode t = tagNo t := by cases t <;> rfl

theorem tagNo_lt (t : Tag) : tagNo t < 16 := by cases t <;> decide

theorem causeCode_eq (c : Cause) : causeCode c = faultCode c := by cases c <;> rfl

theorem faultCode_lt (c : Cause) : faultCode c < 16 := by cases c <;> decide

/-- Numbers of four bits each, put side by side. -/
theorem sum_nibbles (l : List Nat) (k : Nat) : ((l.zipIdx k).map (fun e => e.1 * 2 ^ (4 * e.2))).sum = 2 ^ (4 * k) * Nat.ofDigits 16 l := by
  induction l generalizing k with
  | nil => simp
  | cons x l ih =>
    have hpow : 2 ^ (4 * (k + 1)) = 2 ^ (4 * k) * 16 := by rw [Nat.mul_succ, Nat.pow_add]
    rw [List.zipIdx_cons, List.map_cons, List.sum_cons, ih, Nat.ofDigits_cons, hpow]
    ring

theorem ofDigits_nibble {l : List Nat} (hl : ∀ x ∈ l, x < 16) (i : Nat) (h : i < l.length) : Nat.ofDigits 16 l / 16 ^ i % 16 = l[i] := by
  rw [Nat.ofDigits_div_pow_eq_ofDigits_drop i (by decide) l hl, List.drop_eq_getElem_cons h, Nat.ofDigits_cons, Nat.add_mul_mod_self_left,
    Nat.mod_eq_of_lt (hl _ (List.getElem_mem h))]

/-- The numbers of the tags of the vector registers. -/
def tagNos (c : Ctx) : List Nat := c.vecs.toList.map (fun v => tagNo v.tag)

theorem tagNos_lt (c : Ctx) : ∀ x ∈ tagNos c, x < 16 := by
  intro x hx
  obtain ⟨v, -, rfl⟩ := List.mem_map.mp hx
  exact tagNo_lt v.tag

theorem tagNos_length (c : Ctx) : (tagNos c).length = 8 := by simp [tagNos]

/-- The tags of the vector registers, four bits each. -/
def tagsWord (c : Ctx) : Nat := Nat.ofDigits 16 (tagNos c)

theorem tagsWord_eq (c : Ctx) : (c.vecs.toList.zipIdx.map (fun e => tagCode e.1.tag * 2 ^ (4 * e.2))).sum = tagsWord c := by
  have hsum := sum_nibbles (tagNos c) 0
  rw [Nat.mul_zero, Nat.pow_zero, Nat.one_mul] at hsum
  rw [tagsWord, ← hsum, tagNos, List.zipIdx_map, List.map_map]
  simp only [Function.comp_def, Prod.map, tagCode_eq, id]

theorem tagsWord_lt (c : Ctx) : tagsWord c < 2 ^ 32 := by
  have hlt := Nat.ofDigits_lt_base_pow_length (by decide) (tagNos_lt c)
  rwa [tagNos_length] at hlt

theorem tagsWord_nibble (c : Ctx) (v : VIdx) : tagsWord c / 16 ^ v.val % 16 = tagNo c.vecs[v].tag := by
  rw [tagsWord, ofDigits_nibble (tagNos_lt c) v.val (by rw [tagNos_length]; exact v.isLt)]
  simp [tagNos]

/-- The status double of a snapshot record. -/
def statusWord (c : Ctx) : Nat := c.net * 2 ^ 52 + c.cls.toNat * 2 ^ 50 + c.fflags.toNat * 2 ^ 45 + (if c.broken then 2 ^ 44 else 0)
  + (if c.range.isSome then 2 ^ 43 else 0) + tagsWord c

theorem fld_tags (c : Ctx) (v : VIdx) : fld (statusWord c % 2 ^ 64) (4 * v.val + 3) (4 * v.val) = tagNo c.vecs[v].tag := by
  have hv := v.isLt
  have hlow : statusWord c % 2 ^ 64 % 2 ^ 32 = tagsWord c := by
    have hlt := tagsWord_lt c
    unfold statusWord
    split <;> split <;> omega
  have hwidth : 4 * v.val + 3 + 1 - 4 * v.val = 4 := by omega
  have hpow : 2 ^ (4 * v.val) = 16 ^ v.val := by rw [Nat.pow_mul]
  have hdiv : 16 ^ v.val * 16 ∣ 2 ^ 32 := by
    rw [← Nat.pow_succ, show 2 ^ 32 = 16 ^ 8 from rfl]
    exact Nat.pow_dvd_pow 16 hv
  have hmod (w : Nat) : w % 2 ^ 32 / 16 ^ v.val % 16 = w / 16 ^ v.val % 16 := by
    rw [← Nat.mod_mul_right_div_self, ← Nat.mod_mul_right_div_self, Nat.mod_mod_of_dvd _ hdiv]
  rw [fld, hwidth, hpow, ← tagsWord_nibble, ← hlow, show 2 ^ 4 = 16 from rfl, hmod]

theorem fld_status {c : Ctx} (h : c.net < 4096) : fld (statusWord c % 2 ^ 64) 63 52 = c.net ∧ fld (statusWord c % 2 ^ 64) 51 50 = c.cls.toNat ∧
    fld (statusWord c % 2 ^ 64) 49 45 = c.fflags.toNat ∧ fld (statusWord c % 2 ^ 64) 44 44 = (if c.broken then 1 else 0) ∧
    fld (statusWord c % 2 ^ 64) 43 43 = (if c.range.isSome then 1 else 0) ∧ fld (statusWord c % 2 ^ 64) 42 32 = 0 := by
  have htags := tagsWord_lt c
  have hcls := c.cls.isLt
  have hflags := c.fflags.isLt
  unfold fld statusWord
  cases c.broken <;> cases c.range.isSome <;> simp only [if_true, if_false, Bool.false_eq_true] <;> omega

section
variable (c : Ctx) (pc : BitVec 56) (addr : Word)

/-- The doubles of a snapshot record from the pc on, before the report. -/
def snapshotWords : List Nat :=
  [pc.toNat, c.grains, c.pts, statusWord c, (touchedWords c.touched).1, (touchedWords c.touched).2, (c.range.getD (0, 0)).1.toNat,
    (c.range.getD (0, 0)).2.toNat]

def snapshotRegs : List Byte := (c.regs.toList.drop 1).flatMap wordBytes
def snapshotData : List Byte := c.vecs.toList.flatMap (fun v => leBytes 32 v.data.toNat)
def snapshotSides : List Byte := c.vecs.toList.flatMap (fun v => wordBytes v.side)

/-- A snapshot record's parts. -/
theorem snapshot_eq : snapshot c pc addr = wordBytes 0 ++ (snapshotRegs c ++ (snapshotData c ++ (snapshotSides c ++
    ((snapshotWords c pc).flatMap (leBytes 8) ++ (c.report.toList.flatMap wordBytes ++ (wordBytes addr ++ zeros 72)))))) := by
  simp only [snapshot, snapshotWords, snapshotData, snapshotSides, snapshotRegs, tagsWord_eq, statusWord, List.append_assoc, List.flatMap_cons,
    List.flatMap_nil, List.append_nil, wordBytes]

theorem snapshotRegs_length : (snapshotRegs c).length = 120 := by simp [snapshotRegs, length_flatMap_of wordBytes_length]

theorem snapshotData_length : (snapshotData c).length = 256 := by
  simp [snapshotData, length_flatMap_of (w := 32) (fun v : VReg => leBytes_length 32 v.data.toNat)]

theorem snapshotSides_length : (snapshotSides c).length = 64 := by
  simp [snapshotSides, length_flatMap_of (w := 8) (fun v : VReg => wordBytes_length v.side)]

theorem snapshotWords_length : ((snapshotWords c pc).flatMap (leBytes 8)).length = 64 := length_flatMap_of (leBytes_length 8) _

theorem report_length : (c.report.toList.flatMap wordBytes).length = 48 := by simp [length_flatMap_of wordBytes_length]

theorem snapshot_length : (snapshot c pc addr).length = 640 := by
  simp only [snapshot_eq, List.length_append, wordBytes_length, snapshotRegs_length, snapshotData_length, snapshotSides_length, snapshotWords_length,
    report_length, zeros_length]

theorem snapshot_reg (r : Reg) (hr : r ≠ 0) : dbl (snapshot c pc addr) (8 * r.val) = c.regs[r].toNat := by
  obtain ⟨i, hi⟩ := Nat.exists_eq_succ_of_ne_zero (mt Fin.ext hr : r.val ≠ (0 : Reg).val)
  have hlt := r.isLt
  rw [show 8 * r.val = 8 + 8 * i by omega, snapshot_eq, dbl_past (wordBytes_length 0), dbl_within (by rw [snapshotRegs_length]; omega), snapshotRegs,
    dbl_flatMap_wordBytes _ _ (by simp; omega)]
  simp [hi]

theorem snapshot_data (v : VIdx) : leNat (((snapshot c pc addr).drop (128 + 32 * v.val)).take 32) = c.vecs[v].data.toNat := by
  have hlt := v.isLt
  rw [show 128 + 32 * v.val = 8 + (120 + 32 * v.val) by omega, snapshot_eq, drop_past (wordBytes_length 0), drop_past (snapshotRegs_length c),
    slice_within (by rw [snapshotData_length]; omega), snapshotData,
    slice_flatMap (w := 32) (fun v : VReg => leBytes_length 32 v.data.toNat) _ _ (by simp), leNat_leBytes]
  exact Nat.mod_eq_of_lt (by simpa using c.vecs[v].data.isLt)

theorem snapshot_side (v : VIdx) : dbl (snapshot c pc addr) (384 + 8 * v.val) = c.vecs[v].side.toNat := by
  have hlt := v.isLt
  rw [show 384 + 8 * v.val = 8 + (120 + (256 + 8 * v.val)) by omega, snapshot_eq, dbl_past (wordBytes_length 0), dbl_past (snapshotRegs_length c),
    dbl_past (snapshotData_length c), dbl_within (by rw [snapshotSides_length]; omega), snapshotSides, dbl,
    slice_flatMap (w := 8) (fun v : VReg => wordBytes_length v.side) _ _ (by simp), wordBytes, leNat_leBytes]
  exact Nat.mod_eq_of_lt (by simpa using c.vecs[v].side.isLt)

/-- What follows the sides. -/
theorem dbl_snapshot_tail (off : Nat) : dbl (snapshot c pc addr) (448 + off) =
    dbl ((snapshotWords c pc).flatMap (leBytes 8) ++ (c.report.toList.flatMap wordBytes ++ (wordBytes addr ++ zeros 72))) off := by
  rw [show 448 + off = 8 + (120 + (256 + (64 + off))) by omega, snapshot_eq, dbl_past (wordBytes_length 0), dbl_past (snapshotRegs_length c),
    dbl_past (snapshotData_length c), dbl_past (snapshotSides_length c)]

theorem snapshot_word (i : Nat) (h : i < 8) : dbl (snapshot c pc addr) (448 + 8 * i) = (snapshotWords c pc)[i]'h % 2 ^ 64 := by
  rw [dbl_snapshot_tail, dbl_within (by rw [snapshotWords_length]; omega), dbl_flatMap_leBytes _ _ h]

theorem snapshot_report (i : Fin 6) : dbl (snapshot c pc addr) (512 + 8 * i.val) = c.report[i].toNat := by
  have hlt := i.isLt
  rw [show 512 + 8 * i.val = 448 + (64 + 8 * i.val) by omega, dbl_snapshot_tail, dbl_past (snapshotWords_length c pc),
    dbl_within (by rw [report_length]; omega), dbl_flatMap_wordBytes _ _ (by simp)]
  simp

/-- The record of a thread is as 17 R300 gives it. -/
theorem snapshotOf_snapshot : SnapshotOf (snapshot c pc addr) c pc addr where
  zero := by rw [snapshot_eq, dbl_wordBytes_append]; rfl
  regs := snapshot_reg c pc addr
  data := snapshot_data c pc addr
  sides := snapshot_side c pc addr
  tags v := by rw [snapshot_word c pc addr 3 (by decide)]; exact fld_tags c v
  pc := (snapshot_word c pc addr 0 (by decide)).trans (Nat.mod_eq_of_lt (by have := pc.isLt; exact this.trans (by decide)))
  coin := snapshot_word c pc addr 1 (by decide)
  pts := snapshot_word c pc addr 2 (by decide)
  status h := by rw [snapshot_word c pc addr 3 (by decide)]; exact fld_status h
  range := ⟨(snapshot_word c pc addr 6 (by decide)).trans (Nat.mod_eq_of_lt (BitVec.isLt _)),
    (snapshot_word c pc addr 7 (by decide)).trans (Nat.mod_eq_of_lt (BitVec.isLt _))⟩
  report := snapshot_report c pc addr
  addr := by
    rw [show 560 = 448 + (64 + (48 + 0)) from rfl, dbl_snapshot_tail, dbl_past (snapshotWords_length c pc), dbl_past (report_length c),
      dbl_wordBytes_append]
  rest i _ := by
    rw [show 568 + 8 * i = 448 + (64 + (48 + (8 + 8 * i))) by omega, dbl_snapshot_tail, dbl_past (snapshotWords_length c pc), dbl_past (report_length c),
      dbl_past (wordBytes_length addr), dbl_zeros]

end

/-! ### A FAULT node (17 R299) -/

section
variable (s : State) (n q : Nat) (f : FaultInfo) (eng : Bool) (place pc : Nat) (snap : Word)

/-- The double of a FAULT node that tells the fault. -/
def faultWord : Nat :=
  causeCode f.cause * 2 ^ 60 + (if f.sw then 2 ^ 59 else 0) + (if eng then 2 ^ 58 else 0) + (if f.lnk then 2 ^ 57 else 0) + (if f.reg then 2 ^ 56 else 0)
    + f.info.toNat * 2 ^ 24 + place * 2 ^ 18 + (s.netRec n).form s q

def faultWords : List Nat := [0xFF04000000000018, (s.netRec n).handler.toNat, faultWord s n q f eng place, pc, snap.toNat, 0, 0, 0]

theorem faultNode_eq : faultNode s n q f eng place pc snap = (faultWords s n q f eng place pc snap).flatMap (leBytes 8) := by
  simp only [faultNode, faultWords, faultWord, List.flatMap_cons, List.flatMap_nil, List.append_assoc, wordBytes]
  rfl

theorem faultNode_length : (faultNode s n q f eng place pc snap).length = 64 := by
  rw [faultNode_eq]
  exact length_flatMap_of (leBytes_length 8) _

theorem dbl_faultNode (i : Nat) (h : i < 8) : dbl (faultNode s n q f eng place pc snap) (8 * i) = (faultWords s n q f eng place pc snap)[i]'h % 2 ^ 64 := by
  rw [faultNode_eq, dbl_flatMap_leBytes _ _ h]

theorem faultWord_lt (hplace : place < 64) (hform : (s.netRec n).form s q < 2 ^ 18) : faultWord s n q f eng place < 2 ^ 64 := by
  have hcause := faultCode_lt f.cause
  have hinfo := f.info.isLt
  rw [← causeCode_eq] at hcause
  unfold faultWord
  cases f.sw <;> cases eng <;> cases f.lnk <;> cases f.reg <;> simp only [if_true, if_false, Bool.false_eq_true] <;> omega

end

end Sys2Proof.Machine
end

section
/-!
PROOFS. Runs and the states that they lead to; and that reads leave memory as it is where no store is unsettled (09 R169).
-/

namespace Sys2Proof.Machine
open Sys2Proof Sys2Proof.Say

/-! ### What holds of every state that a run leads to -/

/-- A stop leaves, if any, a state of which P holds. -/
def Stop.Leaves (P : State → Prop) : Stop → Prop
  | .fault _ left => ∀ t, left = some t → P t
  | .wait _ left => ∀ t, left = some t → P t

/-- Q holds of what a run answers, and P of the state that its stop leaves. -/
def Ends {α : Type} (P : State → Prop) (Q : α → Prop) : Run α → Prop
  | .ok x => Q x
  | .error e => e.Leaves P

section
variable {α β : Type} {P : State → Prop} {Q : α → Prop} {R : β → Prop}

theorem Stop.Leaves.state {e : Stop} (h : e.Leaves P) {s : State} (hs : P s) : P (e.state s) := by
  cases e with
  | fault f left =>
    cases left with
    | none => exact hs
    | some t => exact h t rfl
  | wait w left =>
    cases left with
    | none => exact hs
    | some t => exact h t rfl

theorem Stop.Leaves.after {e : Stop} (h : e.Leaves P) {s : State} (hs : P s) : (e.after s).Leaves P := by
  cases e with
  | fault f left => exact fun t ht => Option.some.inj ht ▸ h.state hs
  | wait w left => exact fun t ht => Option.some.inj ht ▸ h.state hs

theorem Stop.leaves_leaving (e : Stop) {s : State} (hs : P s) : (e.leaving s).Leaves P := by
  cases e with
  | fault f left => exact fun t ht => Option.some.inj ht ▸ hs
  | wait w left => exact fun t ht => Option.some.inj ht ▸ hs

theorem Ends.ok {x : α} (h : Q x) : Ends P Q (.ok x) := h

theorem Ends.error {e : Stop} (h : e.Leaves P) : Ends P Q (.error e) := h

theorem ends_failAt (c : Cause) (a : Word) : Ends P Q (failAt c a) := fun _ h => nomatch h

theorem ends_fail (c : Cause) : Ends P Q (fail c) := ends_failAt c 0

theorem ends_waitOn (w : Wait) : Ends P Q (waitOn w) := fun _ h => nomatch h

theorem Ends.mono {r : Run α} {Q' : α → Prop} (h : Ends P Q r) (hQ : ∀ x, Q x → Q' x) : Ends P Q' r := by
  cases r with
  | ok x => exact hQ x h
  | error e => exact h

theorem Ends.ite {c : Prop} [Decidable c] {r r' : Run α} (h : c → Ends P Q r) (h' : ¬c → Ends P Q r') : Ends P Q (if c then r else r') := by
  split
  · exact h ‹_›
  · exact h' ‹_›

/-- What an answered run says. -/
theorem Ends.of_ok {r : Run α} {x : α} (h : Ends P Q r) (hr : r = .ok x) : Q x := by
  subst hr
  exact h

theorem Ends.of_error {r : Run α} {e : Stop} (h : Ends P Q r) (hr : r = .error e) : e.Leaves P := by
  subst hr
  exact h

theorem Ends.bind {r : Run α} {k : α → Run β} (h : Ends P Q r) (hk : ∀ x, Q x → Ends P R (k x)) : Ends P R (r >>= k) := by
  cases r with
  | ok x => exact hk x h
  | error e => exact h

theorem Ends.map {r : Run α} {f : α → β} (h : Ends P Q r) (hf : ∀ x, Q x → R (f x)) : Ends P R (r.map f) := by
  cases r with
  | ok x => exact hf x h
  | error e => exact h

theorem Ends.stopsAt {r : Run α} {s : State} (hs : P s) (h : Ends P Q r) : Ends P Q (stopsAt s r) := by
  cases r with
  | ok x => exact h
  | error e => exact Stop.Leaves.after h hs

theorem Ends.reading {r : Run (α × State)} {k : α → State → Run β} (h : Ends P (fun x => P x.2) r) (hk : ∀ x s, P s → Ends P R (k x s)) :
    Ends P R (reading r k) := by
  cases r with
  | ok x => exact Ends.stopsAt h (hk x.1 x.2 h)
  | error e => exact h

theorem ends_need (b : Bool) (c : Cause) : Ends P (fun _ => b = true) (need b c) := by
  unfold need
  split
  · exact .ok ‹_›
  · exact ends_fail c

theorem ends_needAt (b : Bool) (c : Cause) (a : Word) : Ends P (fun _ => b = true) (needAt b c a) := by
  unfold needAt
  split
  · exact .ok ‹_›
  · exact ends_failAt c a

end

/-! ### With no store unsettled, a read of the net's memory leaves memory as it is -/

/-- Memory is m, and every store has settled. -/
def Still (m : List Host.Cell) (s : State) : Prop := s.mem = m ∧ s.stores = []

section
variable {m : List Host.Cell} {s t : State} (h : Still m s)
include h

theorem Still.same (hmem : t.mem = s.mem) (hstores : t.stores = s.stores) : Still m t := ⟨hmem.trans h.1, hstores.trans h.2⟩

theorem Still.settleLine (l : Nat) : Still m (settleLine s l) := by
  have hsame : Machine.settleLine s l = s := if_pos h.2
  rwa [hsame]

theorem Still.choice (n : Nat) : Still m (choice s n).2 := by
  rw [choice_rest]
  exact h.same rfl rfl

theorem Still.parted (k n : Nat) : Still m (parted k n s) := by
  rw [parted_rest]
  exact h.same rfl rfl

theorem Still.foldl_parted (l : List Nat) (n : Nat) : Still m (l.foldl (fun s a => Machine.parted a n s) s) := by
  induction l generalizing s with
  | nil => exact h
  | cons a l ih => exact ih (h.parted a n)

theorem Still.hwRequest (q pa : Nat) : Still m (hwRequest q pa s) := by
  rw [hwRequest_rest]
  exact h.same rfl rfl

theorem Still.findCopy (q l p : Nat) : Still m (findCopy s q l p).2 := by
  unfold Machine.findCopy
  split
  · exact h
  · exact h
  · exact h.choice _

theorem Still.grant (q l p : Nat) (own : Bool) : Still m (grant s q l p own) := by
  have hchoice := (h.parted (256 * l) 256).choice 64
  unfold Machine.grant
  generalize Machine.choice (Machine.parted (256 * l) 256 s) 64 = c at hchoice
  have hsettle : Still m (if own && c.1 / 32 == 1 then Machine.settleLine c.2 l else c.2) := by
    split
    · exact hchoice.settleLine l
    · exact hchoice
  dsimp only
  generalize (if own && c.1 / 32 == 1 then Machine.settleLine c.2 l else c.2) = u at hsettle
  split <;> exact hsettle.same rfl rfl

theorem Still.cacheLoad (q p : Nat) (tid : Option Nat) (k n : Nat) : Still m (cacheLoad q p tid k n s).2.2 := by
  have hfind := h.findCopy q (k / 256) p
  unfold Machine.cacheLoad
  dsimp only
  split
  · rename_i hc
    rwa [hc] at hfind
  · rename_i u hc
    rw [hc] at hfind
    refine Still.grant ?_ q (k / 256) p _
    split
    · exact hfind.settleLine _
    · exact hfind

theorem Still.translation {q n va : Nat} {e : TlbEnt} {u : State} (htr : translation s q n va = .ok (e, u)) : Still m u := by
  rcases translation_cases htr with ⟨-, rfl⟩ | ⟨-, -, rfl⟩ | ⟨-, -, l, rfl⟩
  · exact h
  · exact h.same rfl rfl
  · exact (h.foldl_parted l 8).same rfl rfl

theorem Still.of_translation_error {q n va : Nat} {c : Cause} {u : State} (htr : Machine.translation s q n va = .error (c, u)) : Still m u := by
  unfold Machine.translation at htr
  split at htr
  · cases htr
  · split at htr
    · cases htr
    · dsimp only at htr
      split at htr
      · cases htr
        exact (h.foldl_parted _ 8).same rfl rfl
      · cases htr

theorem Still.globAccess (q n va k : Nat) (nd : Need) : Ends (Still m) (fun x => Still m x.2) (globAccess s q n va k nd) := by
  unfold Machine.globAccess
  dsimp only
  split
  · rename_i htr
    exact .stopsAt (h.of_translation_error htr) (ends_failAt _ _)
  · rename_i htr
    refine .stopsAt (h.translation htr) (.ite (fun _ => ends_failAt _ _) fun _ => ?_)
    refine .ite (fun _ => ends_waitOn _) fun _ => ?_
    split
    · exact ends_failAt _ _
    · exact .ok (h.translation htr)

theorem Still.hwRead (n q p : Nat) (aw : Word) (len : Nat) : Ends (Still m) (fun x => Still m x.2) (hwRead n q p aw len s) := by
  unfold Machine.hwRead
  split
  · exact ends_fail _
  · refine .reading (h.globAccess q n _ len needR) fun pa u hu => .ite (fun _ => ends_fail _) fun _ => ?_
    refine .ok (Still.cacheLoad ?_ q p none pa len)
    split
    · exact hu.hwRequest q pa
    · exact hu
  · split
    · exact ends_fail _
    · exact .ite (fun _ => ends_fail _) fun _ => .ok (h.same rfl rfl)

theorem Still.hasHandler (n q : Nat) : Still m (hasHandler n q s).2 := by
  have hread := h.hwRead n q s.T (globWord ((s.netRec n).ruleBase + 4 * (256 * hdrKind (bankWord s (handlerKey s n)) + 0xFF))) 4
  have htry : Ends (Still m) (fun x => Still m x.2)
      (hwTry n q s.T (globWord ((s.netRec n).ruleBase + 4 * (256 * hdrKind (bankWord s (handlerKey s n)) + 0xFF))) 4 s) := by
    unfold hwTry
    split
    · rename_i hr
      exact .ok (hread.of_ok hr)
    · rename_i hr
      exact .ok ((hread.of_error hr).state (s := s) h)
    · rename_i hr
      exact .error (hread.of_error hr)
  have hrule := htry.map (f := fun r => (r.1.bind ruleOf, r.2)) (R := fun x => Still m x.2) fun _ hx => hx
  unfold Machine.hasHandler
  split
  · rename_i hr
    exact hrule.of_ok hr
  · rename_i hr
    exact (hrule.of_error hr).state h

end

end Sys2Proof.Machine
end

section
/-!
PROOFS. A thread parks on a fault, stands in line for a block, and gets its fault redex (17 R298 to R302).
-/

namespace Sys2Proof.Machine
open Sys2Proof Sys2Proof.Say

/-! ### A berth parks on a fault (17 R302 R312) -/

theorem onlyReads_hasHandler (n q : Nat) (s : State) : OnlyReads s (hasHandler n q s).2 := by
  unfold hasHandler
  have hrule := readsOnly_ruleEntry n q s.T (256 * hdrKind (bankWord s (handlerKey s n)) + 0xFF) s
  split
  · rename_i hr
    exact hrule.ok _ _ hr
  · rename_i hr
    exact (hrule.error _ hr).1

theorem withdraw_rest (b : Nat) (s : State) : withdraw b s = { s with waits := (withdraw b s).waits } := by
  unfold withdraw
  split <;> rfl

theorem unqueue_rest (b : Nat) (s : State) :
    unqueue b s = { s with waits := (unqueue b s).waits, netqs := (unqueue b s).netqs, assays := (unqueue b s).assays } := by
  unfold unqueue
  rw [withdraw_rest]
  dsimp only
  split <;> rfl

theorem unqueue_netqs {b : Nat} {s : State} (h : (s.ctx b).tid ∉ (s.netq (s.ctx b).net (quadOf b)).waiting) : (unqueue b s).netqs = s.netqs := by
  have hctx : (withdraw b s).ctx b = s.ctx b := by rw [withdraw_rest]; rfl
  have hnq (n q : Nat) : (withdraw b s).netq n q = s.netq n q := by rw [withdraw_rest]; rfl
  unfold unqueue
  dsimp only
  rw [hctx, hnq, if_neg (by simpa using h), withdraw_rest]

/-- The thread of a berth as it parks on a fault. -/
def faulted (b : Nat) (f : FaultInfo) (s : State) : Ctx :=
  { (s.ctx b).whole with
    broken := (s.ctx b).broken || leadsGang s b, brokenVec := (s.ctx b).brokenVec || (Tbl.get? s.vgangs b).isSome, desc := none
    wait := .faultPending f, waited := 0 }

/-- s with everything that parking on a fault, and the read of a rule after it, may change taken from t. -/
def State.faultAs (s t : State) : State :=
  { s with mem := t.mem, stores := t.stores, lines := t.lines, copies := t.copies, stalePorts := t.stalePorts, tlb := t.tlb, perf := t.perf
           tape := t.tape, nfree := t.nfree, berths := t.berths, chans := t.chans, waits := t.waits, netqs := t.netqs, assays := t.assays
           mgangs := t.mgangs, vgangs := t.vgangs }

/-- Berth b has parked on fault f, and at most a rule has been read since. -/
structure Faulted (b : Nat) (f : FaultInfo) (s t : State) : Prop where
  rest : t = s.faultAs t
  ctx : t.ctx b = faulted b f s
  held : t.held b = true
  others : ∀ o, o ≠ b → BerthStands s t o
  mgang : Tbl.get? t.mgangs b = none
  vgang : Tbl.get? t.vgangs b = none

/-- The lines that a thread stands in, left by it as it parks. -/
theorem parkFault_eq (b : Nat) (f : FaultInfo) (s : State) : ∃ u, u = { s with chans := u.chans, waits := u.waits, netqs := u.netqs, assays := u.assays } ∧
    ((s.ctx b).tid ∉ (s.netq (s.ctx b).net (quadOf b)).waiting → u.netqs = s.netqs) ∧
    parkFault b f s = ((endGangs b u).setCtx b { (s.ctx b).whole with
      broken := (s.ctx b).broken || leadsGang s b, brokenVec := (s.ctx b).brokenVec || (Tbl.get? s.vgangs b).isSome, desc := none }).leave b
        (.faultPending f) := by
  have hun := unqueue_rest b (meetDeps (s.ctx b).tid s)
  refine ⟨unqueue b (meetDeps (s.ctx b).tid s), by rw [hun]; rfl, fun hw => unqueue_netqs (s := meetDeps (s.ctx b).tid s) hw, ?_⟩
  have hbt : (unqueue b (meetDeps (s.ctx b).tid s)).berths = s.berths := (congrArg State.berths hun).trans rfl
  have hctx : (endGangs b (unqueue b (meetDeps (s.ctx b).tid s))).ctx b = s.ctx b := congrArg (fun x => (Tbl.getD x b {}).ctx) hbt
  unfold parkFault
  dsimp only
  rw [hctx]

theorem parkFault_faulted (b : Nat) (f : FaultInfo) (s : State) : Faulted b f s (parkFault b f s) := by
  obtain ⟨u, hu, -, hpark⟩ := parkFault_eq b f s
  rw [hpark]
  refine ⟨?_, ?_, ?_, fun o ho => .inl ?_, ?_, ?_⟩
  · rw [hu]
    rfl
  · rw [State.ctx_leave_same, State.ctx_setCtx_same]
    rfl
  · simp [State.held, State.leave, State.setBerth]
  · rw [State.get?_leave_ne _ _ ho, State.get?_setCtx_ne _ _ ho]
    exact congrArg (fun x => Tbl.get? x.berths o) hu
  · simp [endGangs, Tbl.get?_del]
  · simp [endGangs, Tbl.get?_del]

namespace Faulted

variable {b : Nat} {f : FaultInfo} {s t u : State}

theorem onlyReads (h : Faulted b f s t) (k : OnlyReads t u) : Faulted b f s u := by
  have hget : Tbl.get? u.berths b = Tbl.get? t.berths b := by
    rcases k.berths b with hsame | ⟨x, k, n, w, hx, hw, -⟩
    · exact hsame
    · have hwait : (t.ctx b).wait = .added k n w := by simp only [State.ctx, State.berth, Tbl.getD, hx, Option.getD_some, hw]
      rw [h.ctx] at hwait
      cases hwait
  have hctx : u.ctx b = t.ctx b := by simp only [State.ctx, State.berth, Tbl.getD, hget]
  refine ⟨?_, hctx.trans h.ctx, ?_, fun o ho => berthStands_trans (h.others o ho) (k.berths o), ?_, ?_⟩
  · rw [k.rest, h.rest]
    rfl
  · rw [State.held, hget]
    exact h.held
  · exact ((congrArg (fun x => Tbl.get? x.mgangs b) k.rest).trans rfl).trans h.mgang
  · exact ((congrArg (fun x => Tbl.get? x.vgangs b) k.rest).trans rfl).trans h.vgang

section
variable (h : Faulted b f s t)
include h

theorem setNetq (n q : Nat) (x : NetQuad) : Faulted b f s (t.setNetq n q x) where
  rest := by rw [h.rest]; rfl
  ctx := h.ctx
  held := h.held
  others := h.others
  mgang := h.mgang
  vgang := h.vgang

theorem cur : t.cur = s.cur := (congrArg State.cur h.rest).trans rfl
theorem nets : t.nets = s.nets := (congrArg State.nets h.rest).trans rfl
theorem deques : t.deques = s.deques := (congrArg State.deques h.rest).trans rfl
theorem msgs : t.msgs = s.msgs := (congrArg State.msgs h.rest).trans rfl
theorem mints : t.mints = s.mints := (congrArg State.mints h.rest).trans rfl
theorem netRec (n : Nat) : t.netRec n = s.netRec n := by rw [State.netRec, State.netRec, h.nets]
theorem form (nr : NetRec) (q : Nat) : nr.form t q = nr.form s q := (congrArg (fun x => nr.form x q) h.rest).trans rfl
theorem inRegion (nr : NetRec) (q : Nat) : nr.inRegion t q = nr.inRegion s q := (congrArg (fun x => nr.inRegion x q) h.rest).trans rfl
theorem toPhys (nr : NetRec) (x y : Nat) : nr.toPhys t x y = nr.toPhys s x y := (congrArg (fun v => nr.toPhys v x y) h.rest).trans rfl

theorem firstPhys (nr : NetRec) (l : List (Nat × Nat)) : firstPhys nr t l = firstPhys nr s l := by
  induction l with
  | nil => rfl
  | cons e l ih => rw [Machine.firstPhys, Machine.firstPhys, h.toPhys, ih]

theorem launchQuad (nr : NetRec) : nr.launchQuad t = nr.launchQuad s := h.firstPhys nr _
theorem net_ctx : (t.ctx b).net = (s.ctx b).net := by rw [h.ctx]; rfl

theorem whole_ctx (h2 : 2 ≤ (s.ctx b).grains) : ¬(t.ctx b).coin < 2 := by
  rw [h.ctx]
  exact Nat.not_lt.mpr h2

/-- The fault block that a berth gets once it is the thread's turn. -/
theorem redexBlock_first (hst : (s.netRec (s.ctx b).net).st ≠ .voiding) (hw : (t.netq (s.ctx b).net (quadOf b)).waiting = [(s.ctx b).tid])
    (hb : (t.netq (s.ctx b).net (quadOf b)).blocks = (s.netq (s.ctx b).net (quadOf b)).blocks) :
    redexBlock b t = freeBlock s (s.ctx b).net (quadOf b) := by
  have hfirst : ¬((firstWaiting t (s.ctx b).net (quadOf b)).isSome = true ∧ firstWaiting t (s.ctx b).net (quadOf b) ≠ some (s.ctx b).tid) := by
    rw [firstWaiting, hw, List.find?_singleton]
    split <;> simp
  unfold redexBlock
  dsimp only
  rw [h.ctx]
  refine (if_neg (not_or.mpr ⟨hfirst, fun hv => hst (h.netRec _ ▸ hv)⟩)).trans ?_
  show freeBlock _ (s.ctx b).net (quadOf b) = _
  rw [freeBlock, freeBlock, hb]

end

end Faulted

/-! ### The steps of taking a fault (17 R301) -/

/-- A fault block's line, with the thread of a berth at its end. -/
def waitingPool (x : NetQuad) (tid : Nat) : NetQuad := { x with waiting := x.waiting ++ [tid] }

/-- State t with the thread of a berth of s in line for a fault block. -/
def inLine (b : Nat) (s t : State) : State :=
  t.setNetq (s.ctx b).net (quadOf b) (waitingPool (t.netq (s.ctx b).net (quadOf b)) (s.ctx b).tid)

theorem faultBerth_of_handled {b : Nat} {f : FaultInfo} {s t : State} (hst : (s.netRec (s.ctx b).net).st ≠ .voiding)
    (hrule : hasHandler (s.ctx b).net (quadOf b) (parkFault b f s) = (true, t)) :
    faultBerth b f s = match redexBlock b (inLine b s t) with
      | none => inLine b s t
      | some i => makeRedex b i f (inLine b s t) := by
  unfold faultBerth
  dsimp only
  rw [if_neg hst, hrule]
  rfl

theorem faultBerth_of_unhandled {b : Nat} {f : FaultInfo} {s t : State} (hst : (s.netRec (s.ctx b).net).st ≠ .voiding)
    (hrule : hasHandler (s.ctx b).net (quadOf b) (parkFault b f s) = (false, t)) : faultBerth b f s = startVoid (s.ctx b).net 2 3 t := by
  unfold faultBerth
  dsimp only
  rw [if_neg hst, hrule]
  exact if_neg Bool.false_ne_true

theorem faultBerth_of_voiding {b : Nat} {f : FaultInfo} {s : State} (hst : (s.netRec (s.ctx b).net).st = .voiding) :
    faultBerth b f s = discard b (meetDeps (s.ctx b).tid s) := by
  unfold faultBerth
  dsimp only
  rw [if_pos hst]

/-! ### The fault redex (17 R298 to R301) -/

theorem hwWrite_purse_mem {k : Nat} (hk : isPurse k = true) (s : State) (bs : List Byte) : (hwWrite s k bs).mem = memWrite s.mem k bs := by
  have htime : (bankTime 0 s k bs.length).2.mem = s.mem := by
    rw [bankTime, if_pos hk]
    rfl
  have hmem : (hwWrite s k bs).mem = memWrite (bankTime 0 s k bs.length).2.mem k bs := by
    rw [hwWrite, arrStore, bankStore]
    dsimp only
    rw [clearPoison_rest]
  rw [hmem, htime]

section
variable {s t : State} (h : t = s.bankAs t)
include h

theorem bank_ctx (o : Nat) : t.ctx o = s.ctx o := (congrArg (fun x => x.ctx o) h).trans rfl
theorem bank_deque (q : Nat) : t.deque q = s.deque q := (congrArg (fun x => x.deque q) h).trans rfl
theorem bank_netq (n q : Nat) : t.netq n q = s.netq n q := (congrArg (fun x => x.netq n q) h).trans rfl
theorem bank_netStateAt (n q : Nat) : t.netStateAt n q = s.netStateAt n q := (congrArg (fun x => x.netStateAt n q) h).trans rfl
theorem bank_faultNode (n q : Nat) (f : FaultInfo) (eng : Bool) (place pc : Nat) (snap : Word) :
    faultNode t n q f eng place pc snap = faultNode s n q f eng place pc snap := (congrArg (fun x => faultNode x n q f eng place pc snap) h).trans rfl

theorem bank_trans {u : State} (k : u = t.bankAs u) : u = s.bankAs u := by
  rw [k, h]
  rfl

end

theorem deque_setCtx (s : State) (b q : Nat) (c : Ctx) : (s.setCtx b c).deque q = s.deque q := rfl
theorem netStateAt_setCtx (s : State) (b n q : Nat) (c : Ctx) : (s.setCtx b c).netStateAt n q = s.netStateAt n q := rfl
theorem netq_setCtx_setDeque (s : State) (b n q : Nat) (c : Ctx) (l : List Rec) : ((s.setCtx b c).setDeque q l).netq n q = s.netq n q := rfl

/-- A state with a thread's coin split, a quad's deque and a net's pool there changed, and the thread parked on its fault block. -/
def sendRedex (b q n k : Nat) (c : Ctx) (l : List Rec) (x : NetQuad) (w : State) : State :=
  let t := ((w.setCtx b c).setDeque q l).setNetq n q x
  t.setCtx b { t.ctx b with wait := .fault k }

section
variable (b i : Nat) (f : FaultInfo) (s : State)

/-- The key of the block of a berth's fault. -/
def redexKey : Nat := blockKey s (s.ctx b).net (quadOf b) i

/-- The bytes of a fault's snapshot record and of its node. -/
def redexSnapshot : List Byte := snapshot (s.ctx b) f.pc (if recordsAddr f.cause then f.addr else 0)

def redexNode : List Byte := faultNode s (s.ctx b).net (quadOf b) f false (b % 16 * 4 + coreOf b) f.pc.toNat
  ((s.netRec (s.ctx b).net).purseWord s (quadOf b) (keyOff (redexKey b i s) + 64))

/-- The state with both written. -/
def redexWritten : State := hwWrite (hwWrite s (redexKey b i s + 64) (redexSnapshot b f s)) (redexKey b i s) (redexNode b i f s)

/-- The type-2 record of a fault, with half of the thread's coin. -/
def redexRec : Rec :=
  { a := (s.netRec (s.ctx b).net).handler, b := (s.netRec (s.ctx b).net).port s 2 (quadOf b) (keyOff (redexKey b i s)), coin := (s.ctx b).coin / 2,
    net := (s.ctx b).net, cls := (s.ctx b).cls, typ := 2, time := (s.ctx b).pts }

/-- The thread with half of its coin. -/
def halvedCtx : Ctx := { s.ctx b with coin := (s.ctx b).coin - (s.ctx b).coin / 2 }

/-- The net's pool on the quad, with the block taken. -/
def redexPool : NetQuad :=
  { s.netq (s.ctx b).net (quadOf b) with
    blocks := i :: (s.netq (s.ctx b).net (quadOf b)).blocks
    waiting := (s.netq (s.ctx b).net (quadOf b)).waiting.filter (· != (s.ctx b).tid) }

/-- What the making of a fault redex leaves. -/
def redexMade : State :=
  sendRedex b (quadOf b) (s.ctx b).net (redexKey b i s) (halvedCtx b s) (s.deque (quadOf b) ++ [redexRec b i s]) (redexPool b i s) (redexWritten b i f s)

theorem redexWritten_rest : redexWritten b i f s = s.bankAs (redexWritten b i f s) := by
  unfold redexWritten
  exact bank_trans (hwWrite_rest s _ _) (hwWrite_rest _ _ _)

variable {b i f s}

theorem coinSplitAt_of_two (h : ¬(s.ctx b).coin < 2) : coinSplitAt b s = some ((s.ctx b).coin / 2, s.setCtx b (halvedCtx b s)) := by
  unfold coinSplitAt
  dsimp only
  rw [if_neg h]
  rfl

theorem makeRedex_makes (hcoin : ¬(s.ctx b).coin < 2) (hroom : (s.deque (quadOf b)).length < 256)
    (hnet : s.netStateAt (s.ctx b).net (quadOf b) ≠ .parked) : makeRedex b i f s = redexMade b i f s := by
  have hrest := redexWritten_rest b i f s
  have hctx := bank_ctx hrest b
  have hsplit : coinSplitAt b (redexWritten b i f s) = some ((s.ctx b).coin / 2, (redexWritten b i f s).setCtx b (halvedCtx b s)) := by
    rw [coinSplitAt_of_two (by rw [hctx]; exact hcoin), halvedCtx, halvedCtx, hctx]
  have hdeque : ((redexWritten b i f s).setCtx b (halvedCtx b s)).deque (quadOf b) = s.deque (quadOf b) := by
    rw [deque_setCtx, bank_deque hrest]
  have hstate : ((redexWritten b i f s).setCtx b (halvedCtx b s)).netStateAt (s.ctx b).net (quadOf b) = s.netStateAt (s.ctx b).net (quadOf b) := by
    rw [netStateAt_setCtx, bank_netStateAt hrest]
  have hpush : pushRec (quadOf b) (redexRec b i s) ((redexWritten b i f s).setCtx b (halvedCtx b s)) =
      some (((redexWritten b i f s).setCtx b (halvedCtx b s)).setDeque (quadOf b) (s.deque (quadOf b) ++ [redexRec b i s])) := by
    rw [pushRec_of_room (fun hp => hnet (hstate.symm.trans hp)) (by rw [hdeque]; exact hroom), hdeque]
  have hnq : (((redexWritten b i f s).setCtx b (halvedCtx b s)).setDeque (quadOf b) (s.deque (quadOf b) ++ [redexRec b i s])).netq
      (s.ctx b).net (quadOf b) = s.netq (s.ctx b).net (quadOf b) := by
    rw [netq_setCtx_setDeque, bank_netq hrest]
  have hnode := bank_faultNode (hwWrite_rest s (redexKey b i s + 64) (redexSnapshot b f s)) (s.ctx b).net (quadOf b) f false (b % 16 * 4 + coreOf b)
    f.pc.toNat ((s.netRec (s.ctx b).net).purseWord s (quadOf b) (keyOff (redexKey b i s) + 64))
  have hwritten : hwWrite (hwWrite s (redexKey b i s + 64) (redexSnapshot b f s)) (redexKey b i s)
      (faultNode (hwWrite s (redexKey b i s + 64) (redexSnapshot b f s)) (s.ctx b).net (quadOf b) f false (b % 16 * 4 + coreOf b) f.pc.toNat
        ((s.netRec (s.ctx b).net).purseWord s (quadOf b) (keyOff (redexKey b i s) + 64))) = redexWritten b i f s := by
    rw [hnode, redexWritten, redexNode]
  unfold redexKey redexSnapshot at hwritten
  unfold redexRec redexKey at hpush hnq
  unfold makeRedex
  dsimp only
  rw [if_neg hcoin, hwritten, hsplit]
  dsimp only
  rw [State.ctx_setCtx_same]
  unfold halvedCtx at hpush hnq ⊢
  dsimp only
  rw [hpush]
  dsimp only
  rw [hnq]
  simp only [redexMade, sendRedex, redexPool, redexKey, redexRec, halvedCtx]

end

end Sys2Proof.Machine
end

section
/-!
PROOFS. What a fault redex leaves, and what the voiding of a net leaves (14 R257, 17 R301).
-/

namespace Sys2Proof.Machine
open Sys2Proof Sys2Proof.Say

/-! ### What the making of a fault redex leaves (17 R298 to R301) -/

theorem memRead_congr {m m' : List Host.Cell} {a n : Nat} (h : ∀ i, i < n → memGet m' (a + i) = memGet m (a + i)) : memRead m' a n = memRead m a n := by
  refine List.ext_getElem (by simp) fun i hi hi' => ?_
  rw [memRead_length] at hi hi'
  have hget := memRead_getD m' n a i hi
  rw [h i hi, ← memRead_getD m n a i hi] at hget
  simpa [List.getD, hi] using hget

section
variable (b q n k : Nat) (c : Ctx) (l : List Rec) (x : NetQuad) (w : State)

theorem sendRedex_get?_ne {o : Nat} (ho : o ≠ b) : Tbl.get? (sendRedex b q n k c l x w).berths o = Tbl.get? w.berths o := by
  rw [sendRedex, State.get?_setCtx_ne _ _ ho, State.setNetq_berths, State.setDeque_berths, State.get?_setCtx_ne _ _ ho]

@[simp] theorem ctx_setNetq (s : State) (n q b : Nat) (x : NetQuad) : (s.setNetq n q x).ctx b = s.ctx b := rfl
@[simp] theorem ctx_setDeque (s : State) (q b : Nat) (l : List Rec) : (s.setDeque q l).ctx b = s.ctx b := rfl
@[simp] theorem netq_setCtx (s : State) (n q b : Nat) (c : Ctx) : (s.setCtx b c).netq n q = s.netq n q := rfl
@[simp] theorem deque_setNetq (s : State) (n q q' : Nat) (x : NetQuad) : (s.setNetq n q x).deque q' = s.deque q' := rfl

theorem sendRedex_ctx : (sendRedex b q n k c l x w).ctx b = { c with wait := .fault k } := by
  rw [sendRedex, State.ctx_setCtx_same, ctx_setNetq, ctx_setDeque, State.ctx_setCtx_same]

theorem sendRedex_netq : (sendRedex b q n k c l x w).netq n q = x := by
  rw [sendRedex, netq_setCtx, netq_setNetq, if_pos rfl]

theorem sendRedex_deque (hl : l ≠ []) : (sendRedex b q n k c l x w).deque q = l := by
  rw [sendRedex, deque_setCtx, deque_setNetq, deque_setDeque l hl]

theorem sendRedex_mgangs : (sendRedex b q n k c l x w).mgangs = w.mgangs := by simp [sendRedex]
theorem sendRedex_vgangs : (sendRedex b q n k c l x w).vgangs = w.vgangs := by simp [sendRedex]
theorem sendRedex_mem : (sendRedex b q n k c l x w).mem = w.mem := by simp [sendRedex]
theorem sendRedex_cur : (sendRedex b q n k c l x w).cur = w.cur := by simp [sendRedex]

end

section
variable {s t : State} (h : t = s.bankAs t)
include h

theorem bank_berths : t.berths = s.berths := (congrArg State.berths h).trans rfl
theorem bank_mgangs : t.mgangs = s.mgangs := (congrArg State.mgangs h).trans rfl
theorem bank_vgangs : t.vgangs = s.vgangs := (congrArg State.vgangs h).trans rfl
theorem bank_cur : t.cur = s.cur := (congrArg State.cur h).trans rfl

end

section
variable (b i : Nat) (f : FaultInfo) (s : State)

theorem redexMade_get?_ne {o : Nat} (ho : o ≠ b) : Tbl.get? (redexMade b i f s).berths o = Tbl.get? s.berths o := by
  rw [redexMade, sendRedex_get?_ne _ _ _ _ _ _ _ _ ho, bank_berths (redexWritten_rest b i f s)]

theorem redexMade_ctx : (redexMade b i f s).ctx b = { halvedCtx b s with wait := .fault (redexKey b i s) } := sendRedex_ctx _ _ _ _ _ _ _ _

theorem redexMade_netq : (redexMade b i f s).netq (s.ctx b).net (quadOf b) = redexPool b i s := sendRedex_netq _ _ _ _ _ _ _ _

theorem redexMade_deque : (redexMade b i f s).deque (quadOf b) = s.deque (quadOf b) ++ [redexRec b i s] :=
  sendRedex_deque _ _ _ _ _ _ _ _ (List.append_ne_nil_of_right_ne_nil _ (List.cons_ne_nil _ _))

theorem redexMade_mgangs : (redexMade b i f s).mgangs = s.mgangs := (sendRedex_mgangs ..).trans (bank_mgangs (redexWritten_rest b i f s))
theorem redexMade_vgangs : (redexMade b i f s).vgangs = s.vgangs := (sendRedex_vgangs ..).trans (bank_vgangs (redexWritten_rest b i f s))
theorem redexMade_cur : (redexMade b i f s).cur = s.cur := (sendRedex_cur ..).trans (bank_cur (redexWritten_rest b i f s))

theorem isPurse_redexKey : isPurse (redexKey b i s) = true := by
  unfold redexKey blockKey purseKey
  exact decide_eq_true (by dsimp only; omega)

theorem redexMade_mem : (redexMade b i f s).mem =
    memWrite (memWrite s.mem (redexKey b i s + 64) (redexSnapshot b f s)) (redexKey b i s) (redexNode b i f s) := by
  have hkey := isPurse_redexKey b i s
  have hnext : isPurse (redexKey b i s + 64) = true := decide_eq_true ((of_decide_eq_true hkey).trans (Nat.le_add_right _ _))
  rw [redexMade, sendRedex_mem, redexWritten, hwWrite_purse_mem hkey, hwWrite_purse_mem hnext]

theorem redexSnapshot_length : (redexSnapshot b f s).length = 640 := snapshot_length _ _ _
theorem redexNode_length : (redexNode b i f s).length = 64 := faultNode_length _ _ _ _ _ _ _ _

theorem redexMade_node : memRead (redexMade b i f s).mem (redexKey b i s) 64 = redexNode b i f s := by
  rw [redexMade_mem, ← redexNode_length b i f s, memRead_memWrite_same]

theorem redexMade_snapshot : memRead (redexMade b i f s).mem (redexKey b i s + 64) 640 = redexSnapshot b f s := by
  have hsnap := memRead_memWrite_same (redexSnapshot b f s) s.mem (redexKey b i s + 64)
  rw [redexSnapshot_length] at hsnap
  rw [redexMade_mem, ← hsnap]
  refine memRead_congr fun j hj => ?_
  rw [hsnap, memGet_memWrite, redexNode_length, if_neg (by omega)]

theorem redexMade_outside {x : Nat} (hx : x < redexKey b i s ∨ redexKey b i s + 704 ≤ x) : memGet (redexMade b i f s).mem x = memGet s.mem x := by
  rw [redexMade_mem, memGet_memWrite, redexNode_length, if_neg (by omega), memGet_memWrite, redexSnapshot_length, if_neg (by omega)]

end

/-! ### A net is voided (14 R257) -/

/-- s with everything that the voiding of a net may change taken from t. -/
def State.voidAs (s t : State) : State :=
  { s with mem := t.mem, stores := t.stores, lines := t.lines, poison := t.poison, nets := t.nets, netqs := t.netqs, mints := t.mints, chans := t.chans
           msgs := t.msgs, journal := t.journal, jseq := t.jseq }

theorem voidAs_trans {s t u : State} (h : t = s.voidAs t) (k : u = t.voidAs u) : u = s.voidAs u := by
  rw [k, h]
  rfl

theorem voidAs_of_bank {s t : State} (h : t = s.bankAs t) : t = s.voidAs t := by
  rw [h]
  rfl

theorem bank_mints {s t : State} {l : Tbl Mint} (h : t = ({ s with mints := l } : State).bankAs t) : t = { s.bankAs t with mints := l } := by
  rw [h]
  rfl

theorem bank_nets {s t : State} {l : Tbl NetRec} (h : t = ({ s with nets := l } : State).bankAs t) : t = { s.bankAs t with nets := l } := by
  rw [h]
  rfl

/-- Stated of the whole function, since the kernel would evaluate the key of a mint's record to compare the two sides at arguments. -/
theorem setMint_fun : State.setMint = fun s n m => (bankStore 0 { s with mints := Tbl.set s.mints n m } (mintPa s n) (mintBytes n m)).2 := rfl

theorem setMint_eq (s : State) (n : Nat) (m : Mint) :
    s.setMint n m = (bankStore 0 { s with mints := Tbl.set s.mints n m } (mintPa s n) (mintBytes n m)).2 := congrFun (congrFun (congrFun setMint_fun s) n) m

theorem setMint_rest (s : State) (n : Nat) (m : Mint) : s.setMint n m = { s.bankAs (s.setMint n m) with mints := Tbl.set s.mints n m } := by
  rw [setMint_eq]
  exact bank_mints (bankStore_rest 0 { s with mints := Tbl.set s.mints n m } (mintPa s n) (mintBytes n m))

theorem setNet_rest (s : State) (n : Nat) (r : NetRec) : s.setNet n r = { s.bankAs (s.setNet n r) with nets := Tbl.set s.nets n r } :=
  bank_nets (hwWrite_rest { s with nets := Tbl.set s.nets n r } _ _)

/-- s with everything that an entry of the journal may change taken from t. -/
def State.journalAs (s t : State) : State := { s.bankAs t with journal := t.journal, jseq := t.jseq }

theorem journalAs_hwWrite (s : State) (l : List JEntry) (n k : Nat) (bs : List Byte) :
    hwWrite { s with journal := l, jseq := n } k bs = s.journalAs (hwWrite { s with journal := l, jseq := n } k bs) := by
  have hrest := hwWrite_rest { s with journal := l, jseq := n } k bs
  generalize hwWrite { s with journal := l, jseq := n } k bs = t at hrest
  rw [hrest]
  rfl

theorem journal_rest (e : Event) (s : State) : journal e s = s.journalAs (journal e s) := journalAs_hwWrite s _ _ _ _

theorem sendReturn_rest (n amount time src : Nat) (s : State) : sendReturn n amount time src s = { s with msgs := (sendReturn n amount time src s).msgs } := by
  unfold sendReturn
  split <;> rfl

theorem foldl_rest {α : Type} {f : State → α → State} {P : State → State → Prop} (hrefl : ∀ s, P s s)
    (htrans : ∀ s t u, P s t → P t u → P s u)
    (hf : ∀ s a, P s (f s a)) (l : List α) (s : State) : P s (l.foldl f s) := by
  induction l generalizing s with
  | nil => exact hrefl s
  | cons a l ih => exact htrans _ _ _ (hf s a) (ih _)

/-- s with the pools and messages of t. -/
def State.dropAs (s t : State) : State := { s with netqs := t.netqs, msgs := t.msgs }

theorem dropAs_trans (s t u : State) (h : t = s.dropAs t) (k : u = t.dropAs u) : u = s.dropAs u := by
  rw [k, h]
  rfl

theorem dropEngFaults_rest (n : Nat) (s : State) : dropEngFaults n s = s.dropAs (dropEngFaults n s) := by
  unfold dropEngFaults
  refine foldl_rest (P := fun s t => t = s.dropAs t) (fun _ => rfl) dropAs_trans (fun s e => ?_) _ s
  have hsend := foldl_rest (P := fun s t => t = s.dropAs t) (f := fun s f => sendReturn n f.coin f.time (e.1 % 2 ^ 18) s) (fun _ => rfl) dropAs_trans
    (fun s f => by rw [sendReturn_rest]; rfl) e.2.eng s
  exact dropAs_trans _ _ _ hsend rfl

/-- The voiding of a net, up to the marks that its queued commands get. -/
def voidMint (n : Nat) (reason : BitVec 2) (s : State) : State :=
  match (s.mint n).st with
  | .opened => s.setMint n { s.mint n with st := .voiding, reason := reason, tick := s.T }
  | .quiet => s.setMint n (wakeAll { s.mint n with st := .voided, reason := reason, tick := s.T })
  | _ => s

theorem mintsAs_of_set {s t : State} {l : Tbl Mint} (h : t = { s.bankAs t with mints := l }) : t = { s.bankAs t with mints := t.mints } := by
  rw [h]
  rfl

theorem voidMint_rest (n : Nat) (reason : BitVec 2) (s : State) :
    voidMint n reason s = { s.bankAs (voidMint n reason s) with mints := (voidMint n reason s).mints } := by
  unfold voidMint
  split
  · exact mintsAs_of_set (setMint_rest s n _)
  · exact mintsAs_of_set (setMint_rest s n _)
  · rfl

theorem voidMint_opened {n : Nat} {reason : BitVec 2} {s : State} (h : (s.mint n).st = .opened) :
    (voidMint n reason s).mint n = { s.mint n with st := .voiding, reason := reason, tick := s.T } := by
  have hmints := congrArg State.mints (setMint_rest s n { s.mint n with st := .voiding, reason := reason, tick := s.T })
  have hvoid : voidMint n reason s = s.setMint n { s.mint n with st := .voiding, reason := reason, tick := s.T } := by
    unfold voidMint
    rw [h]
  rw [hvoid, State.mint, hmints]
  exact Tbl.getD_set_same _ _ _ _

/-- s with everything taken from t that follows a mint's change as its net is voided. -/
def State.endingAs (s t : State) : State :=
  { s with mem := t.mem, stores := t.stores, lines := t.lines, poison := t.poison, nets := t.nets, netqs := t.netqs, chans := t.chans
           msgs := t.msgs, journal := t.journal, jseq := t.jseq }

theorem endingAs_trans {s t u : State} (h : t = s.endingAs t) (k : u = t.endingAs u) : u = s.endingAs u := by
  rw [k, h]
  rfl

theorem endingAs_of_nets {s t : State} {l : Tbl NetRec} (h : t = { s.bankAs t with nets := l }) : t = s.endingAs t := by
  rw [h]
  rfl

theorem endingAs_of_drop {s t : State} (h : t = s.dropAs t) : t = s.endingAs t := by
  rw [h]
  rfl

theorem endingAs_of_journal {s t : State} (h : t = s.journalAs t) : t = s.endingAs t := by
  rw [h]
  rfl

theorem nets_of_journal {s t : State} (h : t = s.journalAs t) : t.nets = s.nets := (congrArg State.nets h).trans rfl

theorem nets_of_drop {s t : State} (h : t = s.dropAs t) : t.nets = s.nets := (congrArg State.nets h).trans rfl

theorem nets_of_set {s t : State} {l : Tbl NetRec} (h : t = { s.bankAs t with nets := l }) : t.nets = l := (congrArg State.nets h).trans rfl

/-- The queued commands of a net, marked as cancelled (12 R221). -/
def cancelled (n : Nat) (t : State) : State :=
  { t with chans := t.chans.map (fun e => (e.1, { e.2 with queue := e.2.queue.map (fun c => if c.net = n then { c with voided := true } else c) })) }

theorem voidNet_eq {n : Nat} {reason : BitVec 2} {s : State} (h : ¬((s.netRec n).st = .voiding ∨ (s.netRec n).st = .free)) :
    voidNet n reason s = cancelled n (dropEngFaults n ((voidMint n reason s).setNet n { s.netRec n with st := .voiding })) := by
  unfold voidNet voidMint
  dsimp only
  rw [if_neg h]
  cases (s.mint n).st <;> rfl

/-- What the voiding of a net that is bound leaves. -/
theorem startVoid_voids {n : Nat} {reason : BitVec 2} {kind : Nat} {s : State} (h : ¬((s.netRec n).st = .voiding ∨ (s.netRec n).st = .free)) :
    startVoid n reason kind s = (voidMint n reason s).endingAs (startVoid n reason kind s) ∧ ((startVoid n reason kind s).netRec n).st = .voiding := by
  have hset := setNet_rest (voidMint n reason s) n { s.netRec n with st := .voiding }
  have hdrop := dropEngFaults_rest n ((voidMint n reason s).setNet n { s.netRec n with st := .voiding })
  have hcancel : cancelled n (dropEngFaults n ((voidMint n reason s).setNet n { s.netRec n with st := .voiding })) = State.endingAs _ (cancelled n _) := rfl
  have hjournal := journal_rest { net := n, fromSt := stateCode (s.netRec n).st, toSt := 4, kind := kind }
    (cancelled n (dropEngFaults n ((voidMint n reason s).setNet n { s.netRec n with st := .voiding })))
  have heq : startVoid n reason kind s = journal { net := n, fromSt := stateCode (s.netRec n).st, toSt := 4, kind := kind }
      (cancelled n (dropEngFaults n ((voidMint n reason s).setNet n { s.netRec n with st := .voiding }))) := by
    unfold startVoid
    dsimp only
    rw [if_neg h, voidNet_eq h]
  rw [heq]
  refine ⟨endingAs_trans (endingAs_trans (endingAs_trans (endingAs_of_nets hset) (endingAs_of_drop hdrop)) hcancel) (endingAs_of_journal hjournal), ?_⟩
  have hnets := (nets_of_journal hjournal).trans ((nets_of_drop hdrop).trans (nets_of_set hset))
  rw [State.netRec, hnets, Tbl.getD_set_same]

theorem same_of_ending {s t u : State} {l : Tbl Mint} (h : t = { s.bankAs t with mints := l }) (k : u = t.endingAs u) :
    u.berths = s.berths ∧ u.mgangs = s.mgangs ∧ u.vgangs = s.vgangs ∧ u.cur = s.cur := by
  rw [k, h]
  exact ⟨rfl, rfl, rfl, rfl⟩

theorem mints_of_ending {s t : State} (h : t = s.endingAs t) : t.mints = s.mints := (congrArg State.mints h).trans rfl

end Sys2Proof.Machine
end

section
/-!
PROOFS. Faults park the thread and tell its handler (03 R68, 17 R297 to R302): the statement.
-/

namespace Sys2Proof.Machine
open Sys2Proof Sys2Proof.Say

/-! ### A thread is discarded (14 R257) -/

theorem publishAt_ctx (b : Nat) (s : State) : (publishAt b s).ctx b = { s.ctx b with touched := .slices [] } := by
  have hctx (t : Nat) (p : Nat → Bool) : (publishWhere s t p).ctx b = s.ctx b :=
    (congrArg (fun x => x.ctx b) (settleWhere_rest s _)).trans rfl
  unfold publishAt
  dsimp only
  rw [State.ctx_setCtx_same, hctx]

theorem publishAt_msgs (b : Nat) (s : State) : (publishAt b s).msgs = s.msgs := (congrArg State.msgs (settleWhere_rest s _)).trans rfl
theorem publishAt_deques (b : Nat) (s : State) : (publishAt b s).deques = s.deques := (congrArg State.deques (settleWhere_rest s _)).trans rfl

/-- s with everything taken from t that a berth gives back as its thread ends. -/
def State.freeAs (s t : State) : State :=
  { s with waits := t.waits, netqs := t.netqs, assays := t.assays, mgangs := t.mgangs, vgangs := t.vgangs, chans := t.chans, berths := t.berths }

theorem freeAs_of_unqueue {b : Nat} {s t : State} (h : t = { s with waits := t.waits, netqs := t.netqs, assays := t.assays }) (tid : Nat) :
    ({ meetDeps tid (endGangs b t) with berths := Tbl.del (meetDeps tid (endGangs b t)).berths b } : State) =
      s.freeAs { meetDeps tid (endGangs b t) with berths := Tbl.del (meetDeps tid (endGangs b t)).berths b } := by
  rw [h]
  rfl

theorem freeBerth_rest (b : Nat) (s : State) : freeBerth b s = s.freeAs (freeBerth b s) := freeAs_of_unqueue (unqueue_rest b s) _

theorem freeBerth_free (b : Nat) (s : State) : Tbl.get? (freeBerth b s).berths b = none := by
  rw [freeBerth, Tbl.get?_del, if_pos rfl]

theorem discard_free (b : Nat) (s : State) : Tbl.get? (discard b s).berths b = none := freeBerth_free b _

theorem discard_deques (b : Nat) (s : State) : (discard b s).deques = s.deques := by
  unfold discard
  rw [freeBerth_rest, sendReturn_rest]
  exact publishAt_deques b s

theorem discard_msgs {b : Nat} {s : State} (h : (s.ctx b).grains ≠ 0) :
    (discard b s).msgs = s.msgs ++ [{ src := quadOf b, dst := 0, body := .ret (s.ctx b).net (s.ctx b).grains (s.ctx b).pts }] := by
  have hmsgs : (discard b s).msgs = (sendReturn (s.ctx b).net (s.ctx b).grains (s.ctx b).pts (quadOf b) (publishAt b s)).msgs := by
    unfold discard
    rw [freeBerth_rest, publishAt_ctx]
    rfl
  rw [hmsgs, sendReturn, if_neg h]
  dsimp only
  rw [publishAt_msgs]

/-! ### The clauses of O37 -/

section
variable {f : FaultInfo} {s : State}

/-- The thread of a fault, as the statement writes it. -/
def wholeCtx (s : State) : Ctx :=
  { s.th with
    coin := s.th.coin + 2 ^ 32 * s.th.lent, lent := 0, desc := none, waited := 0
    broken := s.th.broken || decide (Tbl.get? s.mgangs s.cur ≠ none ∨ Tbl.get? s.vgangs s.cur ≠ none)
    brokenVec := s.th.brokenVec || (Tbl.get? s.vgangs s.cur).isSome }

theorem faulted_eq (f : FaultInfo) (s : State) : faulted s.cur f s = { wholeCtx s with wait := .faultPending f } := by
  have hled : leadsGang s s.cur = decide (Tbl.get? s.mgangs s.cur ≠ none ∨ Tbl.get? s.vgangs s.cur ≠ none) := by
    unfold leadsGang
    cases Tbl.get? s.mgangs s.cur <;> cases Tbl.get? s.vgangs s.cur <;> simp
  unfold faulted
  rw [hled]
  rfl

/-- A fault stands parked, its thread's line and block being as they were. -/
theorem faulted_rule (f : FaultInfo) (s : State) (n q : Nat) : Faulted s.cur f s (hasHandler n q (parkFault s.cur f s)).2 :=
  (parkFault_faulted s.cur f s).onlyReads (onlyReads_hasHandler n q _)

theorem rule_mem (b n q : Nat) (f : FaultInfo) (s : State) (h : s.stores = []) : (hasHandler n q (parkFault b f s)).2.mem = s.mem := by
  obtain ⟨u, hu, -, hpark⟩ := parkFault_eq b f s
  have hstill : Still s.mem (parkFault b f s) := by
    rw [hpark]
    exact ⟨(congrArg State.mem hu).trans rfl, ((congrArg State.stores hu).trans rfl).trans h⟩
  exact (hstill.hasHandler n q).1

/-- The pool of a net in which no thread waits for a block is as it was. -/
theorem rule_netq {b : Nat} (n q : Nat) (f : FaultInfo) (h : (s.netq (s.ctx b).net (quadOf b)).waiting = []) :
    (hasHandler n q (parkFault b f s)).2.netq (s.ctx b).net (quadOf b) = s.netq (s.ctx b).net (quadOf b) := by
  obtain ⟨u, hu, hnetqs, hpark⟩ := parkFault_eq b f s
  have hreads : (hasHandler n q (parkFault b f s)).2.netqs = (parkFault b f s).netqs := (congrArg State.netqs (onlyReads_hasHandler n q _).rest).trans rfl
  have hstands : (parkFault b f s).netqs = s.netqs := by
    rw [hpark]
    exact hnetqs (by rw [h]; exact List.not_mem_nil)
  rw [State.netq, State.netq, hreads, hstands]

/-- A fault whose handler has a rule stands first in line for a block, and takes the lowest free one. -/
theorem faultBerth_turns {b : Nat} (hst : (s.netRec (s.ctx b).net).st ≠ .voiding)
    (hrule : (hasHandler (s.ctx b).net (quadOf b) (parkFault b f s)).1 = true) (hwait : (s.netq (s.ctx b).net (quadOf b)).waiting = []) :
    ∃ u, Faulted b f s u ∧ u.mem = (hasHandler (s.ctx b).net (quadOf b) (parkFault b f s)).2.mem ∧
      (u.netq (s.ctx b).net (quadOf b)).waiting = [(s.ctx b).tid] ∧
      (u.netq (s.ctx b).net (quadOf b)).blocks = (s.netq (s.ctx b).net (quadOf b)).blocks ∧
      (u.netq (s.ctx b).net (quadOf b)).parked = (s.netq (s.ctx b).net (quadOf b)).parked ∧
      faultBerth b f s = (match freeBlock s (s.ctx b).net (quadOf b) with | none => u | some i => makeRedex b i f u) := by
  have hnq := rule_netq (s.ctx b).net (quadOf b) f hwait
  have hfault := (parkFault_faulted b f s).onlyReads (onlyReads_hasHandler (s.ctx b).net (quadOf b) _)
  obtain ⟨r, t, hpair⟩ : ∃ r t, hasHandler (s.ctx b).net (quadOf b) (parkFault b f s) = (r, t) := ⟨_, _, rfl⟩
  rw [hpair] at hnq hfault hrule ⊢
  dsimp only at hnq hfault hrule ⊢
  have hberth := faultBerth_of_handled hst (hpair.trans (by rw [hrule]))
  have hpool : (inLine b s t).netq (s.ctx b).net (quadOf b) = { s.netq (s.ctx b).net (quadOf b) with waiting := [(s.ctx b).tid] } := by
    rw [inLine, netq_setNetq, if_pos rfl, hnq, waitingPool, hwait, List.nil_append]
  have hturn : Faulted b f s (inLine b s t) := hfault.setNetq _ _ _
  have hblock := hturn.redexBlock_first hst (by rw [hpool]) (by rw [hpool])
  rw [hblock] at hberth
  exact ⟨inLine b s t, hturn, rfl, by rw [hpool], by rw [hpool], by rw [hpool], hberth⟩

section Redex
variable {i : Nat} {u : State} (h : Faulted s.cur f s u)
include h

theorem fault_ctx : u.ctx s.cur = { wholeCtx s with wait := .faultPending f } := h.ctx.trans (faulted_eq f s)

theorem fault_same {t : State} (hb : ∀ o, o ≠ s.cur → Tbl.get? t.berths o = Tbl.get? u.berths o) (hm : t.mgangs = u.mgangs) (hv : t.vgangs = u.vgangs) :
    (∀ o, o ≠ s.cur → BerthStands s t o) ∧ Tbl.get? t.mgangs s.cur = none ∧ Tbl.get? t.vgangs s.cur = none :=
  ⟨fun o ho => berthStands_trans (h.others o ho) (.inl (hb o ho)), by rw [hm, h.mgang], by rw [hv, h.vgang]⟩

theorem fault_th {t : State} (hcur : t.cur = u.cur) : t.th = t.ctx s.cur := by rw [State.th, hcur, h.cur]

/-- The key of the block, of the bind record's fields. -/
theorem fault_key : redexKey s.cur i u =
    purseKey s.quad (s.net.poolOff + s.net.poolSize + (if s.quad = s.net.launchQuad s then 64 else 0) + 704 * i) := by
  unfold redexKey blockKey
  dsimp only
  rw [h.net_ctx, h.netRec, h.launchQuad]
  rfl

theorem fault_whole : ¬(u.ctx s.cur).coin < 2 ↔ 2 ≤ s.th.coin + 2 ^ 32 * s.th.lent := by
  rw [fault_ctx h]
  exact Nat.not_lt

theorem fault_netStateAt (hpool : (u.netq s.th.net s.quad).parked = (s.netq s.th.net s.quad).parked) :
    u.netStateAt s.th.net s.quad = s.netStateAt s.th.net s.quad := by
  rw [State.netStateAt, State.netStateAt, h.netRec, h.inRegion, hpool]

/-- The record of the fault, as the statement writes it. -/
theorem fault_rec : redexRec s.cur i u =
    { a := s.net.handler, b := BitVec.ofNat 64 (2 * 2 ^ 60 + s.net.form s s.quad * 2 ^ 18 + keyOff (redexKey s.cur i u)),
      coin := (s.th.coin + 2 ^ 32 * s.th.lent) / 2, net := s.th.net, cls := s.th.cls, typ := 2, time := s.th.pts } := by
  have hctx := fault_ctx h
  unfold redexRec NetRec.port
  rw [h.net_ctx, h.netRec, h.form, hctx]
  rfl

/-- The words of the FAULT node. -/
theorem fault_words : redexNode s.cur i f u =
    faultNode u s.th.net s.quad f false (s.cur % 16 * 4 + coreOf s.cur) f.pc.toNat (s.net.purseWord s s.quad (keyOff (redexKey s.cur i u) + 64)) := by
  unfold redexNode NetRec.purseWord
  rw [h.net_ctx, h.netRec, h.form]
  rfl

theorem fault_node (j : Nat) (hj : j < 8) : dbl (redexNode s.cur i f u) (8 * j) =
    (faultWords s s.th.net s.quad f false (s.cur % 16 * 4 + coreOf s.cur) f.pc.toNat
      (s.net.purseWord s s.quad (keyOff (redexKey s.cur i u) + 64)))[j]'hj % 2 ^ 64 := by
  have hwords (snap : Word) : faultWords u s.th.net s.quad f false (s.cur % 16 * 4 + coreOf s.cur) f.pc.toNat snap =
      faultWords s s.th.net s.quad f false (s.cur % 16 * 4 + coreOf s.cur) f.pc.toNat snap := by
    unfold faultWords faultWord
    rw [h.netRec, h.form]
  rw [fault_words h, dbl_faultNode _ _ _ _ _ _ _ _ j hj]
  exact congrArg (· % 2 ^ 64) (List.getElem_of_eq (hwords _) _)

theorem fault_snapshot : SnapshotOf (redexSnapshot s.cur f u) (wholeCtx s) f.pc
    (match f.cause with | .align | .page | .access | .poison => f.addr | _ => 0) := by
  have haddr : (match f.cause with | .align | .page | .access | .poison => f.addr | _ => 0) = if recordsAddr f.cause then f.addr else 0 := by
    cases f.cause <;> rfl
  have hsnap : redexSnapshot s.cur f u = snapshot (wholeCtx s) f.pc (if recordsAddr f.cause then f.addr else 0) := by
    rw [redexSnapshot, fault_ctx h]
    rfl
  rw [hsnap, haddr]
  exact snapshotOf_snapshot _ _ _

end Redex

/-- The word of a FAULT node that tells the fault. -/
theorem faultWord_eq (n q place : Nat) (hplace : place < 64) (hform : (s.netRec n).form s q < 2 ^ 18) : faultWord s n q f false place % 2 ^ 64 =
    faultCode f.cause * 2 ^ 60 + (if f.sw then 2 ^ 59 else 0) + (if f.lnk then 2 ^ 57 else 0) + (if f.reg then 2 ^ 56 else 0) + f.info.toNat * 2 ^ 24
      + place * 2 ^ 18 + (s.netRec n).form s q := by
  rw [Nat.mod_eq_of_lt (faultWord_lt s n q f false place hplace hform), faultWord, causeCode_eq]
  simp only [Bool.false_eq_true, if_false, Nat.add_zero]

/-- A net that is bound or parked has neither the state of a free net nor of one that is voiding. -/
theorem bound_or_parked {x : NetState} (h : x = .bound ∨ x = .parked) : x ≠ .voiding ∧ ¬(x = .voiding ∨ x = .free) := by
  rcases h with rfl | rfl <;> decide

theorem freeBlock_lowest {n q i : Nat} (h : freeBlock s n q = some i) : i ∉ (s.netq n q).blocks ∧ ∀ j, j < i → j ∈ (s.netq n q).blocks := by
  rw [freeBlock, show [0, 1, 2, 3] = List.range 4 from rfl, List.find?_range_eq_some] at h
  obtain ⟨hi, -, hlow⟩ := h
  exact ⟨by simpa using hi, fun j hj => by simpa using hlow j hj⟩

theorem dbrk_armed {code : BitVec 8} (h : (s.netq s.th.net s.quad).armed = true) :
    exec (.dbrk code) s = .next ((s.setNetq s.th.net s.quad { s.netq s.th.net s.quad with halted := true }).pass 4) := by
  show execDbrk code s = _
  unfold execDbrk
  dsimp only
  rw [if_pos h]

theorem dbrk_unarmed {code : BitVec 8} (h : (s.netq s.th.net s.quad).armed = false) :
    exec (.dbrk code) s = .next (takeFault { cause := .debug, sw := true, info := BitVec.ofNat 32 code.toNat } s) := by
  show execDbrk code s = _
  unfold execDbrk
  dsimp only
  rw [if_neg (by rw [h]; exact Bool.false_ne_true), BitVec.ofNat_toNat]

theorem trap_raises {a : Reg} {k : BitVec 4} {c : Cause} (h : trapCause k.toNat = some c) :
    exec (.trap a k) s = .next (takeFault { cause := c, sw := true, info := BitVec.ofNat 32 (s.x a).toNat } s) := by
  show execTrap a k s = _
  unfold execTrap
  rw [h, BitVec.ofNat_toNat]

theorem trap_refuses {a : Reg} {k : BitVec 4} (h : trapCause k.toNat = none) : exec (.trap a k) s = .next (takeFault { cause := .illegal } s) := by
  show execTrap a k s = _
  unfold execTrap
  rw [h]
  rfl

theorem trapCause_faultCode {c : Cause} (h1 : c ≠ .void) (h2 : c ≠ .watchdog) : trapCause (faultCode c) = some c := by
  cases c with
  | void => exact absurd rfl h1
  | watchdog => exact absurd rfl h2
  | _ => rfl

theorem trapCause_none (k : BitVec 4) (h : k.toNat = 11 ∨ k.toNat = 12 ∨ 14 ≤ k.toNat) : trapCause k.toNat = none := by
  have hlt := k.isLt
  rcases h with h | h | h
  · rw [h]
    rfl
  · rw [h]
    rfl
  · interval_cases k.toNat <;> rfl

/-- Settles O37: a fault taken in each state of its net, then `trap`, `dbrk` and the words of no instruction. -/
theorem faultsParkTheThreadAndTellItsHandler : Obligations.FaultsParkTheThreadAndTellItsHandler := by
  unfold Obligations.FaultsParkTheThreadAndTellItsHandler
  refine ⟨fun f s hheld => ?_, fun a k code s => ?_⟩
  case refine_1 =>
    refine ⟨fun hstores => rule_mem _ _ _ _ s hstores, fun hst hrule hwait => ?_, fun hst hrule => ?_, fun hst => ?_⟩
    · obtain ⟨u, hu, hmem, hline, hblocks, hparks, hberth⟩ := faultBerth_turns hst hrule hwait
      refine ⟨fun hfree => ?_, fun i hfree hcoin hroom hparked => ?_⟩
      · have hfree' : freeBlock s (s.ctx s.cur).net (quadOf s.cur) = none := hfree
        rw [hfree'] at hberth
        have ht : takeFault f s = u := hberth
        rw [ht]
        refine ⟨fault_same hu (fun _ _ => rfl) rfl rfl, hmem, hu.deques, hline, ?_⟩
        rw [fault_th hu rfl]
        exact fault_ctx hu
      · have hfree' : freeBlock s (s.ctx s.cur).net (quadOf s.cur) = some i := hfree
        rw [hfree'] at hberth
        have hnet : (u.ctx s.cur).net = s.th.net := hu.net_ctx
        have hmade := makeRedex_makes (i := i) (f := { f with pc := s.th.pc }) ((fault_whole hu).mpr hcoin)
          (by rw [State.deque, hu.deques]; exact hroom)
          (by rw [hnet]; exact fun hp => hparked ((fault_netStateAt hu hparks).symm.trans hp))
        have ht : takeFault f s = redexMade s.cur i { f with pc := s.th.pc } u := hberth.trans hmade
        have hkey := fault_key (i := i) hu
        have hnode := redexMade_node s.cur i { f with pc := s.th.pc } u
        have hwords := fault_node (i := i) hu
        have hdeque := redexMade_deque s.cur i { f with pc := s.th.pc } u
        have hrec := fault_rec (i := i) hu
        have hnetq := redexMade_netq s.cur i { f with pc := s.th.pc } u
        have hsnap := redexMade_snapshot s.cur i { f with pc := s.th.pc } u
        have hout := @redexMade_outside s.cur i { f with pc := s.th.pc } u
        rw [hkey] at hnode hwords hrec hsnap hout
        rw [hnet] at hnetq
        rw [ht]
        intro key node
        have hnode' : node = redexNode s.cur i { f with pc := s.th.pc } u := hnode
        rw [hnode', hsnap]
        refine ⟨fault_same hu (fun o ho => redexMade_get?_ne _ _ _ _ ho) (redexMade_mgangs ..) (redexMade_vgangs ..), ?_, ?_, ?_, ?_, ?_, ?_, ?_, ?_, ?_, ?_,
          ?_, ?_, ?_, ?_, ?_, fun x hx => (hout hx).trans (congrFun (congrArg memGet hmem) x)⟩
        case refine_1 => exact (freeBlock_lowest hfree).1
        case refine_2 => exact (freeBlock_lowest hfree).2
        case refine_3 =>
          refine (congrArg NetQuad.blocks hnetq).trans ?_
          rw [redexPool, hnet]
          exact congrArg (i :: ·) hblocks
        case refine_4 =>
          have hnil : (u.netq s.th.net s.quad).waiting.filter (· != s.th.tid) = [] := by
            have hone : (u.netq s.th.net s.quad).waiting = [s.th.tid] := hline
            rw [hone]
            simp
          have htid : (u.ctx s.cur).tid = s.th.tid := by rw [fault_ctx hu]; rfl
          refine (congrArg NetQuad.waiting hnetq).trans ?_
          rw [redexPool, hnet, htid]
          exact hnil
        case refine_5 =>
          rw [fault_th hu (redexMade_cur ..), redexMade_ctx, hkey, halvedCtx, fault_ctx hu]
          rfl
        case refine_6 =>
          have hdq : u.deque (quadOf s.cur) = s.deque s.quad := by rw [State.deque, State.deque, hu.deques]; rfl
          rw [hrec, hdq] at hdeque
          exact hdeque
        case refine_7 => exact (hwords 0 (by decide)).trans (Nat.mod_eq_of_lt (show 0xFF04000000000018 < 2 ^ 64 by decide))
        case refine_8 => exact (hwords 1 (by decide)).trans (Nat.mod_eq_of_lt (BitVec.isLt _))
        case refine_9 =>
          intro hform
          exact (hwords 2 (by decide)).trans (faultWord_eq _ _ _ (by unfold coreOf; omega) hform)
        case refine_10 => exact (hwords 3 (by decide)).trans (Nat.mod_eq_of_lt (lt_of_lt_of_le (BitVec.isLt _) (by decide)))
        case refine_11 =>
          refine (hwords 4 (by decide)).trans ?_
          simp only [faultWords, List.getElem_cons_succ, List.getElem_cons_zero, NetRec.purseWord, BitVec.toNat_ofNat, Nat.mod_mod]
          exact congrArg (· % 2 ^ 64) (Nat.add_assoc _ _ _).symm
        case refine_12 => exact hwords 5 (by decide)
        case refine_13 => exact hwords 6 (by decide)
        case refine_14 => exact hwords 7 (by decide)
        case refine_15 => exact fault_snapshot hu
    · have hst' : s.net.st ≠ .voiding := (bound_or_parked hst).1
      have hu := faulted_rule { f with pc := s.th.pc } s s.th.net s.quad
      obtain ⟨r, t, hpair⟩ : ∃ r t, hasHandler s.th.net s.quad (parkFault s.cur { f with pc := s.th.pc } s) = (r, t) := ⟨_, _, rfl⟩
      have hr : r = false := by
        have hfst := congrArg Prod.fst hpair
        exact hfst.symm.trans hrule
      subst hr
      rw [hpair] at hu
      have ht : takeFault f s = startVoid s.th.net 2 3 t := faultBerth_of_unhandled hst' hpair
      have hnr : t.netRec s.th.net = s.net := hu.netRec _
      obtain ⟨hending, hvoiding⟩ := startVoid_voids (n := s.th.net) (reason := 2) (kind := 3) (s := t) (by rw [hnr]; exact (bound_or_parked hst).2)
      obtain ⟨hberths, hmgangs, hvgangs, hcur⟩ := same_of_ending (voidMint_rest s.th.net 2 t) hending
      rw [ht]
      refine ⟨fault_same hu (fun o _ => by rw [hberths]) hmgangs hvgangs, hvoiding, ?_, fun hopen => ?_⟩
      · rw [fault_th hu hcur, State.ctx, State.berth, hberths]
        exact fault_ctx hu
      · have hmint : (t.mint s.th.net).st = .opened := by rw [State.mint, hu.mints]; exact hopen
        have hvoid : (startVoid s.th.net 2 3 t).mint s.th.net = (voidMint s.th.net 2 t).mint s.th.net := by
          rw [State.mint, State.mint, mints_of_ending hending]
        rw [hvoid, voidMint_opened hmint]
        exact ⟨rfl, rfl⟩
    · have ht : takeFault f s = discard s.cur (meetDeps s.th.tid s) := faultBerth_of_voiding hst
      rw [ht]
      refine ⟨discard_free _ _, discard_deques _ _, fun hcoin => ?_⟩
      exact discard_msgs (s := meetDeps s.th.tid s) hcoin
  case refine_2 =>
    refine ⟨fun x hx h1 h2 => trap_raises (hx ▸ trapCause_faultCode h1 h2), fun hk => trap_refuses (trapCause_none k hk), dbrk_unarmed,
      fun harmed => ⟨_, dbrk_armed harmed, rfl, ?_, ?_, fun j hj => Tbl.get?_set_ne _ _ hj, fun b hb => ?_⟩, rfl, rfl⟩
    · exact State.th_setTh _ _
    · exact (netq_setNetq s _ _ _ _ _).trans (if_pos rfl)
    · exact State.get?_setTh_ne _ _ hb

end

end Sys2Proof.Machine
end

section
/-!
PROOFS. The invariant of 03 R48 and 06 R108 under changes of the state, and through the operations of memory.
-/

namespace Sys2Proof.Machine
open Sys2Proof Sys2Proof.Say

/-! ### What holds of every value of a table -/

section
variable {α : Type} {P : α → Prop} {t : Tbl α} {k : Nat} {v : α}

theorem Tbl.all_set (h : ∀ e ∈ t, P e.2) (hv : P v) : ∀ e ∈ Tbl.set t k v, P e.2 := fun _ he => by
  rcases Tbl.mem_set he with rfl | he
  · exact hv
  · exact h _ he

theorem Tbl.all_del (h : ∀ e ∈ t, P e.2) : ∀ e ∈ Tbl.del t k, P e.2 := fun _ he => h _ (List.mem_of_mem_filter he)

theorem Tbl.all_map {f : Nat × α → α} (h : ∀ e ∈ t, P (f e)) : ∀ e ∈ t.map (fun e => (e.1, f e)), P e.2 := fun _ he => by
  obtain ⟨e, hmem, rfl⟩ := List.mem_map.1 he
  exact h e hmem

theorem Tbl.all_get? (h : ∀ e ∈ t, P e.2) (hk : Tbl.get? t k = some v) : P v := by
  induction t with
  | nil => cases hk
  | cons e r ih =>
    obtain ⟨j, w⟩ := e
    unfold Tbl.get? at hk
    split at hk
    · exact Option.some.inj hk ▸ h _ List.mem_cons_self
    · exact ih (fun e he => h e (List.mem_cons_of_mem _ he)) hk

theorem Tbl.all_getD {d : α} (h : ∀ e ∈ t, P e.2) (hd : P d) : P (Tbl.getD t k d) := by
  unfold Tbl.getD
  cases hk : Tbl.get? t k with
  | none => exact hd
  | some v => exact Tbl.all_get? h hk

end

/-! ### Register 0 of a thread -/

/-- Register 0 of a thread is zero (03 R48). -/
abbrev Ctx.Zero (c : Ctx) : Prop := c.regs[0] = 0

/-- The members of a vector gang are those of its size but the leader (06 R108). -/
abbrev VGang.Whole (g : VGang) : Prop := g.members.map (·.1) = (List.range g.size).filter (· != g.index)

theorem setReg_zero {r : Vector Word 16} (h : r[0] = 0) (d : Reg) (v : Word) : (setReg r d v)[0] = 0 := by
  unfold setReg
  split
  · exact h
  · rename_i hd
    have hd0 : d.val ≠ 0 := fun h0 => hd (Fin.ext h0)
    exact (Vector.getElem_set_ne d.isLt (by omega) hd0).trans h

theorem setIfInBounds_zero {r : Vector Word 16} (h : r[0] = 0) (i : Nat) : (r.setIfInBounds i 0)[0] = 0 := by
  rw [Vector.getElem_setIfInBounds]
  split
  · rfl
  · exact h

theorem zeroReg_zero {c : Ctx} (h : c.Zero) (r : Nat) : (zeroReg c r).Zero := by
  unfold zeroReg
  split
  · exact setIfInBounds_zero h r
  · split <;> exact h

/-! ### The invariant under changes of the state -/

/-- The threads in berths, resident and evicted, and the vector gangs. -/
def State.threads (s : State) : Tbl Berth × Tbl Ctx × Tbl (List Ctx) × Tbl VGang := (s.berths, s.residents, s.evicted, s.vgangs)

section
variable {s t : State} (h : s.Inv) {b k n p q : Nat} {c : Ctx} {w : Wait}
include h

/-- The invariant speaks of memory, threads and vector gangs alone. -/
protected theorem State.Inv.same (hm : t.mem = s.mem) (ht : t.threads = (s.berths, s.residents, s.evicted, s.vgangs)) : t.Inv := by
  simp only [State.threads, Prod.mk.injEq] at ht
  obtain ⟨hb, hr, he, hg⟩ := ht
  exact ⟨hm ▸ h.memory, hb ▸ h.held, hr ▸ h.resident, he ▸ h.evicted, hg ▸ h.gangs⟩

protected theorem State.Inv.setMem {m : List Host.Cell} (hm : Memory.wf m = true) : ({ s with mem := m } : State).Inv :=
  ⟨hm, h.held, h.resident, h.evicted, h.gangs⟩

protected theorem State.Inv.setBerths {l : Tbl Berth} (hl : ∀ e ∈ l, e.2.ctx.Zero) : ({ s with berths := l } : State).Inv :=
  ⟨h.memory, hl, h.resident, h.evicted, h.gangs⟩

protected theorem State.Inv.setResidents {l : Tbl Ctx} (hl : ∀ e ∈ l, e.2.Zero) : ({ s with residents := l } : State).Inv :=
  ⟨h.memory, h.held, hl, h.evicted, h.gangs⟩

protected theorem State.Inv.setEvicted {l : Tbl (List Ctx)} (hl : ∀ e ∈ l, ∀ c ∈ e.2, c.Zero) : ({ s with evicted := l } : State).Inv :=
  ⟨h.memory, h.held, h.resident, hl, h.gangs⟩

protected theorem State.Inv.setVgangs {l : Tbl VGang} (hl : ∀ e ∈ l, e.2.Whole) : ({ s with vgangs := l } : State).Inv :=
  ⟨h.memory, h.held, h.resident, h.evicted, hl⟩

/-- A change of memory alone keeps the invariant where it keeps memory canonical. -/
protected theorem State.Inv.sameThreads (hm : Memory.wf t.mem = true) (ht : t.threads = (s.berths, s.residents, s.evicted, s.vgangs)) : t.Inv :=
  (h.setMem hm).same rfl ht

protected theorem State.Inv.berth : (s.berth b).ctx.Zero := Tbl.all_getD (P := fun x : Berth => x.ctx.Zero) h.held rfl

protected theorem State.Inv.ctx : (s.ctx b).Zero := h.berth

protected theorem State.Inv.th : s.th.Zero := h.ctx

protected theorem State.Inv.resident_of (hk : Tbl.get? s.residents b = some c) : c.Zero := Tbl.all_get? h.resident hk

protected theorem State.Inv.evictedOf : ∀ c ∈ Tbl.getD s.evicted k [], c.Zero :=
  Tbl.all_getD (P := fun l : List Ctx => ∀ c ∈ l, c.Zero) h.evicted fun _ hc => nomatch hc

protected theorem State.Inv.setBerth {x : Berth} (hx : x.ctx.Zero) : (s.setBerth b x).Inv :=
  h.setBerths (Tbl.all_set (P := fun x : Berth => x.ctx.Zero) h.held hx)

protected theorem State.Inv.delBerth : ({ s with berths := Tbl.del s.berths b } : State).Inv :=
  h.setBerths (Tbl.all_del (P := fun x : Berth => x.ctx.Zero) h.held)

protected theorem State.Inv.setCtx (hc : c.Zero) : (s.setCtx b c).Inv := h.setBerth hc

protected theorem State.Inv.setTh (hc : c.Zero) : (s.setTh c).Inv := h.setCtx hc

/-- Each thread that a berth holds changes, and keeps register 0. -/
protected theorem State.Inv.mapBerths {f : Nat × Berth → Berth} (hf : ∀ e : Nat × Berth, e.2.ctx.Zero → (f e).ctx.Zero) :
    ({ s with berths := s.berths.map (fun e => (e.1, f e)) } : State).Inv :=
  h.setBerths (Tbl.all_map (P := fun x : Berth => x.ctx.Zero) fun e he => hf e (h.held e he))

protected theorem State.Inv.setResident (hc : c.Zero) : ({ s with residents := Tbl.set s.residents b c } : State).Inv :=
  h.setResidents (Tbl.all_set h.resident hc)

protected theorem State.Inv.delResident : ({ s with residents := Tbl.del s.residents b } : State).Inv := h.setResidents (Tbl.all_del h.resident)

protected theorem State.Inv.setEvictedOf {l : List Ctx} (hl : ∀ c ∈ l, c.Zero) : ({ s with evicted := Tbl.set s.evicted k l } : State).Inv :=
  h.setEvicted (Tbl.all_set (P := fun l : List Ctx => ∀ c ∈ l, c.Zero) h.evicted hl)

protected theorem State.Inv.setEvict {l : List Ctx} (hl : ∀ c ∈ l, c.Zero) : (s.setEvict k l).Inv := by
  unfold State.setEvict
  split
  · exact h.setEvicted (Tbl.all_del (P := fun l : List Ctx => ∀ c ∈ l, c.Zero) h.evicted)
  · exact h.setEvictedOf hl

protected theorem State.Inv.setVgang {g : VGang} (hg : g.Whole) : ({ s with vgangs := Tbl.set s.vgangs k g } : State).Inv :=
  h.setVgangs (Tbl.all_set h.gangs hg)

protected theorem State.Inv.delVgang : ({ s with vgangs := Tbl.del s.vgangs k } : State).Inv := h.setVgangs (Tbl.all_del h.gangs)

protected theorem State.Inv.raise : (s.raise b p).Inv :=
  (h.setCtx (b := b) (c := { s.ctx b with pts := max (s.ctx b).pts p }) h.ctx).same rfl rfl

protected theorem State.Inv.leave : (s.leave b w).Inv := h.setBerth h.ctx

protected theorem State.Inv.xw {d : Reg} {v : Word} : (s.xw d v).Inv := h.setTh (setReg_zero h.th d v)

protected theorem State.Inv.pass : (s.pass n).Inv := h.setTh h.th

protected theorem State.Inv.away : s.away.Inv := h.leave

protected theorem State.Inv.awayUnless {l : Bool} : (s.awayUnless l).Inv := by
  unfold State.awayUnless
  split
  · exact h
  · exact h.away

protected theorem State.Inv.vw {d : VIdx} {x : VReg} : (s.vw d x).Inv := h.setTh h.th

protected theorem State.Inv.flag {f : BitVec 5} : (s.flag f).Inv := h.setTh h.th

protected theorem State.Inv.setNetq {x : NetQuad} : (s.setNetq n q x).Inv := h.same rfl rfl

protected theorem State.Inv.setDeque {l : List Rec} : (s.setDeque q l).Inv := h.same rfl rfl

protected theorem State.Inv.setSpill {l : List (Nat × List Rec)} : (s.setSpill q l).Inv := h.same rfl rfl

protected theorem State.Inv.setArrQ {l : List Context} : (s.setArrQ q l).Inv := h.same rfl rfl

protected theorem State.Inv.setArrS {l : List Context} : (s.setArrS q l).Inv := h.same rfl rfl

/-- A step of a fold keeps the invariant, so the fold does. -/
protected theorem State.Inv.foldl {α : Type} {f : State → α → State} (hf : ∀ s x, s.Inv → (f s x).Inv) (l : List α) : (l.foldl f s).Inv := by
  induction l generalizing s with
  | nil => exact h
  | cons x l ih => exact ih (hf s x h)

end

/-! ### The operations of memory -/

section
variable {s : State} (h : s.Inv) {b d i k l n p q x : Nat} {bs : List Byte}
include h

protected theorem State.Inv.setLines {l : Tbl LineTime} : ({ s with lines := l } : State).Inv := h.same rfl rfl

protected theorem State.Inv.setCopies {l : List Copy} : ({ s with copies := l } : State).Inv := h.same rfl rfl

protected theorem State.Inv.setPoison {l : List Nat} : ({ s with poison := l } : State).Inv := h.same rfl rfl

protected theorem State.Inv.choice : (choice s n).2.Inv := by
  unfold Machine.choice
  split <;> exact h.same rfl rfl

protected theorem State.Inv.count : (count d i n s).Inv := h.same rfl rfl

protected theorem State.Inv.walked : (walked q s).Inv := h.count

protected theorem State.Inv.parted : (parted k n s).Inv := by
  unfold parted
  split
  · refine h.mapBerths fun e he => ?_
    split <;> exact he
  · exact h

protected theorem State.Inv.clearPoison : (clearPoison s k n).Inv := by
  unfold clearPoison
  split <;> exact h.same rfl rfl

protected theorem State.Inv.rehash : (rehash q p s).Inv := h.same rfl rfl

protected theorem State.Inv.hwRequest : (hwRequest q p s).Inv := by
  unfold hwRequest
  split
  · exact h.rehash
  · exact h

protected theorem State.Inv.tlbFill {c : Bool} {e : TlbEnt} : (tlbFill s c q e).Inv := h.same rfl rfl

protected theorem State.Inv.settleWhere {f : Nat → Bool} : (settleWhere s f).Inv := by
  rw [settleWhere_rest]
  exact h.sameThreads (settleWhere_wf f h.memory) rfl

protected theorem State.Inv.settleLine : (settleLine s l).Inv := h.settleWhere

protected theorem State.Inv.publishWhere {f : Nat → Bool} : (publishWhere s n f).Inv := h.settleWhere

protected theorem State.Inv.publish {sc : Scope} : (publish sc s).Inv := by
  have hpub := h.publishWhere (n := s.th.tid)
    (f := fun x => match sc with | .quad => x == clusterOf s.quad | .die => x / 256 == clusterOf s.quad / 256 | .module => true | .system => true)
  exact hpub.setTh hpub.th

protected theorem State.Inv.acquireAt : (acquireAt b s).Inv := h.raise

protected theorem State.Inv.acquire : (acquire s).Inv := h.acquireAt

protected theorem State.Inv.setPurseTime : (setPurseTime s k n p).Inv := h.same rfl rfl

protected theorem State.Inv.writeTime : (writeTime s l p).2.Inv := h.same rfl rfl

protected theorem State.Inv.findCopy : (findCopy s q l p).2.Inv := by
  unfold findCopy
  split
  · exact h
  · exact h
  · exact h.choice

protected theorem State.Inv.installCopy {g : Bool} : (installCopy s q l p g).Inv := h.same rfl rfl

protected theorem State.Inv.grant {own : Bool} : (grant s q l p own).Inv := by
  have hchoice := (h.parted (k := 256 * l) (n := 256)).choice (n := 64)
  unfold grant
  generalize Machine.choice (Machine.parted (256 * l) 256 s) 64 = c at hchoice
  have hsettle : (if own && c.1 / 32 == 1 then Machine.settleLine c.2 l else c.2).Inv := by
    split
    · exact hchoice.settleLine
    · exact hchoice
  dsimp only
  split
  · exact hsettle.same rfl rfl
  · exact hsettle.setLines.installCopy

protected theorem State.Inv.cacheLoad {tid : Option Nat} : (cacheLoad q p tid k n s).2.2.Inv := by
  have hfind := h.findCopy (q := q) (l := k / 256) (p := p)
  unfold cacheLoad
  dsimp only
  split
  · rename_i hc
    rwa [hc] at hfind
  · rename_i u hc
    rw [hc] at hfind
    refine State.Inv.grant ?_
    split
    · exact hfind.settleLine
    · exact hfind

protected theorem State.Inv.clrLoad : (clrLoad k n s).2.Inv := by
  unfold clrLoad
  split
  · exact h.setPurseTime.raise
  · exact h.cacheLoad.raise

protected theorem State.Inv.homeLoad : (homeLoad k n s).2.Inv := h.setCopies.clrLoad

protected theorem State.Inv.clrLoads (ks : List (Nat × Nat)) : (clrLoads ks s).2.Inv := by
  induction ks generalizing s with
  | nil => exact h
  | cons k ks ih => exact ih h.clrLoad

protected theorem State.Inv.memWrite : ({ s with mem := memWrite s.mem k bs } : State).Inv := h.setMem (memWrite_wf bs k h.memory)

protected theorem State.Inv.clrStore : (clrStore k bs s).Inv := by
  unfold clrStore
  split
  · exact h.setPurseTime.memWrite.clearPoison.raise
  · have hlater := (h.writeTime (l := k / 256) (p := s.now)).same
      (t := { (writeTime s (k / 256) s.now).2 with
        stores := s.stores ++ [({ tid := s.th.tid, addr := k, bytes := bs, wts := (writeTime s (k / 256) s.now).1 } : Store)] }) rfl rfl
    have htouched := hlater.setTh (c := { s.th with touched := s.th.touched.add (homeOf s k) }) h.th
    dsimp only
    refine State.Inv.raise ?_
    split
    · exact htouched.settleLine.clearPoison
    · exact htouched

protected theorem State.Inv.clrStores (ks : List (Nat × Nat)) : (clrStores s ks bs).Inv := by
  induction ks generalizing s bs with
  | nil => exact h
  | cons k ks ih => exact ih h.clrStore

protected theorem State.Inv.clrRmw {f : List Byte → Option (List Byte)} : (clrRmw k n f s).2.Inv := by
  have hsettled : (if isPurse k then s else settleLine s (k / 256)).Inv := by
    split
    · exact h
    · exact h.settleLine
  unfold clrRmw
  dsimp only
  generalize (if isPurse k then s else settleLine s (k / 256)) = u at hsettled
  refine State.Inv.raise ?_
  have htime : (if isPurse k then (purseTime u k n u.now, setPurseTime u k n (purseTime u k n u.now)) else writeTime u (k / 256) u.now).2.Inv := by
    split
    · exact hsettled.setPurseTime
    · exact hsettled.writeTime
  split
  · exact htime.memWrite
  · exact htime

protected theorem State.Inv.setEmpty : (setEmpty s k).Inv := h.same rfl rfl

protected theorem State.Inv.serve {r : ParkReq} : (serve s r).Inv := by
  unfold serve
  split
  · exact h.setCtx h.ctx
  · have hraised := ((h.setPurseTime (k := r.key) (n := r.n)
      (p := purseTime s r.key r.n (max (s.ctx r.berth).pts s.T))).raise (b := r.berth)
        (p := purseTime s r.key r.n (max (s.ctx r.berth).pts s.T))).acquireAt (b := r.berth)
    dsimp only
    split
    · exact (hraised.setCtx (setReg_zero hraised.ctx _ _)).setEmpty
    · exact hraised.setCtx (setReg_zero hraised.ctx _ _)

protected theorem State.Inv.serveList {g : Nat} (l : List ParkReq) : (serveList s g l).2.Inv := by
  induction l generalizing s with
  | nil => exact h
  | cons r l ih =>
    unfold serveList
    split
    · exact ih h
    · split
      · exact h.serve
      · exact ih h.serve

protected theorem State.Inv.fillGranule {g : Nat} : (fillGranule s g).Inv := by
  have hfull : ({ s with empties := s.empties.filter (· != g) } : State).Inv := h.same rfl rfl
  unfold fillGranule
  dsimp only
  split
  · exact hfull
  · exact (hfull.serveList _).same rfl rfl

protected theorem State.Inv.fillGranules {gs : List Nat} : (fillGranules s gs).Inv := h.foldl (fun _ _ h => h.fillGranule) gs

protected theorem State.Inv.bankTime : (bankTime p s k n).2.Inv := by
  unfold bankTime
  split
  · exact h.setPurseTime
  · exact h.settleLine.writeTime

protected theorem State.Inv.bankStore : (bankStore p s k bs).2.Inv := (h.bankTime.memWrite).clearPoison

protected theorem State.Inv.arrStore : (arrStore s k bs).Inv := h.bankStore

protected theorem State.Inv.arrWrite : (arrWrite s k bs).Inv := by
  unfold arrWrite
  split
  · exact h.arrStore.fillGranules
  · exact h.arrStore

protected theorem State.Inv.arrWrites (m : Nat) : (arrWrites s k bs m).Inv := by
  induction m generalizing s k bs with
  | zero => exact h
  | succ m ih =>
    unfold arrWrites
    split
    · exact h
    · exact ih h.arrWrite

protected theorem State.Inv.hwWrite : (hwWrite s k bs).Inv := h.arrStore

end

end Sys2Proof.Machine
end

section
/-!
PROOFS. The invariant through the operations that instructions and steps share: accesses, coins, records, the end of a thread, faults.
-/

namespace Sys2Proof.Machine
open Sys2Proof Sys2Proof.Say

/-! ### The invariant in what an operation answers -/

/-- A run answers, or leaves where it stops, a state that keeps the invariant. -/
abbrev RunInv (r : Run State) : Prop := Ends State.Inv State.Inv r

/-- The same of a run that answers a value beside the state. -/
abbrev ReadInv {α : Type} (r : Run (α × State)) : Prop := Ends State.Inv (fun x => x.2.Inv) r

/-- Q holds of what is answered, if anything is. -/
def Gives {α : Type} (Q : α → Prop) (o : Option α) : Prop := ∀ x, o = some x → Q x

section
variable {α β : Type} {Q : α → Prop} {R : β → Prop} {o : Option α}

theorem gives_none : Gives Q none := fun _ h => nomatch h

theorem Gives.some {x : α} (h : Q x) : Gives Q (some x) := fun _ hx => Option.some.inj hx ▸ h

theorem Gives.of_some {x : α} (h : Gives Q o) (hx : o = .some x) : Q x := h x hx

theorem Gives.map {f : α → β} (h : Gives Q o) (hf : ∀ x, Q x → R (f x)) : Gives R (o.map f) := by
  cases o with
  | none => exact gives_none
  | some x => exact .some (hf x (h x rfl))

theorem Gives.ite {c : Prop} [Decidable c] {o' : Option α} (h : c → Gives Q o) (h' : ¬c → Gives Q o') : Gives Q (if c then o else o') := by
  split
  · exact h ‹_›
  · exact h' ‹_›

theorem Gives.getD {x : α} (h : Gives Q o) (hx : Q x) : Q (o.getD x) := by
  cases o with
  | none => exact hx
  | some y => exact h y rfl

end

/-- An operation answers no state, or one that keeps the invariant. -/
abbrev OptInv (o : Option State) : Prop := Gives State.Inv o

/-! ### The checks of an access -/

section
variable {s : State} (h : s.Inv) {b d i k l n p q x : Nat} {bs : List Byte}
include h

protected theorem State.Inv.ite {c : Prop} [Decidable c] {t : State} (ht : t.Inv) : (if c then s else t).Inv := by
  split
  · exact h
  · exact ht

protected theorem State.Inv.foldl_parted (l : List Nat) : (l.foldl (fun s a => parted a n s) s).Inv := h.foldl (fun _ _ h => h.parted) l

protected theorem State.Inv.translation {va : Nat} {e : TlbEnt} {u : State} (htr : translation s q n va = .ok (e, u)) : u.Inv := by
  rcases translation_cases htr with ⟨-, rfl⟩ | ⟨-, -, rfl⟩ | ⟨-, -, l, rfl⟩
  · exact h
  · exact h.tlbFill
  · exact (h.foldl_parted l).walked.tlbFill.tlbFill

protected theorem State.Inv.translation_error {va : Nat} {c : Cause} {u : State} (htr : translation s q n va = .error (c, u)) : u.Inv := by
  unfold translation at htr
  split at htr
  · cases htr
  · split at htr
    · cases htr
    · dsimp only at htr
      split at htr
      · cases htr
        exact (h.foldl_parted _).walked
      · cases htr

protected theorem State.Inv.globAccess {va : Nat} {nd : Need} : ReadInv (globAccess s q n va k nd) := by
  unfold globAccess
  dsimp only
  split
  · rename_i htr
    exact .stopsAt (h.translation_error htr) (ends_failAt _ _)
  · rename_i htr
    refine .stopsAt (h.translation htr) (.ite (fun _ => ends_failAt _ _) fun _ => ?_)
    refine .ite (fun _ => ends_waitOn _) fun _ => ?_
    split
    · exact ends_failAt _ _
    · exact .ok (h.translation htr)

protected theorem State.Inv.placeOf {aw : Word} {nd : Need} : ReadInv (placeOf s aw n nd) := by
  unfold placeOf
  split
  · exact ends_failAt _ _
  · exact h.globAccess
  · split
    · exact .ok h
    · exact ends_failAt _ _

protected theorem State.Inv.placesOf {nd : Need} (l : List (Word × Nat)) : ReadInv (placesOf nd l s) := by
  induction l generalizing s with
  | nil => exact .ok h
  | cons e l ih =>
    refine .reading h.placeOf fun k t ht => ?_
    have hrest := ih ht
    split
    · rename_i hl
      exact .error (hrest.of_error hl)
    · rename_i hl
      have ht' := hrest.of_ok hl
      exact .ok ht'

protected theorem State.Inv.access {aw : Word} {al unit : Nat} {po ow : Bool} {nd : Need} : ReadInv (access s aw n al po nd ow unit) := by
  unfold access
  split
  · exact ends_failAt _ _
  · refine .ite (fun _ => ends_failAt _ _) fun _ => .ite (fun _ => ends_failAt _ _) fun _ => .reading (h.placesOf _) fun ks t ht => ?_
    refine .ite (fun _ => ends_waitOn _) fun _ => .ite (fun _ => ends_failAt _ _) fun _ => ?_
    split
    · exact ends_waitOn _
    · exact .ok ht

protected theorem State.Inv.access1 {aw : Word} {al : Nat} {po : Bool} {nd : Need} : ReadInv (access1 s aw n al po nd) := by
  have haccess := h.access (aw := aw) (n := n) (al := al) (po := po) (nd := nd) (ow := false) (unit := 64)
  unfold access1
  split
  · rename_i he
    exact .error (haccess.of_error he)
  · rename_i he
    exact .ok (haccess.of_ok he)

/-- What goes on from a load of the issuing thread. -/
protected theorem State.Inv.loading {β : Type} {Q : β → Prop} {f : List Byte → State → Run β} (hf : ∀ l t, t.Inv → Ends State.Inv Q (f l t)) :
    Ends State.Inv Q (loading k n s f) := .stopsAt h.clrLoad (hf _ _ h.clrLoad)

protected theorem State.Inv.loadingAll {β : Type} {Q : β → Prop} {ks : List (Nat × Nat)} {f : List Byte → State → Run β}
    (hf : ∀ l t, t.Inv → Ends State.Inv Q (f l t)) : Ends State.Inv Q (loadingAll ks s f) := .stopsAt (h.clrLoads ks) (hf _ _ (h.clrLoads ks))

/-! ### The journal, mints and coins -/

protected theorem State.Inv.mintRmw {m : Mint} : (s.mintRmw p n m).2.Inv := (h.same (t := { s with mints := Tbl.set s.mints n m }) rfl rfl).bankStore

protected theorem State.Inv.setMint {m : Mint} : (s.setMint n m).Inv := by
  rw [setMint_eq]
  exact h.mintRmw

protected theorem State.Inv.setNet {r : NetRec} : (s.setNet n r).Inv := (h.same (t := { s with nets := Tbl.set s.nets n r }) rfl rfl).hwWrite

protected theorem State.Inv.setJournal {l : List JEntry} : ({ s with journal := l, jseq := n } : State).Inv := h.same rfl rfl

protected theorem State.Inv.journal {e : Event} : (Machine.journal e s).Inv := by
  unfold Machine.journal
  exact h.setJournal.hwWrite

protected theorem State.Inv.noteDry : (noteDry s).Inv := by
  unfold noteDry
  exact h.ite (h.same (t := { s with poolDry := true }) rfl rfl).journal

protected theorem State.Inv.orDry {o : Option State} (ho : OptInv o) : (orDry o s).Inv := by
  unfold orDry
  split
  · exact ho.of_some rfl
  · exact h.noteDry

protected theorem State.Inv.sendReturn {m : Nat} : (sendReturn n m p q s).Inv := by
  unfold sendReturn
  exact h.ite (h.same rfl rfl)

protected theorem State.Inv.mintRequest : (mintRequest q n s).Inv := h.hwRequest

protected theorem State.Inv.mintReturn {m : Nat} : (mintReturn n m p s).Inv := by
  unfold mintReturn
  exact h.ite h.mintRmw

protected theorem State.Inv.mintBorrow? : Gives (fun x => x.2.Inv) (mintBorrow? n p s) := by
  unfold mintBorrow?
  dsimp only
  split
  · exact gives_none
  · exact gives_none
  · exact .some h.count.mintRmw
  · exact .some h.count.mintRmw

protected theorem State.Inv.borrowAt : OptInv (borrowAt b s) := h.mintBorrow?.map fun _ hx => hx.raise

protected theorem State.Inv.coinSplit : ReadInv (coinSplit s) := by
  unfold coinSplit
  refine .ite (fun _ => ends_waitOn _) fun _ => .ok (h.setTh ?_)
  split <;> exact h.th

protected theorem State.Inv.coinSplitAt : Gives (fun x => x.2.Inv) (coinSplitAt b s) := by
  unfold coinSplitAt
  exact .ite (fun _ => h.borrowAt.map fun _ ht => ht.setCtx ht.ctx) fun _ => .some (h.setCtx h.ctx)

/-! ### Redex records and contexts -/

protected theorem State.Inv.writeBlock {l : List Rec} : (writeBlock q n l s).Inv := (h.same (t := { s with poolDry := false }) rfl rfl).hwWrite.count

protected theorem State.Inv.growBlock {l : List Rec} {r : Rec} : (growBlock n l r s).Inv := h.hwWrite.hwWrite.hwWrite

protected theorem State.Inv.pushBlock {l : List Rec} : (pushBlock q l s).Inv := h.writeBlock.setSpill

protected theorem State.Inv.setParkedRec {l : List ParkedBlock} : ({ s with parkedRec := l } : State).Inv := h.same rfl rfl

protected theorem State.Inv.freshParked {r : Rec} : OptInv (pushParked.fresh q r s) := by
  unfold pushParked.fresh
  refine .ite (fun _ => gives_none) fun _ => .some ?_
  exact h.writeBlock.setParkedRec

protected theorem State.Inv.pushParked {r : Rec} : OptInv (pushParked q r s) := by
  unfold pushParked
  split
  · exact .ite (fun _ => .some h.setParkedRec.growBlock) fun _ => h.freshParked
  · exact h.freshParked

protected theorem State.Inv.takeParked {f : Rec → Bool} : (takeParked q f s).2.2.Inv := by
  unfold takeParked
  extract_lets hit good left bs t
  have ht : t.Inv := h.foldl (fun _ _ h => h.hwWrite) bs
  clear_value t
  exact ht.setParkedRec

protected theorem State.Inv.pushRec {r : Rec} : OptInv (pushRec q r s) := by
  unfold pushRec
  refine .ite (fun _ => h.pushParked) fun _ => .ite (fun _ => .some h.setDeque) fun _ => .ite (fun _ => gives_none) fun _ => ?_
  exact .some h.pushBlock.setDeque

protected theorem State.Inv.pushRun {r : Rec} : RunInv (pushRun q r s) := by
  unfold pushRun
  split
  · rename_i hr
    exact .ok (h.pushRec.of_some hr)
  · exact ends_waitOn _

protected theorem State.Inv.summarize : (summarize k n s).Inv := h.hwWrite.hwWrite

protected theorem State.Inv.spillCtx {c : Context} : OptInv (spillCtx k c s) := by
  unfold spillCtx
  dsimp only
  split
  · exact gives_none
  · refine .some (State.Inv.summarize (State.Inv.setArrS (State.Inv.hwWrite ?_)))
    exact (h.same (t := { s with poolDry := false }) rfl rfl).count.ite h

protected theorem State.Inv.arrive {c : Context} : OptInv (arrive k c s) := by
  have hnext : ({ s with nextArr := s.nextArr + 1 } : State).Inv := h.same rfl rfl
  unfold arrive
  dsimp only
  split
  · exact .some hnext.sendReturn
  · exact hnext.spillCtx
  · exact .ite (fun _ => .some hnext.setArrQ) fun _ => hnext.spillCtx

protected theorem State.Inv.allocNode {size : Nat} : Gives (fun x => x.2.Inv) (allocNode n q size s) := by
  unfold allocNode
  dsimp only
  split
  · exact gives_none
  · exact .some (State.Inv.setNetq h.choice)

/-! ### Reads by a quad's hardware -/

protected theorem State.Inv.hwRead {aw : Word} {len : Nat} : ReadInv (hwRead n q p aw len s) := by
  unfold hwRead
  split
  · exact ends_fail _
  · exact .reading h.globAccess fun pa u hu => .ite (fun _ => ends_fail _) fun _ => .ok (State.Inv.cacheLoad (hu.hwRequest.ite hu))
  · split
    · exact ends_fail _
    · exact .ite (fun _ => ends_fail _) fun _ => .ok h.setPurseTime

protected theorem State.Inv.hwTry {aw : Word} {len : Nat} : ReadInv (hwTry n q p aw len s) := by
  have hread := h.hwRead (n := n) (q := q) (p := p) (aw := aw) (len := len)
  unfold hwTry
  split
  · rename_i hr
    exact .ok (hread.of_ok hr)
  · rename_i hr
    exact .ok ((hread.of_error hr).state (s := s) h)
  · rename_i hr
    exact .error (hread.of_error hr)

protected theorem State.Inv.ruleEntry {key : Nat} : ReadInv (ruleEntry n q p key s) := h.hwTry.map fun _ hx => hx

protected theorem State.Inv.hasHandler : (hasHandler n q s).2.Inv := by
  unfold hasHandler
  split
  · rename_i hr
    exact h.ruleEntry.of_ok hr
  · rename_i hr
    exact (h.ruleEntry.of_error hr).state h

/-! ### The end of a gang, of a thread, of a net's work -/

protected theorem State.Inv.endGangs : (endGangs b s).Inv := h.delVgang.same rfl rfl

protected theorem State.Inv.meetDeps : (meetDeps n s).Inv := h.same rfl rfl

protected theorem State.Inv.withdraw : (withdraw b s).Inv := by
  unfold withdraw
  split <;> exact h.same rfl rfl

protected theorem State.Inv.unqueue : (unqueue b s).Inv := by
  unfold unqueue
  exact State.Inv.same (State.Inv.ite (c := (((withdraw b s).netq _ _).waiting.contains _) = true) h.withdraw.setNetq h.withdraw) rfl rfl

protected theorem State.Inv.freeBerth : (freeBerth b s).Inv := h.unqueue.endGangs.meetDeps.delBerth

protected theorem State.Inv.publishAt : (publishAt b s).Inv := h.publishWhere.setCtx h.publishWhere.ctx

protected theorem State.Inv.discard : (discard b s).Inv := h.publishAt.sendReturn.freeBerth

protected theorem State.Inv.dropEngFaults : (dropEngFaults n s).Inv :=
  h.foldl (fun _ _ h => (h.foldl (fun _ _ h => h.sendReturn) _).setNetq) _

protected theorem State.Inv.voidNet {r : BitVec 2} : (voidNet n r s).Inv := by
  unfold voidNet
  refine h.ite ?_
  have hmint : (match (s.mint n).st with
      | .opened => s.setMint n { s.mint n with st := .voiding, reason := r, tick := s.T }
      | .quiet => s.setMint n (wakeAll { s.mint n with st := .voided, reason := r, tick := s.T })
      | _ => s).Inv := by
    split
    · exact h.setMint
    · exact h.setMint
    · exact h
  exact (State.Inv.dropEngFaults (State.Inv.setNet hmint)).same rfl rfl

protected theorem State.Inv.startVoid {r : BitVec 2} : (startVoid n r k s).Inv := by
  unfold startVoid
  exact h.ite h.voidNet.journal

protected theorem State.Inv.forceClose : (forceClose n s).Inv := h.startVoid.setMint

/-! ### Taking a fault -/

omit h in
/-- `pushRec`, held opaque: where a proof takes the cases of its answer, the kernel would otherwise evaluate the record that is pushed. For the same
    reason `makeRedex` below is unfolded at its name, and not where it stands applied. -/
theorem exists_pushRec : ∃ push : Nat → Rec → State → Option State, push = Machine.pushRec ∧ ∀ q r t, t.Inv → OptInv (push q r t) :=
  ⟨_, rfl, fun _ _ _ h => h.pushRec⟩

/-- One fault redex, with what is made after it: `serveEng._f` is the body of the recursion, whose equation costs the kernel too much. -/
protected theorem State.Inv.serveOne {m : Nat} {f : Nat.below (motive := fun _ => State → State) (m + 1)} (hf : ∀ u, u.Inv → (f.1 u).Inv) :
    (serveEng._f n q (m + 1) f s).Inv := by
  obtain ⟨push, hdef, hpush⟩ := exists_pushRec
  obtain ⟨free, hfree⟩ : ∃ g, g = Machine.freeBlock := ⟨_, rfl⟩
  delta serveEng._f
  rw [← hfree, ← hdef]
  dsimp -zeta only
  extract_lets nq nr
  split
  · split
    · exact h
    · extract_lets key u
      have hu : u.Inv := h.hwWrite
      generalize hpushed : push q _ u = o
      cases o with
      | none => exact h.noteDry
      | some v => exact hf _ (State.Inv.setNetq (hpush q _ u hu v hpushed))
  · exact h

protected theorem State.Inv.serveEng (m : Nat) : (serveEng n q m s).Inv := by
  induction m generalizing s with
  | zero => exact h
  | succ m ih =>
    have hrec : ∀ u : State, u.Inv → (Machine.serveEng n q m u).Inv := fun u hu => ih hu
    delta Machine.serveEng at hrec ⊢
    exact h.serveOne hrec

protected theorem State.Inv.makeRedex {f : FaultInfo} : (makeRedex b i f s).Inv := by
  obtain ⟨push, hdef, hpush⟩ := exists_pushRec
  obtain ⟨halve, hdef', hhalve⟩ : ∃ g, g = Machine.coinSplitAt ∧ ∀ b t, t.Inv → Gives (fun x => x.2.Inv) (g b t) :=
    ⟨_, rfl, fun _ _ h => h.coinSplitAt⟩
  have hbody := Eq.refl Machine.makeRedex
  conv at hbody => rhs; delta Machine.makeRedex
  rw [hbody, ← hdef, ← hdef']
  beta_reduce
  extract_lets c q n t key nr snap v w node
  have ht : t.Inv := h.mintRequest.ite h
  have hw : w.Inv := ht.hwWrite.hwWrite
  have hhalf := hhalve b w hw
  generalize halve b w = o at hhalf ⊢
  cases o with
  | none => exact ht.discard
  | some x =>
    obtain ⟨coin, y⟩ := x
    have hy : y.Inv := hhalf _ rfl
    dsimp -zeta only
    generalize hpushed : push _ _ y = o
    cases o with
    | none => exact ht.noteDry
    | some z =>
      have hz : z.Inv := hpush _ _ y hy z hpushed
      exact hz.setNetq.setCtx hz.ctx

protected theorem State.Inv.faultRedexAt : (faultRedexAt b s).Inv := by
  unfold faultRedexAt
  split
  · exact h.hasHandler.makeRedex.ite h.hasHandler.startVoid
  · exact h

protected theorem State.Inv.parkFault {f : FaultInfo} : (parkFault b f s).Inv := by
  obtain ⟨u, hu, -, heq⟩ := parkFault_eq b f s
  have hended : u.Inv := by
    rw [hu]
    exact h.same rfl rfl
  rw [heq]
  refine State.Inv.leave (hended.endGangs.setCtx ?_)
  exact h.ctx

protected theorem State.Inv.faultBerth {f : FaultInfo} : (faultBerth b f s).Inv := by
  have hrule := (h.parkFault (b := b) (f := f)).hasHandler (n := (s.ctx b).net) (q := quadOf b)
  unfold faultBerth
  refine h.meetDeps.discard.ite (State.Inv.ite ?_ hrule.startVoid)
  dsimp only
  split
  · exact hrule.setNetq
  · exact hrule.setNetq.makeRedex

protected theorem State.Inv.takeFault {f : FaultInfo} : (takeFault f s).Inv := h.faultBerth

protected theorem State.Inv.stopWith {e : Stop} : (stopWith e s).Inv := by
  unfold stopWith
  split
  · exact h.takeFault
  · exact (h.noteDry.ite h).leave

end

/-! ### What a meaning answers -/

/-- The state that a meaning answers, if any, keeps the invariant. -/
def Lands (o : Result) : Prop := ∀ t, o = .next t → t.Inv

theorem lands_next {t : State} (h : t.Inv) : Lands (.next t) := fun _ ht => Host.Outcome.next.inj ht ▸ h

theorem lands_finish {s : State} (h : s.Inv) {r : Run State} (hr : RunInv r) : Lands (finish s r) := by
  cases r with
  | ok t => exact lands_next hr
  | error e => exact lands_next (Stop.Leaves.state hr h).stopWith

theorem Lands.ite {c : Prop} [Decidable c] {r r' : Result} (h : Lands r) (h' : Lands r') : Lands (if c then r else r') := by
  split
  · exact h
  · exact h'

end Sys2Proof.Machine
end

section
/-!
PROOFS. The invariant at the end of a thread, in saved threads, and through fetches and the choice of a berth.
-/

namespace Sys2Proof.Machine
open Sys2Proof Sys2Proof.Say

/-! ### The invariant at the end of a thread (15 R269, 17 R303) -/

section
variable {s t : State} (h : s.Inv) {b d i k n p q x : Nat} {c : Ctx} {w : Word}
include h

protected theorem State.Inv.rangeGranule : ReadInv (rangeGranule s w) := h.access1

protected theorem State.Inv.settleRange : RunInv (settleRange s) := by
  unfold settleRange
  split
  · exact .ok h
  · refine .reading h.rangeGranule fun k u hu => hu.loading fun g u hu => .ite (fun _ => ?_) fun _ => .ok (hu.setTh hu.th)
    exact .bind hu.coinSplit fun x hx => .bind hx.pushRun fun v hv => .ok (hv.setTh hv.th)

protected theorem State.Inv.endThread : RunInv (endThread s) := h.settleRange.map fun _ ht => ht.publishAt.sendReturn.freeBerth

protected theorem State.Inv.granted : (granted b s).Inv := h.setCtx h.ctx

protected theorem State.Inv.setCur : ({ s with cur := b } : State).Inv := h.same rfl rfl

/-- One try, with what the tries after it do: `endTries._f` is the body of the recursion, whose equation costs the kernel too much. -/
protected theorem State.Inv.endTry {m : Nat} {f : Nat.below (motive := fun _ => State → Run State) (m + 1)}
    (hf : ∀ u, u.Inv → RunInv (f.1 u)) : RunInv (endTries._f b (m + 1) f s) := by
  have hend := (h.setCur (b := b)).endThread
  unfold endTries._f
  dsimp -zeta only
  generalize endThread { s with cur := b } = r at hend
  cases r with
  | ok t => exact .ok (State.Inv.setCur hend)
  | error e =>
    dsimp -zeta only
    extract_lets left t u
    have hleft : left.Inv := Stop.Leaves.state hend h.setCur
    clear_value left
    have ht : t.Inv := hleft.setCur
    clear_value t
    have hu : u.Inv := ht.mintRequest
    clear_value u
    cases e with
    | fault f l => exact .ok ht.discard
    | wait w l =>
      cases w with
      | borrow =>
        have hborrow := hu.borrowAt (b := b)
        generalize Machine.borrowAt b u = o at hborrow
        cases o with
        | none => exact .ok hu.discard
        | some v => exact hf _ (hborrow v rfl).granted
      | rehomed pa => exact hf _ ht.rehash
      | _ => exact .error (Stop.leaves_leaving _ ht)

protected theorem State.Inv.endTries (m : Nat) : RunInv (endTries b m s) := by
  induction m generalizing s with
  | zero => exact ends_waitOn _
  | succ m ih =>
    have hrec : ∀ u : State, u.Inv → RunInv (endTries b m u) := fun u hu => ih hu
    delta endTries at hrec ⊢
    exact h.endTry hrec

protected theorem State.Inv.endThreadAt : RunInv (endThreadAt b s) := h.endTries 3

/-! ### Coins that can no longer be read where they stood (14 R258) -/

protected theorem State.Inv.leaveSaved : (leaveSaved c s).Inv := h.publishWhere.meetDeps

protected theorem State.Inv.setNextCmd : ({ s with nextCmd := n } : State).Inv := h.same rfl rfl

protected theorem State.Inv.coinFault {m : Nat} {cls : BitVec 2} : (coinFault n q m cls p s).Inv := by
  have hrule := h.hasHandler (n := n) (q := q)
  unfold coinFault
  generalize Machine.hasHandler n q s = u at hrule
  obtain ⟨handled, u⟩ := u
  refine h.sendReturn.ite ?_
  refine State.Inv.ite (State.Inv.sendReturn (State.Inv.startVoid hrule)) (State.Inv.ite ?_ ?_)
  · exact (State.Inv.setNextCmd hrule).setNetq.serveEng 4
  · extract_lets v
    have hv : v.Inv := State.Inv.mintRequest hrule
    clear_value v
    have hborrow := hv.mintBorrow? (n := n) (p := max p v.T)
    generalize Machine.mintBorrow? n (max p v.T) v = o at hborrow
    cases o with
    | none => exact hv
    | some x => exact (State.Inv.setNextCmd (hborrow x rfl)).setNetq.serveEng 4

protected theorem State.Inv.coinLost : (coinLost n s).Inv := h.journal.forceClose

protected theorem State.Inv.coinGone {m : Nat} {cls : BitVec 2} {v : Bool} : (coinGone n q m cls p v s).Inv := by
  unfold coinGone
  exact h.coinFault.ite h.coinLost

protected theorem State.Inv.recordGone {u : State} : (recordGone q c u s).Inv := h.leaveSaved.coinGone

/-! ### Seats of saved threads (17 R303 R306) -/

protected theorem State.Inv.seatCtx {x : Seat} : (seatCtx s x).Zero := by
  cases x with
  | berth b => exact h.ctx
  | resident b => exact Tbl.all_getD (P := Ctx.Zero) h.resident rfl
  | evicted core i =>
    show ((Tbl.getD s.evicted core []).getD i {}).Zero
    rw [List.getD_eq_getElem?_getD]
    cases hi : (Tbl.getD s.evicted core [])[i]? with
    | none => rfl
    | some c => exact h.evictedOf c (List.mem_of_getElem? hi)

protected theorem State.Inv.setSeat {x : Seat} (hc : c.Zero) : (setSeat s c x).Inv := by
  cases x with
  | berth b => exact h.setCtx hc
  | resident b => exact h.setResident hc
  | evicted core i =>
    refine h.setEvictedOf fun e he => ?_
    rcases List.mem_or_eq_of_mem_set he with he | rfl
    · exact h.evictedOf e he
    · exact hc

protected theorem State.Inv.unseat {x : Seat} : (unseat s x).Inv := by
  cases x with
  | berth b => exact h
  | resident b => exact h.delResident
  | evicted core i => exact h.setEvictedOf fun e he => h.evictedOf e (List.mem_of_mem_eraseIdx he)

/-- The berth's present thread and the gangs of s are put back into a state that keeps the invariant. -/
protected theorem State.Inv.setGangs {t : State} (ht : t.Inv) : ({ t with mgangs := s.mgangs, vgangs := s.vgangs, assays := s.assays } : State).Inv :=
  (ht.setVgangs h.gangs).same rfl rfl

protected theorem State.Inv.putBack {t : State} (ht : t.Inv) : (match Tbl.get? s.berths b with
    | some y => ({ t with mgangs := s.mgangs, vgangs := s.vgangs, assays := s.assays } : State).setBerth b y
    | none => { ({ t with mgangs := s.mgangs, vgangs := s.vgangs, assays := s.assays } : State) with
        berths := Tbl.del ({ t with mgangs := s.mgangs, vgangs := s.vgangs, assays := s.assays } : State).berths b }).Inv := by
  split
  · rename_i hy
    exact (h.setGangs ht).setBerth (Tbl.all_get? (P := fun x : Berth => x.ctx.Zero) h.held hy)
  · exact (h.setGangs ht).delBerth

protected theorem State.Inv.endSaved {x : Seat} : RunInv (endSaved b x s) := by
  have hplaced := h.unseat (x := x)
  have hplaced := hplaced.setBerth (b := b) (x := { ctx := seatCtx s x }) h.seatCtx
  have hend := hplaced.endThreadAt (b := b)
  unfold endSaved
  dsimp only
  split
  · rename_i ht
    exact .ok (h.putBack (hend.of_ok ht))
  · rename_i he
    have hleft := (hend.of_error he).state hplaced
    exact .error (Stop.leaves_leaving _ ((((h.putBack hleft).setResidents h.resident).setEvicted h.evicted).setSeat hleft.ctx))

protected theorem State.Inv.dropSeat {x : Seat} : RunInv (dropSeat s x) := by
  cases x with
  | berth b => exact h.endThreadAt
  | resident b => exact h.endSaved
  | evicted core i => exact .ite (fun _ => .ok h.unseat.recordGone) fun _ => h.endSaved

end

/-- The registers that a record brings leave register 0 zero. -/
theorem reloadCtx_zero {c u : Ctx} {l : List Byte} (hu : reloadCtx c l = some u) : u.Zero := by
  unfold reloadCtx at hu
  split at hu
  · rw [← Option.some.inj hu]
    exact Vector.getElem_ofFn _
  · cases hu

/-! ### Fetching, annulling and the choice of a berth -/

section
variable {s : State} (h : s.Inv) {b d i k n p q x : Nat}
include h

protected theorem State.Inv.icFill : (icFill s q p n).Inv := h.same rfl rfl

protected theorem State.Inv.fetchSettles : (fetchSettles p s).Inv := by
  unfold fetchSettles
  exact State.Inv.ite (h.choice.ite h.choice.settleLine) h

protected theorem State.Inv.fetched : (fetchSettles p (parted p n (hwRequest q p s))).Inv := h.hwRequest.parted.fetchSettles

protected theorem State.Inv.fetchWord_ok {va : Nat} {w : Nat} {u : State} (hw : fetchWord s b va = .ok (w, u)) : u.Inv := by
  unfold fetchWord at hw
  dsimp only at hw
  split at hw
  · cases hw
  · rename_i htr
    have ht := h.translation htr
    split at hw
    · cases hw
    · split at hw
      · cases hw
      · split at hw
        · cases hw
          exact ht
        · split at hw
          · cases hw
          · exact (Prod.mk.inj (Except.ok.inj hw)).2 ▸ ht.fetched.icFill

protected theorem State.Inv.fetchWord_error {va : Nat} {c : Cause} {u : State} (hw : fetchWord s b va = .error (c, u)) : u.Inv := by
  unfold fetchWord at hw
  dsimp only at hw
  split at hw
  · rename_i htr
    cases hw
    exact h.translation_error htr
  · rename_i htr
    have ht := h.translation htr
    split at hw
    · cases hw
      exact ht
    · split at hw
      · cases hw
        exact ht
      · split at hw
        · cases hw
        · split at hw
          · cases hw
            exact ht
          · cases hw

protected theorem State.Inv.annul (m : Nat) {pc : BitVec 56} : (annul s b m pc).2.2.Inv := by
  induction m generalizing s pc with
  | zero => exact h
  | succ m ih =>
    unfold annul
    split
    · rename_i hw
      exact h.fetchWord_error hw
    · rename_i hw
      dsimp only
      split
      · exact h.fetchWord_ok hw
      · exact ih (h.fetchWord_ok hw)

protected theorem State.Inv.compare {holds : Bool} {skip : BitVec 2} : (compare holds skip n s).Inv := by
  have hpass := h.pass (n := n)
  cases holds with
  | false => exact hpass
  | true =>
    have hannul := hpass.annul (b := (s.pass n).cur) skip.toNat (pc := (s.pass n).th.pc)
    unfold compare
    extract_lets u r c v
    have hr : r.2.2.Inv := hannul
    clear_value r
    have hv : v.Inv := hr.setTh hr.th
    exact State.Inv.ite hv.leave hv

/-! ### Time, and a core's slot -/

protected theorem State.Inv.tick : (tick n s).Inv := by
  have hmap : ∀ (f : Nat × Berth → Bool) (w : Nat × Berth → Nat),
      ({ s with berths := s.berths.map (fun e => (e.1, if f e then { e.2 with ctx := { e.2.ctx with waited := w e } } else e.2)) } : State).Inv :=
    fun f w => h.mapBerths fun e he => by
      split <;> exact he
  exact (hmap _ _).same rfl rfl

protected theorem State.Inv.loseTurn {lone : Bool} : (loseTurn s b lone).Inv := by
  unfold loseTurn
  split
  · exact h.setBerth h.ctx
  · exact h

protected theorem State.Inv.setServed {l : Tbl Nat} : ({ s with served := l } : State).Inv := h.same rfl rfl

protected theorem State.Inv.setBubbles {l : Tbl Nat} : ({ s with bubbles := l } : State).Inv := h.same rfl rfl

protected theorem State.Inv.setIssued {l : Tbl Nat} : ({ s with lastIssue := l, cur := b } : State).Inv := h.same rfl rfl

protected theorem State.Inv.slotOf {hold : Bool} : (slotOf s k hold).2.Inv := by
  unfold slotOf
  dsimp only
  split
  · exact h
  · split
    · exact h.setServed
    · split
      · exact h
      · split
        · exact h.setServed.loseTurn.setBubbles.count.setBerth (by exact h.ctx)
        · exact (h.setServed.loseTurn.setBerth (by exact h.ctx)).setIssued

end

end Sys2Proof.Machine
end

section
/-!
PROOFS. The invariant through vector instructions and accesses to memory (05, 11).
-/

namespace Sys2Proof.Machine
open Sys2Proof Sys2Proof.Say

/-! ### Vector instructions keep a gang's members (05 R104, 06 R108) -/

/-- A vector instruction changes the members' registers alone. -/
theorem runMembers_indices {f : Vector VReg 8 → VRun} {l r : List (Nat × Nat × Vector VReg 8)} {fl : Flags} (h : runMembers f l = some (r, fl)) :
    r.map (·.1) = l.map (·.1) := by
  induction l generalizing r fl with
  | nil =>
    cases h
    rfl
  | cons e l ih =>
    unfold runMembers at h
    split at h
    · rename_i hl
      cases h
      simp only [List.map_cons, ih hl]
    · cases h

section
variable {s : State} (h : s.Inv) {b d i k n p q x : Nat} {bs : List Byte} {aw : Word}
include h

protected theorem State.Inv.gang {g : VGang} (hg : Tbl.get? s.vgangs k = some g) : g.Whole := Tbl.all_get? h.gangs hg

protected theorem State.Inv.setVecs {v : Vector VReg 8} {ms : List (Nat × Nat × Vector VReg 8)} (hms : ms.map (·.1) = (gangMembers s).map (·.1)) :
    (s.setVecs v ms).Inv := by
  have hth : (s.setTh { s.th with vecs := v }).Inv := h.setTh h.th
  unfold gangMembers at hms
  unfold State.setVecs
  dsimp only
  split
  · exact hth
  · rename_i g hg
    have hget : Tbl.get? s.vgangs s.cur = some g := hg
    rw [hget] at hms
    exact hth.setVgang (hms.trans (h.gang hget))

protected theorem State.Inv.vecRun {f : Vector VReg 8 → VRun} : RunInv (vecRun f s) := by
  unfold vecRun
  split
  · rename_i hb
    exact (ends_need _ _).of_error hb
  · split
    · rename_i hms
      exact .ok (h.setVecs (runMembers_indices hms)).flag.pass
    · exact ends_fail _

theorem lands_vecOp {f : Vector VReg 8 → VRun} : Lands (vecOp f s) := lands_finish h h.vecRun

/-! ### Loads and stores (11 R191 R192, 05 R100) -/

protected theorem State.Inv.loadRun {len : Nat} {d : Reg} {z : Size} {g : Bool} : RunInv (loadRun len d z g aw s) := by
  have haccess := h.access1 (aw := aw) (n := sizeBytes z) (al := sizeBytes z) (po := false) (nd := needR)
  rw [loadRun]
  generalize Machine.access1 s aw _ _ _ _ = r at haccess
  cases r with
  | error e => exact haccess
  | ok x => exact .ok (State.Inv.clrLoad haccess).xw.pass.awayUnless

protected theorem State.Inv.storeRun {len : Nat} {d : Reg} {z : Size} : RunInv (storeRun len d z aw s) := by
  have haccess := h.access1 (aw := aw) (n := sizeBytes z) (al := sizeBytes z) (po := false) (nd := needW)
  rw [storeRun]
  generalize Machine.access1 s aw _ _ _ _ = r at haccess
  cases r with
  | error e => exact haccess
  | ok x => exact .ok (State.Inv.clrStore haccess).pass.awayUnless

protected theorem State.Inv.memberAccess {nd : Need} {owr : Bool} (l : List (Nat × Option Nat)) : ReadInv (memberAccess aw nd owr l s) := by
  induction l generalizing s with
  | nil => exact .ok h
  | cons e l ih =>
    rw [memberAccess]
    refine .reading h.access fun ks t ht => ?_
    have hrest := ih ht
    generalize Machine.memberAccess aw nd owr l t = r at hrest
    cases r with
    | error e => exact hrest
    | ok x => exact hrest

protected theorem State.Inv.setMember {who : Option Nat} {d : VIdx} {x : VReg} : (setMember s who d x).Inv := by
  unfold setMember
  split
  · rename_i m g hg
    have hwhole := h.gang hg
    refine h.setVgang (Eq.trans ?_ hwhole)
    rw [List.map_map]
    refine List.map_congr_left fun e _ => ?_
    show (if e.1 = m then (e.1, e.2.1, e.2.2.set d x) else e).1 = e.1
    split <;> rfl
  · exact h.vw

protected theorem State.Inv.loadMembers {d : VIdx} {t : Tag} (l : List (Option Nat × Nat)) : (loadMembers d t s l).Inv := by
  induction l generalizing s with
  | nil => exact h
  | cons e l ih => exact ih h.clrLoad.setMember

protected theorem State.Inv.storeMembers {d : VIdx} (l : List (Option Nat × Nat)) : (storeMembers d s l).Inv := by
  induction l generalizing s with
  | nil => exact h
  | cons e l ih => exact ih h.clrStore

protected theorem State.Inv.ldvRun {len : Nat} {d : VIdx} {f : BitVec 3} : RunInv (ldvRun len d f aw s) := by
  have haccess := h.memberAccess (aw := aw) (nd := needR) (owr := false) (memberList s)
  have hbroken := ends_need (P := State.Inv) (!(s.th.broken && s.th.brokenVec)) .gangBroken
  rw [ldvRun, notBrokenVec]
  generalize need _ _ = r at hbroken
  cases r with
  | error e => exact hbroken
  | ok _ =>
    generalize Machine.memberAccess aw _ _ _ s = r at haccess
    cases r with
    | error e => exact haccess
    | ok x => exact .ok (State.Inv.loadMembers haccess _).pass.awayUnless

protected theorem State.Inv.stvRun {len : Nat} {d : VIdx} : RunInv (stvRun len d aw s) := by
  have haccess := h.memberAccess (aw := aw) (nd := needW) (owr := true) (memberList s)
  have hbroken := ends_need (P := State.Inv) (!(s.th.broken && s.th.brokenVec)) .gangBroken
  rw [stvRun, notBrokenVec]
  generalize need _ _ = r at hbroken
  cases r with
  | error e => exact hbroken
  | ok _ =>
    generalize Machine.memberAccess aw _ _ _ s = r at haccess
    cases r with
    | error e => exact haccess
    | ok x => exact .ok (State.Inv.storeMembers haccess _).pass.awayUnless

protected theorem State.Inv.vld2Run {len : Nat} {d : VIdx} {f : BitVec 3} : RunInv (vld2Run len d f aw s) := by
  have haccess := h.access (aw := aw) (n := 64) (al := 32) (po := false) (nd := needR) (ow := false) (unit := 32)
  have hbroken := ends_need (P := State.Inv) (!(s.th.broken && s.th.brokenVec)) .gangBroken
  rw [vld2Run, notBrokenVec]
  refine .ite (fun _ => ends_fail _) fun _ => ?_
  generalize need _ _ = r at hbroken
  cases r with
  | error e => exact hbroken
  | ok _ =>
    generalize Machine.access s aw _ _ _ _ _ _ = r at haccess
    cases r with
    | error e => exact haccess
    | ok x => exact .ok (State.Inv.clrLoads haccess _).vw.vw.pass.awayUnless

/-! ### Full/empty forms (11 R193 to R196) -/

protected theorem State.Inv.touchGranule : (touchGranule k s).Inv := h.setPurseTime.raise

protected theorem State.Inv.setWaits {l : Tbl (List ParkReq)} : ({ s with waits := l } : State).Inv := h.same rfl rfl

protected theorem State.Inv.park {r : ParkReq} : (park r s).Inv := by
  unfold park
  exact State.Inv.ite h.setWaits.leave h.leave

protected theorem State.Inv.waitingLoad {c : Bool} {len : Nat} {d : Reg} {z : Size} {g : Bool} : RunInv (waitingLoad c len d z g aw s) := by
  have haccess := h.access1 (aw := aw) (n := sizeBytes z) (al := sizeBytes z) (po := true) (nd := needRW)
  rw [waitingLoad]
  generalize Machine.access1 s aw _ _ _ _ = r at haccess
  cases r with
  | error e => exact haccess
  | ok x =>
    have hpub : (if c then publish .module x.2 else x.2).Inv := (State.Inv.publish haccess).ite haccess
    refine .ite (fun _ => .ok ?_) fun _ => .ok hpub.park
    exact (hpub.clrLoad.setEmpty.ite hpub.clrLoad).acquire.xw.pass.awayUnless

protected theorem State.Inv.feqRun {len : Nat} {d : Reg} : RunInv (feqRun len d aw s) := by
  have haccess := h.access1 (aw := aw) (n := 1) (al := 1) (po := true) (nd := needR)
  rw [feqRun]
  generalize Machine.access1 s aw _ _ _ _ = r at haccess
  cases r with
  | error e => exact haccess
  | ok x => exact .ok (State.Inv.touchGranule haccess).xw.pass.awayUnless

protected theorem State.Inv.stfRun {len : Nat} {d : Reg} {z : Size} : RunInv (stfRun len d z aw s) := by
  have haccess := h.access1 (aw := aw) (n := sizeBytes z) (al := sizeBytes z) (po := true) (nd := needW)
  rw [stfRun]
  generalize Machine.access1 s aw _ _ _ _ = r at haccess
  cases r with
  | error e => exact haccess
  | ok x => exact .ok (State.Inv.publish haccess).clrStore.fillGranule.pass.awayUnless

protected theorem State.Inv.fezRun {len : Nat} : RunInv (fezRun len aw s) := by
  have haccess := h.access1 (aw := aw) (n := 1) (al := 1) (po := true) (nd := needW)
  rw [fezRun]
  generalize Machine.access1 s aw _ _ _ _ = r at haccess
  cases r with
  | error e => exact haccess
  | ok x => exact .ok (State.Inv.publish haccess).touchGranule.setEmpty.pass.awayUnless

/-! ### Prefetch, atomics and fences (11 R197 to R199, R205 R206) -/

protected theorem State.Inv.prefetch {v : Bool} : (prefetch v aw s).Inv := by
  unfold prefetch
  split
  · rename_i va _
    have haccess := h.globAccess (q := s.quad) (n := s.th.net) (va := va) (k := 1) (nd := needR)
    generalize Machine.globAccess s _ _ va 1 needR = r at haccess
    cases r with
    | error e => exact Stop.Leaves.state haccess h
    | ok x =>
      refine State.Inv.ite haccess ?_
      exact State.Inv.grant ((State.Inv.hwRequest haccess).settleLine.ite (State.Inv.hwRequest haccess))
  · exact h

protected theorem State.Inv.atomicRun {g : Bool} {d : Reg} {f : Nat → Option Nat} : RunInv (atomicRun n g d aw f s) := by
  have haccess := h.access1 (aw := aw) (n := n) (al := n) (po := false) (nd := needRW)
  rw [atomicRun]
  generalize Machine.access1 s aw _ _ _ _ = r at haccess
  cases r with
  | error e => exact haccess
  | ok x => exact .ok (State.Inv.publish haccess).clrRmw.xw.pass.awayUnless

protected theorem State.Inv.combineAdd {t : Nat} : (combineAdd k n t s b).Inv := h.raise.setCtx h.raise.ctx

protected theorem State.Inv.addRehomed {amt : Nat} {d : Reg} : (addRehomed p n amt d s).Inv := by
  unfold addRehomed
  split
  · exact h.leave
  · have hchoice := h.choice (n := (addsWaiting s p n).length + 1)
    generalize Machine.choice s _ = c at hchoice
    obtain ⟨i, u⟩ := c
    dsimp -zeta only
    split
    · exact hchoice.leave
    · exact hchoice.leave.count

protected theorem State.Inv.aaddRun {d : Reg} {amt : Nat} : RunInv (aaddRun n d aw amt s) := by
  have haccess := h.access1 (aw := aw) (n := n) (al := n) (po := false) (nd := needRW)
  rw [aaddRun]
  generalize Machine.access1 s aw _ _ _ _ = r at haccess
  cases r with
  | error e =>
    have hleft : (e.state s).Inv := Stop.Leaves.state haccess h
    cases e with
    | fault f t => exact haccess
    | wait w t =>
      cases w with
      | rehomed pa => exact .ok (State.Inv.publish hleft).addRehomed
      | _ => exact haccess
  | ok x =>
    have hadded := (((State.Inv.publish haccess (sc := .module)).clrRmw (k := x.1) (n := n) (f := addTo n amt)).xw (d := d)
      (v := extend false (clrRmw x.1 n (addTo n amt) (publish .module x.2)).1)).pass (n := 4)
    refine .ite (fun _ => .ok hadded.awayUnless) fun _ => .ite (fun _ => .ok hadded.leave) fun _ => .ok ?_
    exact State.Inv.ite hadded.leave.choice (State.Inv.count (hadded.leave.choice.foldl (fun _ _ h => h.combineAdd) _))

protected theorem State.Inv.fenceState {sc : Scope} {o : Order} : (fenceState sc o s).Inv := by
  cases o with
  | acq => exact h.acquire
  | rel => exact h.publish
  | acqrel => exact h.publish.acquire
  | sc => exact h.publish.acquire

end

end Sys2Proof.Machine
end

section
/-!
PROOFS. The invariant through the link unit (11 R200 to R203).
-/

namespace Sys2Proof.Machine
open Sys2Proof Sys2Proof.Say

/-! ### The invariant through the acts of a `link` (02 R39 to R42) -/

/-- The state after an act of a `link`, or in which it stands still. -/
def LinkOut.left : LinkOut → State
  | .going _ s => s
  | .wait _ s => s
  | .fault _ s => s

/-- The state that an act of a `link` leads to keeps the invariant. -/
abbrev LinkInv (o : LinkOut) : Prop := o.left.Inv

theorem LinkInv.ite {c : Prop} [Decidable c] {o o' : LinkOut} (h : LinkInv o) (h' : LinkInv o') : LinkInv (if c then o else o') := by
  split
  · exact h
  · exact h'

section
variable {s : State} (h : s.Inv) {b d i k n p q x : Nat} {bs : List Byte} {aw v w : Word} {g : LinkProg}
include h

protected theorem State.Inv.linkStop {e : Stop} (he : e.Leaves State.Inv) : LinkInv (linkStop g e s) := by
  unfold linkStop
  split <;> exact he.state h

protected theorem State.Inv.slotKey : ReadInv (slotKey s w) := by
  unfold slotKey
  split
  · exact .ok h
  · exact .reading h.access1 fun k u hu => .ite (fun _ => ends_fail _) fun _ => .ok hu

protected theorem State.Inv.writeSlot : (writeSlot k v s).Inv := h.clrRmw

protected theorem State.Inv.readSlot : (readSlot k s).2.Inv := by
  show (clrRmw k 8 (fun _ => none) s).2.Inv
  exact h.clrRmw

protected theorem State.Inv.returnCell : (returnCell n q p s).Inv := h.setNetq

protected theorem State.Inv.reclaim : (reclaim s k).Inv := by
  unfold reclaim
  exact h.returnCell.ite h

protected theorem State.Inv.wire : Ends State.Inv State.Inv (wire w v s) := by
  have hkey := h.slotKey (w := w)
  rw [wire]
  generalize Machine.slotKey s w = r at hkey
  cases r with
  | error e => exact hkey
  | ok x =>
    obtain ⟨k, u⟩ := x
    cases k with
    | none => exact hkey
    | some k => exact State.Inv.writeSlot hkey

protected theorem State.Inv.cellOf : ReadInv (cellOf w s) :=
  .reading h.access1 fun _ _ hu => hu.loading fun _ _ hu => .ite (fun _ => .ok hu) fun _ => ends_fail _

protected theorem State.Inv.completeMeeting {me oth : WireSide} {o : Option Party} : LinkInv (completeMeeting g me oth k w o s) := by
  have hcell := h.cellOf (w := w)
  rw [completeMeeting]
  generalize Machine.cellOf w s = r at hcell
  cases r with
  | error e => exact h.linkStop hcell
  | ok x =>
    obtain ⟨⟨c, y, e⟩, u⟩ := x
    have hwritten : (writeSlot k 0 u).Inv := State.Inv.writeSlot hcell
    cases o with
    | none => exact hwritten
    | some o => exact hwritten.setCtx hwritten.ctx

protected theorem State.Inv.workDone {me oth : WireSide} : LinkInv (workDone g me oth s) := by
  rw [workDone]
  split
  · exact h
  · rename_i a _
    have haccess := h.access1 (aw := addrOf a) (n := 8) (al := 1) (po := false) (nd := needRW)
    generalize Machine.access1 s (addrOf a) 8 1 false needRW = r at haccess
    cases r with
    | error e => exact h.linkStop haccess
    | ok x =>
      obtain ⟨k, u⟩ := x
      have hread := State.Inv.readSlot haccess (k := k)
      exact LinkInv.ite hread hread

protected theorem State.Inv.halfJoin {f : Bool} {me oth : WireSide} : LinkInv (halfJoin g f me oth s) := by
  have hkey := h.slotKey (w := me.port)
  rw [halfJoin]
  refine LinkInv.ite h ?_
  generalize Machine.slotKey s me.port = r at hkey
  cases r with
  | error e => exact h.linkStop hkey
  | ok x =>
    obtain ⟨k, u⟩ := x
    cases k with
    | none => exact hkey
    | some k =>
      dsimp -zeta only
      extract_lets hit due r w v o
      have hv : v.Inv := State.Inv.clrRmw hkey
      clear_value v
      refine LinkInv.ite hv (LinkInv.ite hv (LinkInv.ite hv (LinkInv.ite ?_ (LinkInv.ite hv hv.workDone))))
      refine LinkInv.ite hv (LinkInv.ite hv ?_)
      have hother := hv.slotKey (w := match o with | some o => o.here.face.getD me.port | none => me.port)
      generalize Machine.slotKey v _ = r at hother ⊢
      cases r with
      | error e => exact hv.linkStop hother
      | ok x =>
        obtain ⟨k, u⟩ := x
        cases k with
        | none => exact hother
        | some k => exact State.Inv.completeMeeting hother

protected theorem State.Inv.taken (l : List WireSide) : ReadInv (taken l s) := by
  induction l generalizing s with
  | nil => exact .ok h
  | cons x l ih =>
    rw [taken]
    split
    · exact ih h
    · refine .reading h.access1 fun k u hu => ?_
      have hread := hu.readSlot (k := k)
      generalize Machine.readSlot k u = r at hread
      obtain ⟨w, t⟩ := r
      exact .ite (fun _ => .ok hread) fun _ => .stopsAt hread (.ite (fun _ => ih hread) fun _ => ends_fail _)

protected theorem State.Inv.closeRing {l r : WireSide} : LinkInv (closeRing g l r s) := by
  have hl := h.wire (w := l.face.getD 0) (v := 0)
  rw [closeRing]
  generalize Machine.wire (l.face.getD 0) 0 s = o at hl
  cases o with
  | error e => exact h.linkStop hl
  | ok u =>
    have hr := State.Inv.wire hl (w := r.face.getD 0) (v := 0)
    dsimp -zeta only
    generalize Machine.wire (r.face.getD 0) 0 u = o at hr
    cases o with
    | error e => exact State.Inv.linkStop hl hr
    | ok v => exact hr

protected theorem State.Inv.endDeferred : LinkInv (endDeferred g w s) := by
  have haccess := h.access1 (aw := addrOf w) (n := 8) (al := 1) (po := false) (nd := needRW)
  rw [endDeferred]
  generalize Machine.access1 s (addrOf w) 8 1 false needRW = r at haccess
  cases r with
  | error e => exact h.linkStop haccess
  | ok x =>
    obtain ⟨k, u⟩ := x
    have hread := State.Inv.readSlot haccess (k := k)
    exact LinkInv.ite hread (LinkInv.ite hread hread)

protected theorem State.Inv.resolve : LinkInv (resolve g s) := by
  rw [resolve]
  split
  · exact h.endDeferred
  · rename_i l r _ _
    have htaken := h.taken (g.sides.filter WireSide.open)
    generalize Machine.taken (g.sides.filter WireSide.open) s = o at htaken
    cases o with
    | error e => exact h.linkStop htaken
    | ok x =>
      obtain ⟨t, u⟩ := x
      cases t with
      | true => exact htaken
      | false =>
        refine LinkInv.ite (State.Inv.closeRing htaken) (LinkInv.ite ?_ (LinkInv.ite (State.Inv.halfJoin htaken) htaken))
        have hjoin := State.Inv.halfJoin htaken (g := g) (f := true) (me := l) (oth := r)
        generalize Machine.halfJoin g true l r u = o at hjoin
        cases o with
        | going p u => exact hjoin
        | fault f u => exact hjoin
        | wait p u => exact LinkInv.ite (State.Inv.halfJoin hjoin) hjoin
  · exact h

protected theorem State.Inv.claim {o : OldEnd} : LinkInv (claim g o s) := by
  have haccess := h.access1 (aw := addrOf o.slot) (n := 8) (al := 1) (po := false) (nd := needRW)
  rw [claim]
  generalize Machine.access1 s (addrOf o.slot) 8 1 false needRW = r at haccess
  cases r with
  | error e => exact h.linkStop haccess
  | ok x => exact LinkInv.ite (State.Inv.clrRmw haccess) (State.Inv.clrRmw haccess)

protected theorem State.Inv.redirect {o : OldEnd} : LinkInv (redirect g o s) := by
  have haccess := h.access1 (aw := addrOf o.slot) (n := 8) (al := 1) (po := false) (nd := needRW)
  rw [redirect]
  generalize Machine.access1 s (addrOf o.slot) 8 1 false needRW = r at haccess
  cases r with
  | error e => exact h.linkStop haccess
  | ok x => exact (State.Inv.clrStore haccess).writeSlot

protected theorem State.Inv.closeWire : LinkInv (closeWire g s) := by
  have hl := h.wire (w := (g.olds.headD { slot := 0, cell := 0 }).slot) (v := 0)
  rw [closeWire]
  generalize Machine.wire _ 0 s = o at hl
  cases o with
  | error e => exact h.linkStop hl
  | ok u =>
    have hr := State.Inv.wire hl (w := (g.olds.headD { slot := 0, cell := 0 }).far) (v := 0)
    dsimp -zeta only
    generalize Machine.wire _ 0 u = o at hr
    cases o with
    | error e => exact State.Inv.linkStop hl hr
    | ok v => exact hr

protected theorem State.Inv.rangeSide : ReadInv (rangeSide w s) :=
  .ite (fun _ => .reading h.access1 fun _ _ hu => hu.loading fun _ _ hu => .ite (fun _ => .ok hu) fun _ => ends_fail _) fun _ => .ok h

protected theorem State.Inv.linkPush : LinkInv (linkPush g v w s) := by
  have ha := h.rangeSide (w := v)
  rw [linkPush]
  generalize Machine.rangeSide v s = o at ha
  cases o with
  | error e => exact h.linkStop ha
  | ok x =>
    obtain ⟨ra, u⟩ := x
    have hb := State.Inv.rangeSide ha (w := w)
    dsimp -zeta only
    generalize Machine.rangeSide w u = o at hb
    cases o with
    | error e => exact State.Inv.linkStop ha hb
    | ok x =>
      obtain ⟨rb, t⟩ := x
      have hsplit := State.Inv.coinSplit hb
      dsimp -zeta only
      generalize Machine.coinSplit t = o at hsplit
      cases o with
      | error e => exact hb
      | ok x =>
        obtain ⟨coin, z⟩ := x
        dsimp -zeta only
        generalize hpush : Machine.pushRec z.quad _ z = o
        cases o with
        | none => exact State.Inv.noteDry hb
        | some y =>
          have hy := (State.Inv.pushRec hsplit).of_some hpush
          exact hy

protected theorem State.Inv.linkAct : LinkInv (linkAct g s) := by
  rw [linkAct]
  split
  · exact h.claim
  · refine LinkInv.ite ?_ (LinkInv.ite h.closeWire ?_)
    · split
      · exact h.linkPush
      · exact h
    · split
      · exact h.redirect
      · exact h.resolve

omit h in
protected theorem LinkInv.linkEndsIn {o : LinkOut} (ho : LinkInv o) : LinkInv (linkEndsIn g o) := by
  cases o with
  | going p u => exact ho
  | wait p u => exact ho
  | fault f u => exact State.Inv.foldl ho (fun _ _ h => h.returnCell) _

protected theorem State.Inv.linkActs (m : Nat) : LinkInv (linkActs m g s) := by
  induction m generalizing g s with
  | zero => exact h
  | succ m ih =>
    have hact := (h.linkAct (g := { g with onHold := false })).linkEndsIn (g := g)
    rw [linkActs]
    refine LinkInv.ite h ?_
    generalize Machine.linkEndsIn g _ = o at hact
    cases o with
    | going p u => exact ih hact
    | wait p u => exact hact
    | fault f u => exact hact

protected theorem State.Inv.linkEnd : (linkEnd g s).Inv := State.Inv.away (State.Inv.pass (State.Inv.xw (h.foldl (fun _ _ h => h.reclaim) _)))

protected theorem State.Inv.linkStay {g' : LinkProg} : (linkStay g g' s).Inv := by
  unfold linkStay
  exact h.ite h.leave

protected theorem State.Inv.linkRun : (linkRun g s).Inv := by
  have hacts := h.linkActs (g := g) (s.linkBudget.getD 63 + 1)
  rw [linkRun]
  generalize Machine.linkActs _ g s = o at hacts
  cases o with
  | going p u => exact State.Inv.ite (State.Inv.linkEnd hacts) (State.Inv.linkStay hacts)
  | wait p u => exact State.Inv.linkStay hacts
  | fault f u => exact State.Inv.takeFault hacts

protected theorem State.Inv.linkNew {r : Reg} {ka kb : Option Nat} : (linkNew r v ka w kb s).Inv := by
  have ha : (match ka with | some k => writeSlot k w s | none => s).Inv := by
    cases ka with
    | none => exact h
    | some k => exact h.writeSlot
  unfold linkNew
  refine State.Inv.linkRun ?_
  cases kb with
  | none => exact ha
  | some k => exact State.Inv.writeSlot ha

protected theorem State.Inv.holdsHold {o : Bool} {k : Option Nat} : (holdsHold s o k).2.Inv := by
  unfold holdsHold
  split
  · exact h.clrLoad
  · exact h

protected theorem State.Inv.setNetqs {l : Tbl NetQuad} : ({ s with netqs := l } : State).Inv := h.same rfl rfl

protected theorem State.Inv.linkChecks {ao bo : Bool} : Ends State.Inv (fun x => x.2.2.2.Inv) (linkChecks v w ao bo s) := by
  refine .bind (ends_need _ _) fun _ _ => .reading h.slotKey fun ka u hu => .reading hu.slotKey fun kb t ht => .bind (ends_need _ _) fun _ _ => ?_
  dsimp -zeta only
  extract_lets n
  split
  · exact ends_waitOn _
  · have ha := ht.holdsHold (o := ao) (k := ka)
    generalize Machine.holdsHold t ao ka = o at ha
    obtain ⟨oa, x⟩ := o
    have hb := State.Inv.holdsHold ha (o := bo) (k := kb)
    dsimp -zeta only
    generalize Machine.holdsHold x bo kb = o at hb
    obtain ⟨ob, y⟩ := o
    exact .bind (.stopsAt hb (ends_need _ _)) fun _ _ => .ok (State.Inv.setNetqs hb)

theorem lands_execLink {r a b : Reg} {ao bo : Bool} : Lands (execLink r a b ao bo s) := by
  have hchecks := h.linkChecks (v := s.x a) (w := s.x b) (ao := ao) (bo := bo)
  rw [execLink]
  generalize Machine.linkChecks (s.x a) (s.x b) ao bo s = o at hchecks
  cases o with
  | error e => exact lands_finish h hchecks
  | ok x =>
    obtain ⟨ka, kb, cells, t⟩ := x
    have hpub := State.Inv.publish hchecks (sc := .module)
    dsimp -zeta only
    extract_lets u
    split
    · exact lands_next (State.Inv.linkRun hpub)
    · exact lands_next (State.Inv.linkRun hpub)
    · exact lands_next (State.Inv.linkRun hpub)
    · exact lands_next (State.Inv.linkNew hpub)

protected theorem State.Inv.grabRun {r a f : Reg} : RunInv (grabRun r a f s) := by
  refine .bind (ends_need _ _) fun _ _ => .bind (ends_need _ _) fun _ _ => .reading h.access1 fun _ _ hu => hu.loading fun _ _ hu => ?_
  refine .bind (ends_need _ _) fun _ _ => .ite (fun _ => ?_) fun _ => .ok hu.xw.xw.pass.away
  exact .reading hu.access1 fun _ _ hu => hu.loading fun _ _ hu => .bind (ends_need _ _) fun _ _ => .ok hu.xw.xw.pass.away

end

end Sys2Proof.Machine
end

section
/-!
PROOFS. The invariant through control instructions (15).
-/

namespace Sys2Proof.Machine
open Sys2Proof Sys2Proof.Say

/-! ### The invariant through control, rule and net instructions (15 R259 to R280) -/

section
variable {s : State} (h : s.Inv) {b d i k n p q x : Nat} {bs : List Byte} {aw v w : Word} {r a f : Reg}
include h

protected theorem State.Inv.linkReg : (linkReg s r n).Inv := h.xw

protected theorem State.Inv.jumpRun : RunInv (jumpRun r v s) := .ite (fun _ => ends_fail _) fun _ => .ok (h.linkReg.setTh (h.linkReg (r := r) (n := 4)).th)

protected theorem State.Inv.nallocRun : RunInv (nallocRun r a s) := by
  have halloc := h.allocNode (n := s.th.net) (q := s.quad) (size := nodeSize (s.x a))
  rw [nallocRun]
  refine .ite (fun _ => ends_fail _) fun _ => ?_
  generalize Machine.allocNode _ _ _ s = o at halloc
  cases o with
  | none => exact .ok h.xw.pass
  | some x => exact .ok (State.Inv.clrStore (halloc x rfl)).xw.pass

protected theorem State.Inv.nfreeRun : RunInv (nfreeRun a s) := by
  rw [nfreeRun]
  refine .bind (ends_need _ _) fun _ _ => .bind (ends_needAt _ _ _) fun _ _ => .bind h.access1 fun x _ => ?_
  obtain ⟨k, _⟩ := x
  refine .bind h.access1 fun y ht => ?_
  obtain ⟨_, t⟩ := y
  refine .bind (ends_need _ _) fun _ _ => .bind (ends_needAt _ _ _) fun _ _ => .bind (ends_need _ _) fun _ _ => .bind (ends_need _ _) fun _ _ => .ok ?_
  exact (State.Inv.publish ht).clrRmw.setNetq.pass.awayUnless

omit h in
theorem ends_targetQuad {P : State → Prop} : Ends P (fun _ => True) (targetQuad s v n) := by
  unfold targetQuad
  refine .ite (fun _ => ends_fail _) fun _ => ?_
  split
  · exact .ok trivial
  · exact ends_fail _

omit h in
/-- Work goes to the own quad, or to one that a word names; what follows is the same for both. -/
theorem runInv_target {c : Prop} [Decidable c] {j : Nat → Run State} (hj : ∀ q, RunInv (j q)) :
    RunInv (if c then j s.quad else targetQuad s v n >>= j) :=
  .ite (fun _ => hj _) fun _ => .bind ends_targetQuad fun q _ => hj q

protected theorem State.Inv.setMsgs {l : List Msg} : ({ s with msgs := l } : State).Inv := h.same rfl rfl

protected theorem State.Inv.sendRec {e : Rec} : (sendRec q e s).Inv := h.setMsgs.pass.leave

protected theorem State.Inv.placeRec {e : Rec} : RunInv (placeRec q e s) := by
  have hpush := h.pushRun (q := q) (r := e)
  rw [placeRec]
  refine .ite (fun _ => ?_) fun _ => .ok h.sendRec
  generalize Machine.pushRun q e s = o at hpush
  cases o with
  | error e => exact hpush
  | ok t => exact .ok (State.Inv.pass hpush)

protected theorem State.Inv.redexRun {c : Reg} {g : Bool} : RunInv (redexRun r a c g s) := by
  refine .bind (ends_need _ _) fun _ _ => runInv_target fun dst => .bind h.coinSplit fun x hx => ?_
  obtain ⟨coin, t⟩ := x
  exact .bind (State.Inv.placeRec hx) fun u hu => .ok hu.awayUnless

protected theorem State.Inv.spawnRun : RunInv (spawnRun a f s) := by
  refine runInv_target fun dst => .bind (ends_need _ _) fun _ _ => .bind h.coinSplit fun x hx => ?_
  obtain ⟨coin, t⟩ := x
  refine .ite (fun _ => ?_) fun _ => .ok (State.Inv.setMsgs hx).pass.leave
  generalize harrive : Machine.arrive _ _ t = o
  cases o with
  | none => exact ends_waitOn _
  | some u => exact .ok (State.Inv.pass ((State.Inv.arrive hx).of_some harrive))

/-! ### Ranges (15 R266 R268, 02 R35) -/

protected theorem State.Inv.rnextRun : RunInv (rnextRun r s) := by
  rw [rnextRun]
  split
  · exact .ok h.xw.pass
  · refine h.rangeGranule.map fun x hx => ?_
    exact (State.Inv.publish hx).clrRmw.xw.pass.awayUnless

protected theorem State.Inv.hwDoubles (m : Nat) : ReadInv (hwDoubles n q p m aw s) := by
  induction m generalizing s aw with
  | zero => exact .ok h
  | succ m ih =>
    rw [hwDoubles]
    refine .reading h.hwRead fun x u hu => ?_
    have hrest := ih hu (aw := aw + 8)
    generalize Machine.hwDoubles n q p m (aw + 8) u = o at hrest
    cases o with
    | error e => exact hrest
    | ok x => exact hrest

protected theorem State.Inv.readBody : ReadInv (readBody n q p w s) :=
  .ite (fun _ => .ok h) fun _ => .reading h.hwRead fun _ _ hu => .reading (hu.hwDoubles _) fun _ _ hv => .ok hv

protected theorem State.Inv.countKey : ReadInv (countKey n q w s) :=
  .ite (fun _ => .ok h) fun _ => .reading h.globAccess fun _ _ hu => .ite (fun _ => ends_fail _) fun _ => .ok hu.hwRequest

protected theorem State.Inv.raiseCount : (raiseCount k p w s).2.Inv := by
  unfold raiseCount
  split
  · exact h
  · exact h.settleLine.bankStore

protected theorem State.Inv.splitNodes {i : Option (Word × List Byte)} {lo hi : Nat} :
    Gives (fun x => x.2.2.2.Inv) (splitNodes n q p w i lo hi s) := by
  -- Both are held opaque, as the kernel would evaluate the bytes that are stored.
  obtain ⟨alloc, hdef, halloc⟩ : ∃ g, g = Machine.allocNode ∧ ∀ n q z t, t.Inv → Gives (fun x => x.2.Inv) (g n q z t) :=
    ⟨_, rfl, fun _ _ _ _ h => h.allocNode⟩
  obtain ⟨store, hdef', hstore⟩ : ∃ g, g = Machine.bankStore ∧ ∀ p t k l, t.Inv → (g p t k l).2.Inv := ⟨_, rfl, fun _ _ _ _ h => h.bankStore⟩
  rw [splitNodes, ← hdef, ← hdef']
  have hfirst := halloc n q 32 s h
  generalize alloc n q 32 s = o at hfirst ⊢
  cases o with
  | none => exact gives_none
  | some x =>
    obtain ⟨ro, u⟩ := x
    dsimp -zeta only
    have hrange := hstore p u (purseKey q ro) (leBytes 8 0xFE04000000000010 ++ wordBytes holdWord ++ leBytes 8 lo ++ leBytes 8 hi) (hfirst _ rfl)
    generalize store p u (purseKey q ro) _ = o at hrange ⊢
    obtain ⟨y, v⟩ := o
    cases i with
    | none => exact .some hrange
    | some e =>
      obtain ⟨hd, l⟩ := e
      dsimp -zeta only
      have hsecond := halloc n q (nodeSize hd) v hrange
      generalize alloc n q (nodeSize hd) v = o at hsecond ⊢
      cases o with
      | none => exact gives_none
      | some z => exact .some (hstore _ _ _ _ (hsecond z rfl))

protected theorem State.Inv.splitNone {here : Bool} : (splitNone r k here s).Inv := h.clrRmw.xw.pass.awayUnless

protected theorem State.Inv.splitWrites {ck coin mid hi : Nat} {z : Word} : RunInv (splitWrites r q k ck coin mid hi v w z s) := by
  have hcount := h.raiseCount (k := ck) (p := s.now) (w := z)
  rw [splitWrites]
  generalize Machine.raiseCount ck s.now z s = o at hcount
  obtain ⟨time, u⟩ := o
  exact (State.Inv.raise hcount).clrRmw.xw.placeRec

protected theorem State.Inv.rsplitRun : RunInv (rsplitRun r a s) := by
  rw [rsplitRun]
  split
  · exact .ok h.xw.pass
  · rename_i body node _
    refine runInv_target fun dst => .reading h.rangeGranule fun k t ht => .reading ht.readBody fun b u hu => ?_
    extract_lets v g lo hi mid hd
    have hv : v.Inv := hu.raise
    clear_value v
    refine .ite (fun _ => .ok hv.splitNone) fun _ => .reading hv.countKey fun ck z hz => ?_
    have hsplit := hz.splitNodes (n := z.th.net) (q := z.quad) (p := z.now) (w := body) (i := b.1) (lo := mid) (hi := hi)
    generalize Machine.splitNodes _ _ _ _ _ _ _ z = o at hsplit
    cases o with
    | none => exact .ok hz.splitNone
    | some x =>
      obtain ⟨bw, rw', time, y⟩ := x
      have hy : y.Inv := hsplit _ rfl
      refine .bind (hy.raise).coinSplit fun x hx => ?_
      obtain ⟨coin, u⟩ := x
      exact .bind (State.Inv.splitWrites hx) fun u hu => .ok (hu.ite hu.away)

/-! ### Migration, barriers and waiting for quiet (15 R272 to R278) -/

protected theorem State.Inv.migrRun : RunInv (migrRun a s) := by
  rw [migrRun]
  split
  · exact ends_failAt _ _
  · split
    · exact ends_failAt _ _
    · refine .bind h.settleRange fun t ht => .bind ht.endGangs.publishAt.coinSplit fun x hx => ?_
      obtain ⟨coin, u⟩ := x
      exact .ok (State.Inv.setMsgs hx).sendReturn.freeBerth

omit h in
theorem ends_checkRect {P : State → Prop} {g : Bool} : Ends P (fun _ => True) (checkRect g w s) :=
  .bind (ends_need _ _) fun _ _ => .bind (ends_need _ _) fun _ _ => (ends_need _ _).mono fun _ _ => trivial

protected theorem State.Inv.setBars {l : Tbl BarCtx} : ({ s with bars := l } : State).Inv := h.same rfl rfl

protected theorem State.Inv.arriveRun {e : Option (Reg × Word)} : RunInv (arriveRun w e s) := by
  refine .bind ends_checkRect fun _ _ => .ite (fun _ => .bind (ends_need _ _) fun _ _ => .ok h.setBars.leave) fun _ => .ok h.setBars.setMsgs.leave

omit h in
theorem wokenCtx_zero {c : Ctx} (hc : c.Zero) (n : Nat) (u : Due) (r : Reg) : (wokenCtx c n u r).Zero := setReg_zero hc r u.report

protected theorem State.Inv.setMints {l : Tbl Mint} : ({ s with mints := l } : State).Inv := h.same rfl rfl

protected theorem State.Inv.readMint : (readMint b n r s).Inv := by
  unfold readMint
  extract_lets m u
  have hu : u.Inv := h.setCtx (wokenCtx_zero h.ctx _ _ _)
  clear_value u
  refine State.Inv.ite hu.raise.leave (State.Inv.ite ?_ h.leave)
  exact h.setMints.leave

protected theorem State.Inv.qwaitRun : (qwaitRun n r s).Inv := by
  unfold qwaitRun
  split
  · extract_lets t coin c u v
    have ht : t.Inv := h.publishAt
    have hu : u.Inv := ht.setTh (by exact ht.th)
    have hv : v.Inv := hu.mintRequest
    clear_value v
    exact (hv.ite hv.mintReturn).readMint
  · exact h.mintRequest.readMint

end

end Sys2Proof.Machine
end

section
/-!
PROOFS. The invariant through system, tile and matrix instructions and the assayer (06, 07, 17).
-/

namespace Sys2Proof.Machine
open Sys2Proof Sys2Proof.Say

/-! ### The invariant through system instructions (17 R314 to R320, 15 R281 to R283) -/

section
variable {s : State} (h : s.Inv) {b d i k n p q x : Nat} {bs : List Byte} {aw v w : Word} {r a f : Reg}
include h

theorem lands_execTrap {c : BitVec 4} : Lands (execTrap a c s) := by
  unfold execTrap
  split
  · exact lands_finish h (ends_fail _)
  · exact lands_next h.takeFault

theorem lands_execDbrk {c : BitVec 8} : Lands (execDbrk c s) := by
  unfold execDbrk
  extract_lets nq
  split
  · exact lands_next h.setNetq.pass
  · exact lands_next h.takeFault

omit h in
theorem ends_blockOf {P : State → Prop} : Ends P (fun _ => True) (blockOf w s) := by
  rw [blockOf]
  refine .ite (fun _ => ends_fail _) fun _ => ?_
  -- `find?` is held opaque here: the kernel would evaluate it, and with it the keys of the blocks.
  obtain ⟨find, hfind⟩ : ∃ f, f = @List.find? Nat := ⟨_, rfl⟩
  rw [← hfind]
  cases purseAccess _ _ _ _ 704 with
  | none => exact ends_fail _
  | some k =>
    dsimp only
    cases find _ _ with
    | none => exact ends_fail _
    | some i => exact .ok trivial

omit h in
theorem resumeAt_zero {c : Ctx} (hc : c.Zero) (pc : Nat) : (resumeAt pc c).Zero := hc

protected theorem State.Inv.eretMode {z : Nat} {m : BitVec 2} : ReadInv (eretMode k n z m s) := by
  rw [eretMode]
  split
  · exact .ok h
  · rename_i e _
    refine .ite (fun _ => h.dropSeat.map fun _ ht => ht) fun _ => .ite (fun _ => .ok h) fun _ => .ite (fun _ => .ok ?_) fun _ => ?_
    · exact h.setSeat (resumeAt_zero h.seatCtx z)
    · refine .ite (fun _ => ends_failAt _ _) fun _ => h.loadingAll fun l t ht => ?_
      split
      · exact ends_fail _
      · rename_i hc
        exact .ok (ht.setSeat (resumeAt_zero (reloadCtx_zero hc) z))

protected theorem State.Inv.returnBlock : (returnBlock k i s).Inv := h.clrRmw.setNetq.serveEng 4

protected theorem State.Inv.eretRun {m : BitVec 2} : RunInv (eretRun r a m s) := by
  refine .bind (ends_need _ _) fun _ _ => .bind ends_blockOf fun e _ => ?_
  obtain ⟨k, i⟩ := e
  refine .bind (ends_needAt _ _ _) fun _ _ => h.loading fun _ t ht => .bind (ends_need _ _) fun _ _ => ht.loading fun _ u hu => ?_
  exact hu.eretMode.map fun e he => (State.Inv.ite he (State.Inv.returnBlock he)).xw.pass.away

protected theorem State.Inv.dropEntries : (dropEntries n p q s).Inv := h.same rfl rfl

protected theorem State.Inv.tlbiRun {g : Bool} : RunInv (tlbiRun r g p q s) := by
  have hnet : Ends State.Inv (fun _ => True) (tlbiNet r g s) := by
    unfold tlbiNet
    exact .ite (fun _ => .ok trivial) fun _ => .ite (fun _ => .ok trivial) fun _ => ends_fail _
  exact .bind hnet fun _ _ => .ok h.publish.dropEntries.pass.away

protected theorem State.Inv.recordAccess {nd : Need} : ReadInv (recordAccess w nd s) := .ite (fun _ => ends_failAt _ _) fun _ => h.access

protected theorem State.Inv.saveRun : RunInv (saveRun a s) := by
  have haccess := h.recordAccess (w := s.x a) (nd := needW)
  rw [saveRun]
  generalize Machine.recordAccess (s.x a) needW s = o at haccess
  cases o with
  | error e => exact haccess
  | ok x => exact .ok (State.Inv.clrStores haccess _).pass.awayUnless

protected theorem State.Inv.restRun : RunInv (restRun a s) := by
  refine .reading h.recordAccess fun ks t ht => ht.loadingAll fun l u hu => .bind (ends_need _ _) fun _ _ => ?_
  split
  · exact ends_fail _
  · rename_i c hc
    have hzero := reloadCtx_zero hc
    exact .bind (ends_need _ _) fun _ _ => .ok (State.Inv.awayUnless (hu.setTh (by exact hzero)))

protected theorem State.Inv.readEffect : (readEffect n s).Inv := by
  unfold readEffect
  exact h.raise.ite (h.raise.ite h)

protected theorem State.Inv.srdRun : RunInv (srdRun r n s) := by
  have hread := h.readEffect (n := n)
  rw [srdRun]
  split
  · exact ends_fail _
  · exact .ok hread.xw.pass

protected theorem State.Inv.swrRun : RunInv (swrRun r n s) := .ite (fun _ => .ok (State.Inv.pass (h.setTh (by exact h.th)))) fun _ => ends_fail _

theorem lands_execMqRcv {v : VIdx} : Lands (execMqRcv v s) := by
  unfold execMqRcv
  split
  · exact lands_next h.leave
  · rename_i rest _
    have hth : (s.setTh { s.th with mq := rest }).Inv := h.setTh h.th
    exact lands_next hth.raise.vw.pass

protected theorem State.Inv.mqSndRun {v : VIdx} : RunInv (mqSndRun v s) := by
  unfold mqSndRun
  extract_lets data
  split
  · exact ends_fail _
  · exact .ok h.setMsgs.leave

/-! ### Where operands lie (06 R110 to R114) -/

omit h in
theorem ends_gangOf {P : State → Prop} : Ends P (fun _ => True) (gangOf s) := by
  unfold gangOf
  split
  · exact .ite (fun _ => ends_fail _) fun _ => .ok trivial
  · exact ends_fail _

protected theorem State.Inv.setGang {g : MGang} : (setGang b g s).Inv := h.same rfl rfl

protected theorem State.Inv.operPiece {nd : Need} : ReadInv (operPiece s p n nd) := by
  unfold operPiece
  refine .ite (fun _ => ends_failAt _ _) fun _ => ?_
  split
  · rename_i htr
    exact .stopsAt (h.translation_error htr) (ends_failAt _ _)
  · rename_i htr
    have hu := h.translation htr
    exact .stopsAt hu (.ite (fun _ => ends_failAt _ _) fun _ => .ite (fun _ => ends_waitOn _) fun _ => .ite (fun _ => .ok hu) fun _ => ends_failAt _ _)

protected theorem State.Inv.operPieces {nd : Need} (l : List (Nat × Nat)) : ReadInv (operPieces nd l s) := by
  induction l generalizing s with
  | nil => exact .ok h
  | cons e l ih =>
    rw [operPieces]
    refine .reading h.operPiece fun k t ht => ?_
    have hrest := ih ht
    generalize Machine.operPieces nd l t = o at hrest
    cases o with
    | error e => exact hrest
    | ok x => exact hrest

protected theorem State.Inv.operBytes {nd : Need} : ReadInv (operBytes nd p n s) := h.operPieces _

protected theorem State.Inv.operSegs (l : List (Nat × Nat)) : ReadInv (operRows.operSegs l s) := by
  induction l generalizing s with
  | nil => exact .ok h
  | cons e l ih =>
    rw [operRows.operSegs]
    refine .reading h.operBytes fun k t ht => ?_
    have hrest := ih ht
    generalize operRows.operSegs l t = o at hrest
    cases o with
    | error e => exact hrest
    | ok x => exact hrest

protected theorem State.Inv.operRows (l : List (Nat × List (Nat × Nat))) : ReadInv (operRows l s) := by
  induction l generalizing s with
  | nil => exact .ok h
  | cons e l ih =>
    rw [operRows]
    refine .reading (h.operSegs _) fun k t ht => ?_
    have hrest := ih ht
    generalize Machine.operRows l t = o at hrest
    cases o with
    | error e => exact hrest
    | ok x => exact hrest

protected theorem State.Inv.denseRows {o : Operand} {l : List Nat} : ReadInv (denseRows o l s) := h.operRows _

protected theorem State.Inv.tilesAt {l m : List Nat} : ReadInv (tilesAt p k l m s) := by
  unfold tilesAt
  extract_lets whole head
  have hrows := h.operRows (whole ++ head)
  generalize Machine.operRows (whole ++ head) s = o at hrows
  cases o with
  | error e => exact hrows
  | ok x => exact hrows

protected theorem State.Inv.partedAll {l : Pieces} : (partedAll l s).Inv := h.foldl (fun _ _ h => h.parted) l

protected theorem State.Inv.readHeads {l : List (Nat × Pieces)} : (readHeads l s).Inv := h.partedAll

omit h in
theorem ends_checkSeqs {P : State → Prop} {l : List (Nat × Pieces)} : Ends P (fun _ => True) (checkSeqs s n l) :=
  .bind (ends_need _ _) fun _ _ => (ends_need _ _).mono fun _ _ => trivial

/-! ### Gang and tile instructions (06 R119 to R127) -/

protected theorem State.Inv.answer : (answer r n s).Inv := h.xw.pass.away

protected theorem State.Inv.gangRun : RunInv (gangRun r a s) := by
  unfold gangRun
  refine .ite (fun _ => .ok h.answer) fun _ => .ite (fun _ => .ok h.answer) fun _ => .ite (fun _ => ends_fail _) fun _ => ?_
  exact .ite (fun _ => .ok h.answer) fun _ => .ok (State.Inv.answer (h.setGang.setTh (by exact h.th)))

protected theorem State.Inv.evictBank : OptInv (evictBank b s) := by
  unfold evictBank
  split
  · exact .some h
  · rename_i c hc
    have hzero := h.resident_of hc
    extract_lets core
    split
    · exact gives_none
    · refine .some (State.Inv.setEvict (State.Inv.hwWrite h.delResident) fun e he => ?_)
      rcases List.mem_append.1 he with he | he
      · exact State.Inv.evictedOf (State.Inv.hwWrite h.delResident) e he
      · rw [List.mem_singleton.1 he]
        exact hzero

protected theorem State.Inv.evictBanks (l : List Nat) : OptInv (evictBanks l s) := by
  induction l generalizing s with
  | nil => exact .some h
  | cons b l ih =>
    have hbank := h.evictBank (b := b)
    rw [evictBanks]
    generalize Machine.evictBank b s = o at hbank
    cases o with
    | none => exact gives_none
    | some t => exact ih (hbank t rfl)

omit h in
/-- A vector gang of two, four or eight has as many cores. -/
theorem vectorGroup_length (core : Nat) {n : Nat} (hn : (n == 2 || n == 4 || n == 8) = true) : (vectorGroup core n).1.length = n := by
  rcases (by simpa using hn : (n = 2 ∨ n = 4) ∨ n = 8) with (rfl | rfl) | rfl <;> rfl

omit h in
/-- The members that `gangv` gives a gang are all of its cores but the leader's. -/
theorem others_indices (l : List Nat) (me : Nat) (f : Nat × Nat → Nat) :
    (((l.zipIdx.filter (fun e => e.2 != me)).map (fun e => (e.2, f e))).map (fun e => (e.1, e.2, Vector.replicate 8 ({} : VReg)))).map (·.1) =
      (List.range l.length).filter (· != me) := by
  have hsnd : l.zipIdx.map (·.2) = List.range l.length := by simp [List.range_eq_range']
  rw [← hsnd, List.filter_map]
  simp [Function.comp_def]

protected theorem State.Inv.gangvRun : RunInv (gangvRun r a s) := by
  rw [gangvRun]
  refine .ite (fun _ => .ok h.answer) fun _ => ?_
  by_cases hn : (bits (s.x a).toNat 3 0 == 2 || bits (s.x a).toNat 3 0 == 4 || bits (s.x a).toNat 3 0 == 8) = true
  · have hlength := vectorGroup_length (coreId s.cur) hn
    generalize bits (s.x a).toNat 3 0 = n at hn hlength ⊢
    refine .ite (fun _ => .ok h.answer) fun _ => ?_
    generalize vectorGroup (coreId s.cur) n = e at hlength ⊢
    obtain ⟨cores, me⟩ := e
    have hlength : cores.length = n := hlength
    subst hlength
    refine .ite (fun _ => ends_fail _) fun _ => .ite (fun _ => .ok h.answer) fun _ => ?_
    have hbanks := h.evictBanks (((cores.zipIdx.filter (fun e => e.2 != me)).map (fun e => (e.2, 16 * e.1 + s.cur % 16))).map (·.2))
    generalize Machine.evictBanks _ s = o at hbanks ⊢
    cases o with
    | none => exact ends_waitOn _
    | some t =>
      have ht := hbanks t rfl
      refine .ok (State.Inv.answer (State.Inv.setTh (ht.setVgang ?_) ?_))
      · exact others_indices cores me _
      · exact ht.th
  · refine .ite (fun _ => .ok h.answer) fun hnot => absurd ?_ hnot
    simpa using hn

theorem lands_execDisband : Lands (execDisband s) := by
  have ht := h.endGangs (b := s.cur)
  have hth : ((endGangs s.cur s).setTh { (endGangs s.cur s).th with broken := false, brokenVec := false }).Inv := ht.setTh ht.th
  exact lands_next hth.pass.away

protected theorem State.Inv.tileStore : (tileStore k bs s).Inv := h.clrStore.fillGranules

protected theorem State.Inv.tileStores : (tileStores k bs s).Inv := h.foldl (fun _ _ h => h.tileStore) _

protected theorem State.Inv.zeroRows {g : MGang} : (zeroRows g s).Inv := h.foldl (fun _ _ h => h.tileStores) _

theorem lands_execTzero : Lands (execTzero s) := lands_finish h (.bind ends_gangOf fun _ _ => .ok h.zeroRows.pass.away)

protected theorem State.Inv.checkSectors {nd : Need} (l : List TileSector) : (checkSectors nd l s).2.2.Inv := by
  induction l generalizing s with
  | nil => exact h
  | cons e l ih =>
    have haccess : ReadInv (if e.addr < 2 ^ 64 then access1 s (BitVec.ofNat 64 e.addr) 32 32 false nd else failAt .access (BitVec.ofNat 64 e.addr)) :=
      .ite (fun _ => h.access1) fun _ => ends_failAt _ _
    rw [checkSectors]
    generalize (if e.addr < 2 ^ 64 then access1 s (BitVec.ofNat 64 e.addr) 32 32 false nd else failAt .access (BitVec.ofNat 64 e.addr)) = o
      at haccess
    cases o with
    | error e => exact Stop.Leaves.state haccess h
    | ok x => exact ih haccess

section
variable {get : TileSector → State → (List Byte × Flags) × State} {put : TileSector → List Byte → State → State}
variable (hget : ∀ x s, s.Inv → (get x s).2.Inv) (hput : ∀ x l s, s.Inv → (put x l s).Inv)
include hget

protected theorem State.Inv.readSectors (l : List TileSector) : (readSectors get l s).2.2.Inv := by
  induction l generalizing s with
  | nil => exact h
  | cons e l ih => exact ih (hget e s h)

include hput

protected theorem State.Inv.moveTiles (l : List TileSector) : (moveTiles get put l s).2.Inv :=
  (h.readSectors hget l).foldl (fun s e h => hput e.1 e.2 s h) _

theorem lands_transfer {nd : Need} {l : List TileSector} : Lands (transfer nd get put l s) := by
  have hcheck := h.checkSectors (nd := nd) l
  rw [transfer]
  generalize Machine.checkSectors nd l s = o at hcheck
  obtain ⟨m, o, t⟩ := o
  have ht : t.Inv := hcheck
  cases o with
  | none => exact lands_next (ht.moveTiles hget hput m).flag.pass.away
  | some e =>
    cases e with
    | wait w u => exact lands_next ht.leave
    | fault g u => exact lands_next (State.Inv.takeFault (State.Inv.moveTiles ht.choice hget hput _))

end

omit h in
theorem ends_tileChecks {P : State → Prop} {g : TileFmt} : Ends P (fun _ => True) (tileChecks r a g s) :=
  .bind ends_gangOf fun _ _ => .bind (ends_needAt _ _ _) fun _ _ => .ok trivial

protected theorem State.Inv.loadSector {g : TileFmt} {e : TileSector} : (loadSector g e s).2.Inv := by
  have hload := h.clrLoad (k := e.addr) (n := 32)
  rw [loadSector]
  generalize Machine.clrLoad e.addr 32 s = o at hload ⊢
  exact hload

protected theorem State.Inv.storeSector {m : MGang} {g : TileFmt} {rm : Rnd} {e : TileSector} : (storeSector m g rm e s).2.Inv := by
  -- The load is held opaque, as the kernel would perform it.
  obtain ⟨load, hdef, hload⟩ : ∃ f, f = Machine.clrLoad ∧ ∀ k n t, t.Inv → (f k n t).2.Inv := ⟨_, rfl, fun _ _ _ h => h.clrLoad⟩
  rw [storeSector, ← hdef]
  exact hload _ _ s h

theorem lands_execTload {g : TileFmt} : Lands (execTload r a g s) := by
  have hchecks := ends_tileChecks (P := State.Inv) (s := s) (r := r) (a := a) (g := g)
  rw [execTload]
  generalize tileChecks r a g s = o at hchecks
  cases o with
  | error e => exact lands_finish h hchecks
  | ok g' => exact lands_transfer h (fun _ _ h => h.loadSector) (fun _ _ _ h => h.tileStores)

protected theorem State.Inv.putSector {e : TileSector} : (putSector e bs s).Inv := by
  unfold putSector
  exact h.tileStore.ite h.clrStore

theorem lands_execTstore {g : TileFmt} {m : Rnd} : Lands (execTstore r a m g s) := by
  have hchecks := ends_tileChecks (P := State.Inv) (s := s) (r := r) (a := a) (g := g)
  rw [execTstore]
  generalize tileChecks r a g s = o at hchecks
  cases o with
  | error e => exact lands_finish h hchecks
  | ok g' =>
    refine .ite (lands_finish h (ends_fail _)) ?_
    exact lands_transfer h (fun _ _ h => h.storeSector) (fun _ _ _ h => h.putSector)

protected theorem State.Inv.tshapeRun : RunInv (tshapeRun a s) := by
  refine .bind ends_gangOf fun g _ => .ite (fun _ => .ok h.setGang.pass.away) fun _ => ?_
  refine .reading h.access1 fun hk t ht => .ite (fun _ => ends_waitOn _) fun _ => ht.loading fun l u hu => ?_
  refine .reading hu.access fun ks v hv => .ite (fun _ => ends_waitOn _) fun _ => hv.loadingAll fun m z hz => ?_
  split
  · exact ends_fail _
  · exact .ok hz.setGang.pass.away

omit h in
theorem ends_streamOk {P : State → Prop} : Ends P (fun _ => True) (streamOk w) :=
  .bind (ends_need _ _) fun _ _ => (ends_need _ _).mono fun _ _ => trivial

protected theorem State.Inv.tsideRun : RunInv (tsideRun r a s) :=
  .bind ends_gangOf fun _ _ => .bind ends_streamOk fun _ _ => .bind ends_streamOk fun _ _ => .ok h.setGang.pass

/-! ### Matrix operations (06 R127, 07 R138) -/

omit h in
theorem ends_parsed {P : State → Prop} {l : List Byte} : Ends P (fun _ => True) (parsed l) := by
  unfold parsed
  split
  · exact .ok trivial
  · exact ends_fail _

protected theorem State.Inv.scaleTiles {g : MGang} {x y : Operand} : ReadInv (scaleTiles g x y s) := by
  refine .ite (fun _ => .ok h) fun _ => .bind (ends_need _ _) fun _ _ => .reading h.tilesAt fun ta t ht => .reading ht.tilesAt fun tb u hu => ?_
  exact .stopsAt hu.readHeads (.bind ends_checkSeqs fun _ _ => .bind ends_checkSeqs fun _ _ => .ok hu.readHeads)

protected theorem State.Inv.assayedRows {g : AssayHead} {l : List Nat} : ReadInv (assayedRows g w l s) := by
  have hbase : Ends State.Inv (fun _ => True) (match formOf w with | some (.glob va) => Except.ok va | _ => failAt .access w) := by
    split
    · exact .ok trivial
    · exact ends_failAt _ _
  refine .bind hbase fun base _ => .reading h.operBytes fun hp t ht => .ite (fun _ => ht.denseRows.map fun _ hx => hx) fun _ => ?_
  refine .reading (ht.operRows _) fun m u hu => .reading hu.operBytes fun rp v hv => .ite (fun _ => ends_waitOn _) fun _ => ?_
  refine .ite (fun _ => ends_fail _) fun _ => .stopsAt hv.partedAll ?_
  split
  · exact ends_fail _
  · exact .ok hv.partedAll

protected theorem State.Inv.readOperand : ReadInv (readOperand w s) :=
  .reading h.access1 fun _ _ ht => .ite (fun _ => ends_waitOn _) fun _ => .ok ht.clrLoad

protected theorem State.Inv.startOp {g : MGang} {o : MatOp} : RunInv (startOp g o s) := .ite (fun _ => ends_waitOn _) fun _ => .ok h.setGang.leave

protected theorem State.Inv.liveOf {o : Operand} {l : List Nat} : ReadInv (liveOf o n l s) := h.denseRows.map fun _ hx => hx

omit h in
theorem ends_alignedTo {P : State → Prop} : Ends P (fun _ => True) (alignedTo w n) := (ends_needAt _ _ _).mono fun _ _ => trivial

protected theorem State.Inv.mmaRun : RunInv (mmaRun r a s) := by
  refine .bind ends_gangOf fun g _ => .bind ends_alignedTo fun _ _ => .bind ends_alignedTo fun _ _ => ?_
  refine .reading h.readOperand fun la t ht => .reading ht.readOperand fun lb u hu => .bind ends_parsed fun oa _ => .bind ends_parsed fun ob _ => ?_
  refine .bind (ends_need _ _) fun _ _ => .bind (ends_need _ _) fun _ _ => .stopsAt hu.publish ?_
  exact .reading hu.publish.liveOf fun ra v hv => .reading hv.denseRows fun rb z hz => .reading hz.scaleTiles fun t y hy => hy.startOp

protected theorem State.Inv.mmasRun {e : Bool} : RunInv (mmasRun r a e s) := by
  refine .bind ends_gangOf fun g _ => .bind ends_alignedTo fun _ _ => .bind ends_alignedTo fun _ _ => ?_
  refine .reading h.readOperand fun la t ht => .reading ht.readOperand fun lb u hu => ?_
  generalize (if e then (lb, la) else (la, lb)) = y
  obtain ⟨lr, lo⟩ := y
  refine .bind ends_parsed fun oo _ => ?_
  split
  · exact ends_fail _
  · refine .bind (ends_need _ _) fun _ _ => .bind (ends_need _ _) fun _ _ => ?_
    extract_lets v rowsR rowsO
    have hv : v.Inv := hu.publish
    clear_value v
    split
    refine .stopsAt hv (.reading hv.liveOf fun ro x hx => .reading hx.assayedRows fun z y hy => .reading hy.scaleTiles fun t v hv => hv.startOp)

/-! ### The events of a matrix operation (06 R114 R127) -/

protected theorem State.Inv.consumeMat {g : MGang} {o : MatOp} : (consumeMat b g o s).Inv := h.partedAll.setGang.meetDeps

/-- What keeps the invariant for the issuing thread keeps it for another berth. -/
protected theorem State.Inv.as {g : State → State} (hg : ∀ t, t.Inv → (g t).Inv) : (s.as b g).Inv := (hg _ h.setCur).setCur

protected theorem State.Inv.completeMat {g : MGang} {o : MatOp} : (completeMat b g o s).Inv := by
  refine h.as fun t ht => ?_
  dsimp only
  refine State.Inv.ite ht.setPoison.setGang.takeFault ?_
  generalize (if o.a.tag = 9 then _ else g : MGang) = g'
  have hcleared : ∀ m, ((setGang b m t).flag o.flags).Inv := fun _ => ht.setGang.flag
  have hstored := (hcleared { g' with op := none }).foldl (f := fun s e => tileStore e.1 e.2 s) (fun _ _ h => h.tileStore) (sectorsOfC o.result)
  exact State.Inv.pass (hstored.setTh (by exact hstored.th))

theorem lands_execMmaCompletion : Lands (execMmaCompletion b s) := by
  unfold execMmaCompletion
  split
  · exact lands_next h
  · split
    · exact lands_next h
    · exact .ite (lands_next h.completeMat) (lands_next h)

/-! ### The assayer (07 R131 to R137) -/

protected theorem State.Inv.setAssays {l : List AssayOp} : ({ s with assays := l } : State).Inv := h.same rfl rfl

protected theorem State.Inv.startAssay {o : Operand} {c : AssayBlock} : RunInv (startAssay r o c s) := by
  refine .reading h.denseRows fun rows t ht => .reading ht.operBytes fun rec' u hu => .reading (.ite (fun _ => hu.tilesAt) fun _ => .ok hu) fun tiles v hv => ?_
  exact .stopsAt hv.readHeads (.bind (ends_need _ _) fun _ _ => .bind (ends_need _ _) fun _ _ => .ok hv.readHeads.setAssays.leave)

protected theorem State.Inv.blockRead : ReadInv (blockRead w s) := h.access1.map fun _ hx => hx.homeLoad

protected theorem State.Inv.assayRun : RunInv (assayRun r a s) := by
  refine .bind ends_alignedTo fun _ _ => .stopsAt h.publish (.reading h.publish.blockRead fun l t ht => ?_)
  split
  · exact ends_fail _
  · refine .bind (ends_need _ _) fun _ _ => .reading ht.blockRead fun lo u hu => .bind ends_parsed fun o _ => ?_
    exact .bind (ends_need _ _) fun _ _ => .bind (ends_need _ _) fun _ _ => hu.startAssay

theorem lands_execAstat {e : BitVec 3} : Lands (execAstat r e s) := by
  refine lands_finish h ?_
  split
  · exact .ok h.xw.pass
  · exact ends_fail _

protected theorem State.Inv.consumeAssay {e : AssayOp} : (consumeAssay e s).Inv := h.partedAll.setAssays.meetDeps

theorem lands_execOperandsConsumed : Lands (execOperandsConsumed b s) := by
  unfold execOperandsConsumed
  split
  · split
    · exact .ite (lands_next h) (lands_next h.consumeMat)
    · exact .ite (lands_next h) (lands_next h.consumeAssay)
    · exact lands_next h
  · exact .ite (lands_next h) (lands_next h.consumeAssay)
  · exact lands_next h

protected theorem State.Inv.writePieces (l : Pieces) : (writePieces s l bs).Inv := by
  induction l generalizing s bs with
  | nil => exact h
  | cons e l ih =>
    unfold writePieces
    exact h.ite (ih h.arrWrite)

protected theorem State.Inv.completeAssay {e : AssayOp} : (completeAssay b e s).Inv := by
  rw [completeAssay]
  refine h.ite ((h.writePieces e.record).setAssays.as fun t ht => ?_)
  have hraised := ht.raise (b := b) (p := piecesTime t (piecesUpTo e.bytes.length e.record))
  extract_lets u
  have hu : u.Inv := hraised
  clear_value u
  refine hu.takeFault.ite ?_
  split
  · exact (State.Inv.setTh hu (by exact hu.th)).xw.pass
  · exact hu

theorem lands_execAssayCompletion : Lands (execAssayCompletion b s) := by
  unfold execAssayCompletion
  split
  · exact lands_next h
  · exact .ite (lands_next h.completeAssay) (lands_next h)

end

end Sys2Proof.Machine
end

section
/-!
PROOFS. The invariant through the engine instructions and the accesses of engines (12).
-/

namespace Sys2Proof.Machine
open Sys2Proof Sys2Proof.Say

/-! ### The invariant through the engine instructions (12 R209 to R231) -/

section
variable {s : State} (h : s.Inv) {b d i k n p q x : Nat} {bs l : List Byte} {aw w : Word} {r a : Reg}

theorem ends_checkWord {P : State → Prop} : Ends P (fun _ => True) (checkWord s w n) := by
  rw [checkWord]
  split
  · exact ends_failAt _ _
  · exact .ok trivial
  · exact .ite (fun _ => .ok trivial) fun _ => ends_failAt _ _

theorem ends_checkWords {P : State → Prop} {dc : Desc} {g : Bool} : Ends P (fun _ => True) (checkWords s dc g) := by
  unfold checkWords
  refine .ite (fun _ => ?_) fun _ => .bind ends_checkWord fun _ _ => ends_checkWord
  refine .bind ends_checkWord fun _ _ => .bind ends_checkWord fun _ _ => .bind ends_checkWord fun _ _ => ?_
  exact .ite (fun _ => .ok trivial) fun _ => ends_checkWord

theorem ends_checkDesc {P : State → Prop} {g o : Bool} : Ends P (fun _ => True) (checkDesc l g o s) := by
  refine .bind (ends_need _ _) fun _ _ => .bind (ends_need _ _) fun _ _ => .bind ends_checkWords fun _ _ => ?_
  exact .bind (ends_need _ _) fun _ _ => .bind (ends_need _ _) fun _ _ => .ok trivial

include h

protected theorem State.Inv.setChan {c : Chan} : (s.setChan q n c).Inv := h.same rfl rfl

protected theorem State.Inv.keepDesc {o : Option (Nat × List Byte)} : (s.keepDesc o).Inv := h.setTh h.th

protected theorem State.Inv.enter {c : CmdKind} {dc : Desc} : (enter q n c dc k aw s).2.Inv := State.Inv.setChan h.setNextCmd

protected theorem State.Inv.readDesc {g : Bool} : Ends State.Inv (fun x => x.2.2.Inv) (readDesc aw g s) := by
  unfold readDesc
  split
  · exact .ok h
  · refine .bind ends_alignedTo fun _ _ => .bind h.access fun x hx => ?_
    obtain ⟨ks, t⟩ := x
    exact .ok (State.Inv.keepDesc (State.Inv.clrLoads hx ks))

protected theorem State.Inv.copyEntry {o : Bool} : RunInv (copyEntry l o n aw r s) := by
  refine .bind ends_checkDesc fun ds _ => .ite (fun _ => ends_waitOn _) fun _ => .bind h.coinSplit fun x hx => ?_
  obtain ⟨coin, t⟩ := x
  exact .ok (State.Inv.enter hx).keepDesc.xw.pass

omit h in
theorem runInv_awayIf {f : Bool} {o : Run State} (ho : RunInv o) : RunInv (awayIf f o) := ho.map fun _ ht => ht.awayUnless

theorem lands_execCpy {c : BitVec 2} : Lands (execCpy r a c s) := by
  have hread := h.readDesc (aw := s.x a) (g := false)
  unfold execCpy
  generalize readDesc (s.x a) false s = o at hread ⊢
  cases o with
  | error e => exact lands_finish h hread
  | ok x =>
    obtain ⟨l, here, t⟩ := x
    have ht : t.Inv := hread
    exact lands_finish ht (runInv_awayIf ht.copyEntry)

protected theorem State.Inv.collectEntry {c : CmdKind} : RunInv (collectEntry l c aw s) := by
  refine .bind ends_checkDesc fun ds _ => .ite (fun _ => ends_waitOn _) fun _ => .bind h.coinSplit fun x hx => ?_
  obtain ⟨coin, t⟩ := x
  exact .ok (State.Inv.enter hx).keepDesc.pass

theorem lands_collect {c : CmdKind} : Lands (collect a c s) := by
  have hread := h.readDesc (aw := s.x a) (g := true)
  unfold collect
  generalize readDesc (s.x a) true s = o at hread ⊢
  cases o with
  | error e => exact lands_finish h hread
  | ok x =>
    obtain ⟨l, here, t⟩ := x
    have ht : t.Inv := hread
    exact lands_finish ht (runInv_awayIf ht.collectEntry)

protected theorem State.Inv.enterFence {m : BitVec 5} : (enterFence q m k n s i).Inv := by
  unfold enterFence
  exact h.setChan.ite h

protected theorem State.Inv.qfenceRun {m : BitVec 5} : RunInv (qfenceRun m s) := by
  unfold qfenceRun
  refine .ite (fun _ => ends_fail _) fun _ => .ite (fun _ => ends_waitOn _) fun _ => .bind h.coinSplit fun x hx => ?_
  obtain ⟨coin, t⟩ := x
  have ht : t.Inv := hx
  exact .ok (State.Inv.pass (ht.setNextCmd.foldl (fun _ _ h => h.enterFence) _))

/-! ### stage (12 R225 R229) -/

protected theorem State.Inv.nextEntry (m : Nat) : ReadInv (nextEntry m i s) := by
  induction m generalizing s i with
  | zero => exact .ok h
  | succ m ih =>
    rw [nextEntry]
    exact .reading h.access fun ks t ht => .ite (fun _ => .ok (ht.clrLoads ks)) fun _ => ih (ht.clrLoads ks)

protected theorem State.Inv.stageEntry : ReadInv (stageEntry s) := by
  unfold stageEntry
  split
  · exact .ok h
  · exact h.nextEntry _

protected theorem State.Inv.takeEntry : (takeEntry i l s).Inv := h.setNetq.keepDesc

theorem lands_execStage : Lands (execStage r s) := by
  have hentry := h.stageEntry
  unfold execStage
  extract_lets n q
  generalize stageEntry s = o at hentry ⊢
  cases o with
  | error e => exact lands_finish h hentry
  | ok x =>
    obtain ⟨o, t⟩ := x
    have ht : t.Inv := hentry
    cases o with
    | none => exact lands_next ht.keepDesc.xw.pass.awayUnless
    | some e =>
      obtain ⟨i, l⟩ := e
      dsimp -zeta only
      extract_lets w
      have hcheck := ends_checkDesc (P := State.Inv) (l := l) (s := t) (g := false) (o := entryWordOk w)
      generalize checkDesc l false (entryWordOk w) t = o at hcheck
      cases o with
      | error e => exact lands_finish ht hcheck
      | ok e => exact lands_finish ht.takeEntry (runInv_awayIf ht.takeEntry.copyEntry)

/-! ### waitm, expect, waite (12 R212 R213 R230 R231) -/

theorem lands_execWaitm {c : BitVec 2} : Lands (execWaitm a c s) := by
  rw [execWaitm]
  exact lands_next (State.Inv.ite (h.ite h.raise).pass h.leave)

protected theorem State.Inv.setCounter {c : Counter} : (s.setCounter q k c).Inv := h.same rfl rfl

protected theorem State.Inv.expectRun : RunInv (expectRun a k s) :=
  .bind (ends_need _ _) fun _ _ => .bind (ends_need _ _) fun _ _ => .ok h.setCounter.pass

protected theorem State.Inv.takeZero : (takeZero b k r s).Inv := by
  have hraised : ((s.setCounter (quadOf b) k { s.counter (quadOf b) k with under := false }).raise b (s.counter (quadOf b) k).time).Inv := h.setCounter.raise
  exact hraised.setCtx (setReg_zero hraised.ctx _ _)

protected theorem State.Inv.waiteRun : RunInv (waiteRun r k s) :=
  .bind (ends_need _ _) fun _ _ => .ite (fun _ => .ok h.takeZero) fun _ => ends_waitOn _

end

/-! ### Engine accesses (12 R219 R220) -/

/-- The state that an engine access leaves keeps the invariant. -/
def EngOut.Keeps : EngOut → Prop
  | .go _ s => s.Inv
  | .fault _ _ s => s.Inv
  | .hold => True

theorem EngOut.Keeps.ite {c : Prop} [Decidable c] {o o' : EngOut} (h : c → o.Keeps) (h' : ¬c → o'.Keeps) : (if c then o else o').Keeps := by
  split
  · exact h ‹_›
  · exact h' ‹_›

section
variable {s : State} (h : s.Inv) {b d i k n p q x : Nat} {bs l : List Byte} {aw w : Word} {f g e : Bool} {c : Cmd}
include h

theorem keeps_engAccess : (engAccess s q n aw k f g e).Keeps := by
  rw [engAccess]
  split
  · exact h
  · rename_i va _
    have hok := @State.Inv.translation s h n q va
    have herr := @State.Inv.translation_error s h n q va
    generalize translation s q n va = o at hok herr ⊢
    cases o with
    | error x => exact herr rfl
    | ok x =>
      have ht := hok rfl
      refine .ite (fun _ => ht) fun _ => .ite (fun _ => trivial) fun _ => .ite (fun _ => ht) fun _ => ?_
      exact State.Inv.hwRequest ht
  · generalize purseAccess s _ q _ k = o
    cases o with
    | none => exact h
    | some k => exact .ite (fun _ => trivial) fun _ => h

theorem keeps_cmdAccess : (cmdAccess s c aw n f).Keeps := by
  have haccess := keeps_engAccess h (q := c.quad) (n := c.net) (aw := aw) (k := n) (f := f) (g := c.desc.pool) (e := c.kind == .copy)
  rw [cmdAccess]
  generalize engAccess s c.quad c.net aw n f c.desc.pool (c.kind == .copy) = o at haccess ⊢
  cases o with
  | go k t =>
    have ht : t.Inv := haccess
    exact .ite (fun _ => trivial) fun _ => ht.ite ht.parted
  | fault x va t => exact haccess
  | hold => trivial

protected theorem State.Inv.engWrite : (engWrite k bs f s).Inv := by
  have hstored := h.arrStore (k := k) (bs := zeros bs.length)
  rw [engWrite]
  refine State.Inv.ite ?_ h.arrWrite
  exact hstored.setPoison.fillGranules.ite hstored.setPoison

end

end Sys2Proof.Machine
end

section
/-!
PROOFS. The invariant through the steps of the engines (12 R215 to R224).
-/

namespace Sys2Proof.Machine
open Sys2Proof Sys2Proof.Say

/-! ### The invariant through the steps of the engines (12 R215 to R224) -/

section
variable {s : State} (h : s.Inv) {b d i k n p q x : Nat} {c : Cmd} {m : RowMode}
include h

protected theorem State.Inv.setHead : (setHead q n c s).Inv := h.setChan

protected theorem State.Inv.readSource (l : List Nat) : Gives (fun x => x.2.Inv) (readSource c l s) := by
  induction l generalizing s with
  | nil => exact .some h
  | cons i l ih =>
    have haccess := keeps_cmdAccess h (c := c) (aw := sourceWord c.desc i) (n := 16) (f := false)
    rw [readSource]
    generalize cmdAccess s c (sourceWord c.desc i) 16 false = o at haccess ⊢
    cases o with
    | hold => exact gives_none
    | fault x va t => exact (ih haccess).map fun _ hx => hx
    | go k t => exact (ih haccess).map fun _ hx => hx

protected theorem State.Inv.refreshSnap (l : List (Option (List Byte × Bool))) : (refreshSnap c l i s).2.Inv := by
  induction l generalizing s i with
  | nil => exact h
  | cons e l ih =>
    cases e with
    | some x => exact ih h
    | none =>
      have haccess := keeps_cmdAccess h (c := c) (aw := sourceWord c.desc i) (n := 16) (f := false)
      unfold refreshSnap
      generalize cmdAccess s c (sourceWord c.desc i) 16 false = o at haccess ⊢
      cases o with
      | hold => exact ih h
      | fault x va t => exact ih haccess
      | go k t => exact ih haccess

theorem lands_execCommandStart : Lands (execCommandStart q n s) := by
  unfold execCommandStart
  split
  · exact lands_next h
  · refine .ite (lands_next h) ?_
    extract_lets c
    split
    · exact lands_next (h.setHead.ite h)
    · refine .ite ?_ (lands_next h.setHead)
      have hread := h.readSource (c := c) (List.range (c.desc.len / 16))
      generalize readSource c (List.range (c.desc.len / 16)) s = o at hread ⊢
      cases o with
      | none => exact lands_next h
      | some x =>
        obtain ⟨l, t⟩ := x
        have ht : t.Inv := hread _ rfl
        exact lands_next ht.setHead
    · exact lands_next h.setHead

protected theorem State.Inv.moveGranule : (moveGranule q n s i).Inv := by
  rw [moveGranule]
  split
  · exact h
  · rename_i c _
    refine h.ite ?_
    have hsnap := h.refreshSnap (c := c) (i := 0) (c.snap.getD [])
    generalize refreshSnap c (c.snap.getD []) 0 s = o at hsnap ⊢
    obtain ⟨l, t⟩ := o
    have ht : t.Inv := hsnap
    dsimp -zeta only
    extract_lets c'
    have hread := keeps_cmdAccess ht (c := c') (aw := sourceWord c'.desc i) (n := 16) (f := false)
    clear_value c'
    generalize cmdAccess t c' (sourceWord c'.desc i) 16 false = o at hread ⊢
    cases o with
    | hold => exact ht
    | fault x va u => exact State.Inv.setHead hread
    | go ks u =>
      have hu : u.Inv := hread
      dsimp -zeta only
      have hwrite := keeps_cmdAccess hu (c := c') (aw := c'.desc.bw + BitVec.ofNat 64 (16 * i)) (n := 16) (f := true)
      generalize cmdAccess u c' (c'.desc.bw + BitVec.ofNat 64 (16 * i)) 16 true = o at hwrite ⊢
      cases o with
      | hold => exact ht
      | fault x va v => exact State.Inv.setHead hwrite
      | go kd v => exact (State.Inv.engWrite hwrite).setHead

theorem lands_execTellerCopy {l : List Nat} : Lands (execTellerCopy q n l s) := lands_next (h.foldl (fun _ _ h => h.moveGranule) l)

/-! ### Counters and marks (12 R212 R213) -/

protected theorem State.Inv.wakeCounter : (wakeCounter q k s).Inv := by
  unfold wakeCounter
  refine h.ite (h.foldl (fun t e ht => ?_) _)
  split
  · exact ht.takeZero.ite ht
  · exact ht

protected theorem State.Inv.subtract {a : Nat} : (subtract q k a p s).Inv := h.setCounter.wakeCounter

protected theorem State.Inv.wakeMark : (wakeMark q n s).Inv := by
  unfold wakeMark
  refine h.foldl (fun t e ht => ?_) _
  split
  · exact (ht.raise.setCtx (by exact ht.raise.ctx)).ite ht
  · exact ht

/-! ### Gathers and scatters (12 R223 R224) -/

protected theorem State.Inv.moveSectors (l : List Nat) {o : RowOut} : (moveSectors c i x m l o s).2.Inv := by
  induction l generalizing s o with
  | nil => exact h
  | cons k l ih =>
    rw [moveSectors]
    generalize (if c.kind = .gather then (_, _) else (_, _) : Word × Word) = e
    obtain ⟨src, dst⟩ := e
    dsimp -zeta only
    extract_lets read
    have hread : read.Keeps := by
      subst read
      cases m
      · exact h
      · exact h
      · exact keeps_cmdAccess h
    clear_value read
    cases read with
    | hold => exact h
    | fault e va t => exact hread
    | go ks t =>
      have ht : t.Inv := hread
      dsimp -zeta only
      have hwrite := keeps_cmdAccess ht (c := c) (aw := dst) (n := 16) (f := true)
      generalize cmdAccess t c dst 16 true = o at hwrite ⊢
      cases o with
      | hold => exact h
      | fault e va u => exact hwrite
      | go kd u =>
        have hu : u.Inv := hwrite
        exact ih hu.engWrite

protected theorem State.Inv.countRow {f : Option Cause} : (countRow q c i m f s).Inv := by
  unfold countRow
  exact h.setHead.subtract.ite h.setHead

protected theorem State.Inv.closeRow {f : Bool} : (closeRow q c i m f s).Inv := by
  rw [closeRow]
  refine h.countRow.ite ?_
  have haccess := keeps_cmdAccess h (c := c) (aw := c.desc.stat + BitVec.ofNat 64 i) (n := 1) (f := true)
  generalize cmdAccess s c (c.desc.stat + BitVec.ofNat 64 i) 1 true = o at haccess ⊢
  cases o with
  | hold => exact h.setHead
  | fault x va t => exact (State.Inv.setHead haccess).ite (State.Inv.countRow haccess)
  | go k t => exact (State.Inv.arrWrite haccess).countRow

protected theorem State.Inv.nextGranules {l : List Nat} : (nextGranules l s).2.Inv := by
  unfold nextGranules
  split
  · exact h
  · exact h.choice

protected theorem State.Inv.runRow {r : RowProg} : (runRow q c r s).Inv := by
  unfold runRow
  extract_lets m n
  refine h.setHead.ite (h.setHead.ite ?_)
  have hnext := h.nextGranules (l := (List.range n).filter (fun k => !r.moved.contains k))
  generalize nextGranules _ s = e at hnext ⊢
  obtain ⟨ks, t⟩ := e
  dsimp -zeta only
  have hmoved := State.Inv.moveSectors (s := t) hnext (c := c) (i := r.row) (x := r.idx) (m := m) ks
    (o := { moved := r.moved, bad := r.bad, time := c.time, stop := none })
  generalize moveSectors c r.row r.idx m ks _ t = e at hmoved ⊢
  obtain ⟨o, u⟩ := e
  have hu : u.Inv := hmoved
  dsimp -zeta only
  extract_lets c'
  split
  · exact hu.setHead
  · exact hu.setHead.ite hu.closeRow

protected theorem State.Inv.readIdxs (a : Nat) : (readIdxs c a s).2.2.Inv := by
  induction a generalizing s c with
  | zero => exact h
  | succ a ih =>
    have haccess := keeps_cmdAccess h (c := c) (aw := c.desc.idx + BitVec.ofNat 64 (4 * c.idxs.length)) (n := 4) (f := false)
    rw [readIdxs]
    generalize cmdAccess s c (c.desc.idx + BitVec.ofNat 64 (4 * c.idxs.length)) 4 false = o at haccess ⊢
    cases o with
    | hold => exact h
    | fault x va t => exact haccess
    | go key t =>
      dsimp -zeta only
      split
      · exact haccess
      · exact ih haccess

protected theorem State.Inv.rowStep {a : CmdKind} : (rowStep q i a s).Inv := by
  rw [rowStep]
  split
  · exact h
  · rename_i c _
    refine h.ite ?_
    have hread := h.readIdxs (c := c) (i + 1 - c.idxs.length)
    generalize readIdxs c (i + 1 - c.idxs.length) s = o at hread ⊢
    obtain ⟨f, c', t⟩ := o
    cases f with
    | false => exact State.Inv.setHead hread
    | true => exact State.Inv.runRow hread

theorem lands_execReplayAnswer {f : Bool} : Lands (execReplayAnswer q n f s) := by
  rw [execReplayAnswer]
  split
  · exact lands_next h
  · split
    · exact lands_next h
    · refine .ite (lands_next h.dropEntries.setHead) ?_
      split
      · exact lands_next h.countRow
      · exact lands_next h.setHead

/-! ### Completion (12 R208 R212 R219 R221) -/

protected theorem State.Inv.flagRows (l : List Nat) : (flagRows q l c s).2.2.Inv := by
  induction l generalizing s c with
  | nil => exact h
  | cons i l ih =>
    have haccess := keeps_cmdAccess h (c := c) (aw := c.desc.stat + BitVec.ofNat 64 i) (n := 1) (f := true)
    unfold flagRows
    extract_lets next
    have hnext : ∀ (c : Cmd) {t : State}, t.Inv → (next c t).2.2.Inv := fun c t ht => ih (ht.subtract.ite ht)
    clear_value next
    generalize cmdAccess s c (c.desc.stat + BitVec.ofNat 64 i) 1 true = o at haccess ⊢
    cases o with
    | hold => exact h
    | fault x va t =>
      dsimp -zeta only
      split
      · exact haccess
      · exact hnext c haccess
    | go k t => exact hnext _ (State.Inv.arrWrite haccess)

protected theorem State.Inv.spendCoin {e : Ending} : OptInv (spendCoin q c e s) := by
  have hback : ∀ {t : State}, t.Inv → OptInv (some (sendReturn c.net c.coin c.time q t)) := fun ht => .some ht.sendReturn
  unfold spendCoin
  refine .ite (fun _ => hback h) fun _ => ?_
  cases e with
  | done => exact .ite (fun _ => h.pushRec) fun _ => hback h
  | cancelled => exact hback h
  | fault x =>
    have hrule := h.hasHandler (n := c.net) (q := q)
    dsimp -zeta only
    generalize hasHandler c.net q s = o at hrule ⊢
    obtain ⟨handled, t⟩ := o
    have ht : t.Inv := hrule
    exact .ite (fun _ => .some (ht.setNetq.serveEng 4)) fun _ => hback ht.startVoid

protected theorem State.Inv.popCmd : (popCmd q n c s).Inv := h.setChan.wakeMark

protected theorem State.Inv.complete {e : Ending} : (complete q n c e s).Inv := by
  unfold complete
  extract_lets flagged
  have hflagged : flagged.2.2.Inv := by
    subst flagged
    cases e with
    | fault x =>
      dsimp -zeta only
      split
      · exact h
      · exact h.flagRows _
    | done => exact h
    | cancelled => exact h
  clear_value flagged
  obtain ⟨f, c, t⟩ := flagged
  have ht : t.Inv := hflagged
  cases f with
  | false => exact ht.setHead
  | true =>
    dsimp -zeta only
    extract_lets paid
    have hpaid : OptInv paid := by
      subst paid
      split
      · exact .ite (fun _ => ht.spendCoin) fun _ => .some ht
      · exact ht.spendCoin
    clear_value paid
    cases paid with
    | none => exact ht.setHead.noteDry
    | some u =>
      have hu : u.Inv := hpaid _ rfl
      exact hu.popCmd.subtract.ite hu.popCmd

theorem lands_execEngineCompletion : Lands (execEngineCompletion q n s) := by
  unfold execEngineCompletion
  split
  · exact lands_next h
  · split
    · exact lands_next h
    · exact lands_next h.complete

end

end Sys2Proof.Machine
end

section
/-!
PROOFS. The invariant through dispatch, admission and refills (13, 02 R32).
-/

namespace Sys2Proof.Machine
open Sys2Proof Sys2Proof.Say

/-! ### The invariant as work is placed (13 R238 to R243, 02 R32) -/

section
variable {s : State} (h : s.Inv) {b d i k n p q x : Nat} {c : Ctx} {m : Msg} {rs : List Rec} {r : Rec}
include h

protected theorem State.Inv.takeMsg : Gives (fun x => x.2.Inv) (takeMsg s i) := by
  unfold takeMsg
  split
  · exact gives_none
  · exact .ite (fun _ => .some h.setMsgs) fun _ => gives_none

protected theorem State.Inv.mapThreads {f : Nat → Ctx → Bool} {g : Ctx → Ctx} (hg : ∀ c : Ctx, c.Zero → (g c).Zero) : (mapThreads f g s).Inv := by
  have hberths := h.mapBerths (f := fun e => if f (coreId e.1) e.2.ctx then { e.2 with ctx := g e.2.ctx } else e.2) fun e he => by
    split
    · exact hg _ he
    · exact he
  refine (hberths.setResidents (l := s.residents.map (fun e => (e.1, if f (coreId e.1) e.2 then g e.2 else e.2))) ?_).setEvicted
    (l := s.evicted.map (fun e => (e.1, e.2.map (fun c => if f e.1 c then g c else c)))) ?_
  · refine Tbl.all_map (P := Ctx.Zero) fun e he => ?_
    split
    · exact hg _ (h.resident e he)
    · exact h.resident e he
  · refine Tbl.all_map (P := fun l : List Ctx => ∀ c ∈ l, c.Zero) fun e he c hc => ?_
    obtain ⟨c, hmem, rfl⟩ := List.mem_map.1 hc
    split
    · exact hg c (h.evicted e he c hmem)
    · exact h.evicted e he c hmem

protected theorem State.Inv.handTime {l : List Nat} : (handTime l p s).Inv := h.same rfl rfl

protected theorem State.Inv.wakeSender {o : Option Nat} : (wakeSender o s).Inv := by
  unfold wakeSender
  split
  · exact h
  · exact h.mapThreads fun _ hc => hc

protected theorem State.Inv.pushRecs (rs : List Rec) : OptInv (pushRecs q rs s) := by
  induction rs generalizing s with
  | nil => exact .some h
  | cons r rs ih =>
    have hpush := h.pushRec (q := q) (r := r)
    unfold pushRecs
    generalize pushRec q r s = o at hpush ⊢
    cases o with
    | none => exact gives_none
    | some t => exact ih (hpush t rfl)

protected theorem State.Inv.returnRecs : (returnRecs q rs s).Inv := h.foldl (fun _ _ h => h.sendReturn) rs

protected theorem State.Inv.dropNewest : (dropNewest q k s).Inv := h.setDeque.returnRecs

protected theorem State.Inv.deliverRecs : OptInv (deliverRecs q rs s) := by
  refine (h.pushRecs rs).map fun t ht => ?_
  split
  · exact ht.choice.dropNewest.ite ht.choice
  · exact ht

protected theorem State.Inv.deliver : OptInv (deliver m s) := by
  unfold deliver
  split
  · exact h.deliverRecs.map fun _ ht => ht.wakeSender
  · exact h.deliverRecs
  · exact h.arrive.map fun _ ht => ht.wakeSender
  · exact .some h

protected theorem State.Inv.setSuspense {l : List (Nat × Msg)} : ({ s with suspense := l } : State).Inv := h.same rfl rfl

protected theorem State.Inv.suspend : (suspend m s).Inv := h.foldl (fun _ _ h => h.setSuspense.hwWrite) _

protected theorem State.Inv.receive {f : MsgBody → Bool} : (receive f i s).Inv := by
  have htake := h.takeMsg (i := i)
  unfold receive
  generalize takeMsg s i = o at htake ⊢
  cases o with
  | none => exact h
  | some x =>
    obtain ⟨m, t⟩ := x
    have ht : t.Inv := htake _ rfl
    exact h.ite (ht.suspend.wakeSender.ite (h.orDry ht.deliver))

/-! ### Dispatch (02 R32, 15 R264 R265) -/

protected theorem State.Inv.setRr {l : Tbl Nat} : ({ s with rr := l } : State).Inv := h.same rfl rfl

protected theorem State.Inv.seat (hc : c.Zero) : OptInv (seat b c s) := by
  have hbank := h.evictBank (b := b)
  unfold seat
  generalize evictBank b s = o at hbank ⊢
  cases o with
  | none => exact gives_none
  | some t => exact .some ((hbank t rfl).setBerth hc).setRr

protected theorem State.Inv.openSide {w : Word} : ReadInv (openSide n q p w s) := by
  unfold openSide
  exact .ite (fun _ => .ok h) fun _ => h.hwTry.map fun _ hx => hx

protected theorem State.Inv.orderSides {v w : Word} : ReadInv (orderSides n q p v w s) :=
  .reading h.openSide fun _ _ ht => .reading ht.openSide fun _ _ hu => .ok hu

protected theorem State.Inv.sealedCount {f : Bool} {w : Word} : ReadInv (sealedCount n q p f w s) := by
  unfold sealedCount
  exact .ite (fun _ => .ok h) fun _ => h.hwTry.map fun _ hx => hx

protected theorem State.Inv.dispatchCtx : Ends State.Inv (fun x => x.1.1.Zero ∧ x.2.Inv) (dispatchCtx q p r s) := by
  unfold dispatchCtx
  extract_lets n nr c bad
  have hbad : ∀ {c : Ctx} {t : State} {x : Cause} {info pc : Nat}, c.Zero → t.Inv → Ends State.Inv (fun x => x.1.1.Zero ∧ x.2.Inv) (bad c x info pc t) :=
    fun hc ht => .ok ⟨hc, ht⟩
  clear_value bad
  have hc : c.Zero := rfl
  clear_value c
  refine .reading (.ite (fun _ => h.orderSides) fun _ => .ok h) fun sides t ht => ?_
  split
  · exact hbad hc ht
  · extract_lets key info pc c'
    have hc' : c'.Zero := setReg_zero (setReg_zero hc _ _) _ _
    clear_value c'
    refine .ite (fun _ => hbad hc ht) fun _ => .reading ht.ruleEntry fun e u hu => ?_
    split
    · exact hbad hc' hu
    · refine .reading hu.sealedCount fun v w hw => ?_
      split
      · exact hbad hc' hw
      · exact .ok ⟨setReg_zero hc' _ _, hw⟩

protected theorem State.Inv.setNextTid : ({ s with nextTid := n } : State).Inv := h.same rfl rfl

protected theorem State.Inv.dispatchInto : RunInv (dispatchInto b r s) := by
  have hctx := h.dispatchCtx (q := quadOf b) (p := startTime s (quadOf b) r.time) (r := r)
  unfold dispatchInto
  extract_lets q p
  change Ends State.Inv _ (dispatchCtx q p r s) at hctx
  generalize dispatchCtx q p r s = o at hctx ⊢
  cases o with
  | error e => exact hctx
  | ok x =>
    obtain ⟨⟨c, f⟩, t⟩ := x
    obtain ⟨hc, ht⟩ : c.Zero ∧ t.Inv := hctx
    refine .stopsAt ht ?_
    dsimp -zeta only
    have hseat := ht.seat (b := b) hc
    generalize seat b c t = o at hseat ⊢
    cases o with
    | none => exact ends_waitOn _
    | some u =>
      have hu := ((hseat u rfl).setNextTid (n := u.nextTid + 1)).count (d := dieOf q) (i := 2) (n := 1) |>.raise (b := b) (p := p)
      refine .ok ?_
      split
      · exact hu
      · exact hu.faultBerth

protected theorem State.Inv.setDeques {l : Tbl (List Rec)} : ({ s with deques := l } : State).Inv := h.same rfl rfl

protected theorem State.Inv.takeRecord : (takeRecord b i s).Inv := by
  unfold takeRecord
  extract_lets q t
  have htaken : t.Inv := h.setDeque
  clear_value t
  split
  · exact h
  · rename_i r _
    refine htaken.journal.ite (htaken.returnRecs.ite ?_)
    have hinto := htaken.dispatchInto (b := b) (r := r)
    generalize dispatchInto b r t = o at hinto ⊢
    cases o with
    | ok u => exact hinto
    | error e =>
      dsimp -zeta only
      extract_lets left u
      have hu : u.Inv := (Stop.Leaves.state hinto htaken).setDeques
      clear_value u
      split
      · exact hu.noteDry
      · exact hu

theorem lands_execDispatch : Lands (execDispatch b s) := by
  unfold execDispatch
  split
  · exact lands_next h.takeRecord
  · exact lands_next h

/-! ### Admission (13 R241 R242, 15 R270, 17 R306) -/

protected theorem State.Inv.discardSaved : (discardSaved q c s).Inv := h.leaveSaved.sendReturn

omit h in
/-- The words that a context brings go to registers 1 on. -/
theorem foldl_setIfInBounds_zero (l : List (Word × Nat)) {v : Vector Word 16} (hv : v[0] = 0) :
    (l.foldl (fun r e => r.setIfInBounds (e.2 + 1) e.1) v)[0] = 0 := by
  induction l generalizing v with
  | nil => exact hv
  | cons e l ih =>
    refine ih ?_
    rw [Vector.getElem_setIfInBounds_ne (by omega) (by omega)]
    exact hv

omit h in
theorem admittedCtx_zero (s : State) (x : Context) : (admittedCtx s x).Zero := foldl_setIfInBounds_zero _ rfl

protected theorem State.Inv.admitContext : (admitContext b i s).Inv := by
  unfold admitContext
  extract_lets q core t
  have ht : t.Inv := h.setArrQ
  clear_value t
  split
  · exact h
  · rename_i x _
    have hseat := ht.seat (b := b) (admittedCtx_zero t x)
    refine ht.sendReturn.ite ?_
    generalize seat b (admittedCtx t x) t = o at hseat ⊢
    cases o with
    | none => exact h.noteDry
    | some u => exact (hseat u rfl).setNextTid.raise

protected theorem State.Inv.evict : ∀ c ∈ s.evict k, c.Zero := h.evictedOf

protected theorem State.Inv.admitEvicted : (admitEvicted b i s).Inv := by
  unfold admitEvicted
  extract_lets q core t
  have ht : t.Inv := h.setEvict fun e he => h.evict e (List.mem_of_mem_eraseIdx he)
  clear_value t
  split
  · exact h
  · rename_i c hc
    have hzero : Ctx.Zero { c with slot := 0 } := h.evict (k := core) c (List.mem_of_getElem? hc)
    have hseat := ht.seat (b := b) hzero
    refine ht.recordGone.ite (ht.discardSaved.ite ?_)
    generalize seat b { c with slot := 0 } t = o at hseat ⊢
    cases o with
    | none => exact h.noteDry
    | some u => exact (hseat u rfl).raise

theorem lands_execAdmission : Lands (execAdmission b s) := by
  unfold execAdmission
  split
  · exact lands_next h.admitContext
  · exact lands_next h.admitEvicted
  · exact lands_next h

protected theorem State.Inv.readmitOne {f g : Bool} {e : Context} : (readmitOne k f g s e).Inv := by
  unfold readmitOne
  exact h.coinGone.ite h.setArrQ

protected theorem State.Inv.leftBlocks {l : List Nat} : (leftBlocks k l s).Inv := by
  unfold leftBlocks
  exact h.foldl (fun _ _ h => h.summarize.ite h) _

protected theorem State.Inv.readmit : (readmit k s).Inv := by
  unfold readmit
  exact h.ite (h.setArrS.leftBlocks.foldl (fun _ _ h => h.readmitOne) _)

/-! ### Refills (13 R239, 14 R258) -/

protected theorem State.Inv.recover {l : List (Rec × Bool)} : (recover q l s).Inv := h.foldl (fun _ _ h => h.coinGone) l

protected theorem State.Inv.suspenseLost {e : Nat × Msg} : (suspenseLost s e).Inv := h.foldl (fun _ _ h => h.coinGone) _

protected theorem State.Inv.dropVoiding : (dropVoiding q s).Inv := by
  have htake := h.takeParked (q := q) (f := fun r => s.netStateAt r.net q == .voiding)
  unfold dropVoiding
  extract_lets voiding mine t
  have ht : t.Inv := htake.returnRecs.recover.ite h
  clear_value t
  refine State.Inv.foldl ht.setSuspense (fun u e hu => ?_) _
  exact (hu.foldl (fun _ _ h => h.sendReturn) _).ite hu.suspenseLost

protected theorem State.Inv.refill : (refill q s).Inv := by
  unfold refill
  extract_lets t
  have ht : t.Inv := h.dropVoiding
  clear_value t
  refine ht.ite ?_
  split
  · exact ht
  · rename_i no rs rest _
    generalize readBlock no rs t = e
    obtain ⟨good, lost⟩ := e
    exact State.Inv.recover (State.Inv.setDeque (State.Inv.ite ht.setSpill (State.Inv.writeBlock ht.setSpill.setParkedRec)))

end

end Sys2Proof.Machine
end

section
/-!
PROOFS. The invariant through steals (13 R240, 02 R35).
-/

namespace Sys2Proof.Machine
open Sys2Proof Sys2Proof.Say

/-! ### The invariant through steals (13 R240, 02 R35, 15 R267) -/

section
variable {s : State} (h : s.Inv) {b i k n p q x thief : Nat} {v w : Word} {r : Rec} {rs : List Rec}
include h

protected theorem State.Inv.setStealRuns {l : Tbl (Nat × Nat × Nat)} : ({ s with stealRuns := l } : State).Inv := h.same rfl rfl

protected theorem State.Inv.nextVictim {victim : Nat} : OptInv (nextVictim s q n victim) := by
  have hset : ∀ {l : Tbl (Nat × Nat × Nat)}, OptInv (some { s with stealRuns := l }) := .some h.setStealRuns
  unfold nextVictim
  extract_lets vs cnt place key put
  have hput : ∀ x, OptInv (put x) := fun _ => hset
  clear_value put
  refine .ite (fun _ => gives_none) fun _ => ?_
  split
  · exact hput _
  · exact .ite (fun _ => hput _) fun _ => .ite (fun _ => .ite (fun _ => hput _) fun _ => gives_none) fun _ => .ite (fun _ => hput _) fun _ => gives_none

protected theorem State.Inv.nodeGranule : ReadInv (nodeGranule n q w s) := by
  unfold nodeGranule
  extract_lets a
  split
  · exact ends_fail _
  · exact .reading h.globAccess fun k t ht => .ite (fun _ => ends_fail _) fun _ => .ok ht.hwRequest.settleLine.parted
  · generalize purseAccess s _ q _ 16 = o
    cases o with
    | none => exact ends_fail _
    | some k => exact .ite (fun _ => ends_fail _) fun _ => .ok h

protected theorem State.Inv.splitGranule : ReadInv (splitGranule n q thief p v w s) := by
  refine .reading h.nodeGranule fun k t ht => .reading ht.readBody fun b u hu => ?_
  extract_lets g lo hi mid hd
  clear_value mid hi lo g hd
  refine .ite (fun _ => .ok hu) fun _ => .reading hu.countKey fun ck x hx => ?_
  have hsplit := hx.splitNodes (n := n) (q := thief) (p := p) (w := v) (i := b.1) (lo := mid) (hi := hi)
  generalize splitNodes n thief p v b.1 mid hi x = o at hsplit ⊢
  cases o with
  | none => exact .ok hx
  | some y =>
    obtain ⟨bw, rw', nt, y⟩ := y
    have hy : y.Inv := hsplit _ rfl
    have hraised := hy.raiseCount (k := ck) (p := p) (w := hd)
    dsimp -zeta only
    generalize raiseCount ck p hd y = o at hraised ⊢
    obtain ⟨ct, z⟩ := o
    have hstore := State.Inv.bankStore (s := z) hraised (k := k) (p := p) (bs := g.take 8 ++ leBytes 8 mid)
    dsimp -zeta only
    generalize bankStore p z k _ = o at hstore ⊢
    obtain ⟨rt, u⟩ := o
    exact .ok hstore

protected theorem State.Inv.splitRange : (splitRange n q thief p v w s).2.Inv := by
  have hsplit := h.splitGranule (n := n) (q := q) (thief := thief) (p := p) (v := v) (w := w)
  unfold splitRange
  generalize splitGranule n q thief p v w s = o at hsplit ⊢
  cases o with
  | ok r => exact hsplit
  | error e => exact Stop.Leaves.state hsplit h

protected theorem State.Inv.splitRec : (splitRec n q thief r s).2.Inv := by
  have horder := h.orderSides (n := n) (q := q) (p := startTime s q r.time) (v := r.a) (w := r.b)
  unfold splitRec
  extract_lets p
  split
  · exact h
  · change ReadInv (orderSides n q p r.a r.b s) at horder
    generalize orderSides n q p r.a r.b s = o at horder ⊢
    cases o with
    | error e => exact Stop.Leaves.state horder h
    | ok x =>
      obtain ⟨o, t⟩ := x
      have ht : t.Inv := horder
      cases o with
      | none => exact ht
      | some e =>
        obtain ⟨⟨aw, _, _⟩, bw, kb, _⟩ := e
        dsimp -zeta only
        split
        · exact ht
        · have hrange := ht.splitRange (n := n) (q := q) (thief := thief) (p := p) (v := aw) (w := bw)
          generalize splitRange n q thief p aw bw t = o at hrange ⊢
          obtain ⟨x, u⟩ := o
          exact hrange

protected theorem State.Inv.splitHeld : (splitHeld n q thief b s).2.Inv := by
  unfold splitHeld
  extract_lets c
  split
  · exact h
  · rename_i body node _
    split
    · exact h
    · have hrange := h.splitRange (n := n) (q := q) (thief := thief) (p := max c.pts s.T) (v := body) (w := node)
      generalize splitRange n q thief (max c.pts s.T) body node s = o at hrange ⊢
      obtain ⟨x, t⟩ := o
      have ht : t.Inv := hrange
      cases x with
      | none => exact ht
      | some e => exact ht.setCtx (by exact ht.ctx)

protected theorem State.Inv.firstHeld (l : List Nat) : (firstHeld n q thief l s).2.Inv := by
  induction l generalizing s with
  | nil => exact h
  | cons b l ih =>
    have hheld := h.splitHeld (n := n) (q := q) (thief := thief) (b := b)
    unfold firstHeld
    generalize splitHeld n q thief b s = o at hheld ⊢
    obtain ⟨x, t⟩ := o
    cases x with
    | none => exact ih hheld
    | some e => exact hheld

protected theorem State.Inv.give : (give n q thief s).2.Inv := by
  unfold give
  extract_lets d held
  have hheld : ∀ {t : State}, t.Inv → (held t).2.Inv := fun ht => ht.firstHeld _
  clear_value held
  split
  · exact hheld h
  · rename_i r _
    split
    · have hsplit := h.splitRec (n := n) (q := q) (thief := thief) (r := r)
      generalize splitRec n q thief r s = o at hsplit ⊢
      obtain ⟨o, t⟩ := o
      have ht : t.Inv := hsplit
      cases o with
      | none => exact hheld ht
      | some e => exact ht.setDeque
    · exact h.setDeque

protected theorem State.Inv.setStealTurn {l : Tbl Nat} : ({ s with stealTurn := l } : State).Inv := h.same rfl rfl

protected theorem State.Inv.stealProbe {victim : Nat} : (stealProbe thief victim n s).Inv := by
  have hnext := h.nextVictim (q := thief) (n := n) (victim := victim)
  unfold stealProbe
  refine h.ite ?_
  generalize nextVictim s thief n victim = o at hnext ⊢
  cases o with
  | none => exact h
  | some t =>
    have ht : t.Inv := hnext _ rfl
    dsimp -zeta only
    extract_lets u rs
    have hu : u.Inv := ht.setStealTurn.count
    clear_value u
    refine hu.ite (hu.setDeque.returnRecs.ite ?_)
    have hgive := hu.give (n := n) (q := victim) (thief := thief)
    generalize give n victim thief u = o at hgive ⊢
    obtain ⟨l, x⟩ := o
    have hx : x.Inv := hgive
    cases l with
    | nil => exact hx
    | cons e l => exact hx.setMsgs.count

end

end Sys2Proof.Machine
end

section
/-!
PROOFS. The invariant through the life of a net (13 R232 to R239, 14 R256, 17 R304 R306).
-/

namespace Sys2Proof.Machine
open Sys2Proof Sys2Proof.Say

/-! ### The invariant through the life of a net (13 R232 to R239, 14 R256, 17 R304 R306) -/

section
variable {s : State} (h : s.Inv) {b i k n p q x : Nat} {r : Rec} {rs : List Rec}
include h

protected theorem State.Inv.scrub : (scrub q s).Inv :=
  (h.setMem (memClear_wf (purseKey q 0) (purseKey q 0 + 0x30000) h.memory)).setPoison.fillGranules

protected theorem State.Inv.setPurseHeld {l : Tbl (List Nat)} {m : Tbl Nat} : ({ s with purseHeld := l, icache := m } : State).Inv := h.same rfl rfl

protected theorem State.Inv.enterQuad {master : Nat} : (enterQuad n master s q).Inv :=
  (State.Inv.settleWhere (State.Inv.ite h.scrub h)).setPurseHeld.setNetq

protected theorem State.Inv.forgetNet : (forgetNet n s).Inv := h.same rfl rfl

protected theorem State.Inv.bindNet {l : Launch} {z : LaunchRec} {ox oy pool cells : Nat} : OptInv (bindNet l z ox oy pool cells s) := by
  obtain ⟨push, hdef, hpush⟩ := exists_pushRec
  have hbody := Eq.refl Machine.bindNet
  conv at hbody => rhs; delta Machine.bindNet
  rw [hbody, ← hdef]
  beta_reduce
  extract_lets n nr lq nr' t u v w
  have hw : w.Inv := (h.forgetNet.setMint.setNet.foldl (fun _ _ h => h.enterQuad) _).hwWrite
  generalize hpushed : push _ _ w = o
  cases o with
  | none => exact gives_none
  | some x => exact .some (State.Inv.journal (hpush _ _ w hw x hpushed))

protected theorem State.Inv.setLaunches {l : List Launch} : ({ s with launches := l } : State).Inv := h.same rfl rfl

theorem lands_execBind {ox oy pool cells : Nat} : Lands (execBind i ox oy pool cells s) := by
  unfold execBind
  extract_lets l
  split
  · exact lands_next h
  · exact .ite (lands_next h) (lands_next (h.orDry h.setLaunches.bindNet))

protected theorem State.Inv.reply {src : Source} {tagg addr status seq : Nat} {l : List Byte} : (reply src q tagg addr status n seq l s).Inv := h.same rfl rfl

protected theorem State.Inv.leaveQuad {m : BitVec 8} : (leaveQuad n m s q).Inv := h.same rfl rfl

protected theorem State.Inv.completeNet {nr : NetRec} : (completeNet n nr s).Inv := by
  unfold completeNet
  extract_lets voided st t u v
  have hv : v.Inv := ((h.journal.foldl (fun _ _ h => h.leaveQuad) _).setNet).forgetNet
  clear_value v
  exact hv.reply

theorem lands_execNetCompletion : Lands (execNetCompletion n s) := .ite (lands_next h.completeNet) (lands_next h)

/-! ### Parking and rebinding (13 R239, 17 R304 R306) -/

protected theorem State.Inv.preempt : (preempt s b).Inv := by
  unfold preempt
  extract_lets led vec t c desc
  have ht : t.Inv := h.withdraw.endGangs
  have hc : c.Zero := ht.ctx
  clear_value t c desc
  exact (ht.delBerth (b := b)).setResident (by exact hc)

protected theorem State.Inv.spillMany (l : List Context) : OptInv (spillMany k l s) := by
  induction l generalizing s with
  | nil => exact .some h.setArrS
  | cons c l ih =>
    have hspill := h.spillCtx (k := k) (c := c)
    unfold spillMany
    generalize spillCtx k c s = o at hspill ⊢
    cases o with
    | none => exact gives_none
    | some t => exact ih (hspill t rfl)

protected theorem State.Inv.parkRecs (l : List Rec) : OptInv (parkRecs q l s) := by
  induction l generalizing s with
  | nil => exact .some h
  | cons r l ih =>
    have hpush := h.pushParked (q := q) (r := r)
    unfold parkRecs
    generalize pushParked q r s = o at hpush ⊢
    cases o with
    | none => exact gives_none
    | some t => exact ih (hpush t rfl)

protected theorem State.Inv.parkCtxs (l : List Nat) : OptInv (parkCtxs n l s) := by
  induction l generalizing s with
  | nil => exact .some h
  | cons core l ih =>
    unfold parkCtxs
    extract_lets cs
    generalize hspill : spillMany core cs _ = o
    cases o with
    | none => exact gives_none
    | some t => exact ih ((State.Inv.spillMany h.setArrQ cs).of_some hspill)

protected theorem State.Inv.setAside : OptInv (setAside n q s) := by
  unfold setAside
  extract_lets rs
  generalize hpark : parkRecs q rs _ = o
  cases o with
  | none => exact gives_none
  | some t => exact ((State.Inv.parkRecs h.setDeque rs).of_some hpark).parkCtxs _

protected theorem State.Inv.parkNet : OptInv (parkNet n q s) := by
  refine (State.Inv.setAside (h.foldl (fun _ _ h => h.preempt) _)).map fun t ht => ?_
  exact ht.setNetq.setNet.journal.ite ht.setNetq

theorem lands_execPark : Lands (execPark n q s) := by
  unfold execPark
  extract_lets wanted
  exact .ite (lands_next (h.orDry h.parkNet)) (lands_next h)

protected theorem State.Inv.unpreempt : (unpreempt n s b).Inv := by
  unfold unpreempt
  split
  · rename_i c hc
    have hzero : Ctx.Zero c := h.resident_of hc
    have hseated := (h.setBerth (b := b) (x := { ctx := c }) hzero).delResident (b := b)
    exact hseated.raise.ite h
  · exact h

protected theorem State.Inv.stackRecs (m : Nat) : OptInv (stackRecs q m rs s) := by
  induction m generalizing s rs with
  | zero => exact .some h
  | succ m ih =>
    unfold stackRecs
    exact .ite (fun _ => .some h) fun _ => .ite (fun _ => gives_none) fun _ => ih h.pushBlock

protected theorem State.Inv.unparkCore : OptInv (unparkCore n k s) := by
  unfold unparkCore
  extract_lets go bad all left
  have hleft : left.Inv := h.setArrQ.setArrS.leftBlocks
  clear_value left
  exact (hleft.spillMany _).map fun t ht => ht.foldl (fun _ _ h => h.readmitOne) _

protected theorem State.Inv.unparkCores (l : List Nat) : OptInv (unparkCores n l s) := by
  induction l generalizing s with
  | nil => exact .some h
  | cons c l ih =>
    have hcore := h.unparkCore (n := n) (k := c)
    unfold unparkCores
    generalize unparkCore n c s = o at hcore ⊢
    cases o with
    | none => exact gives_none
    | some t => exact ih (hcore t rfl)

protected theorem State.Inv.setIcache {l : Tbl Nat} : ({ s with icache := l } : State).Inv := h.same rfl rfl

protected theorem State.Inv.unparkQuad : OptInv (unparkQuad n s q) := by
  unfold unparkQuad
  extract_lets t nq u
  have hu : u.Inv := State.Inv.setNetq (h.foldl (fun _ _ h => h.unpreempt) _)
  clear_value u
  have htake := hu.takeParked (q := q) (f := fun r => r.net == n)
  generalize takeParked q (fun r => r.net == n) u = e at htake ⊢
  obtain ⟨rs, lost, v⟩ := e
  have hv : v.Inv := htake
  dsimp -zeta only
  generalize hstack : stackRecs q rs.length rs _ = o
  cases o with
  | none => exact gives_none
  | some w =>
    have hw : w.Inv := (State.Inv.stackRecs (hv.settleWhere.setIcache) _).of_some hstack
    exact hw.recover.unparkCores _

/-- One quad, with what comes after it: `unparkQuads._f` is the body of the recursion, whose equation Lean does not derive at its default depth. -/
protected theorem State.Inv.unparkOne {l : List Nat} {f : List.below (motive := fun _ => State → Option State) (q :: l)}
    (hf : ∀ u, u.Inv → OptInv (f.1 u)) : OptInv (unparkQuads._f n (q :: l) f s) := by
  have hquad := h.unparkQuad (n := n) (q := q)
  unfold unparkQuads._f
  dsimp -zeta only
  generalize unparkQuad n s q = o at hquad ⊢
  cases o with
  | none => exact gives_none
  | some t => exact hf t (hquad t rfl)

protected theorem State.Inv.unparkQuads (l : List Nat) : OptInv (unparkQuads n l s) := by
  induction l generalizing s with
  | nil =>
    have hnil : unparkQuads n [] s = some s := rfl
    exact hnil ▸ .some h
  | cons q l ih =>
    have hrec : ∀ u : State, u.Inv → OptInv (unparkQuads n l u) := fun u hu => ih hu
    delta unparkQuads at hrec ⊢
    exact h.unparkOne hrec

theorem lands_execRebind : Lands (execRebind n s) := by
  unfold execRebind
  extract_lets nr qs t
  have ht : t.Inv := h.setNet.journal.ite h
  clear_value t
  exact .ite (lands_next (h.orDry (ht.unparkQuads _))) (lands_next h)

end

end Sys2Proof.Machine
end

section
/-!
PROOFS. The invariant through the steps of the memory system, barriers and flits (08, 11, 15).
-/

namespace Sys2Proof.Machine
open Sys2Proof Sys2Proof.Say

/-- Register 0 of the thread that a flit finds, if any, is zero. -/
def Inbox.Zero : Inbox → Prop
  | .running c => c.Zero
  | .resident c => c.Zero
  | .nobody => True

theorem Inbox.Zero.ite {c : Prop} [Decidable c] {x y : Inbox} (hx : x.Zero) (hy : y.Zero) : (if c then x else y).Zero := by
  split
  · exact hx
  · exact hy

/-! ### The invariant through the steps of the memory system (08 R148 to R156, 11 R195) -/

section
variable {s : State} (h : s.Inv) {b i k n p q x : Nat}
include h

protected theorem State.Inv.replyTo : (replyTo b s).Inv := by
  have hready : (s.setCtx b { s.ctx b with wait := .ready }).Inv := h.setCtx h.ctx
  unfold replyTo
  extract_lets c ready
  change ready.Inv at hready
  clear_value ready
  split
  · exact hready
  · exact hready
  · exact hready
  · exact hready
  · exact hready
  · exact hready
  · exact hready.ite h
  · exact h.ite (h.as fun _ ht => ht.linkRun)
  · exact h

protected theorem State.Inv.performAdd : (performAdd s b).Inv := by
  unfold performAdd
  split
  · exact h.as fun _ ht => ht.clrRmw.xw.pass.leave
  · exact h

protected theorem State.Inv.reissueAdds : (reissueAdds b k n s).Inv := by
  unfold reissueAdds
  extract_lets bs
  refine State.Inv.ite (h.foldl (fun _ _ h => h.setCtx (by exact h.ctx)) _) ?_
  exact (h.foldl (fun _ _ h => h.performAdd) _).foldl (fun _ _ h => h.combineAdd) _

theorem lands_execRehome : Lands (execRehome b s) := by
  unfold execRehome
  extract_lets again
  have hagain : ∀ (b pa : Nat) (w : Wait) {f : State → State}, (∀ t, t.Inv → (f t).Inv) → Lands (again b pa w f) := fun b pa w f hf =>
    lands_next (hf _ (h.rehash.setCtx (by exact h.rehash.ctx)))
  clear_value again
  split
  · exact hagain _ _ _ fun _ ht => ht
  · exact hagain _ _ _ fun _ ht => ht.reissueAdds
  · split
    · exact hagain _ _ _ fun _ ht => ht
    · exact lands_next h
  · exact lands_next h

protected theorem State.Inv.reissue : (reissue b s).Inv := by
  unfold reissue
  split
  · exact h.ite (h.serve.ite (State.Inv.ite (h.setWaits.setCtx (by exact h.ctx)) h))
  · exact h

theorem lands_execPageWalk : Lands (execPageWalk q n p s) := by
  have hok := @State.Inv.translation s h n q p
  have herr := @State.Inv.translation_error s h n q p
  unfold execPageWalk
  refine lands_next (State.Inv.ite ?_ h)
  generalize translation s q n p = o at hok herr ⊢
  cases o with
  | ok x => exact hok rfl
  | error x => exact herr rfl

/-! ### Bank roles (08 R148) -/

protected theorem State.Inv.clearBank : (clearBank k n s).Inv := by
  unfold clearBank
  extract_lets t
  have ht : t.Inv := h.settleWhere
  clear_value t
  exact ht.sameThreads (memClear_wf _ _ ht.memory) rfl

protected theorem State.Inv.dropGuests : (dropGuests k s).Inv := h.ite h.setCopies

protected theorem State.Inv.setRoles {l : Tbl Nat} : ({ s with roles := l } : State).Inv := h.same rfl rfl

protected theorem State.Inv.changeBank : (changeBank k n s b).Inv := by
  unfold changeBank
  extract_lets old new t
  have ht : t.Inv := h.clearBank.ite h
  clear_value t
  exact h.ite ht.setRoles.dropGuests

protected theorem State.Inv.setRoleChg {l : Tbl Nat} : ({ s with roleChg := l } : State).Inv := h.same rfl rfl

protected theorem State.Inv.changeRoles : (changeRoles k s).Inv := by
  unfold changeRoles
  split
  · exact h
  · rename_i v _
    extract_lets t
    have ht : t.Inv := h.foldl (fun _ _ h => h.changeBank) _
    clear_value t
    exact ht.setRoleChg.ite ht

/-! ### Barriers, reductions and flits (15 R274 to R284) -/

protected theorem State.Inv.sweep : (sweep i s).Inv := by
  have htake := h.takeMsg (i := i)
  unfold sweep
  generalize takeMsg s i = o at htake ⊢
  cases o with
  | none => exact h
  | some e =>
    obtain ⟨m, t⟩ := e
    have ht : t.Inv := htake _ rfl
    dsimp -zeta only
    split
    · exact ht.ite ht.setBars
    · exact h

omit h in
theorem released_zero {c : Ctx} (hc : c.Zero) (v : Word) (f : Flags) (p : Nat) : (released c v f p).Zero := by
  unfold released
  split
  · exact setReg_zero hc _ _
  · exact hc

protected theorem State.Inv.releaseCore {v : Word} {f : Flags} {l : List Nat} : (releaseCore n k v f p l s b).Inv :=
  (State.Inv.handTime (h.mapThreads fun _ hc => released_zero hc v f p)).setBars

protected theorem State.Inv.release : (release b n k s).Inv := by
  unfold release
  extract_lets nr nw rows cores value r time
  exact State.Inv.ite (h.foldl (fun _ _ h => h.releaseCore) _) h

theorem inbox_zero : (inbox s n b).Zero := by
  have hrunning : ∀ x, Tbl.get? s.berths b = some x → x.ctx.Zero := fun x hx => Tbl.all_get? (P := fun x : Berth => x.ctx.Zero) h.held hx
  have hresident : ∀ c, Tbl.get? s.residents b = some c → c.Zero := fun c hc => h.resident_of hc
  unfold inbox
  generalize Tbl.get? s.berths b = x at hrunning ⊢
  generalize Tbl.get? s.residents b = c at hresident ⊢
  cases x with
  | none =>
    cases c with
    | none => trivial
    | some c => exact Inbox.Zero.ite (hresident c rfl) trivial
  | some x =>
    refine Inbox.Zero.ite (hrunning x rfl) ?_
    cases c with
    | none => trivial
    | some c => exact Inbox.Zero.ite (hresident c rfl) trivial

protected theorem State.Inv.enterFlit {l : VData} {sender : Nat} : OptInv (enterFlit l b sender n p s) := by
  have hinbox := inbox_zero h (n := n) (b := b)
  unfold enterFlit
  extract_lets d
  generalize inbox s n b = o at hinbox ⊢
  cases o with
  | running c => exact .ite (fun _ => gives_none) fun _ => .some (h.setCtx hinbox)
  | resident c => exact .ite (fun _ => gives_none) fun _ => .some (h.setResident hinbox)
  | nobody => exact .some h

protected theorem State.Inv.acceptFlit : (acceptFlit b n s).Inv := by
  unfold acceptFlit
  extract_lets c
  split
  · exact State.Inv.ite (h.setCtx (by exact h.ctx)) h
  · exact h

protected theorem State.Inv.flitArrival : (flitArrival i s).Inv := by
  have htake := h.takeMsg (i := i)
  unfold flitArrival
  generalize takeMsg s i = o at htake ⊢
  cases o with
  | none => exact h
  | some e =>
    obtain ⟨m, t⟩ := e
    have ht : t.Inv := htake _ rfl
    dsimp -zeta only
    split
    · rename_i data dst sender n time _
      refine ht.suspend.acceptFlit.ite ?_
      have henter := ht.enterFlit (l := data) (b := dst) (sender := sender) (n := n) (p := time)
      generalize enterFlit data dst sender n time t = o at henter ⊢
      cases o with
      | none => exact ht
      | some u => exact State.Inv.acceptFlit (henter u rfl)
    · exact h

theorem lands_execFlitResend : Lands (execFlitResend b s) := by
  unfold execFlitResend
  extract_lets c
  split
  · exact lands_next (h.ite h.setMsgs)
  · exact lands_next h

end

end Sys2Proof.Machine
end

section
/-!
PROOFS. The invariant through voiding, mints, time limits and the commands of the bursar (14, 16, 17, 18).
-/

namespace Sys2Proof.Machine
open Sys2Proof Sys2Proof.Say

/-! ### The invariant through faults, voiding, mints and time limits (14 R250 to R257, 17 R298 R301 R308) -/

section
variable {s : State} (h : s.Inv) {b i k n p q x : Nat}
include h

theorem lands_execFaultRedex : Lands (execFaultRedex b s) := lands_next ((h.faultRedexAt.serveEng 4).ite h)

protected theorem State.Inv.voidTrap : (voidTrap b s).Inv := by
  unfold voidTrap
  extract_lets t
  have ht : t.Inv := by
    subst t
    split
    · rename_i c hc
      have hzero : Ctx.Zero c := h.resident_of hc
      have hseated := (h.setBerth (b := b) (x := { ctx := c }) hzero).delResident (b := b)
      exact State.Inv.ite (State.Inv.ite (hseated.ite h) h.delResident.discardSaved) h
    · exact h
  clear_value t
  exact ht.discard.ite ht

theorem lands_execMintReturn : Lands (execMintReturn i s) := by
  have htake := h.takeMsg (i := i)
  unfold execMintReturn
  generalize takeMsg s i = o at htake ⊢
  cases o with
  | none => exact lands_next h
  | some e =>
    obtain ⟨m, t⟩ := e
    have ht : t.Inv := htake _ rfl
    dsimp -zeta only
    split
    · exact lands_next ht.mintRequest.mintReturn
    · exact lands_next h

protected theorem State.Inv.borrowWith {o : Nat} : (borrowWith b o s).Inv := by
  have hborrow := h.borrowAt (b := o)
  unfold borrowWith
  generalize borrowAt o s = x at hborrow ⊢
  cases x with
  | none => exact h
  | some t => exact State.Inv.count (hborrow t rfl).raise.raise.granted

protected theorem State.Inv.borrow : (borrow b s).Inv := by
  unfold borrow
  extract_lets t
  have ht : t.Inv := h.mintRequest
  clear_value t
  refine h.ite ?_
  have hborrow := ht.borrowAt (b := b)
  generalize borrowAt b t = o at hborrow ⊢
  cases o with
  | none => exact ht.discard
  | some u =>
    have hu : u.Inv := hborrow u rfl
    dsimp -zeta only
    split
    · exact hu.granted
    · exact State.Inv.granted (hu.choice.ite hu.choice.borrowWith)

protected theorem State.Inv.tell {u : Due} : (tell n s u).Inv := by
  refine State.Inv.handTime (h.mapThreads fun c hc => ?_)
  split
  · exact wokenCtx_zero hc _ _ _
  · exact hc

theorem lands_execQwaitWake : Lands (execQwaitWake n s) := by
  unfold execQwaitWake
  extract_lets m
  exact .ite (lands_next h) (lands_next (h.setMints.foldl (fun _ _ h => h.tell) _))

theorem lands_execQwaitRetry : Lands (execQwaitRetry b s) := by
  unfold execQwaitRetry
  split
  · exact lands_next (h.mintRequest.readMint.ite h)
  · exact lands_next h

protected theorem State.Inv.voidLaunch {l : Launch} : (voidLaunch l s).Inv := by
  unfold voidLaunch
  extract_lets t
  have ht : t.Inv := h.setLaunches.journal
  clear_value t
  exact ht.reply

theorem lands_execDeadline : Lands (execDeadline n s) := by
  unfold execDeadline
  split
  · exact lands_next (h.voidLaunch.ite h)
  · exact lands_next (h.startVoid.ite h)

theorem lands_execWatchdogExpiry : Lands (execWatchdogExpiry b s) := by
  unfold execWatchdogExpiry
  extract_lets x nr
  exact .ite (lands_next h.faultBerth) (lands_next h)

/-! ### The invariant through the bursar's commands (16 R285 to R296, 18 R324 to R331) -/

protected theorem State.Inv.takePacket : Gives (fun x => x.2.Inv) (takePacket q s) := by
  unfold takePacket
  split
  · exact gives_none
  · exact .ite (fun _ => gives_none) fun _ => .some (h.same rfl rfl)

protected theorem State.Inv.setLastCmd : ({ s with lastCmd := n } : State).Inv := h.same rfl rfl

protected theorem State.Inv.answerCmd {e : Packet} {st net fromSt toSt : Nat} {l : List Byte} : (answerCmd q e st net fromSt toSt l s).Inv := by
  unfold answerCmd
  extract_lets t u
  have ht : t.Inv := h.setLastCmd.ite h
  clear_value t
  have hu : u.Inv := ht.journal
  clear_value u
  exact hu.reply

protected theorem State.Inv.refuse {e : Packet} {st : Nat} : (refuse q e st s).Inv := h.answerCmd

protected theorem State.Inv.accept {e : Packet} : (accept q e s).Inv := h.answerCmd

protected theorem State.Inv.refuseHead : (refuseHead q s).Inv := by
  have htake := h.takePacket (q := q)
  unfold refuseHead
  generalize takePacket q s = o at htake ⊢
  cases o with
  | none => exact h
  | some e =>
    obtain ⟨m, t⟩ := e
    exact h.ite (State.Inv.refuse (htake _ rfl))

end

/-- The state that a command answers, if it is not refused, keeps the invariant. -/
def CmdInv (o : CmdOut) : Prop := ∀ u, o = .ok u → u.Inv

theorem cmd_ok {u : State} (hu : u.Inv) : CmdInv (.ok u) := fun _ h => Except.ok.inj h ▸ hu

theorem cmd_error (n : Nat) : CmdInv (.error n) := fun _ h => nomatch h

theorem CmdInv.ite {c : Prop} [Decidable c] {x y : CmdOut} (hx : CmdInv x) (hy : CmdInv y) : CmdInv (if c then x else y) := by
  split
  · exact hx
  · exact hy

section
variable {s : State} (h : s.Inv) {b i k n p q x : Nat} {e : Packet}
include h

theorem lands_command {f : Packet → State → CmdOut} (hf : ∀ e t, t.Inv → CmdInv (f e t)) : Lands (command k q f s) := by
  have htake := h.takePacket (q := q)
  unfold command
  generalize takePacket q s = o at htake ⊢
  cases o with
  | none => exact lands_next h
  | some x =>
    obtain ⟨e, t⟩ := x
    have ht : t.Inv := htake _ rfl
    refine .ite (lands_next h) ?_
    cases refusal t q e with
    | some st => exact lands_next ht.refuse
    | none =>
      have hdone := hf e t ht
      dsimp -zeta only
      generalize f e t = o at hdone ⊢
      cases o with
      | error st => exact lands_next ht.refuse
      | ok u => exact lands_next (hdone u rfl)

theorem cmd_doLaunch : CmdInv (doLaunch q e s) := by
  unfold doLaunch
  split
  · exact cmd_error _
  · refine .ite (cmd_error _) (.ite (cmd_error _) ?_)
    cases freeId s with
    | none => exact cmd_error _
    | some n => exact cmd_ok h.setLaunches.answerCmd

theorem cmd_doAbort : CmdInv (doAbort q e s) := by
  unfold doAbort
  extract_lets n nr t
  have ht : t.Inv := h.setLaunches.answerCmd
  clear_value t
  split
  · exact .ite (cmd_error _) (cmd_ok ht.reply)
  · exact .ite (cmd_error _) (.ite (cmd_error _) (.ite (cmd_ok h.accept) (cmd_ok h.voidNet.answerCmd)))

/-! ### Halts and watchdogs (17 R307 R308) -/

theorem cmd_doHalt : CmdInv (doHalt q e s) := by
  unfold doHalt
  split
  · exact cmd_error _
  · exact cmd_ok h.setNetq.accept

protected theorem State.Inv.unsuspend {e : Nat × Msg} : (unsuspend s e).Inv := by
  unfold unsuspend
  extract_lets m
  refine h.suspenseLost.ite ?_
  split
  · rename_i data dst sender n time _
    extract_lets d
    have hinbox := inbox_zero h (n := n) (b := dst)
    generalize inbox s n dst = o at hinbox ⊢
    cases o with
    | running c => exact h.setCtx hinbox
    | resident c => exact h.setResident hinbox
    | nobody => exact h
  · exact h.deliver.getD h.setMsgs

protected theorem State.Inv.setArrived {l : List (Nat × Msg)} {m : List Msg} : ({ s with suspense := l, msgs := m } : State).Inv := h.same rfl rfl

protected theorem State.Inv.endHalt : (endHalt n k s).Inv := by
  unfold endHalt
  extract_lets here mine later t nq u
  have ht : t.Inv := h.setArrived
  have hu : u.Inv := ht.setNetq.foldl (fun _ _ h => h.unsuspend) _
  clear_value u
  exact hu.setMsgs

theorem cmd_doResume : CmdInv (doResume q e s) := by
  unfold doResume
  split
  · exact cmd_error _
  · exact cmd_ok h.endHalt.accept

theorem cmd_doWatchdog : CmdInv (doWatchdog q e s) := .ite (cmd_error _) (cmd_ok h.setNet.accept)

theorem cmd_doArm : CmdInv (doArm q e s) := by
  unfold doArm
  split
  · exact cmd_error _
  · exact cmd_ok h.setNetq.accept

/-! ### Ownership (16 R286 to R289) -/

protected theorem State.Inv.setOwner {o : Owner} : ({ s with owner := o } : State).Inv := h.same rfl rfl

protected theorem State.Inv.own {st : OwnState} : (own st p n s).Inv := h.same rfl rfl

theorem cmd_doClaim : CmdInv (doClaim q e s) := .ite (cmd_error _) (cmd_ok h.own.setOwner.accept)

theorem cmd_doHandover : CmdInv (doHandover q e s) := by
  unfold doHandover
  extract_lets a t
  have ht : t.Inv := h.own
  clear_value t
  exact .ite (cmd_error _) (.ite (cmd_ok (h.own.ite h).accept) (.ite (cmd_error _) (cmd_ok ht.setOwner.accept)))

theorem cmd_doAccept : CmdInv (doAccept q e s) := .ite (cmd_ok h.own.setOwner.accept) (cmd_error _)

/-! ### Tables, roles, islands, power, firmware (18 R321 to R331) -/

protected theorem State.Inv.setAcl {l : Tbl AclEntry} : ({ s with acl := l } : State).Inv := h.same rfl rfl

theorem cmd_doAcl : CmdInv (doAcl q e s) := by
  unfold doAcl
  extract_lets b w a valid
  exact .ite (cmd_error _) (.ite (cmd_error _) (cmd_ok h.setAcl.accept))

protected theorem State.Inv.newMap {m : Tbl Nat} {l : List Nat} : (newMap m l s).Inv := by
  unfold newMap
  extract_lets moved t
  have ht : t.Inv := h.settleWhere
  clear_value t
  exact ht.same rfl rfl

theorem cmd_doSlicemap {l : List Nat} : CmdInv (doSlicemap q l e s) := .ite (cmd_error _) (cmd_ok h.parted.newMap.accept)

theorem cmd_doBankrole : CmdInv (doBankrole q e s) := by
  unfold doBankrole
  extract_lets v slice
  exact .ite (cmd_error _) (cmd_ok h.setRoleChg.accept)

protected theorem State.Inv.setPoints {l : Tbl Nat} : ({ s with points := l } : State).Inv := h.same rfl rfl

theorem cmd_doIsland : CmdInv (doIsland q e s) := .ite (cmd_error _) (cmd_ok h.setPoints.accept)

protected theorem State.Inv.setPowerCap {l : Tbl Nat} : ({ s with powerCap := n, capped := l } : State).Inv := h.same rfl rfl

theorem cmd_doPowercap : CmdInv (doPowercap q e s) := .ite (cmd_error _) (cmd_ok h.setPowerCap.accept)

protected theorem State.Inv.setPeers {l : Tbl Word} : ({ s with peers := l } : State).Inv := h.same rfl rfl

protected theorem State.Inv.setBar2 {l : Tbl Nat} : ({ s with bar2 := l } : State).Inv := h.same rfl rfl

theorem cmd_doWindow : CmdInv (doWindow q e s) := by
  unfold doWindow
  extract_lets a v
  exact .ite (.ite (cmd_error _) (cmd_ok h.setPeers.accept)) (.ite (cmd_error _) (cmd_ok h.setBar2.accept))

protected theorem State.Inv.setFirmware {o : Option (BitVec 384 × Nat)} {f : Bool} : ({ s with fwInactive := o, fwPending := f } : State).Inv := h.same rfl rfl

theorem cmd_doFwload : CmdInv (doFwload q e s) := .ite (cmd_error _) (cmd_ok h.parted.setFirmware.accept)

theorem cmd_doAttest : CmdInv (doAttest q e s) := cmd_ok h.answerCmd

protected theorem State.Inv.setPerfSnap {l : Tbl Nat} : ({ s with perfSnap := l } : State).Inv := h.same rfl rfl

end

end Sys2Proof.Machine
end

section
/-!
PROOFS. The invariant under hosts and peers, resets, errors, heat and power (16, 17, 18).
-/

namespace Sys2Proof.Machine
open Sys2Proof Sys2Proof.Say

/-! ### The invariant under what hosts and peers do (16 R290 R292, 18 R321 to R326) -/

section
variable {s : State} (h : s.Inv) {b i k n p q x : Nat} {bs : List Byte}
include h

protected theorem State.Inv.setRefused {l : Tbl Nat} : ({ s with refusedW := l } : State).Inv := h.same rfl rfl

protected theorem State.Inv.countRefused : (countRefused p s).Inv := h.setRefused.count

protected theorem State.Inv.countPeer : (countPeer n s).Inv := h.setRefused

protected theorem State.Inv.heard {src : Source} : (heard src s).Inv := by
  unfold heard
  exact h.setOwner.ite h

protected theorem State.Inv.setCmdqs {l : Tbl (List Packet)} : ({ s with cmdqs := l } : State).Inv := h.same rfl rfl

protected theorem State.Inv.submit {src : Source} : (submit src q bs s).Inv := by
  unfold submit
  extract_lets e t
  have ht : t.Inv := h.heard
  clear_value t
  refine State.Inv.ite ?_ (ht.refuse.ite ht.setCmdqs)
  split
  · exact h.countRefused
  · exact h.countPeer

omit h in
theorem recordCtx_zero {c u : Ctx} {l : List Byte} (hu : recordCtx c l = some u) : u.Zero := by
  unfold recordCtx at hu
  split at hu
  · rename_i hc _
    cases hu
    exact (reloadCtx_zero hc :)
  · cases hu

protected theorem State.Inv.debugWrite : (debugWrite b n bs s).Inv := by
  unfold debugWrite
  extract_lets l
  split
  · exact h
  · rename_i hc
    exact h.setCtx (recordCtx_zero hc)

protected theorem State.Inv.hostWrite : (hostWrite n p bs s).Inv := by
  unfold hostWrite
  split
  · exact h.submit.ite h.countRefused
  · refine h.countRefused.ite (h.ite ?_)
    split
    · exact h.debugWrite
    · exact (h.arrWrites _).ite h

protected theorem State.Inv.setReplies {l : List Reply} : ({ s with replies := l } : State).Inv := h.same rfl rfl

theorem lands_execHostRead : Lands (execHostRead n p k s) := by
  unfold execHostRead
  extract_lets done
  have hdone : ∀ {t : State} (l : List Byte), t.Inv → (done t l).Inv := fun _ ht => ht.setReplies
  clear_value done
  refine lands_next ?_
  split
  · exact hdone _ h
  · exact State.Inv.ite (hdone _ h.parted) h

protected theorem State.Inv.peerAccess {f : Bool} : (peerAccess n f p k bs s).Inv := by
  unfold peerAccess
  extract_lets len served
  exact h.countPeer.ite (h.ite ((h.arrWrites _).ite h.parted.setReplies))

/-! ### Ownership and links (16 R289, 18 R321 R322) -/

protected theorem State.Inv.ownEvent {st : OwnState} : (ownEvent k st p s).Inv := h.own.journal

protected theorem State.Inv.setHostMode {l : Tbl HostMode} : ({ s with hostMode := l } : State).Inv := h.same rfl rfl

protected theorem State.Inv.setSpan {l : Tbl (BitVec 16)} : ({ s with span := l } : State).Inv := h.same rfl rfl

/-! ### Resets (17 R311, 18 R327) -/

protected theorem State.Inv.swapFlash {v : BitVec 384} : (swapFlash v n s).Inv := h.same rfl rfl

protected theorem State.Inv.bootChoice : (bootChoice s).2.Inv := by
  have hchoice := h.choice (n := 4)
  unfold bootChoice
  generalize choice s 4 = o at hchoice ⊢
  obtain ⟨c, t⟩ := o
  have ht : t.Inv := hchoice
  dsimp -zeta only
  split
  · exact ht
  · split
    · split
      · exact ht.swapFlash
      · exact ht
    · exact ht

protected theorem State.Inv.coldReset : (coldReset s).Inv := by
  have hboot := h.bootChoice
  unfold coldReset
  generalize bootChoice s = o at hboot ⊢
  obtain ⟨p, t⟩ := o
  have ht : t.Inv := hboot
  exact State.inv_reset.sameThreads (Memory.wf_filter _ _ ht.memory) rfl

protected theorem State.Inv.closeAll : (closeAll s).Inv := h.foldl (fun _ _ h => h.forceClose) _

protected theorem State.Inv.bootNew : (bootNew s).Inv := by
  unfold bootNew
  split
  · exact h.swapFlash.ite h
  · exact h

protected theorem State.Inv.dropLaunches : (dropLaunches s).Inv := h.foldl (fun _ _ h => h.journal) _

/-- A state of no thread and no vector gang keeps the invariant where its memory is canonical. -/
protected theorem State.Inv.noThreads {t : State} (hm : t.mem = s.mem) (ht : t.threads = ([], [], [], [])) : t.Inv := by
  simp only [State.threads, Prod.mk.injEq] at ht
  obtain ⟨hb, hr, he, hg⟩ := ht
  constructor <;> simp [hm, hb, hr, he, hg, h.memory]

protected theorem State.Inv.warmReset : (warmReset s).Inv := by
  unfold warmReset
  extract_lets t
  have ht : t.Inv := h.closeAll.dropLaunches.bootNew
  clear_value t
  exact ht.noThreads rfl rfl

/-! ### Errors (17 R309, 14 R258) -/

protected theorem State.Inv.addPoison {l : List Nat} : (addPoison l s).Inv := h.setPoison

protected theorem State.Inv.regError : (regError b n s).Inv := by
  have hstruck : ∀ {b n : Nat}, (s.setCtx b (struck n (s.ctx b))).Inv := h.setCtx (by exact h.ctx)
  unfold regError
  refine hstruck.ite ?_
  split
  · exact hstruck.ite h
  · rename_i hc
    have hzero := h.resident_of hc
    exact h.setResident (by exact hzero)
  · exact h

protected theorem State.Inv.coinError {f : Bool} : (coinError b f s).Inv := by
  unfold coinError
  exact h.ite (State.Inv.ite h.publishAt.freeBerth.coinFault (State.Inv.coinLost (h.setCtx (by exact h.ctx))))

protected theorem State.Inv.savedError {c : Ctx} {f : Bool} : (savedError k f c s).Inv := h.leaveSaved.coinGone

protected theorem State.Inv.savedCoinError {f : Bool} : (savedCoinError k i f s).Inv := by
  unfold savedCoinError
  extract_lets rs
  split
  · exact h.delResident.savedError
  · exact State.Inv.savedError (h.setEvict fun e he => h.evict e (List.mem_of_mem_eraseIdx he))
  · exact h

protected theorem State.Inv.recCoinError {f : Bool} : (recCoinError q i f s).Inv := by
  unfold recCoinError
  split
  · exact h.setDeque.coinGone
  · exact h

protected theorem State.Inv.ctxCoinError {f : Bool} : (ctxCoinError k i f s).Inv := by
  unfold ctxCoinError
  split
  · exact h.setArrQ.coinGone
  · exact h

protected theorem State.Inv.mapCmd {f : Cmd → Cmd} : (mapCmd q n f s).Inv := h.same rfl rfl

protected theorem State.Inv.cmdCoinError {f : Bool} : (cmdCoinError q n i f s).Inv := by
  unfold cmdCoinError
  split
  · exact h.mapCmd.ite h.mapCmd.coinLost
  · exact h

protected theorem State.Inv.msgCoinError {f : Bool} : (msgCoinError i k f s).Inv := by
  unfold msgCoinError
  split
  · extract_lets t
    have ht : t.Inv := h.setMsgs
    clear_value t
    split
    · exact ht.wakeSender.coinGone
    · exact ht.wakeSender.coinGone
    · split
      · exact State.Inv.coinGone (ht.ite h.setMsgs)
      · exact h
    · exact h
  · exact h

protected theorem State.Inv.setTlb {l : List TlbEnt} : ({ s with tlb := l } : State).Inv := h.same rfl rfl

protected theorem State.Inv.uncorrectable {e : ErrSite} : (uncorrectable e s).Inv := by
  unfold uncorrectable
  extract_lets counted
  have hcounted : ∀ (d : Nat) {t : State}, t.Inv → (counted d t).Inv := fun _ _ ht => ht.count
  clear_value counted
  cases e with
  | granule key => exact State.Inv.ite (hcounted _ h.addPoison) (hcounted _ h.addPoison)
  | copy q l => exact hcounted _ h.setCopies
  | icache q => exact hcounted _ h.setIcache
  | tlb q => exact hcounted _ h.setTlb
  | guest c l => exact hcounted _ h.setCopies
  | ctlb c => exact hcounted _ h.setTlb
  | xreg b r => exact hcounted _ h.regError
  | vreg b r => exact hcounted _ h.regError
  | coin b f => exact hcounted _ h.coinError
  | savedCoin c i f => exact hcounted _ h.savedCoinError
  | recCoin q i f => exact hcounted _ h.recCoinError
  | ctxCoin c i f => exact hcounted _ h.ctxCoinError
  | cmdCoin q c i f => exact hcounted _ h.cmdCoinError
  | msgCoin i j f => exact hcounted _ h.msgCoinError
  | bursar => exact h.journal.warmReset

/-! ### Heat, power and the governor (18 R329 R330) -/

protected theorem State.Inv.setThrottled {l : List Nat} : ({ s with throttled := l } : State).Inv := h.same rfl rfl

protected theorem State.Inv.setPower {o : Power} : ({ s with power := o } : State).Inv := h.same rfl rfl

protected theorem State.Inv.setCapped {l : Tbl Nat} : ({ s with capped := l } : State).Inv := h.same rfl rfl

end

end Sys2Proof.Machine
end

section
/-!
PROOFS. The invariant through a fetch, an issue and a move of the agenda.
-/

namespace Sys2Proof.Machine
open Sys2Proof Sys2Proof.Say

/-! ### The invariant through a fetch and an issue (03 R51 R59 R60, 17 R309) -/

/-- The state that a fetch leaves keeps the invariant. -/
def Fetched.Keeps : Fetched → Prop
  | .instr _ _ s => s.Inv
  | .miss s => s.Inv
  | .fault _ _ s => s.Inv

/-- The state in which an issue runs an instruction, or that it reaches without one, keeps the invariant. -/
def Issue.Keeps : Issue → Prop
  | .run _ s => s.Inv
  | .instead s => s.Inv

theorem Issue.Keeps.ite {c : Prop} [Decidable c] {o o' : Issue} (h : o.Keeps) (h' : o'.Keeps) : (if c then o else o').Keeps := by
  split
  · exact h
  · exact h'

section
variable {s : State} (h : s.Inv) {b i k n p q w x : Nat}
include h

theorem keeps_decoded : (decoded w x s).Keeps := by
  unfold decoded
  split
  · exact h
  · exact h
  · exact h

theorem keeps_fetch : (fetch s b).Keeps := by
  have hok := @State.Inv.fetchWord_ok s h b (s.ctx b).pc.toNat
  have herr := @State.Inv.fetchWord_error s h b (s.ctx b).pc.toNat
  rw [fetch]
  generalize fetchWord s b (s.ctx b).pc.toNat = o at hok herr ⊢
  cases o with
  | error e => exact herr rfl
  | ok e =>
    obtain ⟨w, t⟩ := e
    have ht : t.Inv := hok rfl
    dsimp -zeta only
    split
    · exact ht
    · split
      · have hok := @State.Inv.fetchWord_ok t ht b (((s.ctx b).pc.toNat + 4) % 2 ^ 56)
        have herr := @State.Inv.fetchWord_error t ht b (((s.ctx b).pc.toNat + 4) % 2 ^ 56)
        generalize fetchWord t b (((s.ctx b).pc.toNat + 4) % 2 ^ 56) = o at hok herr ⊢
        cases o with
        | error e => exact herr rfl
        | ok e =>
          have hu := hok rfl
          dsimp -zeta only
          split
          · exact hu
          · exact keeps_decoded hu
      · exact keeps_decoded ht

omit h in
theorem foldl_zeroReg_zero (l : List Nat) {c : Ctx} (hc : c.Zero) : (l.foldl zeroReg c).Zero := by
  induction l generalizing c with
  | nil => exact hc
  | cons r l ih => exact ih (zeroReg_zero hc r)

omit h in
theorem reportReg_zero {c : Ctx} (hc : c.Zero) : (reportReg c).Zero := foldl_zeroReg_zero c.regErr hc

theorem keeps_issue : (issue s).Keeps := by
  have hfetch := keeps_fetch h (b := s.cur)
  unfold issue
  refine .ite h.discard ?_
  split
  · exact State.Inv.takeFault (h.setTh (reportReg_zero h.th))
  · generalize fetch s s.cur = o at hfetch ⊢
    cases o with
    | fault c a t => exact State.Inv.takeFault hfetch
    | miss t => exact State.Inv.leave hfetch
    | instr i m t => exact State.Inv.count hfetch

theorem keeps_slotIssue : (slotIssue s k).Keeps := by
  have hslot := h.slotOf (k := k) (hold := false)
  unfold slotIssue
  generalize slotOf s k false = o at hslot ⊢
  obtain ⟨o, t⟩ := o
  have ht : t.Inv := hslot
  cases o with
  | none => exact ht
  | some b => exact keeps_issue ht

/-! ### The invariant through a move of the agenda -/

protected theorem State.Inv.combineReturns : (combineReturns i k s).Inv := by
  unfold combineReturns
  split
  · split
    · exact h.setMsgs.count.ite h
    · exact h
  · exact h

protected theorem State.Inv.nonPosted : (nonPosted p k s).Inv := h.ite h.setReplies

protected theorem State.Inv.setLinkBudget {o : Option Nat} : ({ s with linkBudget := o } : State).Inv := h.same rfl rfl

protected theorem State.Inv.setAgenda {l : List Move} : ({ s with agenda := l } : State).Inv := h.same rfl rfl

theorem keeps_takeMove {m : Move} : (takeMove m refuseHead s).Keeps := by
  cases m with
  | slot c => exact keeps_slotIssue h
  | event i => exact Issue.Keeps.ite h h
  | tick n => exact h.tick
  | loseCopy g a l => exact h.setCopies
  | loseFetch q => exact h.setIcache
  | loseTlb c a => exact h.setTlb
  | linkBudget k => exact h.setLinkBudget
  | refuseHead q => exact h.refuseHead
  | combine i j => exact h.combineReturns
  | hbmTraffic d r w => exact h.count.count
  | nonPosted p a => exact h.nonPosted

theorem keeps_nextIssue : (nextIssue refuseHead s).Keeps := by
  unfold nextIssue
  split
  · exact h
  · split
    · exact keeps_takeMove h.setAgenda
    · exact keeps_slotIssue h.tick

end

end Sys2Proof.Machine
end

section
/-!
PROOFS. Every step keeps memory canonical, register 0 zero and vector gangs whole (03 R48, 06 R108): the statement.
-/

namespace Sys2Proof.Machine
open Sys2Proof Sys2Proof.Say

/-! ### The invariant through what each instruction and each step means -/

section
variable {s : State} (h : s.Inv) {n : Nat}
include h

theorem lands_writes {d : Reg} {v : Word} : Lands (writes n d v s) := lands_next h.xw.pass

theorem lands_compare {c : Bool} {k : BitVec 2} : Lands (.next (compare c k n s)) := lands_next h.compare

theorem lands_execBfi {d a : Reg} {f w : BitVec 7} : Lands (execBfi d a f w s) := .ite (lands_next h.pass) (lands_writes h)

theorem lands_specialVec {f : Special} {d a : VIdx} {r : Rnd} : Lands (specialVec f d a r s) := lands_vecOp h

omit h in
theorem ends_notBrokenVec {P : State → Prop} : Ends P (fun _ => True) (notBrokenVec s) := by
  unfold notBrokenVec
  exact (ends_need _ _).mono fun _ _ => trivial

theorem lands_execVext {a : VIdx} {r : Reg} {k : BitVec 5} : Lands (execVext a r k s) :=
  lands_finish h (.bind ends_notBrokenVec fun _ _ => .ok h.xw.pass)

theorem lands_execVscaleRead {a : VIdx} {r : Reg} : Lands (execVscaleRead a r s) :=
  lands_finish h (.bind ends_notBrokenVec fun _ _ => .bind (ends_need _ _) fun _ _ => .ok h.xw.pass)

theorem lands_jump {w : BitVec 56} : Lands (.next (s.setTh { s.th with pc := w })) := lands_next (h.setTh h.th)

theorem lands_execCls {k : BitVec 2} : Lands (execCls k s) := lands_next (State.Inv.pass (h.setTh (by exact h.th)))

theorem lands_execClsReg {a : Reg} : Lands (execClsReg a s) := lands_next (State.Inv.pass (h.setTh (by exact h.th)))

theorem lands_execYield : Lands (execYield s) := lands_next (h.pass.setBerth h.pass.berth)

theorem lands_execQwaitNet {d a : Reg} : Lands (execQwaitNet d a s) := lands_finish h (.bind (ends_need _ _) fun _ _ => .ok h.qwaitRun)

theorem lands_execExpect {a : Reg} {k : BitVec 3} : Lands (execExpect a k s) := lands_finish h h.expectRun

theorem lands_execWaite {a : Reg} {k : BitVec 3} : Lands (execWaite a k s) := lands_finish h h.waiteRun

theorem lands_execSlicemap {q : Nat} {l : List Nat} : Lands (execSlicemap q l s) :=
  lands_command h (f := doSlicemap q l) fun _ _ h => cmd_doSlicemap h

theorem lands_exec (i : Instr) : Lands (exec i s) := by
  cases i with
  -- general registers (05)
  | add | sub | mul | mulh | mulhz | div | divz | rem | remz | and | or | xor | andn => exact lands_writes h
  | shl | shlImm | shr | shrImm | sha | shaImm | rot | rotImm | min | max | minz | maxz | clz | ctz | popc | mov => exact lands_writes h
  | addi | addiExt | andi | andiExt | ori | oriExt | xori | xoriExt | movi | moviExt | lea | leaExt | bfx | bfxs => exact lands_writes h
  | bfi => exact lands_execBfi h
  | cmp | cmpi | cmpiExt | tst | tstBit => exact lands_compare h
  -- vector registers (05)
  | vadd | vsub | vmul | vfma | vfms | vmin | vmax | vabs | vneg | vand | vor | vxor | vshl | vshr | vsha | vcmp | vsel => exact lands_vecOp h
  | vperm | vbcast | vins | vred | vscan | vcvt | vdot | vtag | vscaleWrite => exact lands_vecOp h
  | vrcp | vrsq | vexp2 | vlog2 | vtanh => exact lands_specialVec h
  | vext => exact lands_execVext h
  | vscaleRead => exact lands_execVscaleRead h
  -- memory (11)
  | vld2 | vld2Ext => exact lands_finish h h.vld2Run
  | ldv | ldvExt => exact lands_finish h h.ldvRun
  | stv | stvExt => exact lands_finish h h.stvRun
  | ld | ldExt => exact lands_finish h h.loadRun
  | ldc | ldcExt | ldf | ldfExt => exact lands_finish h h.waitingLoad
  | feq | feqExt => exact lands_finish h h.feqRun
  | st | stExt => exact lands_finish h h.storeRun
  | stf | stfExt => exact lands_finish h h.stfRun
  | fez | fezExt => exact lands_finish h h.fezRun
  | pref | prefExt => exact lands_next h.prefetch.pass
  | aadd => exact lands_finish h h.aaddRun
  | aand | aor | axor | amin | amax | aswp | acas => exact lands_finish h h.atomicRun
  | link => exact lands_execLink h
  | grab => exact lands_finish h h.grabRun
  | fence | fenceb => exact lands_next h.fenceState.pass.away
  -- gangs, tiles, matrices, the assayer (06, 07)
  | gang => exact lands_finish h h.gangRun
  | gangv => exact lands_finish h h.gangvRun
  | disband => exact lands_execDisband h
  | tzero => exact lands_execTzero h
  | tload => exact lands_execTload h
  | tstore => exact lands_execTstore h
  | tshape => exact lands_finish h h.tshapeRun
  | tside => exact lands_finish h h.tsideRun
  | mma => exact lands_finish h h.mmaRun
  | mmas => exact lands_finish h h.mmasRun
  | assay => exact lands_finish h h.assayRun
  | astat => exact lands_execAstat h
  -- engines (12)
  | cpy => exact lands_execCpy h
  | gath | scat => exact lands_collect h
  | qfence => exact lands_finish h h.qfenceRun
  | stage => exact lands_execStage h
  | waitm => exact lands_execWaitm h
  | expect => exact lands_execExpect h
  | waite => exact lands_execWaite h
  -- control (15)
  | b | bExt => exact lands_jump h
  | bl | blExt => exact lands_jump h.linkReg
  | jr | ret => exact lands_finish h h.jumpRun
  | nalloc => exact lands_finish h h.nallocRun
  | nfree => exact lands_finish h h.nfreeRun
  | redex => exact lands_finish h h.redexRun
  | done => exact lands_finish h h.endThread
  | spawn => exact lands_finish h h.spawnRun
  | rnext => exact lands_finish h h.rnextRun
  | rsplit => exact lands_finish h h.rsplitRun
  | migr => exact lands_finish h h.migrRun
  | bar | red => exact lands_finish h h.arriveRun
  | qwait => exact lands_next h.qwaitRun
  | qwaitNet => exact lands_execQwaitNet h
  | cls => exact lands_execCls h
  | clsReg => exact lands_execClsReg h
  | yield => exact lands_execYield h
  -- faults, debugging, special and message registers (17, 15)
  | trap => exact lands_execTrap h
  | eret => exact lands_finish h h.eretRun
  | tlbi | tlbiAll => exact lands_finish h h.tlbiRun
  | save => exact lands_finish h h.saveRun
  | rest => exact lands_finish h h.restRun
  | dbrk => exact lands_execDbrk h
  | srd => exact lands_finish h h.srdRun
  | swr => exact lands_finish h h.swrRun
  | mqRcv => exact lands_execMqRcv h
  | mqSnd => exact lands_finish h h.mqSndRun
  | illegalInstruction | mislanded => exact lands_finish h (ends_fail _)
  -- work (13)
  | dispatch => exact lands_execDispatch h
  | admission => exact lands_execAdmission h
  | contextArrival | remoteRedex | stealReply => exact lands_next h.receive
  | arrivalSpillReadmission => exact lands_next h.readmit
  | refill => exact lands_next h.refill
  | stealProbe => exact lands_next h.stealProbe
  -- memory's steps (08, 09, 11)
  | waitTableReissue => exact lands_next h.reissue
  | memoryReply => exact lands_next (h.replyTo.ite h)
  | settle => exact lands_next h.settleLine
  | rehome => exact lands_execRehome h
  | pageWalk => exact lands_execPageWalk h
  | bankRoleChange => exact lands_next h.changeRoles
  -- engines' steps (12)
  | commandStart => exact lands_execCommandStart h
  | tellerCopy => exact lands_execTellerCopy h
  | replayAnswer => exact lands_execReplayAnswer h
  | gatherRow | scatterRow => exact lands_next h.rowStep
  | engineCompletion => exact lands_execEngineCompletion h
  | operandsConsumed => exact lands_execOperandsConsumed h
  | mmaCompletion => exact lands_execMmaCompletion h
  | assayCompletion => exact lands_execAssayCompletion h
  -- barriers and flits (15)
  | barrierSweep => exact lands_next h.sweep
  | barrierRelease => exact lands_next h.release
  | flitArrival => exact lands_next h.flitArrival
  | flitResend => exact lands_execFlitResend h
  -- faults, mints and nets (13, 14, 17)
  | faultRedex => exact lands_execFaultRedex h
  | voidTrap => exact lands_next h.voidTrap
  | mintReturn => exact lands_execMintReturn h
  | mintBorrow => exact lands_next h.borrow
  | mintClose => exact lands_next (h.startVoid.ite h)
  | qwaitWake => exact lands_execQwaitWake h
  | qwaitRetry => exact lands_execQwaitRetry h
  | deadline => exact lands_execDeadline h
  | bind => exact lands_execBind h
  | netCompletion => exact lands_execNetCompletion h
  | park => exact lands_execPark h
  | rebind => exact lands_execRebind h
  | watchdogExpiry => exact lands_execWatchdogExpiry h
  -- hosts and peers (16, 18)
  | hostWrite => exact lands_next h.hostWrite
  | hostRead => exact lands_execHostRead h
  | peerMemoryAccess => exact lands_next h.peerAccess
  | commandPacket => exact lands_next h.submit
  -- the bursar's commands (16, 18)
  | launch => exact lands_command h fun _ _ h => cmd_doLaunch h
  | abort => exact lands_command h fun _ _ h => cmd_doAbort h
  | halt => exact lands_command h fun _ _ h => cmd_doHalt h
  | resume => exact lands_command h fun _ _ h => cmd_doResume h
  | watchdog => exact lands_command h fun _ _ h => cmd_doWatchdog h
  | arm => exact lands_command h fun _ _ h => cmd_doArm h
  | claim => exact lands_command h fun _ _ h => cmd_doClaim h
  | handover => exact lands_command h fun _ _ h => cmd_doHandover h
  | accept => exact lands_command h fun _ _ h => cmd_doAccept h
  | release => exact lands_command h fun _ _ h => cmd_ok h.own.accept
  | heartbeat => exact lands_command h fun _ _ h => cmd_ok h.accept
  | acl => exact lands_command h fun _ _ h => cmd_doAcl h
  | slicemap => exact lands_execSlicemap h
  | bankrole => exact lands_command h fun _ _ h => cmd_doBankrole h
  | island => exact lands_command h fun _ _ h => cmd_doIsland h
  | powercap => exact lands_command h fun _ _ h => cmd_doPowercap h
  | window => exact lands_command h fun _ _ h => cmd_doWindow h
  | fwload => exact lands_command h fun _ _ h => cmd_doFwload h
  | attest => exact lands_command h fun _ _ h => cmd_doAttest h
  | snapshot => exact lands_command h fun _ _ h => cmd_ok h.setPerfSnap.accept
  -- the module as a whole (16, 17, 18)
  | handoverTimeout | ownerTimeout => exact lands_next (h.ownEvent.ite h)
  | successorLinkDown | ownerLinkDown => exact lands_next (h.setHostMode.ownEvent.ite h)
  | hostPortTraining => exact lands_next h.setHostMode
  | spanLinkAttestation => exact lands_next (h.setSpan.ite h)
  | coldReset => exact lands_next h.coldReset
  | warmReset => exact lands_next h.warmReset
  | correctedError => exact lands_next h.count
  | uncorrectableError => exact lands_next h.uncorrectable
  | thermalThrottle => exact lands_next (h.ite h.setThrottled.journal)
  | throttleEnd => exact lands_next (h.setThrottled.journal.ite h)
  | thermalTrip => exact lands_next h.journal.setPower
  | islandPointLowering => exact lands_next (h.setCapped.ite h)
  | governorBubble => exact lands_next h.slotOf

end

/-- Settles O60: what comes next is an instruction or a move of the agenda (`keeps_nextIssue`), and what each means keeps the invariant (`lands_exec`). -/
theorem everyStepKeepsTheInvariant : Obligations.EveryStepKeepsTheInvariant := by
  intro s t h hstep
  unfold step at hstep
  split at hstep
  · cases hstep
  · have hissue := keeps_nextIssue h
    generalize nextIssue refuseHead s = o at hissue hstep
    cases o with
    | run i u => exact lands_exec hissue i t hstep
    | instead u =>
      cases hstep
      exact hissue

end Sys2Proof.Machine
end
